-- ==== Sys2Proof/Word.lean ====
section
/-!
DEFINITION. Words, bytes and the named small data of the KX-480's chapters 1, 4, 7 and 8: types, modes, tagged words, messages
and the requests that reach a port. Nothing here computes; the machine's meaning is under Machine/.
-/
namespace Sys2Proof

/-- A 64-bit word (R8). -/
abbrev Word := BitVec 64
/-- One byte (R8). -/
abbrev Byte := BitVec 8
/-- A fault code of R396; 0 where the spec writes "success". -/
abbrev Code := BitVec 8
/-- A pointer register number, P0 to P7 (R224). -/
abbrev PReg := Fin 8

/-- The types that a ty field names (R111, R112, R228). -/
inductive Ty where
  | i8 | i16 | i32 | i64 | u8 | u16 | u32 | u64 | fp16 | bf16 | fp32 | fp64 | nf | nfs | ref
  deriving DecidableEq, Repr

/-- The addressing modes of R229: displaced, post-step, pre-update, post-displaced. -/
inductive Am where
  | disp | step | preUpd | postDisp
  deriving DecidableEq, Repr

/-- The rounding field of R126 (its reserved codes are refused at decode). -/
inductive Rnd where
  | rne | rtz | rdn | rup | rst | dyn
  deriving DecidableEq, Repr

/-- A source of `mov` (R238). -/
inductive MovSrc where
  | a | ldq | k | f | imm
  deriving DecidableEq, Repr

/-- A destination of `mov` (R238). -/
inductive MovDst where
  | a | stq | xq | k
  deriving DecidableEq, Repr

/-- The token name field tn of R240: none, or a token slot. -/
abbrev TokName := Option (Fin 4)

/-- A 64-bit word with its reference tag (R138). -/
structure TWord where
  val : Word
  tag : Bool
  deriving DecidableEq, Repr

/-- The kind of a message (R207). -/
inductive MsgKind where
  | data | rcmd | notice
  deriving DecidableEq, Repr

/-- A message with the fields of its header H0, H1 (R207) and its payload words. -/
structure Msg where
  kind  : MsgKind
  chan  : BitVec 5
  spw   : Bool
  held  : Bool
  src   : BitVec 15
  dst   : BitVec 15
  spkg  : BitVec 18
  tok   : BitVec 24
  words : List TWord
  /-- the destination was named by an address of the DRAM window, so an absent index stands for index 63 (R335) -/
  line  : Bool := false
  /-- a `mig` or a `yield` sent it, which may leave the region of a spawned chain (R339) -/
  moves : Bool := false
  deriving DecidableEq, Repr

/-- Who makes a request: a cell or engine of the owning cluster, or one outside it, with what every request carries
(R108, R436): its partition and its compartment. -/
structure Requester where
  /-- the requester lies outside the cluster -/
  remote : Bool
  /-- logical cell number of the requester -/
  lcell  : BitVec 15
  /-- pod prefix of the requester's cluster -/
  place  : Word
  ptn    : BitVec 24
  cmpt   : BitVec 6
  /-- an atomic slot, an engine or a pump slot rather than a general slot (R62) -/
  engine : Bool
  /-- the requester's own number for the request, returned with the reply -/
  rid    : Nat
  /-- the RCB of the issuing activation's region, 0 where none issues it (R206) -/
  rcb    : Word
  /-- the access is an atomic slot's own, by its handler (R176) -/
  atomic : Bool := false
  deriving DecidableEq, Repr

/-- The access units of R27 and R277. `scaled` marks the nfs placement of R123. -/
inductive AccUnit where
  | bytes (n : Nat)
  | elem  (scaled : Bool) (i : Int)
  | group (scaled : Bool) (g : Int)
  deriving DecidableEq, Repr

/-- The kinds of access of R53 and R60. -/
inductive AccKind where
  | load | store | fetch | deposit | atomic | engRead | engWrite | stationary
  deriving DecidableEq, Repr

/-- What a write carries to a port: plain bytes with word tags, or NF codes with the descriptor they were encoded by
(R283, R302). -/
inductive WData where
  /-- bytes from the address upward; `tags` holds one tag per word written -/
  | bytes (bs : List Byte) (tags : List Bool)
  /-- one element: its code bits, and the width, descriptor and geometry the entry carried (`none` where it carries none) -/
  | elem  (scaled : Bool) (i : Int) (code : BitVec 8) (width : Option Nat)
  /-- a group: codes of lanes with the lane mask, and the carried encoding -/
  | group (scaled : Bool) (g : Int) (codes : List (BitVec 8)) (mask : BitVec 32) (desc : Option (BitVec 24))
      (geo : BitVec 4) (scale : BitVec 8) (whole : Bool)
  deriving DecidableEq, Repr

/-- A load, store or deposit that reaches a port of the cluster, at an own-space address. -/
structure PortReq where
  who  : Requester
  kind : AccKind
  oa   : Word
  deriving DecidableEq, Repr

/-- The atomic operations of R242. -/
inductive AmoOp where
  | add | min | max | minu | maxu | and | or | xor | swap | cas | enq | deq | adv | user
  deriving DecidableEq, Repr

/-- An atomic request (R175, R327): the target, the operation, its size in bytes and the operand words. -/
structure AtomReq where
  who   : Requester
  oa    : Word
  op    : AmoOp
  size  : Nat
  words : List TWord
  /-- the token the request asked for, answered by a landing acknowledgement (R188), else 0 -/
  tok   : BitVec 24
  deriving DecidableEq, Repr

/-- A deposit (R171): the target, what is written, and the token asked for (R188), else 0. -/
structure DepositReq where
  who  : Requester
  oa   : Word
  data : WData
  tok  : BitVec 24
  deriving DecidableEq, Repr

/-- A watch placed at its owner (R164): the word, the threshold, whether it acquires, and the register that waits. -/
structure WatchReq where
  who    : Requester
  oa     : Word
  thresh : Word
  acq    : Bool
  deriving DecidableEq, Repr

/-- The reply to a watch (R164): answered with the word and the publish counter, the "not met" mark, or a refusal. -/
inductive WatchAns where
  | met (v c : Word)
  | notMet
  | refused (code : Code)
  deriving DecidableEq, Repr

/-- An LDQ or STQ entry's unit (R279). -/
inductive QUnit where
  | element | group | line | other
  deriving DecidableEq, Repr

/-- An LDQ or STQ entry (R279, R302). `desc` is `none` where the entry carries no descriptor (R307). -/
structure QEntry where
  data  : List Word
  tags  : BitVec 16
  ty    : Ty
  unit  : QUnit
  desc  : Option (BitVec 24)
  geo   : BitVec 4
  scale : BitVec 8
  mask  : BitVec 32
  /-- the entry of `vpacks`, whose store also writes the segment's scale (R304) -/
  whole : Bool
  deriving DecidableEq, Repr

/-- The reply to a load of a pod address of another cluster (R280): the entry's contents with the line, its stamp, whether it may be reflected, and its ckey, or a code. -/
inductive LoadAns where
  | data (e : QEntry) (line : List Byte) (ltags : BitVec 16) (stamp : Word) (reflect : Bool) (ckey : BitVec 6)
  | refused (code : Code)
  deriving DecidableEq, Repr

/-- Which slot of the cell an event names (R217): general 0 to 3, or the atomic slot. -/
inductive SlotId where
  | gen (n : Fin 4)
  | atomic
  deriving DecidableEq, Repr

/-- A walk-queue entry (R151): the root's own-space line address, if any, the sequence word's own-space address, and the
activation that waits. -/
structure WalkEnt where
  root : Option Word
  word : Word
  slot : SlotId
  who  : BitVec 15
  deriving DecidableEq, Repr

/-- A control cell's write of `ctl.cistern`: the cell, and the region of the activation that writes. -/
structure FillAt where
  cell : Fin 64
  rcb : Word
  deriving DecidableEq, Repr

/-- The watch that an answer is for: its number, or the owner of one of another cell of the cluster, a `sibling`. -/
structure WatchAt where
  rid : Nat
  sibling : Option Word
  deriving DecidableEq, Repr

/-- What a report of activations is about: the region, and the cell where it is one of this cluster. -/
structure ReportAt where
  rcb : Word
  cell : Option (Fin 64)
  deriving DecidableEq, Repr

/-- What becomes of an engine's command of another cell of the cluster: it enters the queue, starts, or has ended. -/
inductive CmdStage where
  | queued | started | ended
  deriving DecidableEq, Repr

/-- A command of an engine: the modelled cell's by its number, or one of another cell of the cluster. -/
inductive CmdAt where
  | own (num : Nat)
  | other (cell : Fin 64) (stage : CmdStage)
  deriving DecidableEq, Repr

/-- A step of the collective engine: an answer of a peer of the modelled cell's command, or a command of another cell of the cluster. -/
inductive CollAt where
  | own (peer : Fin 64)
  | other (cell : Fin 64) (stage : CmdStage)
  deriving DecidableEq, Repr

/-- What the scrub engine does: a frame of the own slice; or the reflection caches of a partition are emptied for a frame of the home at
another place, which numbers its message (R71). -/
inductive ScrubAt where
  | own (frame : BitVec 16)
  | other (place : Word) (ptn : BitVec 24) (rid : Nat)
  deriving DecidableEq, Repr

/-- What the code of a line makes of a read (R78, R79). -/
inductive EccOutcome where
  | clean | corrected | uncorrectable
  deriving DecidableEq, Repr

/-- The outcome for the aligned 8-bit symbols in which a line, with its side band, differs from what was written: an error in one is
corrected and one in two is detected (R78). One in more counts as detected (DESIGN CHOICE, log 107). -/
def eccOutcome (struck : List (Fin 144)) : EccOutcome :=
  match struck.eraseDups.length with
  | 0 => .clean
  | 1 => .corrected
  | _ => .uncorrectable

/-- What a barrier signal is (R220): a row signal from the west or a column signal from the north. -/
inductive BarSig where
  | row | col
  deriving DecidableEq, Repr

/-- A flit as it arrives (R421): header fields and the message it completes, with the outcome of its check (R422). -/
structure Flit where
  dst  : BitVec 18
  src  : BitVec 18
  cls  : BitVec 2
  rly  : Bool
  last : Bool
  seq  : BitVec 20
  body : List Byte
  deriving DecidableEq, Repr

/-- What a port meets in a slot (R417, R422, R424): the package that the received opening flit names, whether it advertises room for
multicast copies, and how many of the flits sent were acknowledged by the slot's end. -/
structure PortSlot where
  peer  : BitVec 18
  room  : Bool
  acked : Nat
  /-- the positions in the slot that the peer refused after correction (R422) -/
  refused : List Nat := []
  deriving DecidableEq, Repr

/-- What the FEC finds at a flit that arrives, and its CRC field (R421, R422): the length of the burst from the first wrong bit to the last
in bytes 0 to 247, 0 for none, and the first. The flit beside it is as the FEC leaves it. -/
structure RxCheck where
  burst : Nat
  first : Nat
  crc   : BitVec 64
  deriving DecidableEq, Repr

/-- A frame of a far link (R426): Ethernet and VLAN tags, IP, UDP, and the payload with its ciphertext and tag. -/
structure FarFrame where
  port    : BitVec 5
  dmac    : BitVec 48
  smac    : BitVec 48
  vlan    : List (BitVec 16)
  v6      : Bool
  /-- IPv4 options or IPv6 extension headers -/
  options : Bool
  df      : Bool
  fragment : Bool
  src     : BitVec 128
  dst     : BitVec 128
  sport   : BitVec 16
  dport   : BitVec 16
  checksum : BitVec 16
  sid     : BitVec 32
  counter : Nat
  n       : Nat
  zero    : BitVec 16
  cipher  : List Byte
  tag     : BitVec 128
  deriving DecidableEq, Repr

/-- What a peer sends to open a session (R451): whether its device identity key is certified by the Omhan root, its nonce, its part of the
key exchange, and the session identifier that it wants to see. -/
structure PeerHello where
  certified : Bool
  nonce : BitVec 256
  kem   : List Byte
  sid   : BitVec 32
  deriving DecidableEq, Repr

/-- The power states of R461. -/
inductive PowerState where
  | run | hold | off
  deriving DecidableEq, Repr

/-- The two kinds of compartment (R437). -/
inductive CompKind where
  | data | weight
  deriving DecidableEq, Repr

/-- The target word of mailbox ops 0x02 and 0x07 (R458). -/
structure MbTarget where
  space : BitVec 4
  die   : BitVec 3
  pclu  : BitVec 6
  index : BitVec 32
  deriving DecidableEq, Repr

/-- What the host does at the mailbox registers of a port (R457): it writes an 8-byte register at an offset of the capability, with what
the reads of host memory that a submitted command makes return, or it reads one. -/
inductive DvsecAccess where
  | write (off : Nat) (value : Word) (host : List Byte)
  | read (off : Nat)
  deriving DecidableEq, Repr

/-- A ckey at a cluster of the package, and an own-space address there (R458). -/
structure CkeyAt where
  ckey : BitVec 6
  die  : BitVec 3
  pclu : BitVec 6
  deriving DecidableEq, Repr

structure OwnAt where
  oa   : Word
  die  : BitVec 3
  pclu : BitVec 6
  deriving DecidableEq, Repr

/-- A directory half's state (R433). -/
inductive HalfState where
  | I | S | E
  deriving DecidableEq, Repr

/-- A host agent (R430, R433): its port, its number, and the virtual function it is bound to. -/
structure HostAgent where
  port  : Bool
  agent : BitVec 8
  vf    : BitVec 9
  deriving DecidableEq, Repr

/-- What a cell's budget or credit request asks for (R203, R216). -/
inductive GrantKind where
  | activations | cycles | credit
  deriving DecidableEq, Repr

/-- A region's fields as launch resolved them from its RCB and its ancestors (R197). -/
structure RegInfo where
  rcb    : Word
  pri    : BitVec 3
  ctlc   : BitVec 6
  trapc  : BitVec 5
  trot   : Nat
  tfar   : Nat
  nfr    : Nat
  /-- base of the save area; 0 for no area -/
  save   : Word
  sump   : Word
  slines : Nat
  evsave : Word
  rect   : BitVec 32
  /-- pod address of the RCB that pays activations, cycles, credit; 0 where unlimited -/
  payA   : Word
  payC   : Word
  payS   : Word
  /-- the chain of RCB addresses from the region to its root -/
  chain  : List Word
  deriving DecidableEq, Repr

/-- One handler record as a home installs it (R201, R205). -/
structure InstallRec where
  info : RegInfo
  rect : BitVec 32
  chan : BitVec 5
  e0   : Word
  e1   : Word
  e2   : Word
  deriving DecidableEq, Repr

/-- What is held at a destination package on a token (R193). -/
inductive HeldBody where
  | message (who : Requester) (m : Msg) (tok : BitVec 24)
  | deposit (req : DepositReq)
  | atomic  (req : AtomReq)
  | rcmd    (who : Requester) (rcb : Word) (k : BitVec 4) (tok : BitVec 24)
  deriving DecidableEq, Repr

/-- A message held on a token (R193), with the time left it carries, in microseconds, and the cluster of the package that it is for, by
physical number and partition, where that is another than the modelled one (R192). -/
structure HeldMsg where
  hid  : Nat
  tok  : BitVec 24
  left : Nat
  body : HeldBody
  other : Option (BitVec 9 × BitVec 24) := none
  deriving DecidableEq, Repr

/-- How many messages a release notice lets pass, and the partition that sends it where it is another than the modelled cluster's
(R192, R193). -/
structure RelCount where
  count : Nat
  ptn   : Option (BitVec 24) := none
  deriving DecidableEq, Repr

/-- What a pull from a collective member's stage returns (R389, R391): its control line with the counter value of the watch's answer
(R90), and the wire slot, or a code. -/
inductive CollPeer where
  | line (seq count : Word) (inst round : BitVec 32) (lost : Word) (slot : List Byte)
  | refused (code : Code)
  /-- the pull of the line at an offset of the stage was refused -/
  | refusedAt (code : Code) (off : Nat)
  deriving DecidableEq, Repr

end Sys2Proof
end

