-- ==== Sys2Proof/Syntax.lean ====
section
/-!
DEFINITION. The one inductive of the model: a constructor for every row of spec/opcode_table.json. The first part holds the
instruction words (R224 to R243, R248), with register numbers, types, modes and rounding fields already decoded; the second part
holds the table's steps that have no encoding (spec/95_what_each_step_holds.md), each with the operands that the arriving
message, reply, host command or unit brings.
-/
namespace Sys2Proof

/-- The KX-480's instructions and steps: one constructor per row of spec/opcode_table.json. -/
inductive Instr where
  /-- `pmov` (R263): Copies value, step and tag of ps into pd. -/
  | pmov (pd ps : PReg)
  /-- `padd` (R263): pd := pd + ps modulo 2^64, tag cleared, step kept. -/
  | padd (pd ps : PReg)
  /-- `psub` (R263): pd := pd - ps, tag cleared. -/
  | psub (pd ps : PReg)
  /-- `paddi` (R263): pd := ps + sign-extended immediate, tag cleared. -/
  | paddi (pd ps : PReg) (imm : BitVec 16)
  /-- `pand` (R263): pd := pd and ps, tag cleared. -/
  | pand (pd ps : PReg)
  /-- `por` (R263): pd := pd or ps, tag cleared. -/
  | por (pd ps : PReg)
  /-- `pxor` (R263): pd := pd xor ps, tag cleared. -/
  | pxor (pd ps : PReg)
  /-- `pshl` (R263): pd := ps shifted left by n, tag cleared. -/
  | pshl (pd ps : PReg) (n : BitVec 6)
  /-- `pshr` (R263): pd := ps shifted right logically by n, tag cleared. -/
  | pshr (pd ps : PReg) (n : BitVec 6)
  /-- `pset` (R263): pd := sign-extended immediate, tag cleared. -/
  | pset (pd : PReg) (imm : BitVec 16)
  /-- `pseth` (R263): Sets pd bits [63:16] from the immediate keeping bits [15:0]. -/
  | pseth (pd : PReg) (imm : BitVec 16)
  /-- `pstep` (R263): Sets the step of pd, keeping its value. -/
  | pstep (pd : PReg) (imm : BitVec 16)
  /-- `pscal` (R263): pd := pd + (ps << n), tag cleared. -/
  | pscal (pd ps : PReg) (n : BitVec 3)
  /-- `mkref` (R140): Checks an own-space address and forms a tagged reference with the cluster's pod prefix. -/
  | mkref (pd ps : PReg)
  /-- `pclr` (R263): Clears value, step and tag of pd. -/
  | pclr (pd : PReg)
  /-- `pbeq` (R267): Branches when pd equals ps. -/
  | pbeq (pd ps : PReg) (off : BitVec 16)
  /-- `pbne` (R267): Branches when pd differs from ps. -/
  | pbne (pd ps : PReg) (off : BitVec 16)
  /-- `pblt` (R267): Branches when pd < ps signed. -/
  | pblt (pd ps : PReg) (off : BitVec 16)
  /-- `pbge` (R267): Branches when pd >= ps signed. -/
  | pbge (pd ps : PReg) (off : BitVec 16)
  /-- `pbltu` (R267): Branches when pd < ps unsigned. -/
  | pbltu (pd ps : PReg) (off : BitVec 16)
  /-- `pbgeu` (R267): Branches when pd >= ps unsigned. -/
  | pbgeu (pd ps : PReg) (off : BitVec 16)
  /-- `pbtag` (R267): Branches when pd's tag is set. -/
  | pbtag (pd : PReg) (off : BitVec 16)
  /-- `pbnt` (R267): Branches when pd's tag is clear. -/
  | pbnt (pd : PReg) (off : BitVec 16)
  /-- `br` (R268): Unconditional PC-relative branch. -/
  | br (off : BitVec 22)
  /-- `call` (R268): Branches and writes the return address into P7. -/
  | call (off : BitVec 22)
  /-- `bz` (R268): Branches when Z = 1 after the execute half has issued older parts. -/
  | bz (off : BitVec 22)
  /-- `bnz` (R268): Branches when Z = 0. -/
  | bnz (off : BitVec 22)
  /-- `bn` (R268): Branches when N = 1. -/
  | bn (off : BitVec 22)
  /-- `bnn` (R268): Branches when N = 0. -/
  | bnn (off : BitVec 22)
  /-- `bc` (R268): Branches when C = 1. -/
  | bc (off : BitVec 22)
  /-- `bnc` (R268): Branches when C = 0. -/
  | bnc (off : BitVec 22)
  /-- `bo` (R268): Branches when O = 1. -/
  | bo (off : BitVec 22)
  /-- `bno` (R268): Branches when O = 0. -/
  | bno (off : BitVec 22)
  /-- `bx` (R268): Branches when X = 1. -/
  | bx (off : BitVec 22)
  /-- `bnx` (R268): Branches when X = 0. -/
  | bnx (off : BitVec 22)
  /-- `bxz` (R269): Pops XQ and branches when the word is zero. -/
  | bxz (off : BitVec 22)
  /-- `bxnz` (R269): Pops XQ and branches when the word is nonzero. -/
  | bxnz (off : BitVec 22)
  /-- `bxs` (R269): Pops XQ and branches when bit 63 is set. -/
  | bxs (off : BitVec 22)
  /-- `bxns` (R269): Pops XQ and branches when bit 63 is clear. -/
  | bxns (off : BitVec 22)
  /-- `bxt` (R269): Pops XQ and branches when bit 0 is set. -/
  | bxt (off : BitVec 22)
  /-- `bxf` (R269): Pops XQ and branches when bit 0 is clear. -/
  | bxf (off : BitVec 22)
  /-- `loop` (R273): Starts a zero-overhead loop with count from ps. -/
  | loop (ps : PReg) (len : BitVec 16)
  /-- `loopi` (R273): Starts a zero-overhead loop with an immediate count pd*8+ps. -/
  | loopi (n : BitVec 6) (len : BitVec 16)
  /-- `jmp` (R271): Jumps to the address in ps. -/
  | jmp (ps : PReg)
  /-- `jal` (R271): Writes PC+4 into pd and jumps to ps. -/
  | jal (pd ps : PReg)
  /-- `lq` (R280): Loads one element into an LDQ entry. -/
  | lq (p : PReg) (am : Am) (ty : Ty) (d : BitVec 12)
  /-- `lqv` (R280): Loads one vector group into an LDQ entry. -/
  | lqv (p : PReg) (am : Am) (ty : Ty) (d : BitVec 12)
  /-- `lql` (R280): Loads one line into an LDQ entry. -/
  | lql (p : PReg) (am : Am) (ty : Ty) (d : BitVec 12)
  /-- `sq` (R283): Pops STQ and stores one element through the store queue. -/
  | sq (p : PReg) (am : Am) (ty : Ty) (d : BitVec 12)
  /-- `sqv` (R283): Pops STQ and stores one vector group. -/
  | sqv (p : PReg) (am : Am) (ty : Ty) (d : BitVec 12)
  /-- `sql` (R283): Pops STQ and stores one line. -/
  | sql (p : PReg) (am : Am) (ty : Ty) (d : BitVec 12)
  /-- `rl` (R281): Pod-optimised load of one element into LDQ. -/
  | rl (p : PReg) (am : Am) (ty : Ty) (d : BitVec 12)
  /-- `rlv` (R281): Pod-optimised load of one vector group into LDQ. -/
  | rlv (p : PReg) (am : Am) (ty : Ty) (d : BitVec 12)
  /-- `rll` (R281): Pod-optimised load of one line into LDQ. -/
  | rll (p : PReg) (am : Am) (ty : Ty) (d : BitVec 12)
  /-- `lp` (R287): Loads a word with its tag into pointer pd. -/
  | lp (pd ps : PReg) (imm : BitVec 16)
  /-- `sp` (R287): Stores pd's value and tag through the store queue. -/
  | sp (pd ps : PReg) (imm : BitVec 16)
  /-- `rlp` (R287): Pod-optimised load of a word with its tag into pd. -/
  | rlp (pd ps : PReg) (imm : BitVec 16)
  /-- `lda` (R295): A := memory operand. -/
  | lda (p : PReg) (am : Am) (ty : Ty) (d : BitVec 12)
  /-- `add` (R295): A := A + m wrapping, flags set. -/
  | add (p : PReg) (am : Am) (ty : Ty) (d : BitVec 12)
  /-- `sub` (R295): A := A - m. -/
  | sub (p : PReg) (am : Am) (ty : Ty) (d : BitVec 12)
  /-- `rsub` (R295): A := m - A. -/
  | rsub (p : PReg) (am : Am) (ty : Ty) (d : BitVec 12)
  /-- `adds` (R295): A := A + m saturating. -/
  | adds (p : PReg) (am : Am) (ty : Ty) (d : BitVec 12)
  /-- `subs` (R295): A := A - m saturating. -/
  | subs (p : PReg) (am : Am) (ty : Ty) (d : BitVec 12)
  /-- `and` (R295): A := A and m. -/
  | and (p : PReg) (am : Am) (ty : Ty) (d : BitVec 12)
  /-- `or` (R295): A := A or m. -/
  | or (p : PReg) (am : Am) (ty : Ty) (d : BitVec 12)
  /-- `xor` (R295): A := A xor m. -/
  | xor (p : PReg) (am : Am) (ty : Ty) (d : BitVec 12)
  /-- `andn` (R295): A := A and not m. -/
  | andn (p : PReg) (am : Am) (ty : Ty) (d : BitVec 12)
  /-- `shl` (R295): A shifted left by m. -/
  | shl (p : PReg) (am : Am) (ty : Ty) (d : BitVec 12)
  /-- `shr` (R295): A shifted right logically by m. -/
  | shr (p : PReg) (am : Am) (ty : Ty) (d : BitVec 12)
  /-- `sar` (R295): A shifted right arithmetically by m. -/
  | sar (p : PReg) (am : Am) (ty : Ty) (d : BitVec 12)
  /-- `rol` (R295): A rotated left by m mod w. -/
  | rol (p : PReg) (am : Am) (ty : Ty) (d : BitVec 12)
  /-- `ror` (R295): A rotated right by m mod w. -/
  | ror (p : PReg) (am : Am) (ty : Ty) (d : BitVec 12)
  /-- `min` (R295): A := minimum of A and m. -/
  | min (p : PReg) (am : Am) (ty : Ty) (d : BitVec 12)
  /-- `max` (R295): A := maximum of A and m. -/
  | max (p : PReg) (am : Am) (ty : Ty) (d : BitVec 12)
  /-- `cmp` (R295): Sets flags of A - m. -/
  | cmp (p : PReg) (am : Am) (ty : Ty) (d : BitVec 12)
  /-- `tst` (R295): Sets flags of A and m. -/
  | tst (p : PReg) (am : Am) (ty : Ty) (d : BitVec 12)
  /-- `popc` (R295): A := count of ones in m. -/
  | popc (p : PReg) (am : Am) (ty : Ty) (d : BitVec 12)
  /-- `clz` (R295): A := leading zeros of m. -/
  | clz (p : PReg) (am : Am) (ty : Ty) (d : BitVec 12)
  /-- `ctz` (R295): A := trailing zeros of m. -/
  | ctz (p : PReg) (am : Am) (ty : Ty) (d : BitVec 12)
  /-- `bswap` (R295): A := m with bytes reversed. -/
  | bswap (p : PReg) (am : Am) (ty : Ty) (d : BitVec 12)
  /-- `sta` (R295): Pushes A to STQ and stores its low bytes at the address. -/
  | sta (p : PReg) (am : Am) (ty : Ty) (d : BitVec 12)
  /-- `mul` (R296): A := low half of A × m. -/
  | mul (p : PReg) (am : Am) (ty : Ty) (d : BitVec 12)
  /-- `mulh` (R296): A := high half of A × m. -/
  | mulh (p : PReg) (am : Am) (ty : Ty) (d : BitVec 12)
  /-- `muls` (R296): A := A × m saturating. -/
  | muls (p : PReg) (am : Am) (ty : Ty) (d : BitVec 12)
  /-- `div` (R296): A := A / m truncated, on the divider. -/
  | div (p : PReg) (am : Am) (ty : Ty) (d : BitVec 12)
  /-- `rem` (R296): A := remainder of A / m. -/
  | rem (p : PReg) (am : Am) (ty : Ty) (d : BitVec 12)
  /-- `fadd` (R297): A := A + m rounded. -/
  | fadd (p : PReg) (am : Am) (ty : Ty) (r : Rnd) (d : BitVec 9)
  /-- `fsub` (R297): A := A - m rounded. -/
  | fsub (p : PReg) (am : Am) (ty : Ty) (r : Rnd) (d : BitVec 9)
  /-- `frsub` (R297): A := m - A rounded. -/
  | frsub (p : PReg) (am : Am) (ty : Ty) (r : Rnd) (d : BitVec 9)
  /-- `fmul` (R297): A := A × m rounded. -/
  | fmul (p : PReg) (am : Am) (ty : Ty) (r : Rnd) (d : BitVec 9)
  /-- `fdiv` (R297): A := A / m rounded. -/
  | fdiv (p : PReg) (am : Am) (ty : Ty) (r : Rnd) (d : BitVec 9)
  /-- `frdiv` (R297): A := m / A rounded. -/
  | frdiv (p : PReg) (am : Am) (ty : Ty) (r : Rnd) (d : BitVec 9)
  /-- `fsqrt` (R297): A := square root of m. -/
  | fsqrt (p : PReg) (am : Am) (ty : Ty) (r : Rnd) (d : BitVec 9)
  /-- `fmin` (R297): A := lesser of A and m. -/
  | fmin (p : PReg) (am : Am) (ty : Ty) (r : Rnd) (d : BitVec 9)
  /-- `fmax` (R297): A := greater of A and m. -/
  | fmax (p : PReg) (am : Am) (ty : Ty) (r : Rnd) (d : BitVec 9)
  /-- `fabs` (R297): A := m with sign cleared. -/
  | fabs (p : PReg) (am : Am) (ty : Ty) (d : BitVec 9)
  /-- `fneg` (R297): A := m with sign inverted. -/
  | fneg (p : PReg) (am : Am) (ty : Ty) (d : BitVec 9)
  /-- `fcmp` (R297): Sets flags comparing A with m. -/
  | fcmp (p : PReg) (am : Am) (ty : Ty) (d : BitVec 9)
  /-- `fclass` (R297): A := class mask of m. -/
  | fclass (p : PReg) (am : Am) (ty : Ty) (d : BitVec 9)
  /-- `frnd` (R297): A := m rounded to an integral value. -/
  | frnd (p : PReg) (am : Am) (ty : Ty) (r : Rnd) (d : BitVec 9)
  /-- `fscale` (R297): A := A × 2^trunc(m). -/
  | fscale (p : PReg) (am : Am) (ty : Ty) (r : Rnd) (d : BitVec 9)
  /-- `cvt` (R298): Converts m into A as the destination type. -/
  | cvt (p : PReg) (am : Am) (dt ty : Ty) (r : Rnd) (d : BitVec 9)
  /-- `cvts` (R298): Converts m into A saturating. -/
  | cvts (p : PReg) (am : Am) (dt ty : Ty) (r : Rnd) (d : BitVec 9)
  /-- `vld` (R299): V := group m, with tags for ref. -/
  | vld (p : PReg) (am : Am) (ty : Ty) (d : BitVec 12)
  /-- `vst` (R299): Pushes V and stores its lanes. -/
  | vst (p : PReg) (am : Am) (ty : Ty) (d : BitVec 12)
  /-- `vadd` (R299): V := V + m lane-wise. -/
  | vadd (p : PReg) (am : Am) (ty : Ty) (d : BitVec 12)
  /-- `vsub` (R299): V := V - m. -/
  | vsub (p : PReg) (am : Am) (ty : Ty) (d : BitVec 12)
  /-- `vrsub` (R299): V := m - V. -/
  | vrsub (p : PReg) (am : Am) (ty : Ty) (d : BitVec 12)
  /-- `vadds` (R299): V := V + m saturating. -/
  | vadds (p : PReg) (am : Am) (ty : Ty) (d : BitVec 12)
  /-- `vsubs` (R299): V := V - m saturating. -/
  | vsubs (p : PReg) (am : Am) (ty : Ty) (d : BitVec 12)
  /-- `vand` (R299): V := V and m. -/
  | vand (p : PReg) (am : Am) (ty : Ty) (d : BitVec 12)
  /-- `vor` (R299): V := V or m. -/
  | vor (p : PReg) (am : Am) (ty : Ty) (d : BitVec 12)
  /-- `vxor` (R299): V := V xor m. -/
  | vxor (p : PReg) (am : Am) (ty : Ty) (d : BitVec 12)
  /-- `vandn` (R299): V := V and not m. -/
  | vandn (p : PReg) (am : Am) (ty : Ty) (d : BitVec 12)
  /-- `vshl` (R299): Lane-wise left shift. -/
  | vshl (p : PReg) (am : Am) (ty : Ty) (d : BitVec 12)
  /-- `vshr` (R299): Lane-wise logical right shift. -/
  | vshr (p : PReg) (am : Am) (ty : Ty) (d : BitVec 12)
  /-- `vsar` (R299): Lane-wise arithmetic right shift. -/
  | vsar (p : PReg) (am : Am) (ty : Ty) (d : BitVec 12)
  /-- `vmin` (R299): Lane-wise minimum. -/
  | vmin (p : PReg) (am : Am) (ty : Ty) (d : BitVec 12)
  /-- `vmax` (R299): Lane-wise maximum. -/
  | vmax (p : PReg) (am : Am) (ty : Ty) (d : BitVec 12)
  /-- `vmul` (R299): Lane-wise low product. -/
  | vmul (p : PReg) (am : Am) (ty : Ty) (d : BitVec 12)
  /-- `vmulh` (R299): Lane-wise high product. -/
  | vmulh (p : PReg) (am : Am) (ty : Ty) (d : BitVec 12)
  /-- `vmac` (R299): V := V + m × A[31:0]. -/
  | vmac (p : PReg) (am : Am) (ty : Ty) (d : BitVec 12)
  /-- `vabs` (R299): V := |m| wrapping. -/
  | vabs (p : PReg) (am : Am) (ty : Ty) (d : BitVec 12)
  /-- `vneg` (R299): V := -m. -/
  | vneg (p : PReg) (am : Am) (ty : Ty) (d : BitVec 12)
  /-- `vpopc` (R299): V := ones count of each lane of m. -/
  | vpopc (p : PReg) (am : Am) (ty : Ty) (d : BitVec 12)
  /-- `vfld` (R300): V := m decoded to fp32. -/
  | vfld (p : PReg) (am : Am) (ty : Ty) (r : Rnd) (d : BitVec 9)
  /-- `vfst` (R302): Encodes V as ty and stores it, checked at the port. -/
  | vfst (p : PReg) (am : Am) (ty : Ty) (r : Rnd) (d : BitVec 9)
  /-- `vfadd` (R300): V := V + m. -/
  | vfadd (p : PReg) (am : Am) (ty : Ty) (r : Rnd) (d : BitVec 9)
  /-- `vfsub` (R300): V := V - m. -/
  | vfsub (p : PReg) (am : Am) (ty : Ty) (r : Rnd) (d : BitVec 9)
  /-- `vfrsub` (R300): V := m - V. -/
  | vfrsub (p : PReg) (am : Am) (ty : Ty) (r : Rnd) (d : BitVec 9)
  /-- `vfmul` (R300): V := V × m. -/
  | vfmul (p : PReg) (am : Am) (ty : Ty) (r : Rnd) (d : BitVec 9)
  /-- `vfma` (R300): V := V + m × A fused. -/
  | vfma (p : PReg) (am : Am) (ty : Ty) (r : Rnd) (d : BitVec 9)
  /-- `vfmal` (R300): V := V + m1 × m2 fused, two loads. -/
  | vfmal (p : PReg) (am : Am) (ty : Ty) (r : Rnd) (d : BitVec 9)
  /-- `vfms` (R300): V := V - m × A fused. -/
  | vfms (p : PReg) (am : Am) (ty : Ty) (r : Rnd) (d : BitVec 9)
  /-- `vfdiv` (R300): V := V / m on the divider. -/
  | vfdiv (p : PReg) (am : Am) (ty : Ty) (r : Rnd) (d : BitVec 9)
  /-- `vfsqrt` (R300): V := square root of m. -/
  | vfsqrt (p : PReg) (am : Am) (ty : Ty) (r : Rnd) (d : BitVec 9)
  /-- `vfmin` (R300): Lane-wise fmin. -/
  | vfmin (p : PReg) (am : Am) (ty : Ty) (r : Rnd) (d : BitVec 9)
  /-- `vfmax` (R300): Lane-wise fmax. -/
  | vfmax (p : PReg) (am : Am) (ty : Ty) (r : Rnd) (d : BitVec 9)
  /-- `vfabs` (R300): V := |m| on the sign bit. -/
  | vfabs (p : PReg) (am : Am) (ty : Ty) (r : Rnd) (d : BitVec 9)
  /-- `vfneg` (R300): V := -m on the sign bit. -/
  | vfneg (p : PReg) (am : Am) (ty : Ty) (r : Rnd) (d : BitVec 9)
  /-- `vfrnd` (R300): V := m rounded to integral values. -/
  | vfrnd (p : PReg) (am : Am) (ty : Ty) (r : Rnd) (d : BitVec 9)
  /-- `vfscale` (R300): V := V × 2^trunc(m). -/
  | vfscale (p : PReg) (am : Am) (ty : Ty) (r : Rnd) (d : BitVec 9)
  /-- `vcvtf` (R303): V := m as fp32 lanes. -/
  | vcvtf (p : PReg) (am : Am) (ty : Ty) (r : Rnd) (d : BitVec 9)
  /-- `vcvti` (R303): V := m as i32 lanes saturating. -/
  | vcvti (p : PReg) (am : Am) (ty : Ty) (r : Rnd) (d : BitVec 9)
  /-- `vpack` (R303): Stores V's fp32 lanes as fp16, bf16 or nf saturating. -/
  | vpack (p : PReg) (am : Am) (ty : Ty) (r : Rnd) (d : BitVec 9)
  /-- `vpacki` (R303): Stores V's i32 lanes clamped to a narrow integer type. -/
  | vpacki (p : PReg) (am : Am) (ty : Ty) (d : BitVec 9)
  /-- `vpacks` (R304): Chooses a block scale and stores V's lanes as an nfs block with its scale. -/
  | vpacks (p : PReg) (am : Am) (ty : Ty) (r : Rnd) (d : BitVec 9)
  /-- `vrsum` (R305): A := A + sum of m's lanes. -/
  | vrsum (p : PReg) (am : Am) (ty : Ty) (d : BitVec 9)
  /-- `vrmin` (R305): A := least of A and the lanes. -/
  | vrmin (p : PReg) (am : Am) (ty : Ty) (d : BitVec 9)
  /-- `vrmax` (R305): A := greatest of A and the lanes. -/
  | vrmax (p : PReg) (am : Am) (ty : Ty) (d : BitVec 9)
  /-- `vrdot` (R305): A := A + Σ V[i] × m[i]. -/
  | vrdot (p : PReg) (am : Am) (ty : Ty) (d : BitVec 9)
  /-- `vfrsum` (R305): A := A + Σ m rounded once. -/
  | vfrsum (p : PReg) (am : Am) (ty : Ty) (r : Rnd) (d : BitVec 9)
  /-- `vfrmin` (R305): Folds fmin over A and the lanes. -/
  | vfrmin (p : PReg) (am : Am) (ty : Ty) (r : Rnd) (d : BitVec 9)
  /-- `vfrmax` (R305): Folds fmax over A and the lanes. -/
  | vfrmax (p : PReg) (am : Am) (ty : Ty) (r : Rnd) (d : BitVec 9)
  /-- `vfrdot` (R305): A := A + Σ V × m rounded once. -/
  | vfrdot (p : PReg) (am : Am) (ty : Ty) (r : Rnd) (d : BitVec 9)
  /-- `vceq` (R306): K := lanes where V = m. -/
  | vceq (p : PReg) (am : Am) (ty : Ty) (d : BitVec 12)
  /-- `vcne` (R306): K := lanes where V ≠ m. -/
  | vcne (p : PReg) (am : Am) (ty : Ty) (d : BitVec 12)
  /-- `vclt` (R306): K := lanes where V < m. -/
  | vclt (p : PReg) (am : Am) (ty : Ty) (d : BitVec 12)
  /-- `vcle` (R306): K := lanes where V ≤ m. -/
  | vcle (p : PReg) (am : Am) (ty : Ty) (d : BitVec 12)
  /-- `vcgt` (R306): K := lanes where V > m. -/
  | vcgt (p : PReg) (am : Am) (ty : Ty) (d : BitVec 12)
  /-- `vcge` (R306): K := lanes where V ≥ m. -/
  | vcge (p : PReg) (am : Am) (ty : Ty) (d : BitVec 12)
  /-- `vfceq` (R306): K := lanes ordered and equal. -/
  | vfceq (p : PReg) (am : Am) (ty : Ty) (d : BitVec 12)
  /-- `vfclt` (R306): K := lanes ordered and less. -/
  | vfclt (p : PReg) (am : Am) (ty : Ty) (d : BitVec 12)
  /-- `vfcle` (R306): K := lanes ordered and less or equal. -/
  | vfcle (p : PReg) (am : Am) (ty : Ty) (d : BitVec 12)
  /-- `vfcun` (R306): K := lanes where either operand is NaN. -/
  | vfcun (p : PReg) (am : Am) (ty : Ty) (d : BitVec 12)
  /-- `vsel` (R306): V[i] := m[i] where K[i] = 1. -/
  | vsel (p : PReg) (am : Am) (ty : Ty) (d : BitVec 12)
  /-- `mov` (R307): Moves one word between A, LDQ, K, F, an immediate, STQ and XQ. -/
  | mov (src : MovSrc) (dst : MovDst) (imm : BitVec 16)
  /-- `addi` (R308): A := A + immediate. -/
  | addi (imm : BitVec 16)
  /-- `andi` (R308): A := A and immediate. -/
  | andi (imm : BitVec 16)
  /-- `ori` (R308): A := A or immediate. -/
  | ori (imm : BitVec 16)
  /-- `xori` (R308): A := A xor immediate. -/
  | xori (imm : BitVec 16)
  /-- `shli` (R308): A := A << n. -/
  | shli (n : BitVec 6)
  /-- `shri` (R308): A := A >> n logical. -/
  | shri (n : BitVec 6)
  /-- `sari` (R308): A := A >> n arithmetic. -/
  | sari (n : BitVec 6)
  /-- `cmpi` (R308): Sets flags of A - immediate. -/
  | cmpi (imm : BitVec 16)
  /-- `fli` (R308): A := bf16 immediate widened to fp32. -/
  | fli (imm : BitVec 16)
  /-- `vins` (R308): V[n] := A[31:0]. -/
  | vins (n : BitVec 5)
  /-- `vext` (R308): A := V[n] zero-extended. -/
  | vext (n : BitVec 5)
  /-- `kset` (R308): K := immediate. -/
  | kset (imm : BitVec 16)
  /-- `acvt` (R308): Converts A in place between scalar types. -/
  | acvt (sat : Bool) (r : Rnd) (dt st : Ty)
  /-- `vconv` (R308): Converts V's lanes between fp32 and i32 in place. -/
  | vconv (sat : Bool) (r : Rnd) (toF : Bool)
  /-- `vsum` (R308): A := sum of V's lanes as i32 or fp32. -/
  | vsum (r : Rnd) (fl : Bool)
  /-- `vrot` (R309): Rotates V's lanes by n. -/
  | vrot (n : BitVec 5)
  /-- `vbcast` (R309): Every lane := V[n]. -/
  | vbcast (n : BitVec 5)
  /-- `fence` (R312): Performs rel then acq over a rectangle. -/
  | fence (pa : PReg)
  /-- `acq` (R183): Acquire over a rectangle: invalidates reflected lines and raises floor change counts. -/
  | acq (pa : PReg)
  /-- `acq.o` (R183): Acquire naming one owner cluster by pod address. -/
  | acqO (pa : PReg)
  /-- `rel` (R182): Release: waits for earlier loads, stores, replies and commits. -/
  | rel (pa : PReg)
  /-- `pub` (R152): Drains, enqueues a walk from a root and advances a sequence word. -/
  | pub (pa pb : PReg)
  /-- `shade` (R162): Records a pending shade of an object on a sequence word. -/
  | shade (pa pb : PReg)
  /-- `seqadv` (R160): Drains and advances a sequence word through the walk queue. -/
  | seqadv (pb : PReg)
  /-- `watch` (R316): Places a non-acquiring watch in a watch register. -/
  | watch (pa pb : PReg) (w : Fin 4)
  /-- `watcha` (R316): Places an acquiring watch in a watch register. -/
  | watcha (pa pb : PReg) (w : Fin 4)
  /-- `wwait` (R317): Waits on a watch register, trapping if it failed. -/
  | wwait (w : Fin 4)
  /-- `wtest` (R317): Pushes to XQ whether a watch register has been answered. -/
  | wtest (w : Fin 4)
  /-- `barset` (R319): Binds a rectangle to a barrier register after home checks. -/
  | barset (pa : PReg) (b : Fin 4)
  /-- `barv` (R320): Arrives at a barrier. -/
  | barv (b : Fin 4)
  /-- `barw` (R321): Waits for a barrier release. -/
  | barw (b : Fin 4)
  /-- `dep` (R324): Deposits 1 to 8 bytes of a pointer value to an owner. -/
  | dep (pa pb : PReg) (tn : TokName) (n : BitVec 2)
  /-- `depq` (R325): Pops STQ and deposits n bytes. -/
  | depq (pa : PReg) (tn : TokName) (n : BitVec 2)
  /-- `depq` (R325): Pops STQ and deposits one whole line. -/
  | depqLine (pa : PReg) (tn : TokName)
  /-- `depe` (R326): Deposits an nf element code at an index. -/
  | depe (pa pb : PReg) (tn : TokName) (w : BitVec 3) (i : BitVec 9)
  /-- `depes` (R326): Deposits an nfs element code at an index. -/
  | depes (pa pb : PReg) (tn : TokName) (w : BitVec 3) (i : BitVec 9)
  /-- `amo.add` (R328): Atomic add at the owner, old value to LDQ. -/
  | amoAdd (pa pb : PReg) (tn : TokName) (dbl : Bool)
  /-- `amo.min` (R328): Atomic signed minimum. -/
  | amoMin (pa pb : PReg) (tn : TokName) (dbl : Bool)
  /-- `amo.max` (R328): Atomic signed maximum. -/
  | amoMax (pa pb : PReg) (tn : TokName) (dbl : Bool)
  /-- `amo.minu` (R328): Atomic unsigned minimum. -/
  | amoMinu (pa pb : PReg) (tn : TokName) (dbl : Bool)
  /-- `amo.maxu` (R328): Atomic unsigned maximum. -/
  | amoMaxu (pa pb : PReg) (tn : TokName) (dbl : Bool)
  /-- `amo.and` (R328): Atomic and. -/
  | amoAnd (pa pb : PReg) (tn : TokName) (dbl : Bool)
  /-- `amo.or` (R328): Atomic or. -/
  | amoOr (pa pb : PReg) (tn : TokName) (dbl : Bool)
  /-- `amo.xor` (R328): Atomic xor. -/
  | amoXor (pa pb : PReg) (tn : TokName) (dbl : Bool)
  /-- `amo.swap` (R328): Atomic swap with tag for 8 bytes. -/
  | amoSwap (pa pb : PReg) (tn : TokName) (dbl : Bool)
  /-- `amo.cas` (R328): Atomic compare-and-swap, compare value from the next register. -/
  | amoCas (pa pb : PReg) (tn : TokName) (dbl : Bool)
  /-- `amo.enq` (R180): Enqueues an element on a ring control block. -/
  | amoEnq (pa pb : PReg) (tn : TokName)
  /-- `amo.deq` (R180): Dequeues an element from a ring control block. -/
  | amoDeq (pa : PReg) (tn : TokName)
  /-- `amo.adv` (R330): Advance-flagged atomic on a sequence word after earlier replies. -/
  | amoAdv (pa : PReg) (tn : TokName)
  /-- `amo.user` (R331): Atomic request running the owner cell's entry-30 handler. -/
  | amoUser (pa pb : PReg) (tn : TokName) (k : BitVec 3) (dbl : Bool)
  /-- `send` (R337): Sends n payload words to a channel of a cell. -/
  | send (pa : PReg) (tn : TokName) (n : BitVec 4) (c : BitVec 5)
  /-- `mig` (R337): Sends P0 to P7 to a channel and ends the activation. -/
  | mig (pa : PReg) (c : BitVec 5)
  /-- `spawn` (R339): Takes spawn credit and sends a spawned-chain message. -/
  | spawn (pa : PReg) (tn : TokName) (n : BitVec 4) (c : BitVec 5)
  /-- `rcmd` (R338): Sends a region command to the RCB's home. -/
  | rcmd (pa : PReg) (tn : TokName) (k : BitVec 4)
  /-- `tokq` (R333): Pushes a token slot's state to XQ. -/
  | tokq (s : Fin 4)
  /-- `tokw` (R334): Waits while a slot's token is pending. -/
  | tokw (s : Fin 4)
  /-- `tokz` (R334): Sets a token slot to 0. -/
  | tokz (s : Fin 4)
  /-- `mwld` (R371): Queues a stationary load of a B tile into a buffer. -/
  | mwld (pa pb pc : PReg) (fa fr sb : Bool)
  /-- `mwld` (R371): Queues a load of fp32 rows into a transfer. -/
  | mwldLanding (pa pb pc : PReg) (x : Fin 16) (fa fr : Bool)
  /-- `mma` (R372): Queues a gathered or dense matrix multiply-accumulate into a transfer. -/
  | mma (pa pb pc : PReg) (x : Fin 16) (fa fr sb init dense : Bool)
  /-- `mmp` (R374): Queues a microprogrammed recurrence into a transfer. -/
  | mmp (pa pb pc : PReg) (x : Fin 16) (fa fr sb init dense : Bool)
  /-- `mprog` (R373): Loads the inner-loop microprogram and constant. -/
  | mprog (pa pb : PReg) (n : BitVec 2)
  /-- `mcommit` (R375): Queues the conversion and write of a transfer's rows to memory. -/
  | mcommit (pa pb pc : PReg) (x : Fin 16) (fa fr : Bool) (r : Rnd) (sat : Bool)
  /-- `mwait` (R376): Waits for engine commands on a transfer or all commands. -/
  | mwait (x : Fin 16) (all : Bool)
  /-- `pull` (R384): Queues a strided copy command on the copy engine. -/
  | pull (pa pb pc : PReg) (id : Fin 4) (fa fr rec : Bool)
  /-- `pullg` (R384): Queues an index-gathered copy command. -/
  | pullg (pa pb pc : PReg) (id : Fin 4) (fa fr rec : Bool)
  /-- `pullw` (R382): Waits on a pull identifier or all of them. -/
  | pullw (id : Fin 4) (all : Bool)
  /-- `coll` (R388): Queues a collective command. -/
  | coll (pa pb pc : PReg) (id : Fin 4) (fa fr : Bool)
  /-- `collw` (R382): Waits on a collective identifier or all of them. -/
  | collw (id : Fin 4) (all : Bool)
  /-- `trap` (R348): Raises a software trap with code n. -/
  | trap (n : BitVec 8)
  /-- `cget` (R350): Reads a control register into pa. -/
  | cget (pa : PReg) (idx : BitVec 12)
  /-- `cset` (R350): Writes pa to a control register with its checks. -/
  | cset (pa : PReg) (idx : BitVec 12)
  /-- `tlbw` (R354): Writes a TLB entry at the home, by the translation service cell. -/
  | tlbw (pa pb : PReg)
  /-- `tlbi` (R355): Removes TLB entries at the home and waits for the acknowledgement. -/
  | tlbi (pa : PReg) (m : BitVec 2)
  /-- `pready` (R356): Answers a parked frame with resume or fail. -/
  | pready (pa : PReg) (fail : Bool) (n : BitVec 8)
  /-- `ext` (R250): Prefix supplying high bits of the target's immediate. -/
  | ext (payload : BitVec 24)
  /-- `tok` (R251): Prefix asking for or naming a token for the target message. -/
  | tok (ask : Bool) (askSlot : Fin 4) (nm : Bool) (nmSlot : Fin 4)
  /-- `ret` (R271): Jumps to P7. -/
  | ret
  /-- `vsplat` (R308): Every lane of V := A[31:0]. -/
  | vsplat
  /-- `vzero` (R308): V := 0. -/
  | vzero
  /-- `qdrop` (R308): Discards LDQ's head entry. -/
  | qdrop
  /-- `vperm` (R309): Pops an LDQ line and permutes V's lanes by its bytes. -/
  | vperm
  /-- `vcomp` (R309): Packs lanes with K set toward lane 0. -/
  | vcomp
  /-- `vexpd` (R309): Expands lanes into positions where K is set. -/
  | vexpd
  /-- `vrev` (R309): Reverses V's lane order. -/
  | vrev
  /-- `kand` (R309): K := K and A[31:0]. -/
  | kand
  /-- `kor` (R309): K := K or A[31:0]. -/
  | kor
  /-- `kxor` (R309): K := K xor A[31:0]. -/
  | kxor
  /-- `knot` (R309): K := not K. -/
  | knot
  /-- `kpop` (R309): A := ones in K. -/
  | kpop
  /-- `kffs` (R309): A := lowest set index of K, or 32. -/
  | kffs
  /-- `done` (R340): Ends the activation, or ends an atomic handler and replies. -/
  | done
  /-- `yield` (R340): Puts P0 to P7 in the yield buffer for its own channel and ends. -/
  | yield
  /-- `rti` (R349): Leaves trap mode resuming at trap-frame word 5. -/
  | rti
  /-- `ifence` (R353): Discards fetched words after older stores are performed. -/
  | ifence
  /-- `hint` (R252): Prefix giving a branch or retention hint. -/
  | hint
  /-- FETCH_LINE (R223): A fetched instruction line arrives and the slot's waiting word issues. -/
  | fetchLine (slot : SlotId) (line : Word)
  /-- LOAD_AT_PORT (R280): A read request is served at its port or owner with the checks of R29. -/
  | loadAtPort (who : Requester) (oa : Word) (u : AccUnit) (kind : AccKind)
  /-- LOAD_REPLY (R280): A read reply arrives and fills its LDQ place or pointer, or traps. -/
  | loadReply (rid : Nat) (ans : LoadAns)
  /-- STORE_ACCEPT (R284): A store from the store queue is checked and accepted or refused at its port. -/
  | storeAccept (who : Requester) (oa : Word) (data : WData)
  /-- STORE_PERFORM (R135): An accepted write is performed in owner order at its port. -/
  | storePerform (oa : Word) (data : WData)
  /-- TLBW_AT_HOME (R51): The home applies a tlbw, installs or finishes waiting accesses and answers. -/
  | tlbwAtHome (mw dw : Word)
  /-- TLBI_AT_HOME (R67): A tlbi reaches the head of the home queue, removes entries and advances the epoch. -/
  | tlbiAtHome (m : BitVec 2) (arg : Word)
  /-- SHOOTDOWN_ACK (R68): The shootdown acknowledgement arrives after earlier accesses complete, completing tlbi. -/
  | shootdownAck (slot : SlotId)
  /-- PAGE_FAULT (R63): A disp 0b01 answer for an own-cluster activation parks it in a frame. -/
  | pageFault (slot : SlotId) (oa p1 : Word)
  /-- PREADY_AT_CELL (R66): A pready notice reaches the parked cell, which resumes or fails the activation. -/
  | preadyAtCell (frame rcb : Word) (fail : Bool) (n : BitVec 8) (issuer : Nat)
  /-- SCRUB_FRAME (R71): The scrub engine zeroes a scrub-pending frame and marks it clean. -/
  | scrubFrame (x : ScrubAt)
  /-- PATROL_READ (R463): The home patrols its slice, correcting or poisoning lines. -/
  | patrolRead (line : Nat) (struck : List (Fin 144))
  /-- CSET_CISTERN_FILL (R97): cset of ctl.cistern fill = 1 starts entry to fill mode. -/
  | csetCisternFill (write : FillAt)
  /-- FILL_MODE_ENTERED (R97): Accepted reads drain, busy clears and fill mode begins. -/
  | fillModeEntered
  /-- CSET_CISTERN_SERVE (R99): cset of ctl.cistern fill = 0 starts return to serve mode. -/
  | csetCisternServe (cell : Fin 64)
  /-- SERVE_MODE_RETURN (R99): Accepted writes drain, the publish counter rises and busy clears. -/
  | serveModeReturn
  /-- REFRESH_WINDOW_START (R100): A bank group's refresh window begins at its timebase tick. -/
  | refreshWindowStart (tick : Word)
  /-- REFRESH_WINDOW_END (R100): The refresh window ends and waiting accesses proceed. -/
  | refreshWindowEnd (tick : Word)
  /-- EVENT_POST (R102): An entry is posted to the cluster event queue once it has room. -/
  | eventPost (kind : BitVec 8) (code : Code) (lcell : BitVec 15) (user addr detail : Word)
  /-- CSET_EVQ_HEAD (R104): cset of ctl.evq head consumes entries and may send a notice. -/
  | csetEvqHead (head : BitVec 9)
  /-- TLBCTL_ENABLE (R75): A store setting tlbctl.en switches from the boot mapping to the TLB in queue order. -/
  | tlbctlEnable
  /-- WALK_QUEUE_ENTER (R151): After its drain a pub or seqadv takes a walk-queue entry. -/
  | walkQueueEnter (ent : WalkEnt)
  /-- LAMP_WALK (R153): The lamp walker takes a queue entry, applies shades, lights the closure and advances. -/
  | lampWalk
  /-- WATCH_AT_OWNER (R164): The owner places a watch and answers when the line is lit and the threshold met. -/
  | watchAtOwner (req : WatchReq)
  /-- WATCH_REPLACE (R164): A not-met-marked watch is placed again after 256 CK cycles. -/
  | watchReplace (rid : Nat)
  /-- WATCH_ANSWER (R316): A watch answer or refusal arrives and sets the register. -/
  | watchAnswer (w : WatchAt) (ans : WatchAns)
  /-- BARSET_CHECK (R42): A home checks a barset rectangle against its cell map and answers. -/
  | barsetCheck (who : Requester) (rect : BitVec 32)
  /-- BARRIER_SIGNAL (R220): A row or column barrier signal reaches a cell and is passed on. -/
  | barrierSignal (b : Fin 4) (rect : BitVec 32) (sig : BarSig) (err : Bool)
  /-- BARRIER_RELEASE (R320): A barrier release reaches a cell, clearing arr and flipping ph. -/
  | barrierRelease (b : Fin 4) (rect : BitVec 32) (err : Bool)
  /-- DEPOSIT_AT_OWNER (R172): A deposit is checked and performed at the owner, then replied. -/
  | depositAtOwner (req : DepositReq)
  /-- ATOMIC_REQUEST_ARRIVAL (R175): An atomic request is queued at the owner's atomic cell. -/
  | atomicRequestArrival (req : AtomReq)
  /-- ATOMIC_RUN (R176): The atomic slot runs the next request with its target line held. -/
  | atomicRun
  /-- ATOMIC_OVERRUN (R177): A user handler's 257th instruction aborts it with 0x0B. -/
  | atomicOverrun
  /-- ATOMIC_REPLY (R329): The positive reply of an atomic request fills its LDQ place. -/
  | atomicReply (rid : Nat) (entry : QEntry)
  /-- POSITIVE_REPLY (R167): A positive reply arrives and frees the reply-table entry. -/
  | positiveReply (rid : Nat)
  /-- NEGATIVE_REPLY (R169): A negative reply arrives and is reported to its activation. -/
  | negativeReply (rid : Nat) (code : Code) (oa : Option Word)
  /-- LANDING_ACK (R191): A token's landing acknowledgement frees it and sends release notices. -/
  | landingAck (token : BitVec 24)
  /-- TOKEN_EXPIRY (R191): A pending token's deadline passes and it becomes dead with trap 0x0A. -/
  | tokenExpiry (token : BitVec 24)
  /-- HELD_MESSAGE_ARRIVAL (R193): A held message reaches its destination package and passes, waits or is refused. -/
  | heldMessageArrival (held : HeldMsg)
  /-- RELEASE_NOTICE (R193): A release notice passes held messages or creates a release record. -/
  | releaseNotice (token : BitVec 24) (count : RelCount)
  /-- CANCEL_NOTICE (R193): A cancel notice refuses messages held on the token with 0x0A. -/
  | cancelNotice (token : BitVec 24)
  /-- HOLD_TIMER_EXPIRY (R193): A held message's timer ends and it is refused with 0x0A. -/
  | holdTimerExpiry (token : BitVec 24) (hid : Nat)
  /-- RELEASE_RECORD_EXPIRY (R193): A release record's time ends and it is deleted. -/
  | releaseRecordExpiry (token : BitVec 24)
  /-- MESSAGE_ARRIVAL (R209): A data message or hardware notice arrives at a cell and is placed, spilled, held or refused. -/
  | messageArrival (who : Requester) (msg : Msg) (tok : BitVec 24)
  /-- PUMP_REPLAY (R211): The inbox falls to 8 and the pump replays sump lines into it. -/
  | pumpReplay
  /-- YIELD_BUFFER_SEND (R340): A yield buffer's message leaves when inbox or sump admits it. -/
  | yieldBufferSend (slot : Fin 4)
  /-- SELECTION (R217): A free general slot selects a runnable or pending activation. -/
  | selection (slot : Fin 4)
  /-- GRANT_REQUEST (R203): The charged RCB's home grants budget or pauses the region at zero. -/
  | grantRequest (rcb : Word) (who : Requester) (what : GrantKind)
  /-- GRANT_ARRIVAL (R203): A grant reaches the cell and held activations proceed. -/
  | grantArrival (reg : Fin 8) (what : GrantKind) (amount : Nat)
  /-- ACTIVATION_REPORT (R203): The home updates astart, live and cused from a cell's report. -/
  | activationReport (about : ReportAt) (starts ends cycles : Nat)
  /-- REGION_LAUNCH (R201): The home checks, installs, sets running and sends initial messages. -/
  | regionLaunch (rcb : Word) (who : Requester) (tok : BitVec 24)
  /-- HANDLER_INSTALL (R201): A home installs a launch's handler records and checks save and sump blocks. -/
  | handlerInstall (record : InstallRec) (who : Requester)
  /-- REGION_PAUSE (R202): The home sets paused, tells the cells and posts an event. -/
  | regionPause (rcb : Word) (who : Requester) (tok : BitVec 24) (reason : BitVec 8)
  /-- PAUSE_AT_CELL (R202): A cell stops selecting the region and parks its activations. -/
  | pauseAtCell (rcb : Word)
  /-- REGION_RESUME (R200): The home resumes a paused region and parked activations become runnable. -/
  | regionResume (rcb : Word) (who : Requester) (tok : BitVec 24)
  /-- REGION_END (R204): The home ends a region and posts a reason-5 event. -/
  | regionEnd (rcb : Word) (who : Requester) (tok : BitVec 24)
  /-- END_AT_CELL (R204): A cell discards the region's messages, activations, entries and engine commands. -/
  | endAtCell (rcb : Word)
  /-- RETRY_RESEND (R400): A retried request is sent again 64 CK cycles after a retry answer. -/
  | retryResend (rid : Nat)
  /-- EVICT (R406): Mailbox eviction fences the cells and waits for them to quiesce. -/
  | evict (rcb : Word) (rect : BitVec 32) (ptn : BitVec 24)
  /-- EVICTION_QUIESCED (R406): A quiesced cell saves its block, scrubs and clears, and answers. -/
  | evictionQuiesced
  /-- RESTORE (R409): Mailbox restore checks the seal and restores the cell's state. -/
  | restore (rcb : Word) (rect : BitVec 32) (ptn : BitVec 24)
  /-- MATRIX_COMMAND_START (R368): An engine command starts once its order conditions are met. -/
  | matrixCommandStart (c : CmdAt)
  /-- MATRIX_TILE (R377): The engine runs one tile of a command and passes arbitration. -/
  | matrixTile (c : CmdAt)
  /-- PULL_START (R386): The copy engine starts a queued pull command. -/
  | pullStart
  /-- PULL_ACCESS (R385): A copy-engine read returns and its bytes are written. -/
  | pullAccess (c : CmdAt) (ans : Option LoadAns)
  /-- COLL_START (R390): The collective engine starts a command and snapshots buf. -/
  | collStart
  /-- COLL_STEP (R391): A watch answer lets a member pull and fold the next wire slot. -/
  | collStep (peer : CollAt) (ans : CollPeer)
  /-- MEMBER_LOST (R393): A member's timeout expires; it is declared lost and survivors restart. -/
  | memberLost (rank : Fin 64)
  /-- FABRIC_SLOT (R417): At a slot boundary ports exchange opening flits and carry flits. -/
  | fabricSlot (peers : List (Option PortSlot))
  /-- FLIT_RECEIVE (R420): A flit arrives, is corrected, checked and reordered into its stream. -/
  | flitReceive (port : Fin 32) (flit : Flit) (check : RxCheck)
  /-- LANE_HEALTH_WINDOW (R423): After 2^20 flits lane scores renew and low ones alert or disable. -/
  | laneHealthWindow (port : Fin 32) (corr : List (BitVec 16)) (repl : BitVec 16) (mism : BitVec 8)
  /-- LOST_DECLARATION (R39): A lost declaration moves bound entries to lost and resolves waiters. -/
  | lostDeclaration (ppkg : BitVec 18) (seq : BitVec 20)
  /-- FAR_FRAME_RECEIVE (R428): A far-link frame is authenticated and its flits delivered or dropped. -/
  | farFrameReceive (frame : FarFrame)
  /-- FAR_RETRANSMIT (R429): The retransmit time passes and an unacknowledged frame is resent. -/
  | farRetransmit (peer counter : Nat)
  /-- FAR_SESSION_OPEN (R451): A far session is opened by key exchange and evidence check. -/
  | farSessionOpen (peer : Nat) (hello : PeerHello) (slot0 : BitVec 256)
  /-- FAR_REKEY (R428): A session's frame counter reaches 2^40 and it rekeys. -/
  | farRekey (peer : Nat)
  /-- HOST_SHARED_READ (R433): A host shared read of a window half is recorded. -/
  | hostSharedRead (agent : HostAgent) (line : Nat) (half : Bool)
  /-- HOST_OWNERSHIP_READ (R433): A host ownership read invalidates other sharers and takes E. -/
  | hostOwnershipRead (agent : HostAgent) (line : Nat) (half : Bool)
  /-- HOST_WRITEBACK (R433): A holder's writeback is performed as a host write. -/
  | hostWriteback (agent : HostAgent) (line : Nat) (half : Bool) (data : List Byte)
  /-- HOST_WRITE (R432): A host write to a window frame is performed or refused. -/
  | hostWrite (agent : HostAgent) (addr : Nat) (data : List Byte)
  /-- SNOOP_RESPONSE (R433): A back-invalidation snoop response returns data and state. -/
  | snoopResponse (agent : HostAgent) (line : Nat) (half : Bool) (dirty : Option (List Byte)) (keep : Bool)
  /-- PLACE_TABLE_WRITE (R38): A host write of a place-table entry is accepted or refused and invalidates reflections. -/
  | placeTableWrite (target : MbTarget) (value : Word)
  /-- VFPAIR_WRITE (R56): A host write of a base-and-bound pair, with TLB removal and scrub on release. -/
  | vfpairWrite (n : Fin 16) (value : Word)
  /-- HCWIN_WRITE (R431): A host write of a host-coherent window register. -/
  | hcwinWrite (n : Fin 16) (value : Word)
  /-- FABSWITCH_WRITE (R416): A write of fabswitch schedules a bank switch. -/
  | fabswitchWrite (value : Word)
  /-- FAR_PEER_WRITE (R427): A write of a far peer entry; setting v opens the session. -/
  | farPeerWrite (peer : Nat) (word : Fin 8) (value : Word)
  /-- HOST_REGISTER_WRITE (R458): Mailbox op 0x02 write to a register with no row of its own. -/
  | hostRegisterWrite (target : MbTarget) (value : Word)
  /-- REGISTER_READ (R458): Mailbox op 0x07 returns the value of a register. -/
  | registerRead (target : MbTarget)
  /-- CREATE (R444): Creates a compartment and draws its keys. -/
  | create (world : BitVec 24) (ckey : BitVec 6) (kind : CompKind)
  /-- DESTROY (R444): Tears down a compartment and deletes its keys. -/
  | destroy (world : BitVec 24) (ckey : BitVec 6)
  /-- KEY_LOAD (R445): Decapsulates and unwraps a weight key into the key store. -/
  | keyLoad (world : BitVec 24) (ckey : BitVec 6) (kem wrapped : List Byte)
  /-- GATE (R443): Writes a gate entry and replaces the homes' copies. -/
  | gate (world : BitVec 24) (index : Fin 16) (entry : Word)
  /-- EVIDENCE (R450): Returns signed evidence for a world. -/
  | evidence (world : BitVec 24) (nonce : BitVec 256) (buf : BitVec 64) (len : Nat)
  /-- PEERS (R451): Replaces the far-peer allow list. -/
  | peers (values : List (BitVec 256))
  /-- HAND_OVER (R460): Copies, measures and launches partition firmware as a root region. -/
  | handOver (image : List Byte) (rcb : OwnAt) (world : BitVec 24)
  /-- POWER_RUN (R461): Puts a cluster in run at a commanded CK frequency. -/
  | powerRun (die : BitVec 3) (pclu : BitVec 6) (freq : BitVec 12)
  /-- POWER_HOLD (R461): Stops a cluster's clocks with contents retained. -/
  | powerHold (die : BitVec 3) (pclu : BitVec 6) (freq : BitVec 12)
  /-- POWER_OFF (R461): Removes power from a cluster with no partition. -/
  | powerOff (die : BitVec 3) (pclu : BitVec 6) (freq : BitVec 12)
  /-- CLOCK_CHANGE_DONE (R462): The 2,400-cycle stall of a frequency change ends and issue resumes. -/
  | clockChangeDone
  /-- EXPORT (R411): Exports a protected page with a new version and tag. -/
  | exportPage (ckey : CkeyAt) (vpn : BitVec 17) (host : Word)
  /-- IMPORT (R412): Imports a protected page image after verification. -/
  | importPage (ckey : CkeyAt) (vpn : BitVec 17) (image : List Byte) (frame : BitVec 16)
  /-- DECLARE_LOST (R425): System software declares a package lost, multicast over group 0. -/
  | declareLost (ppkg : BitVec 18)
  /-- MB_REGION_COMMAND (R199): Mailbox op 0x08 resolves an RCB and forwards a region command. -/
  | mbRegionCommand (rcb : Word) (ptn : BitVec 24) (k : BitVec 4)
  /-- PACKAGE_RESET (R460): A package reset runs boot, key derivation, cluster release and mailbox opening. -/
  | packageReset
  /-- SECURITY_CORE_MISMATCH (R447): A lock-step mismatch erases keys and holds the security cores in reset. -/
  | securityCoreMismatch
  /-- ILLEGAL_INSTRUCTION (R226): A word whose major, fn or cond is not listed is decoded and raises fault 0x01 as a precise trap. -/
  | illegalInstruction (w : BitVec 32)
  /-- EVHEAD_WRITE (R459): The host writes evhead in the mailbox DVSEC, consuming host event-ring entries so that events waiting on a full ring are posted. -/
  | evheadWrite (port : Bool) (acc : DvsecAccess)
  /-- RDCURR_FILL (R430): On a mailbox command, a home fills window frames from host memory with CXL.cache RdCurr reads, and the result counts as host writes. -/
  | rdcurrFill (line : Nat) (data : List Byte)
  /-- HOST_PORT_TRAINS (R430): A host port's link trains as CXL 3.1 or falls back to PCIe 6.0, and in the fallback case it serves no host-coherent window. -/
  | hostPortTrains (port : Bool) (cxl : Bool)
  deriving DecidableEq, Repr

end Sys2Proof
end

