-- ==== Sys2Proof/Config.lean ====
section
/-!
DEFINITION. What the implementation fixes and the specification leaves open: the constants of the part, and the free values.
A free value is an `opaque` constant without a body, so no proof can learn what it is (notes/assumptions names each one).
-/
namespace Sys2Proof.Config

/-- Frames of 64 KiB in a slice (R55). -/
def sliceFrames : Nat := 48828
/-- TLB entries of a home (R46). -/
def tlbSize : Nat := 4096
/-- Entries that may be pinned (R47). -/
def maxPinned : Nat := 256
/-- Entries of the miss table (R59). -/
def missSize : Nat := 64
/-- Entries of the walk queue (R151). -/
def walkQueueSize : Nat := 4
/-- Pending shades a cluster holds (R162). -/
def maxShades : Nat := 32
/-- Watches a home holds (R164). -/
def maxWatches : Nat := 256
/-- Entries of a cell's reply table (R168). -/
def replyTableSize : Nat := 256
/-- Entries of a cell's token table (R189). -/
def tokenTableSize : Nat := 32
/-- Messages a cell's inbox holds (R210), and the limit for channels other than 0 and 28. -/
def inboxSize : Nat := 32
def inboxLimit : Nat := 28
/-- The number of messages at which the pump replays (R211). -/
def replayLevel : Nat := 8
/-- Places of LDQ, STQ and XQ (R278, R283, R270). -/
def ldqSize : Nat := 16
def stqSize : Nat := 16
def xqSize : Nat := 4
/-- Parts of a slot that are issued and not complete (R285). -/
def exqSize : Nat := 16
/-- Atomic requests a cell holds (R175). -/
def atomicQueueSize : Nat := 16
/-- Parked records a cell holds (R63). -/
def maxParked : Nat := 16
/-- Commands of a copy or collective engine's queue (R383), and pulls that run at once (R386). -/
def engineQueueSize : Nat := 64
def maxPulls : Nat := 8
/-- Commands of a cell's matrix queue (R222). -/
def matrixQueueSize : Nat := 4
/-- Message slots of the hold queue and records of the release table (R192). -/
def holdQueueSize : Nat := 4096
def releaseTableSize : Nat := 1024
/-- Entries of the walk buffer (R149). -/
def walkBufferSize : Nat := 65536
/-- Instructions a user handler may issue (R177). -/
def atomicLimit : Nat := 256

/-- Free value number `n`: a word the specification does not state, drawn by the counter in State. DESIGN CHOICE, log 7. -/
opaque freeWord (n : Nat) : BitVec 64

/-- Ticks of the refresh timebase that pass before the `n`-th look at `ctl.aktime` (R100, R101): time is not modelled, so the
amount is free. DESIGN CHOICE, log 6. -/
opaque ticksElapsed (n : Nat) : Nat

/-- CK cycles that pass for an activation at the `n`-th instruction that is served (R203): time is not modelled. DESIGN CHOICE, log 6. -/
opaque cyclesCharged (n : Nat) : Nat

/-- The line that an error strikes while nothing issues, if one does, with the symbols that it strikes (R78, R79): the specification says
nothing of when or where memory fails. DESIGN CHOICE, log 84. -/
opaque softError (n : Nat) : Option (Nat × List (Fin 144))

/-- The 104 check bits over the 1,024 data bits of a line and bits [127:104] of its side band (R78), whose code is not given. DESIGN CHOICE,
log 107. -/
opaque checkBits (line : List (BitVec 8)) (marks : BitVec 24) : BitVec 104

/-- The steps that the lamp walker takes, beyond two, before other work falls in between (R156): time is not modelled, so the amount
is free. DESIGN CHOICE, log 18. -/
opaque walkerSteps (n : Nat) : Nat

/-- The value of a peer's sequence word that a collective command awaits, by the peer's control line, the instance, the round and the
number of advances that it has seen (R391): the specification does not say where a member takes it from. DESIGN CHOICE, log 86. -/
opaque awaitedSeq (line inst : BitVec 64) (round n : Nat) : BitVec 64

/-- The set of the reflection cache in which a line of an owner place is kept (R87): the specification gives no index. DESIGN CHOICE, log 14. -/
opaque reflectionSet (place line : BitVec 64) : Nat

/-- The line of the reflection cache that the implementation replaces when set `set` is full (R87). DESIGN CHOICE, log 14. -/
opaque reflectionVictim (set n : Nat) : Nat

/-- The unpinned TLB entry that the home replaces when the array is full (R47). DESIGN CHOICE, log 14. -/
opaque tlbVictim (n : Nat) : Nat

/-- The bytes in which a message travels, from its kind, its numbers and its words with their tags (R421), and the step that a message from
a package means at its destination (R420): their layout is not given. DESIGN CHOICE, log 52. -/
opaque packed (numbers : List Nat) (words : List (BitVec 64)) (tags : List Bool) : List (BitVec 8)
opaque unpacked (src : BitVec 18) (cls : BitVec 2) (bs : List (BitVec 8)) : Option Instr

/-- Multicast copies that the shared buffer holds (R424). DESIGN CHOICE, log 52. -/
opaque copyRoom : Nat

/-- The TTL or hop limit of a far frame (R426). DESIGN CHOICE, log 122. -/
opaque ttl : BitVec 8

/-- AES-256-GCM (R426): byte `i` of the key stream, and the tag. DESIGN CHOICE, log 122. -/
opaque gcmStream (key : BitVec 256) (nonce : BitVec 96) (i : Nat) : BitVec 8
opaque gcmTag (key : BitVec 256) (nonce : BitVec 96) (aad cipher : List (BitVec 8)) : BitVec 128

/-- What a draw gives a far session (R451): its nonce, its ML-KEM-768 message, and the secret that it shares with a peer's message; and
output `i` of HKDF-SHA-256 over a secret and a salt. DESIGN CHOICE, log 122. -/
opaque farNonce (draw : Nat) : BitVec 256
opaque kemMessage (draw : Nat) : List (BitVec 8)
opaque sharedSecret (draw : Nat) (kem : List (BitVec 8)) : BitVec 256
opaque hkdf (secret : BitVec 256) (salt : List (BitVec 8)) (i : Nat) : BitVec 256

/-- The MTU of the far ports in bytes, which R426 keeps from 1,500 to 9,216. DESIGN CHOICE, log 122. -/
opaque mtu : Nat

/-- Whether the fabric relays flit `i` of those that may be relayed in slot `slot` (R418: it may). DESIGN CHOICE, log 52. -/
opaque relayTaken (slot i : Nat) : Bool

/-- The FEC check over bytes 0 to 247 of a flit (R421), from its 31 words: the code is not given. DESIGN CHOICE, log 52. -/
opaque fecCheck (words : List (BitVec 64)) : BitVec 64

/-- SHA-256, applied to the bytes of an item (R449); the digest is a free function of the bytes. DESIGN CHOICE, log 13. -/
opaque sha256 (bs : List (BitVec 8)) : BitVec 256

/-- A round of the block permutation that stands for AES-256-XTS over block `block` of a data unit, for a key and a tweak (R439, R440).
DESIGN CHOICE, log 15. -/
opaque xtsRound (key tweak block round : Nat) (half : BitVec 64) : BitVec 64

/-- The scale byte of a weight segment that another cluster's home gives with a line, decrypted at the stationary load port, for the key
pair and the address: its own line does not travel (R361, R440). DESIGN CHOICE, log 13. -/
opaque weightScale (pair addr : Nat) (b : BitVec 8) : BitVec 8

/-- The XTS pair that a key load unwraps with the private key of a compartment's KEM pair, if the ciphertext and the wrapped key are good
(R445). DESIGN CHOICE, log 13. -/
opaque unwrapKey (keyId : Nat) (kem wrapped : List (BitVec 8)) : Option Nat

/-- Whether the noise source passes its health test at the `n`-th draw, reseeds included (R446). DESIGN CHOICE, log 13. -/
opaque rngHealthy (n : Nat) : Bool

/-- The AES-256-GMAC tag of an export (R452), for the key, ckey, vpn, version, page bytes and side-band words. DESIGN CHOICE, log 13. -/
opaque exportTag (keyId ckey vpn ver : Nat) (page side : List (BitVec 8)) : BitVec 128

/-- The seal of a save block (R408), keyed by the value the cluster drew at reset. DESIGN CHOICE, log 48. -/
opaque sealOf (key : Nat) (block : List (BitVec 8)) : List (BitVec 8)

/-- The bytes of the implementation-defined part of a save block (R408), offsets from 0x4_2000 to 0x6_4FFF, at offset `i`. DESIGN CHOICE, log 48. -/
opaque saveFormat (digest i : Nat) : BitVec 8

/-- The fuses' identity seed and package serial number (R448). DESIGN CHOICE, log 77. -/
opaque identitySeed : BitVec 256
opaque serialNumber : List (BitVec 8)

/-- The public key of the device identity pair made from the seed, and its certificate by Omhan (R448). DESIGN CHOICE, log 77. -/
opaque identityPublic (seed : BitVec 256) : BitVec 256
opaque identityCertificate (serial : List (BitVec 8)) (key : BitVec 256) : List (BitVec 8)

/-- Byte `i` of the 7,856 of a signature under the alias key of a seed and measurement slot 0 (R448, R450). DESIGN CHOICE, log 77. -/
opaque signature (seed slot0 : BitVec 256) (bs : List (BitVec 8)) (i : Nat) : BitVec 8

/-- The public key of a compartment's ML-KEM-768 key pair (R437, R450). DESIGN CHOICE, log 77. -/
opaque kemPublic (keyId : Nat) : List (BitVec 8)

/-- The alias public key, made from the seed and measurement slot 0 (R448). DESIGN CHOICE, log 77. -/
opaque aliasPublic (seed slot0 : BitVec 256) : BitVec 256

/-- The certificate of the alias key by the device identity key, made at each boot (R448, R450). DESIGN CHOICE, log 77. -/
opaque aliasCertificate (seed slot0 : BitVec 256) : List (BitVec 8)

/-- Whether the `n`-th measurement fails to complete (R460). DESIGN CHOICE, log 79. -/
opaque measureFails (n : Nat) : Bool

/-- The bytes of the security-core firmware that the boot ROM measures (R460). DESIGN CHOICE, log 13. -/
opaque securityFirmware : List (BitVec 8)

/-- The fused ceilings (R453): core and arithmetic clock in MHz, modelled power of a set of cluster states, lanes of a port, and the flits
that eight lanes of a port carry in a slot at its fused rate. DESIGN CHOICE, log 62. -/
opaque clockCeiling : Nat
opaque arithCeiling : Nat
opaque powerOverCeiling (die pclu freq n : Nat) : Bool
opaque fusedLanes (port : Nat) : BitVec 8
opaque fusedRate (port : Nat) : Nat

/-- The host address at which the range of virtual function `vf` begins: the HDM decoders are the host's (R430). DESIGN CHOICE, log 50. -/
opaque hdmBase (vf : Nat) : Nat

/-- The machine frame of an exported page, for the `n`-th export (R411): no operand names it. DESIGN CHOICE, log 61. -/
opaque exportFrame (ckey vpn n : Nat) : Nat

end Sys2Proof.Config
end

