-- ==== Sys2Proof/Machine/Float.lean ====
section
/-!
DEFINITION. Binary floating-point arithmetic on bit patterns (R112 to R114, R126): exact values as dyadic rationals, and one
rounding into a format. Every operation computes exactly and rounds once.
-/
namespace Sys2Proof.Machine

/-- A binary format: exponent bits and fraction bits (R112). -/
structure Fmt where
  eb : Nat
  mb : Nat
  deriving DecidableEq, Repr

def Fmt.fp16 : Fmt := { eb := 5, mb := 10 }
def Fmt.bf16 : Fmt := { eb := 8, mb := 7 }
def Fmt.fp32 : Fmt := { eb := 8, mb := 23 }
def Fmt.fp64 : Fmt := { eb := 11, mb := 52 }

/-- The exponent bias (R112). -/
def Fmt.bias (f : Fmt) : Int := 2 ^ (f.eb - 1) - 1
/-- The width in bits. -/
def Fmt.width (f : Fmt) : Nat := 1 + f.eb + f.mb

/-- The format of a floating type (R112); NF types compute as binary32 (R292). -/
def tyFmt : Ty → Fmt
  | .fp16 => Fmt.fp16
  | .bf16 => Fmt.bf16
  | .fp64 => Fmt.fp64
  | _ => Fmt.fp32

/-- The value of a bit pattern: a signed dyadic `m * 2 ^ e`, an infinity, or a NaN with its fraction. -/
inductive FVal where
  | fin (neg : Bool) (m : Nat) (e : Int)
  | inf (neg : Bool)
  | nan (neg : Bool) (frac : Nat)
  deriving DecidableEq, Repr

def FVal.isNan : FVal → Bool
  | .nan _ _ => true
  | _ => false

def FVal.isInf : FVal → Bool
  | .inf _ => true
  | _ => false

def FVal.neg? : FVal → Bool
  | .fin n _ _ => n
  | .inf n => n
  | .nan n _ => n

def FVal.isZero : FVal → Bool
  | .fin _ m _ => m == 0
  | _ => false

/-- Changes the sign of a value that is not a NaN. -/
def FVal.flip : FVal → FVal
  | .fin n m e => .fin (!n) m e
  | .inf n => .inf (!n)
  | .nan n f => .nan n f

/-- Reads a bit pattern of format `f` (R112, R113: subnormals are honoured). -/
def fdecode (f : Fmt) (bits : Nat) : FVal :=
  let frac := bits % 2 ^ f.mb
  let ex := bits / 2 ^ f.mb % 2 ^ f.eb
  let s := bits / 2 ^ (f.mb + f.eb) % 2 == 1
  if ex == 2 ^ f.eb - 1 then (if frac == 0 then .inf s else .nan s frac)
  else if ex == 0 then .fin s frac (1 - f.bias - f.mb)
  else .fin s (2 ^ f.mb + frac) ((ex : Int) - f.bias - f.mb)

/-- Assembles sign, exponent field and fraction. -/
def fassemble (f : Fmt) (s : Bool) (ex frac : Nat) : Nat :=
  (if s then 2 ^ (f.mb + f.eb) else 0) + ex * 2 ^ f.mb + frac

def finf (f : Fmt) (s : Bool) : Nat := fassemble f s (2 ^ f.eb - 1) 0
def fmaxFin (f : Fmt) (s : Bool) : Nat := fassemble f s (2 ^ f.eb - 2) (2 ^ f.mb - 1)
def fzero (f : Fmt) (s : Bool) : Nat := fassemble f s 0 0
/-- The default NaN (R113). -/
def fnanDefault (f : Fmt) : Nat := fassemble f false (2 ^ f.eb - 1) (2 ^ (f.mb - 1))
/-- A NaN pattern with its quiet bit set (R113). -/
def fquiet (f : Fmt) (bits : Nat) : Nat := bits ||| 2 ^ (f.mb - 1)

/-- `round_int` of R126 on the dyadic `m / 2 ^ k`, for the sign `s` and a draw. -/
def roundShift (m k : Nat) (rm : Rnd) (s : Bool) (draw : Nat) : Nat :=
  let q := m / 2 ^ k
  let r := m % 2 ^ k
  let up : Bool :=
    match rm with
    | .rne => decide (2 ^ k < 2 * r) || (2 * r == 2 ^ k && q % 2 == 1)
    | .rtz => false
    | .rdn => s && r != 0
    | .rup => !s && r != 0
    | .rst => r != 0 && decide (2 ^ 32 ≤ draw + r * 2 ^ 32 / 2 ^ k)
    | .dyn => false
  if up then q + 1 else q

/-- `round_int` of R126 on `m * 2 ^ e`. -/
def roundDyadic (m : Nat) (e : Int) (rm : Rnd) (s : Bool) (draw : Nat) : Nat :=
  match e with
  | .ofNat k => m * 2 ^ k
  | .negSucc k => roundShift m (k + 1) rm s draw

/-- Whether `m * 2 ^ e` is an integer. -/
def dyadicInt (m : Nat) (e : Int) : Bool :=
  match e with
  | .ofNat _ => true
  | .negSucc k => m % 2 ^ (k + 1) == 0

/-- The outcome of a rounding: the bit pattern, and whether it overflowed and whether it is inexact. -/
structure FRes where
  bits : Nat
  ovf : Bool
  inexact : Bool
  deriving DecidableEq, Repr

/-- What an overflow gives (R120, R126): infinity where the mode rounds away from the largest finite number. -/
def overflowBits (f : Fmt) (rm : Rnd) (s : Bool) : Nat :=
  let toInf : Bool :=
    match rm with
    | .rne | .rst | .dyn => true
    | .rtz => false
    | .rdn => s
    | .rup => !s
  if toInf then finf f s else fmaxFin f s

/-- Rounds `(-1)^s * m * 2 ^ e` into format `f` (R126). -/
def fround (f : Fmt) (rm : Rnd) (s : Bool) (m : Nat) (e : Int) (draw : Nat) : FRes :=
  if m == 0 then { bits := fzero f s, ovf := false, inexact := false }
  else
    let emin : Int := 1 - f.bias
    let top : Int := (Nat.log2 m : Int) + e
    let k : Int := if top < emin then emin else top
    let sh : Int := e - (k - f.mb)
    let n := roundDyadic m sh rm s draw
    let inexact := !dyadicInt m sh
    let k' : Int := if n == 2 ^ (f.mb + 1) then k + 1 else k
    let n' : Nat := if n == 2 ^ (f.mb + 1) then 2 ^ f.mb else n
    if n' < 2 ^ f.mb then { bits := fassemble f s 0 n', ovf := false, inexact }
    else if f.bias < k' then { bits := overflowBits f rm s, ovf := true, inexact := true }
    else { bits := fassemble f s (k' + f.bias).toNat (n' - 2 ^ f.mb), ovf := false, inexact }

/-- Rounds a value into a format; a NaN keeps its sign and the top of its fraction and becomes quiet (R114). -/
def fpack (src dst : Fmt) (rm : Rnd) (v : FVal) (draw : Nat) : FRes :=
  match v with
  | .fin s m e => fround dst rm s m e draw
  | .inf s => { bits := finf dst s, ovf := false, inexact := false }
  | .nan s fr =>
    let moved := if src.mb ≤ dst.mb then fr * 2 ^ (dst.mb - src.mb) else fr / 2 ^ (src.mb - dst.mb)
    let bits := fassemble dst s (2 ^ dst.eb - 1) moved
    { bits := if src.mb ≤ dst.mb then bits else fquiet dst bits, ovf := false, inexact := false }

/-- Converts a bit pattern between formats (R114): widening is exact and keeps a signalling NaN signalling. -/
def fconvert (src dst : Fmt) (rm : Rnd) (bits draw : Nat) : FRes := fpack src dst rm (fdecode src bits) draw

/-- Widens to binary32 exactly (R114, R292). -/
def widen32 (src : Fmt) (bits : Nat) : BitVec 32 := BitVec.ofNat 32 (fconvert src Fmt.fp32 .rne bits 0).bits

/-- The exact sum of two finite dyadics: sign (of a nonzero sum), magnitude and exponent. -/
def dyadicAdd (s1 : Bool) (m1 : Nat) (e1 : Int) (s2 : Bool) (m2 : Nat) (e2 : Int) : Bool × Nat × Int :=
  let e := if e1 ≤ e2 then e1 else e2
  let a : Int := (m1 * 2 ^ (e1 - e).toNat : Nat)
  let b : Int := (m2 * 2 ^ (e2 - e).toNat : Nat)
  let t := (if s1 then -a else a) + (if s2 then -b else b)
  (decide (t < 0), t.natAbs, e)

/-- The sign of an exact zero sum: that of the operands where they agree, else minus only when rounding down (IEEE 754). -/
def zeroSumSign (s1 s2 : Bool) (rm : Rnd) : Bool :=
  if s1 == s2 then s1 else rm == .rdn

/-- The first NaN of two operands, quieted (R113); `none` where neither is one. -/
def nanOf2 (f : Fmt) (x y : Nat) : Option Nat :=
  if (fdecode f x).isNan then some (fquiet f x)
  else if (fdecode f y).isNan then some (fquiet f y)
  else none

def nanRes (bits : Nat) : FRes := { bits, ovf := false, inexact := false }

/-- x + y (R113). -/
def fadd (f : Fmt) (rm : Rnd) (draw x y : Nat) : FRes :=
  match nanOf2 f x y with
  | some b => nanRes b
  | none =>
    match fdecode f x, fdecode f y with
    | .inf a, .inf b => if a == b then nanRes (finf f a) else nanRes (fnanDefault f)
    | .inf a, _ => nanRes (finf f a)
    | _, .inf b => nanRes (finf f b)
    | .fin s1 m1 e1, .fin s2 m2 e2 =>
      let t := dyadicAdd s1 m1 e1 s2 m2 e2
      if t.2.1 == 0 then nanRes (fzero f (zeroSumSign s1 s2 rm)) else fround f rm t.1 t.2.1 t.2.2 draw
    | _, _ => nanRes (fnanDefault f)

/-- The pattern with its sign bit inverted; a NaN operand of a subtraction stays as it is (R113). -/
def fnegate (f : Fmt) (x : Nat) : Nat := x ^^^ 2 ^ (f.mb + f.eb)

/-- x - y (R113): a NaN operand is returned as it stands. -/
def fsub (f : Fmt) (rm : Rnd) (draw x y : Nat) : FRes :=
  match nanOf2 f x y with
  | some b => nanRes b
  | none => fadd f rm draw x (fnegate f y)

/-- x * y (R113). -/
def fmul (f : Fmt) (rm : Rnd) (draw x y : Nat) : FRes :=
  match nanOf2 f x y with
  | some b => nanRes b
  | none =>
    match fdecode f x, fdecode f y with
    | .fin s1 m1 e1, .fin s2 m2 e2 =>
      if m1 * m2 == 0 then nanRes (fzero f (s1 != s2)) else fround f rm (s1 != s2) (m1 * m2) (e1 + e2) draw
    | a, b =>
      if a.isZero || b.isZero then nanRes (fnanDefault f) else nanRes (finf f (a.neg? != b.neg?))

/-- x / y (R113). The quotient is taken with at least 40 bits beyond the target's precision and a sticky bit, which every mode
of R126 rounds as it would the exact quotient. -/
def fdiv (f : Fmt) (rm : Rnd) (draw x y : Nat) : FRes :=
  match nanOf2 f x y with
  | some b => nanRes b
  | none =>
    match fdecode f x, fdecode f y with
    | .inf _, .inf _ => nanRes (fnanDefault f)
    | .inf a, b => nanRes (finf f (a != b.neg?))
    | a, .inf b => nanRes (fzero f (a.neg? != b))
    | .fin s1 m1 e1, .fin s2 m2 e2 =>
      if m2 == 0 then (if m1 == 0 then nanRes (fnanDefault f) else nanRes (finf f (s1 != s2)))
      else if m1 == 0 then nanRes (fzero f (s1 != s2))
      else
        let n := m1 * 2 ^ 220
        let q := n / m2
        let sticky := if n % m2 == 0 then 0 else 1
        fround f rm (s1 != s2) (2 * q + sticky) (e1 - e2 - 221) draw
    | _, _ => nanRes (fnanDefault f)

/-- The square root (R113). -/
def fsqrt (f : Fmt) (rm : Rnd) (draw x : Nat) : FRes :=
  match fdecode f x with
  | .nan _ _ => nanRes (fquiet f x)
  | .inf s => if s then nanRes (fnanDefault f) else nanRes x
  | .fin s m e =>
    if m == 0 then nanRes x
    else if s then nanRes (fnanDefault f)
    else
      let m' := if e % 2 == 0 then m else 2 * m
      let e' := if e % 2 == 0 then e else e - 1
      let n := m' * 2 ^ 240
      let q := Nat.sqrt n
      let sticky := if q * q == n then 0 else 1
      fround f rm false (2 * q + sticky) ((e' - 240) / 2 - 1) draw

/-- a * b + c with one rounding (R113); the operand order for a NaN is a, b, c. -/
def ffma (f : Fmt) (rm : Rnd) (draw a b c : Nat) : FRes :=
  let da := fdecode f a
  let db := fdecode f b
  let dc := fdecode f c
  if da.isNan then nanRes (fquiet f a)
  else if db.isNan then nanRes (fquiet f b)
  else if dc.isNan then nanRes (fquiet f c)
  else
    match da, db, dc with
    | .fin s1 m1 e1, .fin s2 m2 e2, .fin s3 m3 e3 =>
      let t := dyadicAdd (s1 != s2) (m1 * m2) (e1 + e2) s3 m3 e3
      if t.2.1 == 0 then nanRes (fzero f (zeroSumSign (s1 != s2) s3 rm)) else fround f rm t.1 t.2.1 t.2.2 draw
    | .fin _ _ _, .fin _ _ _, .inf s => nanRes (finf f s)
    | x, y, z =>
      if x.isZero || y.isZero then nanRes (fnanDefault f)
      else
        let ps := x.neg? != y.neg?
        if z.isInf && z.neg? != ps then nanRes (fnanDefault f) else nanRes (finf f ps)

/-- Exact comparison of two values that are not NaN: -1, 0 or 1. Zeros of either sign are equal. -/
def fvalCmp : FVal → FVal → Int
  | .fin s1 m1 e1, .fin s2 m2 e2 =>
    let t := dyadicAdd s1 m1 e1 (!s2) m2 e2
    if t.2.1 == 0 then 0 else if t.1 then -1 else 1
  | .inf a, .inf b => if a == b then 0 else if a then -1 else 1
  | .inf a, _ => if a then -1 else 1
  | _, .inf b => if b then 1 else -1
  | _, _ => 0

end Sys2Proof.Machine
end

