-- ==== Sys2Proof/Machine/Nf.lean ====
section
/-!
DEFINITION. The NF formats: descriptors (R115, R116), values of codes (R118), encoding (R120), block scales (R121, R123), and where
an element lies in its line (R119, R122). Also the generator of stochastic rounding (R127).
-/
namespace Sys2Proof.Machine

/-- One draw of the generator: the new state, which is also the draw (R127). -/
def nextDraw (x0 : BitVec 32) : BitVec 32 :=
  let x1 := x0 ^^^ (x0 <<< 13)
  let x2 := x1 ^^^ (x1 >>> 17)
  x2 ^^^ (x2 <<< 5)

/-- A descriptor's fields (R115). -/
structure Desc where
  bias : Int
  mode : Nat
  s    : Bool
  e    : Nat
  m    : Nat
  deriving DecidableEq, Repr

/-- Reads bits [23:0] of a descriptor register (R115). -/
def Desc.of (w : BitVec 24) : Desc :=
  { bias := (w.extractLsb' 16 8).toInt, mode := (w.extractLsb' 14 2).toNat, s := w.getLsbD 8,
    e := (w.extractLsb' 4 4).toNat, m := (w.extractLsb' 0 4).toNat }

/-- The width w = s + e + m (R115). -/
def Desc.width (d : Desc) : Nat := (if d.s then 1 else 0) + d.e + d.m

/-- Etop (R115). -/
def Desc.etop (d : Desc) : Nat :=
  if d.e == 0 then 0 else if d.mode == 0 then 2 ^ d.e - 2 else 2 ^ d.e - 1

/-- Validity of a descriptor's fields (R116). -/
def Desc.ok (d : Desc) : Bool :=
  decide (2 ≤ d.width) && decide (d.width ≤ 8) && decide (d.mode < 3) && decide (d.e ≤ 8) && decide (d.m ≤ 8) &&
  (d.mode != 0 || (decide (2 ≤ d.e) && decide (1 ≤ d.m))) && decide ((d.etop : Int) - d.bias ≤ 127)

/-- Validity of a descriptor register's value (R116): the reserved bits are zero too. -/
def fmtValid (w : BitVec 64) : Bool :=
  w.extractLsb' 24 40 == 0 && w.extractLsb' 9 5 == 0 && (Desc.of (w.extractLsb' 0 24)).ok

/-- The default NaN as a value (R113). -/
def FVal.dnan : FVal := .nan false (2 ^ 22)

/-- The value of a code (R118). -/
def nfDecode (d : Desc) (c : Nat) : FVal :=
  let w := d.width
  let neg := d.s && c / 2 ^ (w - 1) % 2 == 1
  let ex := c / 2 ^ d.m % 2 ^ d.e
  let mant := c % 2 ^ d.m
  if d.mode == 1 && c == 2 ^ w - 1 then .dnan
  else if d.mode == 0 && ex == 2 ^ d.e - 1 then (if mant == 0 then .inf neg else .dnan)
  else if ex == 0 then .fin neg mant (1 - d.bias - d.m)
  else .fin neg (2 ^ d.m + mant) ((ex : Int) - d.bias - d.m)

/-- The magnitude bits (below the sign) of the largest finite code of a sign (R118, R120). A format without a sign bit has no
negative codes, and the magnitude of its positive sign stands for both. -/
def maxmagCode (d : Desc) (neg : Bool) : Nat :=
  if d.mode == 0 then (2 ^ d.e - 2) * 2 ^ d.m + (2 ^ d.m - 1)
  else if d.mode == 1 && (!d.s || neg) then 2 ^ (d.e + d.m) - 2
  else 2 ^ (d.e + d.m) - 1

/-- maxmag of R118 as a dyadic. -/
def maxmag (d : Desc) (neg : Bool) : Nat × Int :=
  match nfDecode { d with s := true } (maxmagCode d neg) with
  | .fin _ m e => (m, e)
  | _ => (0, 0)

/-- Adds the sign bit of a format that has one. -/
def signed (d : Desc) (neg : Bool) (code : Nat) : Nat :=
  if neg && d.s then 2 ^ (d.width - 1) + code else code

/-- What `nf_encode` answers (R120), with whether the code's value differs from the source. -/
structure NfRes where
  code : Nat
  inv  : Bool
  ovf  : Bool
  inexact : Bool
  deriving DecidableEq, Repr

/-- The overflow exit of `nf_encode` (R120). -/
def nfOver (d : Desc) (rm : Rnd) (sat isInf neg : Bool) : NfRes :=
  let away : Bool := isInf || rm == .rne || rm == .rst || rm == .dyn || (rm == .rup && !neg) || (rm == .rdn && neg)
  if d.mode == 0 && !sat && away then
    { code := signed d neg ((2 ^ d.e - 1) * 2 ^ d.m), inv := false, ovf := true, inexact := !isInf }
  else { code := signed d neg (maxmagCode d neg), inv := false, ovf := true, inexact := true }

/-- `nf_encode` (R120). -/
def nfEncode (d : Desc) (rm : Rnd) (sat : Bool) (draw : Nat) (x : FVal) : NfRes :=
  match x with
  | .nan _ _ =>
    if d.mode == 0 then { code := (2 ^ d.e - 1) * 2 ^ d.m + 2 ^ (d.m - 1), inv := false, ovf := false, inexact := false }
    else if d.mode == 1 then { code := 2 ^ d.width - 1, inv := false, ovf := false, inexact := false }
    else { code := 0, inv := true, ovf := false, inexact := false }
  | .inf neg =>
    if !d.s && neg then { code := 0, inv := true, ovf := false, inexact := true } else nfOver d rm sat true neg
  | .fin neg a ea =>
    if !d.s && neg then { code := 0, inv := a != 0, ovf := false, inexact := a != 0 }
    else
      let emin : Int := 1 - d.bias
      let top : Int := (Nat.log2 a : Int) + ea
      let k : Int := if a != 0 && decide (1 ≤ d.e) && decide (emin ≤ top) then top else emin
      let sh : Int := ea - (k - d.m)
      let n := roundDyadic a sh rm neg draw
      let inexact := !dyadicInt a sh
      if d.e == 0 then
        if decide (2 ^ d.m ≤ n) then nfOver d rm sat false neg
        else
          let code := signed d neg n
          if d.mode == 1 && code == 2 ^ d.width - 1 then nfOver d rm sat false neg
          else { code, inv := false, ovf := false, inexact }
      else
        let carry := n == 2 ^ (d.m + 1)
        let k' := if carry then k + 1 else k
        let n' := if carry then 2 ^ d.m else n
        let ex : Nat := if n' < 2 ^ d.m then 0 else (k' + d.bias).toNat
        let mant := if n' < 2 ^ d.m then n' else n' - 2 ^ d.m
        let code := signed d neg (ex * 2 ^ d.m + mant)
        if decide (d.etop < ex) || (d.mode == 1 && code == 2 ^ d.width - 1) then nfOver d rm sat false neg
        else { code, inv := false, ovf := false, inexact }

/-- A value times 2^t; zeros, infinities and NaNs keep their kind (R121). -/
def FVal.scaleBy (t : Int) : FVal → FVal
  | .fin n m e => .fin n m (e + t)
  | v => v

/-- An nfs element: its code's value times the scale, rounded once to binary32 (R121). -/
def nfsDecode (d : Desc) (scale : Nat) (rm : Rnd) (draw : Nat) (c : Nat) : FRes :=
  fpack Fmt.fp32 Fmt.fp32 rm ((nfDecode d c).scaleBy ((scale : Int) - 127)) draw

/-- Whether `m * 2 ^ e` times 2^t is at most the dyadic `b`. -/
def dyadicLe (m : Nat) (e t : Int) (b : Nat × Int) : Bool :=
  decide (fvalCmp (.fin false m (e + t)) (.fin false b.1 b.2) ≤ 0)

/-- Whether the scale byte `x` admits every finite element (R123). -/
def scaleFits (d : Desc) (vs : List FVal) (x : Nat) : Bool :=
  vs.all fun v =>
    match v with
    | .fin n m e => dyadicLe m e (127 - (x : Int)) (maxmag d n)
    | _ => true

/-- The scale chosen for a block (R123). -/
def chooseScale (d : Desc) (vs : List FVal) : Nat :=
  let zero := vs.all fun v =>
    match v with
    | .fin _ m _ => m == 0
    | _ => true
  if zero then 127 else ((List.range 255).find? (scaleFits d vs)).getD 254

/-! ## Where elements lie -/

/-- Elements in a whole line (R119). -/
def nfCap (w : Nat) : Nat := 1024 / w
/-- Elements in the first line of a segment that begins with its scale (R122). -/
def nfCap0 (w : Nat) : Nat := 1016 / w
/-- Block length (R122). -/
def blockLen (blen : Nat) : Nat := 16 * 2 ^ blen
/-- Lines of a segment (R122): scpl = 0 has cap0 elements in the first line. -/
def segLines (w blen : Nat) (scpl : Bool) : Nat :=
  let l := blockLen blen
  if scpl then (l + nfCap w - 1) / nfCap w
  else if l ≤ nfCap0 w then 1 else 1 + (l - nfCap0 w + nfCap w - 1) / nfCap w

/-- Lines of a tiling region (R122). -/
def regionLines (scpl : Bool) : Nat := if scpl then 128 else 512

/-- Where an element of an aligned line lies: its bit in the line, its number in the segment and the address of the scale byte
(the last two for nfs). -/
structure ElemAt where
  bit   : Nat
  num   : Nat
  scale : Nat
  deriving DecidableEq, Repr

/-- Element `i` of the plain NF line (R119); `none` where the index is cap or more. -/
def nfLocate (w i : Nat) : Option ElemAt :=
  if i < nfCap w then some { bit := i * w, num := i, scale := 0 } else none

/-- Element `i` of the nfs line at `line` (R122, R123); `none` for a scale line, an unused line, or an index that names no
element of a segment. -/
def nfsLocate (w blen : Nat) (scpl : Bool) (line i : Nat) : Option ElemAt :=
  let rl := regionLines scpl
  let base := line / (128 * rl) * (128 * rl)
  let l := (line - base) / 128
  let ns := segLines w blen scpl
  let len := blockLen blen
  if scpl then
    if l == 0 then none
    else
      let j := (l - 1) / ns
      let pos := (l - 1) % ns
      let num := pos * nfCap w + i
      if j < 127 / ns && i < nfCap w && num < len then some { bit := i * w, num, scale := base + 1 + j * ns } else none
  else
    let j := l / ns
    let pos := l % ns
    let num := if pos == 0 then i else nfCap0 w + (pos - 1) * nfCap w + i
    let cap := if pos == 0 then nfCap0 w else nfCap w
    if j < 512 / ns && i < cap && num < len then
      some { bit := (if pos == 0 then 8 else 0) + i * w, num, scale := base + 128 * (j * ns) }
    else none

/-- Where the element whose number in its segment is `num` lies, counted from the segment's first line: line offset and bit
(R122). -/
def segElem (w : Nat) (scpl : Bool) (num : Nat) : Nat × Nat :=
  if scpl then (num / nfCap w, num % nfCap w * w)
  else if num < nfCap0 w then (0, 8 + num * w)
  else (1 + (num - nfCap0 w) / nfCap w, (num - nfCap0 w) % nfCap w * w)

/-- The number that bits [lo + w - 1 : lo] of a line's bytes hold (R119). -/
def bitsOf (bs : List (BitVec 8)) (lo w : Nat) : Nat :=
  let two := (bs.drop (lo / 8)).take 2
  let v := match two with
    | [a, b] => a.toNat + 256 * b.toNat
    | [a] => a.toNat
    | _ => 0
  v / 2 ^ (lo % 8) % 2 ^ w

/-- The bytes with bits [lo + w - 1 : lo] replaced (R119, R174). -/
def setBits (bs : List (BitVec 8)) (lo w v : Nat) : List (BitVec 8) :=
  let old := match (bs.drop (lo / 8)).take 2 with
    | [a, b] => a.toNat + 256 * b.toNat
    | [a] => a.toNat
    | _ => 0
  let cur := old / 2 ^ (lo % 8) % 2 ^ w
  let new := old - cur * 2 ^ (lo % 8) + (v % 2 ^ w) * 2 ^ (lo % 8)
  let one := bs.set (lo / 8) (BitVec.ofNat 8 new)
  if lo % 8 + w ≤ 8 then one else one.set (lo / 8 + 1) (BitVec.ofNat 8 (new / 256))

end Sys2Proof.Machine
end

