-- ==== Sys2Proof/WellFormed.lean ====
section
/-!
DEFINITION. What makes an instruction well formed beyond its format: the types it accepts (R228), the fields that must be zero or
in range for its operands, and the rounding field of forms that do not round. A word whose instruction is not well formed is
illegal (R226).
-/
namespace Sys2Proof

/-- A signed or unsigned integer type (R111). -/
def Ty.isInt : Ty → Bool
  | .i8 | .i16 | .i32 | .i64 | .u8 | .u16 | .u32 | .u64 => true
  | _ => false

/-- The signed integer types (R228). -/
def Ty.isSigned : Ty → Bool
  | .i8 | .i16 | .i32 | .i64 => true
  | _ => false

/-- The six integer types of 8, 16 and 32 bits, written "i8 to u32" in R228. -/
def Ty.isVecInt : Ty → Bool
  | .i8 | .i16 | .i32 | .u8 | .u16 | .u32 => true
  | _ => false

/-- The IEEE formats and bfloat16 (R112). -/
def Ty.isFloat : Ty → Bool
  | .fp16 | .bf16 | .fp32 | .fp64 => true
  | _ => false

/-- The types of vector floating forms (R228): fp16, bf16, fp32, nf, nfs. -/
def Ty.isVecFloat : Ty → Bool
  | .fp16 | .bf16 | .fp32 | .nf | .nfs => true
  | _ => false

/-- The narrow formats (R115). -/
def Ty.isNf : Ty → Bool
  | .nf | .nfs => true
  | _ => false

/-- "i8 to fp64" (R228): every integer and IEEE type. -/
def Ty.isPlain (t : Ty) : Bool := t.isInt || t.isFloat

/-- The types of `lqv`, `sqv`, `rlv` (R228). -/
def Ty.isGroupTy (t : Ty) : Bool := t.isVecInt || t.isVecFloat || t == .ref

/-- The types of `lql`, `sql`, `rll` (R228). -/
def Ty.isLineTy : Ty → Bool
  | .u64 | .ref => true
  | _ => false

/-- With `[pn]+` the displacement field is mbz (R229). -/
def modeOk {n : Nat} (am : Am) (d : BitVec n) : Bool :=
  match am with
  | .step => d == 0
  | _ => true

/-- An M form without rnd: its mode and its type. -/
def mOk (am : Am) (d : BitVec 12) (ok : Bool) : Bool := modeOk am d && ok

/-- An M form with the 9-bit displacement of R225. -/
def m9Ok (am : Am) (d : BitVec 9) (ok : Bool) : Bool := modeOk am d && ok

/-- A form that rounds only where `rounds` holds carries rnd = 0b000 elsewhere (R225, R226). -/
def rndOk (r : Rnd) (rounds : Bool) : Bool := rounds || r == .rne

/-- Two integer types convert without rounding (R298, R308). -/
def cvtOk (dt ty : Ty) (r : Rnd) : Bool := rndOk r (!(dt.isInt && ty.isInt))

/-- The limits of R226, R228 and of each instruction's own rule; a step without an encoding has none. -/
def Instr.wf : Instr → Bool
  | .pmov _ _ => true
  | .padd _ _ => true
  | .psub _ _ => true
  | .paddi _ _ _ => true
  | .pand _ _ => true
  | .por _ _ => true
  | .pxor _ _ => true
  | .pshl _ _ _ => true
  | .pshr _ _ _ => true
  | .pset _ _ => true
  | .pseth _ _ => true
  | .pstep _ _ => true
  | .pscal _ _ _ => true
  | .mkref _ _ => true
  | .pclr _ => true
  | .pbeq _ _ _ => true
  | .pbne _ _ _ => true
  | .pblt _ _ _ => true
  | .pbge _ _ _ => true
  | .pbltu _ _ _ => true
  | .pbgeu _ _ _ => true
  | .pbtag _ _ => true
  | .pbnt _ _ => true
  | .br _ => true
  | .call _ => true
  | .bz _ => true
  | .bnz _ => true
  | .bn _ => true
  | .bnn _ => true
  | .bc _ => true
  | .bnc _ => true
  | .bo _ => true
  | .bno _ => true
  | .bx _ => true
  | .bnx _ => true
  | .bxz _ => true
  | .bxnz _ => true
  | .bxs _ => true
  | .bxns _ => true
  | .bxt _ => true
  | .bxf _ => true
  | .loop _ len => len != 0
  | .loopi n len => n != 0 && len != 0
  | .jmp _ => true
  | .jal _ _ => true
  | .lq _ am _ d => mOk am d true
  | .lqv _ am ty d => mOk am d ty.isGroupTy
  | .lql _ am ty d => mOk am d ty.isLineTy
  | .sq _ am _ d => mOk am d true
  | .sqv _ am ty d => mOk am d ty.isGroupTy
  | .sql _ am ty d => mOk am d ty.isLineTy
  | .rl _ am _ d => mOk am d true
  | .rlv _ am ty d => mOk am d ty.isGroupTy
  | .rll _ am ty d => mOk am d ty.isLineTy
  | .lp _ _ _ => true
  | .sp _ _ _ => true
  | .rlp _ _ _ => true
  | .lda _ am ty d => mOk am d ty.isInt
  | .add _ am ty d => mOk am d ty.isInt
  | .sub _ am ty d => mOk am d ty.isInt
  | .rsub _ am ty d => mOk am d ty.isInt
  | .adds _ am ty d => mOk am d ty.isInt
  | .subs _ am ty d => mOk am d ty.isInt
  | .and _ am ty d => mOk am d ty.isInt
  | .or _ am ty d => mOk am d ty.isInt
  | .xor _ am ty d => mOk am d ty.isInt
  | .andn _ am ty d => mOk am d ty.isInt
  | .shl _ am ty d => mOk am d ty.isInt
  | .shr _ am ty d => mOk am d ty.isInt
  | .sar _ am ty d => mOk am d ty.isInt
  | .rol _ am ty d => mOk am d ty.isInt
  | .ror _ am ty d => mOk am d ty.isInt
  | .min _ am ty d => mOk am d ty.isInt
  | .max _ am ty d => mOk am d ty.isInt
  | .cmp _ am ty d => mOk am d ty.isInt
  | .tst _ am ty d => mOk am d ty.isInt
  | .popc _ am ty d => mOk am d ty.isInt
  | .clz _ am ty d => mOk am d ty.isInt
  | .ctz _ am ty d => mOk am d ty.isInt
  | .bswap _ am ty d => mOk am d ty.isInt
  | .sta _ am ty d => mOk am d ty.isInt
  | .mul _ am ty d => mOk am d ty.isInt
  | .mulh _ am ty d => mOk am d ty.isInt
  | .muls _ am ty d => mOk am d ty.isInt
  | .div _ am ty d => mOk am d ty.isInt
  | .rem _ am ty d => mOk am d ty.isInt
  | .fadd _ am ty _ d => m9Ok am d ty.isFloat
  | .fsub _ am ty _ d => m9Ok am d ty.isFloat
  | .frsub _ am ty _ d => m9Ok am d ty.isFloat
  | .fmul _ am ty _ d => m9Ok am d ty.isFloat
  | .fdiv _ am ty _ d => m9Ok am d ty.isFloat
  | .frdiv _ am ty _ d => m9Ok am d ty.isFloat
  | .fsqrt _ am ty _ d => m9Ok am d ty.isFloat
  | .fmin _ am ty _ d => m9Ok am d ty.isFloat
  | .fmax _ am ty _ d => m9Ok am d ty.isFloat
  | .fabs _ am ty d => m9Ok am d ty.isFloat
  | .fneg _ am ty d => m9Ok am d ty.isFloat
  | .fcmp _ am ty d => m9Ok am d ty.isFloat
  | .fclass _ am ty d => m9Ok am d ty.isFloat
  | .frnd _ am ty _ d => m9Ok am d ty.isFloat
  | .fscale _ am ty _ d => m9Ok am d ty.isFloat
  | .cvt _ am dt ty r d => m9Ok am d (ty.isPlain || ty.isNf) && dt.isPlain && cvtOk dt ty r
  | .cvts _ am dt ty r d => m9Ok am d (ty.isPlain || ty.isNf) && dt.isPlain && cvtOk dt ty r
  | .vld _ am ty d => mOk am d (ty.isVecInt || ty == .ref)
  | .vst _ am ty d => mOk am d (ty.isVecInt || ty == .ref)
  | .vadd _ am ty d => mOk am d ty.isVecInt
  | .vsub _ am ty d => mOk am d ty.isVecInt
  | .vrsub _ am ty d => mOk am d ty.isVecInt
  | .vadds _ am ty d => mOk am d ty.isVecInt
  | .vsubs _ am ty d => mOk am d ty.isVecInt
  | .vand _ am ty d => mOk am d ty.isVecInt
  | .vor _ am ty d => mOk am d ty.isVecInt
  | .vxor _ am ty d => mOk am d ty.isVecInt
  | .vandn _ am ty d => mOk am d ty.isVecInt
  | .vshl _ am ty d => mOk am d ty.isVecInt
  | .vshr _ am ty d => mOk am d ty.isVecInt
  | .vsar _ am ty d => mOk am d ty.isVecInt
  | .vmin _ am ty d => mOk am d ty.isVecInt
  | .vmax _ am ty d => mOk am d ty.isVecInt
  | .vmul _ am ty d => mOk am d ty.isVecInt
  | .vmulh _ am ty d => mOk am d ty.isVecInt
  | .vmac _ am ty d => mOk am d ty.isVecInt
  | .vabs _ am ty d => mOk am d ty.isVecInt
  | .vneg _ am ty d => mOk am d ty.isVecInt
  | .vpopc _ am ty d => mOk am d ty.isVecInt
  | .vfld _ am ty r d => m9Ok am d ty.isVecFloat && rndOk r (ty == .nfs)
  | .vfst _ am ty r d => m9Ok am d ty.isVecFloat && rndOk r (ty != .fp32)
  | .vfadd _ am ty _ d => m9Ok am d ty.isVecFloat
  | .vfsub _ am ty _ d => m9Ok am d ty.isVecFloat
  | .vfrsub _ am ty _ d => m9Ok am d ty.isVecFloat
  | .vfmul _ am ty _ d => m9Ok am d ty.isVecFloat
  | .vfma _ am ty _ d => m9Ok am d ty.isVecFloat
  | .vfmal _ am ty _ d => m9Ok am d ty.isVecFloat
  | .vfms _ am ty _ d => m9Ok am d ty.isVecFloat
  | .vfdiv _ am ty _ d => m9Ok am d ty.isVecFloat
  | .vfsqrt _ am ty _ d => m9Ok am d ty.isVecFloat
  | .vfmin _ am ty _ d => m9Ok am d ty.isVecFloat
  | .vfmax _ am ty _ d => m9Ok am d ty.isVecFloat
  | .vfabs _ am ty r d => m9Ok am d ty.isVecFloat && rndOk r (ty == .nfs)
  | .vfneg _ am ty r d => m9Ok am d ty.isVecFloat && rndOk r (ty == .nfs)
  | .vfrnd _ am ty _ d => m9Ok am d ty.isVecFloat
  | .vfscale _ am ty _ d => m9Ok am d ty.isVecFloat
  | .vcvtf _ am ty _ d => m9Ok am d (ty.isVecInt || ty.isVecFloat)
  | .vcvti _ am ty r d => m9Ok am d (ty.isVecInt || ty.isVecFloat) && rndOk r (!ty.isVecInt)
  | .vpack _ am ty _ d => m9Ok am d (ty == .fp16 || ty == .bf16 || ty == .nf)
  | .vpacki _ am ty d => m9Ok am d (ty == .i8 || ty == .i16 || ty == .u8 || ty == .u16)
  | .vpacks _ am ty _ d => m9Ok am d (ty == .nfs)
  | .vrsum _ am ty d => m9Ok am d ty.isVecInt
  | .vrmin _ am ty d => m9Ok am d ty.isVecInt
  | .vrmax _ am ty d => m9Ok am d ty.isVecInt
  | .vrdot _ am ty d => m9Ok am d ty.isVecInt
  | .vfrsum _ am ty _ d => m9Ok am d ty.isVecFloat
  | .vfrmin _ am ty _ d => m9Ok am d ty.isVecFloat
  | .vfrmax _ am ty _ d => m9Ok am d ty.isVecFloat
  | .vfrdot _ am ty _ d => m9Ok am d ty.isVecFloat
  | .vceq _ am ty d => mOk am d ty.isVecInt
  | .vcne _ am ty d => mOk am d ty.isVecInt
  | .vclt _ am ty d => mOk am d ty.isVecInt
  | .vcle _ am ty d => mOk am d ty.isVecInt
  | .vcgt _ am ty d => mOk am d ty.isVecInt
  | .vcge _ am ty d => mOk am d ty.isVecInt
  | .vfceq _ am ty d => mOk am d ty.isVecFloat
  | .vfclt _ am ty d => mOk am d ty.isVecFloat
  | .vfcle _ am ty d => mOk am d ty.isVecFloat
  | .vfcun _ am ty d => mOk am d ty.isVecFloat
  | .vsel _ am ty d => mOk am d (ty.isVecInt || ty == .fp16 || ty == .bf16 || ty == .fp32)
  | .mov src _ imm => src == .imm || imm == 0
  | .addi _ => true
  | .andi _ => true
  | .ori _ => true
  | .xori _ => true
  | .shli _ => true
  | .shri _ => true
  | .sari _ => true
  | .cmpi _ => true
  | .fli _ => true
  | .vins _ => true
  | .vext _ => true
  | .kset _ => true
  | .acvt _ r dt st => st.isPlain && dt.isPlain && cvtOk dt st r
  | .vconv _ _ _ => true
  | .vsum r fl => rndOk r fl
  | .vrot _ => true
  | .vbcast _ => true
  | .fence _ => true
  | .acq _ => true
  | .acqO _ => true
  | .rel _ => true
  | .pub _ _ => true
  | .shade _ _ => true
  | .seqadv _ => true
  | .watch _ _ _ => true
  | .watcha _ _ _ => true
  | .wwait _ => true
  | .wtest _ => true
  | .barset _ _ => true
  | .barv _ => true
  | .barw _ => true
  | .dep _ _ _ _ => true
  | .depq _ _ _ => true
  | .depqLine _ _ => true
  | .depe _ _ _ w _ => w != 0
  | .depes _ _ _ w _ => w != 0
  | .amoAdd _ _ _ _ => true
  | .amoMin _ _ _ _ => true
  | .amoMax _ _ _ _ => true
  | .amoMinu _ _ _ _ => true
  | .amoMaxu _ _ _ _ => true
  | .amoAnd _ _ _ _ => true
  | .amoOr _ _ _ _ => true
  | .amoXor _ _ _ _ => true
  | .amoSwap _ _ _ _ => true
  | .amoCas _ _ _ _ => true
  | .amoEnq _ _ _ => true
  | .amoDeq _ _ => true
  | .amoAdv _ _ => true
  | .amoUser _ _ _ k _ => k != 7
  | .send _ _ n _ => decide (n.toNat ≤ 8)
  | .mig _ _ => true
  | .spawn _ _ n _ => decide (n.toNat ≤ 8)
  | .rcmd _ _ k => decide (1 ≤ k.toNat) && decide (k.toNat ≤ 4)
  | .tokq _ => true
  | .tokw _ => true
  | .tokz _ => true
  | .mwld _ _ _ _ _ _ => true
  | .mwldLanding _ _ _ _ _ _ => true
  | .mma pa _ _ _ _ _ _ _ dense => !dense || pa == 0
  | .mmp pa _ _ _ _ _ _ _ dense => !dense || pa == 0
  | .mprog _ _ _ => true
  | .mcommit _ _ _ _ _ _ _ _ => true
  | .mwait x all => !all || x == 0
  | .pull _ _ _ _ _ _ _ => true
  | .pullg _ _ _ _ _ _ _ => true
  | .pullw id all => !all || id == 0
  | .coll _ _ _ _ _ _ => true
  | .collw id all => !all || id == 0
  | .trap n => decide (0x20 ≤ n.toNat)
  | .cget _ _ => true
  | .cset _ _ => true
  | .tlbw _ _ => true
  | .tlbi pa m => m != 3 && (m != 2 || pa == 0)
  | .pready _ fail n => if fail then n != 0 else n == 0
  | .ext _ => true
  | .tok ask _ nm _ => ask || nm
  | .ret => true
  | .vsplat => true
  | .vzero => true
  | .qdrop => true
  | .vperm => true
  | .vcomp => true
  | .vexpd => true
  | .vrev => true
  | .kand => true
  | .kor => true
  | .kxor => true
  | .knot => true
  | .kpop => true
  | .kffs => true
  | .done => true
  | .yield => true
  | .rti => true
  | .ifence => true
  | .hint => true
  | .fetchLine .. => true
  | .loadAtPort .. => true
  | .loadReply .. => true
  | .storeAccept .. => true
  | .storePerform .. => true
  | .tlbwAtHome .. => true
  | .tlbiAtHome .. => true
  | .shootdownAck .. => true
  | .pageFault .. => true
  | .preadyAtCell .. => true
  | .scrubFrame .. => true
  | .patrolRead .. => true
  | .csetCisternFill .. => true
  | .fillModeEntered => true
  | .csetCisternServe .. => true
  | .serveModeReturn => true
  | .refreshWindowStart .. => true
  | .refreshWindowEnd .. => true
  | .eventPost .. => true
  | .csetEvqHead .. => true
  | .tlbctlEnable => true
  | .walkQueueEnter .. => true
  | .lampWalk => true
  | .watchAtOwner .. => true
  | .watchReplace .. => true
  | .watchAnswer .. => true
  | .barsetCheck .. => true
  | .barrierSignal .. => true
  | .barrierRelease .. => true
  | .depositAtOwner .. => true
  | .atomicRequestArrival .. => true
  | .atomicRun => true
  | .atomicOverrun => true
  | .atomicReply .. => true
  | .positiveReply .. => true
  | .negativeReply .. => true
  | .landingAck .. => true
  | .tokenExpiry .. => true
  | .heldMessageArrival .. => true
  | .releaseNotice .. => true
  | .cancelNotice .. => true
  | .holdTimerExpiry .. => true
  | .releaseRecordExpiry .. => true
  | .messageArrival .. => true
  | .pumpReplay => true
  | .yieldBufferSend .. => true
  | .selection .. => true
  | .grantRequest .. => true
  | .grantArrival .. => true
  | .activationReport .. => true
  | .regionLaunch .. => true
  | .handlerInstall .. => true
  | .regionPause .. => true
  | .pauseAtCell .. => true
  | .regionResume .. => true
  | .regionEnd .. => true
  | .endAtCell .. => true
  | .retryResend .. => true
  | .evict .. => true
  | .evictionQuiesced => true
  | .restore .. => true
  | .matrixCommandStart .. => true
  | .matrixTile .. => true
  | .pullStart => true
  | .pullAccess .. => true
  | .collStart => true
  | .collStep .. => true
  | .memberLost .. => true
  | .fabricSlot .. => true
  | .flitReceive .. => true
  | .laneHealthWindow .. => true
  | .lostDeclaration .. => true
  | .farFrameReceive .. => true
  | .farRetransmit .. => true
  | .farSessionOpen .. => true
  | .farRekey .. => true
  | .hostSharedRead .. => true
  | .hostOwnershipRead .. => true
  | .hostWriteback .. => true
  | .hostWrite .. => true
  | .snoopResponse .. => true
  | .placeTableWrite .. => true
  | .vfpairWrite .. => true
  | .hcwinWrite .. => true
  | .fabswitchWrite .. => true
  | .farPeerWrite .. => true
  | .hostRegisterWrite .. => true
  | .registerRead .. => true
  | .create .. => true
  | .destroy .. => true
  | .keyLoad .. => true
  | .gate .. => true
  | .evidence .. => true
  | .peers .. => true
  | .handOver .. => true
  | .powerRun .. => true
  | .powerHold .. => true
  | .powerOff .. => true
  | .clockChangeDone => true
  | .exportPage .. => true
  | .importPage .. => true
  | .declareLost .. => true
  | .mbRegionCommand .. => true
  | .packageReset => true
  | .securityCoreMismatch => true
  | .illegalInstruction .. => true
  | .evheadWrite .. => true
  | .rdcurrFill .. => true
  | .hostPortTrains .. => true

end Sys2Proof
end

