-- ==== Sys2Proof/Decode.lean ====
section
/-!
DEFINITION. Decoding and encoding of the 32-bit instruction words, written from the formats of R224 and R225, the opcode map of
R227 and the subcodes of R231 to R243 and R248. `decode` is total: it answers an instruction, or the name of what R226 finds
illegal. `encode` follows the same tables from the other side.
-/
namespace Sys2Proof

/-- What R226 finds wrong with a word. -/
inductive DecodeError where
  /-- the major is not in the map of R227 -/
  | unknownMajor
  /-- the fn, cond or kind value is reserved in its group -/
  | reservedSub
  /-- a field marked mbz, or an unused pointer field, is nonzero -/
  | mbz
  /-- the ty code 0b1111, or a reserved mode of a field -/
  | reservedField
  /-- a reserved rounding code (R126) -/
  | reservedRnd
  /-- the instruction's own limits fail: a type it does not accept (R228), a rounding field it does not have, an operand
  out of its range (`Instr.wf`) -/
  | illFormed
  deriving DecidableEq, Repr

/-- The `len` bits of `w` from bit `lo` upward. -/
def fld (w : BitVec 32) (lo len : Nat) : BitVec len := w.extractLsb' lo len

/-- The pointer field whose low bit is `lo` (R224). -/
def pregAt (w : BitVec 32) (lo : Nat) : PReg := (fld w lo 3).toFin

/-- The flag bit `lo`. -/
def bitAt (w : BitVec 32) (lo : Nat) : Bool := fld w lo 1 == 1#1

/-- Goes on only if the bits that the group marks mbz are zero (R226). -/
def needZero (ok : Bool) (i : Except DecodeError Instr) : Except DecodeError Instr :=
  if ok then i else .error .mbz

/-- Goes on with the value of a field whose code may be reserved. -/
def needSome {α : Type} (e : DecodeError) (x : Option α) (k : α → Except DecodeError Instr) : Except DecodeError Instr :=
  match x with
  | some a => k a
  | none => .error e

/-- ty codes (R111, R112, R228). -/
def Ty.ofCode (c : BitVec 4) : Option Ty :=
  match c.toNat with
  | 0 => some .i8 | 1 => some .i16 | 2 => some .i32 | 3 => some .i64
  | 4 => some .u8 | 5 => some .u16 | 6 => some .u32 | 7 => some .u64
  | 8 => some .fp16 | 9 => some .bf16 | 10 => some .fp32 | 11 => some .fp64
  | 12 => some .nf | 13 => some .nfs | 14 => some .ref | _ => none

/-- The code of a ty (R111, R112, R228). -/
def Ty.code : Ty → BitVec 4
  | .i8 => 0 | .i16 => 1 | .i32 => 2 | .i64 => 3 | .u8 => 4 | .u16 => 5 | .u32 => 6 | .u64 => 7
  | .fp16 => 8 | .bf16 => 9 | .fp32 => 10 | .fp64 => 11 | .nf => 12 | .nfs => 13 | .ref => 14

/-- am codes (R229). -/
def Am.ofCode (c : BitVec 2) : Am :=
  match c.toNat with
  | 0 => .disp | 1 => .step | 2 => .preUpd | _ => .postDisp

/-- The code of a mode (R229). -/
def Am.code : Am → BitVec 2
  | .disp => 0 | .step => 1 | .preUpd => 2 | .postDisp => 3

/-- rnd codes (R126); 0b101 and 0b110 are reserved. -/
def Rnd.ofCode (c : BitVec 3) : Option Rnd :=
  match c.toNat with
  | 0 => some .rne | 1 => some .rtz | 2 => some .rdn | 3 => some .rup | 4 => some .rst | 7 => some .dyn | _ => none

/-- The code of a rounding field (R126). -/
def Rnd.code : Rnd → BitVec 3
  | .rne => 0 | .rtz => 1 | .rdn => 2 | .rup => 3 | .rst => 4 | .dyn => 7

/-- src codes of `mov` (R238). -/
def MovSrc.ofCode (c : BitVec 3) : Option MovSrc :=
  match c.toNat with
  | 0 => some .a | 1 => some .ldq | 2 => some .k | 3 => some .f | 4 => some .imm | _ => none

/-- The code of a `mov` source (R238). -/
def MovSrc.code : MovSrc → BitVec 3
  | .a => 0 | .ldq => 1 | .k => 2 | .f => 3 | .imm => 4

/-- dst codes of `mov` (R238). -/
def MovDst.ofCode (c : BitVec 2) : MovDst :=
  match c.toNat with
  | 0 => .a | 1 => .stq | 2 => .xq | _ => .k

/-- The code of a `mov` destination (R238). -/
def MovDst.code : MovDst → BitVec 2
  | .a => 0 | .stq => 1 | .xq => 2 | .k => 3

/-- tn codes (R240): 0b000 names no token, 0b1ss slot ss, the rest are reserved. -/
def tokNameOf (c : BitVec 3) : Option TokName :=
  match c.toNat with
  | 0 => some none | 4 => some (some 0) | 5 => some (some 1) | 6 => some (some 2) | 7 => some (some 3) | _ => none

/-- The code of a token name field (R240). -/
def tokNameCode : TokName → BitVec 3
  | none => 0 | some s => BitVec.ofNat 3 (4 + s.val)

/-- The size bits of a sized `amo` (R242): 0b10 four bytes, 0b11 eight. -/
def amoSizeOf (c : BitVec 2) : Option Bool :=
  match c.toNat with
  | 2 => some false | 3 => some true | _ => none

/-- The code of an `amo` size (R242). -/
def amoSizeCode (dbl : Bool) : BitVec 2 := if dbl then 3 else 2

/-- Major 0x01 (R231). -/
def decode01 (w : BitVec 32) : Except DecodeError Instr :=
  match (fld w 16 4).toNat with
  | 0 => needZero (fld w 0 16 == 0#16) <| .ok (.pmov (pregAt w 23) (pregAt w 20))
  | 1 => needZero (fld w 0 16 == 0#16) <| .ok (.padd (pregAt w 23) (pregAt w 20))
  | 2 => needZero (fld w 0 16 == 0#16) <| .ok (.psub (pregAt w 23) (pregAt w 20))
  | 3 => .ok (.paddi (pregAt w 23) (pregAt w 20) (fld w 0 16))
  | 4 => needZero (fld w 0 16 == 0#16) <| .ok (.pand (pregAt w 23) (pregAt w 20))
  | 5 => needZero (fld w 0 16 == 0#16) <| .ok (.por (pregAt w 23) (pregAt w 20))
  | 6 => needZero (fld w 0 16 == 0#16) <| .ok (.pxor (pregAt w 23) (pregAt w 20))
  | 7 => needZero (fld w 6 10 == 0#10) <| .ok (.pshl (pregAt w 23) (pregAt w 20) (fld w 0 6))
  | 8 => needZero (fld w 6 10 == 0#10) <| .ok (.pshr (pregAt w 23) (pregAt w 20) (fld w 0 6))
  | 9 => needZero (fld w 20 3 == 0#3) <| .ok (.pset (pregAt w 23) (fld w 0 16))
  | 10 => needZero (fld w 20 3 == 0#3) <| .ok (.pseth (pregAt w 23) (fld w 0 16))
  | 11 => needZero (fld w 20 3 == 0#3) <| .ok (.pstep (pregAt w 23) (fld w 0 16))
  | 12 => needZero (fld w 3 13 == 0#13) <| .ok (.pscal (pregAt w 23) (pregAt w 20) (fld w 0 3))
  | 13 => needZero (fld w 0 16 == 0#16) <| .ok (.mkref (pregAt w 23) (pregAt w 20))
  | 14 => needZero (fld w 20 3 == 0#3 && fld w 0 16 == 0#16) <| .ok (.pclr (pregAt w 23))
  | _ => .error .reservedSub

/-- Major 0x02 (R232). -/
def decode02 (w : BitVec 32) : Except DecodeError Instr :=
  match (fld w 16 4).toNat with
  | 0 => .ok (.pbeq (pregAt w 23) (pregAt w 20) (fld w 0 16))
  | 1 => .ok (.pbne (pregAt w 23) (pregAt w 20) (fld w 0 16))
  | 2 => .ok (.pblt (pregAt w 23) (pregAt w 20) (fld w 0 16))
  | 3 => .ok (.pbge (pregAt w 23) (pregAt w 20) (fld w 0 16))
  | 4 => .ok (.pbltu (pregAt w 23) (pregAt w 20) (fld w 0 16))
  | 5 => .ok (.pbgeu (pregAt w 23) (pregAt w 20) (fld w 0 16))
  | 6 => needZero (fld w 20 3 == 0#3) <| .ok (.pbtag (pregAt w 23) (fld w 0 16))
  | 7 => needZero (fld w 20 3 == 0#3) <| .ok (.pbnt (pregAt w 23) (fld w 0 16))
  | _ => .error .reservedSub

/-- Major 0x03 (R233). -/
def decode03 (w : BitVec 32) : Except DecodeError Instr :=
  match (fld w 22 4).toNat with
  | 0 => .ok (.br (fld w 0 22))
  | 1 => .ok (.call (fld w 0 22))
  | 2 => .ok (.bz (fld w 0 22))
  | 3 => .ok (.bnz (fld w 0 22))
  | 4 => .ok (.bn (fld w 0 22))
  | 5 => .ok (.bnn (fld w 0 22))
  | 6 => .ok (.bc (fld w 0 22))
  | 7 => .ok (.bnc (fld w 0 22))
  | 8 => .ok (.bo (fld w 0 22))
  | 9 => .ok (.bno (fld w 0 22))
  | 10 => .ok (.bx (fld w 0 22))
  | 11 => .ok (.bnx (fld w 0 22))
  | _ => .error .reservedSub

/-- Major 0x04 (R234). -/
def decode04 (w : BitVec 32) : Except DecodeError Instr :=
  match (fld w 22 4).toNat with
  | 0 => .ok (.bxz (fld w 0 22))
  | 1 => .ok (.bxnz (fld w 0 22))
  | 2 => .ok (.bxs (fld w 0 22))
  | 3 => .ok (.bxns (fld w 0 22))
  | 4 => .ok (.bxt (fld w 0 22))
  | 5 => .ok (.bxf (fld w 0 22))
  | _ => .error .reservedSub

/-- Major 0x05 (R235). -/
def decode05 (w : BitVec 32) : Except DecodeError Instr :=
  match (fld w 16 4).toNat with
  | 0 => needZero (fld w 23 3 == 0#3) <| .ok (.loop (pregAt w 20) (fld w 0 16))
  | 1 => .ok (.loopi (fld w 20 6) (fld w 0 16))
  | _ => .error .reservedSub

/-- Major 0x06 (R235). -/
def decode06 (w : BitVec 32) : Except DecodeError Instr :=
  match (fld w 16 4).toNat with
  | 0 => needZero (fld w 23 3 == 0#3 && fld w 0 16 == 0#16) <| .ok (.jmp (pregAt w 20))
  | 1 => needZero (fld w 0 16 == 0#16) <| .ok (.jal (pregAt w 23) (pregAt w 20))
  | 2 => needZero (fld w 20 6 == 0#6 && fld w 0 16 == 0#16) <| .ok .ret
  | _ => .error .reservedSub

/-- Major 0x08 (R236). -/
def decode08 (w : BitVec 32) : Except DecodeError Instr :=
  match (fld w 16 5).toNat with
  | 0 => needSome .reservedField (Ty.ofCode (fld w 12 4)) fun ty => .ok (.lq (pregAt w 23) (Am.ofCode (fld w 21 2)) ty (fld w 0 12))
  | 1 => needSome .reservedField (Ty.ofCode (fld w 12 4)) fun ty => .ok (.lqv (pregAt w 23) (Am.ofCode (fld w 21 2)) ty (fld w 0 12))
  | 2 => needSome .reservedField (Ty.ofCode (fld w 12 4)) fun ty => .ok (.lql (pregAt w 23) (Am.ofCode (fld w 21 2)) ty (fld w 0 12))
  | _ => .error .reservedSub

/-- Major 0x09 (R236). -/
def decode09 (w : BitVec 32) : Except DecodeError Instr :=
  match (fld w 16 5).toNat with
  | 0 => needSome .reservedField (Ty.ofCode (fld w 12 4)) fun ty => .ok (.sq (pregAt w 23) (Am.ofCode (fld w 21 2)) ty (fld w 0 12))
  | 1 => needSome .reservedField (Ty.ofCode (fld w 12 4)) fun ty => .ok (.sqv (pregAt w 23) (Am.ofCode (fld w 21 2)) ty (fld w 0 12))
  | 2 => needSome .reservedField (Ty.ofCode (fld w 12 4)) fun ty => .ok (.sql (pregAt w 23) (Am.ofCode (fld w 21 2)) ty (fld w 0 12))
  | _ => .error .reservedSub

/-- Major 0x0A (R235). -/
def decode0A (w : BitVec 32) : Except DecodeError Instr :=
  match (fld w 16 4).toNat with
  | 0 => .ok (.lp (pregAt w 23) (pregAt w 20) (fld w 0 16))
  | 1 => .ok (.sp (pregAt w 23) (pregAt w 20) (fld w 0 16))
  | _ => .error .reservedSub

/-- Major 0x0B (R236). -/
def decode0B (w : BitVec 32) : Except DecodeError Instr :=
  match (fld w 16 5).toNat with
  | 0 => needSome .reservedField (Ty.ofCode (fld w 12 4)) fun ty => .ok (.rl (pregAt w 23) (Am.ofCode (fld w 21 2)) ty (fld w 0 12))
  | 1 => needSome .reservedField (Ty.ofCode (fld w 12 4)) fun ty => .ok (.rlv (pregAt w 23) (Am.ofCode (fld w 21 2)) ty (fld w 0 12))
  | 2 => needSome .reservedField (Ty.ofCode (fld w 12 4)) fun ty => .ok (.rll (pregAt w 23) (Am.ofCode (fld w 21 2)) ty (fld w 0 12))
  | _ => .error .reservedSub

/-- Major 0x0C (R235). -/
def decode0C (w : BitVec 32) : Except DecodeError Instr :=
  match (fld w 16 4).toNat with
  | 0 => .ok (.rlp (pregAt w 23) (pregAt w 20) (fld w 0 16))
  | _ => .error .reservedSub

/-- Major 0x10 (R237). -/
def decode10 (w : BitVec 32) : Except DecodeError Instr :=
  match (fld w 16 5).toNat with
  | 0 => needSome .reservedField (Ty.ofCode (fld w 12 4)) fun ty => .ok (.lda (pregAt w 23) (Am.ofCode (fld w 21 2)) ty (fld w 0 12))
  | 1 => needSome .reservedField (Ty.ofCode (fld w 12 4)) fun ty => .ok (.add (pregAt w 23) (Am.ofCode (fld w 21 2)) ty (fld w 0 12))
  | 2 => needSome .reservedField (Ty.ofCode (fld w 12 4)) fun ty => .ok (.sub (pregAt w 23) (Am.ofCode (fld w 21 2)) ty (fld w 0 12))
  | 3 => needSome .reservedField (Ty.ofCode (fld w 12 4)) fun ty => .ok (.rsub (pregAt w 23) (Am.ofCode (fld w 21 2)) ty (fld w 0 12))
  | 4 => needSome .reservedField (Ty.ofCode (fld w 12 4)) fun ty => .ok (.adds (pregAt w 23) (Am.ofCode (fld w 21 2)) ty (fld w 0 12))
  | 5 => needSome .reservedField (Ty.ofCode (fld w 12 4)) fun ty => .ok (.subs (pregAt w 23) (Am.ofCode (fld w 21 2)) ty (fld w 0 12))
  | 6 => needSome .reservedField (Ty.ofCode (fld w 12 4)) fun ty => .ok (.and (pregAt w 23) (Am.ofCode (fld w 21 2)) ty (fld w 0 12))
  | 7 => needSome .reservedField (Ty.ofCode (fld w 12 4)) fun ty => .ok (.or (pregAt w 23) (Am.ofCode (fld w 21 2)) ty (fld w 0 12))
  | 8 => needSome .reservedField (Ty.ofCode (fld w 12 4)) fun ty => .ok (.xor (pregAt w 23) (Am.ofCode (fld w 21 2)) ty (fld w 0 12))
  | 9 => needSome .reservedField (Ty.ofCode (fld w 12 4)) fun ty => .ok (.andn (pregAt w 23) (Am.ofCode (fld w 21 2)) ty (fld w 0 12))
  | 10 => needSome .reservedField (Ty.ofCode (fld w 12 4)) fun ty => .ok (.shl (pregAt w 23) (Am.ofCode (fld w 21 2)) ty (fld w 0 12))
  | 11 => needSome .reservedField (Ty.ofCode (fld w 12 4)) fun ty => .ok (.shr (pregAt w 23) (Am.ofCode (fld w 21 2)) ty (fld w 0 12))
  | 12 => needSome .reservedField (Ty.ofCode (fld w 12 4)) fun ty => .ok (.sar (pregAt w 23) (Am.ofCode (fld w 21 2)) ty (fld w 0 12))
  | 13 => needSome .reservedField (Ty.ofCode (fld w 12 4)) fun ty => .ok (.rol (pregAt w 23) (Am.ofCode (fld w 21 2)) ty (fld w 0 12))
  | 14 => needSome .reservedField (Ty.ofCode (fld w 12 4)) fun ty => .ok (.ror (pregAt w 23) (Am.ofCode (fld w 21 2)) ty (fld w 0 12))
  | 15 => needSome .reservedField (Ty.ofCode (fld w 12 4)) fun ty => .ok (.min (pregAt w 23) (Am.ofCode (fld w 21 2)) ty (fld w 0 12))
  | 16 => needSome .reservedField (Ty.ofCode (fld w 12 4)) fun ty => .ok (.max (pregAt w 23) (Am.ofCode (fld w 21 2)) ty (fld w 0 12))
  | 17 => needSome .reservedField (Ty.ofCode (fld w 12 4)) fun ty => .ok (.cmp (pregAt w 23) (Am.ofCode (fld w 21 2)) ty (fld w 0 12))
  | 18 => needSome .reservedField (Ty.ofCode (fld w 12 4)) fun ty => .ok (.tst (pregAt w 23) (Am.ofCode (fld w 21 2)) ty (fld w 0 12))
  | 19 => needSome .reservedField (Ty.ofCode (fld w 12 4)) fun ty => .ok (.popc (pregAt w 23) (Am.ofCode (fld w 21 2)) ty (fld w 0 12))
  | 20 => needSome .reservedField (Ty.ofCode (fld w 12 4)) fun ty => .ok (.clz (pregAt w 23) (Am.ofCode (fld w 21 2)) ty (fld w 0 12))
  | 21 => needSome .reservedField (Ty.ofCode (fld w 12 4)) fun ty => .ok (.ctz (pregAt w 23) (Am.ofCode (fld w 21 2)) ty (fld w 0 12))
  | 22 => needSome .reservedField (Ty.ofCode (fld w 12 4)) fun ty => .ok (.bswap (pregAt w 23) (Am.ofCode (fld w 21 2)) ty (fld w 0 12))
  | 23 => needSome .reservedField (Ty.ofCode (fld w 12 4)) fun ty => .ok (.sta (pregAt w 23) (Am.ofCode (fld w 21 2)) ty (fld w 0 12))
  | _ => .error .reservedSub

/-- Major 0x11 (R237). -/
def decode11 (w : BitVec 32) : Except DecodeError Instr :=
  match (fld w 16 5).toNat with
  | 0 => needSome .reservedField (Ty.ofCode (fld w 12 4)) fun ty => .ok (.mul (pregAt w 23) (Am.ofCode (fld w 21 2)) ty (fld w 0 12))
  | 1 => needSome .reservedField (Ty.ofCode (fld w 12 4)) fun ty => .ok (.mulh (pregAt w 23) (Am.ofCode (fld w 21 2)) ty (fld w 0 12))
  | 2 => needSome .reservedField (Ty.ofCode (fld w 12 4)) fun ty => .ok (.muls (pregAt w 23) (Am.ofCode (fld w 21 2)) ty (fld w 0 12))
  | 3 => needSome .reservedField (Ty.ofCode (fld w 12 4)) fun ty => .ok (.div (pregAt w 23) (Am.ofCode (fld w 21 2)) ty (fld w 0 12))
  | 4 => needSome .reservedField (Ty.ofCode (fld w 12 4)) fun ty => .ok (.rem (pregAt w 23) (Am.ofCode (fld w 21 2)) ty (fld w 0 12))
  | _ => .error .reservedSub

/-- Major 0x12 (R237). -/
def decode12 (w : BitVec 32) : Except DecodeError Instr :=
  match (fld w 16 5).toNat with
  | 0 => needSome .reservedField (Ty.ofCode (fld w 12 4)) fun ty => needSome .reservedRnd (Rnd.ofCode (fld w 9 3)) fun r => .ok (.fadd (pregAt w 23) (Am.ofCode (fld w 21 2)) ty r (fld w 0 9))
  | 1 => needSome .reservedField (Ty.ofCode (fld w 12 4)) fun ty => needSome .reservedRnd (Rnd.ofCode (fld w 9 3)) fun r => .ok (.fsub (pregAt w 23) (Am.ofCode (fld w 21 2)) ty r (fld w 0 9))
  | 2 => needSome .reservedField (Ty.ofCode (fld w 12 4)) fun ty => needSome .reservedRnd (Rnd.ofCode (fld w 9 3)) fun r => .ok (.frsub (pregAt w 23) (Am.ofCode (fld w 21 2)) ty r (fld w 0 9))
  | 3 => needSome .reservedField (Ty.ofCode (fld w 12 4)) fun ty => needSome .reservedRnd (Rnd.ofCode (fld w 9 3)) fun r => .ok (.fmul (pregAt w 23) (Am.ofCode (fld w 21 2)) ty r (fld w 0 9))
  | 4 => needSome .reservedField (Ty.ofCode (fld w 12 4)) fun ty => needSome .reservedRnd (Rnd.ofCode (fld w 9 3)) fun r => .ok (.fdiv (pregAt w 23) (Am.ofCode (fld w 21 2)) ty r (fld w 0 9))
  | 5 => needSome .reservedField (Ty.ofCode (fld w 12 4)) fun ty => needSome .reservedRnd (Rnd.ofCode (fld w 9 3)) fun r => .ok (.frdiv (pregAt w 23) (Am.ofCode (fld w 21 2)) ty r (fld w 0 9))
  | 6 => needSome .reservedField (Ty.ofCode (fld w 12 4)) fun ty => needSome .reservedRnd (Rnd.ofCode (fld w 9 3)) fun r => .ok (.fsqrt (pregAt w 23) (Am.ofCode (fld w 21 2)) ty r (fld w 0 9))
  | 7 => needSome .reservedField (Ty.ofCode (fld w 12 4)) fun ty => needSome .reservedRnd (Rnd.ofCode (fld w 9 3)) fun r => .ok (.fmin (pregAt w 23) (Am.ofCode (fld w 21 2)) ty r (fld w 0 9))
  | 8 => needSome .reservedField (Ty.ofCode (fld w 12 4)) fun ty => needSome .reservedRnd (Rnd.ofCode (fld w 9 3)) fun r => .ok (.fmax (pregAt w 23) (Am.ofCode (fld w 21 2)) ty r (fld w 0 9))
  | 9 => needZero (fld w 9 3 == 0#3) <| needSome .reservedField (Ty.ofCode (fld w 12 4)) fun ty => .ok (.fabs (pregAt w 23) (Am.ofCode (fld w 21 2)) ty (fld w 0 9))
  | 10 => needZero (fld w 9 3 == 0#3) <| needSome .reservedField (Ty.ofCode (fld w 12 4)) fun ty => .ok (.fneg (pregAt w 23) (Am.ofCode (fld w 21 2)) ty (fld w 0 9))
  | 11 => needZero (fld w 9 3 == 0#3) <| needSome .reservedField (Ty.ofCode (fld w 12 4)) fun ty => .ok (.fcmp (pregAt w 23) (Am.ofCode (fld w 21 2)) ty (fld w 0 9))
  | 12 => needZero (fld w 9 3 == 0#3) <| needSome .reservedField (Ty.ofCode (fld w 12 4)) fun ty => .ok (.fclass (pregAt w 23) (Am.ofCode (fld w 21 2)) ty (fld w 0 9))
  | 13 => needSome .reservedField (Ty.ofCode (fld w 12 4)) fun ty => needSome .reservedRnd (Rnd.ofCode (fld w 9 3)) fun r => .ok (.frnd (pregAt w 23) (Am.ofCode (fld w 21 2)) ty r (fld w 0 9))
  | 14 => needSome .reservedField (Ty.ofCode (fld w 12 4)) fun ty => needSome .reservedRnd (Rnd.ofCode (fld w 9 3)) fun r => .ok (.fscale (pregAt w 23) (Am.ofCode (fld w 21 2)) ty r (fld w 0 9))
  | _ => .error .reservedSub

/-- Major 0x13 (R237). -/
def decode13 (w : BitVec 32) : Except DecodeError Instr :=
  match (fld w 20 1).toNat with
  | 0 => needSome .reservedField (Ty.ofCode (fld w 16 4)) fun dt => needSome .reservedField (Ty.ofCode (fld w 12 4)) fun ty => needSome .reservedRnd (Rnd.ofCode (fld w 9 3)) fun r => .ok (.cvt (pregAt w 23) (Am.ofCode (fld w 21 2)) dt ty r (fld w 0 9))
  | 1 => needSome .reservedField (Ty.ofCode (fld w 16 4)) fun dt => needSome .reservedField (Ty.ofCode (fld w 12 4)) fun ty => needSome .reservedRnd (Rnd.ofCode (fld w 9 3)) fun r => .ok (.cvts (pregAt w 23) (Am.ofCode (fld w 21 2)) dt ty r (fld w 0 9))
  | _ => .error .reservedSub

/-- Major 0x18 (R237). -/
def decode18 (w : BitVec 32) : Except DecodeError Instr :=
  match (fld w 16 5).toNat with
  | 0 => needSome .reservedField (Ty.ofCode (fld w 12 4)) fun ty => .ok (.vld (pregAt w 23) (Am.ofCode (fld w 21 2)) ty (fld w 0 12))
  | 1 => needSome .reservedField (Ty.ofCode (fld w 12 4)) fun ty => .ok (.vst (pregAt w 23) (Am.ofCode (fld w 21 2)) ty (fld w 0 12))
  | 2 => needSome .reservedField (Ty.ofCode (fld w 12 4)) fun ty => .ok (.vadd (pregAt w 23) (Am.ofCode (fld w 21 2)) ty (fld w 0 12))
  | 3 => needSome .reservedField (Ty.ofCode (fld w 12 4)) fun ty => .ok (.vsub (pregAt w 23) (Am.ofCode (fld w 21 2)) ty (fld w 0 12))
  | 4 => needSome .reservedField (Ty.ofCode (fld w 12 4)) fun ty => .ok (.vrsub (pregAt w 23) (Am.ofCode (fld w 21 2)) ty (fld w 0 12))
  | 5 => needSome .reservedField (Ty.ofCode (fld w 12 4)) fun ty => .ok (.vadds (pregAt w 23) (Am.ofCode (fld w 21 2)) ty (fld w 0 12))
  | 6 => needSome .reservedField (Ty.ofCode (fld w 12 4)) fun ty => .ok (.vsubs (pregAt w 23) (Am.ofCode (fld w 21 2)) ty (fld w 0 12))
  | 7 => needSome .reservedField (Ty.ofCode (fld w 12 4)) fun ty => .ok (.vand (pregAt w 23) (Am.ofCode (fld w 21 2)) ty (fld w 0 12))
  | 8 => needSome .reservedField (Ty.ofCode (fld w 12 4)) fun ty => .ok (.vor (pregAt w 23) (Am.ofCode (fld w 21 2)) ty (fld w 0 12))
  | 9 => needSome .reservedField (Ty.ofCode (fld w 12 4)) fun ty => .ok (.vxor (pregAt w 23) (Am.ofCode (fld w 21 2)) ty (fld w 0 12))
  | 10 => needSome .reservedField (Ty.ofCode (fld w 12 4)) fun ty => .ok (.vandn (pregAt w 23) (Am.ofCode (fld w 21 2)) ty (fld w 0 12))
  | 11 => needSome .reservedField (Ty.ofCode (fld w 12 4)) fun ty => .ok (.vshl (pregAt w 23) (Am.ofCode (fld w 21 2)) ty (fld w 0 12))
  | 12 => needSome .reservedField (Ty.ofCode (fld w 12 4)) fun ty => .ok (.vshr (pregAt w 23) (Am.ofCode (fld w 21 2)) ty (fld w 0 12))
  | 13 => needSome .reservedField (Ty.ofCode (fld w 12 4)) fun ty => .ok (.vsar (pregAt w 23) (Am.ofCode (fld w 21 2)) ty (fld w 0 12))
  | 14 => needSome .reservedField (Ty.ofCode (fld w 12 4)) fun ty => .ok (.vmin (pregAt w 23) (Am.ofCode (fld w 21 2)) ty (fld w 0 12))
  | 15 => needSome .reservedField (Ty.ofCode (fld w 12 4)) fun ty => .ok (.vmax (pregAt w 23) (Am.ofCode (fld w 21 2)) ty (fld w 0 12))
  | 16 => needSome .reservedField (Ty.ofCode (fld w 12 4)) fun ty => .ok (.vmul (pregAt w 23) (Am.ofCode (fld w 21 2)) ty (fld w 0 12))
  | 17 => needSome .reservedField (Ty.ofCode (fld w 12 4)) fun ty => .ok (.vmulh (pregAt w 23) (Am.ofCode (fld w 21 2)) ty (fld w 0 12))
  | 18 => needSome .reservedField (Ty.ofCode (fld w 12 4)) fun ty => .ok (.vmac (pregAt w 23) (Am.ofCode (fld w 21 2)) ty (fld w 0 12))
  | 19 => needSome .reservedField (Ty.ofCode (fld w 12 4)) fun ty => .ok (.vabs (pregAt w 23) (Am.ofCode (fld w 21 2)) ty (fld w 0 12))
  | 20 => needSome .reservedField (Ty.ofCode (fld w 12 4)) fun ty => .ok (.vneg (pregAt w 23) (Am.ofCode (fld w 21 2)) ty (fld w 0 12))
  | 21 => needSome .reservedField (Ty.ofCode (fld w 12 4)) fun ty => .ok (.vpopc (pregAt w 23) (Am.ofCode (fld w 21 2)) ty (fld w 0 12))
  | _ => .error .reservedSub

/-- Major 0x19 (R237). -/
def decode19 (w : BitVec 32) : Except DecodeError Instr :=
  match (fld w 16 5).toNat with
  | 0 => needSome .reservedField (Ty.ofCode (fld w 12 4)) fun ty => needSome .reservedRnd (Rnd.ofCode (fld w 9 3)) fun r => .ok (.vfld (pregAt w 23) (Am.ofCode (fld w 21 2)) ty r (fld w 0 9))
  | 1 => needSome .reservedField (Ty.ofCode (fld w 12 4)) fun ty => needSome .reservedRnd (Rnd.ofCode (fld w 9 3)) fun r => .ok (.vfst (pregAt w 23) (Am.ofCode (fld w 21 2)) ty r (fld w 0 9))
  | 2 => needSome .reservedField (Ty.ofCode (fld w 12 4)) fun ty => needSome .reservedRnd (Rnd.ofCode (fld w 9 3)) fun r => .ok (.vfadd (pregAt w 23) (Am.ofCode (fld w 21 2)) ty r (fld w 0 9))
  | 3 => needSome .reservedField (Ty.ofCode (fld w 12 4)) fun ty => needSome .reservedRnd (Rnd.ofCode (fld w 9 3)) fun r => .ok (.vfsub (pregAt w 23) (Am.ofCode (fld w 21 2)) ty r (fld w 0 9))
  | 4 => needSome .reservedField (Ty.ofCode (fld w 12 4)) fun ty => needSome .reservedRnd (Rnd.ofCode (fld w 9 3)) fun r => .ok (.vfrsub (pregAt w 23) (Am.ofCode (fld w 21 2)) ty r (fld w 0 9))
  | 5 => needSome .reservedField (Ty.ofCode (fld w 12 4)) fun ty => needSome .reservedRnd (Rnd.ofCode (fld w 9 3)) fun r => .ok (.vfmul (pregAt w 23) (Am.ofCode (fld w 21 2)) ty r (fld w 0 9))
  | 6 => needSome .reservedField (Ty.ofCode (fld w 12 4)) fun ty => needSome .reservedRnd (Rnd.ofCode (fld w 9 3)) fun r => .ok (.vfma (pregAt w 23) (Am.ofCode (fld w 21 2)) ty r (fld w 0 9))
  | 7 => needSome .reservedField (Ty.ofCode (fld w 12 4)) fun ty => needSome .reservedRnd (Rnd.ofCode (fld w 9 3)) fun r => .ok (.vfmal (pregAt w 23) (Am.ofCode (fld w 21 2)) ty r (fld w 0 9))
  | 8 => needSome .reservedField (Ty.ofCode (fld w 12 4)) fun ty => needSome .reservedRnd (Rnd.ofCode (fld w 9 3)) fun r => .ok (.vfms (pregAt w 23) (Am.ofCode (fld w 21 2)) ty r (fld w 0 9))
  | 9 => needSome .reservedField (Ty.ofCode (fld w 12 4)) fun ty => needSome .reservedRnd (Rnd.ofCode (fld w 9 3)) fun r => .ok (.vfdiv (pregAt w 23) (Am.ofCode (fld w 21 2)) ty r (fld w 0 9))
  | 10 => needSome .reservedField (Ty.ofCode (fld w 12 4)) fun ty => needSome .reservedRnd (Rnd.ofCode (fld w 9 3)) fun r => .ok (.vfsqrt (pregAt w 23) (Am.ofCode (fld w 21 2)) ty r (fld w 0 9))
  | 11 => needSome .reservedField (Ty.ofCode (fld w 12 4)) fun ty => needSome .reservedRnd (Rnd.ofCode (fld w 9 3)) fun r => .ok (.vfmin (pregAt w 23) (Am.ofCode (fld w 21 2)) ty r (fld w 0 9))
  | 12 => needSome .reservedField (Ty.ofCode (fld w 12 4)) fun ty => needSome .reservedRnd (Rnd.ofCode (fld w 9 3)) fun r => .ok (.vfmax (pregAt w 23) (Am.ofCode (fld w 21 2)) ty r (fld w 0 9))
  | 13 => needSome .reservedField (Ty.ofCode (fld w 12 4)) fun ty => needSome .reservedRnd (Rnd.ofCode (fld w 9 3)) fun r => .ok (.vfabs (pregAt w 23) (Am.ofCode (fld w 21 2)) ty r (fld w 0 9))
  | 14 => needSome .reservedField (Ty.ofCode (fld w 12 4)) fun ty => needSome .reservedRnd (Rnd.ofCode (fld w 9 3)) fun r => .ok (.vfneg (pregAt w 23) (Am.ofCode (fld w 21 2)) ty r (fld w 0 9))
  | 15 => needSome .reservedField (Ty.ofCode (fld w 12 4)) fun ty => needSome .reservedRnd (Rnd.ofCode (fld w 9 3)) fun r => .ok (.vfrnd (pregAt w 23) (Am.ofCode (fld w 21 2)) ty r (fld w 0 9))
  | 16 => needSome .reservedField (Ty.ofCode (fld w 12 4)) fun ty => needSome .reservedRnd (Rnd.ofCode (fld w 9 3)) fun r => .ok (.vfscale (pregAt w 23) (Am.ofCode (fld w 21 2)) ty r (fld w 0 9))
  | _ => .error .reservedSub

/-- Major 0x1A (R237). -/
def decode1A (w : BitVec 32) : Except DecodeError Instr :=
  match (fld w 16 5).toNat with
  | 0 => needSome .reservedField (Ty.ofCode (fld w 12 4)) fun ty => needSome .reservedRnd (Rnd.ofCode (fld w 9 3)) fun r => .ok (.vcvtf (pregAt w 23) (Am.ofCode (fld w 21 2)) ty r (fld w 0 9))
  | 1 => needSome .reservedField (Ty.ofCode (fld w 12 4)) fun ty => needSome .reservedRnd (Rnd.ofCode (fld w 9 3)) fun r => .ok (.vcvti (pregAt w 23) (Am.ofCode (fld w 21 2)) ty r (fld w 0 9))
  | 2 => needSome .reservedField (Ty.ofCode (fld w 12 4)) fun ty => needSome .reservedRnd (Rnd.ofCode (fld w 9 3)) fun r => .ok (.vpack (pregAt w 23) (Am.ofCode (fld w 21 2)) ty r (fld w 0 9))
  | 3 => needZero (fld w 9 3 == 0#3) <| needSome .reservedField (Ty.ofCode (fld w 12 4)) fun ty => .ok (.vpacki (pregAt w 23) (Am.ofCode (fld w 21 2)) ty (fld w 0 9))
  | 4 => needSome .reservedField (Ty.ofCode (fld w 12 4)) fun ty => needSome .reservedRnd (Rnd.ofCode (fld w 9 3)) fun r => .ok (.vpacks (pregAt w 23) (Am.ofCode (fld w 21 2)) ty r (fld w 0 9))
  | _ => .error .reservedSub

/-- Major 0x1B (R237). -/
def decode1B (w : BitVec 32) : Except DecodeError Instr :=
  match (fld w 16 5).toNat with
  | 0 => needZero (fld w 9 3 == 0#3) <| needSome .reservedField (Ty.ofCode (fld w 12 4)) fun ty => .ok (.vrsum (pregAt w 23) (Am.ofCode (fld w 21 2)) ty (fld w 0 9))
  | 1 => needZero (fld w 9 3 == 0#3) <| needSome .reservedField (Ty.ofCode (fld w 12 4)) fun ty => .ok (.vrmin (pregAt w 23) (Am.ofCode (fld w 21 2)) ty (fld w 0 9))
  | 2 => needZero (fld w 9 3 == 0#3) <| needSome .reservedField (Ty.ofCode (fld w 12 4)) fun ty => .ok (.vrmax (pregAt w 23) (Am.ofCode (fld w 21 2)) ty (fld w 0 9))
  | 3 => needZero (fld w 9 3 == 0#3) <| needSome .reservedField (Ty.ofCode (fld w 12 4)) fun ty => .ok (.vrdot (pregAt w 23) (Am.ofCode (fld w 21 2)) ty (fld w 0 9))
  | 4 => needSome .reservedField (Ty.ofCode (fld w 12 4)) fun ty => needSome .reservedRnd (Rnd.ofCode (fld w 9 3)) fun r => .ok (.vfrsum (pregAt w 23) (Am.ofCode (fld w 21 2)) ty r (fld w 0 9))
  | 5 => needSome .reservedField (Ty.ofCode (fld w 12 4)) fun ty => needSome .reservedRnd (Rnd.ofCode (fld w 9 3)) fun r => .ok (.vfrmin (pregAt w 23) (Am.ofCode (fld w 21 2)) ty r (fld w 0 9))
  | 6 => needSome .reservedField (Ty.ofCode (fld w 12 4)) fun ty => needSome .reservedRnd (Rnd.ofCode (fld w 9 3)) fun r => .ok (.vfrmax (pregAt w 23) (Am.ofCode (fld w 21 2)) ty r (fld w 0 9))
  | 7 => needSome .reservedField (Ty.ofCode (fld w 12 4)) fun ty => needSome .reservedRnd (Rnd.ofCode (fld w 9 3)) fun r => .ok (.vfrdot (pregAt w 23) (Am.ofCode (fld w 21 2)) ty r (fld w 0 9))
  | _ => .error .reservedSub

/-- Major 0x1C (R237). -/
def decode1C (w : BitVec 32) : Except DecodeError Instr :=
  match (fld w 16 5).toNat with
  | 0 => needSome .reservedField (Ty.ofCode (fld w 12 4)) fun ty => .ok (.vceq (pregAt w 23) (Am.ofCode (fld w 21 2)) ty (fld w 0 12))
  | 1 => needSome .reservedField (Ty.ofCode (fld w 12 4)) fun ty => .ok (.vcne (pregAt w 23) (Am.ofCode (fld w 21 2)) ty (fld w 0 12))
  | 2 => needSome .reservedField (Ty.ofCode (fld w 12 4)) fun ty => .ok (.vclt (pregAt w 23) (Am.ofCode (fld w 21 2)) ty (fld w 0 12))
  | 3 => needSome .reservedField (Ty.ofCode (fld w 12 4)) fun ty => .ok (.vcle (pregAt w 23) (Am.ofCode (fld w 21 2)) ty (fld w 0 12))
  | 4 => needSome .reservedField (Ty.ofCode (fld w 12 4)) fun ty => .ok (.vcgt (pregAt w 23) (Am.ofCode (fld w 21 2)) ty (fld w 0 12))
  | 5 => needSome .reservedField (Ty.ofCode (fld w 12 4)) fun ty => .ok (.vcge (pregAt w 23) (Am.ofCode (fld w 21 2)) ty (fld w 0 12))
  | 6 => needSome .reservedField (Ty.ofCode (fld w 12 4)) fun ty => .ok (.vfceq (pregAt w 23) (Am.ofCode (fld w 21 2)) ty (fld w 0 12))
  | 7 => needSome .reservedField (Ty.ofCode (fld w 12 4)) fun ty => .ok (.vfclt (pregAt w 23) (Am.ofCode (fld w 21 2)) ty (fld w 0 12))
  | 8 => needSome .reservedField (Ty.ofCode (fld w 12 4)) fun ty => .ok (.vfcle (pregAt w 23) (Am.ofCode (fld w 21 2)) ty (fld w 0 12))
  | 9 => needSome .reservedField (Ty.ofCode (fld w 12 4)) fun ty => .ok (.vfcun (pregAt w 23) (Am.ofCode (fld w 21 2)) ty (fld w 0 12))
  | 10 => needSome .reservedField (Ty.ofCode (fld w 12 4)) fun ty => .ok (.vsel (pregAt w 23) (Am.ofCode (fld w 21 2)) ty (fld w 0 12))
  | _ => .error .reservedSub

/-- Major 0x20 (R238). -/
def decode20 (w : BitVec 32) : Except DecodeError Instr :=
  match (fld w 21 5).toNat with
  | 0 => needSome .reservedField (MovSrc.ofCode (fld w 18 3)) fun src => .ok (.mov src (MovDst.ofCode (fld w 16 2)) (fld w 0 16))
  | 1 => needZero (fld w 16 5 == 0#5) <| .ok (.addi (fld w 0 16))
  | 2 => needZero (fld w 16 5 == 0#5) <| .ok (.andi (fld w 0 16))
  | 3 => needZero (fld w 16 5 == 0#5) <| .ok (.ori (fld w 0 16))
  | 4 => needZero (fld w 16 5 == 0#5) <| .ok (.xori (fld w 0 16))
  | 5 => needZero (fld w 6 15 == 0#15) <| .ok (.shli (fld w 0 6))
  | 6 => needZero (fld w 6 15 == 0#15) <| .ok (.shri (fld w 0 6))
  | 7 => needZero (fld w 6 15 == 0#15) <| .ok (.sari (fld w 0 6))
  | 8 => needZero (fld w 16 5 == 0#5) <| .ok (.cmpi (fld w 0 16))
  | 9 => needZero (fld w 16 5 == 0#5) <| .ok (.fli (fld w 0 16))
  | 10 => needZero (fld w 0 21 == 0#21) <| .ok .vsplat
  | 11 => needZero (fld w 5 16 == 0#16) <| .ok (.vins (fld w 0 5))
  | 12 => needZero (fld w 5 16 == 0#16) <| .ok (.vext (fld w 0 5))
  | 13 => needZero (fld w 0 21 == 0#21) <| .ok .vzero
  | 14 => needZero (fld w 16 5 == 0#5) <| .ok (.kset (fld w 0 16))
  | 15 => needZero (fld w 0 21 == 0#21) <| .ok .qdrop
  | 16 => needZero (fld w 12 9 == 0#9) <| needSome .reservedRnd (Rnd.ofCode (fld w 8 3)) fun r => needSome .reservedField (Ty.ofCode (fld w 4 4)) fun dt => needSome .reservedField (Ty.ofCode (fld w 0 4)) fun st => .ok (.acvt (bitAt w 11) r dt st)
  | 17 => needZero (fld w 5 16 == 0#16) <| needSome .reservedRnd (Rnd.ofCode (fld w 1 3)) fun r => .ok (.vconv (bitAt w 4) r (bitAt w 0))
  | 18 => needZero (fld w 4 17 == 0#17) <| needSome .reservedRnd (Rnd.ofCode (fld w 1 3)) fun r => .ok (.vsum r (bitAt w 0))
  | _ => .error .reservedSub

/-- Major 0x21 (R239). -/
def decode21 (w : BitVec 32) : Except DecodeError Instr :=
  match (fld w 21 5).toNat with
  | 0 => needZero (fld w 5 16 == 0#16) <| .ok (.vrot (fld w 0 5))
  | 1 => needZero (fld w 5 16 == 0#16) <| .ok (.vbcast (fld w 0 5))
  | 2 => needZero (fld w 0 21 == 0#21) <| .ok .vperm
  | 3 => needZero (fld w 0 21 == 0#21) <| .ok .vcomp
  | 4 => needZero (fld w 0 21 == 0#21) <| .ok .vexpd
  | 5 => needZero (fld w 0 21 == 0#21) <| .ok .vrev
  | 6 => needZero (fld w 0 21 == 0#21) <| .ok .kand
  | 7 => needZero (fld w 0 21 == 0#21) <| .ok .kor
  | 8 => needZero (fld w 0 21 == 0#21) <| .ok .kxor
  | 9 => needZero (fld w 0 21 == 0#21) <| .ok .knot
  | 10 => needZero (fld w 0 21 == 0#21) <| .ok .kpop
  | 11 => needZero (fld w 0 21 == 0#21) <| .ok .kffs
  | _ => .error .reservedSub

/-- Major 0x28 (R241). -/
def decode28 (w : BitVec 32) : Except DecodeError Instr :=
  match (fld w 21 5).toNat with
  | 0 => needZero (fld w 0 18 == 0#18) <| .ok (.fence (pregAt w 18))
  | 1 =>
    if bitAt w 0 then needZero (fld w 0 18 == 1#18) <| .ok (.acqO (pregAt w 18))
    else needZero (fld w 0 18 == 0#18) <| .ok (.acq (pregAt w 18))
  | 2 => needZero (fld w 0 18 == 0#18) <| .ok (.rel (pregAt w 18))
  | _ => .error .reservedSub

/-- Major 0x29 (R241). -/
def decode29 (w : BitVec 32) : Except DecodeError Instr :=
  match (fld w 21 5).toNat with
  | 0 => needZero (fld w 0 15 == 0#15) <| .ok (.pub (pregAt w 18) (pregAt w 15))
  | 1 => needZero (fld w 0 15 == 0#15) <| .ok (.shade (pregAt w 18) (pregAt w 15))
  | 2 => needZero (fld w 18 3 == 0#3 && fld w 0 15 == 0#15) <| .ok (.seqadv (pregAt w 15))
  | _ => .error .reservedSub

/-- Major 0x2A (R241). -/
def decode2A (w : BitVec 32) : Except DecodeError Instr :=
  match (fld w 21 5).toNat with
  | 0 => needZero (fld w 2 13 == 0#13) <| .ok (.watch (pregAt w 18) (pregAt w 15) ((fld w 0 2).toFin))
  | 1 => needZero (fld w 2 13 == 0#13) <| .ok (.watcha (pregAt w 18) (pregAt w 15) ((fld w 0 2).toFin))
  | 2 => needZero (fld w 2 19 == 0#19) <| .ok (.wwait ((fld w 0 2).toFin))
  | 3 => needZero (fld w 2 19 == 0#19) <| .ok (.wtest ((fld w 0 2).toFin))
  | _ => .error .reservedSub

/-- Major 0x2B (R241). -/
def decode2B (w : BitVec 32) : Except DecodeError Instr :=
  match (fld w 21 5).toNat with
  | 0 => needZero (fld w 2 16 == 0#16) <| .ok (.barset (pregAt w 18) ((fld w 0 2).toFin))
  | 1 => needZero (fld w 2 19 == 0#19) <| .ok (.barv ((fld w 0 2).toFin))
  | 2 => needZero (fld w 2 19 == 0#19) <| .ok (.barw ((fld w 0 2).toFin))
  | _ => .error .reservedSub

/-- Major 0x2C (R241). -/
def decode2C (w : BitVec 32) : Except DecodeError Instr :=
  match (fld w 21 5).toNat with
  | 0 => needZero (fld w 2 10 == 0#10) <| needSome .reservedField (tokNameOf (fld w 12 3)) fun tn => .ok (.dep (pregAt w 18) (pregAt w 15) tn (fld w 0 2))
  | 1 =>
    if bitAt w 2 then needZero (fld w 15 3 == 0#3 && fld w 0 12 == 4#12) <| needSome .reservedField (tokNameOf (fld w 12 3)) fun tn => .ok (.depqLine (pregAt w 18) tn)
    else needZero (fld w 15 3 == 0#3 && fld w 2 10 == 0#10) <| needSome .reservedField (tokNameOf (fld w 12 3)) fun tn => .ok (.depq (pregAt w 18) tn (fld w 0 2))
  | 2 => needSome .reservedField (tokNameOf (fld w 12 3)) fun tn => .ok (.depe (pregAt w 18) (pregAt w 15) tn (fld w 9 3) (fld w 0 9))
  | 3 => needSome .reservedField (tokNameOf (fld w 12 3)) fun tn => .ok (.depes (pregAt w 18) (pregAt w 15) tn (fld w 9 3) (fld w 0 9))
  | _ => .error .reservedSub

/-- Major 0x2D (R242). -/
def decode2D (w : BitVec 32) : Except DecodeError Instr :=
  match (fld w 21 5).toNat with
  | 0 => needZero (fld w 2 10 == 0#10) <| needSome .reservedField (tokNameOf (fld w 12 3)) fun tn => needSome .reservedField (amoSizeOf (fld w 0 2)) fun dbl => .ok (.amoAdd (pregAt w 18) (pregAt w 15) tn dbl)
  | 1 => needZero (fld w 2 10 == 0#10) <| needSome .reservedField (tokNameOf (fld w 12 3)) fun tn => needSome .reservedField (amoSizeOf (fld w 0 2)) fun dbl => .ok (.amoMin (pregAt w 18) (pregAt w 15) tn dbl)
  | 2 => needZero (fld w 2 10 == 0#10) <| needSome .reservedField (tokNameOf (fld w 12 3)) fun tn => needSome .reservedField (amoSizeOf (fld w 0 2)) fun dbl => .ok (.amoMax (pregAt w 18) (pregAt w 15) tn dbl)
  | 3 => needZero (fld w 2 10 == 0#10) <| needSome .reservedField (tokNameOf (fld w 12 3)) fun tn => needSome .reservedField (amoSizeOf (fld w 0 2)) fun dbl => .ok (.amoMinu (pregAt w 18) (pregAt w 15) tn dbl)
  | 4 => needZero (fld w 2 10 == 0#10) <| needSome .reservedField (tokNameOf (fld w 12 3)) fun tn => needSome .reservedField (amoSizeOf (fld w 0 2)) fun dbl => .ok (.amoMaxu (pregAt w 18) (pregAt w 15) tn dbl)
  | 5 => needZero (fld w 2 10 == 0#10) <| needSome .reservedField (tokNameOf (fld w 12 3)) fun tn => needSome .reservedField (amoSizeOf (fld w 0 2)) fun dbl => .ok (.amoAnd (pregAt w 18) (pregAt w 15) tn dbl)
  | 6 => needZero (fld w 2 10 == 0#10) <| needSome .reservedField (tokNameOf (fld w 12 3)) fun tn => needSome .reservedField (amoSizeOf (fld w 0 2)) fun dbl => .ok (.amoOr (pregAt w 18) (pregAt w 15) tn dbl)
  | 7 => needZero (fld w 2 10 == 0#10) <| needSome .reservedField (tokNameOf (fld w 12 3)) fun tn => needSome .reservedField (amoSizeOf (fld w 0 2)) fun dbl => .ok (.amoXor (pregAt w 18) (pregAt w 15) tn dbl)
  | 8 => needZero (fld w 2 10 == 0#10) <| needSome .reservedField (tokNameOf (fld w 12 3)) fun tn => needSome .reservedField (amoSizeOf (fld w 0 2)) fun dbl => .ok (.amoSwap (pregAt w 18) (pregAt w 15) tn dbl)
  | 9 => needZero (fld w 2 10 == 0#10) <| needSome .reservedField (tokNameOf (fld w 12 3)) fun tn => needSome .reservedField (amoSizeOf (fld w 0 2)) fun dbl => .ok (.amoCas (pregAt w 18) (pregAt w 15) tn dbl)
  | 10 => needZero (fld w 0 12 == 0#12) <| needSome .reservedField (tokNameOf (fld w 12 3)) fun tn => .ok (.amoEnq (pregAt w 18) (pregAt w 15) tn)
  | 11 => needZero (fld w 15 3 == 0#3 && fld w 0 12 == 0#12) <| needSome .reservedField (tokNameOf (fld w 12 3)) fun tn => .ok (.amoDeq (pregAt w 18) tn)
  | 12 => needZero (fld w 15 3 == 0#3 && fld w 0 12 == 0#12) <| needSome .reservedField (tokNameOf (fld w 12 3)) fun tn => .ok (.amoAdv (pregAt w 18) tn)
  | 13 => needZero (fld w 5 7 == 0#7) <| needSome .reservedField (tokNameOf (fld w 12 3)) fun tn => needSome .reservedField (amoSizeOf (fld w 0 2)) fun dbl => .ok (.amoUser (pregAt w 18) (pregAt w 15) tn (fld w 2 3) dbl)
  | _ => .error .reservedSub

/-- Major 0x2E (R241). -/
def decode2E (w : BitVec 32) : Except DecodeError Instr :=
  match (fld w 21 5).toNat with
  | 0 => needZero (fld w 15 3 == 0#3 && fld w 9 3 == 0#3) <| needSome .reservedField (tokNameOf (fld w 12 3)) fun tn => .ok (.send (pregAt w 18) tn (fld w 5 4) (fld w 0 5))
  | 1 => needZero (fld w 5 13 == 0#13) <| .ok (.mig (pregAt w 18) (fld w 0 5))
  | 2 => needZero (fld w 15 3 == 0#3 && fld w 9 3 == 0#3) <| needSome .reservedField (tokNameOf (fld w 12 3)) fun tn => .ok (.spawn (pregAt w 18) tn (fld w 5 4) (fld w 0 5))
  | 3 => needZero (fld w 0 21 == 0#21) <| .ok .done
  | 4 => needZero (fld w 0 21 == 0#21) <| .ok .yield
  | 5 => needZero (fld w 15 3 == 0#3 && fld w 4 8 == 0#8) <| needSome .reservedField (tokNameOf (fld w 12 3)) fun tn => .ok (.rcmd (pregAt w 18) tn (fld w 0 4))
  | _ => .error .reservedSub

/-- Major 0x2F (R241). -/
def decode2F (w : BitVec 32) : Except DecodeError Instr :=
  match (fld w 21 5).toNat with
  | 0 => needZero (fld w 2 19 == 0#19) <| .ok (.tokq ((fld w 0 2).toFin))
  | 1 => needZero (fld w 2 19 == 0#19) <| .ok (.tokw ((fld w 0 2).toFin))
  | 2 => needZero (fld w 2 19 == 0#19) <| .ok (.tokz ((fld w 0 2).toFin))
  | _ => .error .reservedSub

/-- Major 0x30 (R370). -/
def decode30 (w : BitVec 32) : Except DecodeError Instr :=
  match (fld w 21 5).toNat with
  | 0 =>
    if bitAt w 4 then needZero (fld w 0 6 == 16#6) <| .ok (.mwldLanding (pregAt w 18) (pregAt w 15) (pregAt w 12) ((fld w 8 4).toFin) (bitAt w 7) (bitAt w 6))
    else needZero (fld w 8 4 == 0#4 && fld w 0 5 == 0#5) <| .ok (.mwld (pregAt w 18) (pregAt w 15) (pregAt w 12) (bitAt w 7) (bitAt w 6) (bitAt w 5))
  | 1 => needZero (fld w 0 3 == 0#3) <| .ok (.mma (pregAt w 18) (pregAt w 15) (pregAt w 12) ((fld w 8 4).toFin) (bitAt w 7) (bitAt w 6) (bitAt w 5) (bitAt w 4) (bitAt w 3))
  | 2 => needZero (fld w 0 3 == 0#3) <| .ok (.mmp (pregAt w 18) (pregAt w 15) (pregAt w 12) ((fld w 8 4).toFin) (bitAt w 7) (bitAt w 6) (bitAt w 5) (bitAt w 4) (bitAt w 3))
  | 3 => needZero (fld w 2 13 == 0#13) <| .ok (.mprog (pregAt w 18) (pregAt w 15) (fld w 0 2))
  | 4 => needZero (fld w 0 2 == 0#2) <| needSome .reservedRnd (Rnd.ofCode (fld w 3 3)) fun r => .ok (.mcommit (pregAt w 18) (pregAt w 15) (pregAt w 12) ((fld w 8 4).toFin) (bitAt w 7) (bitAt w 6) r (bitAt w 2))
  | 5 => needZero (fld w 12 9 == 0#9 && fld w 0 7 == 0#7) <| .ok (.mwait ((fld w 8 4).toFin) (bitAt w 7))
  | _ => .error .reservedSub

/-- Major 0x31 (R381). -/
def decode31 (w : BitVec 32) : Except DecodeError Instr :=
  match (fld w 21 5).toNat with
  | 0 => needZero (fld w 10 2 == 0#2 && fld w 0 5 == 0#5) <| .ok (.pull (pregAt w 18) (pregAt w 15) (pregAt w 12) ((fld w 8 2).toFin) (bitAt w 7) (bitAt w 6) (bitAt w 5))
  | 1 => needZero (fld w 10 2 == 0#2 && fld w 0 5 == 0#5) <| .ok (.pullg (pregAt w 18) (pregAt w 15) (pregAt w 12) ((fld w 8 2).toFin) (bitAt w 7) (bitAt w 6) (bitAt w 5))
  | 2 => needZero (fld w 10 11 == 0#11 && fld w 0 7 == 0#7) <| .ok (.pullw ((fld w 8 2).toFin) (bitAt w 7))
  | _ => .error .reservedSub

/-- Major 0x32 (R381). -/
def decode32 (w : BitVec 32) : Except DecodeError Instr :=
  match (fld w 21 5).toNat with
  | 0 => needZero (fld w 10 2 == 0#2 && fld w 0 6 == 0#6) <| .ok (.coll (pregAt w 18) (pregAt w 15) (pregAt w 12) ((fld w 8 2).toFin) (bitAt w 7) (bitAt w 6))
  | 1 => needZero (fld w 10 11 == 0#11 && fld w 0 7 == 0#7) <| .ok (.collw ((fld w 8 2).toFin) (bitAt w 7))
  | _ => .error .reservedSub

/-- Major 0x38 (R241). -/
def decode38 (w : BitVec 32) : Except DecodeError Instr :=
  match (fld w 21 5).toNat with
  | 0 => needZero (fld w 8 13 == 0#13) <| .ok (.trap (fld w 0 8))
  | 1 => needZero (fld w 0 21 == 0#21) <| .ok .rti
  | 2 => needZero (fld w 12 6 == 0#6) <| .ok (.cget (pregAt w 18) (fld w 0 12))
  | 3 => needZero (fld w 12 6 == 0#6) <| .ok (.cset (pregAt w 18) (fld w 0 12))
  | 4 => needZero (fld w 0 21 == 0#21) <| .ok .ifence
  | 5 => needZero (fld w 0 15 == 0#15) <| .ok (.tlbw (pregAt w 18) (pregAt w 15))
  | 6 => needZero (fld w 2 16 == 0#16) <| .ok (.tlbi (pregAt w 18) (fld w 0 2))
  | 7 => needZero (fld w 9 9 == 0#9) <| .ok (.pready (pregAt w 18) (bitAt w 8) (fld w 0 8))
  | _ => .error .reservedSub

/-- The payloads of `hint` that R252 allows: sub 0 with arg 0 or 1, sub 1 with arg 0 to 3. A hint never changes a result or a
fault, so the decoded instruction keeps neither field. -/
def hintOk (sub : BitVec 4) (arg : BitVec 20) : Bool :=
  (sub == 0 && decide (arg.toNat < 2)) || (sub == 1 && decide (arg.toNat < 4))

/-- Major 0x3F (R248). -/
def decode3F (w : BitVec 32) : Except DecodeError Instr :=
  match (fld w 24 2).toNat with
  | 0 => .ok (.ext (fld w 0 24))
  | 1 => needZero (fld w 6 18 == 0#18) <| .ok (.tok (bitAt w 5) ((fld w 3 2).toFin) (bitAt w 2) ((fld w 0 2).toFin))
  | 2 => if hintOk (fld w 20 4) (fld w 0 20) then .ok .hint else .error .illFormed
  | _ => .error .reservedSub

/-- The instruction whose fields a word holds, before its own limits are checked: the opcode map of R227. -/
def decodeRaw (w : BitVec 32) : Except DecodeError Instr :=
  match (fld w 26 6).toNat with
  | 0x01 => decode01 w
  | 0x02 => decode02 w
  | 0x03 => decode03 w
  | 0x04 => decode04 w
  | 0x05 => decode05 w
  | 0x06 => decode06 w
  | 0x08 => decode08 w
  | 0x09 => decode09 w
  | 0x0A => decode0A w
  | 0x0B => decode0B w
  | 0x0C => decode0C w
  | 0x10 => decode10 w
  | 0x11 => decode11 w
  | 0x12 => decode12 w
  | 0x13 => decode13 w
  | 0x18 => decode18 w
  | 0x19 => decode19 w
  | 0x1A => decode1A w
  | 0x1B => decode1B w
  | 0x1C => decode1C w
  | 0x20 => decode20 w
  | 0x21 => decode21 w
  | 0x28 => decode28 w
  | 0x29 => decode29 w
  | 0x2A => decode2A w
  | 0x2B => decode2B w
  | 0x2C => decode2C w
  | 0x2D => decode2D w
  | 0x2E => decode2E w
  | 0x2F => decode2F w
  | 0x30 => decode30 w
  | 0x31 => decode31 w
  | 0x32 => decode32 w
  | 0x38 => decode38 w
  | 0x3F => decode3F w
  | _ => .error .unknownMajor

/-- Decodes one word (R226, R227): the instruction, or what is illegal about it. -/
def decode (w : BitVec 32) : Except DecodeError Instr :=
  match decodeRaw w with
  | .error e => .error e
  | .ok i => if i.wf then .ok i else .error .illFormed

/-- A word from its four bytes, least significant at the lowest address (R223). -/
def wordOfBytes : List Byte → Option (BitVec 32)
  | [b0, b1, b2, b3] => some (b3 ++ b2 ++ b1 ++ b0)
  | _ => none

/-- The four bytes of a word as memory holds them (R223). -/
def bytesOfWord (w : BitVec 32) : List Byte :=
  [fld w 0 8, fld w 8 8, fld w 16 8, fld w 24 8]

/-- Decodes the bytes that stand at an instruction's address. -/
def decodeBytes (bs : List Byte) : Except DecodeError Instr :=
  match wordOfBytes bs with
  | some w => decode w
  | none => .error .unknownMajor

/-- The instruction that the decoder reads from a word of the opcode table, whose bits are numbered from the least significant
bit of its one word. Every instruction is one 32-bit word (R223); bits above `nbits` are zero. -/
def decodeTableWord (nbits w : Nat) : Option Instr :=
  match decodeBytes (bytesOfWord (BitVec.ofNat 32 (w % 2 ^ nbits))) with
  | .ok i => some i
  | .error _ => none

/-- The word of an instruction (R224 to R243, R248), or `none` for a step that has no encoding. -/
def encode : Instr → Option (BitVec 32)
  | .pmov pd ps => some (1#6 ++ (BitVec.ofFin (w := 3) pd) ++ (BitVec.ofFin (w := 3) ps) ++ 0#4 ++ 0#16)
  | .padd pd ps => some (1#6 ++ (BitVec.ofFin (w := 3) pd) ++ (BitVec.ofFin (w := 3) ps) ++ 1#4 ++ 0#16)
  | .psub pd ps => some (1#6 ++ (BitVec.ofFin (w := 3) pd) ++ (BitVec.ofFin (w := 3) ps) ++ 2#4 ++ 0#16)
  | .paddi pd ps imm => some (1#6 ++ (BitVec.ofFin (w := 3) pd) ++ (BitVec.ofFin (w := 3) ps) ++ 3#4 ++ imm)
  | .pand pd ps => some (1#6 ++ (BitVec.ofFin (w := 3) pd) ++ (BitVec.ofFin (w := 3) ps) ++ 4#4 ++ 0#16)
  | .por pd ps => some (1#6 ++ (BitVec.ofFin (w := 3) pd) ++ (BitVec.ofFin (w := 3) ps) ++ 5#4 ++ 0#16)
  | .pxor pd ps => some (1#6 ++ (BitVec.ofFin (w := 3) pd) ++ (BitVec.ofFin (w := 3) ps) ++ 6#4 ++ 0#16)
  | .pshl pd ps n => some (1#6 ++ (BitVec.ofFin (w := 3) pd) ++ (BitVec.ofFin (w := 3) ps) ++ 7#4 ++ 0#10 ++ n)
  | .pshr pd ps n => some (1#6 ++ (BitVec.ofFin (w := 3) pd) ++ (BitVec.ofFin (w := 3) ps) ++ 8#4 ++ 0#10 ++ n)
  | .pset pd imm => some (1#6 ++ (BitVec.ofFin (w := 3) pd) ++ 0#3 ++ 9#4 ++ imm)
  | .pseth pd imm => some (1#6 ++ (BitVec.ofFin (w := 3) pd) ++ 0#3 ++ 10#4 ++ imm)
  | .pstep pd imm => some (1#6 ++ (BitVec.ofFin (w := 3) pd) ++ 0#3 ++ 11#4 ++ imm)
  | .pscal pd ps n => some (1#6 ++ (BitVec.ofFin (w := 3) pd) ++ (BitVec.ofFin (w := 3) ps) ++ 12#4 ++ 0#13 ++ n)
  | .mkref pd ps => some (1#6 ++ (BitVec.ofFin (w := 3) pd) ++ (BitVec.ofFin (w := 3) ps) ++ 13#4 ++ 0#16)
  | .pclr pd => some (1#6 ++ (BitVec.ofFin (w := 3) pd) ++ 0#3 ++ 14#4 ++ 0#16)
  | .pbeq pd ps off => some (2#6 ++ (BitVec.ofFin (w := 3) pd) ++ (BitVec.ofFin (w := 3) ps) ++ 0#4 ++ off)
  | .pbne pd ps off => some (2#6 ++ (BitVec.ofFin (w := 3) pd) ++ (BitVec.ofFin (w := 3) ps) ++ 1#4 ++ off)
  | .pblt pd ps off => some (2#6 ++ (BitVec.ofFin (w := 3) pd) ++ (BitVec.ofFin (w := 3) ps) ++ 2#4 ++ off)
  | .pbge pd ps off => some (2#6 ++ (BitVec.ofFin (w := 3) pd) ++ (BitVec.ofFin (w := 3) ps) ++ 3#4 ++ off)
  | .pbltu pd ps off => some (2#6 ++ (BitVec.ofFin (w := 3) pd) ++ (BitVec.ofFin (w := 3) ps) ++ 4#4 ++ off)
  | .pbgeu pd ps off => some (2#6 ++ (BitVec.ofFin (w := 3) pd) ++ (BitVec.ofFin (w := 3) ps) ++ 5#4 ++ off)
  | .pbtag pd off => some (2#6 ++ (BitVec.ofFin (w := 3) pd) ++ 0#3 ++ 6#4 ++ off)
  | .pbnt pd off => some (2#6 ++ (BitVec.ofFin (w := 3) pd) ++ 0#3 ++ 7#4 ++ off)
  | .br off => some (3#6 ++ 0#4 ++ off)
  | .call off => some (3#6 ++ 1#4 ++ off)
  | .bz off => some (3#6 ++ 2#4 ++ off)
  | .bnz off => some (3#6 ++ 3#4 ++ off)
  | .bn off => some (3#6 ++ 4#4 ++ off)
  | .bnn off => some (3#6 ++ 5#4 ++ off)
  | .bc off => some (3#6 ++ 6#4 ++ off)
  | .bnc off => some (3#6 ++ 7#4 ++ off)
  | .bo off => some (3#6 ++ 8#4 ++ off)
  | .bno off => some (3#6 ++ 9#4 ++ off)
  | .bx off => some (3#6 ++ 10#4 ++ off)
  | .bnx off => some (3#6 ++ 11#4 ++ off)
  | .bxz off => some (4#6 ++ 0#4 ++ off)
  | .bxnz off => some (4#6 ++ 1#4 ++ off)
  | .bxs off => some (4#6 ++ 2#4 ++ off)
  | .bxns off => some (4#6 ++ 3#4 ++ off)
  | .bxt off => some (4#6 ++ 4#4 ++ off)
  | .bxf off => some (4#6 ++ 5#4 ++ off)
  | .loop ps len => some (5#6 ++ 0#3 ++ (BitVec.ofFin (w := 3) ps) ++ 0#4 ++ len)
  | .loopi n len => some (5#6 ++ n ++ 1#4 ++ len)
  | .jmp ps => some (6#6 ++ 0#3 ++ (BitVec.ofFin (w := 3) ps) ++ 0#4 ++ 0#16)
  | .jal pd ps => some (6#6 ++ (BitVec.ofFin (w := 3) pd) ++ (BitVec.ofFin (w := 3) ps) ++ 1#4 ++ 0#16)
  | .lq p am ty d => some (8#6 ++ (BitVec.ofFin (w := 3) p) ++ am.code ++ 0#5 ++ ty.code ++ d)
  | .lqv p am ty d => some (8#6 ++ (BitVec.ofFin (w := 3) p) ++ am.code ++ 1#5 ++ ty.code ++ d)
  | .lql p am ty d => some (8#6 ++ (BitVec.ofFin (w := 3) p) ++ am.code ++ 2#5 ++ ty.code ++ d)
  | .sq p am ty d => some (9#6 ++ (BitVec.ofFin (w := 3) p) ++ am.code ++ 0#5 ++ ty.code ++ d)
  | .sqv p am ty d => some (9#6 ++ (BitVec.ofFin (w := 3) p) ++ am.code ++ 1#5 ++ ty.code ++ d)
  | .sql p am ty d => some (9#6 ++ (BitVec.ofFin (w := 3) p) ++ am.code ++ 2#5 ++ ty.code ++ d)
  | .rl p am ty d => some (11#6 ++ (BitVec.ofFin (w := 3) p) ++ am.code ++ 0#5 ++ ty.code ++ d)
  | .rlv p am ty d => some (11#6 ++ (BitVec.ofFin (w := 3) p) ++ am.code ++ 1#5 ++ ty.code ++ d)
  | .rll p am ty d => some (11#6 ++ (BitVec.ofFin (w := 3) p) ++ am.code ++ 2#5 ++ ty.code ++ d)
  | .lp pd ps imm => some (10#6 ++ (BitVec.ofFin (w := 3) pd) ++ (BitVec.ofFin (w := 3) ps) ++ 0#4 ++ imm)
  | .sp pd ps imm => some (10#6 ++ (BitVec.ofFin (w := 3) pd) ++ (BitVec.ofFin (w := 3) ps) ++ 1#4 ++ imm)
  | .rlp pd ps imm => some (12#6 ++ (BitVec.ofFin (w := 3) pd) ++ (BitVec.ofFin (w := 3) ps) ++ 0#4 ++ imm)
  | .lda p am ty d => some (16#6 ++ (BitVec.ofFin (w := 3) p) ++ am.code ++ 0#5 ++ ty.code ++ d)
  | .add p am ty d => some (16#6 ++ (BitVec.ofFin (w := 3) p) ++ am.code ++ 1#5 ++ ty.code ++ d)
  | .sub p am ty d => some (16#6 ++ (BitVec.ofFin (w := 3) p) ++ am.code ++ 2#5 ++ ty.code ++ d)
  | .rsub p am ty d => some (16#6 ++ (BitVec.ofFin (w := 3) p) ++ am.code ++ 3#5 ++ ty.code ++ d)
  | .adds p am ty d => some (16#6 ++ (BitVec.ofFin (w := 3) p) ++ am.code ++ 4#5 ++ ty.code ++ d)
  | .subs p am ty d => some (16#6 ++ (BitVec.ofFin (w := 3) p) ++ am.code ++ 5#5 ++ ty.code ++ d)
  | .and p am ty d => some (16#6 ++ (BitVec.ofFin (w := 3) p) ++ am.code ++ 6#5 ++ ty.code ++ d)
  | .or p am ty d => some (16#6 ++ (BitVec.ofFin (w := 3) p) ++ am.code ++ 7#5 ++ ty.code ++ d)
  | .xor p am ty d => some (16#6 ++ (BitVec.ofFin (w := 3) p) ++ am.code ++ 8#5 ++ ty.code ++ d)
  | .andn p am ty d => some (16#6 ++ (BitVec.ofFin (w := 3) p) ++ am.code ++ 9#5 ++ ty.code ++ d)
  | .shl p am ty d => some (16#6 ++ (BitVec.ofFin (w := 3) p) ++ am.code ++ 10#5 ++ ty.code ++ d)
  | .shr p am ty d => some (16#6 ++ (BitVec.ofFin (w := 3) p) ++ am.code ++ 11#5 ++ ty.code ++ d)
  | .sar p am ty d => some (16#6 ++ (BitVec.ofFin (w := 3) p) ++ am.code ++ 12#5 ++ ty.code ++ d)
  | .rol p am ty d => some (16#6 ++ (BitVec.ofFin (w := 3) p) ++ am.code ++ 13#5 ++ ty.code ++ d)
  | .ror p am ty d => some (16#6 ++ (BitVec.ofFin (w := 3) p) ++ am.code ++ 14#5 ++ ty.code ++ d)
  | .min p am ty d => some (16#6 ++ (BitVec.ofFin (w := 3) p) ++ am.code ++ 15#5 ++ ty.code ++ d)
  | .max p am ty d => some (16#6 ++ (BitVec.ofFin (w := 3) p) ++ am.code ++ 16#5 ++ ty.code ++ d)
  | .cmp p am ty d => some (16#6 ++ (BitVec.ofFin (w := 3) p) ++ am.code ++ 17#5 ++ ty.code ++ d)
  | .tst p am ty d => some (16#6 ++ (BitVec.ofFin (w := 3) p) ++ am.code ++ 18#5 ++ ty.code ++ d)
  | .popc p am ty d => some (16#6 ++ (BitVec.ofFin (w := 3) p) ++ am.code ++ 19#5 ++ ty.code ++ d)
  | .clz p am ty d => some (16#6 ++ (BitVec.ofFin (w := 3) p) ++ am.code ++ 20#5 ++ ty.code ++ d)
  | .ctz p am ty d => some (16#6 ++ (BitVec.ofFin (w := 3) p) ++ am.code ++ 21#5 ++ ty.code ++ d)
  | .bswap p am ty d => some (16#6 ++ (BitVec.ofFin (w := 3) p) ++ am.code ++ 22#5 ++ ty.code ++ d)
  | .sta p am ty d => some (16#6 ++ (BitVec.ofFin (w := 3) p) ++ am.code ++ 23#5 ++ ty.code ++ d)
  | .mul p am ty d => some (17#6 ++ (BitVec.ofFin (w := 3) p) ++ am.code ++ 0#5 ++ ty.code ++ d)
  | .mulh p am ty d => some (17#6 ++ (BitVec.ofFin (w := 3) p) ++ am.code ++ 1#5 ++ ty.code ++ d)
  | .muls p am ty d => some (17#6 ++ (BitVec.ofFin (w := 3) p) ++ am.code ++ 2#5 ++ ty.code ++ d)
  | .div p am ty d => some (17#6 ++ (BitVec.ofFin (w := 3) p) ++ am.code ++ 3#5 ++ ty.code ++ d)
  | .rem p am ty d => some (17#6 ++ (BitVec.ofFin (w := 3) p) ++ am.code ++ 4#5 ++ ty.code ++ d)
  | .fadd p am ty r d => some (18#6 ++ (BitVec.ofFin (w := 3) p) ++ am.code ++ 0#5 ++ ty.code ++ r.code ++ d)
  | .fsub p am ty r d => some (18#6 ++ (BitVec.ofFin (w := 3) p) ++ am.code ++ 1#5 ++ ty.code ++ r.code ++ d)
  | .frsub p am ty r d => some (18#6 ++ (BitVec.ofFin (w := 3) p) ++ am.code ++ 2#5 ++ ty.code ++ r.code ++ d)
  | .fmul p am ty r d => some (18#6 ++ (BitVec.ofFin (w := 3) p) ++ am.code ++ 3#5 ++ ty.code ++ r.code ++ d)
  | .fdiv p am ty r d => some (18#6 ++ (BitVec.ofFin (w := 3) p) ++ am.code ++ 4#5 ++ ty.code ++ r.code ++ d)
  | .frdiv p am ty r d => some (18#6 ++ (BitVec.ofFin (w := 3) p) ++ am.code ++ 5#5 ++ ty.code ++ r.code ++ d)
  | .fsqrt p am ty r d => some (18#6 ++ (BitVec.ofFin (w := 3) p) ++ am.code ++ 6#5 ++ ty.code ++ r.code ++ d)
  | .fmin p am ty r d => some (18#6 ++ (BitVec.ofFin (w := 3) p) ++ am.code ++ 7#5 ++ ty.code ++ r.code ++ d)
  | .fmax p am ty r d => some (18#6 ++ (BitVec.ofFin (w := 3) p) ++ am.code ++ 8#5 ++ ty.code ++ r.code ++ d)
  | .fabs p am ty d => some (18#6 ++ (BitVec.ofFin (w := 3) p) ++ am.code ++ 9#5 ++ ty.code ++ 0#3 ++ d)
  | .fneg p am ty d => some (18#6 ++ (BitVec.ofFin (w := 3) p) ++ am.code ++ 10#5 ++ ty.code ++ 0#3 ++ d)
  | .fcmp p am ty d => some (18#6 ++ (BitVec.ofFin (w := 3) p) ++ am.code ++ 11#5 ++ ty.code ++ 0#3 ++ d)
  | .fclass p am ty d => some (18#6 ++ (BitVec.ofFin (w := 3) p) ++ am.code ++ 12#5 ++ ty.code ++ 0#3 ++ d)
  | .frnd p am ty r d => some (18#6 ++ (BitVec.ofFin (w := 3) p) ++ am.code ++ 13#5 ++ ty.code ++ r.code ++ d)
  | .fscale p am ty r d => some (18#6 ++ (BitVec.ofFin (w := 3) p) ++ am.code ++ 14#5 ++ ty.code ++ r.code ++ d)
  | .cvt p am dt ty r d => some (19#6 ++ (BitVec.ofFin (w := 3) p) ++ am.code ++ 0#1 ++ dt.code ++ ty.code ++ r.code ++ d)
  | .cvts p am dt ty r d => some (19#6 ++ (BitVec.ofFin (w := 3) p) ++ am.code ++ 1#1 ++ dt.code ++ ty.code ++ r.code ++ d)
  | .vld p am ty d => some (24#6 ++ (BitVec.ofFin (w := 3) p) ++ am.code ++ 0#5 ++ ty.code ++ d)
  | .vst p am ty d => some (24#6 ++ (BitVec.ofFin (w := 3) p) ++ am.code ++ 1#5 ++ ty.code ++ d)
  | .vadd p am ty d => some (24#6 ++ (BitVec.ofFin (w := 3) p) ++ am.code ++ 2#5 ++ ty.code ++ d)
  | .vsub p am ty d => some (24#6 ++ (BitVec.ofFin (w := 3) p) ++ am.code ++ 3#5 ++ ty.code ++ d)
  | .vrsub p am ty d => some (24#6 ++ (BitVec.ofFin (w := 3) p) ++ am.code ++ 4#5 ++ ty.code ++ d)
  | .vadds p am ty d => some (24#6 ++ (BitVec.ofFin (w := 3) p) ++ am.code ++ 5#5 ++ ty.code ++ d)
  | .vsubs p am ty d => some (24#6 ++ (BitVec.ofFin (w := 3) p) ++ am.code ++ 6#5 ++ ty.code ++ d)
  | .vand p am ty d => some (24#6 ++ (BitVec.ofFin (w := 3) p) ++ am.code ++ 7#5 ++ ty.code ++ d)
  | .vor p am ty d => some (24#6 ++ (BitVec.ofFin (w := 3) p) ++ am.code ++ 8#5 ++ ty.code ++ d)
  | .vxor p am ty d => some (24#6 ++ (BitVec.ofFin (w := 3) p) ++ am.code ++ 9#5 ++ ty.code ++ d)
  | .vandn p am ty d => some (24#6 ++ (BitVec.ofFin (w := 3) p) ++ am.code ++ 10#5 ++ ty.code ++ d)
  | .vshl p am ty d => some (24#6 ++ (BitVec.ofFin (w := 3) p) ++ am.code ++ 11#5 ++ ty.code ++ d)
  | .vshr p am ty d => some (24#6 ++ (BitVec.ofFin (w := 3) p) ++ am.code ++ 12#5 ++ ty.code ++ d)
  | .vsar p am ty d => some (24#6 ++ (BitVec.ofFin (w := 3) p) ++ am.code ++ 13#5 ++ ty.code ++ d)
  | .vmin p am ty d => some (24#6 ++ (BitVec.ofFin (w := 3) p) ++ am.code ++ 14#5 ++ ty.code ++ d)
  | .vmax p am ty d => some (24#6 ++ (BitVec.ofFin (w := 3) p) ++ am.code ++ 15#5 ++ ty.code ++ d)
  | .vmul p am ty d => some (24#6 ++ (BitVec.ofFin (w := 3) p) ++ am.code ++ 16#5 ++ ty.code ++ d)
  | .vmulh p am ty d => some (24#6 ++ (BitVec.ofFin (w := 3) p) ++ am.code ++ 17#5 ++ ty.code ++ d)
  | .vmac p am ty d => some (24#6 ++ (BitVec.ofFin (w := 3) p) ++ am.code ++ 18#5 ++ ty.code ++ d)
  | .vabs p am ty d => some (24#6 ++ (BitVec.ofFin (w := 3) p) ++ am.code ++ 19#5 ++ ty.code ++ d)
  | .vneg p am ty d => some (24#6 ++ (BitVec.ofFin (w := 3) p) ++ am.code ++ 20#5 ++ ty.code ++ d)
  | .vpopc p am ty d => some (24#6 ++ (BitVec.ofFin (w := 3) p) ++ am.code ++ 21#5 ++ ty.code ++ d)
  | .vfld p am ty r d => some (25#6 ++ (BitVec.ofFin (w := 3) p) ++ am.code ++ 0#5 ++ ty.code ++ r.code ++ d)
  | .vfst p am ty r d => some (25#6 ++ (BitVec.ofFin (w := 3) p) ++ am.code ++ 1#5 ++ ty.code ++ r.code ++ d)
  | .vfadd p am ty r d => some (25#6 ++ (BitVec.ofFin (w := 3) p) ++ am.code ++ 2#5 ++ ty.code ++ r.code ++ d)
  | .vfsub p am ty r d => some (25#6 ++ (BitVec.ofFin (w := 3) p) ++ am.code ++ 3#5 ++ ty.code ++ r.code ++ d)
  | .vfrsub p am ty r d => some (25#6 ++ (BitVec.ofFin (w := 3) p) ++ am.code ++ 4#5 ++ ty.code ++ r.code ++ d)
  | .vfmul p am ty r d => some (25#6 ++ (BitVec.ofFin (w := 3) p) ++ am.code ++ 5#5 ++ ty.code ++ r.code ++ d)
  | .vfma p am ty r d => some (25#6 ++ (BitVec.ofFin (w := 3) p) ++ am.code ++ 6#5 ++ ty.code ++ r.code ++ d)
  | .vfmal p am ty r d => some (25#6 ++ (BitVec.ofFin (w := 3) p) ++ am.code ++ 7#5 ++ ty.code ++ r.code ++ d)
  | .vfms p am ty r d => some (25#6 ++ (BitVec.ofFin (w := 3) p) ++ am.code ++ 8#5 ++ ty.code ++ r.code ++ d)
  | .vfdiv p am ty r d => some (25#6 ++ (BitVec.ofFin (w := 3) p) ++ am.code ++ 9#5 ++ ty.code ++ r.code ++ d)
  | .vfsqrt p am ty r d => some (25#6 ++ (BitVec.ofFin (w := 3) p) ++ am.code ++ 10#5 ++ ty.code ++ r.code ++ d)
  | .vfmin p am ty r d => some (25#6 ++ (BitVec.ofFin (w := 3) p) ++ am.code ++ 11#5 ++ ty.code ++ r.code ++ d)
  | .vfmax p am ty r d => some (25#6 ++ (BitVec.ofFin (w := 3) p) ++ am.code ++ 12#5 ++ ty.code ++ r.code ++ d)
  | .vfabs p am ty r d => some (25#6 ++ (BitVec.ofFin (w := 3) p) ++ am.code ++ 13#5 ++ ty.code ++ r.code ++ d)
  | .vfneg p am ty r d => some (25#6 ++ (BitVec.ofFin (w := 3) p) ++ am.code ++ 14#5 ++ ty.code ++ r.code ++ d)
  | .vfrnd p am ty r d => some (25#6 ++ (BitVec.ofFin (w := 3) p) ++ am.code ++ 15#5 ++ ty.code ++ r.code ++ d)
  | .vfscale p am ty r d => some (25#6 ++ (BitVec.ofFin (w := 3) p) ++ am.code ++ 16#5 ++ ty.code ++ r.code ++ d)
  | .vcvtf p am ty r d => some (26#6 ++ (BitVec.ofFin (w := 3) p) ++ am.code ++ 0#5 ++ ty.code ++ r.code ++ d)
  | .vcvti p am ty r d => some (26#6 ++ (BitVec.ofFin (w := 3) p) ++ am.code ++ 1#5 ++ ty.code ++ r.code ++ d)
  | .vpack p am ty r d => some (26#6 ++ (BitVec.ofFin (w := 3) p) ++ am.code ++ 2#5 ++ ty.code ++ r.code ++ d)
  | .vpacki p am ty d => some (26#6 ++ (BitVec.ofFin (w := 3) p) ++ am.code ++ 3#5 ++ ty.code ++ 0#3 ++ d)
  | .vpacks p am ty r d => some (26#6 ++ (BitVec.ofFin (w := 3) p) ++ am.code ++ 4#5 ++ ty.code ++ r.code ++ d)
  | .vrsum p am ty d => some (27#6 ++ (BitVec.ofFin (w := 3) p) ++ am.code ++ 0#5 ++ ty.code ++ 0#3 ++ d)
  | .vrmin p am ty d => some (27#6 ++ (BitVec.ofFin (w := 3) p) ++ am.code ++ 1#5 ++ ty.code ++ 0#3 ++ d)
  | .vrmax p am ty d => some (27#6 ++ (BitVec.ofFin (w := 3) p) ++ am.code ++ 2#5 ++ ty.code ++ 0#3 ++ d)
  | .vrdot p am ty d => some (27#6 ++ (BitVec.ofFin (w := 3) p) ++ am.code ++ 3#5 ++ ty.code ++ 0#3 ++ d)
  | .vfrsum p am ty r d => some (27#6 ++ (BitVec.ofFin (w := 3) p) ++ am.code ++ 4#5 ++ ty.code ++ r.code ++ d)
  | .vfrmin p am ty r d => some (27#6 ++ (BitVec.ofFin (w := 3) p) ++ am.code ++ 5#5 ++ ty.code ++ r.code ++ d)
  | .vfrmax p am ty r d => some (27#6 ++ (BitVec.ofFin (w := 3) p) ++ am.code ++ 6#5 ++ ty.code ++ r.code ++ d)
  | .vfrdot p am ty r d => some (27#6 ++ (BitVec.ofFin (w := 3) p) ++ am.code ++ 7#5 ++ ty.code ++ r.code ++ d)
  | .vceq p am ty d => some (28#6 ++ (BitVec.ofFin (w := 3) p) ++ am.code ++ 0#5 ++ ty.code ++ d)
  | .vcne p am ty d => some (28#6 ++ (BitVec.ofFin (w := 3) p) ++ am.code ++ 1#5 ++ ty.code ++ d)
  | .vclt p am ty d => some (28#6 ++ (BitVec.ofFin (w := 3) p) ++ am.code ++ 2#5 ++ ty.code ++ d)
  | .vcle p am ty d => some (28#6 ++ (BitVec.ofFin (w := 3) p) ++ am.code ++ 3#5 ++ ty.code ++ d)
  | .vcgt p am ty d => some (28#6 ++ (BitVec.ofFin (w := 3) p) ++ am.code ++ 4#5 ++ ty.code ++ d)
  | .vcge p am ty d => some (28#6 ++ (BitVec.ofFin (w := 3) p) ++ am.code ++ 5#5 ++ ty.code ++ d)
  | .vfceq p am ty d => some (28#6 ++ (BitVec.ofFin (w := 3) p) ++ am.code ++ 6#5 ++ ty.code ++ d)
  | .vfclt p am ty d => some (28#6 ++ (BitVec.ofFin (w := 3) p) ++ am.code ++ 7#5 ++ ty.code ++ d)
  | .vfcle p am ty d => some (28#6 ++ (BitVec.ofFin (w := 3) p) ++ am.code ++ 8#5 ++ ty.code ++ d)
  | .vfcun p am ty d => some (28#6 ++ (BitVec.ofFin (w := 3) p) ++ am.code ++ 9#5 ++ ty.code ++ d)
  | .vsel p am ty d => some (28#6 ++ (BitVec.ofFin (w := 3) p) ++ am.code ++ 10#5 ++ ty.code ++ d)
  | .mov src dst imm => some (32#6 ++ 0#5 ++ src.code ++ dst.code ++ imm)
  | .addi imm => some (32#6 ++ 1#5 ++ 0#5 ++ imm)
  | .andi imm => some (32#6 ++ 2#5 ++ 0#5 ++ imm)
  | .ori imm => some (32#6 ++ 3#5 ++ 0#5 ++ imm)
  | .xori imm => some (32#6 ++ 4#5 ++ 0#5 ++ imm)
  | .shli n => some (32#6 ++ 5#5 ++ 0#15 ++ n)
  | .shri n => some (32#6 ++ 6#5 ++ 0#15 ++ n)
  | .sari n => some (32#6 ++ 7#5 ++ 0#15 ++ n)
  | .cmpi imm => some (32#6 ++ 8#5 ++ 0#5 ++ imm)
  | .fli imm => some (32#6 ++ 9#5 ++ 0#5 ++ imm)
  | .vins n => some (32#6 ++ 11#5 ++ 0#16 ++ n)
  | .vext n => some (32#6 ++ 12#5 ++ 0#16 ++ n)
  | .kset imm => some (32#6 ++ 14#5 ++ 0#5 ++ imm)
  | .acvt sat r dt st => some (32#6 ++ 16#5 ++ 0#9 ++ (BitVec.ofBool sat) ++ r.code ++ dt.code ++ st.code)
  | .vconv sat r toF => some (32#6 ++ 17#5 ++ 0#16 ++ (BitVec.ofBool sat) ++ r.code ++ (BitVec.ofBool toF))
  | .vsum r fl => some (32#6 ++ 18#5 ++ 0#17 ++ r.code ++ (BitVec.ofBool fl))
  | .vrot n => some (33#6 ++ 0#5 ++ 0#16 ++ n)
  | .vbcast n => some (33#6 ++ 1#5 ++ 0#16 ++ n)
  | .fence pa => some (40#6 ++ 0#5 ++ (BitVec.ofFin (w := 3) pa) ++ 0#18)
  | .acq pa => some (40#6 ++ 1#5 ++ (BitVec.ofFin (w := 3) pa) ++ 0#18)
  | .acqO pa => some (40#6 ++ 1#5 ++ (BitVec.ofFin (w := 3) pa) ++ 1#18)
  | .rel pa => some (40#6 ++ 2#5 ++ (BitVec.ofFin (w := 3) pa) ++ 0#18)
  | .pub pa pb => some (41#6 ++ 0#5 ++ (BitVec.ofFin (w := 3) pa) ++ (BitVec.ofFin (w := 3) pb) ++ 0#15)
  | .shade pa pb => some (41#6 ++ 1#5 ++ (BitVec.ofFin (w := 3) pa) ++ (BitVec.ofFin (w := 3) pb) ++ 0#15)
  | .seqadv pb => some (41#6 ++ 2#5 ++ 0#3 ++ (BitVec.ofFin (w := 3) pb) ++ 0#15)
  | .watch pa pb w => some (42#6 ++ 0#5 ++ (BitVec.ofFin (w := 3) pa) ++ (BitVec.ofFin (w := 3) pb) ++ 0#13 ++ (BitVec.ofFin (w := 2) w))
  | .watcha pa pb w => some (42#6 ++ 1#5 ++ (BitVec.ofFin (w := 3) pa) ++ (BitVec.ofFin (w := 3) pb) ++ 0#13 ++ (BitVec.ofFin (w := 2) w))
  | .wwait w => some (42#6 ++ 2#5 ++ 0#19 ++ (BitVec.ofFin (w := 2) w))
  | .wtest w => some (42#6 ++ 3#5 ++ 0#19 ++ (BitVec.ofFin (w := 2) w))
  | .barset pa b => some (43#6 ++ 0#5 ++ (BitVec.ofFin (w := 3) pa) ++ 0#16 ++ (BitVec.ofFin (w := 2) b))
  | .barv b => some (43#6 ++ 1#5 ++ 0#19 ++ (BitVec.ofFin (w := 2) b))
  | .barw b => some (43#6 ++ 2#5 ++ 0#19 ++ (BitVec.ofFin (w := 2) b))
  | .dep pa pb tn n => some (44#6 ++ 0#5 ++ (BitVec.ofFin (w := 3) pa) ++ (BitVec.ofFin (w := 3) pb) ++ (tokNameCode tn) ++ 0#10 ++ n)
  | .depq pa tn n => some (44#6 ++ 1#5 ++ (BitVec.ofFin (w := 3) pa) ++ 0#3 ++ (tokNameCode tn) ++ 0#10 ++ n)
  | .depqLine pa tn => some (44#6 ++ 1#5 ++ (BitVec.ofFin (w := 3) pa) ++ 0#3 ++ (tokNameCode tn) ++ 4#12)
  | .depe pa pb tn w i => some (44#6 ++ 2#5 ++ (BitVec.ofFin (w := 3) pa) ++ (BitVec.ofFin (w := 3) pb) ++ (tokNameCode tn) ++ w ++ i)
  | .depes pa pb tn w i => some (44#6 ++ 3#5 ++ (BitVec.ofFin (w := 3) pa) ++ (BitVec.ofFin (w := 3) pb) ++ (tokNameCode tn) ++ w ++ i)
  | .amoAdd pa pb tn dbl => some (45#6 ++ 0#5 ++ (BitVec.ofFin (w := 3) pa) ++ (BitVec.ofFin (w := 3) pb) ++ (tokNameCode tn) ++ 0#10 ++ (amoSizeCode dbl))
  | .amoMin pa pb tn dbl => some (45#6 ++ 1#5 ++ (BitVec.ofFin (w := 3) pa) ++ (BitVec.ofFin (w := 3) pb) ++ (tokNameCode tn) ++ 0#10 ++ (amoSizeCode dbl))
  | .amoMax pa pb tn dbl => some (45#6 ++ 2#5 ++ (BitVec.ofFin (w := 3) pa) ++ (BitVec.ofFin (w := 3) pb) ++ (tokNameCode tn) ++ 0#10 ++ (amoSizeCode dbl))
  | .amoMinu pa pb tn dbl => some (45#6 ++ 3#5 ++ (BitVec.ofFin (w := 3) pa) ++ (BitVec.ofFin (w := 3) pb) ++ (tokNameCode tn) ++ 0#10 ++ (amoSizeCode dbl))
  | .amoMaxu pa pb tn dbl => some (45#6 ++ 4#5 ++ (BitVec.ofFin (w := 3) pa) ++ (BitVec.ofFin (w := 3) pb) ++ (tokNameCode tn) ++ 0#10 ++ (amoSizeCode dbl))
  | .amoAnd pa pb tn dbl => some (45#6 ++ 5#5 ++ (BitVec.ofFin (w := 3) pa) ++ (BitVec.ofFin (w := 3) pb) ++ (tokNameCode tn) ++ 0#10 ++ (amoSizeCode dbl))
  | .amoOr pa pb tn dbl => some (45#6 ++ 6#5 ++ (BitVec.ofFin (w := 3) pa) ++ (BitVec.ofFin (w := 3) pb) ++ (tokNameCode tn) ++ 0#10 ++ (amoSizeCode dbl))
  | .amoXor pa pb tn dbl => some (45#6 ++ 7#5 ++ (BitVec.ofFin (w := 3) pa) ++ (BitVec.ofFin (w := 3) pb) ++ (tokNameCode tn) ++ 0#10 ++ (amoSizeCode dbl))
  | .amoSwap pa pb tn dbl => some (45#6 ++ 8#5 ++ (BitVec.ofFin (w := 3) pa) ++ (BitVec.ofFin (w := 3) pb) ++ (tokNameCode tn) ++ 0#10 ++ (amoSizeCode dbl))
  | .amoCas pa pb tn dbl => some (45#6 ++ 9#5 ++ (BitVec.ofFin (w := 3) pa) ++ (BitVec.ofFin (w := 3) pb) ++ (tokNameCode tn) ++ 0#10 ++ (amoSizeCode dbl))
  | .amoEnq pa pb tn => some (45#6 ++ 10#5 ++ (BitVec.ofFin (w := 3) pa) ++ (BitVec.ofFin (w := 3) pb) ++ (tokNameCode tn) ++ 0#12)
  | .amoDeq pa tn => some (45#6 ++ 11#5 ++ (BitVec.ofFin (w := 3) pa) ++ 0#3 ++ (tokNameCode tn) ++ 0#12)
  | .amoAdv pa tn => some (45#6 ++ 12#5 ++ (BitVec.ofFin (w := 3) pa) ++ 0#3 ++ (tokNameCode tn) ++ 0#12)
  | .amoUser pa pb tn k dbl => some (45#6 ++ 13#5 ++ (BitVec.ofFin (w := 3) pa) ++ (BitVec.ofFin (w := 3) pb) ++ (tokNameCode tn) ++ 0#7 ++ k ++ (amoSizeCode dbl))
  | .send pa tn n c => some (46#6 ++ 0#5 ++ (BitVec.ofFin (w := 3) pa) ++ 0#3 ++ (tokNameCode tn) ++ 0#3 ++ n ++ c)
  | .mig pa c => some (46#6 ++ 1#5 ++ (BitVec.ofFin (w := 3) pa) ++ 0#13 ++ c)
  | .spawn pa tn n c => some (46#6 ++ 2#5 ++ (BitVec.ofFin (w := 3) pa) ++ 0#3 ++ (tokNameCode tn) ++ 0#3 ++ n ++ c)
  | .rcmd pa tn k => some (46#6 ++ 5#5 ++ (BitVec.ofFin (w := 3) pa) ++ 0#3 ++ (tokNameCode tn) ++ 0#8 ++ k)
  | .tokq s => some (47#6 ++ 0#5 ++ 0#19 ++ (BitVec.ofFin (w := 2) s))
  | .tokw s => some (47#6 ++ 1#5 ++ 0#19 ++ (BitVec.ofFin (w := 2) s))
  | .tokz s => some (47#6 ++ 2#5 ++ 0#19 ++ (BitVec.ofFin (w := 2) s))
  | .mwld pa pb pc fa fr sb => some (48#6 ++ 0#5 ++ (BitVec.ofFin (w := 3) pa) ++ (BitVec.ofFin (w := 3) pb) ++ (BitVec.ofFin (w := 3) pc) ++ 0#4 ++ (BitVec.ofBool fa) ++ (BitVec.ofBool fr) ++ (BitVec.ofBool sb) ++ 0#5)
  | .mwldLanding pa pb pc x fa fr => some (48#6 ++ 0#5 ++ (BitVec.ofFin (w := 3) pa) ++ (BitVec.ofFin (w := 3) pb) ++ (BitVec.ofFin (w := 3) pc) ++ (BitVec.ofFin (w := 4) x) ++ (BitVec.ofBool fa) ++ (BitVec.ofBool fr) ++ 16#6)
  | .mma pa pb pc x fa fr sb init dense => some (48#6 ++ 1#5 ++ (BitVec.ofFin (w := 3) pa) ++ (BitVec.ofFin (w := 3) pb) ++ (BitVec.ofFin (w := 3) pc) ++ (BitVec.ofFin (w := 4) x) ++ (BitVec.ofBool fa) ++ (BitVec.ofBool fr) ++ (BitVec.ofBool sb) ++ (BitVec.ofBool init) ++ (BitVec.ofBool dense) ++ 0#3)
  | .mmp pa pb pc x fa fr sb init dense => some (48#6 ++ 2#5 ++ (BitVec.ofFin (w := 3) pa) ++ (BitVec.ofFin (w := 3) pb) ++ (BitVec.ofFin (w := 3) pc) ++ (BitVec.ofFin (w := 4) x) ++ (BitVec.ofBool fa) ++ (BitVec.ofBool fr) ++ (BitVec.ofBool sb) ++ (BitVec.ofBool init) ++ (BitVec.ofBool dense) ++ 0#3)
  | .mprog pa pb n => some (48#6 ++ 3#5 ++ (BitVec.ofFin (w := 3) pa) ++ (BitVec.ofFin (w := 3) pb) ++ 0#13 ++ n)
  | .mcommit pa pb pc x fa fr r sat => some (48#6 ++ 4#5 ++ (BitVec.ofFin (w := 3) pa) ++ (BitVec.ofFin (w := 3) pb) ++ (BitVec.ofFin (w := 3) pc) ++ (BitVec.ofFin (w := 4) x) ++ (BitVec.ofBool fa) ++ (BitVec.ofBool fr) ++ r.code ++ (BitVec.ofBool sat) ++ 0#2)
  | .mwait x all => some (48#6 ++ 5#5 ++ 0#9 ++ (BitVec.ofFin (w := 4) x) ++ (BitVec.ofBool all) ++ 0#7)
  | .pull pa pb pc id fa fr rec => some (49#6 ++ 0#5 ++ (BitVec.ofFin (w := 3) pa) ++ (BitVec.ofFin (w := 3) pb) ++ (BitVec.ofFin (w := 3) pc) ++ 0#2 ++ (BitVec.ofFin (w := 2) id) ++ (BitVec.ofBool fa) ++ (BitVec.ofBool fr) ++ (BitVec.ofBool rec) ++ 0#5)
  | .pullg pa pb pc id fa fr rec => some (49#6 ++ 1#5 ++ (BitVec.ofFin (w := 3) pa) ++ (BitVec.ofFin (w := 3) pb) ++ (BitVec.ofFin (w := 3) pc) ++ 0#2 ++ (BitVec.ofFin (w := 2) id) ++ (BitVec.ofBool fa) ++ (BitVec.ofBool fr) ++ (BitVec.ofBool rec) ++ 0#5)
  | .pullw id all => some (49#6 ++ 2#5 ++ 0#11 ++ (BitVec.ofFin (w := 2) id) ++ (BitVec.ofBool all) ++ 0#7)
  | .coll pa pb pc id fa fr => some (50#6 ++ 0#5 ++ (BitVec.ofFin (w := 3) pa) ++ (BitVec.ofFin (w := 3) pb) ++ (BitVec.ofFin (w := 3) pc) ++ 0#2 ++ (BitVec.ofFin (w := 2) id) ++ (BitVec.ofBool fa) ++ (BitVec.ofBool fr) ++ 0#6)
  | .collw id all => some (50#6 ++ 1#5 ++ 0#11 ++ (BitVec.ofFin (w := 2) id) ++ (BitVec.ofBool all) ++ 0#7)
  | .trap n => some (56#6 ++ 0#5 ++ 0#13 ++ n)
  | .cget pa idx => some (56#6 ++ 2#5 ++ (BitVec.ofFin (w := 3) pa) ++ 0#6 ++ idx)
  | .cset pa idx => some (56#6 ++ 3#5 ++ (BitVec.ofFin (w := 3) pa) ++ 0#6 ++ idx)
  | .tlbw pa pb => some (56#6 ++ 5#5 ++ (BitVec.ofFin (w := 3) pa) ++ (BitVec.ofFin (w := 3) pb) ++ 0#15)
  | .tlbi pa m => some (56#6 ++ 6#5 ++ (BitVec.ofFin (w := 3) pa) ++ 0#16 ++ m)
  | .pready pa fail n => some (56#6 ++ 7#5 ++ (BitVec.ofFin (w := 3) pa) ++ 0#9 ++ (BitVec.ofBool fail) ++ n)
  | .ext payload => some (63#6 ++ 0#2 ++ payload)
  | .tok ask askSlot nm nmSlot => some (63#6 ++ 1#2 ++ 0#18 ++ (BitVec.ofBool ask) ++ (BitVec.ofFin (w := 2) askSlot) ++ (BitVec.ofBool nm) ++ (BitVec.ofFin (w := 2) nmSlot))
  | .ret => some (6#6 ++ 0#6 ++ 2#4 ++ 0#16)
  | .vsplat => some (32#6 ++ 10#5 ++ 0#21)
  | .vzero => some (32#6 ++ 13#5 ++ 0#21)
  | .qdrop => some (32#6 ++ 15#5 ++ 0#21)
  | .vperm => some (33#6 ++ 2#5 ++ 0#21)
  | .vcomp => some (33#6 ++ 3#5 ++ 0#21)
  | .vexpd => some (33#6 ++ 4#5 ++ 0#21)
  | .vrev => some (33#6 ++ 5#5 ++ 0#21)
  | .kand => some (33#6 ++ 6#5 ++ 0#21)
  | .kor => some (33#6 ++ 7#5 ++ 0#21)
  | .kxor => some (33#6 ++ 8#5 ++ 0#21)
  | .knot => some (33#6 ++ 9#5 ++ 0#21)
  | .kpop => some (33#6 ++ 10#5 ++ 0#21)
  | .kffs => some (33#6 ++ 11#5 ++ 0#21)
  | .done => some (46#6 ++ 3#5 ++ 0#21)
  | .yield => some (46#6 ++ 4#5 ++ 0#21)
  | .rti => some (56#6 ++ 1#5 ++ 0#21)
  | .ifence => some (56#6 ++ 4#5 ++ 0#21)
  | .hint => some (63#6 ++ 2#2 ++ 0#24)
  | .fetchLine .. => none
  | .loadAtPort .. => none
  | .loadReply .. => none
  | .storeAccept .. => none
  | .storePerform .. => none
  | .tlbwAtHome .. => none
  | .tlbiAtHome .. => none
  | .shootdownAck .. => none
  | .pageFault .. => none
  | .preadyAtCell .. => none
  | .scrubFrame .. => none
  | .patrolRead .. => none
  | .csetCisternFill .. => none
  | .fillModeEntered => none
  | .csetCisternServe .. => none
  | .serveModeReturn => none
  | .refreshWindowStart .. => none
  | .refreshWindowEnd .. => none
  | .eventPost .. => none
  | .csetEvqHead .. => none
  | .tlbctlEnable => none
  | .walkQueueEnter .. => none
  | .lampWalk => none
  | .watchAtOwner .. => none
  | .watchReplace .. => none
  | .watchAnswer .. => none
  | .barsetCheck .. => none
  | .barrierSignal .. => none
  | .barrierRelease .. => none
  | .depositAtOwner .. => none
  | .atomicRequestArrival .. => none
  | .atomicRun => none
  | .atomicOverrun => none
  | .atomicReply .. => none
  | .positiveReply .. => none
  | .negativeReply .. => none
  | .landingAck .. => none
  | .tokenExpiry .. => none
  | .heldMessageArrival .. => none
  | .releaseNotice .. => none
  | .cancelNotice .. => none
  | .holdTimerExpiry .. => none
  | .releaseRecordExpiry .. => none
  | .messageArrival .. => none
  | .pumpReplay => none
  | .yieldBufferSend .. => none
  | .selection .. => none
  | .grantRequest .. => none
  | .grantArrival .. => none
  | .activationReport .. => none
  | .regionLaunch .. => none
  | .handlerInstall .. => none
  | .regionPause .. => none
  | .pauseAtCell .. => none
  | .regionResume .. => none
  | .regionEnd .. => none
  | .endAtCell .. => none
  | .retryResend .. => none
  | .evict .. => none
  | .evictionQuiesced => none
  | .restore .. => none
  | .matrixCommandStart .. => none
  | .matrixTile .. => none
  | .pullStart => none
  | .pullAccess .. => none
  | .collStart => none
  | .collStep .. => none
  | .memberLost .. => none
  | .fabricSlot .. => none
  | .flitReceive .. => none
  | .laneHealthWindow .. => none
  | .lostDeclaration .. => none
  | .farFrameReceive .. => none
  | .farRetransmit .. => none
  | .farSessionOpen .. => none
  | .farRekey .. => none
  | .hostSharedRead .. => none
  | .hostOwnershipRead .. => none
  | .hostWriteback .. => none
  | .hostWrite .. => none
  | .snoopResponse .. => none
  | .placeTableWrite .. => none
  | .vfpairWrite .. => none
  | .hcwinWrite .. => none
  | .fabswitchWrite .. => none
  | .farPeerWrite .. => none
  | .hostRegisterWrite .. => none
  | .registerRead .. => none
  | .create .. => none
  | .destroy .. => none
  | .keyLoad .. => none
  | .gate .. => none
  | .evidence .. => none
  | .peers .. => none
  | .handOver .. => none
  | .powerRun .. => none
  | .powerHold .. => none
  | .powerOff .. => none
  | .clockChangeDone => none
  | .exportPage .. => none
  | .importPage .. => none
  | .declareLost .. => none
  | .mbRegionCommand .. => none
  | .packageReset => none
  | .securityCoreMismatch => none
  | .illegalInstruction .. => none
  | .evheadWrite .. => none
  | .rdcurrFill .. => none
  | .hostPortTrains .. => none

end Sys2Proof
end

