-- ==== Sys2Proof/Machine/State.lean ====
section
/-!
DEFINITION. The state of the modelled machine as plain data: one cell (its logical index is `self`), its cluster (home, memory,
translation, control registers, queues, engines) and the host, fabric and security blocks of its package, with the messages that
have left them. Then the reasons a step can stop, and the state right after reset.
-/
namespace Sys2Proof.Machine

/-- A TLB entry, as its two words (R48, R49). -/
structure TlbEnt where
  mw : Word
  dw : Word
  deriving DecidableEq, Repr

/-- What an access keeps because a shootdown, the enable of the TLB, a write of a pair or a change of the gates was queued behind it:
the TLB, whether it translates, the pairs and the gates (R54, R57, R67, R75, R443). -/
structure OldXlat where
  tlb : List TlbEnt
  on  : Bool
  pairs : Vector Word 16
  gates : Vector Word 16
  deriving DecidableEq, Repr

/-- Where an access of a slot stands while its port makes it wait: its own-space address, what it keeps, and its turn among the accesses
of the cell's slots that wait (R83). -/
structure PortWait where
  oa  : Nat
  old : Option OldXlat
  turn : Nat := 0
  deriving DecidableEq, Repr

/-! ## An activation in a slot -/

/-- A pointer register: value, signed byte step, tag (R261). -/
structure Ptr where
  val  : Word
  step : BitVec 16
  tag  : Bool
  deriving DecidableEq, Repr

/-- The five flags (R290). -/
structure Flags where
  z : Bool
  n : Bool
  c : Bool
  o : Bool
  x : Bool
  deriving DecidableEq, Repr

/-- The hidden loop state (R64, R273). -/
structure LoopState where
  count : Word
  start : Word
  stop  : Word
  deriving DecidableEq, Repr

/-- The state of a watch register (R315). -/
inductive WatchSt where
  | empty | pending | answered | failed
  deriving DecidableEq, Repr

/-- A watch register (R315, R316): state, acquiring, code, answer, the placement's own number, the watched address and the
threshold. -/
structure WatchReg where
  st   : WatchSt
  acq  : Bool
  code : Code
  val  : Word
  rid  : Nat
  addr : Word
  thresh : Word
  deriving DecidableEq, Repr

/-- A place of LDQ: reserved for a reply, or filled (R278). -/
inductive LdqPlace where
  | reserved (rid : Nat)
  /-- the atomic request was refused, so the place is never filled (R329) -/
  | refused (rid : Nat)
  | filled (e : QEntry)
  deriving DecidableEq, Repr

/-- A place of XQ: reserved at decode, or filled (R270). -/
inductive XqPlace where
  | reserved
  | filled (w : Word)
  deriving DecidableEq, Repr

/-- The pending prefix of a slot (R248): its PC, its word, and what it asks for. -/
inductive PfxKind where
  | ext (payload : BitVec 24)
  | tok (ask : Option (Fin 4)) (nm : Option (Fin 4))
  | hint
  deriving DecidableEq, Repr

structure Pfx where
  pc   : Word
  word : BitVec 32
  kind : PfxKind
  deriving DecidableEq, Repr

/-- An execute-half instruction that waits in the half while the access half goes on (R247). -/
structure ExItem where
  pc    : Word
  word  : BitVec 32
  instr : Instr
  pfx   : Option Pfx
  /-- the LDQ entries that it pops, where its own access part has produced as many (R244) -/
  pops  : Nat := 0
  deriving DecidableEq, Repr

/-- What a trap record says beside the slot's own state (R343): PC, code, address, place, token, and the mark bits. -/
structure TrapInfo where
  pc    : Word
  code  : Code
  addr  : Word
  place : Word
  tok   : BitVec 24
  mem   : Bool
  iw    : BitVec 32
  pfx   : BitVec 32
  /-- the refused message's payload, for the payload notice of R342 -/
  pay   : List TWord
  /-- the token of the record is dead, so the slots that hold it become 0 when the trap is taken (R191) -/
  dies  : Bool := false
  deriving DecidableEq, Repr

/-- What a trap is taken for (R343): code, address, place, token, PC, resume PC and the mark bits. -/
structure TrapReq where
  code   : Code
  addr   : Word
  place  : Word
  tok    : BitVec 24
  pc     : Word
  resume : Word
  isDef  : Bool
  mem    : Bool
  sw     : Bool
  pay    : Bool
  iw     : BitVec 32
  pfx    : BitVec 32
  /-- the deferred report that it is taken for (R169) -/
  info   : Option TrapInfo := none
  deriving DecidableEq, Repr

/-- The state of a transfer (R365). -/
inductive XferSt where
  | free | opened | closing
  deriving DecidableEq, Repr

/-- A transfer: state, region entry, issuing activation, rows taken, the landing rows, and rows that a commit not yet done still
holds while newer commands wait (R365). -/
structure Xfer where
  st    : XferSt
  reg   : Fin 8
  aid   : Nat
  m     : Nat
  rows  : List (List (BitVec 32))
  older : Nat
  deriving DecidableEq, Repr

/-- The engine commands of major 0x30 that are queued (R367). -/
inductive MOp where
  | mwld | landing | mma | mmp | mprog | mcommit
  deriving DecidableEq, Repr

/-- A matrix command, queued or running (R367, R377): operands and descriptors as captured at issue, and its progress. -/
structure MCmd where
  num   : Nat
  op    : MOp
  aid   : Nat
  reg   : Fin 8
  chan  : BitVec 5
  slot  : Fin 4
  pc    : Word
  iw    : BitVec 32
  wa    : Word
  wb    : Word
  x     : Fin 16
  sb    : Bool
  acq   : Bool
  init  : Bool
  dense : Bool
  r     : Rnd
  sat   : Bool
  /-- rows of the transfer -/
  m     : Nat
  /-- requests numbered below this are the activation's earlier ones, for the acquire flag (R185) -/
  mark  : Nat
  started : Bool
  /-- `ctl.round`.nsc as read at the start (R361) -/
  nsc   : Bool
  /-- rows or lines already processed -/
  done  : Nat
  /-- the index vector, or the data gathered so far by a load -/
  bytes  : List Byte
  scales : List Byte
  desc   : Option (BitVec 24)
  geo    : BitVec 4
  ckey   : BitVec 6
  /-- the number of the outstanding read of another cluster, or of the retry that is awaited, and the retry answers so far -/
  wait   : Option Nat
  /-- the retry answers to the read at this address so far (R364) -/
  retryAt : Word
  retries : Nat
  /-- the reload of a buffer that was saved by its source (R378) -/
  reload : Bool
  /-- a line of it has been decrypted (R362) -/
  secret : Bool := false
  /-- a load of a region that has ended: it only makes its buffer invalid (R379) -/
  void  : Bool := false
  /-- the address, as the command names it, of the access that waits on a TLB miss (R396) -/
  missAt : Word := 0
  deriving DecidableEq, Repr

/-- What the blocked instruction of a slot is in the middle of. -/
inductive Phase where
  | none
  /-- waits on a TLB miss at this own-space address (R59) -/
  | missWait (oa : Word)
  /-- waits for the reply of a pod load that has been answered retry `n` times (R280, R400) -/
  | loadWait (rid n : Nat)
  /-- the reply has arrived -/
  | loaded (e : QEntry)
  /-- the access was refused with this code; `mem` marks a memory error (R79) -/
  | refused (code : Code) (mem : Bool)
  /-- the port has answered retry this many times (R400) -/
  | retryWait (rid n : Nat)
  /-- the access is made again after `n` retry answers -/
  | again (n : Nat)
  /-- a trap record or frame waits on a TLB miss, which was answered with a refusal -/
  | frameWait
  | frameBad
  /-- a page fault waits for older instructions and for a frame, 1: for the frame's translation, 2: the frame is refused (R63) -/
  | pageFault (oa p1 : Word) (frame : Nat)
  /-- a `pub` or `seqadv` stands in the walk queue or in the walker (R152) -/
  | walkWait
  | walkDone
  /-- its walk or its advance failed, with the trap's code and address (R154) -/
  | walkFail (code : Code) (addr : Word)
  /-- a `tlbi` waits for its acknowledgement (R68) -/
  | ackWait
  | ackDone
  /-- a wait of an engine for the commands numbered below this one (R376, R382) -/
  | engWait (upto : Nat)
  /-- an engine command has passed its checks and waits for a place in the queue, with the transfer as it stood before (R367) -/
  | engQueue (c : MCmd) (undo : Option (Fin 16 × Xfer))
  /-- a `mwait` that a faulting command has cancelled (R369) -/
  | waitLost
  /-- a `barset` waits for this many answers; a home has answered that a cell is absent (R42) -/
  | barWait (rid left : Nat) (absent : Bool)
  deriving DecidableEq, Repr

/-- The context of an activation in a slot (R213, R261, R290). -/
structure Act where
  /-- the slot holds an activation (or a user handler, in the atomic slot) -/
  live   : Bool
  /-- the activation's own number, by which replies and tokens find it -/
  aid    : Nat
  chan   : BitVec 5
  reg    : Fin 8
  prio   : BitVec 3
  spw    : Bool
  tm     : Bool
  pc     : Word
  p      : Vector Ptr 8
  a      : Word
  v      : Vector (BitVec 32) 32
  vtag   : BitVec 16
  k      : BitVec 32
  f      : Flags
  loop   : LoopState
  toks   : Vector (BitVec 24) 4
  ldq    : List LdqPlace
  stq    : List QEntry
  xq     : List XqPlace
  exq    : List ExItem
  watch  : Vector WatchReg 4
  pfx    : Option Pfx
  /-- fetched instruction lines by line address, kept until `ifence` (R223) -/
  ibuf   : List (Word × List Byte)
  phase  : Phase
  /-- the slot cannot go on until something else happens -/
  blocked : Bool
  /-- the next instruction has been tried and had to wait -/
  stalled : Bool
  /-- a port makes the instruction's access wait -/
  atPort : Option PortWait
  /-- refusals not yet taken as traps, in arrival order (R169) -/
  deferred : List TrapInfo
  /-- the deferred reports are taken before the instruction that faulted is executed again (R169) -/
  reportFirst : Bool
  /-- an execute-half instruction of `exq` is being executed -/
  drain  : Bool
  /-- the instruction word in execution (R343 word 6) -/
  iw     : BitVec 32
  /-- CK cycles charged to the activation and not yet reported (R203) -/
  cycles : Nat
  /-- the first operand of a `vfmal` whose second is still awaited (R237) -/
  first  : Option QEntry
  /-- the access of the instruction has been at its port before an ordering point that the cell has passed since (R61) -/
  early  : Bool := false
  /-- a trap that has been raised and waits for older parts, for its frame, or for a free frame (R245, R346) -/
  trapping : Option TrapReq
  deriving DecidableEq, Repr

/-- A part that has issued behind others and is not complete (R285): the PC behind it, its access, the pointer and the place of LDQ that
its data will write, whether it has an execute part behind it, and whether that has run ahead of the data, on older entries. -/
structure PartAhead where
  next  : Word
  ea    : Word
  isMem : Bool
  store : Bool
  nf    : Bool
  busy  : Option PReg
  tag   : Option Nat
  item  : Bool
  ran   : Bool := false
  deriving DecidableEq, Repr

/-- An incomplete part and the slot's context behind it. -/
structure Ahead where
  part : PartAhead
  act  : Act
  deriving DecidableEq, Repr

/-- What has issued behind the instruction at which a slot's context stands (R244, R285): that context, the incomplete parts, oldest
first, the instruction's own before the others, and how many words may still issue. -/
structure RunAhead where
  base    : Act
  parts   : List Ahead
  left    : Nat
  blocked : Bool
  deriving DecidableEq, Repr

/-- An activation parked in a frame (R63, R346): frame address, kept registers, words 1, 40 and 41 of the frame as written, the
address of its page fault, whether it may be selected, and the code and address with which its instruction must trap on resume. -/
structure Parked where
  frame    : Word
  act      : Act
  word1    : Word
  word40   : Word
  word41   : Word
  oa       : Word
  /-- parked by a page fault: a failing `pready` makes the instruction trap (R356) -/
  byFault  : Bool
  runnable : Bool
  /-- parked by a pause: a resume of the region makes it runnable (R200) -/
  byPause  : Bool
  failCode : Option (Code × Word)
  /-- the prefix word of the instruction it was parked at, else 0 (R343 word 6) -/
  pfx      : BitVec 32
  /-- its frame is being waited for by selection, or cannot be translated (R62, R66) -/
  waits    : Bool
  lost     : Bool
  deriving DecidableEq, Repr

/-! ## A cell -/

/-- A handler entry (R205). -/
structure Handler where
  v     : Bool
  mask  : Bool
  pri   : BitVec 3
  reg   : Fin 8
  len   : BitVec 4
  lim   : BitVec 2
  entry : BitVec 34
  sc    : Vector (BitVec 32) 4
  deriving DecidableEq, Repr

/-- A region-table entry of a cell (R203, R211, R216). -/
structure RegEntry where
  v       : Bool
  info    : RegInfo
  paused  : Bool
  /-- grants left: activations and cycles; unlimited budgets are never charged (R203) -/
  acts    : Nat
  cycles  : Nat
  credit  : Nat
  askedA  : Bool
  askedC  : Bool
  askedS  : Bool
  sumpHead : Nat
  sumpTail : Nat
  /-- the channels of the messages in the sump, oldest first -/
  sumpChans : List (BitVec 5)
  /-- a sump access faulted, so the pump has stopped for the region (R399) -/
  pumpOff : Bool
  /-- the access that faulted was a replay at the head -/
  pumpHead : Bool
  /-- selection waits for a line of the sump -/
  sumpWait : Bool
  /-- the region has ended, and its activations in slots end at their next boundary (R204) -/
  ending  : Bool
  deriving DecidableEq, Repr

/-- A barrier register (R219) and the sweep signals it has taken in the current phase (R220). -/
structure BarReg where
  bound : Bool
  arr   : Bool
  ph    : Bool
  err   : Bool
  rect  : BitVec 32
  west  : Bool
  north : Bool
  bad   : Bool
  deriving DecidableEq, Repr

/-- The registers and tables of a cell of the cluster that other cells, the home or the host can reach. -/
structure CellRegs where
  lsattr  : Word
  trapvec : Word
  round   : Word
  srseed  : Word
  nfenc   : Word
  mewgt   : Word
  handlers : Vector Handler 32
  regs    : Vector RegEntry 8
  bars    : Vector BarReg 4
  /-- channels whose former region the cell records as ended (R204, R209) -/
  ended   : BitVec 32
  /-- the cell is evicted, and the channels its entries held (R407) -/
  evicted : Bool
  evChans : BitVec 32
  /-- the root region of the evicted tree -/
  evRoot  : Word
  /-- accesses to the cell's slot and messages to it are answered with retry (R406) -/
  fenced  : Bool
  deriving DecidableEq, Repr

/-- What a reply-table entry stands for (R168). -/
inductive ReplyKind where
  | deposit | atomic | message | spawn | rcmd
  deriving DecidableEq, Repr

/-- A token's state (R189, R191). -/
inductive TokSt where
  | pending | dead
  deriving DecidableEq, Repr

/-- An entry of the token table that is not free (R189). -/
structure TokEnt where
  tok    : BitVec 24
  aid    : Nat
  reg    : Fin 8
  rcb    : Word
  chan   : BitVec 5
  slot   : Fin 4
  st     : TokSt
  pc     : Word
  target : Word
  place  : Word
  iw     : BitVec 32
  pfx    : BitVec 32
  dests  : List (BitVec 18 × Nat)
  deriving DecidableEq, Repr

/-- A message in the inbox or waiting in the mesh, with its sender and the token it asked for (R209, R210). -/
structure InMsg where
  who : Requester
  msg : Msg
  tok : BitVec 24
  deriving DecidableEq, Repr

/-- A store collected by a user handler (R177). -/
structure Collected where
  oa   : Word
  data : WData
  deriving DecidableEq, Repr

/-- The atomic request in progress and what its handler has collected (R176, R177). -/
structure AtomRun where
  req    : AtomReq
  /-- the memory key of the held line -/
  line   : Nat
  stores : List Collected
  issued : Nat
  deriving DecidableEq, Repr

/-- The state of an engine identifier (R382). -/
inductive IdSt where
  | free | busy | ended (code : Code)
  deriving DecidableEq, Repr

structure EngId where
  st   : IdSt
  reg  : Fin 8
  addr : Word
  deriving DecidableEq, Repr

/-- A stationary buffer (R358): the tile's bytes as read (decrypted for a weight line), one scale byte a column for nfs. -/
structure StatBuf where
  valid  : Bool
  ty     : Ty
  desc   : Option (BitVec 24)
  geo    : BitVec 4
  reg    : Fin 8
  ckey   : BitVec 6
  src    : Word
  bytes  : List Byte
  scales : List Byte
  /-- the code with which its reload after an eviction failed, else 0 (R378) -/
  bad    : Code
  /-- a line of it was decrypted, so its bytes are in no save area (R362) -/
  secret : Bool := false
  deriving DecidableEq, Repr

/-- The matrix engine's state for the cell (R358). -/
structure Matrix where
  bufs  : Vector StatBuf 2
  xfers : Vector Xfer 16
  /-- the inner-loop program of `mmp` and its constant (R373) -/
  prog  : List (BitVec 16)
  konst : BitVec 32
  queue : List MCmd
  next  : Nat
  deriving DecidableEq, Repr

/-- A pull command (R384 to R387): operands as captured at issue, and its progress. -/
structure PullCmd where
  num   : Nat
  lcell : BitVec 15
  id    : Fin 4
  reg   : Fin 8
  aid   : Nat
  desc  : List Word
  user  : Word
  gather : Bool
  acq   : Bool
  rel   : Bool
  recd  : Bool
  /-- requests and matrix commands numbered below these are the activation's earlier ones, for the acquire flag (R185) -/
  mark   : Nat
  mxMark : Nat
  started : Bool
  /-- rows written whole, and bytes of the current row already written -/
  row   : Nat
  off   : Nat
  /-- bytes that have been read and not yet written -/
  got   : List Byte
  /-- the number of the outstanding read of another cluster, or of the retry that is awaited -/
  wait  : Option Nat
  resend : Bool
  retries : Nat
  /-- the command has ended and its event waits for room in the queue (R105) -/
  fin   : Option (Code × Word)
  missAt : Word := 0
  /-- its cell's identifiers are saved with this root's tree (R386) -/
  away  : Option Word := none
  deriving DecidableEq, Repr

/-- What a collective command is doing (R390, R391). -/
inductive CollPhase where
  | queued | reduce | gather | treeUp | treeDown
  deriving DecidableEq, Repr

/-- A collective command (R388 to R394). -/
structure CollCmd where
  lcell : BitVec 15
  id    : Fin 4
  reg   : Fin 8
  aid   : Nat
  desc  : List Word
  members : List Word
  user  : Word
  acq   : Bool
  rel   : Bool
  mark   : Nat
  mxMark : Nat
  /-- rounding and generator copied at issue (R388, R392) -/
  rm    : Rnd
  nsc   : Bool
  seed  : BitVec 32
  phase : CollPhase
  /-- the control line and the working copy are to be written, with an advance after a restart -/
  fresh : Option Bool
  round : Nat
  lost  : BitVec 64
  /-- the step of the ring's phase, whether its slot is written, slots written in the round, and whether the successor has shown
  that the slot to be rewritten is taken -/
  step  : Nat
  sent  : Bool
  writes : Nat
  cleared : Bool
  /-- children whose partials have been folded, for the tree -/
  kids  : Nat
  /-- the rank whose control line is awaited, and the wire slot that has arrived -/
  awaiting : Option Nat
  /-- the value of its sequence word that is awaited -/
  want  : Word
  /-- the command has ended and its event waits for room in the queue (R105) -/
  fin   : Option (Code × Word)
  got   : Option (List Byte)
  /-- the snapshot of buf and the working copy, fp32 -/
  snap  : List (BitVec 32)
  work  : List (BitVec 32)
  /-- the last wire bytes received for each finished chunk, passed on unchanged (R392) -/
  wire  : List (Nat × List Byte)
  missAt : Word := 0
  away  : Option Word := none
  deriving DecidableEq, Repr

/-! ## The cluster -/

/-- Memory in canonical form: cells with addresses strictly rising and no zero byte listed, the tagged words, the lit lines and
the poisoned lines, each a strictly rising list of addresses, and for each DRAM line written under a data compartment the (key,
tweak) it was written under (R78, R79, R80, R439). -/
structure Memory where
  bytes  : List Host.Cell
  tags   : List Nat
  lit    : List Nat
  poison : List Nat
  enc    : List (Nat × Nat)
  deriving DecidableEq, Repr

/-- A mailbox command (R454, R458). -/
inductive MbCmd where
  | evict (rcb : Word) (rect : BitVec 32) (ptn : BitVec 24)
  | restore (rcb : Word) (rect : BitVec 32) (ptn : BitVec 24)
  | placeTable (target : MbTarget) (value : Word)
  | vfpair (n : Fin 16) (value : Word)
  | hcwin (n : Fin 16) (value : Word)
  | fabswitch (value : Word)
  | farPeer (peer : Nat) (word : Fin 8) (value : Word)
  | hostReg (target : MbTarget) (value : Word)
  | regRead (target : MbTarget)
  | create (world : BitVec 24) (ckey : BitVec 6) (kind : CompKind)
  | destroy (world : BitVec 24) (ckey : BitVec 6)
  | keyLoad (world : BitVec 24) (ckey : BitVec 6) (kem wrapped : List Byte)
  | gate (world : BitVec 24) (index : Fin 16) (entry : Word)
  | evidence (world : BitVec 24) (nonce : BitVec 256) (buf : Word) (len : Nat)
  | peers (values : List (BitVec 256))
  | handOver (image : List Byte) (rcb : OwnAt) (world : BitVec 24)
  | powerRun (die : BitVec 3) (pclu : BitVec 6) (freq : BitVec 12)
  | powerHold (die : BitVec 3) (pclu : BitVec 6) (freq : BitVec 12)
  | powerOff (die : BitVec 3) (pclu : BitVec 6) (freq : BitVec 12)
  | exportPage (ckey : CkeyAt) (vpn : BitVec 17) (host : Word)
  | importPage (ckey : CkeyAt) (vpn : BitVec 17) (image : List Byte) (frame : BitVec 16)
  | declareLost (ppkg : BitVec 18)
  | region (rcb : Word) (ptn : BitVec 24) (k : BitVec 4)
  /-- a command outside the layouts of R458 -/
  | bad (op : BitVec 8)
  /-- a command that a port's registers hold (R457) -/
  | via (port : Fin 2) (cmd : MbCmd)
  deriving DecidableEq, Repr

/-- Work that the cluster's hardware carries out by itself, one item a step. -/
inductive Todo where
  | loadAtPort (who : Requester) (oa : Word) (u : AccUnit) (kind : AccKind)
  | deposit (req : DepositReq)
  | atomicRequest (req : AtomReq)
  /-- the request at work at a cell's atomic slot goes on -/
  | atomicGo (cell : Fin 64) (req : AtomReq)
  | storePerform (oa : Word) (data : WData)
  | storeAccept (who : Requester) (oa : Word) (data : WData)
  | shootdownAck (slot : SlotId)
  | message (m : InMsg)
  | lampWalk
  /-- the walker waits on a TLB miss; a refusal fails the walk at this address -/
  | walkMiss (addr : Word)
  | watchPlace (req : WatchReq)
  | positive (rid : Nat)
  /-- a refusal, with the own-space address concerned where an access was refused (R343) -/
  | negative (rid : Nat) (code : Code) (oa : Option Word)
  | atomReply (rid : Nat) (e : QEntry)
  /-- a region command at the home, with the lines of other clusters that it has read -/
  | regionCmd (who : Requester) (rcb : Word) (k : BitVec 4) (tok : BitVec 24) (reason : BitVec 8) (have_ : List (Word × List Byte))
  | install (record : InstallRec) (who : Requester)
  /-- the last writes of a launch (R201) -/
  | launchEnd (rcb : Word)
  | evict (rcb : Word) (rect : BitVec 32) (restore : Bool) (have_ : List (Word × List Byte))
  | creditBack (rcb : Word)
  /-- the next mailbox command in arrival order (R455) -/
  | mbNext
  | pullStart
  | collStart
  | matrix (num : Nat)
  | pumpReplay
  | selection (slot : Fin 4)
  /-- the frame of a parked activation that selection has chosen is there (R66) -/
  | resume (frame : Word)
  | wake (slot : SlotId)
  | wakeFrame (slot : SlotId)
  | report (rcb : Word) (starts ends cycles : Nat)
  | collStep
  | matrixTile (num : Nat)
  | pullAccess (num : Nat)
  | grant (reg : Fin 8) (what : GrantKind) (amount : Nat)
  | ask (rcb : Word) (who : Requester) (what : GrantKind) (have_ : List (Word × List Byte))
  /-- work whose next access stands at a port of the own cluster, at this own-space address, and waits (R83, R100, R433) -/
  | port (oa : Nat) (t : Todo)
  /-- a deposit or an atomic request of the modelled cell for its own cluster, behind the accesses that an ordering point keeps ahead
  (R61) -/
  | ordered (t : Todo)
  /-- the pump tries a stopped region again (R399) -/
  | pumpAgain (r : Fin 8)
  /-- a frame whose scrub has begun (R71) -/
  | scrub (frame : Nat)
  /-- work that waits on a page and, where the answer gives no page, is refused with this code (R147, R198, R405) -/
  | refuseAs (code : Code) (t : Todo)
  /-- an access that keeps the translation from before a shootdown; the rest of the work of its step is taken as queued with it
  (R67, R75; DESIGN CHOICE, log 101) -/
  | under (x : OldXlat) (t : Todo)
  /-- the acknowledgement of a `tlbi` of another cell (R68) -/
  | tlbiAck (m : BitVec 2) (arg : Word)
  /-- pending watches are asked again: a remap counts as a store (R69) -/
  | poll
  | endAtCell (rcb : Word)
  /-- the last step of a region's end, once its cells have cleared it (R204) -/
  | endDone (rcb : Word)
  | pauseAtCell (rcb : Word)
  | landing (token : BitVec 24)
  | quiesced
  /-- a `pready` notice waits at the home (R66, R406) -/
  | pready (frame rcb : Word) (fail : Bool) (n : BitVec 8) (issuer : Nat)
  /-- a release notice waits for a free release record (R193) -/
  | release (tok : BitVec 24) (count : RelCount)
  /-- a watch answer and a token's expiry for an evicted cell (R406, R410) -/
  | watchAns (rid : Nat) (ans : WatchAns)
  /-- the fabric refuses a read of another package (R427) -/
  | refusedLoad (rid : Nat) (code : Code)
  /-- barrier signals and releases for an evicted cell (R219) -/
  | barSignal (b : Fin 4) (rect : BitVec 32) (sig : BarSig) (err : Bool)
  | barRelease (b : Fin 4) (rect : BitVec 32) (err : Bool)
  /-- host requests for a window line are served again (R433) -/
  | hostServe (line : Nat)
  | expiry (token : BitVec 24)
  | serveDone
  | fillDone
  /-- a page of a save block that a save was writing has gone -/
  | saveFails
  deriving DecidableEq, Repr

/-! ## What leaves the model -/

/-- What a message that has left the modelled part is. -/
inductive OutKind where
  | loadReq | loadReply | loadRefusal | depositReq | atomicReq | atomicReply | posReply | negReply
  | message | notice | walkEnd | watchReq | watchAns | landing | release | cancel | missMsg | shootdown
  | grantReq | grant | report | regionCmd | regionTell | install | barSignal | barRelease | barCheck | barAns
  | rowSignal | hostAnswer | hostData | hostError | snoop | flit | session | spill | yieldMsg
  | pageCheck | invalidate | expiry | retry | evidence | msix | pready | mbForward | cfgRead | hostRead | teardown
  deriving DecidableEq, Repr

/-- The physical place of a message, as the place tables translate it when it leaves (R30): the own package's die and cluster, or
another package, over a far link or not. -/
structure Route where
  away : Bool
  far  : Bool
  ppkg : BitVec 18
  die  : BitVec 3
  pclu : BitVec 6
  deriving DecidableEq, Repr

/-- What the fabric does with a message that is handed to it (R427, R428): it goes, it waits for a far session, or no valid peer entry reaches
its package. -/
inductive LinkFate where
  | gone | waits | refused
  deriving DecidableEq, Repr

/-- The physical package where it is reached over a far link (R35). -/
def Route.farTo (r : Route) : Option (BitVec 18) := if r.away && r.far then some r.ppkg else none

/-- A message that has left: its kind, the place and address it goes to, the number its answer will carry, channel, token, code
and words. -/
structure OutMsg where
  kind  : OutKind
  place : Word
  addr  : Word
  rid   : Nat
  chan  : BitVec 5
  /-- the token asked for, and the token on which the message is held -/
  tok   : BitVec 24
  held  : BitVec 24
  code  : Code
  words : List TWord
  /-- the sender's partition (R108), and where the place tables send it (R30) -/
  ptn   : BitVec 24 := 0
  /-- the sender's compartment (R436) -/
  cmpt  : BitVec 6 := 0
  /-- the sender of a notice (R207) -/
  src   : BitVec 15 := 0x7FFF#15
  route : Route := { away := false, far := false, ppkg := 0, die := 0, pclu := 0 }
  fate  : LinkFate := .gone
  deriving DecidableEq, Repr

/-- An entry of the reply table (R168, R169, R189). -/
structure ReplyEnt where
  rid    : Nat
  kind   : ReplyKind
  aid    : Nat
  reg    : Fin 8
  /-- the RCB of the issuing activation's region -/
  rcb    : Word
  chan   : BitVec 5
  slot   : Fin 4
  pc     : Word
  target : Word
  place  : Word
  tok    : BitVec 24
  /-- the token the message asked for, if it is an origin message -/
  asked  : BitVec 24
  iw     : BitVec 32
  pfx    : BitVec 32
  words  : List TWord
  /-- retry answers so far (R400) -/
  retries : Nat
  /-- a retry answer has come and the request has not been sent again -/
  waiting : Bool
  /-- the request as this cluster's hardware or the fabric took it, to be sent again -/
  todo   : Option Todo
  sent   : Option OutMsg
  deriving DecidableEq, Repr

/-- A message in a yield buffer (R340), with the activation that left it. -/
structure YieldMsg where
  msg : Msg
  aid : Nat
  reg : Fin 8
  pc  : Word
  iw  : BitVec 32
  deriving DecidableEq, Repr

/-- An entry of the miss table (R59): number, page (own-space address bits [32:16]), and what waits, in order. -/
structure MissEnt where
  mid     : Nat
  page    : BitVec 17
  p1      : Word
  oa      : Word
  waiters : List Todo
  deriving DecidableEq, Repr

/-- An entry of the cluster event queue (R103). -/
structure EvEnt where
  w0 : Word
  w1 : Word
  w2 : Word
  w3 : Word
  deriving DecidableEq, Repr

/-- A line of the reflection cache (R87): owner place and own-space line address, bytes, tags, stamp, floor index, and the
descriptor and geometry that arrived with its fill (R117). -/
structure ReflLine where
  place : Word
  line  : Word
  bytes : List Byte
  tags  : BitVec 16
  stamp : Word
  desc  : Option (BitVec 24)
  geo   : BitVec 4
  scale : BitVec 8
  /-- the fill was an nfs load, so the line's geometry and scale came with it -/
  scaled : Bool
  deriving DecidableEq, Repr

/-- An entry of the floor table that is not free (R89), with its index. -/
structure FloorEnt where
  idx   : BitVec 8
  place : Word
  floor : Word
  deriving DecidableEq, Repr

/-- A fill of the reflection cache in flight (R91): the load's number, the place and line, and the change count recorded. -/
structure Fill where
  rid   : Nat
  place : Word
  line  : Word
  count : BitVec 48
  deriving DecidableEq, Repr

/-- A load that has joined a fill in flight (R91): the fill's number, the slot, and the access. -/
structure LoadJoin where
  rid  : Nat
  slot : Fin 5
  oa   : Nat
  ty   : Ty
  unit : AccUnit
  q    : QUnit
  deriving DecidableEq, Repr

/-- A pending shade (R162): object line and sequence word. -/
structure Shade where
  obj  : Word
  word : Word
  deriving DecidableEq, Repr

/-- The walk in progress (R152 to R154, R162): its entry, the shades of its start point not yet applied, the runs of lines whose lit
bits are being cleared, the root while it has not been reached, the recorded objects as line address and length, the number of the one
that is scanned, the next word of the scan with the number of words left, the failure that is being undone, whether a TLB miss is
awaited, and the retry answers so far. -/
structure WalkRun where
  ent    : WalkEnt
  shades : List Shade
  dark   : List (Nat × Nat)
  root   : Option Word
  recs   : List (Nat × Nat)
  next   : Nat
  scan   : Option (Nat × Nat)
  /-- the lines of the object last recorded that are still to be lit: the next one, and how many (R153) -/
  toLight : Option (Nat × Nat) := none
  bad    : Option (Code × Word)
  waits  : Bool
  retries : Nat
  deriving DecidableEq, Repr

/-- A host request that waits for snoop responses (R433): who, which half, and whether it asks for ownership. -/
structure HostWait where
  agent : HostAgent
  half  : Bool
  own   : Bool
  /-- a host write that waits: the machine byte it begins at, and its bytes -/
  write : Option (Nat × List Byte) := none
  deriving DecidableEq, Repr

/-- A snoop that is out (R433): the agent, the half, and whether it invalidates. -/
structure Snoop where
  agent : BitVec 8
  half  : Bool
  inv   : Bool
  deriving DecidableEq, Repr

/-- A directory entry of a host-coherent line (R433). -/
structure DirEnt where
  line   : Nat
  h0     : HalfState
  h1     : HalfState
  /-- exact pointers: agent number and half mask -/
  ptrs   : List (BitVec 8 × BitVec 2)
  coarse : Option (BitVec 32)
  /-- snoops whose responses are awaited, and host requests that wait meanwhile -/
  waits  : List Snoop
  reqs   : List HostWait
  /-- the line's window has been disabled: the virtual function and the offset that the line had in its range (R431) -/
  closed : Option (BitVec 9 × Nat) := none
  deriving DecidableEq, Repr

/-- A held message's place in the hold queue (R193). -/
structure HoldEnt where
  held : HeldMsg
  deriving DecidableEq, Repr

/-- A release record (R193). -/
structure RelEnt where
  tok   : BitVec 24
  count : Nat
  /-- the partition that holds it (R192) -/
  ptn   : BitVec 24 := 0
  deriving DecidableEq, Repr

/-- A launch whose handler records other homes have not yet answered (R201): the numbers of those messages, the RCB and its chain,
who asked, and a refusal. -/
structure Launch where
  waits  : List Nat
  rcb    : Word
  who    : Requester
  tok    : BitVec 24
  failed : Bool
  /-- the initial messages: destination cell and message -/
  msgs   : List Msg
  parent : Word
  user   : Word
  places : List Word
  deriving DecidableEq, Repr

/-- The end of a region in progress (R204): its RCB, what the event and the reply name, and who asked, if the command is answered. -/
structure EndRun where
  rcb    : Word
  parent : Word
  user   : Word
  who    : Option Requester
  tok    : BitVec 24
  deriving DecidableEq, Repr

/-- A line of another cluster that the home is reading, and what goes on with it. -/
structure HomeRead where
  rid  : Nat
  addr : Word
  todo : Todo
  deriving DecidableEq, Repr

/-- An eviction in progress (R406): the tree's root, the rectangle, the base of the save area, and the cells of this cluster. -/
structure EvictRun where
  rcb   : Word
  rect  : BitVec 32
  base  : Word
  cells : List (Fin 64)
  deriving DecidableEq, Repr

/-- The cluster's registers and structures. -/
structure Cluster where
  /-- the physical die and cluster (R33) -/
  die     : BitVec 3
  pclu    : BitVec 6
  place   : Word
  ptn     : BitVec 24
  cmpt    : BitVec 6
  pubctr  : Word
  aktime  : Word
  walkbuf : Word
  holdq   : BitVec 13
  fill    : Bool
  busy    : Bool
  cisIssuer : BitVec 15
  cisattr : Word
  /-- regions with an activation in a slot of another cell of the cluster, which is outside the modelled part -/
  others  : List Word
  /-- the other cells of the cluster with atomic requests queued or running, and with matrix commands outstanding, one entry for each
  (R38, R96, R116) -/
  atomElse : List (Fin 64)
  /-- control lines held by ring operations whose element access waits (R180) -/
  lineHolds : List (AtomReq × Nat)
  engElse : List (Fin 64)
  /-- the RCBs held here whose region is running (R38), launches in progress, and the home's reads of other clusters -/
  running : List Word
  launches : List Launch
  /-- regions whose end is in progress (R204), and the regions launched here that have not ended, with the compartment of their launch
  (R413) -/
  ends    : List EndRun := []
  launched : List (Word × BitVec 6) := []
  reads   : List HomeRead
  /-- accesses of units that wait for a snoop response or for the end of a refresh window -/
  held    : List Todo
  evicting : Option EvictRun
  /-- the cells of other clusters that this home has told to be evicted: root, logical cluster, and cells (R410) -/
  evElse  : List (Word × Nat × List (Fin 64)) := []
  collbw  : Word
  clucfg  : Word
  depwin  : Vector Word 4
  fmt     : Vector Word 16
  vfpair  : Vector Word 16
  tlbctl  : Bool
  pkgbase : Word
  pkgbound : Word
  epoch   : BitVec 16
  tlb     : List TlbEnt
  miss    : List MissEnt
  /-- accesses that found the miss table full (R59) -/
  missOver : List (Word × Word × Todo)
  /-- frames that are clean (R70); every other frame of the slice is scrub-pending -/
  clean   : List Nat
  mapHead : Word
  map     : Vector Word 512
  cellMap : Vector (BitVec 8) 64
  evHead  : BitVec 9
  evTail  : BitVec 9
  evSeq   : BitVec 16
  evRing  : Vector EvEnt 256
  evWait  : List EvEnt
  refl    : List ReflLine
  floor   : List FloorEnt
  /-- change counts by floor index (R89): what `acq` added to every one, and the rest by index -/
  acqCount : BitVec 48
  changes : List (BitVec 8 × BitVec 48)
  fills   : List Fill
  walkQ   : List WalkEnt
  walk    : Option WalkRun
  shades  : List Shade
  watches : List WatchReq
  /-- watches that were checked before a change of the gates, with the gates as they were then (R443) -/
  watchGates : List (WatchReq × Vector Word 16) := []
  /-- frames that pairs have released, by base and size, with the partition that released them, latest first (R71) -/
  freed   : List (BitVec 24 × Nat × Nat) := []
  /-- zeroed frames that are clean once the reflection caches of a partition have answered, by the number of the message (R71) -/
  scrubs  : List (Nat × Nat) := []
  gates   : Vector Word 16
  pullQ   : List PullCmd
  collQ   : List CollCmd
  /-- commands held because they touch the slot of an evicted cell, in queue order (R386, R394) -/
  pullHeld : List PullCmd := []
  collHeld : List CollCmd := []
  nextPull : Nat
  hcwin   : Vector Word 16
  dir     : List DirEnt
  hold    : List HoldEnt
  rels    : List RelEnt
  power   : PowerState
  freq    : BitVec 12
  /-- issue is stopped for a change of frequency (R462) -/
  clockStop : Bool
  /-- the cluster has left reset (R460) -/
  released : Bool
  /-- the value that keys the cluster's seals, or `none` where none could be drawn (R446) -/
  sealKey : Option Nat
  deriving DecidableEq, Repr

/-! ## What an eviction saves (R378, R408) -/

/-- The context of the modelled cell as its save block holds it. -/
structure OwnSave where
  act    : Act
  slots  : Vector Act 5
  cur    : Fin 5
  lastSel : Vector (Fin 32) 8
  replies : List ReplyEnt
  toks   : List TokEnt
  tokSeq : BitVec 9
  parked : List Parked
  inbox  : List InMsg
  yieldBuf : Vector (Option YieldMsg) 4
  pumpNext : Fin 8
  pulls  : Vector EngId 4
  colls  : Vector EngId 4
  mx     : Matrix
  deriving DecidableEq, Repr

/-- A cell's save (R408): the number that its formatted bytes stand for, the registers and tables of the cell, and for the modelled
cell its own context. -/
structure SavedCell where
  cell   : Fin 64
  root   : Word
  base   : Word
  digest : Nat
  regs   : CellRegs
  /-- matrix commands that another cell of the cluster had outstanding (R38) -/
  engs   : Nat
  own    : Option OwnSave
  deriving DecidableEq, Repr

/-! ## The package -/

/-- A compartment of a world (R437, R444). -/
structure Compartment where
  world  : BitVec 24
  ckey   : BitVec 6
  kind   : CompKind
  keyId  : Nat
  /-- the XTS pair is in the key store -/
  xts    : Bool
  /-- the keys have been withdrawn (R413) -/
  torn   : Bool
  /-- the XTS pair that a key load has unwrapped (R445) -/
  pair   : Nat := 0
  deriving DecidableEq, Repr

/-- The version entry of a protected page (R411), and what the exported ciphertext stands for, at keys from 0. -/
structure PageVer where
  world : BitVec 24
  ckey  : BitVec 6
  vpn   : BitVec 17
  ver   : BitVec 48
  out   : Bool
  page  : Memory
  deriving DecidableEq, Repr

/-- An entry of the host event ring (R459). -/
structure HostEv where
  w0 : Word
  w1 : Word
  w2 : Word
  deriving DecidableEq, Repr

/-- The mailbox registers of one host port (R457). -/
structure Mailbox where
  cmd    : List Word
  door   : Bool
  ans    : List Word
  evHead : BitVec 7
  evTail : BitVec 7
  ring   : Vector HostEv 64
  waiting : List HostEv
  deriving DecidableEq, Repr

/-- A command that another cluster carries out (R458): its number and op, and what is measured and recorded once it is accepted
(R449, R463). -/
structure MbFwd where
  rid   : Nat
  op    : BitVec 8
  items : List (Fin 8 × List Byte)
  note  : Option (MbTarget × Word)
  deriving DecidableEq, Repr

/-- The state of a far session (R428). -/
inductive SessSt where
  | down | opening | up | rekeying | failed
  deriving DecidableEq, Repr

/-- The keys and salts of a session, one of each for each direction (R451). -/
structure SessKeys where
  sendKey  : BitVec 256
  recvKey  : BitVec 256
  sendSalt : BitVec 32
  recvSalt : BitVec 32
  deriving DecidableEq, Repr

/-- A frame that is not acknowledged yet (R429): its counter, how often its flits have been resent, and the flits. -/
structure FarSent where
  counter : Nat
  resends : Nat
  flits   : List Flit
  deriving DecidableEq, Repr

/-- A far session (R428): peer entry, state, failure code, discarded frames, counters sent and seen, keys, and the frames not yet
acknowledged. -/
structure FarSess where
  peer  : Nat
  st    : SessSt
  fcode : Code
  drop  : Nat
  sent  : Nat
  top   : Nat
  seen  : List Nat
  keys  : SessKeys
  /-- the keys from before a rekey, while both are accepted (R428) -/
  old   : Option SessKeys
  /-- what the peer has sent to open the session, its session identifier among it -/
  hello : Option PeerHello
  unacked : List FarSent
  deriving DecidableEq, Repr

/-- A message that waits for a far session, in its class, with the peer entry and what takes its refusal (R427, R428). -/
structure FarWait where
  peer : Nat
  cls  : BitVec 2
  msg  : OutMsg
  no   : Option Todo
  deriving DecidableEq, Repr

/-- A stream from another package (R420): the next sequence number, the flits that wait for an earlier one, the numbers that the source
has passed, with whether the flit ended its message, and the bytes of the message in progress, which is dropped where it is broken. -/
structure Stream where
  src  : BitVec 18
  cls  : BitVec 2
  next : BitVec 20
  held : List Flit
  gone : List (BitVec 20 × Bool) := []
  part : List Byte := []
  broken : Bool := false
  deriving DecidableEq, Repr

/-- A flit of this package that is not yet acknowledged (R418, R420): queued, or with the intermediate against which it is counted; `no`
takes the refusal of its message where that is lost. -/
structure TxFlit where
  flit : Flit
  via  : Option (BitVec 18)
  no   : Option Todo
  deriving DecidableEq, Repr

/-- What a multicast copy says (R424, R425): a package is lost, or the schedule switches at a slot count. -/
inductive McNote where
  | lost (p : BitVec 18)
  | switch (slot : Nat)
  deriving DecidableEq, Repr

/-- A multicast copy with its pending branches (R424). -/
structure McCopy where
  group   : BitVec 6
  seq     : BitVec 20
  note    : McNote
  pending : List (BitVec 18)
  deriving DecidableEq, Repr

/-- The phase of the reset sequence (R460). -/
inductive BootPhase where
  | held | booted | open
  deriving DecidableEq, Repr

/-- The host, fabric and security blocks of the package. -/
structure Package where
  /-- the machine is a bare Kilros die (R1, R456): its management port stands in place of port 0, and it has no other host port, no
  window, no optical port and no far link (DESIGN CHOICE at reset, log 99) -/
  bare   : Bool
  /-- the physical package identity (R35) -/
  ppkg   : BitVec 18
  boot   : BootPhase
  mail   : Vector Mailbox 2
  /-- a mailbox command is carried out and not yet answered, the port to answer, and the command that another cluster has (R455) -/
  mbBusy : Bool := false
  mbCur  : Fin 2 := 0
  mbFwd  : Option MbFwd := none
  hostSeq : BitVec 16
  slots  : Vector (BitVec 256) 8
  comps  : List Compartment
  gateTab : List (BitVec 24 × Fin 16 × Word)
  versions : List PageVer
  allow  : List (BitVec 256)
  /-- partition and share of the hold queue as the host has written them at the package's other clusters (R192) -/
  shares : List (BitVec 9 × BitVec 24 × BitVec 13)
  /-- the compartments that the host has written for the package's other clusters (R436, R444) -/
  cmpts  : List (BitVec 9 × BitVec 6)
  /-- the security cores are held in reset after a mismatch, and the key store is empty (R447) -/
  secHeld : Bool
  /-- fabric registers that differ from their reset values, by byte offset in the block (R414) -/
  fab    : List (Nat × Word)
  /-- the slot at which a pending bank switch takes place, and the one at which the active bank began (R416) -/
  switchAt : Option Nat
  bankStart : Nat
  /-- flits held for other packages, in arrival order (R419) -/
  relay  : List Flit
  /-- those of them that stand in the spill area, with their places of 256 bytes (R419) -/
  spill  : List (Nat × Flit) := []
  streams : List Stream
  /-- own flits that are not yet acknowledged, in order, and the next sequence number of each own stream (R418, R420) -/
  tx     : List TxFlit
  txNext : List (BitVec 18 × BitVec 2 × BitVec 20)
  copies : List McCopy
  /-- multicast copies passed, by group and sequence (R424), and the sequence of the next own one -/
  mcSeen : List (BitVec 6 × BitVec 20)
  mcSeq  : BitVec 20
  /-- the peers that were scheduled and absent in the cycle, with the port, and those that were seen (R425) -/
  absent : List (Fin 32 × BitVec 18)
  met    : List (BitVec 18)
  /-- slots that each port has been idle for a mismatch in the window of its lanes, at most 255 (R417, R423) -/
  mism   : Vector (BitVec 8) 32
  /-- lanes that the next slot boundary disables (R423) -/
  laneOff : List (Fin 32 × Fin 8)
  /-- flits that each port has had in the window of its lanes, those it has resent, and the bursts corrected by first lane (R423) -/
  laneFlits : Vector Nat 32 := Vector.replicate 32 0
  laneRepl : Vector Nat 32 := Vector.replicate 32 0
  laneCorr : Vector Nat 256 := Vector.replicate 256 0
  /-- flits that each port has received in the slot (R422) -/
  rxPos  : Vector Nat 32 := Vector.replicate 32 0
  sess   : List FarSess
  /-- the frames that have left on far ports, the newest first (R426) -/
  frames : List FarFrame := []
  farWait : List FarWait
  hcerr  : Word
  /-- the port has trained as CXL 3.1 and so serves windows (R430) -/
  cxl    : Vector Bool 2
  /-- draws from the noise source so far -/
  draws  : Nat
  deriving DecidableEq, Repr

/-- The state of the modelled machine. -/
structure State where
  /-- logical index of the modelled cell in its cluster (R31) -/
  self   : Fin 64
  /-- the slot that is being served, and its context; `slots` holds the others (index 4 is the atomic slot) -/
  cur    : Fin 5
  act    : Act
  slots  : Vector Act 5
  /-- what has issued behind the oldest incomplete instruction of each slot (R285) -/
  ahead  : Vector (Option RunAhead) 5 := Vector.replicate 5 none
  lastSlot : Fin 4
  /-- per cell of the cluster, those registers and tables that others can reach (the modelled cell's is at `self`) -/
  cells  : Vector CellRegs 64
  /-- the physical cell whose registers stand at each index of `cells` (R34) -/
  phys   : Vector (Fin 64) 64
  lastSel : Vector (Fin 32) 8
  replies : List ReplyEnt
  toks   : List TokEnt
  tokSeq : BitVec 9
  parked : List Parked
  inbox  : List InMsg
  mesh   : List InMsg
  yieldBuf : Vector (Option YieldMsg) 4
  pumpNext : Fin 8
  /-- the pump replays until the inbox holds 28 messages (R211) -/
  pumping : Bool
  /-- the pump slot has an instruction ready, perhaps for a stopped region that tries again, and the turns for which it has waited
  (R218, R399) -/
  pumpWant : Bool := false
  pumpRetry : Option (Fin 8) := none
  pumpWait : Nat := 0
  /-- pages on which the cell's accesses waited at its last ordering points (R61) -/
  orderPages : List (BitVec 17)
  /-- acquiring watches placed at other clusters and not yet answered: number and owner place (R316) -/
  acquiring : List (Nat × Word)
  atomQ  : List AtomReq
  atomRun : Option AtomRun
  /-- requests at work at the atomic slots of the cluster that have to wait, each slot's next ones behind it (R175, R176) -/
  atomNow : List (Fin 64 × AtomReq)
  /-- atomic requests that were queued ahead of a shootdown, and what they keep (R67, R68) -/
  atomOld : List (AtomReq × OldXlat) := []
  /-- the line whose access is being tried again by the slot in service (R83) -/
  trying  : Option Nat := none
  pulls  : Vector EngId 4
  colls  : Vector EngId 4
  mx     : Matrix
  /-- loads of the modelled cell that have joined a fill (R91) -/
  joins  : List LoadJoin
  nextRid : Nat
  nextAid : Nat
  mem    : Memory
  cl     : Cluster
  pkg    : Package
  /-- work of the cluster's hardware, oldest first -/
  agenda : List Todo
  /-- what the outside does, in order; `none` lets the cell issue one instruction -/
  world  : List (Option Instr)
  /-- mailbox commands that wait for the mailbox to open, or for the ones before them (R455, R460) -/
  mbHeld : List MbCmd
  /-- what the save blocks in memory stand for (R408) -/
  saved  : List SavedCell
  /-- what has left, newest first -/
  out    : List OutMsg
  /-- the model's own counter of free values drawn -/
  free   : Nat
  deriving DecidableEq, Repr

/-! ## How a step can stop -/

/-- Why the machine stops with a fault. The specification turns every fault into a trap that the machine takes and goes on from,
so no step of this model raises one. -/
inductive Fault where
  /-- raised by no definition: a step whose state holds no machine to go on with; safe -/
  | noMachine
  deriving DecidableEq, Repr

/-- Why a step has no meaning. -/
inductive Refusal where
  /-- an arm of `exec` whose instruction has no meaning yet, by its mnemonic; safe -/
  | notModelled (mnemonic : String)
  deriving DecidableEq, Repr

/-- The outcome of a step of this machine. -/
abbrev Out := Host.Outcome State Fault Refusal

/-! ## Reset -/

def Ptr.zero : Ptr := { val := 0, step := 0, tag := false }
def Flags.zero : Flags := { z := false, n := false, c := false, o := false, x := false }
def LoopState.zero : LoopState := { count := 0, start := 0, stop := 0 }
def WatchReg.none : WatchReg :=
  { st := .empty, acq := false, code := 0, val := 0, rid := 0, addr := 0, thresh := 0 }

/-- A slot that holds no activation; everything an activation starts with is zero or empty (R213). -/
def Act.idle : Act :=
  { live := false, aid := 0, chan := 0, reg := 0, prio := 0, spw := false, tm := false, pc := 0,
    p := Vector.replicate 8 Ptr.zero, a := 0, v := Vector.replicate 32 0, vtag := 0, k := 0, f := Flags.zero,
    loop := LoopState.zero, toks := Vector.replicate 4 0, ldq := [], stq := [], xq := [], exq := [],
    watch := Vector.replicate 4 WatchReg.none, pfx := none, ibuf := [], phase := .none, blocked := false, stalled := false, atPort := none, deferred := [], reportFirst := false,
    drain := false, iw := 0, cycles := 0, first := none, trapping := none }

def Handler.reset : Handler :=
  { v := false, mask := false, pri := 0, reg := 0, len := 0, lim := 0, entry := 0, sc := Vector.replicate 4 0 }

/-- The region fields of an entry that is not valid: the defaults of a root region (R197). -/
def RegInfo.none : RegInfo :=
  { rcb := 0, pri := 0, ctlc := 62, trapc := 1, trot := 20, tfar := 5000, nfr := 0, save := 0, sump := 0, slines := 0,
    evsave := 0, rect := 0, payA := 0, payC := 0, payS := 0, chain := [] }

def RegEntry.reset : RegEntry :=
  { v := false, info := RegInfo.none, paused := false, acts := 0, cycles := 0, credit := 0, askedA := false, askedC := false,
    askedS := false, sumpHead := 0, sumpTail := 0, sumpChans := [], pumpOff := false, pumpHead := false, sumpWait := false,
    ending := false }

def BarReg.reset : BarReg :=
  { bound := false, arr := false, ph := false, err := false, rect := 0, west := false, north := false, bad := false }

/-- A cell's registers at reset (R20, R125, R127, R222, R301, R345). -/
def CellRegs.reset : CellRegs :=
  { lsattr := 0x0000C0000000C000#64, trapvec := 0, round := 0, srseed := 1, nfenc := 0x7F00#64, mewgt := 1,
    handlers := Vector.replicate 32 Handler.reset, regs := Vector.replicate 8 RegEntry.reset,
    bars := Vector.replicate 4 BarReg.reset, ended := 0, evicted := false, evChans := 0, evRoot := 0, fenced := false }

def EngId.reset : EngId := { st := .free, reg := 0, addr := 0 }
def StatBuf.reset : StatBuf :=
  { valid := false, ty := .i8, desc := none, geo := 0, reg := 0, ckey := 0, src := 0, bytes := [], scales := [], bad := 0 }
def Xfer.reset : Xfer := { st := .free, reg := 0, aid := 0, m := 0, rows := [], older := 0 }

/-- The engine's state at reset: its program is t0 := add(s, c) with c = +0 (R373). -/
def Matrix.reset : Matrix :=
  { bufs := Vector.replicate 2 StatBuf.reset, xfers := Vector.replicate 16 Xfer.reset, prog := [0x0030#16], konst := 0,
    queue := [], next := 0 }

/-- Memory with nothing listed: every byte reads zero, untagged, shadowed, not poisoned (R80). -/
def Memory.reset : Memory := { bytes := [], tags := [], lit := [], poison := [], enc := [] }

def EvEnt.zero : EvEnt := { w0 := 0, w1 := 0, w2 := 0, w3 := 0 }
def HostEv.zero : HostEv := { w0 := 0, w1 := 0, w2 := 0 }

/-- The cluster's registers at reset, each at the value its own rule gives. -/
def Cluster.reset : Cluster :=
  { die := 0, pclu := 0, place := 0x8000000000000000#64, ptn := 0, cmpt := 0, pubctr := 0, aktime := 0, walkbuf := 0, holdq := 0, fill := false,
    busy := false, cisIssuer := 0, cisattr := 0, others := [], atomElse := [], lineHolds := [], engElse := [], running := [], launches := [], reads := [], held := [], evicting := none, collbw := 0x11#64, clucfg := 7#64,
    depwin := Vector.replicate 4 0, fmt := Vector.replicate 16 0, vfpair := Vector.replicate 16 0, tlbctl := false,
    pkgbase := 0, pkgbound := 0, epoch := 0, tlb := [], miss := [], missOver := [], clean := [], mapHead := 0,
    map := Vector.replicate 512 0, cellMap := Vector.ofFn fun i : Fin 64 => BitVec.ofNat 8 (128 + i.val),
    evHead := 0, evTail := 0, evSeq := 0, evRing := Vector.replicate 256 EvEnt.zero, evWait := [], refl := [], floor := [],
    acqCount := 0, changes := [], fills := [], walkQ := [], walk := none, shades := [], watches := [], gates := Vector.replicate 16 0,
    pullQ := [], collQ := [], nextPull := 0, hcwin := Vector.replicate 16 0, dir := [], hold := [], rels := [],
    power := .run, freq := 1200, clockStop := false, released := false, sealKey := none }

def Mailbox.reset : Mailbox :=
  { cmd := List.replicate 16 0, door := false, ans := List.replicate 16 0, evHead := 0, evTail := 0,
    ring := Vector.replicate 64 HostEv.zero, waiting := [] }

/-- The package's blocks at reset: the reset controller holds everything until the sequence of R460 runs. -/
def Package.reset : Package :=
  { bare := false, ppkg := 0, boot := .held, mail := Vector.replicate 2 Mailbox.reset, hostSeq := 0, slots := Vector.replicate 8 0, comps := [],
    gateTab := [], versions := [], allow := [], shares := [], cmpts := [], secHeld := false, fab := [], switchAt := none, bankStart := 0,
    relay := [], streams := [], tx := [], txNext := [], copies := [], mcSeen := [], mcSeq := 0, absent := [], met := [], mism := Vector.replicate 32 0, laneOff := [], sess := [],
    farWait := [], hcerr := 0,
    cxl := Vector.replicate 2 false, draws := 0 }

/-- The machine right after reset: no slot holds an activation, memory lists nothing, every register is at its reset value. -/
def State.reset : State :=
  { self := 0, cur := 0, act := Act.idle, slots := Vector.replicate 5 Act.idle, lastSlot := 3,
    cells := Vector.replicate 64 CellRegs.reset, phys := Vector.ofFn id, lastSel := Vector.replicate 8 31, replies := [], toks := [], tokSeq := 0,
    parked := [], inbox := [], mesh := [], yieldBuf := Vector.replicate 4 none, pumpNext := 0, pumping := false, orderPages := [], acquiring := [], atomQ := [], atomRun := none, atomNow := [],
    pulls := Vector.replicate 4 EngId.reset, colls := Vector.replicate 4 EngId.reset, mx := Matrix.reset, joins := [], nextRid := 0,
    nextAid := 0, mem := Memory.reset, cl := Cluster.reset, pkg := Package.reset, agenda := [], world := [], mbHeld := [], saved := [],
    out := [], free := 0 }

end Sys2Proof.Machine
end

