-- ==== Sys2Proof/Machine/Flags.lean ====
section
/-!
DEFINITION. The flag computations of R294, each a function of the operands and the result, and reading and writing A at a width
(R291).
-/
namespace Sys2Proof.Machine

/-- The width of a type in bits (R111, R112); NF operands compute as binary32, a ref is a word. -/
def tyBits : Ty → Nat
  | .i8 | .u8 => 8
  | .i16 | .u16 | .fp16 | .bf16 => 16
  | .i32 | .u32 | .fp32 | .nf | .nfs => 32
  | .i64 | .u64 | .fp64 | .ref => 64

/-- The integer that the low bits of a word hold, by the type's width and signedness (R111). -/
def readInt (ty : Ty) (x : Word) : Int :=
  let u := x.toNat % 2 ^ (tyBits ty)
  if ty.isSigned && decide (2 ^ (tyBits ty - 1) ≤ u) then (u : Int) - 2 ^ (tyBits ty) else u

/-- The low bits of a word at the type's width, unsigned. -/
def readBits (ty : Ty) (x : Word) : Nat := x.toNat % 2 ^ (tyBits ty)

/-- The low bits of a word at the type's width, read as two's complement whatever the signedness. -/
def readSigned (ty : Ty) (x : Word) : Int :=
  let u := readBits ty x
  if decide (2 ^ (tyBits ty - 1) ≤ u) then (u : Int) - 2 ^ (tyBits ty) else u

/-- An integer reduced to the type's width and extended to 64 bits by its signedness (R291). -/
def writeInt (ty : Ty) (n : Int) : Word :=
  let u := (n % (2 ^ (tyBits ty) : Int)).toNat
  BitVec.ofInt 64 (if ty.isSigned && decide (2 ^ (tyBits ty - 1) ≤ u) then (u : Int) - 2 ^ (tyBits ty) else u)

/-- The least and the greatest value of an integer type (R111). -/
def intMin (ty : Ty) : Int := if ty.isSigned then -(2 ^ (tyBits ty - 1)) else 0
def intMax (ty : Ty) : Int := if ty.isSigned then 2 ^ (tyBits ty - 1) - 1 else 2 ^ (tyBits ty) - 1

/-- Clamps to the range of a type (R295). -/
def clampTo (ty : Ty) (n : Int) : Int :=
  if n < intMin ty then intMin ty else if intMax ty < n then intMax ty else n

/-- Whether an integer lies in the range of a type. -/
def inRange (ty : Ty) (n : Int) : Bool := decide (intMin ty ≤ n) && decide (n ≤ intMax ty)

/-- A result for A with the flags it writes. -/
structure AOut where
  a : Word
  f : Flags
  deriving DecidableEq, Repr

/-- Flags Z and N of an integer result at its width, with C and O given and X clear (R294). -/
def intFlags (ty : Ty) (res : Word) (c o : Bool) : Flags :=
  { z := readBits ty res == 0, n := decide (2 ^ (tyBits ty - 1) ≤ readBits ty res), c := c, o := o, x := false }

/-- The carry out of the top bit of a sum (R294). -/
def addCarry (ty : Ty) (a b : Word) : Bool := decide (2 ^ (tyBits ty) ≤ readBits ty a + readBits ty b)
/-- The borrow of a difference (R294). -/
def subBorrow (ty : Ty) (a b : Word) : Bool := decide (readBits ty a < readBits ty b)
/-- Signed overflow of an exact result at the type's width (R294). -/
def signedOver (ty : Ty) (n : Int) : Bool :=
  decide (n < -(2 ^ (tyBits ty - 1))) || decide (2 ^ (tyBits ty - 1) ≤ n)

/-- Flags of a floating result in a format: Z for ±0, N the sign unless NaN, C inexact, O as given, X NaN (R294). -/
def floatFlags (f : Fmt) (r : FRes) (o : Bool) : Flags :=
  let v := fdecode f r.bits
  { z := v.isZero, n := v.neg? && !v.isNan, c := r.inexact, o := o, x := v.isNan }

/-- A floating result for A: the format's bits, zero above (R291), and its flags. -/
def floatOut (f : Fmt) (r : FRes) (o : Bool) : AOut :=
  { a := BitVec.ofNat 64 r.bits, f := floatFlags f r o }

/-- A float reduction's result for A (R294): N is its sign, that of a NaN too. -/
def reduceOut (r : FRes) : AOut :=
  { floatOut Fmt.fp32 r r.ovf with f := { floatFlags Fmt.fp32 r r.ovf with n := (fdecode Fmt.fp32 r.bits).neg? } }

/-- What the lanes of a vector operation report: some lane inexact, overflowed, NaN (R294). -/
structure LaneFlags where
  c : Bool
  o : Bool
  x : Bool
  deriving DecidableEq, Repr

/-- F after a vector operation: Z and N stay (R294). -/
def Flags.withLanes (f : Flags) (l : LaneFlags) : Flags := { f with c := l.c, o := l.o, x := l.x }

/-- F after `vadds`, `vsubs`: only O is written (R294). -/
def Flags.withO (f : Flags) (o : Bool) : Flags := { f with o := o }

/-- F after a compare of major 0x1C: Z and N from K (R294). -/
def Flags.withK (f : Flags) (k : BitVec 32) : Flags := { f with z := k == 0, n := k.getLsbD 31 }

/-- F as a word: Z, N, C, O, X from bit 4 down (R238, R307). -/
def Flags.toWord (f : Flags) : Word :=
  BitVec.ofNat 64 ((if f.z then 16 else 0) + (if f.n then 8 else 0) + (if f.c then 4 else 0) + (if f.o then 2 else 0) +
    (if f.x then 1 else 0))

/-- F from five bits laid out as in `Flags.toWord`. -/
def Flags.ofBits (b : BitVec 5) : Flags :=
  { z := b.getLsbD 4, n := b.getLsbD 3, c := b.getLsbD 2, o := b.getLsbD 1, x := b.getLsbD 0 }

end Sys2Proof.Machine
end

