-- ==== Sys2Proof/Machine/Alu.lean ====
section
/-!
DEFINITION. Integer computations of the execute half, as functions of values: scalar operations on A (R295, R296), lane operations
on V (R299, R309), integer reductions (R305) and integer compares (R306).
-/
namespace Sys2Proof.Machine

/-! ## Scalar operations (R295, R296) -/

/-- a + b modulo 2^w. -/
def aluAdd (ty : Ty) (a b : Word) : AOut :=
  let r := writeInt ty (readInt ty a + readInt ty b)
  { a := r, f := intFlags ty r (addCarry ty a b) (signedOver ty (readSigned ty a + readSigned ty b)) }

/-- a - b modulo 2^w. -/
def aluSub (ty : Ty) (a b : Word) : AOut :=
  let r := writeInt ty (readInt ty a - readInt ty b)
  { a := r, f := intFlags ty r (subBorrow ty a b) (signedOver ty (readSigned ty a - readSigned ty b)) }

/-- A clamped result: O says that it saturated. -/
def aluClamp (ty : Ty) (n : Int) : AOut :=
  let r := writeInt ty (clampTo ty n)
  { a := r, f := intFlags ty r false (!inRange ty n) }

def aluAdds (ty : Ty) (a b : Word) : AOut := aluClamp ty (readInt ty a + readInt ty b)
def aluSubs (ty : Ty) (a b : Word) : AOut := aluClamp ty (readInt ty a - readInt ty b)

/-- A result given as bits, with C and O clear. -/
def aluPlain (ty : Ty) (n : Int) : AOut :=
  let r := writeInt ty n
  { a := r, f := intFlags ty r false false }

def aluLda (ty : Ty) (b : Word) : AOut := aluPlain ty (readInt ty b)
def aluAnd (ty : Ty) (a b : Word) : AOut := aluPlain ty ((a &&& b).toNat : Nat)
def aluOr (ty : Ty) (a b : Word) : AOut := aluPlain ty ((a ||| b).toNat : Nat)
def aluXor (ty : Ty) (a b : Word) : AOut := aluPlain ty ((a ^^^ b).toNat : Nat)
def aluAndn (ty : Ty) (a b : Word) : AOut := aluPlain ty ((a &&& ~~~b).toNat : Nat)
def aluMin (ty : Ty) (a b : Word) : AOut :=
  aluPlain ty (if readInt ty a ≤ readInt ty b then readInt ty a else readInt ty b)
def aluMax (ty : Ty) (a b : Word) : AOut :=
  aluPlain ty (if readInt ty a ≤ readInt ty b then readInt ty b else readInt ty a)

/-- A shift's result with the last bit shifted out in C. -/
def aluShift (ty : Ty) (n : Int) (c : Bool) : AOut :=
  let r := writeInt ty n
  { a := r, f := intFlags ty r c false }

/-- a << n; a count of w or more gives 0, and C is 0 above w. -/
def aluShl (ty : Ty) (a b : Word) : AOut :=
  let n := readBits ty b
  let u := readBits ty a
  let w := tyBits ty
  if n == 0 then aluShift ty u false
  else if w < n then aluShift ty 0 false
  else aluShift ty ((u * 2 ^ n : Nat)) (u / 2 ^ (w - n) % 2 == 1)

/-- Logical right shift. -/
def aluShr (ty : Ty) (a b : Word) : AOut :=
  let n := readBits ty b
  let u := readBits ty a
  let w := tyBits ty
  if n == 0 then aluShift ty u false
  else if w < n then aluShift ty 0 false
  else aluShift ty ((u / 2 ^ n : Nat)) (u / 2 ^ (n - 1) % 2 == 1)

/-- Arithmetic right shift: copies of a's top bit, whatever the signedness of ty (R228). -/
def aluSar (ty : Ty) (a b : Word) : AOut :=
  let n := readBits ty b
  let x := readSigned ty a
  let w := tyBits ty
  if n == 0 then aluShift ty x false
  else if w ≤ n then aluShift ty (if x < 0 then -1 else 0) (decide (x < 0))
  else aluShift ty (x / 2 ^ n) (x / 2 ^ (n - 1) % 2 == 1)

/-- Rotates: C is 0. -/
def aluRol (ty : Ty) (a b : Word) : AOut :=
  let w := tyBits ty
  let n := readBits ty b % w
  let u := readBits ty a
  aluShift ty ((u * 2 ^ n + u / 2 ^ (w - n) : Nat)) false

def aluRor (ty : Ty) (a b : Word) : AOut :=
  let w := tyBits ty
  let n := readBits ty b % w
  let u := readBits ty a
  aluShift ty ((u / 2 ^ n + u % 2 ^ n * 2 ^ (w - n) : Nat)) false

/-- The number of ones of a number's low `w` bits. -/
def onesOf (u w : Nat) : Nat := ((List.range w).filter fun i => u.testBit i).length
/-- The number of leading zeros at width `w`. -/
def leadingZeros (u w : Nat) : Nat := if u == 0 then w else w - 1 - Nat.log2 u
/-- The number of trailing zeros at width `w`. -/
def trailingZeros (u w : Nat) : Nat := ((List.range w).find? fun i => u.testBit i).getD w

def aluPopc (ty : Ty) (b : Word) : AOut := aluPlain ty (onesOf (readBits ty b) (tyBits ty) : Nat)
def aluClz (ty : Ty) (b : Word) : AOut := aluPlain ty (leadingZeros (readBits ty b) (tyBits ty) : Nat)
def aluCtz (ty : Ty) (b : Word) : AOut := aluPlain ty (trailingZeros (readBits ty b) (tyBits ty) : Nat)

/-- The bytes of `u` in reverse order over `n` bytes. -/
def swapBytes : Nat → Nat → Nat
  | 0, _ => 0
  | n + 1, u => u % 256 * 256 ^ n + swapBytes n (u / 256)

def aluBswap (ty : Ty) (b : Word) : AOut := aluPlain ty (swapBytes (tyBits ty / 8) (readBits ty b) : Nat)

/-- The low half of the product; C and O say that it leaves the range (R294, R296). -/
def aluMul (ty : Ty) (a b : Word) : AOut :=
  let p := readInt ty a * readInt ty b
  let r := writeInt ty p
  { a := r, f := intFlags ty r (!inRange ty p) (!inRange ty p) }

/-- The high half of the product. -/
def aluMulh (ty : Ty) (a b : Word) : AOut := aluPlain ty (readInt ty a * readInt ty b / 2 ^ (tyBits ty))

def aluMuls (ty : Ty) (a b : Word) : AOut := aluClamp ty (readInt ty a * readInt ty b)

/-- Whether a division is one of the two corners of R296. -/
def divCorner (ty : Ty) (x y : Int) : Bool := y == 0 || (ty.isSigned && x == intMin ty && y == -1)

/-- The quotient (R296). -/
def aluDiv (ty : Ty) (a b : Word) : AOut :=
  let x := readInt ty a
  let y := readInt ty b
  let r := writeInt ty (if y == 0 then -1 else if divCorner ty x y then x else x.tdiv y)
  { a := r, f := intFlags ty r false (divCorner ty x y) }

/-- The remainder (R296). -/
def aluRem (ty : Ty) (a b : Word) : AOut :=
  let x := readInt ty a
  let y := readInt ty b
  let r := writeInt ty (if y == 0 then x else if divCorner ty x y then 0 else x.tmod y)
  { a := r, f := intFlags ty r false (divCorner ty x y) }

/-! ## Lanes (R299, R309) -/

abbrev Lane := BitVec 32
abbrev Lanes := Vector Lane 32

/-- Lane by lane. -/
def lanes (f : Fin 32 → Lane) : Lanes := Vector.ofFn f

/-- The integer a lane holds, by the signedness of a type. -/
def laneInt (ty : Ty) (x : Lane) : Int := if ty.isSigned then x.toInt else x.toNat

/-- Clamps to the i32 or u32 range, by signedness (R299). -/
def laneClamp (ty : Ty) (n : Int) : Int := clampTo (if ty.isSigned then .i32 else .u32) n
def laneFits (ty : Ty) (n : Int) : Bool := inRange (if ty.isSigned then .i32 else .u32) n

def laneShl (a b : Lane) : Lane := if 32 ≤ b.toNat then 0 else a <<< b.toNat
def laneShr (a b : Lane) : Lane := if 32 ≤ b.toNat then 0 else a >>> b.toNat
def laneSar (a b : Lane) : Lane := a.sshiftRight (if 32 ≤ b.toNat then 31 else b.toNat)
def laneMin (ty : Ty) (a b : Lane) : Lane := if laneInt ty a ≤ laneInt ty b then a else b
def laneMax (ty : Ty) (a b : Lane) : Lane := if laneInt ty a ≤ laneInt ty b then b else a
def laneMulh (ty : Ty) (a b : Lane) : Lane := BitVec.ofInt 32 (laneInt ty a * laneInt ty b / 2 ^ 32)
def laneAbs (ty : Ty) (b : Lane) : Lane := if laneInt ty b < 0 then -b else b
def lanePopc (b : Lane) : Lane := BitVec.ofNat 32 (onesOf b.toNat 32)

/-- Whether some lane meets a condition. -/
def anyLane (p : Fin 32 → Bool) : Bool := (List.finRange 32).any p

/-- A mask from a condition on lanes. -/
def maskOf (p : Nat → Bool) : BitVec 32 :=
  BitVec.ofNat 32 ((List.range 32).foldl (fun acc i => if p i then acc + 2 ^ i else acc) 0)

/-- The lanes that a mask selects, in increasing order. -/
def selected (k : BitVec 32) : List (Fin 32) := (List.finRange 32).filter fun i => k.getLsbD i.val

/-- The number of mask bits set below lane `i`. -/
def rankBelow (k : BitVec 32) (i : Nat) : Nat := ((List.range i).filter fun j => k.getLsbD j).length

/-- `vcomp`: selected lanes go to lanes 0, 1, …; the rest are 0 (R309). -/
def compress (k : BitVec 32) (v : Lanes) : Lanes :=
  lanes fun i =>
    match (selected k)[i.val]? with
    | some j => v[j]
    | none => 0

/-- `vexpd`: each selected lane takes the next lane from lane 0 upward (R309). -/
def expand (k : BitVec 32) (v : Lanes) : Lanes :=
  lanes fun i => if k.getLsbD i.val then v[rankBelow k i.val % 32]! else 0

/-- Two lanes from a word, and the word of a pair (R290). -/
def pairLanes (ws : List Word) : Lanes :=
  lanes fun i =>
    let w := ws.getD (i.val / 2) 0
    if i.val % 2 == 0 then w.extractLsb' 0 32 else w.extractLsb' 32 32

def pairWords (v : Lanes) : List Word :=
  (List.range 16).map fun j => (v.toList.getD (2 * j + 1) 0 ++ v.toList.getD (2 * j) 0 : BitVec 64)

end Sys2Proof.Machine
end

