-- ==== Sys2Proof/Machine/Mem.lean ====
section
/-!
DEFINITION. Memory in canonical form: reading and writing bytes, words and the side-band bits (R8, R78, R79). A key is a machine byte
address for DRAM (below 2^33) and an own-space address, with physical cells in place of slots, for the on-chip windows.
-/
namespace Sys2Proof.Machine

/-- Strictly rising. -/
def rising : List Nat → Bool
  | [] => true
  | [_] => true
  | a :: b :: t => decide (a < b) && rising (b :: t)

/-- What an unlisted address reads as: reset and scrub leave every line zero (R80). -/
def unlistedByte : Byte := 0#8

/-- The canonical form. -/
def Memory.wf (m : Memory) : Bool :=
  rising (m.bytes.map Prod.fst) && m.bytes.all (fun c => c.2 != unlistedByte) && rising m.tags && rising m.lit &&
  rising m.poison && rising (m.enc.map Prod.fst) && m.enc.all (fun c => c.2 != 0)

/-- Looks a key up in a rising list of pairs. -/
def lookupAt {β : Type} (d : β) (a : Nat) : List (Nat × β) → β
  | [] => d
  | (x, y) :: t => if x == a then y else lookupAt d a t

/-- Sets the value at a key, keeping the list rising and free of the value that an unlisted key has. -/
def insertAt {β : Type} [DecidableEq β] (d : β) (a : Nat) (b : β) : List (Nat × β) → List (Nat × β)
  | [] => if b = d then [] else [(a, b)]
  | (x, y) :: t =>
    if a < x then (if b = d then (x, y) :: t else (a, b) :: (x, y) :: t)
    else if a = x then (if b = d then t else (a, b) :: t)
    else (x, y) :: insertAt d a b t

/-- Adds a number to, or removes it from, a rising list. -/
def markAt (a : Nat) (on : Bool) : List Nat → List Nat
  | [] => if on then [a] else []
  | x :: t =>
    if a < x then (if on then a :: x :: t else x :: t)
    else if a = x then (if on then a :: t else t)
    else x :: markAt a on t

/-- The byte at a key. -/
def Memory.byteAt (m : Memory) (a : Nat) : Byte := lookupAt unlistedByte a m.bytes

/-- Writes one byte. -/
def Memory.setByte (m : Memory) (a : Nat) (b : Byte) : Memory := { m with bytes := insertAt unlistedByte a b m.bytes }

/-- The `n` bytes from a key upward. -/
def Memory.bytesAt (m : Memory) (a : Nat) : Nat → List Byte
  | 0 => []
  | n + 1 => m.byteAt a :: m.bytesAt (a + 1) n

/-- Writes bytes from a key upward. -/
def Memory.setBytes (m : Memory) (a : Nat) : List Byte → Memory
  | [] => m
  | b :: bs => (m.setByte a b).setBytes (a + 1) bs

/-- The reference tag of the word that holds a key (R78). -/
def Memory.tagAt (m : Memory) (a : Nat) : Bool := m.tags.contains (a / 8 * 8)
def Memory.setTag (m : Memory) (a : Nat) (on : Bool) : Memory := { m with tags := markAt (a / 8 * 8) on m.tags }

/-- The lit bit of the line that holds a key (R78). -/
def Memory.litAt (m : Memory) (a : Nat) : Bool := m.lit.contains (a / 128 * 128)
def Memory.setLit (m : Memory) (a : Nat) (on : Bool) : Memory := { m with lit := markAt (a / 128 * 128) on m.lit }

/-- Whether the line that holds a key is poisoned (R79). -/
def Memory.poisoned (m : Memory) (a : Nat) : Bool := m.poison.contains (a / 128 * 128)
def Memory.setPoison (m : Memory) (a : Nat) (on : Bool) : Memory := { m with poison := markAt (a / 128 * 128) on m.poison }

/-- The (key, tweak) number under which a DRAM line was written; 0 where it was written plain (R439). -/
def Memory.encAt (m : Memory) (a : Nat) : Nat := lookupAt 0 (a / 128 * 128) m.enc

/-- Bits [127:104] of the side band of the line that holds a key: tags, the lit bit, and the reserved bits, which are written zero (R78). -/
def Memory.sideMarks (m : Memory) (a : Nat) : BitVec 24 :=
  let line := a / 128 * 128
  BitVec.ofNat 16 ((List.range 16).foldl (fun n i => if m.tagAt (line + 8 * i) then n + 2 ^ i else n) 0) ++
    (if m.litAt line then 1#1 else 0#1) ++ 0#7

/-- The 128 bits that the ECC store holds beside the line (R78). -/
def Memory.sideBand (m : Memory) (a : Nat) : BitVec 128 :=
  m.sideMarks a ++ Config.checkBits (m.bytesAt (a / 128 * 128) 128) (m.sideMarks a)

/-- A little-endian number from bytes (R8). -/
def leNat : List Byte → Nat
  | [] => 0
  | b :: bs => b.toNat + 256 * leNat bs

/-- The `n` little-endian bytes of a number (R8). -/
def leBytes : Nat → Nat → List Byte
  | 0, _ => []
  | n + 1, v => BitVec.ofNat 8 v :: leBytes n (v / 256)

/-- A word from eight bytes. -/
def wordOf (bs : List Byte) : Word := BitVec.ofNat 64 (leNat bs)

/-- The eight bytes of a word. -/
def bytesOf (w : Word) : List Byte := leBytes 8 w.toNat

/-- The words of a run of bytes. -/
def wordsOf (n : Nat) (bs : List Byte) : List Word := (List.range n).map fun i => wordOf ((bs.drop (8 * i)).take 8)

/-- Whether a key is one of DRAM. -/
def isDram (a : Nat) : Bool := decide (a < 2 ^ 33)

/-- A block of 16 bytes under AES-256-XTS, for the (key, tweak) number `n` (R439): a permutation of four rounds that are free, the last
first where it decrypts (DESIGN CHOICE, log 15). -/
def xtsBlock (dec : Bool) (n j : Nat) (b : Word × Word) : Word × Word :=
  let f (i : Nat) (x : Word) : Word := Config.xtsRound (n / 2 ^ 32) (n % 2 ^ 26) j i x
  if dec then [3, 2, 1, 0].foldl (fun (b : Word × Word) i => (b.2 ^^^ f i b.1, b.1)) b
  else [0, 1, 2, 3].foldl (fun (b : Word × Word) i => (b.2, b.1 ^^^ f i b.2)) b

/-- A line as one data unit, encrypted or decrypted; 0 stands for plaintext. -/
def xtsUnit (dec : Bool) (n : Nat) (bs : List Byte) : List Byte :=
  if n == 0 then bs
  else (List.range 8).flatMap fun j =>
    let b := xtsBlock dec n j (wordOf ((bs.drop (16 * j)).take 8), wordOf ((bs.drop (16 * j + 8)).take 8))
    bytesOf b.1 ++ bytesOf b.2

/-- The line that holds a key, as it stands in DRAM (R438). -/
def Memory.rawLine (m : Memory) (a : Nat) : List Byte := xtsUnit false (m.encAt a) (m.bytesAt (a / 128 * 128) 128)

/-- A byte of a line as a reader under the number `want` sees it: what stands in DRAM, decrypted under that number (R439). -/
def Memory.viewByte (m : Memory) (want a : Nat) : Byte :=
  if m.encAt a == want then m.byteAt a else (xtsUnit true want (m.rawLine a)).getD (a % 128) 0

/-- The `n` bytes from a key as a reader under `want` sees them. -/
def Memory.viewBytes (m : Memory) (want a : Nat) : Nat → List Byte
  | 0 => []
  | n + 1 => m.viewByte want a :: m.viewBytes want (a + 1) n

/-- Rewrites a line so that it stands under the number `want`: what it holds is what a reader under `want` sees (R439). -/
def Memory.recode (m : Memory) (want a : Nat) : Memory :=
  if m.encAt a == want then m
  else
    let line := a / 128 * 128
    { (m.setBytes line (m.viewBytes want line 128)) with enc := insertAt 0 line want m.enc }

/-- Clears a range of whole lines: zero, untagged, shadowed, plain and not poisoned (R71). -/
def Memory.scrub (m : Memory) (lo len : Nat) : Memory :=
  let keep (a : Nat) : Bool := decide (a < lo) || decide (lo + len ≤ a)
  { bytes := m.bytes.filter fun c => keep c.1, tags := m.tags.filter keep, lit := m.lit.filter keep,
    poison := m.poison.filter keep, enc := m.enc.filter fun c => keep c.1 }

end Sys2Proof.Machine
end

