-- ==== Sys2Proof/Machine/Home.lean ====
section
/-!
DEFINITION. The ports of the cluster: windows of own space (R16 to R25), translation (R43 to R58, R75), the checks of R29 from row
4 on (R53, R98, R108, R432, R441, R145), reads of an access unit (R277, R279) and writes (R147, R174, R206, R283, R302). These
functions look at the state and answer a value, a fault code, a miss or a snoop; Ops.lean turns the answers into steps.
-/
namespace Sys2Proof.Machine

/-! ## Windows (R16, R18, R25) -/

inductive Win where
  | dram | ls (n : Fin 64) | cis | ctl | hole
  deriving DecidableEq, Repr

/-- Whether a logical index is present, and its physical cell (R34). -/
def Cluster.present (cl : Cluster) (n : Fin 64) : Bool := n == 63 || cl.cellMap[n].getLsbD 7
def Cluster.pcell (cl : Cluster) (n : Fin 64) : Nat := if n == 63 then 63 else (cl.cellMap[n].extractLsb' 0 6).toNat

/-- Whether an offset of the control window is a hole (R25, R36, R73). -/
def Cluster.ctlHole (cl : Cluster) (off : Nat) : Bool :=
  if off < 0x400000 then decide (0x8000 ≤ off % 0x10000) || !cl.present (Fin.ofNat 64 (off / 0x10000))
  else if off < 0x500000 then
    let r := off - 0x400000
    !(decide (r < 0x30) || (decide (0x100 ≤ r) && decide (r < 0x180)))
  else if off < 0x502000 then false
  else if off < 0x600000 then true
  else if off < 0x610000 then
    let r := off - 0x600000
    !(decide (r < 8) || (decide (0x1000 ≤ r) && decide (r < 0x2040)))
  else true

/-- The window an own-space address lies in (R16); the slot of an absent cell is a hole (R18). -/
def Cluster.window (cl : Cluster) (oa : Nat) : Win :=
  if oa < 0x200000000 then .dram
  else if oa < 0x201000000 then
    let n : Fin 64 := Fin.ofNat 64 ((oa - 0x200000000) / 0x40000)
    if cl.present n then .ls n else .hole
  else if oa < 0x240000000 then .hole
  else if oa < 0x244400000 then .cis
  else if oa < 0x2F0000000 then .hole
  else if oa < 0x2F1000000 then (if cl.ctlHole (oa - 0x2F0000000) then .hole else .ctl)
  else .hole

/-- The key of an address in a local-store slot: the physical cell's store. -/
def Cluster.lsKey (cl : Cluster) (n : Fin 64) (oa : Nat) : Nat := 0x200000000 + cl.pcell n * 0x40000 + oa % 0x40000

/-! ## Attributes (R20, R23, R49, R75) -/

structure Attr where
  ckey : BitVec 6
  fmt  : Fin 16
  blen : BitVec 3
  scpl : Bool
  dep  : Bool
  tags : Bool
  hc   : Bool
  nc   : Bool
  x    : Bool
  w    : Bool
  rd   : Bool
  deriving DecidableEq, Repr

/-- A window attribute word (R20); read permission is not a field. -/
def Attr.ofHalf (w : BitVec 32) : Attr :=
  { ckey := w.extractLsb' 26 6, fmt := (w.extractLsb' 22 4).toFin, blen := w.extractLsb' 19 3, scpl := w.getLsbD 18,
    dep := w.getLsbD 17, tags := w.getLsbD 16, hc := false, nc := false, x := w.getLsbD 15, w := w.getLsbD 14, rd := true }

/-- A TLB data word (R49). -/
def Attr.ofData (w : Word) : Attr :=
  { ckey := w.extractLsb' 58 6, fmt := (w.extractLsb' 54 4).toFin, blen := w.extractLsb' 51 3, scpl := w.getLsbD 50,
    dep := w.getLsbD 49, tags := w.getLsbD 48, hc := w.getLsbD 47, nc := w.getLsbD 46, x := w.getLsbD 45, w := w.getLsbD 44,
    rd := w.getLsbD 43 }

/-- The boot mapping's attributes (R75). -/
def Attr.boot : Attr :=
  { ckey := 0, fmt := 0, blen := 0, scpl := false, dep := false, tags := true, hc := false, nc := false, x := true, w := true,
    rd := true }

/-- blen and scpl as an entry carries them (R279). -/
def Attr.geo (a : Attr) : BitVec 4 := (if a.scpl then 1#1 else 0#1) ++ a.blen

/-! ## Translation (R48 to R58, R75) -/

def TlbEnt.sz (e : TlbEnt) : Bool := e.mw.getLsbD 61
def TlbEnt.vf (e : TlbEnt) : Fin 16 := (e.mw.extractLsb' 57 4).toFin
def TlbEnt.vpn (e : TlbEnt) : Nat := (e.mw.extractLsb' 0 17).toNat
def TlbEnt.gpfn (e : TlbEnt) : Nat := (e.dw.extractLsb' 0 16).toNat
def TlbEnt.pin (e : TlbEnt) : Bool := e.dw.getLsbD 42

/-- Whether an entry's page holds a virtual page number (R46). -/
def TlbEnt.covers (e : TlbEnt) (vpn : Nat) : Bool :=
  if e.sz then vpn / 256 == e.vpn / 256 else vpn == e.vpn

/-- Whether two pages overlap (R51). -/
def TlbEnt.overlaps (a b : TlbEnt) : Bool := a.covers b.vpn || b.covers a.vpn

def pairEn (p : Word) : Bool := p.getLsbD 63
def pairSize (p : Word) : Nat := (p.extractLsb' 16 16).toNat
def pairBase (p : Word) : Nat := (p.extractLsb' 0 16).toNat

/-- What translation answers: a machine byte address with the page's attributes, pair and guest frame; a fault; or a miss. -/
inductive Xlat where
  | hit (m : Nat) (attr : Attr) (vf : Fin 16) (g : Nat)
  | fault
  | miss
  deriving DecidableEq, Repr

/-- The second stage (R52, R54). -/
def Cluster.stage2 (cl : Cluster) (vf : Fin 16) (g off : Nat) (attr : Attr) : Xlat :=
  let p := cl.vfpair[vf]
  if !pairEn p || decide (pairSize p ≤ g) then .fault else .hit ((pairBase p + g) * 0x10000 + off) attr vf g

/-- Translates an address of the DRAM window (R52, R75). -/
def Cluster.translate (cl : Cluster) (oa : Nat) : Xlat :=
  let vpn := oa / 0x10000
  if !cl.tlbctl then cl.stage2 0 vpn (oa % 0x10000) Attr.boot
  else
    match cl.tlb.find? fun e => e.covers vpn with
    | none => .miss
    | some e =>
      cl.stage2 e.vf (if e.sz then e.gpfn + vpn % 256 else e.gpfn) (oa % 0x10000) (Attr.ofData e.dw)

/-! ## Checks at the port (R29 rows 4 to 8) -/

/-- An accepted access: the memory key of its address, its attributes, its window, and the number of R439 for its line. -/
structure Site where
  key  : Nat
  attr : Attr
  win  : Win
  enc  : Nat
  deriving DecidableEq, Repr

/-- What a check answers. -/
inductive Chk (α : Type) where
  | ok (a : α)
  | fault (c : Code) (mem : Bool)
  | miss
  /-- a host holds a half of this machine line and must answer a snoop first (R433) -/
  | snoop (line : Nat)
  /-- the port makes the access wait: the bank group is refreshing (R100), or an atomic slot holds the line (R176) -/
  | wait
  deriving DecidableEq, Repr

def Chk.bind {α β : Type} (x : Chk α) (f : α → Chk β) : Chk β :=
  match x with
  | .ok a => f a
  | .fault c m => .fault c m
  | .miss => .miss
  | .snoop l => .snoop l
  | .wait => .wait

/-- Goes on where a condition holds, else faults with a code. -/
def Chk.need {α : Type} (ok : Bool) (c : Code) (x : Chk α) : Chk α := if ok then x else .fault c false

/-- Whether an enabled deposit window holds the whole range (R172 row 8). -/
def Cluster.inDepwin (cl : Cluster) (oa len : Nat) : Bool :=
  cl.depwin.toList.any fun w =>
    let base := (w.extractLsb' 7 27).toNat * 128
    let lines := (w.extractLsb' 34 24).toNat
    w.getLsbD 63 && decide (base ≤ oa) && decide (oa + len ≤ base + 128 * lines)

/-- The lit state of a line under R145. -/
def State.lineLit (s : State) (win : Win) (key oa : Nat) : Bool :=
  win == .cis || s.cl.inDepwin (oa / 128 * 128) 128 || s.mem.litAt key

/-- The compartment of the cluster's world with an identifier (R437). -/
def State.comp (s : State) (ckey : BitVec 6) : Option Compartment :=
  s.pkg.comps.find? fun c => c.world == s.cl.ptn && c.ckey == ckey

/-- The number under which a DRAM line of a location with this ckey stands (R438, R439): 0 for plaintext and for weight lines, for which
the home needs no key; `none` where the key store lacks the key. -/
def State.encFor (s : State) (ckey : BitVec 6) (oa : Nat) : Option Nat :=
  if ckey == 0 then some 0
  else
    match s.comp ckey with
    | none => none
    | some c =>
      if c.kind == .weight then some 0
      else if s.pkg.secHeld || c.torn then none
      else some ((c.keyId + 1) * 2 ^ 32 + oa / 128 % 2 ^ 26)

/-- Reads, as R441 counts them. -/
def accIsRead : AccKind → Bool
  | .load | .fetch | .engRead | .stationary => true
  | _ => false

/-- Row 7 (R441). A request of another world that row 6 lets pass finds open only what stands in no compartment: its cmpt and the gates
are another world's (DEDUCED, log 105). -/
def Cluster.gateOk (cl : Cluster) (who : Requester) (kind : AccKind) (ckey : BitVec 6) : Bool :=
  ckey == 0 || ((!who.remote || who.ptn == cl.ptn) && (who.cmpt == ckey ||
  (accIsRead kind && cl.gates.toList.any fun g =>
    let mode := (g.extractLsb' 60 3).toNat
    g.getLsbD 63 && g.extractLsb' 54 6 == ckey && g.extractLsb' 48 6 == who.cmpt &&
    (mode == 0 || (mode == 1 && kind == .stationary)))))

/-- The tick within the 2 ms period of the refresh timebase, and the bank group of the period (R100). -/
def Cluster.refreshTick (cl : Cluster) : Nat := cl.aktime.toNat % 1200000
def Cluster.refreshGroup (cl : Cluster) : Nat := cl.aktime.toNat / 1200000 % 16

/-- Whether the bank group of a cistern address is in its refresh window (R95, R100). -/
def Cluster.refreshing (cl : Cluster) (oa : Nat) : Bool :=
  decide (cl.refreshTick < 1200) && (oa - 0x240000000) / 4096 % 16 == cl.refreshGroup

/-- Row 6 for a requester outside the cluster (R107, R108). -/
def Cluster.worldOk (cl : Cluster) (who : Requester) (kind : AccKind) (win : Win) (nc : Bool) : Bool :=
  !who.remote ||
  (cl.ptn != 0 && (who.ptn == cl.ptn ||
    (win == .dram && nc && (kind == .load || kind == .deposit || kind == .atomic))))

/-- Row 6: page permissions (R53). -/
def Attr.permits (a : Attr) : AccKind → Bool
  | .load | .engRead | .stationary => a.rd
  | .fetch => a.x
  | .store | .engWrite => a.w
  | .deposit => a.dep
  | .atomic => a.rd && a.w

/-- Row 6: the cistern's modes (R24, R97, R98). -/
def Cluster.cistOk (cl : Cluster) (who : Requester) : AccKind → Bool
  | .load | .engRead | .stationary => !(cl.fill && who.remote)
  | .store | .engWrite => cl.fill && !who.remote
  | .fetch | .deposit | .atomic => false

/-- Whether a guest frame of a pair lies in its host-coherent window (R431). -/
def Cluster.inHcwin (cl : Cluster) (vf : Fin 16) (g : Nat) : Bool :=
  let w := cl.hcwin[vf]
  w.getLsbD 63 && decide ((w.extractLsb' 0 16).toNat ≤ g) &&
  decide (g < (w.extractLsb' 0 16).toNat + (w.extractLsb' 32 16).toNat)

/-- The device reads that a window serves (R432); an instruction fetch is none of those it lists (DEDUCED, log 106). -/
def accIsDevRead : AccKind → Bool
  | .load | .engRead | .stationary => true
  | _ => false

/-- Row 6: a window frame admits device reads through hc = 1 with ckey = 0 alone (R432). -/
def Cluster.hcOk (cl : Cluster) (kind : AccKind) (a : Attr) (vf : Fin 16) (g : Nat) : Bool :=
  let inside := cl.inHcwin vf g
  if a.hc then inside && accIsDevRead kind && a.ckey == 0 else !inside

/-- Whether a half of a machine line is held in state E by a host agent (R433). -/
def Cluster.heldE (cl : Cluster) (line : Nat) : Bool :=
  cl.dir.any fun d => d.line == line && (d.h0 == .E || d.h1 == .E)

/-- Row 8 (R145): what a requester outside the cluster may not do with a shadowed line. -/
def shadowBars (who : Requester) : AccKind → Bool
  | .load | .engRead | .stationary | .atomic => who.remote
  | _ => false

/-- The line is held by an atomic request (R176, R180). -/
def State.lineTaken (s : State) (key : Nat) : Bool :=
  let line := key / 128 * 128
  s.atomRun.any (fun r : AtomRun => r.line == line) || s.cl.lineHolds.any fun h : AtomReq × Nat => h.2 == line

/-- Whether an atomic request holds the line against this access: reads by an atomic slot pass (R176, R180). -/
def State.lineHeld (s : State) (who : Requester) (kind : AccKind) (key : Nat) : Bool :=
  s.lineTaken key && !(accIsRead kind && who.atomic)

/-- The rows after translation, for a located access. -/
def State.checkRows (s : State) (who : Requester) (kind : AccKind) (win : Win) (key oa : Nat) (a : Attr) (row6 : Bool) :
    Chk Site :=
  Chk.need (s.cl.worldOk who kind win a.nc && row6) 0x05 <|
  Chk.need (s.cl.gateOk who kind a.ckey) 0x10 <|
  Chk.need (!shadowBars who kind || s.lineLit win key oa) 0x06 <|
  match (if win == .dram then s.encFor a.ckey oa else some 0) with
  | none => .fault 0x13 false
  | some enc =>
    if (accIsRead kind || kind == .atomic) && s.mem.poisoned key then .fault 0x0F true
    else if s.lineHeld who kind key then .wait
    else .ok { key, attr := a, win, enc }

/-- The handler that runs at the atomic slot of the modelled cell is waited for before the cell is saved, so its accesses pass the fence
(R406 step 2; DEDUCED, log 97). -/
def State.passesFence (s : State) (who : Requester) : Bool :=
  who.atomic && s.cur == 4 && s.cl.evicting.any fun e : EvictRun => e.cells.contains s.self

/-- Whether an access is answered retry: the cluster is held (R462), or it lies in the slot of a cell under eviction (R406). -/
def State.retries (s : State) (who : Requester) (win : Win) : Bool :=
  s.cl.power == .hold ||
  match win with
  | .ls n => s.cells[n].fenced && !s.passesFence who
  | _ => false

/-- What a place lookup answers: a fault code, or none (R37). -/
def stFault (st : Nat) : Option Code := if st == 1 then none else if st == 2 then some 0x08 else some 0x04

/-- An entry of the cluster map: an unlisted physical cluster counts as unbound (R33), and so does one of another die on a bare die
(R2). -/
def mapFault (bare : Bool) (e : Word) : Option Code :=
  if decide (60 ≤ (e.extractLsb' 0 6).toNat) || (bare && e.extractLsb' 6 3 != 0) then some 0x04
  else stFault (e.extractLsb' 62 2).toNat

/-- Some cluster of the package belongs to a partition, as the host has written their `ptn` registers. -/
def State.inPackage (s : State) (ptn : BitVec 24) : Bool :=
  ptn == s.cl.ptn || s.pkg.shares.any fun x : BitVec 9 × BitVec 24 × BitVec 13 => x.2.1 == ptn

/-- The lookup at the destination package of a request from outside (R37): one of a partition with no cluster in the package finds none;
one of the own partition from another package is looked up in this cluster's map, at its own logical number. -/
def State.arrivalFault (s : State) (who : Requester) : Option Code :=
  if !who.remote then none
  else if who.ptn != 0 && !s.inPackage who.ptn then some 0x04
  else if who.ptn == s.cl.ptn && who.place.extractLsb' 45 18 != s.cl.place.extractLsb' 45 18 then
    mapFault s.pkg.bare s.cl.map[(s.cl.place.extractLsb' 36 9).toFin]
  else none

/-- A request from outside the cluster that its partition refuses (R107, R108). -/
def State.foreign (s : State) (who : Requester) : Bool := who.remote && (s.cl.ptn == 0 || who.ptn != s.cl.ptn)

/-- The own-space address at which work stands at a port and waits. -/
def todoOa : Todo → Option Nat
  | .port oa _ => some oa
  | .under _ t => todoOa t
  | _ => none

/-- An access of a unit that waits for a refresh window keeps its place before later ones to its line (R83). -/
def Cluster.queuedAt (cl : Cluster) (oa : Nat) : Bool := cl.held.any fun t : Todo => (todoOa t).any fun o => o / 128 == oa / 128

/-- The checks of R29 from row 4 for an access at an own-space address (R43, R52, R53); traffic from other clusters waits while a
change of frequency stops the cluster (R462). -/
def State.checkPortWith (s : State) (who : Requester) (kind : AccKind) (perm : Attr → Bool) (oa : Nat) : Chk Site :=
  if s.retries who (s.cl.window oa) then .fault 0x0C false
  else if who.remote && s.cl.clockStop then .wait
  else match s.arrivalFault who with
  | some c => .fault c false
  | none =>
  match s.cl.window oa with
  | .hole => .fault 0x04 false
  | .ctl => .fault 0x05 false
  | .ls n =>
    let w := s.cells[n].lsattr
    let a := Attr.ofHalf (if oa % 0x40000 < 0x20000 then w.extractLsb' 0 32 else w.extractLsb' 32 32)
    s.checkRows who kind (.ls n) (s.cl.lsKey n oa) oa a (perm a)
  | .cis =>
    let a := Attr.ofHalf (s.cl.cisattr.extractLsb' 0 32)
    match s.checkRows who kind .cis oa oa a (s.cl.cistOk who kind) with
    | .ok site => if s.cl.refreshing oa || s.cl.queuedAt oa then .wait else .ok site
    | r => r
  | .dram =>
    match s.cl.translate oa with
    | .miss => .miss
    | .fault => .fault 0x04 false
    | .hit m a vf g =>
      (s.checkRows who kind .dram m oa a (perm a && s.cl.hcOk kind a vf g)).bind fun site =>
        if a.hc && s.cl.heldE (m / 128 * 128) then .snoop (m / 128 * 128) else .ok site

/-- As `checkPortWith`, under the permission that the kind of access needs (R53). -/
def State.checkPort (s : State) (who : Requester) (kind : AccKind) (oa : Nat) : Chk Site :=
  s.checkPortWith who kind (fun a => a.permits kind) oa

/-- Where a write that its port accepted is performed: rows 4 to 8 stand behind it, so only its page, a window that makes it wait and the
lines that atomic requests hold are looked at (R67, R135, R176, R406). -/
def State.acceptedSite (s : State) (oa : Nat) : Chk Site :=
  let site (win : Win) (key : Nat) (a : Attr) : Chk Site :=
    if s.lineTaken key then .wait
    else .ok { key, attr := a, win, enc := if win == .dram then (s.encFor a.ckey oa).getD 0 else 0 }
  match s.cl.window oa with
  | .hole => .fault 0x04 false
  | .ctl => .fault 0x05 false
  | .ls n =>
    let w := s.cells[n].lsattr
    site (.ls n) (s.cl.lsKey n oa) (Attr.ofHalf (if oa % 0x40000 < 0x20000 then w.extractLsb' 0 32 else w.extractLsb' 32 32))
  | .cis => if s.cl.refreshing oa || s.cl.queuedAt oa then .wait else site .cis oa (Attr.ofHalf (s.cl.cisattr.extractLsb' 0 32))
  | .dram =>
    match s.cl.translate oa with
    | .miss => .miss
    | .fault => .fault 0x04 false
    | .hit m a _ _ => site .dram m a

/-- A memory after an error at an address, if one has struck: a line that its code cannot correct is poisoned; one that it corrects is as
before. The cistern has no such lines (R78, R79). -/
def Memory.struck (m : Memory) (at_ : Option (Nat × List (Fin 144))) : Memory :=
  match at_ with
  | some (k, syms) => if k < 0x201000000 && eccOutcome syms == .uncorrectable then m.setPoison (k / 128 * 128) true else m
  | none => m

/-! ## Reading an access unit (R277, R279) -/

/-- The owner's descriptor of a site, where it is valid (R116, R117). -/
def State.descOf (s : State) (a : Attr) : Option (BitVec 24) :=
  let w := s.cl.fmt[a.fmt]
  if fmtValid w then some (w.extractLsb' 0 24) else none

/-- Bytes as a reader of the site sees them. -/
def State.view (s : State) (site : Site) (n : Nat) : List Byte := s.mem.viewBytes site.enc site.key n

/-- The tags of `n` words from the site's key: clear where the page or half has tags = 0, and in the cistern (R80, R81). -/
def State.viewTags (s : State) (site : Site) (n : Nat) : List Bool :=
  (List.range n).map fun i => site.attr.tags && site.win != .cis && s.mem.tagAt (site.key + 8 * i)

def tagBits (ts : List Bool) : BitVec 16 :=
  BitVec.ofNat 16 ((ts.zipIdx.map fun p => if p.1 then 2 ^ p.2 else 0).foldl (· + ·) 0)

/-- The element that word 0 of an entry holds (R279): extended by the type's signedness. -/
def elemWord (ty : Ty) (bs : List Byte) : Word := if ty.isInt then writeInt ty (leNat bs : Nat) else BitVec.ofNat 64 (leNat bs)

/-- An entry without descriptor. -/
def plainEntry (ty : Ty) (u : QUnit) (data : List Word) (tags : BitVec 16) (mask : BitVec 32) : QEntry :=
  { data, tags, ty, unit := u, desc := none, geo := 0, scale := 0, mask, whole := false }

/-- The line of a site: key of its first byte. -/
def Site.line (t : Site) : Site := { t with key := t.key / 128 * 128 }

/-- Where element `i` of the line at `oa` lies, plain or scaled. -/
def elemAt (w : Nat) (a : Attr) (scaled : Bool) (oa i : Nat) : Option ElemAt :=
  if scaled then nfsLocate w a.blen.toNat a.scpl (oa / 128 * 128) i else nfLocate w i

/-- The byte at another own-space address of the same region as a site (the scale byte of a segment): the region never leaves the
page or half (R122), so the key moves with the address. -/
def State.nearByte (s : State) (site : Site) (oa target : Nat) : Byte :=
  let key := site.key + target - oa
  s.mem.viewByte (if site.enc == 0 then 0 else site.enc - oa / 128 % 2 ^ 26 + target / 128 % 2 ^ 26) key

/-- The line of that byte. -/
def State.nearLine (s : State) (site : Site) (oa target : Nat) : List Byte :=
  (List.range 128).map fun i => s.nearByte site oa (target / 128 * 128 + i)

/-- The line of that byte is poisoned (R79). -/
def State.nearPoisoned (s : State) (site : Site) (oa target : Nat) : Bool := s.mem.poisoned (site.key + target - oa)

/-- A mask of `n` bits. -/
def maskOfNat (n : Nat) (p : Nat → Bool) : BitVec 32 :=
  BitVec.ofNat 32 ((List.range n).foldl (fun acc i => if p i then acc + 2 ^ i else acc) 0)

/-- Codes, one a byte, in words. -/
def packCodes (cs : List Nat) : List Word := wordsOf 4 (cs.map fun c => BitVec.ofNat 8 c)

/-- The entry of one NF element or of a group of `n`, from the bytes of its line and the scale byte at an address (R277, R279);
`first` is the index of the first element. -/
def nfEntry (d : BitVec 24) (a : Attr) (bs : List Byte) (scaleAt : Nat → Byte) (oa : Nat) (ty : Ty) (scaled : Bool)
    (first n : Nat) (u : QUnit) : Chk QEntry :=
  let w := (Desc.of d).width
  match elemAt w a scaled oa first with
  | none => .fault 0x02 false
  | some e0 =>
    let at? (i : Nat) : Option ElemAt := elemAt w a scaled oa (first + i)
    let codes : List Nat := (List.range n).map fun i =>
      match at? i with
      | some e => bitsOf bs e.bit w
      | none => 0
    let mask := maskOfNat n fun i => (at? i).isSome
    .ok { data := if n == 1 then [BitVec.ofNat 64 (codes.headD 0)] else packCodes codes, tags := 0, ty, unit := u,
          desc := some d, geo := if scaled then a.geo else 0,
          scale := if scaled then scaleAt e0.scale else 0, mask := if n == 1 then 0 else mask, whole := false }

/-- Reads one NF element or a group. -/
def State.readNf (s : State) (site : Site) (oa : Nat) (ty : Ty) (scaled : Bool) (first n : Nat) (u : QUnit) : Chk QEntry :=
  match s.descOf site.attr with
  | none => .fault 0x05 false
  | some d =>
    if scaled && (elemAt (Desc.of d).width site.attr scaled oa first).any fun e : ElemAt => s.nearPoisoned site oa e.scale then .fault 0x0F true
    else nfEntry d site.attr (s.view site.line 128) (fun k => s.nearByte site oa k) oa ty scaled first n u

/-- The bytes of an element of a type (R27). -/
def tyBytes (ty : Ty) : Nat := tyBits ty / 8

/-- The entry of plain bytes, with the tags of their words (R279). -/
def bytesEntry (ty : Ty) (q : QUnit) (bs : List Byte) (tags : List Bool) : QEntry :=
  let t := if ty == .ref then tagBits tags else 0
  match q with
  | .element => plainEntry ty q [elemWord ty bs] t 0
  | .group => plainEntry ty q (wordsOf ((bs.length + 7) / 8) bs) t 0xFFFFFFFF#32
  | _ => plainEntry ty q (wordsOf ((bs.length + 7) / 8) bs) t 0

/-- Reads an access unit as the entry of type `ty` that R279 describes. -/
def State.readUnit (s : State) (site : Site) (oa : Nat) (ty : Ty) (u : AccUnit) (q : QUnit) : Chk QEntry :=
  match u with
  | .bytes n => .ok (bytesEntry ty q (s.view site n) (s.viewTags site ((n + 7) / 8)))
  | .elem scaled i => if i < 0 then .fault 0x02 false else s.readNf site oa ty scaled i.toNat 1 .element
  | .group scaled g => if g < 0 then .fault 0x02 false else s.readNf site oa ty scaled (32 * g.toNat) 32 .group

/-! ## Writing (R135, R147, R174, R206, R283) -/

/-- The bytes that a plain write covers; an NF write covers its line. -/
def wdataSpan (d : WData) (oa : Nat) : Nat × Nat :=
  match d with
  | .bytes bs _ => (oa, bs.length)
  | _ => (oa / 128 * 128, 128)

/-- Whether scratchpad protection refuses a write at a slot (R206): a byte lies in a binding of a valid entry of another region. -/
def State.scratchBars (s : State) (who : Requester) (n : Fin 64) (off len : Nat) : Bool :=
  who.rcb != 0 && s.cells[n].handlers.toList.any fun h =>
    h.v && s.cells[n].regs[h.reg].info.rcb != who.rcb && h.sc.toList.any fun b =>
      let nl := (b.extractLsb' 20 12).toNat
      let base := (b.extractLsb' 0 11).toNat * 128
      nl != 0 && decide (off < base + 128 * nl) && decide (base < off + len)

/-- Whether the line that a reference of the cluster names is lit and readable (R147); `none` where its page misses the TLB. -/
def State.refLit (s : State) (oa : Nat) : Option Bool :=
  match s.cl.window oa with
  | .hole | .ctl => some false
  | .ls n => some (s.lineLit (.ls n) (s.cl.lsKey n oa) oa)
  | .cis => some true
  | .dram =>
    match s.cl.translate oa with
    | .hit m a _ _ => some (a.rd && s.lineLit .dram m oa)
    | .fault => some false
    | .miss => none

/-- The first tagged word whose writing R147 does not admit: its index, and the address that it names where that page misses the
TLB. -/
def State.escapes (s : State) : List (Word × Bool) → Nat → Option (Nat × Option Nat)
  | [], _ => none
  | (w, t) :: ws, i =>
    if t && w.extractLsb' 34 30 == s.cl.place.extractLsb' 34 30 then
      match s.refLit (w.extractLsb' 0 34).toNat with
      | some true => s.escapes ws (i + 1)
      | some false => some (i, none)
      | none => some (i, some (w.extractLsb' 0 34).toNat)
    else s.escapes ws (i + 1)

/-- The check of R147 on the words of a write into a lit line. -/
def State.escapeChk (s : State) (ws : List (Word × Bool)) : Chk Unit :=
  match s.escapes ws 0 with
  | none => .ok ()
  | some (_, none) => .fault 0x07 false
  | some (_, some _) => .miss

/-- The words, with tags, that a plain write of whole words places. -/
def wdataWords : WData → List (Word × Bool)
  | .bytes bs tags => (wordsOf (bs.length / 8) bs).zip tags
  | _ => []

/-- What a port finds wrong with the data of a write at an accepted site, or `none` (R283, R302): width or descriptor, index, the
segment's scale. -/
def State.dataFault (s : State) (site : Site) (oa : Nat) : WData → Option Code
  | .bytes _ _ => none
  | .elem scaled i _ width =>
    match s.descOf site.attr with
    | none => some 0x05
    | some d =>
      let w := (Desc.of d).width
      if width.isSome && width != some w then some 0x05
      else if i < 0 then some 0x02
      else if (elemAt w site.attr scaled oa i.toNat).isNone then some 0x02
      else none
  | .group scaled g _ _ desc geo scale whole =>
    match s.descOf site.attr with
    | none => some 0x05
    | some d =>
      let w := (Desc.of d).width
      if desc.isSome && desc != some d then some 0x05
      else if scaled && desc.isSome && geo != site.attr.geo then some 0x05
      else if g < 0 then some 0x02
      else
        match elemAt w site.attr scaled oa (32 * g.toNat) with
        | none => some 0x02
        | some e =>
          if whole && e.num != 0 then some 0x05
          else if scaled && !whole && desc.isSome && s.nearPoisoned site oa e.scale then some 0x0F
          else if scaled && !whole && desc.isSome && s.nearByte site oa e.scale != scale then some 0x05
          else none

/-- Sets the tags of the words from a key: to the given tags where the page or half has tags = 1, else clear; words of which only
part is written become untagged (R81, R141, R283). -/
def Memory.putTags (m : Memory) (key : Nat) (keep : Bool) : List Bool → Memory
  | [] => m
  | t :: ts => (m.setTag key (t && keep)).putTags (key + 8) keep ts

/-- Clears the tags of the words that a run of bytes touches. -/
def Memory.clearTags (m : Memory) (key : Nat) : Nat → Memory
  | 0 => m
  | n + 1 => (m.setTag key false).clearTags (key + 1) n

/-- Performs a plain write at a site (R135). A full-line store takes poison away (R79). -/
def Memory.performBytes (m : Memory) (site : Site) (bs : List Byte) (tags : List Bool) : Memory :=
  let m1 := m.recode site.enc site.key
  let m2 := m1.setBytes site.key bs
  let m3 := if site.win == .cis then m2
    else if bs.length % 8 == 0 && tags.length == bs.length / 8 then m2.putTags site.key site.attr.tags tags
    else m2.clearTags site.key bs.length
  if bs.length == 128 then m3.setPoison site.key false else m3

/-- Writes the codes of a line's elements. -/
def putCodes (w : Nat) (locate : Nat → Option ElemAt) (mask : BitVec 32) : List (BitVec 8) → Nat → List Byte → List Byte
  | [], _, bs => bs
  | c :: cs, i, bs =>
    let bs' := if mask.getLsbD i then
        match locate i with
        | some e => setBits bs e.bit w c.toNat
        | none => bs
      else bs
    putCodes w locate mask cs (i + 1) bs'

/-- Clears the tags of the words that the written elements of a line touch. -/
def clearElems (w key : Nat) (locate : Nat → Option ElemAt) (mask : BitVec 32) : List Nat → Memory → Memory
  | [], m => m
  | i :: is, m =>
    let m' := if mask.getLsbD i then
        match locate i with
        | some e => (m.setTag (key + e.bit / 8) false).setTag (key + (e.bit + w - 1) / 8) false
        | none => m
      else m
    clearElems w key locate mask is m'

/-- Performs an accepted write at a site (R135, R174): one event for all its bytes. A segment that `vpacks` writes keeps the bits after
its last element (R304; DEDUCED, log 89). -/
def State.performAt (s : State) (site : Site) (oa : Nat) (d : WData) : Memory :=
  match d with
  | .bytes bs tags => s.mem.performBytes site bs tags
  | .elem scaled i code _ =>
    match s.descOf site.attr with
    | none => s.mem
    | some dd =>
      let w := (Desc.of dd).width
      match elemAt w site.attr scaled oa i.toNat with
      | none => s.mem
      | some e =>
        let line := site.line
        let bs := setBits (s.view line 128) e.bit w code.toNat
        let lo := e.bit / 8
        let n := (e.bit % 8 + w + 7) / 8
        s.mem.performBytes { line with key := line.key + lo } ((bs.drop lo).take n) []
  | .group scaled g codes mask _ _ scale whole =>
    match s.descOf site.attr with
    | none => s.mem
    | some dd =>
      let w := (Desc.of dd).width
      let first := 32 * g.toNat
      let line := site.line
      let bs := putCodes w (fun i => elemAt w site.attr scaled oa (first + i)) mask codes 0 (s.view line 128)
      let m1 := (s.mem.recode line.enc line.key).setBytes line.key bs
      let m2 := if site.win == .cis then m1
        else clearElems w line.key (fun i => elemAt w site.attr scaled oa (first + i)) mask (List.range 32) m1
      match whole, elemAt w site.attr scaled oa first with
      | true, some e =>
        let k := site.key + e.scale - oa
        let enc := if site.enc == 0 then 0 else site.enc - oa / 128 % 2 ^ 26 + e.scale / 128 % 2 ^ 26
        (((m2.recode enc k).setByte k scale).setTag k false)
      | _, _ => m2

/-- The address of the scale byte that a store of a whole segment writes beside its codes (R304). -/
def State.scaleByte (s : State) (site : Site) (oa : Nat) (d : WData) : Option Nat :=
  match d with
  | .group scaled g _ _ _ _ _ true =>
    (s.descOf site.attr).bind fun dd => (elemAt (Desc.of dd).width site.attr scaled oa (32 * g.toNat)).map fun e => e.scale
  | _ => none

/-- Whether a store, `sp` or commit at an accepted site meets scratchpad protection (R206). -/
def State.slotBars (s : State) (who : Requester) (kind : AccKind) (site : Site) (oa : Nat) (d : WData) : Bool :=
  let sp := wdataSpan d oa
  match site.win with
  | .ls n =>
    (kind == .store || kind == .engWrite) &&
      (s.scratchBars who n (sp.1 % 0x40000) sp.2 || (s.scaleByte site oa d).any fun a => s.scratchBars who n (a % 0x40000) 1)
  | _ => false

/-- What a write request meets at its port: the site where it is accepted (R284: rows 4 to 7, R147, R206, R283), or a fault with,
for an escape, the offset of the first failing word. -/
def State.checkWrite (s : State) (who : Requester) (kind : AccKind) (oa : Nat) (d : WData) : Chk Site :=
  (s.checkPort who kind oa).bind fun site =>
    Chk.need (!s.slotBars who kind site oa d) 0x05 <|
    match s.dataFault site oa d with
    | some c => .fault c (c == 0x0F)
    | none =>
      if site.attr.tags && s.lineLit site.win site.key oa then (s.escapeChk (wdataWords d)).bind fun _ => .ok site
      else .ok site

/-- Where a write misses the TLB: at its own address, or at a reference that it carries, `true` then. -/
def State.writeMiss (s : State) (who : Requester) (kind : AccKind) (oa : Nat) (d : WData) : Nat × Bool :=
  match s.checkPort who kind oa, s.escapes (wdataWords d) 0 with
  | .ok _, some (_, some r) => (r, true)
  | _, _ => (oa, false)

/-- The offset in a write of the first word that R147 refuses (R343). -/
def State.escapeOff (s : State) (d : WData) : Nat :=
  match s.escapes (wdataWords d) 0 with
  | some (i, _) => 8 * i
  | none => 0

end Sys2Proof.Machine
end

