-- ==== Sys2Proof/Machine/Link.lean ====
section
/-!
DEFINITION. The fabric registers (R414), flits (R421), the frames of far links (R426) and their sessions (R428, R429, R451), as the package
holds them. Byte orders and layouts inside a payload that the rules do not give are those of logs 52 and 122.
-/
namespace Sys2Proof.Machine

def b1 (x : Bool) : BitVec 1 := if x then 1#1 else 0#1

/-! ## Fabric registers (R414 to R424) -/

/-- What a fabric register reads as at reset, by its byte offset (R414 to R424). -/
def fabDefault (off : Nat) : Word :=
  if off < 0x100 then 0x00FF400000000000#64
  else if off == 0x118 then 0x0000000800000000#64
  else if 0x800 ≤ off && off < 0x1000 then 0xFF00000000000000#64
  else if 0x1000 ≤ off && off < 0x1400 then 0x0003FFFF0003FFFF#64
  else 0

/-- A fabric register as it stands, and as it is written. -/
def Package.fabWord (p : Package) (off : Nat) : Word := lookupAt (fabDefault off) off p.fab
def Package.setFab (p : Package) (off : Nat) (v : Word) : Package := { p with fab := insertAt (fabDefault off) off v p.fab }

/-- A port's register and its fields (R415). -/
def portEn (w : Word) : Bool := w.getLsbD 63
def portMode (w : Word) : BitVec 2 := w.extractLsb' 61 2
def Package.port (p : Package) (j : Fin 32) : Word := p.fabWord (8 * j.val)

/-- A word of an entry of the far peer table, and the valid entry for a physical package (R427). -/
def Package.peerWord (p : Package) (e i : Nat) : Word := p.fabWord (0x40000 + 64 * e + 8 * i)
def Package.farPeer (p : Package) (ppkg : BitVec 18) : Option Nat :=
  (List.range 1024).find? fun e => (p.peerWord e 0).getLsbD 63 && (p.peerWord e 0).extractLsb' 0 18 == ppkg

/-! ## Random draws (R446) -/

/-- A draw from the noise source: a failed test is repeated after a reseed, up to three times. -/
def Package.drawKey (p : Package) : Option Nat × Package :=
  match (List.range 4).find? fun i => Config.rngHealthy (p.draws + i) with
  | some i => (some (p.draws + i), { p with draws := p.draws + i + 1 })
  | none => (none, { p with draws := p.draws + 4 })

def State.drawKey (s : State) : Option Nat × State := (s.pkg.drawKey.1, { s with pkg := s.pkg.drawKey.2 })

/-! ## Bytes -/

/-- One byte of the CRC-64 with the polynomial of ECMA-182, most significant bit first. -/
def crcByte (c : Word) (b : Byte) : Word :=
  (List.range 8).foldl (fun (x : Word) (_ : Nat) =>
    if x.getLsbD 63 then (x <<< 1) ^^^ 0x42F0E1EBA9EA3693#64 else x <<< 1) (c ^^^ (b.setWidth 64 <<< 56))

/-- The CRC-64 of ECMA-182 (R421): from 0, with no reflection and no final inversion (DEDUCED, log 52). -/
def crc64 (bs : List Byte) : Word := bs.foldl crcByte 0

/-- The bytes that fall to the `i`-th of `n` lanes, over which they are striped in turn (R421). -/
def stripe (n i : Nat) (bs : List Byte) : List Byte := (bs.zipIdx.filter fun x : Byte × Nat => x.2 % n == i).map fun x => x.1

/-- The body of a control flit: what it is, and two or three numbers (log 52). -/
def controlBody (what : Nat) (l : List Nat) : List Byte := (what :: l).flatMap (leBytes 8)
/-- The byte order of the network. -/
def beBytes (n v : Nat) : List Byte := (leBytes n v).reverse

/-- The ones' complement sum of 16-bit words of bytes, complemented, as IPv4 and UDP have it. -/
def pairsOf : List Byte → List Nat
  | a :: b :: l => (256 * a.toNat + b.toNat) :: pairsOf l
  | [a] => [256 * a.toNat]
  | [] => []
def inetSum (bs : List Byte) : BitVec 16 :=
  let n := (pairsOf bs).foldl (fun (x y : Nat) => x + y) 0
  ~~~(BitVec.ofNat 16 (if n == 0 then 0 else (n - 1) % 65535 + 1))

end Sys2Proof.Machine

namespace Sys2Proof
open Machine

/-! ## Flits (R421) -/

/-- The header of a flit (R421). -/
def Flit.header (f : Flit) : Word :=
  (f.dst ++ f.src ++ f.cls ++ b1 f.rly ++ b1 f.last ++ 0#4 ++ f.seq : BitVec 64)

/-- Bytes 0 to 239 of a flit, and the flit that they are. -/
def Flit.bytes (f : Flit) : List Byte := bytesOf f.header ++ (f.body ++ List.replicate 232 0).take 232
def Flit.ofBytes (bs : List Byte) : Flit :=
  let h := wordOf (bs.take 8)
  { dst := h.extractLsb' 46 18, src := h.extractLsb' 28 18, cls := h.extractLsb' 26 2, rly := h.getLsbD 25, last := h.getLsbD 24,
    seq := h.extractLsb' 0 20, body := (bs.drop 8).take 232 }

/-- The 32 words of a flit: header and payload, CRC-64 and FEC check (R421). -/
def Flit.words (f : Flit) : List Word :=
  let ws := wordsOf 30 f.bytes ++ [crc64 f.bytes]
  ws ++ [Config.fecCheck ws]

/-- A flit that arrives passes its check (R422): the FEC has left nothing wrong. -/
def RxCheck.ok (x : RxCheck) (f : Flit) : Bool := x.crc == crc64 f.bytes

def Flit.control (f : Flit) : Nat := leNat (f.body.take 8)
def Flit.number (f : Flit) (i : Nat) : Nat := leNat ((f.body.drop (8 + 8 * i)).take 8)

/-! ## Frames (R426) -/

/-- The additional authenticated data: bytes 0 to 15 of the payload. -/
def FarFrame.aad (f : FarFrame) : List Byte := leBytes 4 f.sid.toNat ++ leBytes 8 f.counter ++ leBytes 2 f.n ++ leBytes 2 f.zero.toNat
def FarFrame.payload (f : FarFrame) : List Byte := f.aad ++ f.cipher ++ leBytes 16 f.tag.toNat
def FarFrame.addrBytes (f : FarFrame) (a : BitVec 128) : List Byte := beBytes (if f.v6 then 16 else 4) a.toNat

/-- The UDP datagram with a checksum, and the checksum that IPv6 asks for; IPv4 sends 0. -/
def FarFrame.udp (f : FarFrame) (sum : BitVec 16) : List Byte :=
  beBytes 2 f.sport.toNat ++ beBytes 2 f.dport.toNat ++ beBytes 2 (8 + f.payload.length) ++ beBytes 2 sum.toNat ++ f.payload
def FarFrame.udpSum (f : FarFrame) : BitVec 16 :=
  if !f.v6 then 0
  else
    let x := inetSum (f.addrBytes f.src ++ f.addrBytes f.dst ++ beBytes 4 (8 + f.payload.length) ++ beBytes 4 17 ++ f.udp 0)
    if x == 0 then 0xFFFF#16 else x

/-- The IP header: IPv4 without options and with DF set, or IPv6 without extension headers. -/
def FarFrame.ip (f : FarFrame) : List Byte :=
  let len := 8 + f.payload.length
  if f.v6 then [0x60, 0, 0, 0] ++ beBytes 2 len ++ [17, Config.ttl] ++ f.addrBytes f.src ++ f.addrBytes f.dst
  else
    let head (sum : BitVec 16) : List Byte :=
      [0x45, 0] ++ beBytes 2 (20 + len) ++ [0, 0, 0x40, 0] ++ [Config.ttl, 17] ++ beBytes 2 sum.toNat ++ f.addrBytes f.src ++ f.addrBytes f.dst
    head (inetSum (head 0))

/-- The bytes of a frame: Ethernet, at most one 802.1Q tag, IP, UDP. -/
def FarFrame.bytes (f : FarFrame) : List Byte :=
  beBytes 6 f.dmac.toNat ++ beBytes 6 f.smac.toNat ++ (f.vlan.flatMap fun t => [0x81, 0x00] ++ beBytes 2 t.toNat) ++
    (if f.v6 then [0x86, 0xDD] else [0x08, 0x00]) ++ f.ip ++ f.udp f.checksum

/-- Whether a frame is of a form that R426 supports: fragments, options, a second tag and a wrong checksum are not. -/
def FarFrame.formOk (f : FarFrame) : Bool :=
  decide (f.vlan.length ≤ 1) && !f.options && !f.fragment && (f.v6 || f.df) && f.checksum == f.udpSum && f.zero == 0 &&
  f.cipher.length == 240 * f.n

/-- The peer entry whose session a frame names: a session's own identifier is its entry (log 122). -/
def FarFrame.peer (f : FarFrame) : Nat := f.sid.toNat

end Sys2Proof

namespace Sys2Proof.Machine

/-! ## Streams and queues of own flits (R420) -/

/-- The next sequence number of a stream of this package (R420), and the stream after `k` flits. -/
def Package.txSeq (p : Package) (dst : BitVec 18) (cls : BitVec 2) : BitVec 20 :=
  match p.txNext.find? fun x : BitVec 18 × BitVec 2 × BitVec 20 => x.1 == dst && x.2.1 == cls with
  | some x => x.2.2
  | none => 0
def Package.txPast (p : Package) (dst : BitVec 18) (cls : BitVec 2) (k : Nat) : List (BitVec 18 × BitVec 2 × BitVec 20) :=
  (dst, cls, p.txSeq dst cls + BitVec.ofNat 20 k) ::
    p.txNext.filter fun x : BitVec 18 × BitVec 2 × BitVec 20 => !(x.1 == dst && x.2.1 == cls)

/-- The flits of 232 payload bytes that a message fills (R421), and those flits in their stream's order. -/
def flitCount (bytes : List Byte) : Nat := (bytes.length - 1) / 232 + 1
def Package.flitsOf (p : Package) (dst : BitVec 18) (cls : BitVec 2) (bytes : List Byte) : List Flit :=
  let k := flitCount bytes
  (List.range k).map fun i =>
    { dst, src := p.ppkg, cls, rly := false, last := i + 1 == k, seq := p.txSeq dst cls + BitVec.ofNat 20 i,
      body := (bytes.drop (232 * i)).take 232 }

/-- A message is queued for a package as flits; `no` takes its refusal where an intermediate that holds one is lost. -/
def Package.queueFlits (p : Package) (dst : BitVec 18) (cls : BitVec 2) (bytes : List Byte) (no : Option Todo) : Package :=
  { p with tx := p.tx ++ (p.flitsOf dst cls bytes).map fun flit => { flit, via := none, no }
           txNext := p.txPast dst cls (flitCount bytes) }

/-! ## Frames of this package (R426) -/

/-- The nonce: the salt, then the counter. -/
def frameNonce (salt : BitVec 32) (counter : Nat) : BitVec 96 := salt ++ BitVec.ofNat 64 counter
/-- AES-256-GCM over bytes: the same both ways. -/
def gcmBytes (key : BitVec 256) (nonce : BitVec 96) (bs : List Byte) : List Byte :=
  bs.zipIdx.map fun x : Byte × Nat => x.1 ^^^ Config.gcmStream key nonce x.2

/-- The flits that one frame of a far peer may carry (R426). -/
def Package.frameFlits (p : Package) (e : Nat) : Nat :=
  let ip := if (p.peerWord e 0).getLsbD 57 then 40 else 20
  (min 9216 (max 1500 Config.mtu) - ip - 40) / 240

/-- An address of a peer entry, its first word the low half. -/
def Package.peerAddr (p : Package) (e i : Nat) : BitVec 128 :=
  if (p.peerWord e 0).getLsbD 57 then p.peerWord e (i + 1) ++ p.peerWord e i else ((p.peerWord e i).extractLsb' 0 32).setWidth 128

/-- The frame that carries flits for a peer under a counter, as its entry addresses it. -/
def Package.frameFor (p : Package) (x : FarSess) (counter : Nat) (flits : List Flit) : FarFrame :=
  let w := p.peerWord x.peer 0
  let n := frameNonce x.keys.sendSalt counter
  let f : FarFrame :=
    { port := w.extractLsb' 58 5, dmac := (p.peerWord x.peer 1).extractLsb' 0 48, smac := (p.peerWord x.peer 2).extractLsb' 0 48,
      vlan := if w.getLsbD 56 then [(w.extractLsb' 44 12).setWidth 16] else [], v6 := w.getLsbD 57, options := false, df := true,
      fragment := false, src := p.peerAddr x.peer 6, dst := p.peerAddr x.peer 4, sport := (p.peerWord x.peer 3).extractLsb' 16 16,
      dport := (p.peerWord x.peer 3).extractLsb' 0 16, checksum := 0, sid := (x.hello.map fun h => h.sid).getD 0, counter,
      n := flits.length, zero := 0, cipher := gcmBytes x.keys.sendKey n (flits.flatMap Flit.bytes), tag := 0 }
  let g := { f with tag := Config.gcmTag x.keys.sendKey n f.aad f.cipher }
  { g with checksum := g.udpSum }

/-! ## Sessions (R428, R429, R451) -/

def Package.setSess (p : Package) (x : FarSess) : Package :=
  { p with sess := p.sess.filter (fun y : FarSess => y.peer != x.peer) ++ [x] }

/-- The session of a peer entry, where it is up. -/
def Package.upSess (p : Package) (e : Nat) : Option FarSess := p.sess.find? fun x : FarSess => x.peer == e && x.st == .up

/-- The keys and salts of a session from a secret and the two nonces (R451); the package with the lower identity takes the first of each
for what it sends, and its nonce stands first (log 122). -/
def sessKeys (secret mine peers : BitVec 256) (lower : Bool) : SessKeys :=
  let salt := if lower then leBytes 32 mine.toNat ++ leBytes 32 peers.toNat else leBytes 32 peers.toNat ++ leBytes 32 mine.toNat
  let out (i : Nat) : BitVec 256 := Config.hkdf secret salt i
  if lower then { sendKey := out 0, recvKey := out 1, sendSalt := (out 2).setWidth 32, recvSalt := (out 3).setWidth 32 }
  else { sendKey := out 1, recvKey := out 0, sendSalt := (out 3).setWidth 32, recvSalt := (out 2).setWidth 32 }

/-- The keys that a draw gives with what a peer has sent. -/
def Package.keysFor (p : Package) (e k : Nat) (h : PeerHello) : SessKeys :=
  sessKeys (Config.sharedSecret k h.kem) (Config.farNonce k) h.nonce (decide (p.ppkg < (p.peerWord e 0).extractLsb' 0 18))

/-- A session that fails for want of a key, and one that a draw rekeys: both keys are accepted for now. -/
def FarSess.noKey (x : FarSess) : FarSess := { x with st := .failed, fcode := 0x13 }
def Package.rekeyed (p : Package) (x : FarSess) (k : Nat) : FarSess :=
  match x.hello with
  | some h => { x with st := .rekeying, keys := p.keysFor x.peer k h, old := some x.keys }
  | none => { x with st := .rekeying, old := some x.keys }

/-- A frame leaves under the next counter; it is awaited where it carries more than acknowledgements. -/
def Package.sendFrame (p : Package) (x : FarSess) (flits : List Flit) (resends : Nat) : Package :=
  let c := x.sent + 1
  let kept := if flits.all fun f : Flit => f.cls == 2 then x.unacked else x.unacked ++ [{ counter := c, resends, flits }]
  { p.setSess { x with sent := c, unacked := kept } with frames := p.frameFor x c flits :: p.frames }

/-- A session rekeys (R428, R446): a key is drawn, and a frame under it tells the peer (log 122). -/
def Package.rekey (p : Package) (x : FarSess) : Package :=
  let (k, q) := p.drawKey
  match k with
  | none => q.setSess x.noKey
  | some k => if p.secHeld then q.setSess x.noKey else q.sendFrame (p.rekeyed x k) [] 0

/-- A session whose counter has come to a multiple of 2^40 since it stood at `n` rekeys. -/
def Package.keepKey (p : Package) (e n : Nat) : Package :=
  match p.upSess e with
  | some x => if n / 2 ^ 40 < x.sent / 2 ^ 40 then p.rekey x else p
  | none => p

/-- Cuts a list into runs of `n`, for at most `k` runs. -/
def chunks {α : Type} (n : Nat) : Nat → List α → List (List α)
  | 0, _ => []
  | k + 1, l => if l.isEmpty then [] else l.take n :: chunks n k (l.drop n)

/-- Flits leave for a peer whose session is up, in frames. -/
def Package.sendFrames (p : Package) (e : Nat) (flits : List Flit) : Package :=
  match p.upSess e with
  | none => p
  | some x =>
    let q := (chunks (p.frameFlits e) flits.length flits).foldl (fun (q : Package) (fs : List Flit) =>
      match q.upSess e with
      | some y => q.sendFrame y fs 0
      | none => q) p
    q.keepKey e x.sent

/-- A message for a package over a far link: in frames of its session where that is up; else it waits for it. With no valid peer entry the
fabric refuses it. -/
def Package.carryFar (p : Package) (cls : BitVec 2) (m : OutMsg) (no : Option Todo) (bytes : List Byte) : Package :=
  match p.farPeer m.route.ppkg with
  | none => p
  | some e =>
    if (p.upSess e).isNone then { p with farWait := p.farWait ++ [{ peer := e, cls, msg := m, no }] }
    else { p.sendFrames e (p.flitsOf m.route.ppkg cls bytes) with txNext := p.txPast m.route.ppkg cls (flitCount bytes) }

/-- What the fabric does with a message that goes a way (R427, R428). -/
def Package.fateOf (p : Package) (r : Route) : LinkFate :=
  match r.farTo with
  | none => .gone
  | some q =>
    match p.farPeer q with
    | none => .refused
    | some e => if (p.upSess e).isSome then .gone else .waits

/-- Whether a frame verifies under the keys, and its flits. -/
def SessKeys.opens (k : SessKeys) (f : FarFrame) : Bool :=
  f.tag == Config.gcmTag k.recvKey (frameNonce k.recvSalt f.counter) f.aad f.cipher
def SessKeys.flits (k : SessKeys) (f : FarFrame) : List Flit :=
  let bs := gcmBytes k.recvKey (frameNonce k.recvSalt f.counter) f.cipher
  (List.range f.n).map fun i => Flit.ofBytes ((bs.drop (240 * i)).take 240)

/-- Whether a session takes a frame: its tag, and the 4,096-frame window. -/
def FarSess.takes (x : FarSess) (f : FarFrame) : Bool :=
  (x.st == .up || x.st == .rekeying) && (x.keys.opens f || (x.old.any fun k : SessKeys => k.opens f)) &&
  !x.seen.contains f.counter && decide (x.top < f.counter + 4096)

/-- The keys under which a frame that is taken verifies. -/
def FarSess.keyOf (x : FarSess) (f : FarFrame) : SessKeys := if x.keys.opens f then x.keys else x.old.getD x.keys

/-- The session after a frame that it takes: the first one under the new key ends a rekey. -/
def FarSess.taken (x : FarSess) (f : FarFrame) : FarSess :=
  let top := max x.top f.counter
  let y := { x with top, seen := f.counter :: x.seen.filter fun c => decide (top < c + 4096) }
  if x.st == .rekeying && x.keys.opens f then { y with st := .up, old := none } else y

def FarSess.dropped (x : FarSess) : FarSess := { x with drop := min (2 ^ 48 - 1) (x.drop + 1) }

end Sys2Proof.Machine
end

