-- ==== Sys2Proof/Machine/Ops.lean ====
section
/-!
DEFINITION. The named operations of the machine: slots, registers and pointers; what leaves; event queue, notices and watches; a
cluster write with all that follows it; the TLB miss; and taking a trap (R245, R343 to R347), with parking and ending an activation
(R63, R64, R340), as one shared operation. The return from a trap (R349) stands beside it.
-/
namespace Sys2Proof.Machine

/-! ## Registers of the activation in service -/

def State.setAct (s : State) (a : Act) : State := { s with act := a }
def State.mapAct (s : State) (f : Act → Act) : State := { s with act := f s.act }

/-- A pointer's value, and setting value, tag and whole pointers (R261). -/
def State.pv (s : State) (r : PReg) : Word := s.act.p[r].val
def Act.setP (a : Act) (r : PReg) (q : Ptr) : Act := { a with p := a.p.set r q }
/-- A result of pointer arithmetic: the tag is clear and the step kept (R141, R263). -/
def Act.setPVal (a : Act) (r : PReg) (v : Word) : Act := a.setP r { a.p[r] with val := v, tag := false }
/-- A pointer's value as a tagged word (R141). -/
def Ptr.tword (p : Ptr) : TWord := { val := p.val, tag := p.tag }

/-- A, F, V and K results (R290): writing V clears vtag. -/
def Act.setAF (a : Act) (o : AOut) : Act := { a with a := o.a, f := o.f }
def Act.setA (a : Act) (w : Word) : Act := { a with a := w }
def Act.setV (a : Act) (v : Vector (BitVec 32) 32) : Act := { a with v := v, vtag := 0 }

/-- The 32-lane vector of a list, zero where the list ends. -/
def vecOf (l : List (BitVec 32)) : Vector (BitVec 32) 32 := Vector.ofFn fun i => l.getD i.val 0

/-! ## Slots -/

def slotIdx : SlotId → Fin 5
  | .gen n => ⟨n.val, by omega⟩
  | .atomic => 4

def slotOfIdx (i : Fin 5) : SlotId := if h : i.val < 4 then .gen ⟨i.val, h⟩ else .atomic

/-- The context of a slot: the slot in service stands in `act`. -/
def State.slotAct (s : State) (i : Fin 5) : Act := if i = s.cur then s.act else s.slots[i]
def State.setSlot (s : State) (i : Fin 5) (a : Act) : State :=
  if i = s.cur then { s with act := a } else { s with slots := s.slots.set i a }
def State.mapSlot (s : State) (i : Fin 5) (f : Act → Act) : State := s.setSlot i (f (s.slotAct i))

/-- Puts a slot in service. -/
def State.switchTo (s : State) (i : Fin 5) : State :=
  if i = s.cur then s else { s with slots := s.slots.set s.cur s.act, act := s.slots[i], cur := i }

/-- The general slot in service, as the trap record numbers it (R343). -/
def State.slotNo (s : State) : Fin 4 := Fin.ofNat 4 s.cur.val
def State.inAtomic (s : State) : Bool := s.cur == 4

/-- Lets every slot try again: something has happened that a waiting instruction may have waited for. -/
def State.unblock (s : State) : State :=
  { s with act := { s.act with blocked := false },
           slots := Vector.ofFn fun i : Fin 5 => { s.slots[i] with blocked := false } }

/-- The instruction waits: it is tried again when something has happened. -/
def State.stall (s : State) : Out := .next { s with act := { s.act with blocked := true, stalled := true } }

/-- As `stall`, remembering what it waits for. -/
def State.waitIn (s : State) (ph : Phase) : Out :=
  .next { s with act := { s.act with blocked := true, stalled := true, phase := ph } }

/-- The next turn among the slots' accesses that wait at a port (R83). -/
def State.nextTurn (s : State) : Nat :=
  (List.finRange 5).foldl (fun n i => max n (((s.slotAct i).atPort.map fun w : PortWait => w.turn + 1).getD 0)) 0

/-- The slot's access waits at a port, at an own-space address. -/
def State.atPortOf (s : State) (oa : Nat) : State := { s with act := { s.act with atPort := some { oa, old := none, turn := s.nextTurn } } }

/-- As `stall`, for an access that a port makes wait at an own-space address. -/
def State.stallAt (s : State) (oa : Nat) : Out := (s.atPortOf oa).stall

/-! ## Completion (R274) -/

/-- The PC and loop state after the word at PC completes without a branch (R274). -/
def Act.nextPc (a : Act) : Act :=
  if a.loop.count != 0 && a.pc == a.loop.stop then
    let n := a.loop.count - 1
    if n != 0 then { a with pc := a.loop.start, loop := { a.loop with count := n } }
    else { a with pc := a.pc + 4, loop := LoopState.zero }
  else { a with pc := a.pc + 4 }

/-- What completion leaves behind whatever the next PC: no prefix, no phase, nothing waiting. -/
def Act.settled (a : Act) : Act :=
  { a with pfx := none, phase := .none, stalled := false, blocked := false, atPort := none, first := none, early := false }

/-- An instruction completes: in order it moves the PC; one of the execute half's own queue leaves that queue (R247). -/
def State.done1 (s : State) : State :=
  let a := s.act
  if a.drain then { s with act := { a with exq := a.exq.tail, drain := false, blocked := false } }
  else { s with act := a.nextPc.settled }

/-- Completion as an outcome. -/
def State.finish (s : State) : Out := .next s.done1

/-- Completion of an instruction on which other slots may have waited. -/
def State.finishAll (s : State) : Out := .next s.done1.unblock

/-- Completion with a branch to `pc` (R266, R275). -/
def State.jumpTo (s : State) (pc : Word) : State := { s with act := { s.act.settled with pc := pc } }

/-! ## Places and requesters -/

/-- The host's management mailbox as a requester. -/
def isHost (w : Requester) : Bool := w.remote && w.lcell == 0x7FFF#15 && w.place == 0

/-- What a request of a home or a cell outside the cluster meets before anything else: a cluster in hold, which answers retry (R462), the
lookup at this package (R37), and the partition (R107, R108). -/
def State.turnsAway (s : State) (who : Requester) : Option Code :=
  if isHost who then none
  else if who.remote && s.cl.power == .hold then some 0x0C
  else match s.arrivalFault who with
    | some c => some c
    | none => if s.foreign who then some 0x05 else none

/-- Traffic from outside waits while a change of frequency stops the cluster (R462). -/
def State.stopsFor (s : State) (who : Requester) : Bool := who.remote && !isHost who && s.cl.clockStop

/-- The own-space form (R9). -/
def isOwn (a : Word) : Bool := a.extractLsb' 34 30 == 0
/-- The address-form check of R9 and R12: own-space, or pod form with bits [35:34] clear. -/
def formOk (a : Word) : Bool := isOwn a || (a.getLsbD 63 && a.extractLsb' 34 2 == 0)
/-- The pod prefix of an address (R11): bits [63:36]. -/
def prefixOf (a : Word) : Word := (a.extractLsb' 36 28 ++ 0#36 : BitVec 64)
/-- An address as the pod names it: an own-space one lies in this cluster (R11, R14, R199). -/
def State.podOf (s : State) (a : Word) : Word := if isOwn a then prefixOf s.cl.place ||| a else a
/-- The own-space part of an address (R11). -/
def oaOf (a : Word) : Nat := (a.extractLsb' 0 34).toNat

def State.lclu (s : State) : BitVec 9 := s.cl.place.extractLsb' 36 9
/-- The logical number of a cell of this cluster (R31). -/
def State.lcellOf (s : State) (n : Fin 64) : BitVec 15 := s.lclu ++ BitVec.ofNat 6 n.val
def State.lcell (s : State) : BitVec 15 := s.lcellOf s.self

/-- The modelled cell's registers. -/
def State.me (s : State) : CellRegs := s.cells[s.self]
def State.setCell (s : State) (n : Fin 64) (c : CellRegs) : State := { s with cells := s.cells.set n c }
def State.mapMe (s : State) (f : CellRegs → CellRegs) : State := s.setCell s.self (f s.me)
/-- The region-table entry of the activation in service (R203). -/
def State.regEntry (s : State) : RegEntry := s.me.regs[s.act.reg]
def State.rcb (s : State) : Word := s.regEntry.info.rcb
def State.mapReg (s : State) (r : Fin 8) (f : RegEntry → RegEntry) : State :=
  s.mapMe fun c => { c with regs := c.regs.set r (f c.regs[r]) }

/-- The modelled cell is the translation service cell (R32). -/
def State.isService (s : State) : Bool := s.self == 63

/-- The activation in service as a requester (R62, R108, R436). -/
def State.requester (s : State) : Requester :=
  { remote := false, lcell := s.lcell, place := s.cl.place, ptn := s.cl.ptn, cmpt := s.cl.cmpt, engine := s.inAtomic,
    rid := s.cur.val, rcb := s.rcb, atomic := s.inAtomic }

/-- An engine or the home of the cluster as a requester. -/
def State.deviceReq (s : State) : Requester :=
  { remote := false, lcell := 0x7FFF#15, place := s.cl.place, ptn := s.cl.ptn, cmpt := s.cl.cmpt, engine := true, rid := 0,
    rcb := 0 }

/-- The modelled cell's own hardware as a requester: its trap records and frames, and its pump (R60, R211, R344). -/
def State.cellReq (s : State) : Requester := { s.deviceReq with lcell := s.lcell }

/-- Whether an address names this cluster: own-space, or a pod address with the own prefix (R14). -/
def State.isHere (s : State) (a : Word) : Bool := isOwn a || prefixOf a == prefixOf s.cl.place

/-! ## What leaves, and what the cluster does by itself -/

/-- Word `n` of the package table, 32 bits (R35). -/
def State.pkgEntry (s : State) (n : Nat) : BitVec 32 :=
  BitVec.ofNat 32 (leNat (s.mem.bytesAt (s.cl.pkgbase.toNat + 4 * n) 4))

/-- Where the place tables send a message for a place (R30): by the cluster map in the own package, else by the package table. -/
def State.routeOf (s : State) (place : Word) : Route :=
  let lpkg := place.extractLsb' 45 18
  if !place.getLsbD 63 then { away := false, far := false, ppkg := s.pkg.ppkg, die := s.cl.die, pclu := s.cl.pclu }
  else if lpkg == s.cl.place.extractLsb' 45 18 then
    let e := s.cl.map[(place.extractLsb' 36 9).toFin]
    { away := false, far := false, ppkg := s.pkg.ppkg, die := e.extractLsb' 6 3, pclu := e.extractLsb' 0 6 }
  else
    let e := s.pkgEntry lpkg.toNat
    { away := true, far := e.getLsbD 29, ppkg := e.extractLsb' 0 18, die := 0, pclu := 0 }

/-- A message as it passes its sender's lookup: it carries the partition and the compartment (R108, R436) and its physical place (R30, R40). -/
def State.addressed (s : State) (m : OutMsg) : OutMsg :=
  let r := s.routeOf m.place
  { m with ptn := s.cl.ptn, cmpt := s.cl.cmpt, route := r, fate := s.pkg.fateOf r }

/-- The bytes in which a message crosses the fabric (R421). -/
def OutMsg.bytes (m : OutMsg) : List Byte :=
  Config.packed [m.kind.ctorIdx, m.place.toNat, m.addr.toNat, m.rid, m.chan.toNat, m.tok.toNat, m.held.toNat, m.code.toNat, m.ptn.toNat,
    m.cmpt.toNat, m.src.toNat] (m.words.map fun w => w.val) (m.words.map fun w => w.tag)

/-- The package after a message has been handed to its fabric: one for another package is queued as flits, or leaves in frames of a
far session. -/
def State.carry (s : State) (cls : BitVec 2) (m : OutMsg) (no : Option Todo) : Package :=
  if !m.route.away then s.pkg
  else if m.route.far then s.pkg.carryFar cls m no m.bytes
  else s.pkg.queueFlits m.route.ppkg cls m.bytes no

/-- An addressed message is handed over. -/
def State.release (s : State) (cls : BitVec 2) (m : OutMsg) (no : Option Todo) : State :=
  { s with out := m :: s.out, pkg := s.carry cls m no }

/-- A message leaves the modelled part; `no` takes its refusal where an intermediate that holds it is lost (R420). -/
def State.emitAs (s : State) (cls : BitVec 2) (m : OutMsg) (no : Option Todo) : State := s.release cls (s.addressed m) no

def State.emit (s : State) (m : OutMsg) : State := s.emitAs 0 m none

/-- A message that carries little more than a kind and an address. -/
def outMsg (kind : OutKind) (place addr : Word) (rid : Nat) (code : Code) (words : List Word) : OutMsg :=
  { kind, place, addr, rid, chan := 0, tok := 0, held := 0, code, words := words.map fun w => { val := w, tag := false } }

def State.push (s : State) (t : Todo) : State := { s with agenda := s.agenda ++ [t] }

/-- A hardware notice to a channel of a cell of this cluster from the sender `src` (R207). -/
def State.noticeFrom (s : State) (src : BitVec 15) (cell : Fin 64) (chan : BitVec 5) (words : List TWord) : State :=
  let m : Msg := { kind := .notice, chan, spw := false, held := false, src, dst := s.lcellOf cell,
                   spkg := s.cl.place.extractLsb' 45 18, tok := 0, words }
  if cell = s.self then s.push (.message { who := s.deviceReq, msg := m, tok := 0 })
  else s.emit { kind := .notice, place := s.cl.place, addr := BitVec.ofNat 64 cell.val, rid := 0, chan, tok := 0, held := 0,
                code := 0, words, src }

/-- A notice of the home. -/
def State.notice (s : State) (cell : Fin 64) (chan : BitVec 5) (words : List TWord) : State := s.noticeFrom 0x7FFF#15 cell chan words

/-- A fresh number for a request. -/
def State.freshRid (s : State) : Nat × State := (s.nextRid, { s with nextRid := s.nextRid + 1 })

/-- A free value (an unstated word), and the next number. -/
def State.freeWord (s : State) : Word × State := (Config.freeWord s.free, { s with free := s.free + 1 })

/-- The slots of the package's hold queue that a partition holds now (R192): those of the modelled cluster count for its partition. -/
def Cluster.holdUsed (cl : Cluster) (p : BitVec 24) : Nat :=
  (cl.hold.filter fun e : HoldEnt => (e.held.other.map fun x => x.2).getD cl.ptn == p).length

/-! ## The cluster event queue (R102 to R106) -/

/-- Cells that take the event notices: those with a valid channel 0 entry of a region whose control cell is that cell (R105). -/
def State.eventCells (s : State) : List (Fin 64) :=
  (List.finRange 64).filter fun n =>
    let h := s.cells[n].handlers[0]
    h.v && s.cells[n].regs[h.reg].info.ctlc.toNat == n.val

/-- Sends the event notice: P0 is 0xE in [63:60] and the tail (R105). -/
def State.eventNotice (s : State) : State :=
  let w : Word := 0xE000000000000000#64 ||| (s.cl.evTail.setWidth 64)
  s.eventCells.foldl (fun st n => st.notice n 0 [{ val := w, tag := false }]) s

/-- Word 0 of an entry (R103). -/
def evWord0 (kind : BitVec 8) (code : Code) (seq : BitVec 16) (lcell : BitVec 15) : Word :=
  (kind ++ code ++ seq ++ 0#17 ++ lcell : BitVec 64)

/-- Posts an entry that has room (R102, R105). -/
def State.postEntry (s : State) (e : EvEnt) : State :=
  let empty := s.cl.evHead == s.cl.evTail
  let e' : EvEnt := { e with w0 := e.w0 ||| ((s.cl.evSeq ++ 0#32 : BitVec 48).setWidth 64) }
  let idx : Fin 256 := Fin.ofNat 256 s.cl.evTail.toNat
  let s1 := { s with cl := { s.cl with evRing := s.cl.evRing.set idx e', evTail := s.cl.evTail + 1, evSeq := s.cl.evSeq + 1 } }
  if empty then s1.eventNotice else s1

/-- The queue is full (R104). -/
def Cluster.evFull (cl : Cluster) : Bool := cl.evTail - cl.evHead == 256

/-- Posts an event, or keeps it waiting for room (R105). -/
def State.postEvent (s : State) (kind : BitVec 8) (code : Code) (lcell : BitVec 15) (user addr detail : Word) : State :=
  let e : EvEnt := { w0 := evWord0 kind code 0 lcell, w1 := user, w2 := addr, w3 := detail }
  if s.cl.evFull || !s.cl.evWait.isEmpty then { s with cl := { s.cl with evWait := s.cl.evWait ++ [e] } }
  else s.postEntry e

/-! ## What waits for an evicted cell (R406) -/

/-- Work waits at the home until something has happened. -/
def State.hold (s : State) (t : Todo) : State := { s with cl := { s.cl with held := s.cl.held ++ [t] } }

/-- Work waits at a port of the cluster, with its access at an own-space address. -/
def State.holdAt (s : State) (oa : Nat) (t : Todo) : State := s.hold (.port oa t)

/-- As `holdAt`, where it is a port that makes the work wait. -/
def State.holdIf (s : State) (oa : Option Nat) (t : Todo) : State :=
  match oa with
  | some a => s.holdAt a t
  | none => s.hold t

/-- The slot is in the middle of a `pub`, `seqadv` or `shade` (R158). -/
def Act.publishing (a : Act) : Bool :=
  a.live && a.stalled &&
  (match decode a.iw with
   | .ok (.pub _ _) | .ok (.seqadv _) | .ok (.shade _ _) => true
   | _ => false)

/-- Some slot of the modelled cell is in the middle of one. -/
def State.publishes (s : State) : Bool := (List.finRange 5).any fun i => (s.slotAct i).publishing

/-- The cell is fenced, so that its replies, watch answers and token acknowledgements stay at its home; those that a `pub` or `seqadv`
waits for still come, since the eviction waits for it (R158). -/
def State.fencing (s : State) : Bool := s.me.fenced && !s.publishes

/-- The contexts of the modelled cell that are saved. -/
def State.ownSaves (s : State) : List OwnSave := s.saved.filterMap fun v : SavedCell => v.own

/-- The registers of a saved context. -/
def OwnSave.watches (o : OwnSave) : List WatchReg :=
  o.act.watch.toList ++ o.slots.toList.flatMap (fun a : Act => a.watch.toList) ++ o.parked.flatMap fun p : Parked => p.act.watch.toList

/-- Every watch register of the cell's activations. -/
def State.allWatches (s : State) : List WatchReg :=
  s.act.watch.toList ++ s.slots.toList.flatMap (fun a : Act => a.watch.toList) ++
    s.parked.flatMap fun p : Parked => p.act.watch.toList

/-- A message of a number or a token is for the context of the modelled cell that is saved or about to be. -/
def State.ridSaved (s : State) (rid : Nat) : Bool :=
  (s.me.evicted && s.ownSaves.any fun o => o.replies.any fun e : ReplyEnt => e.rid == rid) ||
  (s.fencing && s.replies.any fun e : ReplyEnt => e.rid == rid)

def State.tokSaved (s : State) (tok : BitVec 24) : Bool :=
  s.me.evicted && s.ownSaves.any fun o => o.toks.any fun e : TokEnt => e.tok == tok

/-- The acknowledgement of a token of a cell that is fenced or evicted. -/
def State.landSaved (s : State) (tok : BitVec 24) : Bool :=
  s.tokSaved tok || (s.fencing && s.toks.any fun e : TokEnt => e.tok == tok)

def pendingOn (rid : Nat) (w : WatchReg) : Bool := w.st == .pending && w.rid == rid

def State.watchSaved (s : State) (rid : Nat) : Bool :=
  (s.me.evicted && s.ownSaves.any fun o => o.watches.any (pendingOn rid)) || (s.fencing && s.allWatches.any (pendingOn rid))

/-! ## Watches (R164) -/

/-- A slot's or a parked activation's register takes an answer for the placement `rid` (R316, R318). -/
def answerRegs (rid : Nat) (ans : WatchAns) (ws : Vector WatchReg 4) : Vector WatchReg 4 :=
  Vector.ofFn fun i : Fin 4 =>
    let w := ws[i]
    if w.st == .pending && w.rid == rid then
      match ans with
      | .met v _ => { w with st := .answered, val := v }
      | .refused c => { w with st := .failed, code := c }
      | .notMet => w
    else w

def State.watchAnswered (s : State) (rid : Nat) (ans : WatchAns) : State :=
  { s with act := { s.act with watch := answerRegs rid ans s.act.watch },
           slots := Vector.ofFn fun i : Fin 5 => { s.slots[i] with watch := answerRegs rid ans s.slots[i].watch },
           parked := s.parked.map fun p => { p with act := { p.act with watch := answerRegs rid ans p.act.watch } } }

/-- The home under the gates with which a watch was checked (R443). -/
def State.watchHome (s : State) (req : WatchReq) : State :=
  match s.cl.watchGates.find? fun x : WatchReq × Vector Word 16 => x.1 == req with
  | some x => { s with cl := { s.cl with gates := x.2 } }
  | none => s

/-- What the owner's port finds for a watch: answered, refused, or pending (R164, R316). A watch is none of the requests that a page with
nc = 1 takes from another partition (R108). -/
def State.watchNow (s : State) (req : WatchReq) : Option WatchAns :=
  match s.cl.window req.oa.toNat with
  | .cis | .ctl => some (.refused 0x05)
  | win =>
    let foreign := req.who.remote && req.who.ptn != s.cl.ptn
    match (s.watchHome req).checkPort req.who .load req.oa.toNat with
    | .ok site =>
      let v := wordOf (s.view site 8)
      if foreign then some (.refused 0x05)
      else if s.lineLit win site.key req.oa.toNat && decide (req.thresh.toNat ≤ v.toNat) then some (.met v s.cl.pubctr) else none
    | .fault c _ =>
      if c == 0x0C then none
      else if foreign && c != 0x04 && c != 0x08 then some (.refused 0x05)
      else if c == 0x06 then none
      else some (.refused c)
    | .miss | .snoop _ | .wait => none

/-- Sends a watch's answer: to the modelled cell's register, or out (R164). -/
def State.sendWatchAns (s : State) (req : WatchReq) (ans : WatchAns) : State :=
  if !req.who.remote && req.who.lcell == s.lcell then
    if s.watchSaved req.who.rid then s.hold (.watchAns req.who.rid ans) else (s.watchAnswered req.who.rid ans).unblock
  else
    let m := match ans with
      | .met v c => outMsg .watchAns req.who.place req.oa req.who.rid 0 [v, c]
      | .notMet => outMsg .watchAns req.who.place req.oa req.who.rid 0 []
      | .refused c => outMsg .watchAns req.who.place req.oa req.who.rid c []
    s.emit m

/-- An answered watch keeps no gates. -/
def State.forgetGates (s : State) (req : WatchReq) : State :=
  { s with cl := { s.cl with watchGates := s.cl.watchGates.filter fun x : WatchReq × Vector Word 16 => x.1 != req } }

/-- Answers every pending watch whose condition now holds (R164). -/
def State.pollWatches (s : State) : State :=
  s.cl.watches.foldl (init := { s with cl := { s.cl with watches := [] } }) fun st w =>
    match s.watchNow w with
    | some ans => (st.forgetGates w).sendWatchAns w ans
    | none => { st with cl := { st.cl with watches := st.cl.watches ++ [w] } }

/-- The memory has changed: watches are answered and waiting instructions try again. -/
def State.withMem (s : State) (m : Memory) : State := ({ s with mem := m }.pollWatches).unblock

/-- The accesses of units that waited at a port try again. -/
def State.wakeHeld (s : State) : State :=
  ({ s with agenda := s.agenda ++ s.cl.held, cl := { s.cl with held := [] } }).unblock

/-! ## The TLB miss (R59, R60) -/

def kindCode : AccKind → BitVec 3
  | .load => 0 | .store => 1 | .fetch => 2 | .deposit => 3 | .atomic => 4 | .engRead => 5 | .stationary => 5 | .engWrite => 6

/-- P1 of a miss message (R60). -/
def missWord (epoch : BitVec 16) (kind : AccKind) (who : Requester) (mid : Nat) : Word :=
  let cell : BitVec 6 := if who.remote || decide (4 < (kindCode kind).toNat) then 0 else who.lcell.extractLsb' 0 6
  (epoch ++ kindCode kind ++ (if who.remote then 1#1 else 0#1) ++ cell ++ 0#32 ++ BitVec.ofNat 6 mid : BitVec 64)

/-- The least miss-table number not in use. -/
def freeMid (l : List MissEnt) : Nat := ((List.range 64).find? fun i => !(l.any fun e => e.mid == i)).getD 0

/-- Allocates a miss-table entry and sends its miss message (R59, R60). -/
def State.allocMiss (s : State) (oa : Nat) (kind : AccKind) (who : Requester) (t : Todo) : State :=
  let mid := freeMid s.cl.miss
  let p1 := missWord s.cl.epoch kind who mid
  let e : MissEnt := { mid, page := BitVec.ofNat 17 (oa / 0x10000), p1, oa := BitVec.ofNat 64 oa, waiters := [t] }
  ({ s with cl := { s.cl with miss := s.cl.miss ++ [e] } }).notice 63 28
    [{ val := BitVec.ofNat 64 oa, tag := false }, { val := p1, tag := false }]

/-- An access that matches no entry waits: on the entry that holds its page, on a new one, or at the home while all are busy
(R59), where its P1 is the model's choice (DESIGN CHOICE, log 87). -/
def State.missWait (s : State) (oa : Nat) (kind : AccKind) (who : Requester) (t : Todo) : State :=
  let page := BitVec.ofNat 17 (oa / 0x10000)
  if s.cl.miss.any fun e => e.page == page then
    { s with cl := { s.cl with miss := s.cl.miss.map fun e => if e.page == page then { e with waiters := e.waiters ++ [t] } else e } }
  else if s.cl.miss.length < Config.missSize then s.allocMiss oa kind who t
  else { s with cl := { s.cl with missOver := s.cl.missOver ++ [(BitVec.ofNat 64 oa, missWord s.cl.epoch kind who 0, t)] } }

/-- As `missWait`, for a write: a reference that it carries into a lit line may miss, and no page there refuses the write with 0x07
(R147). -/
def State.missWrite (s : State) (kind : AccKind) (who : Requester) (oa : Nat) (d : WData) (t : Todo) : State :=
  let m := s.writeMiss who kind oa d
  s.missWait m.1 kind who (if m.2 then .refuseAs 0x07 t else t)

/-! ### Ordering points and accesses that wait (R61) -/

/-- Whether work that waits on a miss is an access of the modelled cell. -/
def State.ownAccess (s : State) : Todo → Bool
  | .wake _ => true
  | .deposit req => !req.who.remote && req.who.lcell == s.lcell
  | .atomicRequest req => !req.who.remote && req.who.lcell == s.lcell
  | .atomicGo _ req => !req.who.remote && req.who.lcell == s.lcell
  | .refuseAs _ t => s.ownAccess t
  | .port _ t => s.ownAccess t
  | _ => false

/-- The pages on which accesses of the modelled cell wait. -/
def State.ownMisses (s : State) : List (BitVec 17) :=
  ((s.cl.miss.filter fun e : MissEnt => e.waiters.any s.ownAccess).map fun e => e.page) ++
  (s.cl.missOver.filter fun e : Word × Word × Todo => s.ownAccess e.2.2).map fun e => BitVec.ofNat 17 (e.1.toNat / 0x10000)

/-- An ordering point of the cell: its later accesses wait behind those of its accesses that still wait on a miss. -/
def State.orderPoint (s : State) : State := if s.ownMisses.isEmpty then s else { s with orderPages := s.orderPages ++ s.ownMisses }

/-- Another slot's access to the line waits at a port, so a new one of the cell comes behind it (R83). -/
def State.lineWaits (s : State) (oa : Nat) : Bool :=
  s.trying != some (oa / 128) && (List.finRange 5).any fun i =>
    i != s.cur && (s.slotAct i).live && (s.slotAct i).atPort.any fun w : PortWait => w.oa / 128 == oa / 128

/-- A port of the own cluster as the cell's own accesses find it: behind what an ordering point keeps ahead of them, and behind the
cell's accesses to the same line that wait there. -/
def State.checkOwn (s : State) (kind : AccKind) (oa : Nat) : Chk Site :=
  if (s.orderPages.isEmpty || s.act.early) && !s.lineWaits oa then s.checkPort s.requester kind oa else .wait

/-- A half's state in the directory (R433). -/
def DirEnt.half (d : DirEnt) (h : Bool) : HalfState := if h then d.h1 else d.h0

/-- The agents that the record names for a half: exact pointers, or every agent of each set group. -/
def DirEnt.sharers (d : DirEnt) (h : Bool) : List (BitVec 8) :=
  match d.coarse with
  | some g => ((List.range 256).filter fun n => g.getLsbD (n / 8)).map fun n => BitVec.ofNat 8 n
  | none => (d.ptrs.filter fun p : BitVec 8 × BitVec 2 => p.2.getLsbD (if h then 1 else 0)).map fun p => p.1

/-- Sends snoops for a line and records that their responses are awaited: BISnpInv or BISnpData. -/
def State.askAgents (s : State) (line : Nat) (ws : List Snoop) : State :=
  let s1 := { s with cl := { s.cl with dir := s.cl.dir.map fun d : DirEnt =>
    if d.line == line then { d with waits := d.waits ++ ws } else d } }
  ws.foldl (fun (st : State) (w : Snoop) =>
    st.emit (outMsg .snoop s.cl.place (BitVec.ofNat 64 (line + if w.half then 64 else 0)) w.agent.toNat 0 [if w.inv then 1 else 0])) s1

/-- Asks the holders of a window line's halves in E for them, for a device read (R433). -/
def State.sendSnoop (s : State) (line : Nat) : State :=
  match s.cl.dir.find? fun d : DirEnt => d.line == line with
  | none => s
  | some d =>
    let ask (h : Bool) : List Snoop :=
      if d.half h == .E && !(d.waits.any fun w : Snoop => w.half == h) then
        (d.sharers h).map fun a => { agent := a, half := h, inv := false } else []
    s.askAgents line (ask false ++ ask true)

/-! ## Accesses that stand at a port and wait (R67, R68, R75, R97, R99) -/

/-- Accesses stand at a port of a window and wait: those of units, those of the cell's slots, and queued atomic requests. -/
def State.portHolds (s : State) (p : Nat → Bool) : Bool :=
  (s.cl.held.any fun t : Todo => (todoOa t).any p) || (s.agenda.any fun t : Todo => (todoOa t).any p) ||
  (s.atomQ.any fun r : AtomReq => p r.oa.toNat) || (s.atomNow.any fun y : Fin 64 × AtomReq => p y.2.oa.toNat) ||
  (List.finRange 5).any fun i => (s.slotAct i).live && (s.slotAct i).atPort.any fun w : PortWait => p w.oa

def inDram (oa : Nat) : Bool := decide (oa < 0x200000000)

/-- What accesses keep of the cluster as it stands. -/
def Cluster.xlat (cl : Cluster) : OldXlat := { tlb := cl.tlb, on := cl.tlbctl, pairs := cl.vfpair, gates := cl.gates }

/-- Work at a port whose address is among the picked ones keeps `x`, unless it keeps an older one. -/
def Todo.keep (x : OldXlat) (p : Nat → Bool) : Todo → Todo
  | .port oa t => if p oa then .under x (.port oa t) else .port oa t
  | t => t

/-- The accesses queued ahead, at the addresses that `p` picks, keep the translation and the gates as they stand: those of units, those
that are about to be tried again, those of the cell's slots, and the atomic requests (R54, R57, R67, R75, R443). -/
def State.keepXlatAt (s : State) (p : Nat → Bool) : State :=
  if !s.portHolds p then s
  else
  let x := s.cl.xlat
  let slot (a : Act) : Act :=
    { a with atPort := a.atPort.map fun w : PortWait => if p w.oa && w.old.isNone then { w with old := some x } else w }
  let reqs := (s.atomQ ++ s.atomNow.map fun y : Fin 64 × AtomReq => y.2).filter fun r : AtomReq =>
    p r.oa.toNat && !(s.atomOld.any fun y : AtomReq × OldXlat => y.1 == r)
  { s with cl := { s.cl with held := s.cl.held.map (Todo.keep x p) }, agenda := s.agenda.map (Todo.keep x p), act := slot s.act,
           slots := Vector.ofFn fun i : Fin 5 => slot s.slots[i], atomOld := s.atomOld ++ reqs.map fun r => (r, x) }

def State.keepXlat (s : State) : State := s.keepXlatAt inDram

/-- Runs under what an access keeps, and leaves the translation and the gates of the home as they are. -/
def State.underXlat (s : State) (x : OldXlat) (run : State → Out) : Out :=
  match run { s with cl := { s.cl with tlb := x.tlb, tlbctl := x.on, vfpair := x.pairs, gates := x.gates } } with
  | .next t => .next { t with cl := { t.cl with tlb := s.cl.tlb, tlbctl := s.cl.tlbctl, vfpair := s.cl.vfpair, gates := s.cl.gates } }
  | r => r

/-- Work that keeps an older translation. -/
def Todo.isOld : Todo → Bool
  | .under _ _ => true
  | _ => false

/-- Accesses that keep an older translation have not all completed (R68). -/
def State.oldWaits (s : State) : Bool :=
  s.cl.held.any Todo.isOld || s.agenda.any Todo.isOld || !s.atomOld.isEmpty ||
  (List.finRange 5).any fun i => (s.slotAct i).live && (s.slotAct i).atPort.any fun w : PortWait => w.old.isSome

/-! ## A write by this cluster's own hardware -/

/-- Performs an accepted write and what follows from it (R135). -/
def State.perform (s : State) (site : Site) (oa : Nat) (d : WData) : State := s.withMem (s.performAt site oa d)

/-- The bytes of words, and their tags. -/
def wordsData (ws : List TWord) : WData := .bytes (ws.flatMap fun w => bytesOf w.val) (ws.map fun w => w.tag)

/-- The bytes of words without tags. -/
def plainWords (ws : List Word) : List TWord := ws.map fun w => { val := w, tag := false }

/-- The outcome of a write of whole lines by the cell's trap hardware. -/
inductive Wrote where
  | ok (s : State)
  | bad
  | miss (oa : Nat)
  /-- the port makes the write at this address wait -/
  | wait (oa : Nat)
  deriving DecidableEq, Repr

/-- Writes words at an own-space address, at most a line at a time, as the cell does for records and frames (R64, R344). -/
def State.writeWords (s : State) (oa : Nat) : List (List TWord) → Wrote
  | [] => .ok s
  | ws :: rest =>
    match s.checkWrite s.cellReq .store oa (wordsData ws) with
    | .ok site => (s.perform site oa (wordsData ws)).writeWords (oa + 8 * ws.length) rest
    | .miss => .miss oa
    | .fault _ _ => .bad
    | _ => .wait oa

/-! ## Traps (R245, R343 to R347) -/

/-- Word 3 of a record (R396): the place of the address, 0 where the address is 0. -/
def State.placeOf (s : State) (addr : Word) : Word :=
  if addr == 0 then 0 else if addr.getLsbD 63 then prefixOf addr else s.cl.place

/-- The PC a trap is taken with: the prefix's where the instruction has one (R248). -/
def Act.trapPc (a : Act) : Word :=
  match a.pfx with
  | some p => p.pc
  | none => a.pc

def Act.pfxWord (a : Act) : BitVec 32 :=
  match a.pfx with
  | some p => p.word
  | none => 0

/-- The request of a precise trap on the instruction in service; a memory error is marked as one (R79, R396). -/
def State.trapReq (s : State) (code : Code) (addr : Word) : TrapReq :=
  { code, addr, place := s.placeOf addr, tok := 0, pc := s.act.trapPc, resume := s.act.trapPc, isDef := false,
    mem := code == 0x0F, sw := false, pay := false, iw := s.act.iw, pfx := s.act.pfxWord }

def XqPlace.isFilled : XqPlace → Bool
  | .filled _ => true
  | .reserved => false

def LdqPlace.isFilled : LdqPlace → Bool
  | .filled _ => true
  | _ => false

/-- A filled explicit entry of an older instruction is discarded (R246; for `wtest` and `tokq` DESIGN CHOICE, log 115). -/
def Act.losesEntry (a : Act) : Bool :=
  a.ldq.any LdqPlace.isFilled || a.xq.any XqPlace.isFilled || !a.stq.isEmpty

/-- Word 1 of a record (R343). -/
def recordWord1 (slot : BitVec 3) (chan : BitVec 5) (pay nest isDef mem lost sw : Bool) (code : Code) : Word :=
  let b (x : Bool) : BitVec 1 := if x then 1 else 0
  (0#40 ++ slot ++ chan ++ 0#2 ++ b pay ++ b nest ++ b isDef ++ b mem ++ b lost ++ b sw ++ code : BitVec 64)

/-- Words 0 to 7 of a record (R343). -/
def recordWords (r : TrapReq) (w1 frame : Word) : List Word :=
  [r.pc, w1, r.addr, r.place, r.tok.setWidth 64, r.resume, (r.pfx ++ r.iw : BitVec 64), frame]

/-- The base of a cell's block in a save area (R198). -/
def saveBlock (info : RegInfo) (n : Fin 64) : Nat := info.save.toNat + n.val * 512 * (1 + info.nfr)

/-- A general slot's trap frame (R344); 0 where the region has no save area. -/
def State.trapFrame (s : State) (r : Fin 8) (slot : Nat) : Word :=
  let info := s.me.regs[r].info
  if info.save == 0 then 0 else BitVec.ofNat 64 (saveBlock info s.self + 64 * slot)

/-- Sends the trap notice (R347). -/
def State.trapNotice (s : State) (info : RegInfo) (parkedAt frame w1 : Word) (r : TrapReq) (resume : Word) : State :=
  s.noticeFrom s.lcell (Fin.ofNat 64 info.ctlc.toNat) info.trapc
    (plainWords [parkedAt, frame, w1, r.pc, r.addr, r.place, r.tok.setWidth 64, resume])

/-- The queues and all that belongs to instructions not complete are empty after a trap (R245, R246). -/
def Act.cancelled (a : Act) : Act :=
  { a with ldq := [], stq := [], xq := [], exq := [], pfx := none, phase := .none, stalled := false, blocked := false,
           atPort := none, drain := false, first := none, trapping := none, early := false }

/-- The activation stands at an instruction boundary: nothing that it has begun is on its way. -/
def Act.betweenWords (a : Act) : Bool :=
  a.exq.isEmpty && a.first.isNone && (a.trapping.isSome ||
    (match a.phase with
     | .none | .again _ | .frameWait | .frameBad | .pageFault _ _ _ | .engWait _ | .engQueue _ _ | .waitLost => true
     | _ => false))

/-- Reports an activation's start or end, and cycles charged to it, to its region's home (R203). -/
def State.reportUse (s : State) (rcb : Word) (starts ends cycles : Nat) : State :=
  if rcb == 0 then s
  else if s.isHere rcb then s.push (.report rcb starts ends cycles)
  else s.emit (outMsg .report (prefixOf rcb) rcb 0 0 [BitVec.ofNat 64 starts, BitVec.ofNat 64 ends, BitVec.ofNat 64 cycles])

/-- A placement that is on its way to the home of this cluster, or waits there for a page, is the modelled cell's under a number. -/
def State.isPlacing (s : State) (rid : Nat) (q : WatchReq) : Bool := !q.who.remote && q.who.lcell == s.lcell && q.who.rid == rid
def State.placingTodo (s : State) (rid : Nat) : Todo → Bool
  | .watchPlace q => s.isPlacing rid q
  | _ => false

/-- Takes a pending placement back from its owner (R316, R318); a late answer finds no register. -/
def State.cancelPlaced (s : State) (w : WatchReg) : State :=
  if w.st != .pending then s
  else if s.isHere w.addr then
    let keep (l : List Todo) : List Todo := l.filter fun t => !s.placingTodo w.rid t
    { s with agenda := keep s.agenda,
             cl := { s.cl with watches := s.cl.watches.filter (fun q : WatchReq => !s.isPlacing w.rid q),
                               watchGates := s.cl.watchGates.filter (fun q : WatchReq × Vector Word 16 => !s.isPlacing w.rid q.1), held := keep s.cl.held,
                               miss := s.cl.miss.map (fun e : MissEnt => { e with waiters := keep e.waiters }),
                               missOver := s.cl.missOver.filter fun e : Word × Word × Todo => !s.placingTodo w.rid e.2.2 } }
  else s.emit (outMsg .cancel (prefixOf w.addr) w.addr w.rid 0 [])

/-- Takes back the pending placements of an activation's registers. -/
def State.cancelWatches (s : State) (ws : Vector WatchReg 4) : State := ws.toList.foldl State.cancelPlaced s

/-- The word of a control block that a kind of grant is taken from (R196). -/
def grantWord : GrantKind → Nat
  | .activations => 2
  | .cycles => 3
  | .credit => 4

/-- The RCB that a region was found to charge at its launch; 0 where it is unlimited. -/
def payerOf (i : RegInfo) : GrantKind → Word
  | .activations => i.payA
  | .cycles => i.payC
  | .credit => i.payS

/-- The nearest RCB from `rcb` up whose flag is 1, as the flags stand, or `some none` where no flag is set; `none` where a block of the
chain lies elsewhere or cannot be read. -/
def State.flagHere (s : State) (word : Nat) (rcb : Word) : Nat → Option (Option Word)
  | 0 => none
  | n + 1 =>
    if !s.isHere rcb || oaOf rcb % 256 != 0 || decide (0x200000000 ≤ oaOf rcb) then none
    else
      match s.checkPort s.deviceReq .engRead (oaOf rcb) with
      | .ok site =>
        let w (i : Nat) : Word := wordOf (s.view { site with key := site.key + 8 * i } 8)
        if (w word).getLsbD 63 then some (some rcb) else if w 1 == 0 then some none else s.flagHere word (w 1) n
      | _ => none

/-- The RCB that a region charges (R197): not as launch resolved it but as the flags of the control blocks stand, where this cluster holds
them; of blocks of another cluster the last word is its home's, at each grant (log 32). -/
def State.payer (s : State) (e : RegEntry) (k : GrantKind) : Word :=
  if e.info.rcb == 0 then payerOf e.info k
  else
    match s.flagHere (grantWord k) e.info.rcb 9 with
    | some a => a.getD 0
    | none => payerOf e.info k

/-- Returns a unit of spawn credit (R216, R339). -/
def State.returnCredit (s : State) (r : Fin 8) : State :=
  let e := s.me.regs[r]
  let pay := s.payer e .credit
  if pay == 0 then s
  else if e.credit < 16 then s.mapReg r fun e => { e with credit := e.credit + 1 }
  else if s.isHere pay then s.push (.creditBack pay)
  else s.emit (outMsg .grant (prefixOf pay) pay 0 0 [1])

/-- The notice to the trap channel where the activation has ended, with the payload notice of R342 directly after it. -/
def State.endedNotice (s : State) (reg : Fin 8) (chan : BitVec 5) (slot : Fin 4) (t : TrapInfo) : State :=
  let info := s.me.regs[reg].info
  let w1 := recordWord1 (BitVec.ofNat 3 slot.val) chan (!t.pay.isEmpty) false true t.mem false false t.code
  let r : TrapReq := { code := t.code, addr := t.addr, place := t.place, tok := t.tok, pc := t.pc, resume := 0, isDef := true,
                       mem := t.mem, sw := false, pay := !t.pay.isEmpty, iw := t.iw, pfx := t.pfx }
  let s1 := s.trapNotice info 0 0 w1 r 0
  if t.pay.isEmpty then s1 else s1.noticeFrom s.lcell (Fin.ofNat 64 info.ctlc.toNat) info.trapc t.pay

/-- Frees the dead token of a report (R191), and names it in no slot of its activation. -/
def State.freeDead (s : State) (tok : BitVec 24) : State :=
  { s with toks := s.toks.filter fun e : TokEnt => !(tok != 0 && e.tok == tok && e.st == .dead) }

/-- The deferred reports of an activation that ends go to its region's trap channel, in order, and their dead tokens are free (R169,
R191). -/
def State.tellDeferred (s : State) (reg : Fin 8) (chan : BitVec 5) (slot : Fin 4) (ts : List TrapInfo) : State :=
  ts.foldl (fun (st : State) (t : TrapInfo) => (st.endedNotice reg chan slot t).freeDead t.tok) s

/-- The refusals reported to an activation that no trap has been taken for: the one whose trap waits, and the deferred ones (R169). -/
def Act.untold (a : Act) : List TrapInfo := ((a.trapping.bind fun r : TrapReq => r.info).toList) ++ a.deferred

/-- The activation in service ends and frees its slot (R340); `credit` says whether a spawned chain's unit is returned. -/
def State.endAct (s : State) (credit : Bool) : State :=
  let a := s.act
  let s1 := ((s.tellDeferred a.reg a.chan s.slotNo a.untold).cancelWatches a.watch).reportUse s.rcb 0 1 a.cycles
  let s2 := if credit && a.spw then s1.returnCredit a.reg else s1
  ({ s2 with act := Act.idle }).unblock

/-! ### Replies to messages (R167) -/

/-- Whether a requester is the modelled cell. -/
def State.isSelf (s : State) (who : Requester) : Bool := !who.remote && who.lcell == s.lcell

/-- Whether a requester is this cluster's home, which sends messages and notices and awaits no reply to them. -/
def isHome (who : Requester) : Bool := !who.remote && who.lcell == 0x7FFF#15

/-- The positive reply, and the landing acknowledgement of the token that the message asked for (R188). -/
def State.replyPos (s : State) (who : Requester) (addr : Word) (tok : BitVec 24) : State :=
  let s1 := if s.isSelf who then s.push (.positive who.rid) else if isHome who then s else s.emit (outMsg .posReply who.place addr who.rid 0 [])
  if tok == 0 then s1 else s1.emit { outMsg .landing who.place addr who.rid 0 [] with tok := tok }

/-- The negative reply. -/
def State.replyNeg (s : State) (who : Requester) (addr : Word) (code : Code) : State :=
  if s.isSelf who then s.push (.negative who.rid code none) else if isHome who then s else s.emit (outMsg .negReply who.place addr who.rid code [])

/-- The negative reply to a deposit or an atomic request, with the own-space address concerned (R147, R343). -/
def State.refuseAt (s : State) (who : Requester) (oa : Nat) (code : Code) : State :=
  if s.isSelf who then s.push (.negative who.rid code (some (BitVec.ofNat 64 oa)))
  else s.emit (outMsg .negReply who.place (BitVec.ofNat 64 oa) who.rid code [])

/-- An atomic request's positive reply with its result (R329). -/
def State.replyAtom (s : State) (who : Requester) (addr : Word) (tok : BitVec 24) (e : QEntry) : State :=
  let s1 := if s.isSelf who then s.push (.atomReply who.rid e)
    else s.emit (outMsg .atomicReply who.place addr who.rid 0 (e.tags.setWidth 64 :: e.data))
  if tok == 0 then s1 else s1.emit { outMsg .landing who.place addr who.rid 0 [] with tok := tok }

/-! ### Parking (R63, R64) -/

/-- The frames of a region's save area on this cell that hold no parked activation. -/
def State.freeFrame (s : State) (info : RegInfo) : Option Word :=
  let block := saveBlock info s.self
  ((List.range info.nfr).map fun j => BitVec.ofNat 64 (block + 512 * (1 + j))).find? fun f =>
    !(s.parked.any fun p => p.frame == f)

/-- Word 1 of a frame (R64). -/
def frameWord1 (chan : BitVec 5) (prio : BitVec 3) (slot : Fin 4) (n : Fin 64) : Word :=
  (0#32 ++ 0#2 ++ BitVec.ofNat 6 n.val ++ 0#6 ++ BitVec.ofNat 2 slot.val ++ 0#5 ++ prio ++ 0#3 ++ chan : BitVec 64)

/-- Steps of four pointers, the first lowest (R64). -/
def stepWord (a b c d : Ptr) : Word := (d.step ++ c.step ++ b.step ++ a.step : BitVec 64)

/-- Tags of the pointers and the flags (R64 word 14): bits [12:8] are Z, N, C, O, X, Z at bit 12. -/
def tagsFlagsWord (p : Vector Ptr 8) (f : Flags) : Word :=
  let b (x : Bool) (k : Nat) : Nat := if x then 2 ^ k else 0
  BitVec.ofNat 64 (((List.finRange 8).foldl (fun n i => n + b p[i].tag i.val) 0) + b f.z 12 + b f.n 11 + b f.c 10 + b f.o 9 +
    b f.x 8)

/-- The mask of an activation's uncommitted transfers (R64, R365). -/
def State.openMask (s : State) (aid : Nat) : BitVec 16 :=
  BitVec.ofNat 16 ((List.finRange 16).foldl (fun n i =>
    if s.mx.xfers[i].st == .opened && s.mx.xfers[i].aid == aid then n + 2 ^ i.val else n) 0)

/-- The 64 words of a frame (R64): word 0 as given, words 2 and 3 the faulting address and P1, words 48 to 55 a record. -/
def State.frameWords (s : State) (pc oa p1 : Word) (record : List Word) : List Word :=
  let a := s.act
  let p := a.p
  [pc, frameWord1 a.chan a.prio s.slotNo s.self, oa, p1] ++ (p.toList.map fun q => q.val) ++
  [stepWord p[0] p[1] p[2] p[3], stepWord p[4] p[5] p[6] p[7], tagsFlagsWord p a.f, a.a,
   (0#16 ++ s.openMask a.aid ++ a.k : BitVec 64), a.loop.count, a.loop.start, a.loop.stop] ++
  (a.toks.toList.map fun t => t.setWidth 64) ++ pairWords a.v ++ [s.lcell.setWidth 64, s.rcb] ++ List.replicate 6 0 ++
  (if record.isEmpty then List.replicate 8 0 else record) ++ List.replicate 8 0

/-- The outcome of parking. -/
inductive ParkRes where
  | parked (s : State) (frame : Word)
  /-- no frame or no record is free -/
  | full
  /-- the frame's port makes the write at this address wait -/
  | wait (oa : Nat)
  /-- the write of this frame faulted -/
  | bad (frame : Word)
  | miss (oa : Nat)
  deriving DecidableEq, Repr

/-- Parks the activation in service in a free frame (R63 steps 2 and 3): the frame's words, a record, and the slot is free. vtag is
not kept (R290). -/
def State.park (s : State) (pc oa p1 : Word) (record : List Word) (byPause : Bool) : ParkRes :=
  let info := s.regEntry.info
  match s.freeFrame info with
  | none => .full
  | some f =>
    if Config.maxParked ≤ s.parked.length then .full
    else
      let rec' := if record.isEmpty then [] else record.take 7 ++ [f]
      let ws := s.frameWords pc oa p1 rec'
      match s.writeWords f.toNat (chunks 16 4 (plainWords ws)) with
      | .bad => .bad f
      | .miss a => .miss a
      | .wait a => .wait a
      | .ok s1 =>
        let a := { s.act.cancelled with vtag := 0, cycles := 0 }
        let r : Parked := { frame := f, act := a, word1 := ws.getD 1 0, word40 := ws.getD 40 0, word41 := ws.getD 41 0, oa,
                            byFault := record.isEmpty && !byPause, runnable := false, byPause, failCode := none, pfx := s.act.pfxWord,
                            waits := false, lost := false }
        .parked (({ s1 with parked := s1.parked ++ [r], act := Act.idle }.reportUse s.rcb 0 0 s.act.cycles).unblock) f

/-- The trap waits: it is taken when something has happened. -/
def State.keepTrap (s : State) (r : TrapReq) : Out :=
  .next { s with act := { s.act with trapping := some r, blocked := true, stalled := true } }

/-- The trap waits for the translation of its frame (R62). -/
def State.frameMiss (s : State) (r : TrapReq) (oa : Nat) : Out :=
  if s.act.phase == .frameWait then s.keepTrap r
  else ((s.missWait oa .store s.cellReq (.wakeFrame (slotOfIdx s.cur))).mapAct fun a => { a with phase := .frameWait }).keepTrap r

/-- Parking after a trap, with the record in the frame (R346 step 4); a parked frame that cannot be written ends the activation. -/
def State.parkTrapped (s : State) (r : TrapReq) (w1 frame : Word) : Out :=
  let info := s.regEntry.info
  if s.act.phase == .frameBad then
    .next ((s.trapNotice info 0 frame w1 r 0).endAct false)
  else
    match s.park r.resume 0 0 (recordWords r w1 0) false with
    | .parked s1 f => .next (s1.trapNotice info f frame w1 r r.resume)
    | .full => s.keepTrap r
    | .wait oa => (s.atPortOf oa).keepTrap r
    | .bad _ => .next ((s.trapNotice info 0 frame w1 r 0).endAct false)
    | .miss oa => s.frameMiss r oa

/-- A trap of an activation in a general slot (R346), from the request `r`. -/
def State.takeTrapGeneral (s : State) (r : TrapReq) : Out :=
  let a := s.act
  let info := s.regEntry.info
  let w1 := recordWord1 (BitVec.ofNat 3 s.slotNo.val) a.chan r.pay a.tm r.isDef r.mem a.losesEntry r.sw r.code
  let frame := s.trapFrame a.reg s.slotNo.val
  if frame == 0 then
    .next ((s.trapNotice info 0 0 w1 r 0).endAct false)
  else
    match s.writeWords frame.toNat [plainWords (recordWords r w1 0)] with
    | .bad => .next ((s.trapNotice info 0 0 w1 r 0).endAct false)
    | .miss oa =>
      if a.phase == .frameBad then .next ((s.trapNotice info 0 0 w1 r 0).endAct false) else s.frameMiss r oa
    | .wait oa => (s.atPortOf oa).keepTrap r
    | .ok s1 =>
      let v := s.me.trapvec
      if v.getLsbD 63 && (v.extractLsb' 56 3).toNat == a.reg.val && !a.tm then
        .next ({ s1 with act := { s1.act.cancelled with tm := true, pc := (v.extractLsb' 0 34).setWidth 64,
                                                        deferred := s1.act.deferred } }.unblock)
      else s1.parkTrapped r w1 frame

/-- Ends an atomic request in progress with a negative reply that names an address (R177, R398): collected stores are discarded. -/
def State.abortAt (s : State) (code : Code) (oa : Nat) : State :=
  match s.atomRun with
  | none => { s with act := Act.idle }
  | some run =>
    let s1 := { s with atomRun := none, act := Act.idle }
    (s1.refuseAt run.req.who oa code).wakeHeld.pollWatches

/-- As `abortAt`, naming the target. -/
def State.abortAtomic (s : State) (code : Code) : State := s.abortAt code ((s.atomRun.map fun r => r.req.oa.toNat).getD 0)

/-- Older instructions are not complete (R245): one waits in the execute half, or an atomic request has not produced its entry (R246). -/
def Act.olderWait (a : Act) : Bool :=
  !a.exq.isEmpty || a.ldq.any fun p : LdqPlace => match p with
    | .reserved _ => true
    | _ => false

/-- Takes a trap (R398): an activation in a general slot under R346; the atomic slot aborts its handler (R177). Older instructions
complete first (R245). -/
def State.takeTrap (s : State) (r : TrapReq) : Out :=
  if s.inAtomic then .next (s.abortAtomic r.code)
  else if s.act.olderWait then s.keepTrap r
  else s.takeTrapGeneral r

/-- A precise trap on the instruction in service, with its address word (R343). -/
def State.trap (s : State) (code : Code) (addr : Word) : Out := s.takeTrap (s.trapReq code addr)

/-- As `trap`, for an access whose port reported a memory error (R79). -/
def State.trapMem (s : State) (code : Code) (mem : Bool) (addr : Word) : Out :=
  s.takeTrap { s.trapReq code addr with mem := mem }

/-- The first deferred trap, taken on the instruction in service (R169). -/
def State.takeDeferred (s : State) : Out :=
  match s.act.deferred with
  | [] => .next s
  | t :: ts =>
    let dead (e : TokEnt) : Bool := t.tok != 0 && e.tok == t.tok && e.st == TokSt.dead
    let clear (x : BitVec 24) : BitVec 24 := if x == t.tok && (t.dies || s.toks.any dead) then 0 else x
    let s1 := { s with act := { s.act with deferred := ts, reportFirst := s.act.reportFirst && !ts.isEmpty, toks := Vector.ofFn fun i : Fin 4 => clear s.act.toks[i] },
                       toks := s.toks.filter fun e : TokEnt => !dead e }
    s1.takeTrap { code := t.code, addr := t.addr, place := t.place, tok := t.tok, pc := t.pc, resume := s.act.trapPc,
                  isDef := true, mem := t.mem, sw := false, pay := false, iw := t.iw, pfx := t.pfx, info := some t }

/-- The return from a trap handler (R349): word 5 of the slot's trap frame, read at its port now. -/
def State.returnFromTrap (s : State) : Out :=
  if s.inAtomic then .next (s.abortAtomic 0x05)
  else if !s.act.tm then s.trap 0x05 0
  else if !s.act.exq.isEmpty then s.stall
  else
    let oa := (s.trapFrame s.act.reg s.slotNo.val).toNat + 40
    match s.act.phase with
    | .missWait _ => s.stall
    | .refused c m => s.trapMem c m (BitVec.ofNat 64 oa)
    | _ =>
      match s.checkOwn .load oa with
      | .miss => (s.missWait oa .load s.requester (.wake (slotOfIdx s.cur))).waitIn (.missWait (BitVec.ofNat 64 oa))
      | .snoop line => (s.sendSnoop line).stallAt oa
      | .wait => s.stallAt oa
      | .fault c m => s.trapMem c m (BitVec.ofNat 64 oa)
      | .ok site =>
        let w := wordOf (s.view site 8)
        if !isOwn w then s.trap 0x03 w
        else if w.extractLsb' 0 2 != 0 then s.trap 0x02 w
        else .next ({ s with act := { s.act.settled with tm := false, pc := w } }.unblock)

end Sys2Proof.Machine
end

