-- ==== Sys2Proof/Machine/Control.lean ====
section
/-!
DEFINITION. The control registers of R351 and the rest of the control window (R25, R26, R36, R73, R103): what a read gives, and
what a write checks and does. `cget`, `cset` and the control-window accesses of loads and stores share these.
-/
namespace Sys2Proof.Machine

/-! ## Fields -/


/-- Whether the bits from `lo` up are zero, `len` of them. -/
def zeroAt (w : Word) (lo len : Nat) : Bool := w.toNat / 2 ^ lo % 2 ^ len == 0

/-- `ctl.self` (R345). -/
def State.selfWord (s : State) : Word :=
  (0#36 ++ BitVec.ofNat 3 s.act.reg.val ++ b1 s.act.tm ++ BitVec.ofNat 3 s.cur.val ++ s.act.chan ++ 0#1 ++ s.lcell : BitVec 64)

/-- `ctl.chmask` (R206). -/
def maskWord (hs : Vector Handler 32) : Word :=
  BitVec.ofNat 64 ((List.finRange 32).foldl (fun n i =>
    if i.val < 29 && hs[i].v && hs[i].mask then n + 2 ^ i.val else n) 0)

def maskHandlers (hs : Vector Handler 32) (w : Word) : Vector Handler 32 :=
  Vector.ofFn fun i : Fin 32 => if i.val < 29 && hs[i].v then { hs[i] with mask := w.getLsbD i.val } else hs[i]

/-- The channels with a message in the modelled cell's inbox or in a sump (R206). -/
def State.pendWord (s : State) : Word :=
  let has (c : Nat) : Bool :=
    s.inbox.any (fun m : InMsg => m.msg.chan.toNat == c) ||
    s.me.regs.toList.any fun r : RegEntry => r.v && r.sumpChans.any fun x : BitVec 5 => x.toNat == c
  BitVec.ofNat 64 ((List.range 29).foldl (fun n c => if has c then n + 2 ^ c else n) 0)

/-- A barrier register (R219). -/
def BarReg.word (b : BarReg) : Word := (b1 b.bound ++ b1 b.arr ++ b1 b.ph ++ b1 b.err ++ 0#28 ++ b.rect : BitVec 64)

/-- A watch register (R315). -/
def WatchReg.word (w : WatchReg) : Word :=
  let st : BitVec 2 := match w.st with
    | .empty => 0 | .pending => 1 | .answered => 2 | .failed => 3
  (st ++ b1 w.acq ++ 0#53 ++ (if w.st == .failed then w.code else 0) : BitVec 64)

/-- Its answer (R315). -/
def WatchReg.answer (w : WatchReg) : Word := if w.st == .answered then w.val else 0

/-- `ctl.evq` (R104). -/
def Cluster.evqWord (cl : Cluster) : Word := (0#39 ++ cl.evTail ++ 0#7 ++ cl.evHead : BitVec 64)

/-- `ctl.cisref`: the refresh window in progress, or the next one (R101). -/
def Cluster.cisrefWord (cl : Cluster) : Word :=
  let k := cl.aktime.toNat / 1200000 + (if cl.refreshTick < 1200 then 0 else 1)
  (BitVec.ofNat 4 k ++ BitVec.ofNat 60 (k * 1200000) : BitVec 64)

/-- `ctl.holdq`: what the partition holds, and its quota (R192). -/
def State.holdqWord (s : State) : Word :=
  (0#35 ++ BitVec.ofNat 13 (s.cl.holdUsed s.cl.ptn) ++ 0#3 ++ s.cl.holdq : BitVec 64)

/-- Time passes before a look at the refresh timebase, by an amount that the model leaves free (R100). -/
def State.tick (s : State) : State :=
  { s with cl := { s.cl with aktime := s.cl.aktime + BitVec.ofNat 64 (Config.ticksElapsed s.free) }, free := s.free + 1 }

/-! ## Reading a control register (R350, R351) -/

/-- Who makes an access to a control register: a cell of the cluster, the control cell that its issuing region names, that
region's RCB, and whether it is the activation in service. -/
structure Issuer where
  cell : Fin 64
  ctlc : Nat
  rcb  : Word
  own  : Bool
  deriving DecidableEq, Repr

/-- The activation in service as an issuer. -/
def State.issuer (s : State) : Issuer := { cell := s.self, ctlc := s.regEntry.info.ctlc.toNat, rcb := s.rcb, own := true }

/-- Whether the issuing cell may reach the pages, registers and ring of R26. -/
def Issuer.privileged (i : Issuer) : Bool := i.ctlc == i.cell.val || i.cell == 63

/-- A slot register: the issuing activation's own state, and 0 through another cell's page (R350); the atomic slot has no trap frame
(DESIGN CHOICE, log 110). -/
def State.readSlotCtl (s : State) (idx : Nat) : Option Word :=
  let h := s.me.handlers[s.act.chan.toFin]
  match idx with
  | 0x000 => some s.selfWord
  | 0x002 => some (if s.inAtomic then 0 else s.trapFrame s.act.reg s.slotNo.val)
  | 0x024 => some (h.sc[0].setWidth 64)
  | 0x025 => some (h.sc[1].setWidth 64)
  | 0x026 => some (h.sc[2].setWidth 64)
  | 0x027 => some (h.sc[3].setWidth 64)
  | 0x030 => some s.act.watch[0].word
  | 0x031 => some s.act.watch[1].word
  | 0x032 => some s.act.watch[2].word
  | 0x033 => some s.act.watch[3].word
  | 0x034 => some s.act.watch[0].answer
  | 0x035 => some s.act.watch[1].answer
  | 0x036 => some s.act.watch[2].answer
  | 0x037 => some s.act.watch[3].answer
  | _ => none

/-- A cell register of cell `n`. -/
def State.readCellCtl (s : State) (n : Fin 64) (idx : Nat) : Option Word :=
  let c := s.cells[n]
  match idx with
  | 0x001 => some c.trapvec
  | 0x008 => some c.round
  | 0x009 => some c.srseed
  | 0x00A => some c.nfenc
  | 0x010 => some c.lsattr
  | 0x018 => some c.mewgt
  | 0x020 => some (maskWord c.handlers)
  | 0x021 => some (if n == s.self then s.pendWord else ((Config.freeWord s.free).setWidth 32).setWidth 64)
  | 0x028 => some c.bars[0].word
  | 0x029 => some c.bars[1].word
  | 0x02A => some c.bars[2].word
  | 0x02B => some c.bars[3].word
  | _ => none

/-- A cluster register, read through cell `n`. -/
def State.readCluCtl (s : State) (i : Issuer) (n : Fin 64) (idx : Nat) : Option Word :=
  let cl := s.cl
  match idx with
  | 0x100 => some cl.place
  | 0x101 => some (cl.ptn.setWidth 64)
  | 0x102 => some cl.pubctr
  | 0x103 => some cl.aktime
  | 0x104 => some cl.walkbuf
  | 0x105 => if i.ctlc == n.val || n == 63 then some cl.evqWord else none
  | 0x106 => some s.holdqWord
  | 0x107 => some (cl.cmpt.setWidth 64)
  | 0x108 => some (b1 cl.busy ++ 0#62 ++ b1 cl.fill : BitVec 64)
  | 0x109 => some cl.cisattr
  | 0x10A => some cl.cisrefWord
  | 0x10C => some cl.collbw
  | 0x10D => some cl.clucfg
  | _ =>
    if 0x110 ≤ idx && idx ≤ 0x113 then some cl.depwin[Fin.ofNat 4 (idx - 0x110)]
    else if 0x120 ≤ idx && idx ≤ 0x12F then some cl.fmt[Fin.ofNat 16 (idx - 0x120)]
    else none

/-- A control register as cell `n` reads it; `none` is refused with 0x05. A slot register of another cell's activation lies outside
the modelled part: the answer is a free value. -/
def State.readCtl (s : State) (i : Issuer) (n : Fin 64) (idx : Nat) : Option Word :=
  match s.readSlotCtl idx with
  | some w => some (if n != i.cell then 0 else if i.own then w else Config.freeWord s.free)
  | none =>
    match s.readCellCtl n idx with
    | some w => some w
    | none => s.readCluCtl i n idx

/-- Whether a register shows the refresh timebase. -/
def timeIndex (idx : Nat) : Bool := idx == 0x103 || idx == 0x10A

/-- Whether a register shows something outside the modelled part: a slot register of another cell's activation, or another cell's
`ctl.chpend`, whose inbox and sumps are not modelled (R206). -/
def State.showsFree (s : State) (i : Issuer) (n : Fin 64) (idx : Nat) : Bool := !i.own || (idx == 0x021 && n != s.self)

/-- A read, after the free passage of time where the register shows it. -/
def State.lookCtl (s : State) (i : Issuer) (n : Fin 64) (idx : Nat) : Option (Word × State) :=
  let s1 := if timeIndex idx then s.tick else if s.showsFree i n idx then { s with free := s.free + 1 } else s
  (s1.readCtl i n idx).map fun w => (w, s1)

/-! ## Writing a control register (R350 to R352) -/

/-- A walk is in progress or queued (R149); an advance without a walk counts as one (DESIGN CHOICE, log 92). -/
def Cluster.walking (cl : Cluster) : Bool := cl.walk.isSome || !cl.walkQ.isEmpty

/-- Whether an activation of the issuing region other than the issuer is in a slot of a cell of the cluster (R96, R116). -/
def State.othersInSlots (s : State) (i : Issuer) : Bool :=
  (if i.own then s.cl.others.contains i.rcb else decide (1 < (s.cl.others.filter fun r : Word => r == i.rcb).length)) ||
  (List.finRange 5).any fun k => (!i.own || k != s.cur) && (s.slotAct k).live && s.me.regs[(s.slotAct k).reg].info.rcb == i.rcb

/-- Whether a command of an engine of the cluster is outstanding (R96, R116). -/
def State.engineBusy (s : State) : Bool :=
  !s.mx.queue.isEmpty || !s.cl.pullQ.isEmpty || !s.cl.collQ.isEmpty || !s.cl.pullHeld.isEmpty || !s.cl.collHeld.isEmpty || !s.cl.engElse.isEmpty

/-- The refusals of `ctl.lsattr` (R21), for one of its words. -/
def lsHalfOk (w : BitVec 32) : Bool :=
  !(w.getLsbD 15 && w.getLsbD 17) && w.extractLsb' 19 3 != 7 && w.extractLsb' 0 14 == 0

/-- The refusals of `ctl.cisattr` (R23): dep, tags, x and w are zero, and what R20 reserves. -/
def cisattrOk (w : Word) : Bool :=
  zeroAt w 32 32 && zeroAt w 0 18 && w.extractLsb' 19 3 != 7

/-- The refusals of a deposit window (R173). -/
def depwinOk (w : Word) : Bool :=
  let base := (w.extractLsb' 7 27).toNat * 128
  let len := (w.extractLsb' 34 24).toNat * 128
  zeroAt w 58 5 && zeroAt w 0 7 &&
  (!w.getLsbD 63 || (len != 0 && (decide (base + len ≤ 0x200000000) ||
    (decide (0x200000000 ≤ base) && decide (base + len ≤ 0x201000000) && decide (base % 0x40000 + len ≤ 0x40000)))))

/-- Consumes entries of the event queue, lets waiting ones in, and sends the notice of a queue left non-empty (R104, R105). -/
def State.drainEvents : Nat → State → State
  | 0, s => s
  | n + 1, s =>
    match s.cl.evWait with
    | [] => s
    | e :: es => if s.cl.evFull then s else drainEvents n ({ s with cl := { s.cl with evWait := es } }.postEntry e)

/-- Engines that stayed busy for want of room in the queue post their events (R105). -/
def State.wakeEngines (s : State) : State :=
  let s1 := (s.cl.pullQ.filter fun c : PullCmd => c.fin.isSome).foldl (fun (st : State) (c : PullCmd) => st.push (.pullAccess c.num)) s
  if s.cl.collQ.any fun c : CollCmd => c.fin.isSome then s1.push .collStep else s1

def State.consumeEvents (s : State) (head : BitVec 9) : State :=
  let s1 := { s with cl := { s.cl with evHead := head } }
  let s2 := if s1.cl.evHead == s1.cl.evTail then s1 else s1.eventNotice
  (State.drainEvents s2.cl.evWait.length s2).wakeEngines

/-- Whether a head value lies from the old head to the tail (R104). -/
def Cluster.headOk (cl : Cluster) (head : BitVec 9) : Bool := decide ((head - cl.evHead).toNat ≤ (cl.evTail - cl.evHead).toNat)

/-- Starts a change of the cistern's mode (R96, R97, R99); `cell` is the control cell that made it. -/
def State.startCistern (s : State) (fill : Bool) (cell : Fin 64) : State :=
  ({ s with cl := { s.cl with busy := true, cisIssuer := s.lcellOf cell } }).push (if fill then .fillDone else .serveDone)

/-- A cell register's write. -/
def State.writeCellCtl (s : State) (n : Fin 64) (idx : Nat) (v : Word) : Option State :=
  let put (ok : Bool) (f : CellRegs → CellRegs) : Option State := if ok then some (s.setCell n (f s.cells[n])) else none
  match idx with
  | 0x001 => put (zeroAt v 59 4 && zeroAt v 34 22 && zeroAt v 0 2) fun c => { c with trapvec := v }
  | 0x008 => put (zeroAt v 8 56 && zeroAt v 3 4 && decide (v.toNat % 8 ≤ 4)) fun c => { c with round := v }
  | 0x009 => put (zeroAt v 32 32 && v != 0) fun c => { c with srseed := v }
  | 0x00A => put (zeroAt v 16 48 && v.extractLsb' 4 3 != 7) fun c => { c with nfenc := v }
  | 0x010 => put (lsHalfOk (v.extractLsb' 0 32) && lsHalfOk (v.extractLsb' 32 32)) fun c => { c with lsattr := v }
  | 0x018 => put (zeroAt v 4 60 && v != 0) fun c => { c with mewgt := v }
  | 0x020 => put (zeroAt v 32 32) fun c => { c with handlers := maskHandlers c.handlers v }
  | _ => none

/-- A cluster register's write, issued by the control cell. While the cistern returns to serve mode, fill = 0 is taken again (DESIGN
CHOICE, log 88). -/
def State.writeCluCtl (s : State) (i : Issuer) (n : Fin 64) (idx : Nat) (v : Word) : Option State :=
  let cl := s.cl
  let put (ok : Bool) (c : Cluster) : Option State := if ok then some { s with cl := c } else none
  match idx with
  | 0x104 => put (zeroAt v 34 29 && zeroAt v 0 19 && !v.getLsbD 33 && !cl.walking) { cl with walkbuf := v }
  | 0x105 =>
    let head := v.extractLsb' 0 9
    if zeroAt v 25 39 && zeroAt v 9 7 && cl.headOk head then some (s.consumeEvents head) else none
  | 0x108 =>
    let fill := v.getLsbD 0
    if !zeroAt v 1 62 then none
    else if fill == cl.fill then some s
    else if fill && (s.othersInSlots i || s.engineBusy || cl.busy) then none
    else some (s.startCistern fill n)
  | 0x109 => put (cl.fill && cisattrOk v) { cl with cisattr := v }
  | 0x10C => put (zeroAt v 8 56 && v.extractLsb' 4 4 != 0 && v.extractLsb' 0 4 != 0) { cl with collbw := v }
  | _ =>
    if 0x110 ≤ idx && idx ≤ 0x113 then put (depwinOk v) { cl with depwin := cl.depwin.set (Fin.ofNat 4 (idx - 0x110)) v }
    else if 0x120 ≤ idx && idx ≤ 0x12F then
      put (fmtValid v && !s.othersInSlots i && !s.engineBusy) { cl with fmt := cl.fmt.set (Fin.ofNat 16 (idx - 0x120)) v }
    else none

/-- A write as cell `n` issues it; `none` is refused with 0x05 and changes nothing. -/
def State.writeCtl (s : State) (i : Issuer) (n : Fin 64) (idx : Nat) (v : Word) : Option State :=
  if idx < 0x100 then s.writeCellCtl n idx v
  else if i.ctlc == n.val then s.writeCluCtl i n idx v
  else none

/-! ## The control window (R25, R26, R36, R73) -/

/-- Scrub-pending frames (R72). -/
def Cluster.pending (cl : Cluster) : Nat := Config.sliceFrames - cl.clean.length

/-- `tlbstat` (R74). -/
def Cluster.tlbstat (cl : Cluster) : Word :=
  (0#10 ++ BitVec.ofNat 6 (min 63 cl.miss.length) ++ 0#7 ++ BitVec.ofNat 9 (cl.tlb.filter fun e : TlbEnt => e.pin).length ++ 0#3 ++
    BitVec.ofNat 13 cl.tlb.length ++ cl.epoch : BitVec 64)

/-- A home register by its offset (R73). -/
def Cluster.homeReg (cl : Cluster) (off : Nat) : Word :=
  match off / 8 with
  | 0 => cl.tlbstat
  | 1 => (0#63 ++ b1 cl.tlbctl : BitVec 64)
  | 2 => BitVec.ofNat 64 Config.sliceFrames
  | 3 => (b1 (cl.pending != 0) ++ 0#47 ++ BitVec.ofNat 16 cl.pending : BitVec 64)
  | 4 => cl.pkgbase
  | 5 => cl.pkgbound
  | k => cl.vfpair[Fin.ofNat 16 (k - 32)]

/-- Word `k` of the event-queue ring (R103). -/
def Cluster.ringWord (cl : Cluster) (k : Nat) : Word :=
  let e := cl.evRing[Fin.ofNat 256 (k / 4)]
  match k % 4 with
  | 0 => e.w0
  | 1 => e.w1
  | 2 => e.w2
  | _ => e.w3

/-- A word of the place-table range (R36). -/
def Cluster.placeWord (cl : Cluster) (off : Nat) : Word :=
  if off < 8 then cl.mapHead
  else if off < 0x2000 then cl.map[Fin.ofNat 512 ((off - 0x1000) / 8)]
  else wordOf ((List.range 8).map fun j => cl.cellMap[Fin.ofNat 64 ((off - 0x2000) / 8 * 8 + j)])

/-- An 8-byte load from the control window at an offset that is no hole; `none` is refused with 0x05. -/
def State.ctlLoad (s : State) (i : Issuer) (off : Nat) : Option (Word × State) :=
  if off < 0x400000 then
    let n : Fin 64 := Fin.ofNat 64 (off / 0x10000)
    if n == i.cell || i.privileged then s.lookCtl i n (off % 0x10000 / 8) else none
  else if off < 0x500000 then (if i.privileged then some (s.cl.homeReg (off - 0x400000), s) else none)
  else if off < 0x600000 then (if i.privileged then some (s.cl.ringWord ((off - 0x500000) / 8), s) else none)
  else some (s.cl.placeWord (off - 0x600000), s)

/-- Enables translation (R75): accesses queued ahead keep the boot mapping. -/
def State.enableTlb (s : State) : State :=
  let s1 := if s.cl.tlbctl then s else s.keepXlat
  { s1 with cl := { s1.cl with tlbctl := true } }

/-- A write of `tlbctl` (R73, R75). -/
def State.writeTlbctl (s : State) (v : Word) : Option State :=
  if !zeroAt v 1 63 then none
  else if v.getLsbD 0 then some s.enableTlb
  else if s.cl.tlbctl then none
  else some s

/-- An 8-byte store to the control window at an offset that is no hole; `none` is refused with 0x05. Of what cells may not write
(R36, R73, R102) a store is refused. -/
def State.ctlStore (s : State) (i : Issuer) (off : Nat) (v : Word) : Option State :=
  if off < 0x400000 then
    let n : Fin 64 := Fin.ofNat 64 (off / 0x10000)
    if n == i.cell || i.privileged then s.writeCtl i n (off % 0x10000 / 8) v else none
  else if off < 0x500000 then (if i.privileged && (off - 0x400000) / 8 == 1 then s.writeTlbctl v else none)
  else none

end Sys2Proof.Machine
end

