-- ==== Sys2Proof/Machine/FpAlu.lean ====
section
/-!
DEFINITION. Floating-point computations of the execute half, as functions of values and of the generator's state: scalar operations
(R297), conversions (R298, R303, R308), lane operations (R300), the encodings of stores (R302, R304), reductions (R305) and
compares (R306).
-/
namespace Sys2Proof.Machine

/-- A rounding mode that is settled (R126): `dyn` has been replaced. Code 0 to 4 of `ctl.round`.mode. -/
def modeOfCode (n : Nat) : Rnd :=
  match n with
  | 1 => .rtz | 2 => .rdn | 3 => .rup | 4 => .rst | _ => .rne

/-- One draw where the mode is stochastic (R128): the generator's new state and the draw. -/
def takeDraw (rm : Rnd) (seed : BitVec 32) : BitVec 32 × Nat :=
  if rm == .rst then (nextDraw seed, (nextDraw seed).toNat) else (seed, 0)

/-! ## Scalar (R297) -/

/-- `fmin` or `fmax`, with -0 below +0; exactly one NaN gives the other operand, two give the first, quieted (R113, R297). -/
def fminmax (f : Fmt) (wantMax : Bool) (x y : Nat) : Nat :=
  let dx := fdecode f x
  let dy := fdecode f y
  if dx.isNan then (if dy.isNan then fquiet f x else y)
  else if dy.isNan then x
  else
    let c := fvalCmp dx dy
    let xLess := if c == 0 then dx.neg? && !dy.neg? else decide (c < 0)
    let same := c == 0 && dx.neg? == dy.neg?
    if same then x else if xLess != wantMax then x else y

/-- |x| and -x on the sign bit only (R113). -/
def fabsBits (f : Fmt) (x : Nat) : Nat := x % 2 ^ (f.mb + f.eb)

/-- `fclass` (R297). -/
def fclassMask (f : Fmt) (x : Nat) : Nat :=
  match fdecode f x with
  | .inf true => 1
  | .inf false => 2 ^ 7
  | .nan _ fr => if fr / 2 ^ (f.mb - 1) % 2 == 1 then 2 ^ 9 else 2 ^ 8
  | .fin s m _ =>
    if m == 0 then (if s then 2 ^ 3 else 2 ^ 4)
    else if m < 2 ^ f.mb then (if s then 2 ^ 2 else 2 ^ 5)
    else if s then 2 ^ 1 else 2 ^ 6

/-- Rounds to an integral value of the format (R297 `frnd`). -/
def frint (f : Fmt) (rm : Rnd) (draw x : Nat) : FRes :=
  match fdecode f x with
  | .nan _ _ => nanRes (fquiet f x)
  | .inf _ => nanRes x
  | .fin s m e =>
    if m == 0 then nanRes x
    else
      let n := roundDyadic m e rm s draw
      let r := fround f .rtz s n 0 0
      { r with inexact := !dyadicInt m e }

/-- m truncated toward zero, kept within ±5000, beyond which every scaling overflows or vanishes alike. -/
def truncClamp (s : Bool) (m : Nat) (e : Int) : Int :=
  let big := decide (5000 ≤ (Nat.log2 m : Int) + e)
  let n : Nat := if big then 5000 else min 5000 (roundDyadic m e .rtz false 0)
  if s then -(n : Int) else n

/-- A × 2^trunc(m), rounded once (R297 `fscale`). -/
def fscaleBits (f : Fmt) (rm : Rnd) (draw a m : Nat) : FRes :=
  match nanOf2 f a m with
  | some b => nanRes b
  | none =>
    match fdecode f a, fdecode f m with
    | .inf s, .inf t => if t then nanRes (fnanDefault f) else nanRes (finf f s)
    | .fin s x _, .inf t =>
      if t then nanRes (fzero f s) else if x == 0 then nanRes (fnanDefault f) else nanRes (finf f s)
    | .inf s, _ => nanRes (finf f s)
    | .fin s x e, .fin ts tm te => if x == 0 then nanRes a else fround f rm s x (e + truncClamp ts tm te) draw
    | _, _ => nanRes (fnanDefault f)

/-- Flags of `fcmp`: Z equal, N less, X unordered (R294). -/
def fcmpFlags (f : Fmt) (a m : Nat) : Flags :=
  let da := fdecode f a
  let dm := fdecode f m
  if da.isNan || dm.isNan then { z := false, n := false, c := false, o := false, x := true }
  else { z := fvalCmp da dm == 0, n := decide (fvalCmp da dm < 0), c := false, o := false, x := false }

/-! ## Conversions (R298, R114) -/

/-- Rounds a value to an integer and clamps it: the integer, O (clamped or NaN), and C (the rounding was inexact). -/
structure IntRes where
  n : Int
  o : Bool
  c : Bool
  deriving DecidableEq, Repr

/-- A floating value as an integer of the range [lo, hi] (R298, R303). An infinity or a NaN leaves C clear. -/
def toIntRange (lo hi : Int) (rm : Rnd) (draw : Nat) (v : FVal) : IntRes :=
  match v with
  | .nan _ _ => { n := 0, o := true, c := false }
  | .inf s => { n := if s then lo else hi, o := true, c := false }
  | .fin s m e =>
    let q := roundDyadic m e rm s draw
    let n : Int := if s then -(q : Int) else q
    { n := if n < lo then lo else if hi < n then hi else n, o := decide (n < lo) || decide (hi < n), c := !dyadicInt m e }

/-- Flags of a conversion to an integer (R294): N is the sign of a signed result. -/
def intCvtFlags (dt : Ty) (r : Word) (c o : Bool) : Flags :=
  { z := readBits dt r == 0, n := dt.isSigned && decide (readInt dt r < 0), c := c, o := o, x := false }

/-- Integer to integer (R298). -/
def cvtIntInt (dt : Ty) (sat : Bool) (n : Int) : AOut :=
  let r := writeInt dt (if sat then clampTo dt n else n)
  { a := r, f := intCvtFlags dt r false (!inRange dt n) }

/-- A value into a floating format: with `sat`, a finite source that overflows gives the largest finite value (R298). -/
def cvtToFloat (src dst : Fmt) (sat : Bool) (rm : Rnd) (draw : Nat) (v : FVal) : FRes :=
  let r := fpack src dst rm v draw
  if sat && r.ovf then { r with bits := fmaxFin dst v.neg? } else r

def FVal.ofInt (n : Int) : FVal := .fin (decide (n < 0)) n.natAbs 0

/-- `cvt` and `cvts` from an integer operand (R298): `seed` in, new seed out. -/
def cvtFromInt (dt : Ty) (sat : Bool) (rm : Rnd) (seed : BitVec 32) (n : Int) : BitVec 32 × AOut :=
  if dt.isInt then (seed, cvtIntInt dt sat n)
  else
    let d := takeDraw rm seed
    let r := cvtToFloat Fmt.fp64 (tyFmt dt) sat rm d.2 (.ofInt n)
    (d.1, floatOut (tyFmt dt) r r.ovf)

/-- `cvt` and `cvts` from a floating operand of format `f` (R298). -/
def cvtFromFloat (f : Fmt) (dt : Ty) (sat : Bool) (rm : Rnd) (seed : BitVec 32) (bits : Nat) : BitVec 32 × AOut :=
  let d := takeDraw rm seed
  if dt.isInt then
    let i := toIntRange (intMin dt) (intMax dt) rm d.2 (fdecode f bits)
    let r := writeInt dt i.n
    (d.1, { a := r, f := intCvtFlags dt r i.c i.o })
  else
    let r := cvtToFloat f (tyFmt dt) sat rm d.2 (fdecode f bits)
    (d.1, floatOut (tyFmt dt) r r.ovf)

/-- Converts the low bits of a word from type `st` (R298, R308). -/
def cvtWord (st dt : Ty) (sat : Bool) (rm : Rnd) (seed : BitVec 32) (x : Word) : BitVec 32 × AOut :=
  if st.isInt then cvtFromInt dt sat rm seed (readInt st x)
  else cvtFromFloat (tyFmt st) dt sat rm seed (readBits st x)

/-! ## Lanes (R300, R302, R303) -/

/-- The results of 32 lanes with what they report, and the generator's new state. -/
structure VOut where
  v    : List Lane
  l    : LaneFlags
  seed : BitVec 32
  deriving DecidableEq, Repr

def LaneFlags.none : LaneFlags := { c := false, o := false, x := false }
def LaneFlags.or (a b : LaneFlags) : LaneFlags := { c := a.c || b.c, o := a.o || b.o, x := a.x || b.x }

/-- The flags of one binary32 lane result. -/
def laneFlagsOf (r : FRes) : LaneFlags :=
  { c := r.inexact, o := r.ovf, x := (fdecode Fmt.fp32 r.bits).isNan }

/-- Computes lanes in increasing order, one draw a lane where the mode is stochastic (R128). -/
def laneMap (rm : Rnd) (seed : BitVec 32) (op : Nat → Nat → FRes) : List Nat → VOut
  | [] => { v := [], l := .none, seed }
  | i :: is =>
    let d := takeDraw rm seed
    let r := op d.2 i
    let rest := laneMap rm d.1 op is
    { v := BitVec.ofNat 32 r.bits :: rest.v, l := (laneFlagsOf r).or rest.l, seed := rest.seed }

/-- Lane `i` of a list, as bits. -/
def laneNat (v : List Lane) (i : Nat) : Nat := (v.getD i 0).toNat

/-- The lane numbers in increasing order. -/
def laneIdx : List Nat := List.range 32

/-- The fused product of R300: V ± m × a, with operands V, m, a in NaN order. -/
def fmaLane (rm : Rnd) (draw : Nat) (negate : Bool) (v m a : Nat) : FRes :=
  let dv := fdecode Fmt.fp32 v
  if dv.isNan then nanRes (fquiet Fmt.fp32 v)
  else
    match nanOf2 Fmt.fp32 m a with
    | some b => nanRes b
    | none => ffma Fmt.fp32 rm draw (if negate then fnegate Fmt.fp32 m else m) a v

/-- An i32 lane result of a conversion. -/
def laneToInt (rm : Rnd) (sat : Bool) (seed : BitVec 32) (v : List Lane) : List Nat → VOut
  | [] => { v := [], l := .none, seed }
  | i :: is =>
    let d := takeDraw rm seed
    let r := toIntRange (-(2 ^ 31)) (2 ^ 31 - 1) rm d.2 (fdecode Fmt.fp32 (laneNat v i))
    let rest := laneToInt rm sat d.1 v is
    { v := (if r.o && !sat then 0x80000000#32 else BitVec.ofInt 32 r.n) :: rest.v,
      l := ({ c := r.c, o := r.o, x := false } : LaneFlags).or rest.l, seed := rest.seed }

/-- Lanes encoded into a storage format: codes, flags, seed. -/
structure EncOut where
  codes : List Nat
  l     : LaneFlags
  seed  : BitVec 32
  deriving DecidableEq, Repr

/-- Encodes lanes as fp16 or bf16 (R302, R303): saturating for `vpack`. -/
def encFloat (f : Fmt) (sat : Bool) (rm : Rnd) (seed : BitVec 32) (v : List Lane) : List Nat → EncOut
  | [] => { codes := [], l := .none, seed }
  | i :: is =>
    let d := takeDraw rm seed
    let r := cvtToFloat Fmt.fp32 f sat rm d.2 (fdecode Fmt.fp32 (laneNat v i))
    let rest := encFloat f sat rm d.1 v is
    { codes := r.bits :: rest.codes,
      l := ({ c := r.inexact, o := r.ovf, x := (fdecode f r.bits).isNan } : LaneFlags).or rest.l, seed := rest.seed }

/-- Whether an NF code is a NaN of its format. -/
def codeIsNan (d : Desc) (c : Nat) : Bool := (nfDecode d c).isNan

/-- Encodes lanes as NF codes of the value times 2^t (R302, R304); `nanAll` encodes every lane as a NaN source (R124). -/
def encNf (d : Desc) (t : Int) (nanAll sat : Bool) (rm : Rnd) (seed : BitVec 32) (v : List Lane) : List Nat → EncOut
  | [] => { codes := [], l := .none, seed }
  | i :: is =>
    let dr := takeDraw rm seed
    let x := if nanAll then FVal.dnan else (fdecode Fmt.fp32 (laneNat v i)).scaleBy t
    let r := nfEncode d rm sat dr.2 x
    let rest := encNf d t nanAll sat rm dr.1 v is
    { codes := r.code :: rest.codes,
      l := ({ c := r.inexact, o := r.inv || r.ovf, x := codeIsNan d r.code } : LaneFlags).or rest.l, seed := rest.seed }

/-! ## Exact float sums (R305) -/

/-- A term of an exact sum: a value, or a NaN already quieted. -/
inductive Term where
  | val (v : FVal)
  | bad (bits : Nat)
  deriving DecidableEq, Repr

/-- The term of a single binary32 operand. -/
def termOf (x : Nat) : Term :=
  match fdecode Fmt.fp32 x with
  | .nan _ _ => .bad (fquiet Fmt.fp32 x)
  | v => .val v

/-- The exact product of two binary32 operands as a term (R130). -/
def termProd (x y : Nat) : Term :=
  match nanOf2 Fmt.fp32 x y with
  | some b => .bad b
  | none =>
    match fdecode Fmt.fp32 x, fdecode Fmt.fp32 y with
    | .fin s1 m1 e1, .fin s2 m2 e2 => .val (.fin (s1 != s2) (m1 * m2) (e1 + e2))
    | a, b => if a.isZero || b.isZero then .bad (fnanDefault Fmt.fp32) else .val (.inf (a.neg? != b.neg?))

/-- The first NaN among terms. -/
def firstBad : List Term → Option Nat
  | [] => none
  | .bad b :: _ => some b
  | .val _ :: ts => firstBad ts

/-- Whether an infinity of the sign stands among the terms. -/
def hasInf (neg : Bool) (ts : List Term) : Bool :=
  ts.any fun t =>
    match t with
    | .val (.inf s) => s == neg
    | _ => false

/-- The exact sum of the finite terms, as a signed dyadic, with whether every term so far is a zero and its common sign. -/
structure Acc where
  neg : Bool
  m : Nat
  e : Int
  allNeg : Bool
  allPos : Bool
  deriving DecidableEq, Repr

def accTerm (a : Acc) (t : Term) : Acc :=
  match t with
  | .val (.fin s m e) =>
    let r := dyadicAdd a.neg a.m a.e s m e
    { neg := r.1, m := r.2.1, e := r.2.2, allNeg := a.allNeg && s, allPos := a.allPos && !s }
  | _ => a

/-- The exact sum of terms, rounded once to binary32 (R305, R130). -/
def exactSum (rm : Rnd) (draw : Nat) (ts : List Term) : FRes :=
  match firstBad ts with
  | some b => nanRes b
  | none =>
    if hasInf true ts && hasInf false ts then nanRes (fnanDefault Fmt.fp32)
    else if hasInf true ts then nanRes (finf Fmt.fp32 true)
    else if hasInf false ts then nanRes (finf Fmt.fp32 false)
    else
      let a := ts.foldl accTerm { neg := false, m := 0, e := 0, allNeg := true, allPos := true }
      if a.m == 0 then nanRes (fzero Fmt.fp32 (if a.allNeg then true else if a.allPos then false else rm == .rdn))
      else fround Fmt.fp32 rm a.neg a.m a.e draw

/-! ## Compares (R306) -/

def fpEq (x y : Nat) : Bool :=
  let a := fdecode Fmt.fp32 x
  let b := fdecode Fmt.fp32 y
  !a.isNan && !b.isNan && fvalCmp a b == 0

def fpLt (x y : Nat) : Bool :=
  let a := fdecode Fmt.fp32 x
  let b := fdecode Fmt.fp32 y
  !a.isNan && !b.isNan && decide (fvalCmp a b < 0)

def fpUn (x y : Nat) : Bool := (fdecode Fmt.fp32 x).isNan || (fdecode Fmt.fp32 y).isNan

end Sys2Proof.Machine
end

