-- ==== Sys2Proof/Machine/Operands.lean ====
section
/-!
DEFINITION. Operand forms: immediates and their widening (R250), addressing modes and access units (R229, R230, R237, R277), the
checks at the cell (R29 rows 1 to 3), place lookups (R37), the reflection cache (R87 to R94), loads and stores of the slot in
service (R280, R283, R284, R177), and the decoding of LDQ entries (R292, R124).
-/
namespace Sys2Proof.Machine

/-! ## Immediates (R250) -/

/-- The payload of a pending `ext` prefix. -/
def Act.ext? (a : Act) : Option (BitVec 24) :=
  match a.pfx with
  | some p =>
    match p.kind with
    | .ext x => some x
    | _ => none
  | none => none

/-- An immediate of `n` bits, widened by `ext` to 24 more, sign-extended. -/
def Act.wide (a : Act) {n : Nat} (imm : BitVec n) : Word :=
  match a.ext? with
  | some x => (x ++ imm).signExtend 64
  | none => imm.signExtend 64

/-- What the `tok` prefix asks for and names (R251). -/
def Act.askSlot (a : Act) : Option (Fin 4) :=
  match a.pfx with
  | some p =>
    match p.kind with
    | .tok ask _ => ask
    | _ => none
  | none => none

def Act.nameSlot (a : Act) (tn : TokName) : Option (Fin 4) :=
  match tn with
  | some k => some k
  | none =>
    match a.pfx with
    | some p =>
      match p.kind with
      | .tok _ nm => nm
      | _ => none
    | none => none

/-! ## Addresses (R229, R230, R277) -/

/-- Effective address and the pointer afterwards, for a scale `s` and a displacement `d` (R229). -/
structure Ea where
  ea : Word
  np : Word
  deriving DecidableEq, Repr

def eaOf (q : Ptr) (am : Am) (d : Word) (s : Nat) : Ea :=
  let off := d * BitVec.ofNat 64 s
  match am with
  | .disp => { ea := q.val + off, np := q.val }
  | .step => { ea := q.val, np := q.val + q.step.signExtend 64 }
  | .preUpd => { ea := q.val + off, np := q.val + off }
  | .postDisp => { ea := q.val, np := q.val + off }

/-- An access of a memory instruction: address, pointer afterwards, what is accessed, its alignment, and whether the mode itself
is an alignment fault (an NF access with am other than 0b00, R277). -/
structure Access where
  ea    : Word
  np    : Word
  unit  : AccUnit
  align : Nat
  bad   : Bool
  deriving DecidableEq, Repr

/-- Bytes of a group (R277). -/
def groupBytes (ty : Ty) : Nat := if ty == .ref then 128 else tyBits ty * 4

/-- The access of a form (R277). -/
def accessOf (q : Ptr) (am : Am) (d : Word) (form : QUnit) (ty : Ty) : Access :=
  if ty.isNf && form != .line then
    { ea := q.val, np := q.val, align := 128, bad := am != .disp,
      unit := if form == .element then .elem (ty == .nfs) d.toInt else .group (ty == .nfs) d.toInt }
  else
    let n := match form with
      | .element => tyBytes ty
      | .group => groupBytes ty
      | _ => 128
    let e := eaOf q am d n
    { ea := e.ea, np := e.np, unit := .bytes n, align := n, bad := false }

/-- The second operand of `vfmal`: the mode applied again to the updated pointer, or 128 bytes on (R237). -/
def Access.second (x : Access) (q : Ptr) (am : Am) (d : Word) (ty : Ty) : Access :=
  if am == .disp then { x with ea := x.ea + 128 }
  else accessOf { q with val := x.np } am d .group ty

/-- The pointer update of a mode (R229): the tag is cleared and the step kept. -/
def Act.bump (a : Act) (p : PReg) (am : Am) (np : Word) : Act := if am == .disp then a else a.setPVal p np

/-! ## Places (R37) -/

/-- The lookup of a pod address's package and, on the own package, cluster (R37); an entry of the package table that cannot be read is a
memory error (R79). -/
def State.placeFault (s : State) (addr : Word) : Option Code :=
  let lpkg := addr.extractLsb' 45 18
  if lpkg == s.cl.place.extractLsb' 45 18 then
    mapFault s.pkg.bare s.cl.map[(addr.extractLsb' 36 9).toFin]
  else if decide (s.cl.pkgbound.toNat ≤ lpkg.toNat) then some 0x04
  else if s.mem.poisoned (s.cl.pkgbase.toNat + 4 * lpkg.toNat) then some 0x0F
  else stFault ((s.pkgEntry lpkg.toNat).extractLsb' 30 2).toNat

/-! ## Far links (R35, R414, R427, R428) -/

/-- The physical package of a place in another package that is reached over a far link. -/
def State.farOf (s : State) (place : Word) : Option (BitVec 18) := (s.routeOf place).farTo

/-- A place over a far link that no valid peer entry reaches. -/
def State.noPeer (s : State) (place : Word) : Bool :=
  match s.farOf place with
  | some p => (s.pkg.farPeer p).isNone
  | none => false

/-- An addressed message leaves for another cluster in a class: at once, or, over a far link, when its session is up; with no valid peer
entry the fabric refuses it, and `no` takes the refusal, as it takes the loss of an intermediate (R420, R427). -/
def State.leaveOn (s : State) (cls : BitVec 2) (m : OutMsg) (no : Todo) : State :=
  let f := s.pkg.fateOf m.route
  if f == .refused then s.push no else s.release cls { m with fate := f } (some no)

/-- A request or a message leaves for another cluster, once it has passed its sender's lookup. -/
def State.leaveAs (s : State) (cls : BitVec 2) (m : OutMsg) (no : Todo) : State := s.leaveOn cls (s.addressed m) no

def State.leave (s : State) (m : OutMsg) (no : Todo) : State := s.leaveAs 0 m no

/-- Rows 1 to 3 of R29 for a load: form, alignment, place. -/
def State.cellCheck (s : State) (x : Access) : Option Code :=
  if !formOk x.ea then some 0x03
  else if x.bad || x.ea.toNat % x.align != 0 then some 0x02
  else if s.isHere x.ea then none
  else s.placeFault x.ea

/-- The address word of a record for a fault of an access (R396): the line for a shadowed or poisoned one. -/
def faultAddr (ea : Word) (c : Code) : Word := if c == 0x06 || c == 0x0F then ea &&& ~~~127#64 else ea

/-! ## The reflection cache (R87 to R94) -/

/-- The floor index of an owner place (R89). -/
def floorIdx (place : Word) : BitVec 8 :=
  let lpkg : BitVec 18 := place.extractLsb' 45 18
  let lclu : BitVec 9 := place.extractLsb' 36 9
  lpkg.extractLsb' 0 8 ^^^ lpkg.extractLsb' 8 8 ^^^ (lpkg.extractLsb' 16 2).setWidth 8 ^^^ lclu.extractLsb' 0 8 ^^^
    (lclu.extractLsb' 8 1).setWidth 8

def Cluster.floorOf (cl : Cluster) (idx : BitVec 8) : Option FloorEnt := cl.floor.find? fun e : FloorEnt => e.idx == idx
def Cluster.changeOf (cl : Cluster) (idx : BitVec 8) : BitVec 48 :=
  match cl.changes.find? fun e : BitVec 8 × BitVec 48 => e.1 == idx with
  | some e => cl.acqCount + e.2
  | none => cl.acqCount

/-- A lookup (R92): the line, where it hits. -/
def Cluster.reflHit (cl : Cluster) (place line : Word) : Option ReflLine :=
  match cl.floorOf (floorIdx place) with
  | none => none
  | some f =>
    if f.place != place then none
    else cl.refl.find? fun l : ReflLine => l.place == place && l.line == line && decide (f.floor.toNat ≤ l.stamp.toNat)

/-- What a hit gives for an access: `none` where the line does not hold what is needed to decode it (R117). -/
def ReflLine.entry (l : ReflLine) (oa : Nat) (ty : Ty) (u : AccUnit) (q : QUnit) : Option (Chk QEntry) :=
  let a : Attr := { Attr.boot with blen := l.geo.extractLsb' 0 3, scpl := l.geo.getLsbD 3 }
  let nf (scaled : Bool) (i : Int) (first n : Nat) : Option (Chk QEntry) :=
    match l.desc with
    | none => none
    | some d =>
      if scaled && !l.scaled then none
      else if i < 0 then some (.fault 0x02 false)
      else some (nfEntry d a l.bytes (fun _ => l.scale) oa ty scaled first n q)
  match u with
  | .bytes n =>
    let off := oa % 128
    some (.ok (bytesEntry ty q ((l.bytes.drop off).take n)
      ((List.range ((n + 7) / 8)).map fun j => l.tags.getLsbD (off / 8 + j))))
  | .elem scaled i => nf scaled i i.toNat 1
  | .group scaled g => nf scaled g (32 * g.toNat) 32

/-! ## Loads of the slot in service (R280) -/

/-- Why an access does not complete now: the instruction waits, or it is refused with a code, a memory-error mark and the address
word of its record. -/
inductive Stop where
  | wait (o : Out)
  | bad (c : Code) (m : Bool) (addr : Word)

/-- What becomes of the instruction in service. -/
def State.stopped (s : State) : Stop → Out
  | .wait o => o
  | .bad c m a => s.trapMem c m a

/-- The outcome of a load: the entry, or why there is none. -/
inductive Got where
  | ok (e : QEntry) (s : State)
  | stop (x : Stop)

/-- How many retry answers the access in progress has had (R400). -/
def Phase.retries : Phase → Nat
  | .again n => n
  | _ => 0

/-- A retry answer at a port of the own cluster (R400): the access is made again, or refused after 64. -/
def State.portRetry (s : State) (ea : Word) : Stop :=
  let n := s.act.phase.retries
  if 64 ≤ n then .bad 0x0C false ea
  else .wait ({ s with nextRid := s.nextRid + 1 }.waitIn (.retryWait s.nextRid (n + 1)))

/-- The miss of an own access (R59). -/
def State.ownMiss (s : State) (oa : Nat) (kind : AccKind) : Out :=
  (s.missWait oa kind s.requester (.wake (slotOfIdx s.cur))).waitIn (.missWait (BitVec.ofNat 64 oa))

/-- What a port of the own cluster answered other than a value. -/
def State.portOther {α : Type} (s : State) (ea : Word) (oa : Nat) (kind : AccKind) : Chk α → Stop
  | .ok _ => .wait s.stall
  | .miss => .wait (s.ownMiss oa kind)
  | .snoop line => .wait ((s.sendSnoop line).stallAt oa)
  | .wait => .wait (s.stallAt oa)
  | .fault c m => if c == 0x0C then s.portRetry ea else .bad c m (faultAddr ea c)

/-- The words of a load request: kind of unit, its size or index, and the type. -/
def unitWords (u : AccUnit) (ty : Ty) : List Word :=
  match u with
  | .bytes n => [0, BitVec.ofNat 64 n, (ty.code).setWidth 64]
  | .elem sc i => [if sc then 2 else 1, BitVec.ofInt 64 i, (ty.code).setWidth 64]
  | .group sc g => [if sc then 4 else 3, BitVec.ofInt 64 g, (ty.code).setWidth 64]

/-- Sends a load to its owner, recording the fill (R91, R280). -/
def State.sendLoad (s : State) (x : Access) (ty : Ty) : Out :=
  let rid := s.nextRid
  let s1 := { s with nextRid := s.nextRid + 1 }
  let place := prefixOf x.ea
  let f : Fill := { rid, place, line := x.ea &&& 0x3FFFFFF80#64, count := s.cl.changeOf (floorIdx place) }
  (({ s1 with cl := { s1.cl with fills := s1.cl.fills ++ [f] } }).leave (outMsg .loadReq place x.ea rid 0 (unitWords x.unit ty))
    (.refusedLoad rid 0x04)).waitIn (.loadWait rid s.act.phase.retries)

/-- The fill in flight that a load may join (R91): of its line, with the change count as it was recorded. -/
def State.joinable (s : State) (x : Access) : Option Fill :=
  let place := prefixOf x.ea
  s.cl.fills.find? fun f : Fill => f.place == place && f.line == (x.ea &&& 0x3FFFFFF80#64) && f.count == s.cl.changeOf (floorIdx place)

/-- A load joins a fill: it waits for the same reply. -/
def State.joinLoad (s : State) (f : Fill) (x : Access) (ty : Ty) (q : QUnit) : Out :=
  let j : LoadJoin := { rid := f.rid, slot := s.cur, oa := oaOf x.ea, ty, unit := x.unit, q }
  { s with joins := s.joins ++ [j] }.waitIn (.loadWait f.rid s.act.phase.retries)

/-- A load of a pod address of another cluster: the reflection cache, then the owner (R77, R92). -/
def State.podLoad (s : State) (x : Access) (ty : Ty) (q : QUnit) : Got :=
  let hit := (s.cl.reflHit (prefixOf x.ea) (x.ea &&& 0x3FFFFFF80#64)).bind fun l => l.entry (oaOf x.ea) ty x.unit q
  match hit with
  | some (.ok e) => .ok e s
  | some (.fault c m) => .stop (.bad c m (faultAddr x.ea c))
  | _ =>
    match s.joinable x with
    | some f => .stop (.wait (s.joinLoad f x ty q))
    | none => .stop (.wait (s.sendLoad x ty))

/-- Whether an access to the control window has a form that R26 and R280 admit. -/
def ctlFormOk (ty : Ty) (q : QUnit) (u : AccUnit) : Bool :=
  q == .element && u == .bytes 8 && (ty == .i64 || ty == .u64 || ty == .ref)

/-- Memory as the slot in service reads it: a handler in the atomic slot sees its own collected stores (R181). -/
def State.withCollected (s : State) : State :=
  match s.inAtomic, s.atomRun with
  | true, some r =>
    r.stores.foldl (fun (st : State) (c : Collected) =>
      match { st with atomRun := none }.checkPort s.requester .load c.oa.toNat with
      | .ok site => { st with mem := st.performAt site c.oa.toNat c.data }
      | _ => st) s
  | _, _ => s

/-- A load at a port of the own cluster (R77). -/
def State.ownLoad (s : State) (x : Access) (ty : Ty) (q : QUnit) (ptr : Bool) : Got :=
  let oa := oaOf x.ea
  if s.cl.window oa == .ctl then
    if !ctlFormOk ty q x.unit || (ty == .ref && !ptr) then .stop (.bad 0x05 false x.ea)
    else
      match s.ctlLoad s.issuer (oa - 0x2F0000000) with
      | none => .stop (.bad 0x05 false x.ea)
      | some (w, s1) => .ok (plainEntry ty q [w] 0 0) s1
  else
    match s.checkOwn .load oa with
    | .ok site =>
      match s.withCollected.readUnit site oa ty x.unit q with
      | .ok e => .ok e s
      | r => .stop (s.portOther x.ea oa .load r)
    | r => .stop (s.portOther x.ea oa .load r)

/-- A load that has not been sent yet; the atomic slot loads from its own space alone (R177). -/
def State.freshLoad (s : State) (x : Access) (ty : Ty) (q : QUnit) (ptr : Bool) : Got :=
  match s.cellCheck x with
  | some c => .stop (.bad c false x.ea)
  | none =>
    if s.isHere x.ea then s.ownLoad x ty q ptr
    else if s.inAtomic then .stop (.bad 0x05 false x.ea)
    else s.podLoad x ty q

/-- A load of the slot in service (R280): its entry, or what becomes of the instruction. -/
def State.load (s : State) (x : Access) (ty : Ty) (q : QUnit) (ptr : Bool) : Got :=
  match s.act.phase with
  | .loaded e => .ok e s
  | .refused c m => .stop (.bad c m (faultAddr x.ea c))
  | .none | .again _ => s.freshLoad x ty q ptr
  | _ => .stop (.wait s.stall)

/-! ## Stores of the slot in service (R283, R284) -/

/-- The outcome of a store: performed (or collected), or why not. -/
inductive Put where
  | ok (s : State)
  | stop (x : Stop)

/-- The address of the first word that R147 refuses (R343). -/
def State.storeFaultAddr (s : State) (ea : Word) (c : Code) (d : WData) : Word :=
  if c == 0x07 then ea + BitVec.ofNat 64 (s.escapeOff d) else faultAddr ea c

/-- The line a user handler holds, in own space (R176). -/
def State.heldOa (s : State) : Option Nat := s.atomRun.map fun r => r.req.oa.toNat / 128 * 128

/-- A store by a user handler: collected where it lies in the held line (R177). -/
def State.collectStore (s : State) (ea : Word) (d : WData) : Put :=
  match s.atomRun with
  | none => .stop (.bad 0x05 false ea)
  | some r =>
    if ea.toNat / 128 * 128 == r.req.oa.toNat / 128 * 128 then
      .ok { s with atomRun := some { r with stores := r.stores ++ [{ oa := ea, data := d }] } }
    else .stop (.bad 0x05 false ea)

/-- A store at a port of the own cluster; `v` is the word that a control register would take. -/
def State.portStore (s : State) (ea : Word) (d : WData) (v : Option Word) : Put :=
  let oa := ea.toNat
  if s.cl.window oa == .ctl then
    match v with
    | none => .stop (.bad 0x05 false ea)
    | some w =>
      match s.ctlStore s.issuer (oa - 0x2F0000000) w with
      | none => .stop (.bad 0x05 false ea)
      | some s1 => .ok s1
  else
    match (s.checkOwn .store oa).bind fun _ => s.checkWrite s.requester .store oa d with
    | .ok site => .ok (s.perform site oa d)
    | .fault 0x07 _ => .stop (.bad 0x07 false (s.storeFaultAddr ea 0x07 d))
    | .miss =>
      .stop (.wait ((s.missWrite .store s.requester oa d (.wake (slotOfIdx s.cur))).waitIn (.missWait (BitVec.ofNat 64 oa))))
    | r => .stop (s.portOther ea oa .store r)

/-- A store of the slot in service: form and alignment at the cell, then the port (R13, R27, R284). -/
def State.store (s : State) (x : Access) (d : WData) (v : Option Word) : Put :=
  if !isOwn x.ea then .stop (.bad 0x03 false x.ea)
  else if x.bad || x.ea.toNat % x.align != 0 then .stop (.bad 0x02 false x.ea)
  else if s.inAtomic then s.collectStore x.ea d
  else
    match s.act.phase with
    | .refused c m => .stop (.bad c m (s.storeFaultAddr x.ea c d))
    | .none | .again _ => s.portStore x.ea d v
    | _ => .stop (.wait s.stall)

/-- The data of an entry as a store of type `ty` takes it (R283); a word below the entry's end is zero. -/
def storeData (e : QEntry) (ty : Ty) (u : AccUnit) : WData :=
  match u with
  | .bytes n =>
    let words := (List.range ((n + 7) / 8)).map fun j => e.data.getD j 0
    let tags := if ty == .ref then (List.range (n / 8)).map fun j => e.tags.getLsbD j else (List.range (n / 8)).map fun _ => false
    .bytes ((words.flatMap bytesOf).take n) tags
  | .elem scaled i => .elem scaled i ((e.data.getD 0 0).setWidth 8) (e.desc.map fun d => (Desc.of d).width)
  | .group scaled g =>
    let codes := (e.data.flatMap bytesOf).take 32
    .group scaled g (codes ++ List.replicate (32 - codes.length) 0) e.mask e.desc e.geo e.scale e.whole

/-- The word that a control register takes from a store: an 8-byte element store of i64 or u64, or `sp` (R280). -/
def ctlWord (e : QEntry) (ty : Ty) (q : QUnit) (u : AccUnit) : Option Word :=
  if q == .element && u == .bytes 8 && (ty == .i64 || ty == .u64) then some (e.data.getD 0 0) else none

/-! ## Operands from entries (R292, R124) -/

/-- The rounding mode in force (R126). -/
def State.rm (s : State) (r : Rnd) : Rnd := if r == .dyn then modeOfCode (s.me.round.toNat % 8) else r
def State.nsc (s : State) : Bool := s.me.round.getLsbD 7
def State.seed (s : State) : BitVec 32 := s.me.srseed.setWidth 32
def State.setSeed (s : State) (x : BitVec 32) : State :=
  if x == s.seed then s else s.mapMe fun c => { c with srseed := x.setWidth 64 }

/-- Whether decoding an entry applies a NaN scale (R124). -/
def entryNan (e : QEntry) : Bool := e.ty == .nfs && e.scale == 0xFF

/-- The line that holds the scale of a segment (R396 for 0x12), for an access at the line `ea`. -/
def scaleLine (e : QEntry) (ea : Word) (first : Nat) : Word :=
  match e.desc with
  | none => ea
  | some d =>
    match nfsLocate (Desc.of d).width (e.geo.extractLsb' 0 3).toNat (e.geo.getLsbD 3) (oaOf ea) first with
    | some l => prefixOf ea + BitVec.ofNat 64 (l.scale / 128 * 128)
    | none => ea

/-- The integer lanes of a group entry; a lane that was not read is 0 (R292). -/
def entryInts (e : QEntry) : Lanes :=
  let bytes := e.data.flatMap bytesOf
  let n := tyBytes e.ty
  lanes fun i =>
    if e.mask.getLsbD i.val then BitVec.ofInt 32 (readInt e.ty (BitVec.ofNat 64 (leNat ((bytes.drop (n * i.val)).take n)))) else 0

/-- One float or NF lane before its rounding, and whether it is an nfs one. -/
def entryRaw (e : QEntry) (i : Nat) : Nat :=
  let bytes := e.data.flatMap bytesOf
  let n := if e.ty.isNf then 1 else tyBytes e.ty
  leNat ((bytes.drop (n * i)).take n)

/-- A lane as binary32: widened, decoded, or decoded and scaled under the rounding mode (R114, R118, R121). -/
def entryFloat (e : QEntry) (nsc : Bool) (rm : Rnd) (draw i : Nat) : FRes :=
  if !e.mask.getLsbD i then nanRes 0
  else
    let x := entryRaw e i
    match e.ty with
    | .nf => fpack Fmt.fp32 Fmt.fp32 .rne (nfDecode (Desc.of (e.desc.getD 0)) x) 0
    | .nfs =>
      if entryNan e && nsc then nanRes (fnanDefault Fmt.fp32)
      else nfsDecode (Desc.of (e.desc.getD 0)) e.scale.toNat rm draw x
    | t => fpack (tyFmt t) Fmt.fp32 .rne (fdecode (tyFmt t) x) 0

/-- The lanes of a float or NF group; draws are taken for nfs lanes that were read, in lane order (R128, R292). -/
def entryFloatsFrom (e : QEntry) (nsc : Bool) (rm : Rnd) : BitVec 32 → List Nat → VOut
  | seed, [] => { v := [], l := .none, seed }
  | seed, i :: is =>
    let d := if e.ty == .nfs && e.mask.getLsbD i then takeDraw rm seed else (seed, 0)
    let r := entryFloat e nsc rm d.2 i
    let rest := entryFloatsFrom e nsc rm d.1 is
    { v := BitVec.ofNat 32 r.bits :: rest.v,
      l := (if e.ty == .nfs then { laneFlagsOf r with x := false } else LaneFlags.none).or rest.l, seed := rest.seed }

def entryFloats (e : QEntry) (nsc : Bool) (rm : Rnd) (seed : BitVec 32) : VOut := entryFloatsFrom e nsc rm seed laneIdx

/-- A scalar NF element as binary32, with the draw of an nfs one (R292). -/
def entryElem (e : QEntry) (nsc : Bool) (rm : Rnd) (seed : BitVec 32) : VOut :=
  entryFloatsFrom { e with mask := 1, data := [e.data.getD 0 0] } nsc rm seed [0]

end Sys2Proof.Machine
end

