-- ==== Sys2Proof/Machine/Fetch.lean ====
section
/-!
DEFINITION. Fetching an instruction word through the slot's buffer (R223, R353), the rules of prefixes that do not depend on one
word alone (R229, R248 to R253), and the rule of a loop's end word (R274).
-/
namespace Sys2Proof.Machine

/-! ## Fetch (R223) -/

/-- The address of the line that holds an address. -/
def lineOf (a : Word) : Word := a &&& ~~~127#64

/-- The line of the PC, where the slot holds it. -/
def Act.heldLine (a : Act) (pc : Word) : Option (List Byte) :=
  match a.ibuf.find? fun e : Word × List Byte => e.1 == lineOf pc with
  | some e => some e.2
  | none => none

/-- The instruction word at a PC, from the bytes of its line. -/
def wordInLine (bs : List Byte) (pc : Word) : BitVec 32 :=
  (wordOfBytes ((bs.drop (pc.toNat % 128)).take 4)).getD 0

/-- Reads the instruction line of an address at its port (R20, R49, R53, R223). -/
def State.readLine (s : State) (pc : Word) : Chk (List Byte) :=
  (s.checkOwn .fetch pc.toNat).bind fun site => .ok (s.view site.line 128)

/-- Keeps a line in the buffer of the slot in service. -/
def State.keepLine (s : State) (pc : Word) (bs : List Byte) : State :=
  s.mapAct fun a => { a with ibuf := (lineOf pc, bs) :: a.ibuf.filter fun e : Word × List Byte => e.1 != lineOf pc }

/-- The outcome of a fetch. -/
inductive Fetched where
  | word (w : BitVec 32) (s : State)
  | stop (x : Stop)

/-- Fetches the word at the PC: from the buffer, else from memory. A fault is taken at the instruction being fetched. -/
def State.fetchWord (s : State) : Fetched :=
  let pc := s.act.pc
  match s.act.heldLine pc with
  | some bs => .word (wordInLine bs pc) s
  | none =>
    match s.act.phase with
    | .refused c m => .stop (.bad c m (faultAddr pc c))
    | .none | .again _ =>
      if !isOwn pc then .stop (.bad 0x03 false pc)
      else
        match s.readLine pc with
        | .ok bs => .word (wordInLine bs pc) (s.keepLine pc bs)
        | r => .stop (s.portOther pc pc.toNat .fetch r)
    | _ => .stop (.wait s.stall)

/-! ## Classes of words -/

def majorOf (w : BitVec 32) : Nat := (w.extractLsb' 26 6).toNat
def isPrefixWord (w : BitVec 32) : Bool := majorOf w == 0x3F
/-- The words that have no access-half part: majors 0x20 and 0x21 (R227). -/
def isExWord (w : BitVec 32) : Bool := majorOf w == 0x20 || majorOf w == 0x21
/-- Branches, loops and jumps: majors 0x02 to 0x06 (R274). -/
def isFlowWord (w : BitVec 32) : Bool := decide (2 ≤ majorOf w) && decide (majorOf w ≤ 6)

/-- M-format majors (R227). -/
def isMWord (w : BitVec 32) : Bool :=
  let m := majorOf w
  m == 8 || m == 9 || m == 0xB || (decide (0x10 ≤ m) && decide (m ≤ 0x13)) || (decide (0x18 ≤ m) && decide (m ≤ 0x1C))

/-- The targets that `ext` widens (R250); an M word with am = 0b01 is none (R229). -/
def extTarget (w : BitVec 32) : Bool :=
  let m := majorOf w
  let fnA := (w.extractLsb' 16 4).toNat
  let fnE := (w.extractLsb' 21 5).toNat
  if m == 1 then fnA == 3 || fnA == 9 || fnA == 0xA
  else if m == 2 || m == 0xA || m == 0xC then true
  else if m == 0x20 then
    (decide (1 ≤ fnE) && decide (fnE ≤ 4)) || fnE == 8 || fnE == 0xE || (fnE == 0 && w.extractLsb' 18 3 == 4)
  else isMWord w && w.extractLsb' 21 2 != 1

/-- The targets of `tok` (R251): the message instructions; `nm` before `mig`, or beside a name in tn, is none. -/
def tokTarget (w : BitVec 32) (nm : Bool) : Bool :=
  let m := majorOf w
  let fn := (w.extractLsb' 21 5).toNat
  let tn := w.extractLsb' 12 3
  if m == 0x2C || m == 0x2D then !(nm && tn != 0)
  else if m == 0x2E then
    if fn == 1 then !nm else (fn == 0 || fn == 2 || fn == 5) && !(nm && tn != 0)
  else false

/-- Whether the pending prefix admits the word as its target (R249 to R253). -/
def pfxAdmits (k : PfxKind) (w : BitVec 32) : Bool :=
  !isPrefixWord w &&
  match k with
  | .ext _ => extTarget w
  | .tok _ nm => tokTarget w nm.isSome
  | .hint => true

/-- The word stands at the end of the active loop's body (R274). -/
def Act.atLoopEnd (a : Act) : Bool := a.loop.count != 0 && a.pc == a.loop.stop

/-- What is wrong with the word where it stands: a misused prefix, or a prefix that ends a loop body (0x01, R249, R253). -/
def Act.misplaced (a : Act) (w : BitVec 32) : Bool :=
  (match a.pfx with
   | some p => !pfxAdmits p.kind w
   | none => false) || (a.atLoopEnd && isPrefixWord w)

end Sys2Proof.Machine
end

