-- ==== Sys2Proof/Machine/LoadStore.lean ====
section
/-!
DEFINITION. Loads to LDQ and to pointers and stores from STQ and from pointers, majors 0x08 to 0x0C (R236, R277 to R289).
-/
namespace Sys2Proof.Machine

/-- The LDQ has room for one more place (R278). -/
def Act.ldqRoom (a : Act) : Bool := decide (a.ldq.length < Config.ldqSize)
def Act.stqRoom (a : Act) : Bool := decide (a.stq.length < Config.stqSize)

/-- A load to LDQ (R280): the checks at the cell, then the place, then the read. -/
def State.loadQ (s : State) (p : PReg) (am : Am) (ty : Ty) (d : Word) (form : QUnit) : Out :=
  let x := accessOf s.act.p[p] am d form ty
  if !s.act.ldqRoom then
    match s.cellCheck x with
    | some c => s.trap c x.ea
    | none => s.stall
  else
    match s.load x ty form false with
    | .stop x => s.stopped x
    | .ok e s1 => (s1.mapAct fun a => { a.bump p am x.np with ldq := a.ldq ++ [.filled e] }).finish

def execLq (p : PReg) (am : Am) (ty : Ty) (d : BitVec 12) (s : State) : Out := s.loadQ p am ty (s.act.wide d) .element
def execLqv (p : PReg) (am : Am) (ty : Ty) (d : BitVec 12) (s : State) : Out := s.loadQ p am ty (s.act.wide d) .group
def execLql (p : PReg) (am : Am) (ty : Ty) (d : BitVec 12) (s : State) : Out := s.loadQ p am ty (s.act.wide d) .line
/-- The rl forms have the same effect as the l forms; they differ in issue time alone (R281). -/
def execRl (p : PReg) (am : Am) (ty : Ty) (d : BitVec 12) (s : State) : Out := s.loadQ p am ty (s.act.wide d) .element
def execRlv (p : PReg) (am : Am) (ty : Ty) (d : BitVec 12) (s : State) : Out := s.loadQ p am ty (s.act.wide d) .group
def execRll (p : PReg) (am : Am) (ty : Ty) (d : BitVec 12) (s : State) : Out := s.loadQ p am ty (s.act.wide d) .line

/-- The checks of a store at the cell (R13, R27, R29). -/
def storeCheck (x : Access) : Option Code :=
  if !isOwn x.ea then some 0x03 else if x.bad || x.ea.toNat % x.align != 0 then some 0x02 else none

/-- A store from STQ (R283, R284): the entry leaves the queue when the store is accepted. -/
def State.storeQ (s : State) (p : PReg) (am : Am) (ty : Ty) (d : Word) (form : QUnit) : Out :=
  let x := accessOf s.act.p[p] am d form ty
  match storeCheck x with
  | some c => s.trap c x.ea
  | none =>
    match s.act.stq with
    | [] => s.stall
    | e :: _ =>
      match s.store x (storeData e ty x.unit) (ctlWord e ty form x.unit) with
      | .stop x => s.stopped x
      | .ok s1 => (s1.mapAct fun a => { a.bump p am x.np with stq := a.stq.tail }).finish

def execSq (p : PReg) (am : Am) (ty : Ty) (d : BitVec 12) (s : State) : Out := s.storeQ p am ty (s.act.wide d) .element
def execSqv (p : PReg) (am : Am) (ty : Ty) (d : BitVec 12) (s : State) : Out := s.storeQ p am ty (s.act.wide d) .group
def execSql (p : PReg) (am : Am) (ty : Ty) (d : BitVec 12) (s : State) : Out := s.storeQ p am ty (s.act.wide d) .line

/-- The access of a pointer load or store (R287). -/
def State.ptrAccess (s : State) (ps : PReg) (imm : BitVec 16) : Access :=
  let ea := s.pv ps + s.act.wide imm * 8
  { ea, np := s.pv ps, unit := .bytes 8, align := 8, bad := false }

/-- A pointer load (R287): the step is kept. -/
def State.loadP (s : State) (pd ps : PReg) (imm : BitVec 16) : Out :=
  match s.load (s.ptrAccess ps imm) .ref .element true with
  | .stop x => s.stopped x
  | .ok e s1 =>
    (s1.mapAct fun a => a.setP pd { a.p[pd] with val := e.data.getD 0 0, tag := e.tags.getLsbD 0 }).finish

def execLp (pd ps : PReg) (imm : BitVec 16) (s : State) : Out := s.loadP pd ps imm
def execRlp (pd ps : PReg) (imm : BitVec 16) (s : State) : Out := s.loadP pd ps imm

def execSp (pd ps : PReg) (imm : BitVec 16) (s : State) : Out :=
  let q := s.act.p[pd]
  match s.store (s.ptrAccess ps imm) (.bytes (bytesOf q.val) [q.tag]) (some q.val) with
  | .stop x => s.stopped x
  | .ok s1 => s1.finish

end Sys2Proof.Machine
end

