-- ==== Sys2Proof/Machine/Publish.lean ====
section
/-!
DEFINITION. Fences (R182 to R184, R312) and publication (R143 to R163, R313, R314): rectangles, draining, the lamp walker with its
queue and pending shades, and the advance of a sequence word, which atomic requests share. Majors 0x28 and 0x29.
-/
namespace Sys2Proof.Machine

/-- Instructions of majors 0x28 to 0x38 act only after every older instruction of the activation has completed (R285). -/
def State.inOrder (s : State) (run : State → Out) : Out := if !s.act.exq.isEmpty then s.stall else run s

/-- What the atomic slot may not issue raises 0x05 there (R177, R311). -/
def State.generalOnly (s : State) (run : State → Out) : Out :=
  s.inOrder fun s1 => if s1.inAtomic then s1.trap 0x05 0 else run s1

/-! ## Rectangles (R31, R33, R41, R42) -/

structure Rect where
  x0 : Nat
  y0 : Nat
  x1 : Nat
  y1 : Nat
  deriving DecidableEq, Repr

def rectOf (w : BitVec 32) : Rect :=
  { x0 := (w.extractLsb' 0 9).toNat, y0 := (w.extractLsb' 9 7).toNat, x1 := (w.extractLsb' 16 9).toNat,
    y1 := (w.extractLsb' 25 7).toNat }

/-- Width and height of the grid in clusters (R33). -/
def Cluster.cw (cl : Cluster) : Nat := (cl.mapHead.extractLsb' 0 6).toNat
def Cluster.ch (cl : Cluster) : Nat := (cl.mapHead.extractLsb' 6 4).toNat + 1

def Cluster.rectOk (cl : Cluster) (r : Rect) : Bool :=
  decide (r.x0 ≤ r.x1) && decide (r.x1 < 8 * cl.cw) && decide (r.y0 ≤ r.y1) && decide (r.y1 < 8 * cl.ch)

def Rect.holds (r : Rect) (x y : Nat) : Bool := decide (r.x0 ≤ x) && decide (x ≤ r.x1) && decide (r.y0 ≤ y) && decide (y ≤ r.y1)

/-- Whether the rectangle has a cell of a logical cluster. -/
def Cluster.rectMeets (cl : Cluster) (r : Rect) (lclu : Nat) : Bool :=
  let cx := lclu % cl.cw
  let cy := lclu / cl.cw
  decide (r.x0 / 8 ≤ cx) && decide (cx ≤ r.x1 / 8) && decide (r.y0 / 8 ≤ cy) && decide (cy ≤ r.y1 / 8)

/-- Coordinates of a cell of this cluster (R31). -/
def State.coords (s : State) (n : Fin 64) : Nat × Nat :=
  (s.lclu.toNat % s.cl.cw * 8 + n.val % 8, s.lclu.toNat / s.cl.cw * 8 + n.val / 8)

/-- The rectangle in a pointer register. -/
def State.rectIn (s : State) (r : PReg) : BitVec 32 := (s.pv r).extractLsb' 0 32

/-! ## Fences -/

def ldqReserved : LdqPlace → Bool
  | .reserved _ => true
  | _ => false

/-- Whether a matrix commit of the activation is outstanding. -/
def State.commitsOpen (s : State) : Bool := s.mx.queue.any fun c : MCmd => c.op == MOp.mcommit && c.aid == s.act.aid

/-- Everything that `rel` waits for is done (R182). -/
def State.released (s : State) : Bool :=
  !(s.act.ldq.any ldqReserved) && !(s.replies.any fun e : ReplyEnt => e.aid == s.act.aid) && !s.commitsOpen

/-- The invalidation and floor step of an acquire (R183) for the owners that `named` picks. -/
def State.acquireAll (s : State) (named : Word → Bool) : State :=
  { s with cl := { s.cl with refl := s.cl.refl.filter fun l : ReflLine => !named l.place, acqCount := s.cl.acqCount + 1 } }

/-- The owners of the package's grid that a rectangle names. -/
def State.inRect (s : State) (r : Rect) (place : Word) : Bool :=
  place.extractLsb' 45 18 == s.cl.place.extractLsb' 45 18 && s.cl.rectMeets r (place.extractLsb' 36 9).toNat

/-- A fence instruction: the operand check, at once complete in the atomic slot (R311). -/
def State.fenceOn (s : State) (pa : PReg) (run : State → Rect → Out) : Out :=
  s.inOrder fun s1 =>
    let w := s1.rectIn pa
    if !s1.cl.rectOk (rectOf w) then s1.trap 0x04 (w.setWidth 64)
    else if s1.inAtomic then s1.finish
    else run s1 (rectOf w)

def execFence (pa : PReg) (s : State) : Out :=
  s.fenceOn pa fun s1 r => if s1.released then (s1.orderPoint.acquireAll (s1.inRect r)).finish else s1.stall

def execAcq (pa : PReg) (s : State) : Out := s.fenceOn pa fun s1 r => (s1.acquireAll (s1.inRect r)).finish

def execRel (pa : PReg) (s : State) : Out := s.fenceOn pa fun s1 _ => if s1.released then s1.orderPoint.finish else s1.stall

/-- The owner form (R183, R312): own-space names the issuing cluster, which is never reflected. -/
def execAcqO (pa : PReg) (s : State) : Out :=
  s.inOrder fun s1 =>
    let a := s1.pv pa
    if !a.getLsbD 63 then s1.finish
    else
      match s1.placeFault a with
      | some c => s1.trap c a
      | none => if s1.inAtomic then s1.finish else (s1.acquireAll fun place => place == prefixOf a).finish

/-! ## Objects (R144) -/

/-- The bounds of the window of R16 that holds an own-space address: base and end. -/
def windowBounds (oa : Nat) : Nat × Nat :=
  if oa < 0x200000000 then (0, 0x200000000)
  else if oa < 0x201000000 then (0x200000000, 0x201000000)
  else if 0x240000000 ≤ oa && oa < 0x244400000 then (0x240000000, 0x244400000)
  else if 0x2F0000000 ≤ oa && oa < 0x2F1000000 then (0x2F0000000, 0x2F1000000)
  else (oa, oa)

def headerLen (h : Word) : Nat := (h.extractLsb' 48 16).toNat

/-- Whether an object with this header word and tag at `t` is well formed. -/
def objOk (h : Word) (tag : Bool) (t : Nat) : Bool :=
  !tag && headerLen h != 0 && decide (t + 128 * headerLen h ≤ (windowBounds t).2)

/-- A word and its tag as an engine of the cluster reads them, with the site. -/
def State.engineWord (s : State) (oa : Nat) : Chk (Word × Bool × Site) :=
  (s.checkPort s.deviceReq .engRead oa).bind fun site =>
    .ok (wordOf (s.view site 8), (s.viewTags site 1).headD false, site)

/-! ## The lamp walker (R153, R154, R162) -/

/-- What one step of the walker comes to. -/
inductive WalkRes where
  /-- it goes on -/
  | go (s : State) (r : WalkRun)
  /-- the walk fails with a code at an address -/
  | fail (c : Code) (t : Word)
  /-- a TLB miss at an address, for the object at `t` -/
  | miss (oa t : Nat) (kind : AccKind)
  /-- a port answered retry (R400) -/
  | again (t : Nat)
  | snoop (line oa : Nat)
  | wait (oa : Nat)
  /-- everything reachable is lit: the advance is due -/
  | lit

/-- The code of a failed read: 0x05 for a page without rd (R153), else 0x04. -/
def walkCode (c : Code) : Code := if c == 0x05 then 0x05 else 0x04

/-- What a port's answer makes of the walk at object `t`. -/
def walkPort {α : Type} (t oa : Nat) (kind : AccKind) (code : Code → Code) (x : Chk α) (ok : α → WalkRes) : WalkRes :=
  match x with
  | .ok a => ok a
  | .fault c _ => if c == 0x0C then .again t else .fail (code c) (BitVec.ofNat 64 t)
  | .miss => .miss oa t kind
  | .snoop line => .snoop line oa
  | .wait => .wait oa

/-- The sites of `n` lines from `oa`, all readable, or the first that is not. -/
def State.lineSites (s : State) (oa : Nat) : Nat → Chk (List Site)
  | 0 => .ok []
  | n + 1 => (s.checkPort s.deviceReq .engRead oa).bind fun site =>
      (s.lineSites (oa + 128) n).bind fun rest => .ok (site :: rest)

/-- The first line of a run that misses the TLB, for the miss message. -/
def State.missLine (s : State) (oa : Nat) : Nat → Nat
  | 0 => oa
  | n + 1 =>
    match s.checkPort s.deviceReq .engRead oa with
    | .miss => oa
    | _ => s.missLine (oa + 128) n

/-- The buffer's address (R149). -/
def Cluster.bufBase (cl : Cluster) : Nat := (cl.walkbuf.extractLsb' 19 15).toNat * 2 ^ 19

/-- `light(t)` of R153, up to the buffer entry; the lines are lit one after another. -/
def State.light (s : State) (r : WalkRun) (t : Nat) : WalkRes :=
  walkPort t t .engRead walkCode (s.engineWord t) fun x =>
    if !objOk x.1 x.2.1 t then .fail 0x04 (BitVec.ofNat 64 t)
    else
      let n := headerLen x.1
      walkPort t (s.missLine t n) .engRead walkCode (s.lineSites t n) fun _ =>
        if Config.walkBufferSize ≤ r.recs.length then .fail 0x0E (BitVec.ofNat 64 t)
        else
          let buf := s.cl.bufBase + 8 * r.recs.length
          let entry : WData := .bytes (bytesOf (BitVec.ofNat 64 (n * 2 ^ 48 + t))) [false]
          walkPort t buf .engWrite id (s.checkWrite s.deviceReq .engWrite buf entry) fun site =>
            .go (s.perform site buf entry) { r with recs := r.recs ++ [(t, n)], toLight := some (t, n) }

/-- Lights the next line of the object last recorded: an event of its own (R153). -/
def State.lightNext (s : State) (r : WalkRun) (t n : Nat) : WalkRes :=
  walkPort t t .engRead walkCode (s.checkPort s.deviceReq .engRead t) fun site =>
    .go (s.withMem (s.mem.setLit site.key true)) { r with toLight := if n == 0 then none else some (t + 128, n) }

/-- The lit state of an own line under R145, as the walker asks for it. -/
def State.walkLit (s : State) (oa : Nat) : Chk Bool :=
  match s.cl.window oa with
  | .dram =>
    match s.cl.translate oa with
    | .hit m _ _ _ => .ok (s.lineLit .dram m oa)
    | .miss => .miss
    | .fault => .ok false
  | .ls n => .ok (s.lineLit (.ls n) (s.cl.lsKey n oa) oa)
  | .cis => .ok true
  | _ => .ok false

/-- Lights the object at `t` unless its line is lit. -/
def State.lightIfDark (s : State) (r : WalkRun) (t : Nat) : WalkRes :=
  walkPort t t .engRead walkCode (s.walkLit t) fun on => if on then .go s r else s.light r t

/-- Reads the next word of the object `o` and follows a reference of this cluster. R153 gives no address for a read that fails outside
light(t): the walk fails at the object (DESIGN CHOICE, log 102). -/
def State.scanWord (s : State) (r : WalkRun) (o a n : Nat) : WalkRes :=
  let r1 := { r with scan := some (a + 8, n) }
  walkPort o a .engRead walkCode (s.engineWord a) fun x =>
    if x.2.1 && x.1.extractLsb' 34 30 == s.cl.place.extractLsb' 34 30 then
      s.lightIfDark r1 ((x.1.extractLsb' 0 34).toNat / 128 * 128)
    else .go s r1

/-- The walk of R153 from where it stands: the root, then the recorded objects in order, word by word. -/
def State.walkNext (s : State) (r : WalkRun) : WalkRes :=
  match r.toLight, r.root with
  | some (t, n + 1), _ => s.lightNext r t n
  | some (_, 0), _ => .go s { r with toLight := none }
  | none, some root => s.lightIfDark { r with root := none } (root.toNat / 128 * 128)
  | none, none =>
    match r.recs[r.next]?, r.scan with
    | none, _ => .lit
    | some (o, _), none =>
      walkPort o o .engRead walkCode (s.engineWord o) fun x => .go s { r with scan := some (o + 8, 16 * headerLen x.1 - 1) }
    | some _, some (_, 0) => .go s { r with scan := none, next := r.next + 1 }
    | some (o, _), some (a, n + 1) => s.scanWord r o a n

/-- Clears the lit bit of a line that is mapped. -/
def State.darken (s : State) (oa : Nat) : Chk State :=
  match s.cl.window oa with
  | .dram =>
    match s.cl.translate oa with
    | .hit m _ _ _ => .ok { s with mem := s.mem.setLit m false }
    | .miss => .miss
    | .fault => .ok s
  | .ls c => .ok { s with mem := s.mem.setLit (s.cl.lsKey c oa) false }
  | _ => .ok s

/-- The line whose lit bit is due to be cleared has been dealt with. -/
def WalkRun.pastLine (r : WalkRun) : WalkRun :=
  match r.dark with
  | (oa, n + 1) :: rest => { r with dark := if n == 0 then rest else (oa + 128, n) :: rest }
  | _ => { r with dark := r.dark.tail }

/-- Clears the next line of a shade or of the undoing of a walk; lines that count as lit keep their bits under a shade (R162). -/
def State.darkNext (s : State) (r : WalkRun) (oa : Nat) : WalkRes :=
  if r.bad.isNone && s.cl.inDepwin oa 128 then .go s r.pastLine
  else
    match s.darken oa with
    | .ok s1 => .go s1 r.pastLine
    | .miss => .miss oa oa .engRead
    | _ => .wait oa

/-- Applies the oldest pending shade of the start point: its object's header as it is now, then its lines. One that cannot be read
shades nothing (DESIGN CHOICE, log 94). -/
def State.shadeNext (s : State) (r : WalkRun) (h : Shade) (rest : List Shade) : WalkRes :=
  let o := h.obj.toNat
  match s.engineWord o with
  | .ok (w, _, _) => .go s { r with shades := rest, dark := if headerLen w == 0 then [] else [(o, headerLen w)] }
  | .fault c _ => if c == 0x0C then .again o else .go s { r with shades := rest }
  | .miss => .miss o o .engRead
  | .snoop line => .snoop line o
  | .wait => .wait o

/-- One step of the walker. -/
def State.walkOne (s : State) (r : WalkRun) : WalkRes :=
  match r.dark with
  | (oa, _) :: _ => s.darkNext r oa
  | [] =>
    match r.bad with
    | some (c, t) => .fail c t
    | none =>
      match r.shades with
      | h :: rest => s.shadeNext r h rest
      | [] => s.walkNext r

/-! ## Advances (R159) -/

/-- An advance of the sequence word at an own-space address: its new value, the word's line lit, the publish counter raised. -/
def State.advance (s : State) (who : Requester) (oa : Nat) : Chk (Word × State) :=
  (s.checkPort who .atomic oa).bind fun site =>
    let v := wordOf (s.view site 8)
    if v == 0xFFFFFFFFFFFFFFFF#64 then .fault 0x05 false
    else
      let m := (s.mem.performBytes site (bytesOf (v + 1)) [false]).setLit site.key true
      .ok (v + 1, ({ s with cl := { s.cl with pubctr := s.cl.pubctr + 1 } }).withMem m)

/-! ## The walk queue (R151, R152) -/

/-- Tells the waiting instruction how its walk and advance ended. -/
def State.walkEnds (s : State) (ent : WalkEnt) (fault : Option (Code × Word)) : State :=
  if ent.who == s.lcell then
    (s.mapSlot (slotIdx ent.slot) fun a =>
      if a.phase == .walkWait then
        { a with phase := match fault with
            | none => .walkDone
            | some (c, t) => .walkFail c t }
      else a).unblock
  else
    (s.emit (outMsg .walkEnd s.cl.place (fault.map Prod.snd |>.getD 0) ent.who.toNat (fault.map Prod.fst |>.getD 0) [ent.word])).unblock

/-- Takes an entry of the queue. -/
def State.enterWalk (s : State) (ent : WalkEnt) : State :=
  ({ s with cl := { s.cl with walkQ := s.cl.walkQ ++ [ent] } }).push .lampWalk

/-- WALK_QUEUE_ENTER for an instruction of any cell of the cluster; while the queue is full it waits. -/
def execWalkQueueEnter (ent : WalkEnt) (s : State) : Out :=
  if s.cl.walkQ.length < Config.walkQueueSize then .next (s.enterWalk ent) else .next s

/-- The walk in progress stands as `r`. -/
def State.setWalk (s : State) (r : WalkRun) : State := { s with cl := { s.cl with walk := some r } }

/-- The walk in progress has ended; the walker takes the next entry. -/
def State.endWalk (s : State) (ent : WalkEnt) (fault : Option (Code × Word)) : State :=
  let s1 := ({ s with cl := { s.cl with walk := none } }).walkEnds ent fault
  if s1.cl.walkQ.isEmpty then s1 else s1.push .lampWalk

/-- The walker waits until other work has been done. -/
def State.holdWalk (s : State) (r : WalkRun) : State :=
  let s1 := s.setWalk r
  if s1.cl.held.contains .lampWalk then s1 else s1.hold .lampWalk

/-- The walker waits at a port. -/
def State.walkAt (s : State) (oa : Nat) (r : WalkRun) : State := (s.setWalk r).holdAt oa .lampWalk

/-- The walk fails: what it has recorded is undone first (R154). -/
def WalkRun.failed (r : WalkRun) (c : Code) (t : Word) : WalkRun := { r with bad := some (c, t), dark := r.recs, toLight := none }

/-- The requester of a walk's advance: the cell whose `pub` or `seqadv` it is for. -/
def State.advanceReq (s : State) (r : WalkRun) : Requester := { s.deviceReq with lcell := r.ent.who }

/-- The walker waits on a TLB miss. The miss of its advance goes as an atomic request of the issuing cell, since R60 names no kind for it
(DESIGN CHOICE, log 103). -/
def State.walkMisses (s : State) (r : WalkRun) (oa t : Nat) (kind : AccKind) : State :=
  (s.setWalk { r with waits := true }).missWait oa kind (s.advanceReq r) (.walkMiss (BitVec.ofNat 64 t))

/-- A retry answer: asked again, at most 64 times (R400; the code then is DEDUCED, log 96). -/
def WalkRun.retried (r : WalkRun) (t : Nat) : WalkRun :=
  if r.retries < 64 then { r with retries := r.retries + 1 } else r.failed 0x0C (BitVec.ofNat 64 t)

/-- The walker at work: at most `n` steps until it ends or waits (R156: other accesses are performed while a walk runs). -/
def State.walkGo (r : WalkRun) (s : State) : Nat → State
  | 0 => s.holdWalk r
  | n + 1 =>
    match s.walkOne r with
    | .go s1 r1 => State.walkGo { r1 with retries := 0 } s1 n
    | .fail c t =>
      if r.bad.isSome then s.endWalk r.ent (some (c, t))
      else State.walkGo (r.failed c t) s n
    | .miss oa t kind => s.walkMisses r oa t kind
    | .again t => s.holdWalk (r.retried t)
    | .snoop line oa => (s.sendSnoop line).walkAt oa r
    | .wait oa => s.walkAt oa r
    | .lit =>
      match s.advance (s.advanceReq r) r.ent.word.toNat with
      | .ok (_, s1) => s1.endWalk r.ent none
      | .fault c _ =>
        if c == 0x0C && decide (r.retries < 64) then s.holdWalk (r.retried 0)
        else State.walkGo (r.failed 0x05 r.ent.word) s n
      | .miss => s.walkMisses r r.ent.word.toNat r.ent.word.toNat .atomic
      | .snoop line => (s.sendSnoop line).walkAt r.ent.word.toNat r
      | .wait => s.walkAt r.ent.word.toNat r

/-- The walk of an entry at its start point (R152 step 3): the shades that pend on its word are its own from here on. -/
def Cluster.startWalk (cl : Cluster) (ent : WalkEnt) : WalkRun :=
  { ent, shades := cl.shades.filter fun h : Shade => h.word == ent.word, dark := [], root := ent.root, recs := [], next := 0,
    scan := none, bad := none, waits := false, retries := 0 }

/-- How far the walker comes before other work falls in between is free. -/
def State.walkRuns (s : State) (r : WalkRun) : State :=
  State.walkGo r { s with free := s.free + 1 } (Config.walkerSteps s.free + 2)

/-- LAMP_WALK (R151 to R154): the walk in progress goes on; else the walker takes the head of the queue. -/
def execLampWalk (s : State) : Out :=
  match s.cl.walk with
  | some r => if r.waits then .next s else .next (s.walkRuns r)
  | none =>
    match s.cl.walkQ with
    | [] => .next s
    | ent :: rest =>
      .next ({ s with cl := { s.cl with walkQ := rest, shades := s.cl.shades.filter fun h : Shade => h.word != ent.word } }.unblock.walkRuns
        (s.cl.startWalk ent))

/-- The TLB miss of the walk in progress has been answered with a page. -/
def State.walkFilled (s : State) : Out :=
  match s.cl.walk with
  | some r => .next (s.walkRuns { r with waits := false })
  | none => .next s

/-- The TLB miss of the walk in progress was refused with a code (R62, R153, R154): a shade passes over what it cannot reach, an
advance faults, and a walk fails at the object `t`. -/
def State.walkRefused (s : State) (code : Code) (t : Word) : State :=
  match s.cl.walk with
  | none => s
  | some r =>
    let r1 := { r with waits := false }
    s.walkRuns (
      if !r.dark.isEmpty then r1.pastLine
      else match r.shades with
        | _ :: rest => { r1 with shades := rest }
        | [] => if r.root.isNone && decide (r.recs.length ≤ r.next) then r1.failed 0x05 r.ent.word else r1.failed code t)

/-! ## pub, seqadv, shade (R150, R160, R162, R313) -/

/-- Rows 2 to 4 of R150 for a sequence word's address. -/
def seqFault (w : Word) : Option Code :=
  if !isOwn w then some 0x03
  else if w.toNat % 8 != 0 then some 0x02
  else if w.toNat < 0x201000000 then none
  else some 0x05

/-- Whether a pointer holds an own reference. -/
def State.ownRef (s : State) (q : Ptr) : Bool := q.tag && q.val.extractLsb' 34 30 == s.cl.place.extractLsb' 34 30

/-- Step 1 of R152. -/
def State.drained (s : State) : Bool :=
  !(s.replies.any fun e : ReplyEnt => e.aid == s.act.aid && (e.kind == .deposit || e.kind == .atomic) && s.isHere e.target) &&
  !s.commitsOpen

/-- Drains, enters the queue, and ends as the walk ends. -/
def State.throughQueue (s : State) (root : Option Word) (word : Word) : Out :=
  match s.act.phase with
  | .walkWait => s.stall
  | .walkDone => s.orderPoint.finish
  | .walkFail c t => s.trap c t
  | _ =>
    if !s.drained || decide (Config.walkQueueSize ≤ s.cl.walkQ.length) then s.stall
    else (s.enterWalk { root, word, slot := slotOfIdx s.cur, who := s.lcell }).waitIn .walkWait

def execPub (pa pb : PReg) (s : State) : Out :=
  s.generalOnly fun s1 =>
    let w := s1.pv pb
    let q := s1.act.p[pa]
    match seqFault w with
    | some c => s1.trap c w
    | none =>
      if !((q.val == 0 && !q.tag) || s1.ownRef q) then s1.trap 0x05 q.val
      else if q.val != 0 && !s1.cl.walkbuf.getLsbD 63 then s1.trap 0x05 0
      else s1.throughQueue (if q.tag then some (q.val &&& 0x3FFFFFFFF#64) else none) w

def execSeqadv (pb : PReg) (s : State) : Out :=
  s.generalOnly fun s1 =>
    let w := s1.pv pb
    match seqFault w with
    | some c => s1.trap c w
    | none => s1.throughQueue none w

/-- Joins the equal pending shade, or takes a free entry, or waits for one. -/
def State.holdShade (s : State) (h : Shade) : Out :=
  if s.cl.shades.contains h then s.finish
  else if s.cl.shades.length < Config.maxShades then ({ s with cl := { s.cl with shades := s.cl.shades ++ [h] } }).finish
  else s.stall

/-- What becomes of a shade whose header is not read now: a retry answer has it read again (R400). -/
def State.shadeStop {α : Type} (s : State) (obj : Word) (o : Nat) (r : Chk α) : Out :=
  match s.portOther obj o .load r with
  | .wait x => x
  | .bad _ _ _ => s.trap 0x04 obj

/-- `shade` (R162, R313); a header that cannot be read is refused as one that is not well formed (DESIGN CHOICE, log 93). -/
def execShade (pa pb : PReg) (s : State) : Out :=
  s.generalOnly fun s1 =>
    let w := s1.pv pb
    let q := s1.act.p[pa]
    let o := (q.val.extractLsb' 0 34).toNat / 128 * 128
    match seqFault w with
    | some c => s1.trap c w
    | none =>
      if !s1.ownRef q then s1.trap 0x05 q.val
      else
        match s1.act.phase with
        | .missWait _ => s1.stall
        | .refused _ _ => s1.trap 0x04 q.val
        | .retryWait _ _ => s1.stall
        | _ =>
          match s1.checkOwn .load o with
          | .ok site =>
            if objOk (wordOf (s1.view site 8)) ((s1.viewTags site 1).headD false) o then
              s1.holdShade { obj := BitVec.ofNat 64 o, word := w }
            else s1.trap 0x04 q.val
          | r => s1.shadeStop q.val o r

end Sys2Proof.Machine
end

