-- ==== Sys2Proof/Machine/Request.lean ====
section
/-!
DEFINITION. What deposits, atomic requests and messages share: the reply table (R168), tokens (R186 to R191), the credit and grant
requests of a cell (R203, R216), and the ways a reply comes back (R167, R169, R191, R342, R400).
-/
namespace Sys2Proof.Machine

/-! ## Tokens at the issuer (R186 to R191) -/

/-- Whether a target lies in the issuing package (R187). -/
def State.ownPackage (s : State) (a : Word) : Bool :=
  !a.getLsbD 63 || a.extractLsb' 45 18 == s.cl.place.extractLsb' 45 18

/-- The physical package of a target in another package (R35). -/
def State.physPkg (s : State) (a : Word) : BitVec 18 := (s.pkgEntry (a.extractLsb' 45 18).toNat).extractLsb' 0 18

/-- The entry that holds a token: a value that has been used again names the new one (R189). -/
def State.tokEntry (s : State) (tok : BitVec 24) : Option TokEnt := s.toks.find? fun e : TokEnt => e.tok == tok

/-- The entry that the activation in service has allocated for a token: a value that another activation uses counts as landed (R333). -/
def State.ownTok (s : State) (tok : BitVec 24) : Option TokEnt := s.toks.find? fun e : TokEnt => e.tok == tok && e.aid == s.act.aid

/-- The token that a name stands for: what the slot holds, 0 for no name. -/
def State.named (s : State) (nm : Option (Fin 4)) : BitVec 24 :=
  match nm with
  | some k => s.act.toks[k]
  | none => 0

/-- Rows 4 and 5 of R323, 6 and 7 of R336: a code, where the token use is refused. -/
def State.tokFault (s : State) (target : Word) (ask nm : Option (Fin 4)) : Option Code :=
  let t := s.named nm
  if s.ownPackage target && (ask.isSome || t != 0) then some 0x05
  else
    match s.tokEntry t with
    | some e => if t != 0 && e.st == .dead then some 0x0A else none
    | none => none

/-- A precise trap on a message instruction: word 4 names the token that it asked for or named. -/
def State.trapTok (s : State) (c : Code) (addr : Word) (nm : Option (Fin 4)) : Out :=
  s.takeTrap { s.trapReq c addr with tok := s.named nm }

/-- The next sequence number not in use (R189). -/
def State.nextSeq (s : State) : BitVec 9 :=
  let used (q : BitVec 9) : Bool := s.toks.any fun e : TokEnt => e.tok.extractLsb' 0 9 == q
  (((List.range 64).map fun i => s.tokSeq + BitVec.ofNat 9 (i + 1)).find? fun q => q != 0 && !used q).getD 1

/-- Whether a message can record its dependence on a pending token (R191). -/
def TokEnt.canRecord (e : TokEnt) (pkg : BitVec 18) : Bool :=
  match e.dests.find? fun d : BitVec 18 × Nat => d.1 == pkg with
  | some d => decide (d.2 < 65535)
  | none => decide (e.dests.length < 4)

def TokEnt.record (e : TokEnt) (pkg : BitVec 18) : TokEnt :=
  if e.dests.any fun d : BitVec 18 × Nat => d.1 == pkg then
    { e with dests := e.dests.map fun d : BitVec 18 × Nat => if d.1 == pkg then (d.1, d.2 + 1) else d }
  else { e with dests := e.dests ++ [(pkg, 1)] }

/-- Whether the named token is still pending, so that the message is held on it. -/
def State.heldOn (s : State) (nm : Option (Fin 4)) : BitVec 24 :=
  let t := s.named nm
  match s.tokEntry t with
  | some e => if t != 0 && e.st == .pending then t else 0
  | none => 0

/-- The tables have room for the message (R168, R191). -/
def State.canSend (s : State) (target : Word) (ask nm : Option (Fin 4)) : Bool :=
  decide (s.replies.length < Config.replyTableSize) &&
  (ask.isNone || decide (s.toks.length < Config.tokenTableSize)) &&
  (s.heldOn nm == 0 || s.toks.all fun e : TokEnt => e.tok != s.heldOn nm || e.canRecord (s.physPkg target))

/-- Records the dependence on a pending token. -/
def State.recordHeld (s : State) (target : Word) (tok : BitVec 24) : State :=
  if tok == 0 then s
  else { s with toks := s.toks.map fun e : TokEnt => if e.tok == tok then e.record (s.physPkg target) else e }

/-- Allocates the token asked for and writes it into its slot. -/
def State.allocTok (s : State) (target : Word) (ask : Option (Fin 4)) : BitVec 24 × State :=
  match ask with
  | none => (0, s)
  | some k =>
    let q := s.nextSeq
    let tok : BitVec 24 := s.lcell ++ q
    let e : TokEnt := { tok, aid := s.act.aid, reg := s.act.reg, rcb := s.rcb, chan := s.act.chan, slot := s.slotNo, st := .pending,
                        pc := s.act.trapPc, target, place := s.placeOf target,
                        iw := s.act.iw, pfx := s.act.pfxWord, dests := [] }
    (tok, { s with tokSeq := q, toks := s.toks ++ [e], act := { s.act with toks := s.act.toks.set k tok } })

/-! ## Issuing (R168) -/

/-- The reply-table entry of a message of the activation in service. -/
def State.replyEnt (s : State) (kind : ReplyKind) (target : Word) (tok asked : BitVec 24)
    (words : List TWord) : ReplyEnt :=
  { rid := s.nextRid, kind, aid := s.act.aid, reg := s.act.reg, rcb := s.rcb, chan := s.act.chan, slot := s.slotNo,
    pc := s.act.trapPc, target,
    place := s.placeOf target, tok, asked, iw := s.act.iw, pfx := s.act.pfxWord, words, retries := 0, waiting := false,
    todo := none, sent := none }

/-- What a message instruction sends: to hardware of this cluster, or to the fabric. -/
inductive Sent where
  | here (t : Todo)
  | away (m : OutMsg)

/-- Sends a message: its reply-table entry, its tokens, and the message itself, made by `mk` from the request number, the token
asked for and the token it is held on. -/
def State.sendOut (s : State) (kind : ReplyKind) (target : Word) (ask nm : Option (Fin 4)) (words : List TWord)
    (mk : State → Nat → BitVec 24 → BitVec 24 → Sent) : State :=
  let named := s.named nm
  let held := s.heldOn nm
  let s1 := s.recordHeld target held
  let (asked, s2) := s1.allocTok target ask
  let rid := s.nextRid
  let e := s.replyEnt kind target (if asked != 0 then asked else named) asked words
  let s3 := { s2 with nextRid := rid + 1 }
  match mk s rid asked held with
  | .here t => { s3.push t with replies := s3.replies ++ [{ e with todo := some t }] }
  | .away m => { s3.leave m (.negative rid 0x04 none) with replies := s3.replies ++ [{ e with sent := some (s.addressed m) }] }

/-- The requester field of a message. -/
def State.asReq (s : State) (rid : Nat) : Requester := { s.requester with rid }

/-! ## Grants (R203, R216) -/

def RegEntry.asked (e : RegEntry) : GrantKind → Bool
  | .activations => e.askedA
  | .cycles => e.askedC
  | .credit => e.askedS

def RegEntry.setAsked (e : RegEntry) (k : GrantKind) (b : Bool) : RegEntry :=
  match k with
  | .activations => { e with askedA := b }
  | .cycles => { e with askedC := b }
  | .credit => { e with askedS := b }

def grantCode : GrantKind → Word
  | .activations => 0
  | .cycles => 1
  | .credit => 2

/-- Asks the home of the charged RCB for a grant, unless a request is out. -/
def State.askGrant (s : State) (r : Fin 8) (k : GrantKind) : State :=
  let e := s.me.regs[r]
  if e.asked k then s
  else
    let s1 := s.mapReg r fun e => e.setAsked k true
    let rcb := s.payer e k
    if s.isHere rcb then s1.push (.ask rcb { s.requester with rcb := e.info.rcb } k [])
    else s1.emit { outMsg .grantReq (prefixOf rcb) rcb s.self.val 0 [grantCode k, e.info.rcb] with src := s.lcell }

/-! ## Replies (R167, R169, R191, R342, R400) -/

/-- Whether an activation is in a slot, the one in service included. -/
def State.inSlot (s : State) (aid : Nat) : Option (Fin 5) :=
  (List.finRange 5).find? fun i => (s.slotAct i).live && (s.slotAct i).aid == aid && i.val < 4

/-- A refused atomic request's place is never filled (R329). -/
def refusePlace (rid : Nat) (l : List LdqPlace) : List LdqPlace :=
  l.map fun p => if p == .reserved rid then .refused rid else p

/-- The address word of a refusal (R343, R396): the target, or the address concerned in the form in which the instruction named its
target. -/
def ReplyEnt.addrWord (e : ReplyEnt) (code : Code) : Option Word → Word
  | none => e.target
  | some oa => faultAddr (if isOwn e.target then oa else prefixOf e.target ||| oa) code

/-- The record of a refused message. -/
def ReplyEnt.info (e : ReplyEnt) (code : Code) (oa : Option Word) : TrapInfo :=
  { pc := e.pc, code, addr := e.addrWord code oa, place := e.place, tok := e.tok, mem := code == 0x0F, iw := e.iw, pfx := e.pfx, pay := e.words }

/-- Whether a region-table entry still stands for the region with this RCB. -/
def State.regLives (s : State) (reg : Fin 8) (rcb : Word) : Bool := s.me.regs[reg].v && s.me.regs[reg].info.rcb == rcb

/-- Reports a refusal to the activation `aid` (R169): deferred in its slot or its parked record, or a notice; where its region has
ended too, no trap channel is left. -/
def State.report (s : State) (aid : Nat) (reg : Fin 8) (rcb : Word) (chan : BitVec 5) (slot : Fin 4) (t : TrapInfo) : State :=
  let t1 := { t with dies := s.toks.any fun e : TokEnt => t.tok != 0 && e.tok == t.tok && e.st == .dead }
  match s.inSlot aid with
  | some i => (s.mapSlot i fun a => { a with deferred := a.deferred ++ [t1] }).unblock
  | none =>
    if s.parked.any fun p : Parked => p.act.aid == aid then
      ({ s with parked := s.parked.map fun p : Parked =>
          if p.act.aid == aid then { p with act := { p.act with deferred := p.act.deferred ++ [t1] } } else p }).freeDead t.tok
    else (if s.regLives reg rcb then s.endedNotice reg chan slot t else s).freeDead t.tok

/-- Sends a cancel or release notice to the recorded packages of a token. -/
def State.tellHolders (s : State) (kind : OutKind) (e : TokEnt) : State :=
  e.dests.foldl (fun (st : State) (d : BitVec 18 × Nat) =>
    st.emit { outMsg kind (d.1.setWidth 64) 0 0 0 [BitVec.ofNat 64 d.2] with held := e.tok }) s

/-- A token becomes dead (R191). -/
def State.deadTok (s : State) (tok : BitVec 24) : State :=
  { s with toks := s.toks.map fun x : TokEnt => if x.tok == tok then { x with st := .dead } else x }

/-- The pending token of a refused origin message becomes dead, and its holders are told to cancel (R191). -/
def State.killTok (s : State) (tok : BitVec 24) : State :=
  match s.toks.find? fun e : TokEnt => tok != 0 && e.tok == tok && e.st == .pending with
  | none => s
  | some e => (s.deadTok tok).tellHolders .cancel e

/-- The answer of a home to a `barset`, which holds no reply-table entry. -/
def State.mapPhases (s : State) (f : Act → Act) : State :=
  { s with act := f s.act, slots := Vector.ofFn fun i : Fin 5 => f s.slots[i] }

/-- Takes an entry out of the reply table. -/
def State.dropReply (s : State) (rid : Nat) : State :=
  { s with replies := s.replies.filter fun e : ReplyEnt => e.rid != rid }

def State.replyOf (s : State) (rid : Nat) : Option ReplyEnt := s.replies.find? fun e : ReplyEnt => e.rid == rid

/-- A retry answer (R400): the request is sent again later, at most 64 times. -/
def State.retryAnswer (s : State) (rid : Nat) : State :=
  { s with replies := s.replies.map fun e : ReplyEnt =>
      if e.rid == rid then { e with retries := e.retries + 1, waiting := true } else e }

/-- A refused message is reported (R169): its place of LDQ is never filled, a refused `spawn` returns its credit (R339), and the
token that it asked for dies. -/
def State.refusedMsg (s : State) (e : ReplyEnt) (code : Code) (oa : Option Word) : State :=
  let s1 := (s.dropReply e.rid).mapPhases fun a => { a with ldq := refusePlace e.rid a.ldq }
  let s2 := if e.kind == .spawn && s1.regLives e.reg e.rcb then s1.returnCredit e.reg else s1
  ((s2.killTok e.asked).report e.aid e.reg e.rcb e.chan e.slot (e.info code oa)).wakeHeld

end Sys2Proof.Machine
end

