-- ==== Sys2Proof/Machine/Deposit.lean ====
section
/-!
DEFINITION. Deposits (R167 to R174, R323 to R326), major 0x2C, and their checks and performance at the owner.
-/
namespace Sys2Proof.Machine

/-! ## Issue -/

/-- Rows 1 to 3 of R323: form, alignment, place. -/
def State.remoteFault (s : State) (a : Word) (align : Nat) : Option Code :=
  if !formOk a || (a.getLsbD 63 && prefixOf a == prefixOf s.cl.place) then some 0x03
  else if a.toNat % align != 0 then some 0x02
  else if a.getLsbD 63 then s.placeFault a
  else none

/-- The words of a write on its way to an owner. -/
def wdataMsg : WData → List TWord
  | .bytes bs tags =>
    (wordsOf ((bs.length + 7) / 8) bs).zipIdx.map fun p => { val := p.1, tag := tags.getD p.2 false }
  | .elem sc i code w =>
    plainWords [if sc then 2 else 1, BitVec.ofInt 64 i, code.setWidth 64, BitVec.ofNat 64 (w.getD 0)]
  | .group _ g codes _ _ _ _ _ => plainWords (BitVec.ofInt 64 g :: packCodes (codes.map BitVec.toNat))

/-- A deposit as it travels: its number of bytes, 0 for an element, before its data (R171, R324, R325). -/
def depositWords (d : WData) : List TWord :=
  { val := match d with
      | .bytes bs _ => BitVec.ofNat 64 bs.length
      | _ => 0
    tag := false } :: wdataMsg d

/-- Sends a deposit once it is checked and the tables have room (R323); `pop` takes the payload's entry off STQ. -/
def State.deposit (s : State) (a : Word) (align : Nat) (tn : TokName) (d : WData) (pop : Bool) : Out :=
  let ask := s.act.askSlot
  let nm := s.act.nameSlot tn
  match s.remoteFault a align with
  | some c => s.trapTok c a nm
  | none =>
    match s.tokFault a ask nm with
    | some c => s.trapTok c a nm
    | none =>
      if !s.canSend a ask nm then s.stall
      else
        let s1 := s.sendOut .deposit a ask nm [] fun s0 rid asked held =>
          if isOwn a then .here (.deposit { who := s0.asReq rid, oa := a, data := d, tok := 0 })
          else .away { outMsg .depositReq (prefixOf a) a rid 0 [] with tok := asked, held := held, words := depositWords d }
        ((if pop then s1.mapAct fun x => { x with stq := x.stq.tail } else s1)).finish

/-- The low `n` bytes of a word, with its tag when n = 8 (R324). -/
def lowBytes (w : TWord) (n : Nat) : WData := .bytes ((bytesOf w.val).take n) (if n == 8 then [w.tag] else [])

def execDep (pa pb : PReg) (tn : TokName) (n : BitVec 2) (s : State) : Out :=
  s.generalOnly fun s1 =>
    let k := 2 ^ n.toNat
    s1.deposit (s1.pv pa) k tn (lowBytes s1.act.p[pb].tword k) false

/-- A deposit from STQ: the access half waits for an entry, which leaves the queue with the deposit (R325). -/
def State.depositQ (s : State) (pa : PReg) (align : Nat) (tn : TokName) (data : QEntry → WData) : Out :=
  s.generalOnly fun s1 =>
    match s1.act.stq with
    | [] => s1.stall
    | e :: _ => s1.deposit (s1.pv pa) align tn (data e) true

def execDepq (pa : PReg) (tn : TokName) (n : BitVec 2) (s : State) : Out :=
  let k := 2 ^ n.toNat
  s.depositQ pa k tn fun e => lowBytes { val := e.data.getD 0 0, tag := e.tags.getLsbD 0 } k

/-- The entry's sixteen words with their tags; words it does not hold are zero. -/
def entryLine (e : QEntry) : WData :=
  .bytes ((List.range 16).flatMap fun j => bytesOf (e.data.getD j 0)) ((List.range 16).map fun j => e.tags.getLsbD j)

def execDepqLine (pa : PReg) (tn : TokName) (s : State) : Out := s.depositQ pa 128 tn entryLine

/-- An element deposit (R326): width w and index i travel with the code. -/
def State.depositElem (s : State) (pa pb : PReg) (tn : TokName) (scaled : Bool) (w : BitVec 3) (i : BitVec 9) : Out :=
  s.generalOnly fun s1 =>
    let width := w.toNat + 1
    s1.deposit (s1.pv pa) 128 tn
      (.elem scaled (i.toNat : Nat) (BitVec.ofNat 8 ((s1.pv pb).toNat % 2 ^ width)) (some width)) false

def execDepe (pa pb : PReg) (tn : TokName) (w : BitVec 3) (i : BitVec 9) (s : State) : Out := s.depositElem pa pb tn false w i
def execDepes (pa pb : PReg) (tn : TokName) (w : BitVec 3) (i : BitVec 9) (s : State) : Out := s.depositElem pa pb tn true w i

/-! ## At the owner (R171, R172) -/

/-- The checks of R172: the port's rows, the element's width and index, the deposit window, shadow escape. -/
def State.checkDeposit (s : State) (req : DepositReq) : Chk Site :=
  let oa := req.oa.toNat
  let sp := wdataSpan req.data oa
  (s.checkPort req.who .deposit oa).bind fun site =>
    match s.dataFault site oa req.data with
    | some c => .fault c false
    | none =>
      Chk.need (s.cl.inDepwin sp.1 sp.2) 0x09 <|
      if site.attr.tags then (s.escapeChk (wdataWords req.data)).bind fun _ => .ok site else .ok site

/-- DEPOSIT_AT_OWNER: checked, performed as one write, and replied (R167); it waits on a TLB miss or a held line. -/
def execDepositAtOwner (req : DepositReq) (s : State) : Out :=
  match s.checkDeposit req with
  | .ok site => .next ((s.perform site req.oa.toNat req.data).replyPos req.who req.oa req.tok)
  | .fault c _ => .next (s.refuseAt req.who (req.oa.toNat + if c == 0x07 then s.escapeOff req.data else 0) c)
  | .miss => .next (s.missWrite .deposit req.who req.oa.toNat req.data (.port req.oa.toNat (.deposit req)))
  | .snoop line => .next ((s.sendSnoop line).holdAt req.oa.toNat (.deposit req))
  | .wait => .next (s.holdAt req.oa.toNat (.deposit req))

end Sys2Proof.Machine
end

