-- ==== Sys2Proof/Machine/Atomic.lean ====
section
/-!
DEFINITION. Atomic requests (R175 to R180, R327 to R331, R496), major 0x2D: the request, the built-in operations at the owner, ring
control blocks, user handlers in the atomic slot, and the reply.
-/
namespace Sys2Proof.Machine

/-! ## Issue (R323, R327, R330) -/

/-- The cluster that a target names. -/
def State.ownerOf (s : State) (a : Word) : Word := if a.getLsbD 63 then prefixOf a else s.cl.place

/-- The operation of a request by the number of R242; the built-in word operations are 0 to 9. -/
def amoNo : AmoOp → Nat
  | .add => 0 | .min => 1 | .max => 2 | .minu => 3 | .maxu => 4 | .and => 5 | .or => 6 | .xor => 7 | .swap => 8 | .cas => 9
  | .enq => 10 | .deq => 11 | .adv => 12 | .user => 13

/-- What a request to another cluster says before its operands: the operation, an advance among them (R178), and the size. -/
def atomWord (op : AmoOp) (size : Nat) : TWord := { val := BitVec.ofNat 64 (256 * amoNo op + size), tag := false }

/-- Sends an atomic request and reserves its place of LDQ. -/
def State.amo (s : State) (pa : PReg) (tn : TokName) (op : AmoOp) (align : Nat) (words : List TWord) : Out :=
  s.generalOnly fun s1 =>
    let a := s1.pv pa
    let ask := s1.act.askSlot
    let nm := s1.act.nameSlot tn
    match s1.remoteFault a align with
    | some c => s1.trapTok c a nm
    | none =>
      match s1.tokFault a ask nm with
      | some c => s1.trapTok c a nm
      | none =>
        let sameOwner (e : ReplyEnt) : Bool :=
          e.aid == s1.act.aid && (e.kind == .deposit || e.kind == .atomic) && s1.ownerOf e.target == s1.ownerOf a
        if !s1.act.ldqRoom || !s1.canSend a ask nm || (op == .adv && s1.replies.any sameOwner) then s1.stall
        else
          let rid := s1.nextRid
          let s2 := s1.sendOut .atomic a ask nm [] fun s0 r asked held =>
            if isOwn a then .here (.atomicRequest { who := s0.asReq r, oa := a, op, size := align, words, tok := 0 })
            else .away { outMsg .atomicReq (prefixOf a) a r 0 [] with tok := asked, held := held, words := atomWord op align :: words }
          (s2.mapAct fun x => { x with ldq := x.ldq ++ [.reserved rid] }).finish

/-- 4 or 8 bytes. -/
def amoSize (dbl : Bool) : Nat := if dbl then 8 else 4
/-- A register's value without its tag, or with it where 8 bytes are moved. -/
def plainOp (q : Ptr) : TWord := { val := q.val, tag := false }
def taggedOp (q : Ptr) (dbl : Bool) : TWord := { val := q.val, tag := q.tag && dbl }
/-- `n` registers from `pb` upward, modulo 8, with their tags. -/
def State.regsFrom (s : State) (pb : PReg) (n : Nat) : List TWord :=
  (List.range n).map fun i => s.act.p[pb + Fin.ofNat 8 i].tword

def execAmoAdd (pa pb : PReg) (tn : TokName) (dbl : Bool) (s : State) : Out :=
  s.amo pa tn .add (amoSize dbl) [plainOp s.act.p[pb]]
def execAmoMin (pa pb : PReg) (tn : TokName) (dbl : Bool) (s : State) : Out :=
  s.amo pa tn .min (amoSize dbl) [plainOp s.act.p[pb]]
def execAmoMax (pa pb : PReg) (tn : TokName) (dbl : Bool) (s : State) : Out :=
  s.amo pa tn .max (amoSize dbl) [plainOp s.act.p[pb]]
def execAmoMinu (pa pb : PReg) (tn : TokName) (dbl : Bool) (s : State) : Out :=
  s.amo pa tn .minu (amoSize dbl) [plainOp s.act.p[pb]]
def execAmoMaxu (pa pb : PReg) (tn : TokName) (dbl : Bool) (s : State) : Out :=
  s.amo pa tn .maxu (amoSize dbl) [plainOp s.act.p[pb]]
def execAmoAnd (pa pb : PReg) (tn : TokName) (dbl : Bool) (s : State) : Out :=
  s.amo pa tn .and (amoSize dbl) [plainOp s.act.p[pb]]
def execAmoOr (pa pb : PReg) (tn : TokName) (dbl : Bool) (s : State) : Out :=
  s.amo pa tn .or (amoSize dbl) [plainOp s.act.p[pb]]
def execAmoXor (pa pb : PReg) (tn : TokName) (dbl : Bool) (s : State) : Out :=
  s.amo pa tn .xor (amoSize dbl) [plainOp s.act.p[pb]]
def execAmoSwap (pa pb : PReg) (tn : TokName) (dbl : Bool) (s : State) : Out :=
  s.amo pa tn .swap (amoSize dbl) [taggedOp s.act.p[pb] dbl]
def execAmoCas (pa pb : PReg) (tn : TokName) (dbl : Bool) (s : State) : Out :=
  s.amo pa tn .cas (amoSize dbl) [taggedOp s.act.p[pb] dbl, plainOp s.act.p[pb + 1]]
def execAmoEnq (pa pb : PReg) (tn : TokName) (s : State) : Out := s.amo pa tn .enq 128 (s.regsFrom pb 8)
def execAmoDeq (pa : PReg) (tn : TokName) (s : State) : Out := s.amo pa tn .deq 128 []
def execAmoAdv (pa : PReg) (tn : TokName) (s : State) : Out := s.amo pa tn .adv 8 []
def execAmoUser (pa pb : PReg) (tn : TokName) (k : BitVec 3) (dbl : Bool) (s : State) : Out :=
  s.amo pa tn .user (amoSize dbl) (s.regsFrom pb (k.toNat + 1))

/-! ## Built-in operations (R328) -/

/-- A signed reading of a z-byte word. -/
def signedOf (z x : Nat) : Int := if x < 2 ^ (8 * z - 1) then x else (x : Int) - 2 ^ (8 * z)

/-- The new value, if one is written, for the old value x and the operands b and c. -/
def amoNew (op : AmoOp) (z x b c : Nat) : Option Nat :=
  match op with
  | .add => some ((x + b) % 2 ^ (8 * z))
  | .min => some (if signedOf z x ≤ signedOf z b then x else b)
  | .max => some (if signedOf z b ≤ signedOf z x then x else b)
  | .minu => some (if x ≤ b then x else b)
  | .maxu => some (if b ≤ x then x else b)
  | .and => some (x &&& b)
  | .or => some (x ||| b)
  | .xor => some (x ^^^ b)
  | .swap => some b
  | .cas => if x == c then some b else none
  | _ => none

/-- Whether an operation moves a tag (R328). -/
def amoTagged (op : AmoOp) : Bool := op == .swap || op == .cas

/-- A plain word element of the reply (R329). -/
def wordEntry (ty : Ty) (w : Word) (tag : Bool) : QEntry := plainEntry ty .element [w] (if tag then 1 else 0) 0

/-- What a request's run at the atomic slot gives: the reply's entry, or a code, or a wait. -/
abbrev Ran := Chk (QEntry × State)

/-- Runs a built-in operation on a word. -/
def State.runWord (s : State) (req : AtomReq) : Ran :=
  let oa := req.oa.toNat
  let z := req.size
  (s.checkPort req.who .atomic oa).bind fun site =>
    let x := leNat (s.view site z)
    let xtag := z == 8 && amoTagged req.op && (s.viewTags site 1).headD false
    let b := req.words.getD 0 { val := 0, tag := false }
    let c := req.words.getD 1 { val := 0, tag := false }
    let e := if z == 8 then wordEntry (if xtag then .ref else .u64) (BitVec.ofNat 64 x) xtag
      else wordEntry .u32 (BitVec.ofNat 64 x) false
    match amoNew req.op z x (b.val.toNat % 2 ^ (8 * z)) (c.val.toNat % 2 ^ (8 * z)) with
    | none => .ok (e, s)
    | some v =>
      let d : WData := .bytes (leBytes z v) (if z == 8 then [amoTagged req.op && b.tag] else [])
      (s.checkWrite req.who .atomic oa d).bind fun site2 => .ok (e, s.perform site2 oa d)

/-! ## Rings (R179, R180, R496) -/

structure Ring where
  head : Word
  tail : Word
  esz  : Nat
  cap  : Nat
  base : Word
  deriving DecidableEq, Repr

/-- The control block in a line, where it is valid. -/
def ringOf (bs : List Byte) : Option Ring :=
  let w (i : Nat) : Word := wordOf ((bs.drop (8 * i)).take 8)
  let esz := ((w 2).extractLsb' 32 8).toNat
  let cap := ((w 2).extractLsb' 0 32).toNat
  if (w 2).extractLsb' 40 24 == 0 && (esz == 8 || esz == 16 || esz == 32 || esz == 64) && decide (1 ≤ cap) &&
      (w 3).toNat % esz == 0 then
    some { head := w 0, tail := w 1, esz, cap, base := w 3 }
  else none

/-- The element of a count (R180). -/
def Ring.at (r : Ring) (n : Word) : Nat := (r.base + BitVec.ofNat 64 (n.toNat % r.cap * r.esz)).toNat

/-- Row 1 of R29 for an element: its address is in own-space form (R496). -/
def ownForm (e : Nat) : Bool := decide (e < 0x400000000)

/-- The element's port for a write: w, and a lit line for a requester from another cluster (R496). -/
def State.elemWrite (s : State) (who : Requester) (oa : Nat) (d : WData) : Chk Site :=
  Chk.need (ownForm oa) 0x03 <|
  (s.checkPortWith who .deposit (fun a => a.w) oa).bind fun site =>
    Chk.need (!who.remote || s.lineLit site.win site.key oa) 0x06 <|
    if site.attr.tags && s.lineLit site.win site.key oa then (s.escapeChk (wdataWords d)).bind fun _ => .ok site else .ok site

/-- The reply of an enqueue or dequeue. -/
def ringEntry (ws : List Word) : QEntry := plainEntry .u64 .other ws 0 0

/-- Writes a count of the control block. -/
def State.setCount (s : State) (req : AtomReq) (off : Nat) (v : Word) (e : QEntry) : Ran :=
  let oa := req.oa.toNat + off
  (s.checkWrite req.who .atomic oa (.bytes (bytesOf v) [false])).bind fun site =>
    .ok (e, s.perform site oa (.bytes (bytesOf v) [false]))

/-- Enqueue and dequeue. -/
def State.runRing (s : State) (req : AtomReq) : Ran :=
  (s.checkPort req.who .atomic req.oa.toNat).bind fun site =>
    match ringOf (s.view site 128) with
    | none => .fault 0x05 false
    | some r =>
      if req.op == .enq then
        if decide (r.cap ≤ (r.tail - r.head).toNat) then .ok (ringEntry [1, r.tail], s)
        else
          let e := r.at r.tail
          let d := wordsData (req.words.take (r.esz / 8))
          (s.elemWrite req.who e d).bind fun es =>
            (s.perform es e d).setCount req 8 (r.tail + 1) (ringEntry [0, r.tail + 1])
      else if r.tail == r.head then .ok (ringEntry ([1, r.head] ++ List.replicate 8 0), s)
      else
        let e := r.at r.head
        (Chk.need (ownForm e) 0x03 (s.checkPortWith { req.who with atomic := true } .load (fun a => a.rd) e)).bind fun es =>
          if s.lineTaken es.key then .wait else
          let y := wordsOf (r.esz / 8) (s.view es r.esz)
          s.setCount req 0 (r.head + 1) (ringEntry ([0, r.head + 1] ++ y ++ List.replicate (8 - y.length) 0))

/-- The advance of an advance-flagged request (R178, R330). -/
def State.runAdv (s : State) (req : AtomReq) : Ran :=
  (s.advance req.who req.oa.toNat).bind fun r => .ok (wordEntry .u64 r.1 false, r.2)

/-- A built-in request. -/
def State.runBuiltin (s : State) (req : AtomReq) : Ran :=
  match req.op with
  | .enq | .deq => s.runRing req
  | .adv => s.runAdv req
  | _ => s.runWord req

/-- The address at which a request accesses memory once its target has been accepted: a ring's element, or its target. -/
def State.amoAt (s : State) (req : AtomReq) : Nat :=
  if req.op == .enq || req.op == .deq then
    match s.checkPort req.who .atomic req.oa.toNat with
    | .ok site =>
      match ringOf (s.view site 128) with
      | some r => r.at (if req.op == .enq then r.tail else r.head)
      | none => req.oa.toNat
    | _ => req.oa.toNat
  else req.oa.toNat

/-- The tagged words that a request would write. -/
def tagWords (req : AtomReq) : List (Word × Bool) :=
  match req.op with
  | .enq => req.words.map fun w : TWord => (w.val, w.tag)
  | .swap | .cas => (req.words.take 1).map fun w : TWord => (w.val, w.tag)
  | _ => []

/-- Where a request misses the TLB: at the address that it accesses, or at a reference that it would write, `true` then. -/
def State.amoMiss (s : State) (req : AtomReq) : Nat × Bool :=
  match s.cl.window (s.amoAt req), s.cl.translate (s.amoAt req), s.escapes (tagWords req) 0 with
  | .dram, .miss, _ => (s.amoAt req, false)
  | _, _, some (_, some r) => (r, true)
  | _, _, _ => (s.amoAt req, false)

/-- The address concerned in a refusal of a request (R147, R343, R496). -/
def State.amoFaultAt (s : State) (req : AtomReq) (c : Code) : Nat :=
  s.amoAt req + if c == 0x07 then 8 * ((s.escapes (tagWords req) 0).map fun x => x.1).getD 0 else 0

/-! ## At the owner (R175 to R177) -/

/-- The cell whose atomic slot runs a request (R175). -/
def State.atomicCell (s : State) (oa : Nat) : Fin 64 :=
  match s.cl.window oa with
  | .ls n => n
  | .dram => let n : Fin 64 := Fin.ofNat 64 (oa / 128); if s.cl.present n then n else 63
  | _ => s.self

/-- A request keeps no older translation any more (R68). -/
def State.forgetOld (s : State) (req : AtomReq) : State :=
  if s.atomOld.any fun y : AtomReq × OldXlat => y.1 == req then
    { s with atomOld := s.atomOld.filter fun y : AtomReq × OldXlat => y.1 != req }.wakeHeld
  else s

/-- The lines that a request held are free, and watches on them are asked again (R164, R180). -/
def State.freeLines (s : State) (req : AtomReq) : State :=
  if s.cl.lineHolds.any fun h : AtomReq × Nat => h.1 == req then
    ({ s with cl := { s.cl with lineHolds := s.cl.lineHolds.filter fun h : AtomReq × Nat => h.1 != req } }.pollWatches).wakeHeld
  else s

/-- The request at work at a cell's slot is done with: the slot's next one goes on. -/
def State.slotFree (s : State) (n : Fin 64) (req : AtomReq) : State :=
  let s1 := ({ s with atomNow := s.atomNow.erase (n, req) }.freeLines req |>.forgetOld req).unblock
  match s1.atomNow.find? fun x : Fin 64 × AtomReq => x.1 == n with
  | some x => s1.push (.atomicGo n x.2)
  | none => s1

/-- The request at work at a cell's slot has to wait: it keeps the slot. -/
def State.slotKeeps (s : State) (n : Fin 64) (req : AtomReq) : State :=
  if s.atomNow.contains (n, req) then s else { s with atomNow := s.atomNow ++ [(n, req)] }

/-- A ring operation that waits for its element holds its control line (R180). -/
def State.ringHolds (s : State) (req : AtomReq) : State :=
  if req.op != .enq && req.op != .deq then s
  else
    match s.checkPort req.who .atomic req.oa.toNat with
    | .ok site => { s with cl := { s.cl with lineHolds := s.cl.lineHolds ++ [(req, site.key / 128 * 128)] } }
    | _ => s

/-- The modelled state without what the request itself holds. -/
def State.without (s : State) (req : AtomReq) : State :=
  { s with cl := { s.cl with lineHolds := s.cl.lineHolds.filter fun h : AtomReq × Nat => h.1 != req } }

/-- A request that was queued ahead of a shootdown runs under the translation that it keeps, as long as it has not missed it (R67). -/
def State.asQueued (s : State) (n : Fin 64) (req : AtomReq) (run : State → Out) : Out :=
  match s.atomOld.find? fun y : AtomReq × OldXlat => y.1 == req with
  | none => run s
  | some y =>
    match s.underXlat y.2 run with
    | .next t => .next (if t.cl.held.any fun x : Todo => (match x with
        | .port _ (.atomicGo k r) => k == n && r == req
        | _ => false) then t else t.forgetOld req)
    | r => r

/-- Runs a built-in request at its slot and replies; one that waits keeps its slot, and its line once it has it. A request that ends lets go
of what it held, so that watches on those lines are asked again (R164). -/
def State.runAtSlot (n : Fin 64) (req : AtomReq) (s : State) : Out :=
  let s0 := s.without req
  let ends (t : State) : Out := .next ({ t with cl := { t.cl with lineHolds := s.cl.lineHolds } }.slotFree n req)
  match s0.runBuiltin req with
  | .ok (e, s1) => ends (s1.replyAtom req.who req.oa req.tok e)
  | .fault c _ => ends (s0.refuseAt req.who (s0.amoFaultAt req c) c)
  | .miss =>
    let m := s0.amoMiss req
    let t : Todo := .atomicGo n req
    .next (((s0.ringHolds req).slotKeeps n req).missWait m.1 .atomic req.who (if m.2 then .refuseAs 0x07 t else t))
  | .snoop line => .next ((((s0.ringHolds req).slotKeeps n req).sendSnoop line).holdAt (s0.amoAt req) (.atomicGo n req))
  | .wait => .next (((s0.ringHolds req).slotKeeps n req).holdAt (s0.amoAt req) (.atomicGo n req))

def State.answerBuiltin (s : State) (n : Fin 64) (req : AtomReq) : Out := s.asQueued n req (State.runAtSlot n req)

/-- The state in which a user handler starts (R177): entry 30, P0 the target, the operands after it. -/
def userAct (h : Handler) (req : AtomReq) : Act :=
  let ws : List TWord := { val := req.oa, tag := false } :: req.words
  let ptr (i : Nat) : Ptr := { val := (ws.getD i { val := 0, tag := false }).val, step := 0,
                               tag := (ws.getD i { val := 0, tag := false }).tag }
  { Act.idle with
    live := true
    chan := 30
    reg := h.reg
    prio := h.pri
    pc := h.entry.setWidth 64
    p := Vector.ofFn fun i : Fin 8 => ptr i.val }

/-- Another cell's handler runs a request: the cell is sent it, and holds the line until its run is over (R176). -/
def State.userElse (s : State) (n : Fin 64) (req : AtomReq) (site : Site) : State :=
  let m := outMsg .atomicReq s.cl.place req.oa req.who.rid 0 [req.who.lcell.setWidth 64]
  (({ s with cl := { s.cl with atomElse := s.cl.atomElse ++ [n],
                               lineHolds := s.cl.lineHolds ++ [(req, site.key / 128 * 128)] } }).slotKeeps n req).emit
    { m with tok := req.tok, words := m.words ++ atomWord .user req.size :: req.words }

/-- Starts a user handler at the atomic slot of a cell (R176, R177, R331): the record of an evicted tree's entry comes before the port
(R407). -/
def State.userStart (n : Fin 64) (req : AtomReq) (s : State) : Out :=
  let h := s.cells[n].handlers[30]
  if !h.v && s.cells[n].evicted && s.cells[n].evChans.getLsbD 30 then .next ((s.replyNeg req.who req.oa 0x0C).slotFree n req)
  else
  match s.checkPort req.who .atomic req.oa.toNat with
  | .ok site =>
    if !h.v then .next ((s.replyNeg req.who req.oa 0x04).slotFree n req)
    else if n != s.self then .next (s.userElse n req site)
    else
      let run : AtomRun := { req, line := site.key / 128 * 128, stores := [], issued := 0 }
      .next ({ s.setSlot 4 (userAct h req) with atomRun := some run }.slotFree n req)
  | .fault c _ => .next ((s.replyNeg req.who req.oa c).slotFree n req)
  | .miss => .next ((s.slotKeeps n req).missWait req.oa.toNat .atomic req.who (.atomicGo n req))
  | .snoop line => .next (((s.slotKeeps n req).sendSnoop line).holdAt req.oa.toNat (.atomicGo n req))
  | .wait => .next ((s.slotKeeps n req).holdAt req.oa.toNat (.atomicGo n req))

/-- A request is taken to work at the slot of a cell: a built-in operation, or a user handler. -/
def State.runRequest (s : State) (n : Fin 64) (req : AtomReq) : Out :=
  if req.op == .user then s.asQueued n req (State.userStart n req) else s.answerBuiltin n req

/-- The handler of another cell runs the request. -/
def State.runsElse (s : State) (req : AtomReq) : Bool :=
  req.op == .user && s.cl.lineHolds.any fun h : AtomReq × Nat => h.1 == req

/-- The request at work at a cell's slot goes on. -/
def State.atomicGo (s : State) (n : Fin 64) (req : AtomReq) : Out :=
  if !s.atomNow.contains (n, req) || s.runsElse req then .next s else s.runRequest n req

/-- A request reaches the atomic slot of another cell of the cluster, behind those that stand there. -/
def State.atOther (s : State) (n : Fin 64) (req : AtomReq) : Out :=
  if s.atomNow.any fun x : Fin 64 × AtomReq => x.1 == n then .next { s with atomNow := s.atomNow ++ [(n, req)] }
  else s.runRequest n req

/-- ATOMIC_REQUEST_ARRIVAL (R175): queued at the modelled cell, or at work at another. -/
def execAtomicRequestArrival (req : AtomReq) (s : State) : Out :=
  let n := s.atomicCell req.oa.toNat
  if s.cells[n].fenced then .next (s.replyNeg req.who req.oa 0x0C)
  else if n == s.self then
    if s.atomQ.length < Config.atomicQueueSize then .next { s with atomQ := s.atomQ ++ [req] }
    else .next (s.hold (.atomicRequest req))
  else s.atOther n req

/-- The modelled cell's atomic slot runs a request or keeps one that waits. -/
def State.atomBusy (s : State) : Bool := s.atomRun.isSome || s.atomNow.any fun x : Fin 64 × AtomReq => x.1 == s.self

/-- The oldest user handler at work at another cell of the cluster has run: its line is free, and the slot's next request goes on (R38,
R176). -/
def State.ranElsewhere (s : State) : State :=
  match s.cl.atomElse with
  | [] => s
  | n :: rest =>
    let s1 := { s with cl := { s.cl with atomElse := rest } }
    match s.atomNow.find? fun x : Fin 64 × AtomReq => x.1 == n && s.runsElse x.2 with
    | some x => s1.slotFree n x.2
    | none => s1

/-- ATOMIC_RUN: the atomic slot takes the next request. With none that the modelled cell could take, it is another cell's that runs. -/
def execAtomicRun (s : State) : Out :=
  match s.atomQ with
  | req :: rest =>
    if s.atomBusy then .next s.ranElsewhere
    else
      let s1 := ({ s with atomQ := rest }).wakeHeld
      s1.runRequest s1.self req
  | [] => .next s.ranElsewhere

/-- ATOMIC_OVERRUN (R177): the 257th instruction of a user handler. -/
def execAtomicOverrun (s : State) : Out :=
  if s.atomRun.isSome then .next (((s.switchTo 4).abortAtomic 0x0B)) else .next s

/-- Checks and performs collected stores in order, or finds the first that is refused. -/
def State.commitStores (s : State) : List Collected → Chk State
  | [] => .ok s
  | c :: cs =>
    (s.checkWrite s.requester .store c.oa.toNat c.data).bind fun site =>
      ({ s with mem := s.performAt site c.oa.toNat c.data }).commitStores cs

/-- The address at which the first reference that a shadowed line keeps out was to be written (R147). -/
def State.escapedAt (s : State) : List Collected → Nat
  | [] => 0
  | c :: cs =>
    match (s.checkWrite s.requester .store c.oa.toNat c.data) with
    | .fault 0x07 _ => c.oa.toNat + s.escapeOff c.data
    | _ => s.escapedAt cs

/-- The wait of `done` on a reference that a collected store carries, or on the held line's page. -/
def State.commitMiss (s : State) (run : AtomRun) : Out :=
  let m := match run.stores.find? fun c : Collected => (s.writeMiss s.requester .store c.oa.toNat c.data).2 with
    | some c => s.missWrite .store s.requester c.oa.toNat c.data (.wake .atomic)
    | none => s.missWait run.req.oa.toNat .store s.requester (.wake .atomic)
  m.waitIn (.missWait run.req.oa)

/-- `done` in the atomic slot (R177, R341): the stores as one write, the reply with A, and the slot is free. -/
def State.endUser (s : State) : Out :=
  match s.atomRun with
  | none => .next { s with act := Act.idle }
  | some run =>
    match ({ s with atomRun := none }).commitStores run.stores with
    | .ok s1 =>
      let s2 := ({ s1 with act := Act.idle }).withMem s1.mem
      .next ((s2.replyAtom run.req.who run.req.oa run.req.tok (wordEntry .u64 s.act.a false)).wakeHeld)
    | .fault c _ => .next (s.abortAt c (if c == 0x07 then ({ s with atomRun := none }).escapedAt run.stores else run.req.oa.toNat))
    | .miss => s.commitMiss run
    | .snoop line => (s.sendSnoop line).stallAt run.req.oa.toNat
    | .wait => s.stallAt run.req.oa.toNat

/-! ## The reply (R329) -/

/-- Fills the place reserved for a request. -/
def fillPlace (rid : Nat) (e : QEntry) (l : List LdqPlace) : List LdqPlace :=
  l.map fun p => if p == .reserved rid then .filled e else p

/-- ATOMIC_REPLY (R329): the reply-table entry is free and the place of LDQ filled. -/
def execAtomicReply (rid : Nat) (entry : QEntry) (s : State) : Out :=
  if s.ridSaved rid then .next (s.hold (.atomReply rid entry))
  else
  match s.replyOf rid with
  | none => .next s
  | some _ => .next (((s.dropReply rid).mapPhases fun a => { a with ldq := fillPlace rid entry a.ldq }).wakeHeld)

end Sys2Proof.Machine
end

