-- ==== Sys2Proof/Machine/Barrier.lean ====
section
/-!
DEFINITION. Barriers (R42, R219 to R222, R319 to R322), major 0x2B: the registers, the sweep's signals, and the release.
-/
namespace Sys2Proof.Machine

def State.bar (s : State) (b : Fin 4) : BarReg := s.me.bars[b]
def State.setBar (s : State) (b : Fin 4) (r : BarReg) : State := s.mapMe fun c => { c with bars := c.bars.set b r }

/-- The modelled cell's coordinates (R31). -/
def State.here (s : State) : Nat × Nat := s.coords s.self

/-- A sweep message to the cell at coordinates: register number, rectangle, mismatch. -/
def barMsg (kind : OutKind) (place : Word) (x y : Nat) (b : Fin 4) (rect : BitVec 32) (sig : Word) (err : Bool) : OutMsg :=
  outMsg kind place (BitVec.ofNat 64 (y * 512 + x)) b.val 0 [rect.setWidth 64, sig, if err then 1 else 0]

/-! ## Release (R220 step 4, R320) -/

/-- The cell takes the release of the current phase and passes it on. -/
def State.takeRelease (s : State) (b : Fin 4) (rect : BitVec 32) (err : Bool) : State :=
  let r := rectOf rect
  let (x, y) := s.here
  let s1 := if x == r.x1 && r.y0 < y then s.emit (barMsg .barRelease s.cl.place x (y - 1) b rect 0 err) else s
  let s2 := if r.x0 < x then s1.emit (barMsg .barRelease s.cl.place (x - 1) y b rect 0 err) else s1
  let q := s2.bar b
  (s2.setBar b { q with arr := false, ph := !q.ph, err, west := false, north := false, bad := false }).unblock

/-- A sweep waits on the evicted cell's register (R219, R410). A signal names a register and a rectangle and not its tree: it is the present
tenant's where that has bound the register to the rectangle; else the evicted tree's where its register was bound to the rectangle, or
where the tenant has not bound the register at all (DESIGN CHOICE, log 119). -/
def State.barSaved (s : State) (b : Fin 4) (rect : BitVec 32) : Bool :=
  s.me.evicted && !((s.bar b).bound && (s.bar b).rect == rect) &&
  s.saved.any fun v : SavedCell =>
    v.cell == s.self && v.regs.bars[b].bound && (v.regs.bars[b].rect == rect || !(s.bar b).bound)

/-- BARRIER_RELEASE: it is taken by a register that has arrived. -/
def execBarrierRelease (b : Fin 4) (rect : BitVec 32) (err : Bool) (s : State) : Out :=
  if s.barSaved b rect then .next (s.hold (.barRelease b rect err))
  else if (s.bar b).arr then .next (s.takeRelease b rect err) else .next s

/-! ## The sweep (R220 steps 1 to 3) -/

/-- Row and column of the cell complete, as its register stands. -/
def BarReg.rowDone (q : BarReg) (x : Nat) : Bool := q.arr && (x == (rectOf q.rect).x0 || q.west)
def BarReg.colDone (q : BarReg) (x y : Nat) : Bool :=
  q.rowDone x && x == (rectOf q.rect).x1 && (y == (rectOf q.rect).y0 || q.north)

/-- Sends what a change of the register from `old` makes due. -/
def State.sweep (s : State) (b : Fin 4) (old : BarReg) : State :=
  let q := s.bar b
  let r := rectOf q.rect
  let (x, y) := s.here
  let s1 := if q.rowDone x && !old.rowDone x && x != r.x1 then
      s.emit (barMsg .barSignal s.cl.place (x + 1) y b q.rect 0 q.bad) else s
  if q.colDone x y && !old.colDone x y then
    if y == r.y1 then s1.takeRelease b q.rect q.bad
    else s1.emit (barMsg .barSignal s.cl.place x (y + 1) b q.rect 1 q.bad)
  else s1

/-- BARRIER_SIGNAL: taken into register `b` whatever is bound; another rectangle or none makes the release carry err. -/
def execBarrierSignal (b : Fin 4) (rect : BitVec 32) (sig : BarSig) (err : Bool) (s : State) : Out :=
  if s.barSaved b rect then .next (s.hold (.barSignal b rect sig err))
  else
  let old := s.bar b
  let bad := old.bad || err || !old.bound || old.rect != rect
  let q := match sig with
    | .row => { old with west := true, bad }
    | .col => { old with north := true, bad }
  .next ((s.setBar b q).sweep b old)

/-! ## barset (R42, R319) -/

/-- Whether a rectangle has an absent cell of this cluster. -/
def State.rectAbsent (s : State) (r : Rect) : Bool :=
  (List.finRange 64).any fun n => r.holds (s.coords n).1 (s.coords n).2 && !s.cl.present n

/-- The other clusters of the grid that a rectangle covers, as places. -/
def State.rectOthers (s : State) (r : Rect) : List Word :=
  ((List.range (s.cl.cw * s.cl.ch)).filter fun l => l != s.lclu.toNat && s.cl.rectMeets r l).map fun l =>
    (1#1 ++ s.cl.place.extractLsb' 45 18 ++ BitVec.ofNat 9 l ++ 0#36 : BitVec 64)

/-- The checks after every home has answered, and the binding. -/
def State.bindBar (s : State) (b : Fin 4) (rect : BitVec 32) (absent : Bool) : Out :=
  let r := rectOf rect
  if absent || s.rectAbsent r then s.trap 0x04 (rect.setWidth 64)
  else if !r.holds s.here.1 s.here.2 || (s.bar b).arr then s.trap 0x05 0
  else
    let q := s.bar b
    (s.setBar b { q with bound := true, rect, arr := false, ph := false, err := false }).finish

def execBarset (pa : PReg) (b : Fin 4) (s : State) : Out :=
  s.generalOnly fun s1 =>
    let rect := s1.rectIn pa
    let r := rectOf rect
    if !s1.cl.rectOk r then s1.trap 0x04 (rect.setWidth 64)
    else
      match s1.act.phase with
      | .barWait _ 0 absent => s1.bindBar b rect absent
      | .barWait _ _ _ => s1.stall
      | _ =>
        let others := s1.rectOthers r
        if others.isEmpty then s1.bindBar b rect false
        else
          match others.find? fun p : Word => (s1.placeFault p).isSome with
          | some p => s1.trap ((s1.placeFault p).getD 0x04) p
          | none =>
            let rid := s1.nextRid
            (others.foldl (fun (st : State) (p : Word) => st.emit (outMsg .barCheck p p rid 0 [rect.setWidth 64]))
              { s1 with nextRid := rid + 1 }).waitIn (.barWait rid others.length false)

/-- A home's answer to a `barset` of the modelled cell, by its number: `absent` where it found an absent cell. -/
def barAnswered (rid : Nat) (absent : Bool) (a : Act) : Act :=
  match a.phase with
  | .barWait r (n + 1) ab => if r == rid then { a with phase := .barWait r n (ab || absent) } else a
  | _ => a

/-- BARSET_CHECK (R42): the home of this cluster answers another cluster's cell. -/
def execBarsetCheck (who : Requester) (rect : BitVec 32) (s : State) : Out :=
  let code : Code := (s.turnsAway who).getD (if s.rectAbsent (rectOf rect) then 0x04 else 0)
  .next (s.emit (outMsg .barAns who.place (rect.setWidth 64) who.rid code []))

/-! ## barv and barw (R320, R321) -/

def execBarv (b : Fin 4) (s : State) : Out :=
  s.generalOnly fun s1 =>
    let q := s1.bar b
    if !q.bound then s1.trap 0x05 0
    else if q.arr then s1.stall
    else ((s1.setBar b { q with arr := true, err := false }).sweep b q).finish

def execBarw (b : Fin 4) (s : State) : Out :=
  s.generalOnly fun s1 =>
    let q := s1.bar b
    if !q.bound then s1.trap 0x05 0
    else if q.arr then s1.stall
    else if q.err then s1.trap 0x05 0
    else s1.finish

end Sys2Proof.Machine
end

