-- ==== Sys2Proof/Machine/Branch.lean ====
section
/-!
DEFINITION. Branches, calls, jumps and zero-overhead loops, majors 0x02 to 0x06 (R232 to R235, R266 to R276).
-/
namespace Sys2Proof.Machine

/-- Whether an address lies in the active loop's body (R275). -/
def LoopState.holds (l : LoopState) (t : Word) : Bool :=
  l.count != 0 && decide (l.start.toNat ≤ t.toNat) && decide (t.toNat ≤ l.stop.toNat)

/-- What R266 finds wrong with a target. -/
def targetFault (t : Word) : Option Code :=
  if t.extractLsb' 34 30 != 0 then some 0x03 else if t.extractLsb' 0 2 != 0 then some 0x02 else none

/-- A taken branch or jump that keeps the loop state (R275): `call`, `jal`, `ret`. -/
def State.jump (s : State) (t : Word) : Out :=
  match targetFault t with
  | some c => s.trap c t
  | none => .next (s.jumpTo t)

/-- A taken branch that clears the loop state when it leaves the body (R275). -/
def State.branch (s : State) (t : Word) : Out :=
  match targetFault t with
  | some c => s.trap c t
  | none =>
    .next ((s.mapAct fun a => { a with loop := if a.loop.holds t then a.loop else LoopState.zero }).jumpTo t)

/-- The target of an offset in words (R232, R233). -/
def State.relTarget (s : State) (off : Word) : Word := s.act.pc + off * 4

/-- A branch on a condition with an offset that `ext` may widen (R267). -/
def State.branchIf (s : State) (taken : Bool) (off : BitVec 16) : Out :=
  if taken then s.branch (s.relTarget (s.act.wide off)) else s.finish

def execPbeq (pd ps : PReg) (off : BitVec 16) (s : State) : Out := s.branchIf (s.pv pd == s.pv ps) off
def execPbne (pd ps : PReg) (off : BitVec 16) (s : State) : Out := s.branchIf (s.pv pd != s.pv ps) off
def execPblt (pd ps : PReg) (off : BitVec 16) (s : State) : Out := s.branchIf ((s.pv pd).slt (s.pv ps)) off
def execPbge (pd ps : PReg) (off : BitVec 16) (s : State) : Out := s.branchIf (!(s.pv pd).slt (s.pv ps)) off
def execPbltu (pd ps : PReg) (off : BitVec 16) (s : State) : Out := s.branchIf ((s.pv pd).ult (s.pv ps)) off
def execPbgeu (pd ps : PReg) (off : BitVec 16) (s : State) : Out := s.branchIf (!(s.pv pd).ult (s.pv ps)) off
def execPbtag (pd : PReg) (off : BitVec 16) (s : State) : Out := s.branchIf s.act.p[pd].tag off
def execPbnt (pd : PReg) (off : BitVec 16) (s : State) : Out := s.branchIf (!s.act.p[pd].tag) off

/-! ## Major 0x03 -/

def execBr (off : BitVec 22) (s : State) : Out := s.branch (s.relTarget (off.signExtend 64))

/-- Writes a link register: PC + 4, untagged, step 0 (R268, R271). -/
def State.link (s : State) (pd : PReg) : State :=
  s.mapAct fun a => a.setP pd { val := a.pc + 4, step := 0, tag := false }

/-- A jump that writes a link register, which a faulting target leaves unwritten (R266, R271). -/
def State.jumpLink (s : State) (pd : PReg) (t : Word) : Out :=
  match targetFault t with
  | some c => s.trap c t
  | none => .next ((s.link pd).jumpTo t)

def execCall (off : BitVec 22) (s : State) : Out := s.jumpLink 7 (s.relTarget (off.signExtend 64))

/-- A flag branch waits for the older parts of the execute half (R244, R268). -/
def State.flagBranch (s : State) (cond : Flags → Bool) (off : BitVec 22) : Out :=
  if !s.act.exq.isEmpty then s.stall
  else if cond s.act.f then s.branch (s.relTarget (off.signExtend 64))
  else s.finish

def execBz (off : BitVec 22) (s : State) : Out := s.flagBranch (fun f => f.z) off
def execBnz (off : BitVec 22) (s : State) : Out := s.flagBranch (fun f => !f.z) off
def execBn (off : BitVec 22) (s : State) : Out := s.flagBranch (fun f => f.n) off
def execBnn (off : BitVec 22) (s : State) : Out := s.flagBranch (fun f => !f.n) off
def execBc (off : BitVec 22) (s : State) : Out := s.flagBranch (fun f => f.c) off
def execBnc (off : BitVec 22) (s : State) : Out := s.flagBranch (fun f => !f.c) off
def execBo (off : BitVec 22) (s : State) : Out := s.flagBranch (fun f => f.o) off
def execBno (off : BitVec 22) (s : State) : Out := s.flagBranch (fun f => !f.o) off
def execBx (off : BitVec 22) (s : State) : Out := s.flagBranch (fun f => f.x) off
def execBnx (off : BitVec 22) (s : State) : Out := s.flagBranch (fun f => !f.x) off

/-! ## Major 0x04 -/

/-- Pops XQ and branches on the word; an empty queue or a place not yet filled blocks, and a branch that faults pops nothing
(R269, R270). -/
def State.xqBranch (s : State) (cond : Word → Bool) (off : BitVec 22) : Out :=
  match s.act.xq with
  | .filled x :: rest =>
    let s1 := s.mapAct fun a => { a with xq := rest }
    if cond x then
      match targetFault (s.relTarget (off.signExtend 64)) with
      | some c => s.trap c (s.relTarget (off.signExtend 64))
      | none => s1.branch (s.relTarget (off.signExtend 64))
    else s1.finish
  | _ => s.stall

def execBxz (off : BitVec 22) (s : State) : Out := s.xqBranch (fun x => x == 0) off
def execBxnz (off : BitVec 22) (s : State) : Out := s.xqBranch (fun x => x != 0) off
def execBxs (off : BitVec 22) (s : State) : Out := s.xqBranch (fun x => x.getLsbD 63) off
def execBxns (off : BitVec 22) (s : State) : Out := s.xqBranch (fun x => !x.getLsbD 63) off
def execBxt (off : BitVec 22) (s : State) : Out := s.xqBranch (fun x => x.getLsbD 0) off
def execBxf (off : BitVec 22) (s : State) : Out := s.xqBranch (fun x => !x.getLsbD 0) off

/-! ## Majors 0x05 and 0x06 -/

/-- Starts a loop (R273). -/
def State.startLoop (s : State) (n : Word) (len : BitVec 16) : Out :=
  let a := s.act
  let len4 : Word := len.setWidth 64 * 4
  if a.loop.count != 0 then s.trap 0x05 0
  else if n == 0 then .next (s.jumpTo (a.pc + len4 + 4))
  else .next ((s.mapAct fun a => { a with loop := { count := n, start := a.pc + 4, stop := a.pc + len4 } }).jumpTo (a.pc + 4))

def execLoop (ps : PReg) (len : BitVec 16) (s : State) : Out := s.startLoop (s.pv ps) len
def execLoopi (n : BitVec 6) (len : BitVec 16) (s : State) : Out := s.startLoop (n.setWidth 64) len

def execJmp (ps : PReg) (s : State) : Out := s.branch (s.pv ps)
def execJal (pd ps : PReg) (s : State) : Out := s.jumpLink pd (s.pv ps)
def execRet (s : State) : Out := s.jump (s.pv 7)

end Sys2Proof.Machine
end

