-- ==== Sys2Proof/Machine/MatrixMath.lean ====
section
/-!
DEFINITION. The arithmetic of the matrix engine: width classes (R359), rows and columns as exact values (R360, R361), the sums of
R129 to R133, the recurrence of `mmp` (R373, R374), and the conversion of a row at commit (R375).
-/
namespace Sys2Proof.Machine

/-! ## Classes and rows -/

inductive MClass where
  | n4 | n8 | w16
  deriving DecidableEq, Repr

/-- The class of an operand type, which for nf and nfs depends on the owner's descriptor (R359). -/
def classOf (ty : Ty) (desc : Option (BitVec 24)) : MClass :=
  match ty with
  | .fp16 | .bf16 => .w16
  | .nf | .nfs => if (Desc.of (desc.getD 0)).width ≤ 4 then .n4 else .n8
  | _ => .n8

/-- Kt, and the bytes of a row or column. -/
def MClass.kt (c : MClass) : Nat := if c = .n4 then 256 else 128
def MClass.bytes (c : MClass) : Nat := if c = .w16 then 256 else 128

/-- The geometry that an nfs operand must have: scpl = 1 and L = Kt (R361). -/
def MClass.geo (c : MClass) : BitVec 4 := if c = .n4 then 0xC#4 else 0xB#4

/-- The exact values of a row or column (R121, R360). -/
def rowVals (ty : Ty) (desc : Option (BitVec 24)) (scale : Byte) (bs : List Byte) : List FVal :=
  let d := Desc.of (desc.getD 0)
  let kt := (classOf ty desc).kt
  let nf (i : Nat) : FVal := nfDecode d (bitsOf bs (i * d.width) d.width)
  match ty with
  | .i8 => (bs.take kt).map fun b => FVal.ofInt b.toInt
  | .u8 => (bs.take kt).map fun b => FVal.ofInt b.toNat
  | .fp16 | .bf16 => (List.range kt).map fun i => fdecode (tyFmt ty) (leNat ((bs.drop (2 * i)).take 2))
  | .nfs => (List.range kt).map fun i => if scale == 0xFF then .dnan else (nf i).scaleBy ((scale.toNat : Int) - 127)
  | _ => (List.range kt).map nf

/-! ## Products and sums (R129 to R133) -/

/-- A product (R130). -/
def mulVal (a b : FVal) : FVal :=
  match a, b with
  | .fin s m e, .fin t n f => .fin (s != t) (m * n) (e + f)
  | x, y =>
    if x.isNan || y.isNan || x.isZero || y.isZero then .dnan else .inf (x.neg? != y.neg?)

/-- What a slice of products gives, with the index of R131. -/
inductive Slice where
  | nan (k : Nat)
  | inf (neg : Bool) (k : Nat)
  | fin (bits : Nat)
  deriving DecidableEq, Repr

def isInfOf (neg : Bool) (v : FVal) : Bool := v == .inf neg

/-- The slice of its products in order of k (R129, R131). -/
def sliceOf (ps : List FVal) : Slice :=
  match ps.findIdx? FVal.isNan with
  | some k => .nan k
  | none =>
    match ps.findIdx? (isInfOf false), ps.findIdx? (isInfOf true) with
    | some i, some j => .nan (max i j)
    | some i, none => .inf false i
    | none, some j => .inf true j
    | none, none =>
      let r := exactSum .rne 0 (ps.map Term.val)
      if r.ovf then .inf (fdecode Fmt.fp32 r.bits).neg? 127 else .fin r.bits

/-- The NaN that the engine produces (R132). -/
def engineNan (cell k : Nat) : Nat := 0x7FC00000 + cell * 128 + k % 128

/-- A received NaN made quiet with sign 0 (R133). -/
def receivedNan (p : Nat) : Nat := 0x7FC00000 + p % 2 ^ 22

/-- The running partial: its pattern, and whether it is a NaN that this command produced. -/
structure Part where
  bits : Nat
  own  : Bool
  deriving DecidableEq, Repr

/-- The partial at the start of a command (R133). -/
def Part.start (p : Nat) : Part := { bits := if (fdecode Fmt.fp32 p).isNan then receivedNan p else p, own := false }

/-- Adds a slice to the partial (R131, R133). -/
def Part.add (cell : Nat) (p : Part) (s : Slice) : Part :=
  let v := fdecode Fmt.fp32 p.bits
  if p.own then p
  else
    match s with
    | .nan k =>
      let own := engineNan cell k
      { bits := if v.isNan && decide (p.bits ≤ own) then p.bits else own, own := true }
    | .inf neg k =>
      if v.isNan then p
      else if v == .inf (!neg) then { bits := engineNan cell k, own := true }
      else { bits := finf Fmt.fp32 neg, own := false }
    | .fin b => if v.isNan then p else { bits := (fadd Fmt.fp32 .rne 0 p.bits b).bits, own := false }

/-- The products of slice `j`; those at or above kc count as +0 (R372). -/
def sliceProducts (kc j : Nat) (a b : List FVal) : List FVal :=
  (List.range 128).map fun k =>
    let i := 128 * j + k
    if i < kc then mulVal (a.getD i (.fin false 0 0)) (b.getD i (.fin false 0 0)) else .fin false 0 0

/-- One result of `mma` (R372). -/
def mmaCell (cell kt kc : Nat) (a b : List FVal) (p : BitVec 32) : BitVec 32 :=
  BitVec.ofNat 32 ((List.range (kt / 128)).foldl (fun q j => q.add cell (sliceOf (sliceProducts kc j a b)))
    (Part.start p.toNat)).bits

/-! ## The recurrence of `mmp` (R373, R374) -/

/-- The temporaries and the values that an operation may read. -/
structure PState where
  s : Nat
  a : Nat
  b : Nat
  c : Nat
  t : Vector Nat 4

def PState.src (p : PState) (code : BitVec 3) : Nat :=
  match code.toNat with
  | 0 => p.s
  | 1 => p.a
  | 2 => p.b
  | 3 => p.c
  | n => p.t[Fin.ofNat 4 n]

/-- One operation's result, before its NaN rule. -/
def progOp (p : PState) (w : BitVec 16) : Nat :=
  let x := p.src (w.extractLsb' 7 3)
  let y := p.src (w.extractLsb' 4 3)
  let z := p.src (w.extractLsb' 1 3)
  match (w.extractLsb' 12 4).toNat with
  | 0 => (fadd Fmt.fp32 .rne 0 x y).bits
  | 1 => (fsub Fmt.fp32 .rne 0 x y).bits
  | 2 => (fmul Fmt.fp32 .rne 0 x y).bits
  | 3 => fminmax Fmt.fp32 false x y
  | 4 => fminmax Fmt.fp32 true x y
  | 5 => x &&& y
  | 6 => x ||| y
  | 7 => x ^^^ y
  | _ => if z / 2 ^ 31 % 2 == 1 then x else y

def progStep (cell k : Nat) (p : PState) (w : BitVec 16) : PState :=
  let r := progOp p w
  let v := if (fdecode Fmt.fp32 r).isNan then engineNan cell k else r
  { p with t := p.t.set (w.extractLsb' 10 2).toFin v }

/-- An element as binary32, nearest even (R374); a NaN brings no payload into the engine and is replaced by the engine's own (R132). -/
def toF32 (cell k : Nat) (v : FVal) : Nat := if v.isNan then engineNan cell k else (fpack Fmt.fp32 Fmt.fp32 .rne v 0).bits

/-- One result of `mmp`. -/
def mmpCell (cell kc : Nat) (prog : List (BitVec 16)) (c : BitVec 32) (a b : List FVal) (s : BitVec 32) : BitVec 32 :=
  let last : BitVec 2 := (prog.getLast?.getD 0).extractLsb' 10 2
  BitVec.ofNat 32 ((List.range kc).foldl (fun s k =>
    let p := prog.foldl (progStep cell k)
      { s, a := toF32 cell k (a.getD k (.fin false 0 0)), b := toF32 cell k (b.getD k (.fin false 0 0)), c := c.toNat, t := Vector.replicate 4 0 }
    p.t[last.toFin]) s.toNat)

/-- Whether the low 16 bits of a program word are an operation that `mprog` admits (R373). -/
def progOpOk (w : BitVec 16) : Bool :=
  decide ((w.extractLsb' 12 4).toNat ≤ 8) && (w.extractLsb' 12 4 == 8 || w.extractLsb' 1 3 == 0) && !w.getLsbD 0

/-! ## Commit (R375) -/

/-- A row converted: its bytes, a scale byte for nfs, and the generator afterwards. -/
structure RowOut where
  bytes : List Byte
  scale : Byte
  seed  : BitVec 32

/-- Conversion of values to a floating type, one draw each (R128; of fp32 too, DEDUCED, log 90). -/
def commitFloats (f : Fmt) (sat : Bool) (rm : Rnd) : BitVec 32 → List FVal → RowOut
  | seed, [] => { bytes := [], scale := 0, seed }
  | seed, v :: vs =>
    let d := takeDraw rm seed
    let r := cvtToFloat Fmt.fp32 f sat rm d.2 v
    let rest := commitFloats f sat rm d.1 vs
    { rest with bytes := leBytes (f.width / 8) r.bits ++ rest.bytes }

/-- Conversion of values to codes, one draw each, into a line of zeros from element `i` on. -/
def commitCodes (d : Desc) (sat : Bool) (rm : Rnd) : BitVec 32 → Nat → List FVal → List Byte → RowOut
  | seed, _, [], line => { bytes := line, scale := 0, seed }
  | seed, i, v :: vs, line =>
    let dr := takeDraw rm seed
    let r := nfEncode d rm sat dr.2 v
    commitCodes d sat rm dr.1 (i + 1) vs (setBits line (i * d.width) d.width r.code)

/-- A row of 64 values as type `ty`: its line or line pair, and for nfs the chosen scale. -/
def commitRow (ty : Ty) (desc : BitVec 24) (sexp : Int) (sat : Bool) (rm : Rnd) (seed : BitVec 32) (row : List (BitVec 32)) :
    RowOut :=
  let vs := row.map fun b => (fdecode Fmt.fp32 b.toNat).scaleBy sexp
  let d := Desc.of desc
  match ty with
  | .nf => commitCodes d sat rm seed 0 vs (List.replicate 128 0)
  | .nfs =>
    let x := chooseScale d vs
    { commitCodes d sat rm seed 0 (vs.map fun v => v.scaleBy (127 - (x : Int))) (List.replicate 128 0) with
      scale := BitVec.ofNat 8 x }
  | t => commitFloats (tyFmt t) sat rm seed vs

end Sys2Proof.Machine
end

