-- ==== Sys2Proof/Machine/Watch.lean ====
section
/-!
DEFINITION. Watches (R90, R164 to R166, R315 to R318), major 0x2A, with the owner's and the issuer's side of a placement.
-/
namespace Sys2Proof.Machine

/-! ## Placing -/

def Act.setWatch (a : Act) (w : Fin 4) (r : WatchReg) : Act := { a with watch := a.watch.set w r }

/-- Sends a placement to its owner. -/
def State.placeWatch (s : State) (w : WatchReg) : State :=
  if s.isHere w.addr then
    s.push (.watchPlace { who := { s.requester with rid := w.rid }, oa := BitVec.ofNat 64 (oaOf w.addr), thresh := w.thresh,
                          acq := w.acq })
  else s.leave (outMsg .watchReq (prefixOf w.addr) w.addr w.rid 0 [w.thresh, if w.acq then 1 else 0])
    (.watchAns w.rid (.refused 0x04))

/-- The checks of R316 at the cell. -/
def State.watchFault (s : State) (a : Word) : Option Code :=
  if !formOk a then some 0x03
  else if a.toNat % 8 != 0 then some 0x02
  else if a.getLsbD 63 then s.placeFault a
  else none

/-- `watch` and `watcha` (R316). -/
def State.watchOn (s : State) (pa pb : PReg) (w : Fin 4) (acq : Bool) : Out :=
  s.generalOnly fun s1 =>
    let a := s1.pv pa
    match s1.watchFault a with
    | some c => s1.trap c a
    | none =>
      let old := s1.act.watch[w]
      let s2 := s1.cancelPlaced old
      let r : WatchReg := { st := .pending, acq, code := 0, val := 0, rid := s2.nextRid, addr := a, thresh := s2.pv pb }
      let s3 := { s2 with nextRid := s2.nextRid + 1,
                          acquiring := if acq && !s2.isHere a then s2.acquiring ++ [(s2.nextRid, prefixOf a)] else s2.acquiring }
      ((s3.mapAct fun x => x.setWatch w r).placeWatch r).finish

def execWatch (pa pb : PReg) (w : Fin 4) (s : State) : Out := s.watchOn pa pb w false
def execWatcha (pa pb : PReg) (w : Fin 4) (s : State) : Out := s.watchOn pa pb w true

/-! ## Waiting (R317) -/

def execWwait (w : Fin 4) (s : State) : Out :=
  s.generalOnly fun s1 =>
    let r := s1.act.watch[w]
    match r.st with
    | .empty => s1.trap 0x05 0
    | .pending => s1.stall
    | .answered => s1.finish
    | .failed => s1.trap r.code r.addr

/-- Pushes a word to XQ from the access half, where a place is free (R270). -/
def State.pushXq (s : State) (w : Word) : Out :=
  if Config.xqSize ≤ s.act.xq.length then s.stall
  else (s.mapAct fun a => { a with xq := a.xq ++ [.filled w] }).finish

def execWtest (w : Fin 4) (s : State) : Out :=
  s.generalOnly fun s1 =>
    let st := s1.act.watch[w].st
    s1.pushXq (if st == .answered || st == .failed then 1 else 0)

/-! ## At the owner and at the issuer -/

/-- WATCH_AT_OWNER (R164): answered at once, waiting for a translation, pending, or turned away with a "not met" mark. -/
def execWatchAtOwner (req : WatchReq) (s : State) : Out :=
  match s.watchNow req with
  | some ans => .next (s.sendWatchAns req ans)
  | none =>
    let keep (s1 : State) : State :=
      if s1.cl.watches.length < Config.maxWatches then { s1 with cl := { s1.cl with watches := s1.cl.watches ++ [req] } }
      else s1.sendWatchAns req .notMet
    match s.checkPort req.who .load req.oa.toNat with
    | .miss => .next (s.missWait req.oa.toNat .load req.who (.watchPlace req))
    | .snoop line => .next ((keep s).sendSnoop line)
    | _ => .next (keep s)

/-- The change count of a floor entry rises by one (R90). -/
def Cluster.bumpChange (cl : Cluster) (idx : BitVec 8) : Cluster :=
  let old := match cl.changes.find? fun e : BitVec 8 × BitVec 48 => e.1 == idx with
    | some e => e.2
    | none => 0
  { cl with changes := (idx, old + 1) :: cl.changes.filter fun e : BitVec 8 × BitVec 48 => e.1 != idx }

/-- Sets a floor entry. -/
def Cluster.setFloor (cl : Cluster) (idx : BitVec 8) (place floor : Word) : Cluster :=
  { cl with floor := { idx, place, floor } :: cl.floor.filter fun e : FloorEnt => e.idx != idx }

/-- The floor table takes the counter value of an acquiring answer (R90). -/
def Cluster.raiseFloor (cl : Cluster) (place c : Word) : Cluster :=
  let idx := floorIdx place
  match cl.floorOf idx with
  | some f =>
    if f.place == place then
      (cl.setFloor idx place (if f.floor.toNat < c.toNat then c else f.floor)).bumpChange idx
    else
      ({ cl.setFloor idx place c with refl := cl.refl.filter fun l : ReflLine => floorIdx l.place != idx }).bumpChange idx
  | none => (cl.setFloor idx place c).bumpChange idx

/-- The floor step of an acquiring answer, cancelled placements included (R90, R316). -/
def State.floorStep (s : State) (rid : Nat) (ans : WatchAns) : State :=
  match s.acquiring.find? fun e : Nat × Word => e.1 == rid, ans with
  | some e, .met _ c =>
    { s with cl := s.cl.raiseFloor e.2 c, acquiring := s.acquiring.filter fun e : Nat × Word => e.1 != rid }
  | some _, .refused _ => { s with acquiring := s.acquiring.filter fun e : Nat × Word => e.1 != rid }
  | _, _ => s

/-- WATCH_ANSWER (R316): the floor step, then the register; an acquiring watch of another cell of the cluster on the owner `sibling`
raises the floor that the cluster shares (R90, R93). -/
def execWatchAnswer (w : WatchAt) (ans : WatchAns) (s : State) : Out :=
  match w.sibling, ans with
  | some place, .met _ c =>
    .next (if prefixOf place == prefixOf s.cl.place then s else { s with cl := s.cl.raiseFloor (prefixOf place) c })
  | some _, _ => .next s
  | none, _ =>
    let s1 := s.floorStep w.rid ans
    .next (if s1.watchSaved w.rid then s1.hold (.watchAns w.rid ans) else (s1.watchAnswered w.rid ans).unblock)

/-- WATCH_REPLACE (R164): a placement that was turned away is sent again. -/
def execWatchReplace (rid : Nat) (s : State) : Out :=
  match s.allWatches.find? fun w : WatchReg => w.st == WatchSt.pending && w.rid == rid with
  | some w => .next (s.placeWatch w)
  | none => .next s

end Sys2Proof.Machine
end

