-- ==== Sys2Proof/Machine/Message.lean ====
section
/-!
DEFINITION. Messages and the ends of an activation (R207, R335 to R342), major 0x2E, and tokens' own instructions (R332 to R334),
major 0x2F; the replies to messages (R167, R169, R191, R400).
-/
namespace Sys2Proof.Machine

/-! ## Destinations (R335, R336) -/

/-- The logical index that an own-space part names, where it names a cell: a local-store slot's, or that of a DRAM line's atomic
cell. -/
def destIndex (oa : Nat) : Option (Fin 64) :=
  if oa < 0x200000000 then some (Fin.ofNat 64 (oa / 128))
  else if oa < 0x201000000 then some (Fin.ofNat 64 ((oa - 0x200000000) / 0x40000))
  else none

/-- Rows 1 to 7 of R336; `chan` where the instruction names one, `align` where the address must be a multiple. -/
def State.msgFault (s : State) (a : Word) (align : Nat) (chan : Option (BitVec 5)) (ask nm : Option (Fin 4)) : Option Code :=
  if !formOk a then some 0x03
  else if (destIndex (oaOf a)).isNone then some 0x04
  else if a.toNat % align != 0 then some 0x02
  else
    match (if a.getLsbD 63 then s.placeFault a else none) with
    | some c => some c
    | none =>
      if chan.any fun c : BitVec 5 => decide (28 ≤ c.toNat) then some 0x05
      else s.tokFault a ask nm

/-- The cell that takes the message in this cluster: an absent index of the DRAM window is replaced by 63, one of a local-store slot
is refused (R335). -/
def State.localDest (s : State) (oa : Nat) : Option (Fin 64) :=
  match destIndex oa with
  | none => none
  | some n => if s.cl.present n then some n else if oa < 0x200000000 then some 63 else none

/-- The message that leaves (R207, R337). -/
def State.msgOf (s : State) (a : Word) (chan : BitVec 5) (spw : Bool) (named held : BitVec 24) (words : List TWord)
    (moves : Bool := false) : Msg :=
  let lclu : BitVec 9 := if a.getLsbD 63 then a.extractLsb' 36 9 else s.lclu
  { kind := .data, chan, spw, held := held != 0, src := s.lcell,
    dst := lclu ++ BitVec.ofNat 6 ((destIndex (oaOf a)).getD 0).val, spkg := s.cl.place.extractLsb' 45 18, tok := named, words,
    line := decide (oaOf a < 0x200000000), moves }

/-- The message as a word list for the fabric: its header words H0 and H1, then the payload (R207). -/
def msgH0 (m : Msg) : Word :=
  let kind : BitVec 2 := match m.kind with
    | .data => 0
    | .rcmd => 1
    | .notice => 2
  (kind ++ BitVec.ofNat 4 m.words.length ++ m.chan ++ b1 m.spw ++ b1 m.held ++ 0#6 ++ m.src ++ m.dst ++ 0#7 ++
    BitVec.ofNat 8 ((m.words.zipIdx.map fun p : TWord × Nat => if p.1.tag then 2 ^ p.2 else 0).foldl (· + ·) 0) : BitVec 64)

def msgH1 (m : Msg) : Word := (m.spkg ++ 0#22 ++ m.tok : BitVec 64)

/-- Hands a message to its destination: a cell of this cluster, or the fabric. -/
def State.routeMsg (s : State) (a : Word) (m : Msg) (rid : Nat) (asked held : BitVec 24) : Sent :=
  if s.isHere a then
    match s.localDest (oaOf a) with
    | none => .here (.negative rid 0x04 none)
    | some n =>
      if n == s.self then .here (.message { who := s.asReq rid, msg := m, tok := asked })
      else .away { outMsg .message s.cl.place (BitVec.ofNat 64 n.val) rid 0 [] with
        chan := m.chan, tok := asked, held := held, words := plainWords [msgH0 m, msgH1 m] ++ m.words }
  else .away { outMsg .message (prefixOf a) a rid 0 [] with
    chan := m.chan, tok := asked, held := held, words := plainWords [msgH0 m, msgH1 m] ++ m.words }

/-! ## The instructions (R337 to R340) -/

/-- The payload P0 to P(n-1) with tags. -/
def State.payload (s : State) (n : Nat) : List TWord := (s.act.p.toList.take n).map Ptr.tword

/-- Checks and sends a message; `kept` is the payload that a refusal returns to the trap channel, `after` what the activation does
when it has left. -/
def State.message (s : State) (a : Word) (chan : BitVec 5) (nm : Option (Fin 4)) (spw : Bool) (kind : ReplyKind)
    (words kept : List TWord) (ready : Bool) (blocked after : State → Out) : Out :=
  let ask := s.act.askSlot
  match s.msgFault a 1 (some chan) ask nm with
  | some c => s.trapTok c a nm
  | none =>
    if !ready then blocked s
    else if !s.canSend a ask nm then s.stall
    else after (s.sendOut kind a ask nm kept fun s0 rid asked held =>
      s0.routeMsg a (s0.msgOf a chan spw (s0.named nm) held words (kind != .spawn)) rid asked held)

def execSend (pa : PReg) (tn : TokName) (n : BitVec 4) (c : BitVec 5) (s : State) : Out :=
  s.generalOnly fun s1 =>
    s1.message (s1.pv pa) c (s1.act.nameSlot tn) false .message (s1.payload n.toNat) [] true State.stall State.finish

/-- `mig` (R340): sends P0 to P7 and ends. -/
def execMig (pa : PReg) (c : BitVec 5) (s : State) : Out :=
  s.generalOnly fun s1 =>
    s1.message (s1.pv pa) c none s1.act.spw .message (s1.payload 8) (s1.payload 8) true State.stall
      fun s2 => .next (s2.endAct false)

/-- `spawn` (R339): takes a unit of credit, unless credit is unlimited, or waits for a grant. -/
def execSpawn (pa : PReg) (tn : TokName) (n : BitVec 4) (c : BitVec 5) (s : State) : Out :=
  s.generalOnly fun s1 =>
    let e := s1.regEntry
    let r := s1.act.reg
    let free := s1.payer e .credit == 0
    s1.message (s1.pv pa) c (s1.act.nameSlot tn) true .spawn (s1.payload n.toNat) [] (free || e.credit != 0)
      (fun s2 => (s2.askGrant r .credit).stall)
      (fun s2 => (if free then s2 else s2.mapReg r fun e => { e with credit := e.credit - 1 }).finish)

/-- `done` (R340, R341). -/
def execDone (s : State) : Out :=
  s.inOrder fun s1 => if s1.inAtomic then s1.endUser else .next (s1.endAct true)

/-- `yield` (R340): the message stands in the slot's yield buffer; a second one waits until it is empty. -/
def execYield (s : State) : Out :=
  s.generalOnly fun s1 =>
    match s1.yieldBuf[s1.slotNo] with
    | some _ => s1.stall
    | none =>
      let m : Msg := { kind := .data, chan := s1.act.chan, spw := s1.act.spw, held := false, src := s1.lcell, dst := s1.lcell,
                       spkg := s1.cl.place.extractLsb' 45 18, tok := 0, words := s1.payload 8, moves := true }
      let y : YieldMsg := { msg := m, aid := s1.act.aid, reg := s1.act.reg, pc := s1.act.trapPc, iw := s1.act.iw }
      .next ({ s1 with yieldBuf := s1.yieldBuf.set s1.slotNo (some y) }.endAct false)

/-- `rcmd` (R338): a region command to the home of the RCB. -/
def execRcmd (pa : PReg) (tn : TokName) (k : BitVec 4) (s : State) : Out :=
  s.generalOnly fun s1 =>
    let a := s1.pv pa
    let ask := s1.act.askSlot
    let nm := s1.act.nameSlot tn
    match s1.msgFault a 256 none ask nm with
    | some c => s1.trapTok c a nm
    | none =>
      if !s1.canSend a ask nm then s1.stall
      else
        (s1.sendOut .rcmd a ask nm [] fun s0 rid asked held =>
          if s0.isHere a then .here (.regionCmd (s0.asReq rid) (s0.podOf a) k 0 3 [])
          else .away { outMsg .regionCmd (prefixOf a) a rid 0 [a, k.setWidth 64, s0.rcb] with
            tok := asked, held := held }).finish

/-! ## Tokens (R333, R334) -/

/-- The word that `tokq` pushes. -/
def State.tokWord (s : State) (k : Fin 4) : Word :=
  let t := s.act.toks[k]
  let st : BitVec 2 :=
    if t == 0 then 0
    else
      match s.ownTok t with
      | some e => if e.st == .dead then 3 else 1
      | none => 2
  (0#38 ++ st ++ t : BitVec 64)

def execTokq (k : Fin 4) (s : State) : Out := s.generalOnly fun s1 => s1.pushXq (s1.tokWord k)

/-- `tokw`: waits while the slot's token is pending; a dead one's trap is the deferred one (R169). -/
def execTokw (k : Fin 4) (s : State) : Out :=
  s.generalOnly fun s1 =>
    match s1.ownTok s1.act.toks[k] with
    | some e =>
      if s1.act.toks[k] == 0 then s1.finish
      else if e.st == .pending then s1.stall
      else if s1.act.deferred.isEmpty then s1.finish
      else s1.takeDeferred
    | none => s1.finish

def execTokz (k : Fin 4) (s : State) : Out :=
  s.generalOnly fun s1 => (s1.mapAct fun a => { a with toks := a.toks.set k 0 }).finish

/-! ## Replies and token events -/

/-- Sends a stored request again, to where the place tables sent it the first time (R40). -/
def State.sendAgain (s : State) (e : ReplyEnt) : State :=
  match e.todo, e.sent with
  | some t, _ => s.push t
  | none, some m => s.leaveOn 0 m (.negative e.rid 0x04 none)
  | none, none => s

/-- LANDING_ACK (R191): a pending token is free, and its holders are told how many messages to release. -/
def execLandingAck (token : BitVec 24) (s : State) : Out :=
  if s.landSaved token then .next (s.hold (.landing token))
  else
  match s.toks.find? fun e : TokEnt => e.tok == token && e.st == .pending with
  | none => .next s
  | some e =>
    .next ((({ s with toks := s.toks.filter fun x : TokEnt => x.tok != token }).tellHolders .release e).unblock)

/-- TOKEN_EXPIRY (R191): a pending token dies at its deadline, and its activation takes trap 0x0A; holders keep their own timers. The
expiry of a saved token is taken when the cell is restored (R410). -/
def execTokenExpiry (token : BitVec 24) (s : State) : Out :=
  match s.toks.find? fun e : TokEnt => e.tok == token && e.st == .pending with
  | none => .next (if s.tokSaved token then s.hold (.expiry token) else s)
  | some e =>
    let t : TrapInfo := { pc := e.pc, code := 0x0A, addr := e.target, place := e.place, tok := e.tok, mem := false, iw := e.iw,
                          pfx := e.pfx, pay := [] }
    .next ((s.deadTok token).report e.aid e.reg e.rcb e.chan e.slot t).unblock

end Sys2Proof.Machine
end

