-- ==== Sys2Proof/Machine/Matrix.lean ====
section
/-!
DEFINITION. The matrix engine as its cell uses it (R222, R358 to R380), major 0x30: the checks and transfer states at issue, and the
commands of the cell, which this model runs one after another in queue order, a tile a step.
-/
namespace Sys2Proof.Machine

/-! ## Engines' accesses -/

/-- The outcome of an engine's access: a refusal carries its code and address. -/
inductive Eng (α : Type) where
  | ok (a : α)
  | bad (c : Code) (addr : Word)
  /-- refused after accesses that have been performed and stand -/
  | badAt (s : State) (c : Code) (addr : Word)
  | retry (addr : Word)
  /-- the page is missing: own-space address, kind, and the address as the command names it -/
  | miss (oa : Nat) (kind : AccKind) (addr : Word)
  /-- a host holds a half of the line at this own-space address (R433) -/
  | snoop (line oa : Nat)
  /-- the port at this own-space address makes the access wait -/
  | hold (oa : Nat)

def Eng.bind {α β : Type} (x : Eng α) (f : α → Eng β) : Eng β :=
  match x with
  | .ok a => f a
  | .bad c a => .bad c a
  | .badAt s c a => .badAt s c a
  | .retry a => .retry a
  | .miss oa k a => .miss oa k a
  | .snoop l oa => .snoop l oa
  | .hold oa => .hold oa

/-- A refusal leaves the accesses before it performed (R369, R387). -/
def Eng.after {α : Type} (s : State) : Eng α → Eng α
  | .bad c a => .badAt s c a
  | x => x

/-- A port's answer to an engine's access at `oa`, which the command named as `addr` (R396). -/
def Chk.engAt {α : Type} (addr : Word) (oa : Nat) (kind : AccKind) : Chk α → Eng α
  | .ok a => .ok a
  | .fault c _ => if c == 0x0C then .retry addr else .bad c (faultAddr addr c)
  | .miss => .miss oa kind addr
  | .snoop l => .snoop l oa
  | .wait => .hold oa

/-- As `engAt`, for an access named by its own-space address. -/
def Chk.eng {α : Type} (oa : Nat) (kind : AccKind) (x : Chk α) : Eng α := Chk.engAt (BitVec.ofNat 64 oa) oa kind x

/-- The engine as a requester, for an activation of a region entry. -/
def State.engineFor (s : State) (r : Fin 8) : Requester := { s.deviceReq with lcell := s.lcell, rcb := s.me.regs[r].info.rcb }

/-- Reads `n` lines from an own-space address. -/
def State.engineLines (s : State) (who : Requester) (kind : AccKind) (oa : Nat) : Nat → Eng (List Byte × List Site)
  | 0 => .ok ([], [])
  | n + 1 =>
    (Chk.eng oa kind (s.checkPort who kind oa)).bind fun site =>
      (s.engineLines who kind (oa + 128) n).bind fun rest => .ok (s.view site 128 ++ rest.1, site :: rest.2)

/-- The line of segment `i` in segment order from a segment's first line, with the scale byte's address (R361). -/
def segAt (base i : Nat) : Option (Nat × Nat) :=
  let u0 := base / 16384 * 16384
  let l := (base - u0) / 128
  if l == 0 then none
  else
    let q := l - 1 + i
    let unit := u0 + 16384 * (q / 127)
    some (unit + 128 * (1 + q % 127), unit + 1 + q % 127)

/-! ## Queue and transfers -/

def State.setMx (s : State) (m : Matrix) : State := { s with mx := m }
def State.setXfer (s : State) (x : Fin 16) (t : Xfer) : State := { s with mx := { s.mx with xfers := s.mx.xfers.set x t } }

/-- The number of a stationary buffer. -/
def bufIdx (sb : Bool) : Fin 2 := if sb then 1 else 0

/-- Commands that wait in the queue (R222). -/
def State.mxWaiting (s : State) : Nat := (s.mx.queue.filter fun c : MCmd => !c.started).length

/-- Rows of the landing share in use (R365). -/
def Matrix.used (m : Matrix) : Nat := m.xfers.toList.foldl (fun n t => n + (if t.st == .free then 0 else t.m) + t.older) 0
/-- Rows that commits will free. -/
def Matrix.closingRows (m : Matrix) : Nat := m.xfers.toList.foldl (fun n t => n + (if t.st == .closing then t.m else 0) + t.older) 0

/-- Whether a command names a transfer. -/
def MCmd.names (c : MCmd) : Bool := c.op != .mwld && c.op != .mprog

/-- The command of the instruction in service, before its own fields. -/
def State.newCmd (s : State) (op : MOp) : MCmd :=
  { num := s.mx.next, op, aid := s.act.aid, reg := s.act.reg, chan := s.act.chan, slot := s.slotNo, pc := s.act.pc, iw := s.act.iw,
    wa := 0, wb := 0, x := 0, sb := false, acq := false, init := false, dense := false, r := .rne, sat := false, m := 0,
    mark := s.nextRid, started := false, nsc := false, done := 0, bytes := [], scales := [], desc := none, geo := 0, ckey := 0,
    wait := none, retryAt := 0, retries := 0, reload := false }

/-- Enters the command queue (R367 step 3) and completes. -/
def State.enterMx (s : State) (c : MCmd) : Out :=
  (({ s with mx := { s.mx with queue := s.mx.queue ++ [{ c with num := s.mx.next }], next := s.mx.next + 1 } }).push
    (.matrix s.mx.next)).finish

/-- Enters the queue, or waits for a place with what the transfer was before (R367 steps 2 and 3). -/
def State.queueMx (s : State) (c : MCmd) (undo : Option (Fin 16 × Xfer)) : Out :=
  if Config.matrixQueueSize ≤ s.mxWaiting then s.waitIn (.engQueue c undo) else s.enterMx c

/-- A transfer as it would stand had the command that waits for a place not been issued (R365): `old` is what it was before, `t` what it
is now, after what has completed or been discarded meanwhile. -/
def Xfer.undo (c : MCmd) (old t : Xfer) : Xfer :=
  if t.st == .free then t
  else if c.op == .mcommit then { t with st := .opened }
  else if old.st == .opened then t
  else if t.older == 0 then Xfer.reset
  else { old with older := t.older - old.m }

/-- An instruction that waits for a place in the queue is withdrawn: its transfer is as if it had not been issued. -/
def State.withdraw (s : State) (i : Fin 5) : State :=
  match (s.slotAct i).phase with
  | .engQueue c undo =>
    let s1 := match undo with
      | some (x, old) => s.setXfer x (Xfer.undo c old s.mx.xfers[x])
      | none => s
    s1.mapSlot i fun a => { a with phase := .none }
  | _ => s

/-- What R365 and R366 say to a command on a transfer: go on with the transfer's new state, wait for rows, or refuse with 0x05. -/
inductive XferNext where
  | go (t : Xfer)
  | later
  | refuse

/-- A command that takes rows: `mma` or `mmp` with init = 0, or a landing load. -/
def State.takeRows (s : State) (x : Fin 16) (m : Nat) : XferNext :=
  let t := s.mx.xfers[x]
  if t.st == .opened || (t.st != .free && t.reg != s.act.reg) then .refuse
  else
    let used := s.mx.used
    if used + m ≤ 256 then
      .go { t with st := .opened, reg := s.act.reg, aid := s.act.aid, m, older := t.older + (if t.st == .closing then t.m else 0) }
    else if used + m - s.mx.closingRows ≤ 256 then .later
    else .refuse

/-- A command that goes on with an open transfer. -/
def State.moreRows (s : State) (x : Fin 16) (m : Nat) : XferNext :=
  let t := s.mx.xfers[x]
  if t.st == .opened && t.reg == s.act.reg && t.m == m then .go { t with aid := t.aid } else .refuse

/-- A commit. -/
def State.closeRows (s : State) (x : Fin 16) : XferNext :=
  let t := s.mx.xfers[x]
  if t.st == .opened && t.reg == s.act.reg then .go { t with st := .closing } else .refuse

/-- Issues a command on a transfer, once the share has room. -/
def State.issueOn (s : State) (x : Fin 16) (n : XferNext) (c : MCmd) : Out :=
  match n with
  | .refuse => s.trap 0x05 0
  | .later => s.stall
  | .go t => (s.setXfer x t).queueMx c (some (x, s.mx.xfers[x]))

/-! ## Checks at issue (R367) -/

/-- The scope register's rectangle (R185). -/
def State.scopeFault (s : State) (pc : PReg) : Option (Code × Word) :=
  if s.cl.rectOk (rectOf (s.rectIn pc)) then none else some (0x04, (s.rectIn pc).setWidth 64)

/-- The first of a list of checks that fails. -/
def firstFault : List (Option (Code × Word)) → Option (Code × Word)
  | [] => none
  | none :: r => firstFault r
  | some f :: _ => some f

def faultIf (b : Bool) (c : Code) (a : Word) : Option (Code × Word) := if b then some (c, a) else none

/-- An address operand that is a multiple of 128: own-space, or pod form too where it is accepted. -/
def addrFault (a : Word) (pod : Bool) : List (Option (Code × Word)) :=
  [faultIf (!(if pod then formOk a else isOwn a)) 0x03 a, faultIf (a.toNat % 128 != 0) 0x02 a]

/-- The place lookup of a source (R37). -/
def State.sourceFault (s : State) (a : Word) : Option (Code × Word) :=
  if s.isHere a then none else (s.placeFault a).map fun c => (c, a)

/-- An instruction of major 0x30 with its checks, the first that the cluster's matrix engines are enabled (R463); the atomic slot
may issue none (R177). -/
def State.engineIssue (s : State) (faults : State → List (Option (Code × Word))) (run : State → Out) : Out :=
  s.generalOnly fun s1 =>
    match s1.act.phase with
    | .engQueue c undo => s1.queueMx c undo
    | _ =>
      match firstFault (faultIf (!s1.cl.clucfg.getLsbD 2) 0x05 0 :: faults s1) with
      | some (c, a) => s1.trap c a
      | none => run s1

/-- Rows M of a descriptor. -/
def rowsOf (w : Word) : Nat := (w.extractLsb' 56 8).toNat + 1

/-- The type that a code names among those a form accepts. -/
def tyIn (code : BitVec 4) (l : List Ty) : Option Ty := (Ty.ofCode code).bind fun t => if l.contains t then some t else none

def operandTys : List Ty := [.i8, .u8, .fp16, .bf16, .nf, .nfs]
def commitTys : List Ty := [.fp32, .fp16, .bf16, .nf, .nfs]

/-! ## mwld (R371) -/

def execMwld (pa pb pc : PReg) (fa _fr sb : Bool) (s : State) : Out :=
  s.engineIssue
    (fun s1 => addrFault (s1.pv pa) true ++ [s1.scopeFault pc, s1.sourceFault (s1.pv pa),
      faultIf (!zeroAt (s1.pv pb) 4 60 || (tyIn ((s1.pv pb).extractLsb' 0 4) operandTys).isNone) 0x05 0])
    fun s1 => s1.queueMx { s1.newCmd .mwld with wa := s1.pv pa, wb := s1.pv pb, sb, acq := fa } none

def execMwldLanding (pa pb pc : PReg) (x : Fin 16) (fa _fr : Bool) (s : State) : Out :=
  s.engineIssue
    (fun s1 => addrFault (s1.pv pa) true ++ [s1.scopeFault pc, s1.sourceFault (s1.pv pa),
      faultIf (!zeroAt (s1.pv pb) 4 52 || (s1.pv pb).extractLsb' 0 4 != Ty.code .fp32) 0x05 0])
    fun s1 =>
      let m := rowsOf (s1.pv pb)
      s1.issueOn x (s1.takeRows x m) { s1.newCmd .landing with wa := s1.pv pa, wb := s1.pv pb, x, acq := fa, m }

/-! ## mma, mmp (R363, R364, R372, R374) -/

/-- The local stores of the issuing cell's octet (R363). -/
def State.octetBase (s : State) : Nat := 0x200000000 + s.self.val / 8 * 0x200000
def State.inOctet (s : State) (lo len : Nat) : Bool := decide (s.octetBase ≤ lo) && decide (lo + len ≤ s.octetBase + 0x200000)

/-- The issuing cell's own slot (R18). -/
def State.slotBase (s : State) : Nat := 0x200000000 + s.self.val * 0x40000

/-- The buffer that a command names: valid or being loaded, by the command's own region entry (R362, R372). -/
def State.bufferOk (s : State) (sb : Bool) : Bool :=
  match (s.mx.queue.filter fun c : MCmd => c.op == .mwld && c.sb == sb).getLast? with
  | some c => c.reg == s.act.reg && !c.void
  | none => let b := s.mx.bufs[bufIdx sb]; (b.valid || b.bad != 0) && b.reg == s.act.reg

def State.gemm (s : State) (op : MOp) (pa pb pc : PReg) (x : Fin 16) (fa sb init dense : Bool) : Out :=
  s.engineIssue
    (fun s1 =>
      let w := s1.pv pb
      let abase : Word := (w.extractLsb' 0 34).setWidth 64
      let ia := s1.pv pa
      let m := rowsOf w
      (if dense then [] else [faultIf (!isOwn ia) 0x03 ia]) ++
      [faultIf (!dense && ia.toNat % 128 != 0) 0x02 ia, faultIf (abase.toNat % 128 != 0) 0x02 abase, s1.scopeFault pc,
       faultIf (!s1.inOctet abase.toNat 128) 0x04 abase,
       faultIf (!dense && !(decide (s1.slotBase ≤ ia.toNat) && decide (ia.toNat + 2 * m ≤ s1.slotBase + 0x40000))) 0x04 ia,
       faultIf (!zeroAt w 34 10 || (tyIn (w.extractLsb' 44 4) operandTys).isNone) 0x05 0, faultIf (!s1.bufferOk sb) 0x05 0])
    fun s1 =>
      let m := rowsOf (s1.pv pb)
      s1.issueOn x (if init then s1.moreRows x m else s1.takeRows x m)
        { s1.newCmd op with wa := s1.pv pa, wb := s1.pv pb, x, sb, acq := fa, init, dense, m }

def execMma (pa pb pc : PReg) (x : Fin 16) (fa _fr sb init dense : Bool) (s : State) : Out :=
  s.gemm .mma pa pb pc x fa sb init dense
def execMmp (pa pb pc : PReg) (x : Fin 16) (fa _fr sb init dense : Bool) (s : State) : Out :=
  s.gemm .mmp pa pb pc x fa sb init dense

/-! ## mprog, mcommit, mwait (R373, R375, R376) -/

def execMprog (pa pb : PReg) (n : BitVec 2) (s : State) : Out :=
  s.engineIssue
    (fun s1 =>
      let k := n.toNat + 1
      let op (i : Nat) : BitVec 16 := (s1.pv pa).extractLsb' (16 * i) 16
      [faultIf (!((List.range k).all fun i => progOpOk (op i)) || !((List.range 4).all fun i => decide (i < k) || op i == 0) ||
        !zeroAt (s1.pv pb) 32 32) 0x05 0])
    fun s1 => s1.queueMx { s1.newCmd .mprog with wa := s1.pv pa, wb := s1.pv pb, m := n.toNat + 1 } none

/-- Whether a commit descriptor is accepted (R375). -/
def commitDescOk (w : Word) : Bool :=
  let pitch := (w.extractLsb' 0 16).toNat
  zeroAt w 16 36 &&
  match tyIn (w.extractLsb' 60 4) commitTys with
  | none => false
  | some .nfs => pitch == 0
  | some .fp32 => pitch % 128 == 0 && decide (256 ≤ pitch)
  | some _ => pitch % 128 == 0 && decide (128 ≤ pitch)

def execMcommit (pa pb pc : PReg) (x : Fin 16) (fa _fr : Bool) (r : Rnd) (sat : Bool) (s : State) : Out :=
  s.engineIssue
    (fun s1 => addrFault (s1.pv pa) false ++ [s1.scopeFault pc, faultIf (!commitDescOk (s1.pv pb)) 0x05 0])
    fun s1 =>
      s1.issueOn x (s1.closeRows x)
        { s1.newCmd .mcommit with wa := s1.pv pa, wb := s1.pv pb, x, acq := fa, r := s1.rm r, sat, m := s1.mx.xfers[x].m }

/-- Waits while a command of the picked ones that was issued before the wait is in the queue. -/
def State.engineWait (s : State) (next : Nat) (busy : Nat → Bool) : Out :=
  let upto := match s.act.phase with
    | .engWait n => n
    | _ => next
  if busy upto then s.waitIn (.engWait upto) else s.finish

def execMwait (x : Fin 16) (all : Bool) (s : State) : Out :=
  s.generalOnly fun s1 =>
    let t := s1.mx.xfers[x]
    if !all && t.st != .free && t.reg != s1.act.reg then s1.trap 0x05 0
    else
      s1.engineWait s1.mx.next fun upto => s1.mx.queue.any fun c : MCmd =>
        decide (c.num < upto) && (if all then c.aid == s1.act.aid else c.names && c.x == x)

/-! ## Running (R368, R369, R377) -/

/-- A command of the queue becomes `c`. -/
def State.setCmd (s : State) (c : MCmd) : State :=
  { s with mx := { s.mx with queue := s.mx.queue.map fun d : MCmd => if d.num == c.num then c else d } }

/-- The first command that has not started is looked at: something has happened that it may have waited for. -/
def State.mxNext (s : State) : State :=
  match s.mx.queue.find? fun c : MCmd => !c.started with
  | some c => s.push (.matrix c.num)
  | none => s

/-- A command is complete. -/
def State.mxDone (s : State) (c : MCmd) : State :=
  ({ s with mx := { s.mx with queue := s.mx.queue.filter fun d : MCmd => d.num != c.num } }).wakeHeld.mxNext

/-- A blocked `mwait` of the activation whose command has faulted is cancelled (R369). -/
def Act.loseWait (aid : Nat) (a : Act) : Act :=
  match a.phase, decode a.iw with
  | .engWait _, .ok (.mwait _ _) => if a.live && a.aid == aid then { a with phase := .waitLost } else a
  | _, _ => a

/-- The queue is emptied: the transfers that its commands named are free, and the buffers that they were to load are invalid (R369). -/
def Matrix.discard (m : Matrix) : Matrix :=
  let named (i : Fin 16) : Bool := m.queue.any fun d : MCmd => d.names && d.x == i
  let loaded (b : Bool) : Bool := m.queue.any fun d : MCmd => d.op == .mwld && d.sb == b
  { m with
    queue := []
    xfers := Vector.ofFn fun i : Fin 16 => if named i then Xfer.reset else m.xfers[i]
    bufs := Vector.ofFn fun b : Fin 2 => if loaded (b == 1) then { m.bufs[b] with valid := false } else m.bufs[b] }

/-- A command that waits for a place in the queue is withdrawn after a fault: the activation that is told takes the trap on its
instruction, as on a `mwait`; another's instruction is issued anew (DEDUCED, log 120). -/
def State.loseQueued (aid : Nat) (s : State) (i : Fin 5) : State :=
  match (s.slotAct i).phase with
  | .engQueue _ _ => (s.withdraw i).mapSlot i fun a => if a.aid == aid then { a with phase := .waitLost } else a
  | _ => s

/-- A fault of a running command (R369): every command of the cell is discarded, and the fault is reported to the activation. A reload that fails marks its
buffer (R378). -/
def State.mxFault (s : State) (c : MCmd) (code : Code) (addr : Word) : State :=
  if c.reload then
    let b := bufIdx c.sb
    { s with mx := { s.mx with bufs := s.mx.bufs.set b { s.mx.bufs[b] with valid := false, bad := code } } }.mxDone c
  else
  let t : TrapInfo := { pc := c.pc, code, addr, place := s.placeOf addr, tok := 0, mem := code == 0x0F, iw := c.iw, pfx := 0, pay := [] }
  let s1 := (List.finRange 5).foldl (State.loseQueued c.aid) s
  (((s1.setMx s1.mx.discard).report c.aid c.reg s.me.regs[c.reg].info.rcb c.chan c.slot t).mapPhases (Act.loseWait c.aid)).unblock

/-- A retry answer to the read at an address: its own count goes on (R364). -/
def MCmd.retried (c : MCmd) (addr : Word) (rid : Nat) : MCmd :=
  { c with wait := some rid, retryAt := addr, retries := (if addr == c.retryAt then c.retries else 0) + 1 }

/-- What an engine access that did not succeed makes of the running command: the tile is tried again later, or the command faults
(R364). -/
def State.mxStop {α : Type} (s : State) (c : MCmd) : Eng α → Out
  | .ok _ => .next s
  | .bad code a => .next (s.mxFault c code a)
  | .badAt s1 code a => .next (s1.mxFault c code a)
  | .miss oa kind a => .next ((s.setCmd { c with missAt := a }).missWait oa kind s.deviceReq (.matrixTile c.num))
  | .snoop line oa => .next ((s.sendSnoop line).holdAt oa (.matrixTile c.num))
  | .hold oa => .next (s.holdAt oa (.matrixTile c.num))
  | .retry a =>
    if c.retryAt == a && decide (64 ≤ c.retries) then .next (s.mxFault c 0x0C a)
    else .next ({ s with nextRid := s.nextRid + 1 }.setCmd (c.retried a s.nextRid))

/-- Whether the activation's earlier messages have had their replies (R185 acquire). -/
def State.acquired (s : State) (aid mark : Nat) : Bool :=
  !(s.replies.any fun e : ReplyEnt => e.aid == aid && decide (e.rid < mark))

/-- Everything that the acquire flag waits for is done (R185): the activation's earlier messages and commits. -/
def State.acquiredAll (s : State) (aid mark mxMark : Nat) : Bool :=
  s.acquired aid mark && !(s.mx.queue.any fun c : MCmd => c.op == MOp.mcommit && c.aid == aid && decide (c.num < mxMark))

/-- The address of row or line number `i` of a source that is read line by line. -/
def MCmd.sourceLine (c : MCmd) (i : Nat) : Word := c.wa + BitVec.ofNat 64 (128 * i)

def MCmd.isGemm (c : MCmd) : Bool := c.op == .mma || c.op == .mmp
def MCmd.isLoad (c : MCmd) : Bool := c.op == .mwld || c.op == .landing

/-- What a running command has processed ends at a tile boundary (R377): a stationary load, a landing load's 32 lines and a commit's 16
rows are a tile. -/
def MCmd.tileStart (c : MCmd) : Bool :=
  match c.op with
  | .mwld => c.done == 0
  | .landing => c.done % 32 == 0
  | .mcommit => c.done % 16 == 0
  | _ => true

/-- A running command stands at a tile boundary (R377); a stationary load holds its port from its start to its end. -/
def MCmd.atBoundary (c : MCmd) : Bool := !c.started || (c.wait.isNone && c.op != .mwld && c.tileStart)

/-- The unit of a command is free: no other command of the cell is inside a tile on it. -/
def Matrix.unitFree (m : Matrix) (c : MCmd) : Bool :=
  m.queue.all fun d : MCmd => d.num == c.num || d.atBoundary ||
    !((c.isLoad && d.isLoad) || (c.op == .mcommit && d.op == .mcommit))

/-- The order conditions of a start (R368), over the commands before it that have not completed. -/
def MCmd.mayStart (c : MCmd) (before : List MCmd) : Bool :=
  before.all fun d : MCmd =>
    d.started &&
    (match c.op with
     | .mma | .mmp => !(d.isGemm || (d.op == .mwld && d.sb == c.sb) || (d.names && d.x == c.x))
     | .mwld => !(d.isGemm && d.sb == c.sb)
     | .landing | .mcommit => !(d.names && d.x == c.x)
     | .mprog => d.op != .mmp)

/-- Initial rows of a command that takes them (R366). -/
def State.freshRows (s : State) (c : MCmd) : List (List (BitVec 32)) :=
  List.replicate c.m (List.replicate 64 (if c.op == .mmp then s.mx.konst else 0))

/-- The command starts (R368): what it does before its first tile. -/
def State.mxStart (s : State) (c : MCmd) : State :=
  let c1 := { c with started := true, nsc := s.nsc }
  let s1 := (s.setCmd c1).push (.matrixTile c.num)
  match c.op with
  | .mwld =>
    let b := bufIdx c.sb
    { s1 with mx := { s1.mx with bufs := s1.mx.bufs.set b { s1.mx.bufs[b] with valid := false, bad := 0 } } }
  | .mma | .mmp | .landing =>
    if c.init then s1 else s1.setXfer c.x { s1.mx.xfers[c.x] with rows := s.freshRows c }
  | _ => s1

/-- A command of another cell of the cluster is outstanding from when it enters its queue until it ends (R38, R96, R116). -/
def State.elseCmd (s : State) (k : Fin 64) : CmdStage → State
  | .queued => { s with cl := { s.cl with engElse := s.cl.engElse ++ [k] } }
  | .started => s
  | .ended => { s with cl := { s.cl with engElse := s.cl.engElse.erase k } }

/-- MATRIX_COMMAND_START: the command starts if those before it have started and its order conditions are met, and the next one is
looked at. -/
def execMatrixCommandStart (cmd : CmdAt) (s : State) : Out :=
  match cmd with
  | .other k st => .next (s.elseCmd k st)
  | .own n =>
    match s.mx.queue.find? fun c : MCmd => c.num == n && !c.started with
    | none => .next s
    | some c =>
      if c.mayStart (s.mx.queue.takeWhile fun d : MCmd => d.num != n) && s.mx.unitFree c then .next ((s.mxStart c).unblock.mxNext)
      else .next s

/-! ### Loads -/

/-- The lines of a stationary tile or of a landing load. -/
def MCmd.lines (c : MCmd) (ty : Ty) : Nat :=
  if c.op == .landing then 2 * c.m else if ty == .fp16 || ty == .bf16 then 128 else 64

/-- The type of a stationary load. -/
def MCmd.bTy (c : MCmd) : Ty := (Ty.ofCode (c.wb.extractLsb' 0 4)).getD .i8

/-- The address of line `i` of the source, which for nfs walks segments; with the scale byte's address. -/
def MCmd.lineAddr (c : MCmd) (i : Nat) : Option (Word × Nat) :=
  if c.op == .mwld && c.bTy == .nfs then
    (segAt (oaOf c.wa) i).map fun p => (prefixOf c.wa + BitVec.ofNat 64 p.1, p.2)
  else some (c.sourceLine i, 0)

/-- A line as the stationary port gives it, and whether it was decrypted there, as one that carries a weight key is (R362, R440). -/
def State.weightLine (s : State) (ckey : BitVec 6) (oa : Nat) (bs : List Byte) : Option (List Byte × Bool) :=
  if ckey == 0 then some (bs, false)
  else
    match s.comp ckey with
    | none => none
    | some k =>
      if k.kind == .weight then
        if k.xts && !s.pkg.secHeld then
          some (xtsUnit true ((k.pair + 1) * 2 ^ 32 + oa / 128 % 2 ^ 17) bs, true)
        else none
      else some (bs, false)

/-- The scale byte of an nfs segment, decrypted with its line as that is (R361, R440). -/
def State.scaleHere (s : State) (ckey : BitVec 6) (site : Site) (oa scaleAt : Nat) : Byte :=
  match s.weightLine ckey scaleAt (s.nearLine site oa scaleAt) with
  | some (b, _) => b.getD (scaleAt % 128) 0
  | none => s.nearByte site oa scaleAt

/-- The scale byte that came with a line of another cluster. -/
def State.scaleThere (s : State) (ckey : BitVec 6) (addr : Word) (b : Byte) : Byte :=
  match s.weightLine ckey (oaOf addr) [], s.comp ckey with
  | some (_, true), some k => Config.weightScale k.pair addr.toNat b
  | _, _ => b

/-- Takes a line of the source into the command: its descriptor and geometry must be those of the first, and for nfs one segment a
column (R361); the last line's ckey is recorded (DESIGN CHOICE, log 116). -/
def State.takeLine (s : State) (c : MCmd) (addr : Word) (bs : List Byte) (desc : Option (BitVec 24)) (geo : BitVec 4)
    (scale : Byte) (ckey : BitVec 6) : Eng MCmd :=
  let ty := c.bTy
  let stat := c.op == .mwld
  if stat && ty.isNf && desc.isNone then .bad 0x05 addr
  else if stat && ty.isNf && c.done != 0 && desc != c.desc then .bad 0x05 addr
  else if stat && ty == .nfs && geo != (classOf ty desc).geo then .bad 0x05 addr
  else if stat && ty == .nfs && scale == 0xFF && !c.nsc then .bad 0x12 (addr &&& ~~~0x3FFF#64)
  else
    match (if stat then s.weightLine ckey (oaOf addr) bs else some (bs, false)) with
    | none => .bad 0x13 addr
    | some (b, dec) =>
      .ok { c with done := c.done + 1, bytes := c.bytes ++ b, scales := c.scales ++ [scale], desc, geo, ckey, secret := c.secret || dec }

/-- Reads up to `n` lines of the source from number `c.done` on, at a port of the own cluster. -/
def State.loadLines (s : State) : Nat → MCmd → Eng MCmd
  | 0, c => .ok c
  | n + 1, c =>
    match c.lineAddr c.done with
    | none => .bad 0x02 c.wa
    | some (addr, scaleAt) =>
      let oa := oaOf addr
      let kind : AccKind := if c.op == .mwld then .stationary else .engRead
      (Chk.engAt addr oa kind (s.checkPort (s.engineFor c.reg) kind oa)).bind fun site =>
        if c.bTy == .nfs && s.nearPoisoned site oa scaleAt then .bad 0x0F addr
        else (s.takeLine c addr (s.view site 128) (s.descOf site.attr) site.attr.geo
          (if c.bTy == .nfs then s.scaleHere site.attr.ckey site oa scaleAt else 0) site.attr.ckey).bind (s.loadLines n)

/-- Rows of 64 binary32 values. -/
def rows64 (n : Nat) (bs : List Byte) : List (List (BitVec 32)) :=
  (List.range n).map fun i => (List.range 64).map fun j => BitVec.ofNat 32 (leNat ((bs.drop (256 * i + 4 * j)).take 4))

/-- A load that has all its lines completes. -/
def State.loadDone (s : State) (c : MCmd) : State :=
  if c.op == .mwld then
    let b : StatBuf := { valid := true, ty := c.bTy, desc := if c.bTy.isNf then c.desc else none, geo := c.geo, reg := c.reg,
                         ckey := c.ckey, src := c.wa, bytes := c.bytes, scales := c.scales, bad := 0, secret := c.secret }
    ({ s with mx := { s.mx with bufs := s.mx.bufs.set (bufIdx c.sb) b } }).mxDone c
  else (s.setXfer c.x { s.mx.xfers[c.x] with rows := rows64 c.m c.bytes }).mxDone c

/-- The lines of a load's tile that are still to be read: all of a stationary load's, up to 16 rows of a landing load's (R377). -/
def MCmd.tileLines (c : MCmd) : Nat :=
  let left := c.lines c.bTy - c.done
  if c.op == .landing then min left (32 - c.done % 32) else left

/-- A load stands after what it has read: it is complete, or its next part comes in its turn. -/
def State.loadOn (s : State) (c : MCmd) : State :=
  if c.lines c.bTy ≤ c.done then s.loadDone c else ((s.setCmd c).push (.matrixTile c.num)).mxNext

/-- A load's tile: from the own cluster, or the next line's request to another (R371). -/
def State.loadTile (s : State) (c : MCmd) : Out :=
  if c.lines c.bTy ≤ c.done then .next (s.loadDone c)
  else if s.isHere c.wa then
    match s.loadLines c.tileLines c with
    | .ok c1 => .next (s.loadOn c1)
    | r => s.mxStop c r
  else
    match c.lineAddr c.done with
    | none => .next (s.mxFault c 0x02 c.wa)
    | some (addr, _) =>
      let m := outMsg .loadReq (prefixOf addr) addr s.nextRid 0 [if c.op == .mwld then 6 else 5, 128]
      .next (({ s with nextRid := s.nextRid + 1 }.setCmd { c with wait := some s.nextRid }).leave m (.refusedLoad s.nextRid 0x04))

/-! ### mma and mmp -/

/-- The index of row `m` (R364). -/
def MCmd.index (c : MCmd) (m : Nat) : Nat := if c.dense then m else leNat ((c.bytes.drop (2 * m)).take 2)

def MCmd.aTy (c : MCmd) : Ty := (Ty.ofCode (c.wb.extractLsb' 44 4)).getD .i8
def MCmd.abase (c : MCmd) : Nat := (c.wb.extractLsb' 0 34).toNat
def MCmd.kc (c : MCmd) : Nat := (c.wb.extractLsb' 48 8).toNat + 1

/-- Attributes of a local-store half (R20). -/
def State.halfAttr (s : State) (oa : Nat) : Attr :=
  let w := (s.cells[Fin.ofNat 64 ((oa - 0x200000000) / 0x40000)]).lsattr
  Attr.ofHalf (if oa % 0x40000 < 0x20000 then w.extractLsb' 0 32 else w.extractLsb' 32 32)

/-- The address of row `i`, with its scale's (R363). -/
def MCmd.aRow (c : MCmd) (i : Nat) : Option (Nat × Nat) :=
  if c.aTy == .nfs then segAt c.abase i else some (c.abase + (classOf c.aTy none).bytes * i, 0)

/-- Gathers and decodes the row of an index. -/
def State.gatherRow (s : State) (c : MCmd) (i : Nat) : Eng (List FVal) :=
  let ty := c.aTy
  match c.aRow i with
  | none => .bad 0x02 (BitVec.ofNat 64 c.abase)
  | some (oa, scaleAt) =>
    let bytes := (classOf ty none).bytes
    let a : Word := BitVec.ofNat 64 oa
    if !s.inOctet oa bytes then .bad 0x04 a
    else
      (s.engineLines (s.engineFor c.reg) .engRead oa (bytes / 128)).bind fun r =>
        let at0 := s.halfAttr c.abase
        let atr := s.halfAttr oa
        let last := s.halfAttr (oa + bytes - 128)
        let desc := s.descOf atr
        let cls := classOf ty desc
        let buf := s.mx.bufs[bufIdx c.sb]
        let scale := match r.2 with
          | site :: _ => if ty == .nfs then s.nearByte site oa scaleAt else 0
          | [] => 0
        if ty == .nfs && (r.2.head?.any fun site => s.nearPoisoned site oa scaleAt) then .bad 0x0F a
        else if s.cl.fmt[atr.fmt] != s.cl.fmt[at0.fmt] || atr.geo != at0.geo ||
            s.cl.fmt[last.fmt] != s.cl.fmt[at0.fmt] || last.geo != at0.geo || (ty.isNf && desc.isNone) then .bad 0x05 a
        else if cls != classOf buf.ty buf.desc || decide (cls.kt < c.kc) || (ty == .nfs && atr.geo != cls.geo) then .bad 0x05 a
        else if ty == .nfs && scale == 0xFF && !c.nsc then .bad 0x12 (a &&& ~~~0x3FFF#64)
        else .ok (rowVals ty desc scale r.1)

/-- The columns of a buffer. -/
def StatBuf.columns (b : StatBuf) : List (List FVal) :=
  let n := (classOf b.ty b.desc).bytes
  (List.range 64).map fun i => rowVals b.ty b.desc (b.scales.getD i 0) ((b.bytes.drop (n * i)).take n)

/-- The new landing row from an A row. -/
def State.newRow (s : State) (c : MCmd) (cols : List (List FVal)) (a : List FVal) (old : List (BitVec 32)) :
    List (BitVec 32) :=
  let cell := s.lcell.toNat
  let buf := s.mx.bufs[bufIdx c.sb]
  let kt := (classOf buf.ty buf.desc).kt
  (List.range 64).map fun n =>
    let p := old.getD n 0
    let b := cols.getD n []
    if c.op == .mmp then mmpCell cell c.kc s.mx.prog s.mx.konst a b p else mmaCell cell kt c.kc a b p

/-- Runs `n` rows from number `m` on. -/
def State.gemmRows (s : State) (c : MCmd) (cols : List (List FVal)) : Nat → Nat → List (List (BitVec 32)) →
    Eng (List (List (BitVec 32)))
  | 0, _, rows => .ok rows
  | n + 1, m, rows =>
    (s.gatherRow c (c.index m)).bind fun a =>
      s.gemmRows c cols n (m + 1) (rows.set m (s.newRow c cols a (rows.getD m [])))

/-- The index vector, read at the start of the command (R364). -/
def State.readIndex (s : State) (c : MCmd) : Eng (List Byte) :=
  if c.dense || !c.bytes.isEmpty then .ok c.bytes
  else (s.engineLines (s.engineFor c.reg) .engRead c.wa.toNat ((2 * c.m + 127) / 128)).bind fun r => .ok r.1

/-- The line of the first NaN scale among the columns of an nfs tile, which a buffer loaded under nsc = 1 can hold (R361). -/
def StatBuf.badScale (b : StatBuf) : Option Word :=
  if b.ty != .nfs then none
  else ((List.range 64).find? fun i => b.scales.getD i 0 == 0xFF).bind fun i =>
    (segAt (oaOf b.src) i).map fun p => prefixOf b.src + BitVec.ofNat 64 (p.2 / 128 * 128)

def State.gemmTile (s : State) (c : MCmd) : Out :=
  let b := s.mx.bufs[bufIdx c.sb]
  if b.bad != 0 then .next (s.mxFault c b.bad b.src)
  else if !b.valid then .next (s.mxFault c 0x05 b.src)
  else if b.badScale.isSome && !c.nsc then .next (s.mxFault c 0x12 (b.badScale.getD 0))
  else
  match s.readIndex c with
  | .ok bs =>
    let c1 := { c with bytes := bs }
    let n := min 16 (c.m - c.done)
    match s.gemmRows c1 (StatBuf.columns s.mx.bufs[bufIdx c.sb]) n c.done s.mx.xfers[c.x].rows with
    | .ok rows =>
      let s1 := s.setXfer c.x { s.mx.xfers[c.x] with rows }
      if c.m ≤ c.done + n then .next (s1.mxDone c)
      else .next ((s1.setCmd { c1 with done := c.done + n, retryAt := 0, retries := 0 }).push (.matrixTile c.num))
    | r => s.mxStop c1 r
  | r => s.mxStop c r

/-! ### mcommit -/

def MCmd.dTy (c : MCmd) : Ty := (Ty.ofCode (c.wb.extractLsb' 60 4)).getD .fp32
def MCmd.sexp (c : MCmd) : Int := (c.wb.extractLsb' 52 8).toInt

/-- The destination of row `m`, with its scale's address. -/
def MCmd.dest (c : MCmd) (m : Nat) : Option (Nat × Nat) :=
  if c.dTy == .nfs then segAt c.wa.toNat m else some (c.wa.toNat + (c.wb.extractLsb' 0 16).toNat * m, 0)

/-- Marks cells as fenced or not (R406, R409). -/
def State.setFence (s : State) (cells : List (Fin 64)) (b : Bool) : State :=
  cells.foldl (fun (st : State) (n : Fin 64) => st.setCell n { st.cells[n] with fenced := b }) s

/-- The cluster as the port of a commit sees it: a tile that was begun before the cell was fenced runs to its end (R377, R406; DEDUCED,
log 97). -/
def State.tileSight (s : State) (c : MCmd) : State :=
  match s.cl.evicting with
  | some e => if !c.tileStart && e.cells.contains s.self then s.setFence e.cells false else s
  | none => s

/-- Checks and writes the lines of a row. -/
def State.writeRow (s : State) (c : MCmd) (who : Requester) (oa : Nat) (bs : List Byte) : Eng State :=
  let q := s.tileSight c
  let d1 : WData := .bytes (bs.take 128) (List.replicate 16 false)
  (Chk.eng oa .engWrite (q.checkWrite who .engWrite oa d1)).bind fun site =>
    if bs.length ≤ 128 then .ok (s.perform site oa d1)
    else
      let d2 : WData := .bytes (bs.drop 128) (List.replicate 16 false)
      ((Chk.eng (oa + 128) .engWrite (q.checkWrite who .engWrite (oa + 128) d2)).after (s.perform site oa d1)).bind fun site2 =>
        .ok ((s.perform site oa d1).perform site2 (oa + 128) d2)

/-- Writes one row of the transfer (R375). -/
def State.commitOne (s : State) (c : MCmd) (m : Nat) (row : List (BitVec 32)) : Eng State :=
  let who := s.engineFor c.reg
  match c.dest m with
  | none => .bad 0x02 c.wa
  | some (oa, scaleAt) =>
    (Chk.eng oa .engWrite ((s.tileSight c).checkPort who .engWrite oa)).bind fun site =>
      let desc := s.descOf site.attr
      if c.dTy.isNf && desc.isNone then .bad 0x05 (BitVec.ofNat 64 oa)
      else if c.dTy == .nfs && site.attr.geo != 0xA#4 then .bad 0x05 (BitVec.ofNat 64 oa)
      else
        let o := commitRow c.dTy (desc.getD 0) c.sexp c.sat c.r s.seed row
        (s.writeRow c who oa o.bytes).bind fun s1 =>
          let s2 := s1.setSeed o.seed
          if c.dTy == .nfs then
            ((Chk.eng scaleAt .engWrite ((s2.tileSight c).checkWrite who .engWrite scaleAt (.bytes [o.scale] []))).after s2).bind fun t =>
              .ok (s2.perform t scaleAt (.bytes [o.scale] []))
          else .ok s2

/-- The rows of a commit have been read (R365): freed, and the transfer with them unless a later command has reopened it. -/
def State.freeRows (s : State) (c : MCmd) : State :=
  let t := s.mx.xfers[c.x]
  if t.older == 0 && t.st == .closing then s.setXfer c.x Xfer.reset
  else s.setXfer c.x { t with older := t.older - c.m }

/-- Commits row after row; what has been written before a stop stays written. -/
def State.commitRows (s : State) (c : MCmd) : Nat → Out
  | 0 =>
    if c.m ≤ c.done then .next ((s.freeRows c).mxDone c)
    else .next (((s.setCmd c).push (.matrixTile c.num)).mxNext)
  | n + 1 =>
    if c.m ≤ c.done then .next ((s.freeRows c).mxDone c)
    else
      match s.commitOne c c.done (s.mx.xfers[c.x].rows.getD c.done []) with
      | .ok s1 => State.commitRows s1 { c with done := c.done + 1, retryAt := 0, retries := 0 } n
      | r => (s.setCmd c).mxStop c r

/-! ### Tiles -/

/-- The program and constant of `mprog` (R373). -/
def State.loadProg (s : State) (c : MCmd) : State :=
  { s with mx := { s.mx with
      prog := (List.range c.m).map fun i => c.wa.extractLsb' (16 * i) 16,
      konst := c.wb.extractLsb' 0 32 } }

/-- The own-space range of a load's source: for nfs from the first unit on (R361). -/
def MCmd.sourceSpan (c : MCmd) : Nat × Nat :=
  let oa := oaOf c.wa
  if c.op == .mwld && c.bTy == .nfs then (oa / 16384 * 16384, ((segAt oa 63).map fun p => p.1 + 128).getD oa)
  else (oa, oa + 128 * c.lines c.bTy)

/-- A commit has rows to write that meet a range, with their lines or scales; a row counts as two lines. -/
def MCmd.writesIn (d : MCmd) (r : Nat × Nat) : Bool :=
  (List.range (d.m - d.done)).any fun k =>
    match d.dest (d.done + k) with
    | some (oa, sc) => (decide (oa < r.2) && decide (r.1 < oa + 256)) || (d.dTy == .nfs && decide (r.1 ≤ sc) && decide (sc < r.2))
    | none => false

/-- A command that reads lines which an earlier commit of the cell has still to write waits for it (R380); what a product reads is taken
as its whole octet. -/
def State.behindCommit (s : State) (c : MCmd) : Bool :=
  (c.isGemm || (c.isLoad && s.isHere c.wa)) &&
  s.mx.queue.any fun d : MCmd => d.op == .mcommit && decide (d.num < c.num) &&
    d.writesIn (if c.isGemm then (s.octetBase, s.octetBase + 0x200000) else c.sourceSpan)

/-- A product whose buffer is being loaded again after a restore waits for it (R378). -/
def State.reloading (s : State) (c : MCmd) : Bool := c.isGemm && s.mx.queue.any fun d : MCmd => d.reload && d.sb == c.sb

/-- A running command may not run its next tile yet: its unit is not free, or it reads what is not there yet. -/
def State.tileWaits (s : State) (c : MCmd) : Bool :=
  (c.atBoundary && !s.mx.unitFree c) || s.behindCommit c || s.reloading c

/-- A tile of a command runs, once its acquire allows its first read (R185). -/
def State.runTile (s : State) (c : MCmd) : Out :=
  if c.void then .next (s.mxDone c)
  else if (c.acq && c.done == 0 && !s.acquiredAll c.aid c.mark c.num) || s.tileWaits c then .next (s.hold (.matrixTile c.num))
  else
    match c.op with
    | .mwld | .landing => s.loadTile c
    | .mma | .mmp => s.gemmTile c
    | .mprog => .next ((s.loadProg c).mxDone c)
    | .mcommit => s.commitRows c (16 - c.done % 16)

/-- MATRIX_TILE: one tile of a running command (R377). -/
def execMatrixTile (cmd : CmdAt) (s : State) : Out :=
  match cmd with
  | .other k st => .next (s.elseCmd k st)
  | .own n =>
    match s.mx.queue.find? fun c : MCmd => c.num == n && c.started && c.wait.isNone with
    | none => .next s
    | some c => s.runTile c

/-- A reply to the outstanding read of a running load (R371). -/
def State.mxReply (s : State) (c : MCmd) (ans : LoadAns) : Out :=
  let c1 := { c with wait := none, retryAt := 0, retries := 0 }
  match ans, c.lineAddr c.done with
  | .refused code, some (addr, _) =>
    if code == 0x0C then s.mxStop { c with wait := none } (Eng.retry addr : Eng Unit)
    else .next (s.mxFault c code (faultAddr addr code))
  | .data e line _ _ _ ckey, some (addr, _) =>
    match s.takeLine c1 addr line e.desc e.geo (if c.op == .mwld then s.scaleThere ckey addr e.scale else e.scale) ckey with
    | .ok c2 => .next (s.loadOn c2)
    | r => s.mxStop c1 r
  | _, none => .next s

/-- The command whose outstanding read, or awaited retry, has a number. -/
def Matrix.waiter (m : Matrix) (rid : Nat) : Option MCmd := m.queue.find? fun c : MCmd => c.wait == some rid

end Sys2Proof.Machine
end

