-- ==== Sys2Proof/Machine/Engine.lean ====
section
/-!
DEFINITION. The identifiers of the copy and collective engines with their waits (R382), issue (R383), and the copy engine (R384 to
R387), major 0x31; the resends of R400.
-/
namespace Sys2Proof.Machine

/-! ## Identifiers (R382) -/

/-- The identifiers of the copy engine, or of the collective engine. -/
def State.engIds (s : State) (coll : Bool) : Vector EngId 4 := if coll then s.colls else s.pulls
def State.setEngId (s : State) (coll : Bool) (i : Fin 4) (e : EngId) : State :=
  if coll then { s with colls := s.colls.set i e } else { s with pulls := s.pulls.set i e }

/-- The identifier of a command that ends: the cell's, or the one that is saved with an evicted tree (R386). -/
def State.endId (s : State) (coll : Bool) (away : Option Word) (i : Fin 4) (e : EngId) : State :=
  match away with
  | none => s.setEngId coll i e
  | some root =>
    { s with saved := s.saved.map fun v : SavedCell =>
        if v.root == root then
          { v with own := v.own.map fun o : OwnSave =>
              if coll then { o with colls := o.colls.set i e } else { o with pulls := o.pulls.set i e } }
        else v }

/-- The code of an identifier that ended with a fault. -/
def EngId.failed (e : EngId) : Bool :=
  match e.st with
  | .ended c => c != 0
  | _ => false
def EngId.code (e : EngId) : Code :=
  match e.st with
  | .ended c => c
  | _ => 0

/-- The wait on one identifier. -/
def State.waitOne (s : State) (coll : Bool) (i : Fin 4) : Out :=
  let e := (s.engIds coll)[i]
  if e.st == .free then s.finish
  else if e.reg != s.act.reg then s.trap 0x05 0
  else if e.st == .busy then s.stall
  else
    let s1 := s.setEngId coll i EngId.reset
    if e.failed then s1.trapMem e.code (e.code == 0x0F) e.addr else s1.finish

/-- The wait on all identifiers of the region entry: those that ended well are free, and the lowest that did not is taken. -/
def State.waitEvery (s : State) (coll : Bool) : Out :=
  let ids := s.engIds coll
  let mine (i : Fin 4) : Bool := ids[i].st != .free && ids[i].reg == s.act.reg
  if (List.finRange 4).any fun i => mine i && ids[i].st == .busy then s.stall
  else
    let s1 := (List.finRange 4).foldl (fun (st : State) (i : Fin 4) =>
      if mine i && !ids[i].failed then st.setEngId coll i EngId.reset else st) s
    match (List.finRange 4).find? fun i => mine i && ids[i].failed with
    | none => s1.finish
    | some i => (s1.setEngId coll i EngId.reset).trapMem ids[i].code (ids[i].code == 0x0F) ids[i].addr

def State.engWaitId (s : State) (coll : Bool) (i : Fin 4) (all : Bool) : Out :=
  s.generalOnly fun s1 => if all then s1.waitEvery coll else s1.waitOne coll i

def execPullw (i : Fin 4) (all : Bool) (s : State) : Out := s.engWaitId false i all
def execCollw (i : Fin 4) (all : Bool) (s : State) : Out := s.engWaitId true i all

/-! ## Issue (R383) -/

/-- Whether a range lies in the issuing cell's own slot. -/
def State.inSlot1 (s : State) (lo len : Nat) : Bool := decide (s.slotBase ≤ lo) && decide (lo + len ≤ s.slotBase + 0x40000)

/-- An engine command with a descriptor line in the issuer's slot: `faults` are the checks on the descriptor's words, in order. -/
def State.engineCmd (s : State) (unit : Nat) (pa : PReg) (faults : State → List Word → List (Option (Code × Word)))
    (run : State → List Word → Out) : Out :=
  s.generalOnly fun s1 =>
    let a := s1.pv pa
    if !s1.cl.clucfg.getLsbD unit then s1.trap 0x05 0
    else if !isOwn a then s1.trap 0x03 a
    else if a.toNat % 128 != 0 then s1.trap 0x02 a
    else if !s1.inSlot1 a.toNat 128 then s1.trap 0x04 a
    else
      match s1.checkOwn .load a.toNat with
      | .ok site =>
        let ws := wordsOf 16 (s1.view site 128)
        match firstFault (faults s1 ws) with
        | some (c, x) => s1.trap c x
        | none => run s1 ws
      | r => s1.stopped (s1.portOther a a.toNat .load r)

/-- Words of a descriptor that must be zero. -/
def tailZero (ws : List Word) (n : Nat) : Bool := (ws.drop n).all fun w => w == 0

/-- The windows that data moves in: local store, DRAM and cistern. -/
def dataWindow (oa : Nat) : Bool := decide (oa < 0x201000000) || (decide (0x240000000 ≤ oa) && decide (oa < 0x244400000))

/-- The ranges and reserved bits of R384. -/
def State.pullOk (s : State) (gather : Bool) (ws : List Word) : Bool :=
  let w (i : Nat) : Word := ws.getD i 0
  let rlen := ((w 2).extractLsb' 0 21).toNat
  let dst := (w 1).toNat
  (w 0).toNat % 8 == 0 && zeroAt (w 1) 34 30 && dst % 8 == 0 && dataWindow dst && zeroAt (w 2) 56 8 && zeroAt (w 2) 21 11 &&
  !zeroAt (w 2) 32 24 && rlen % 8 == 0 && decide (8 ≤ rlen) && decide (rlen ≤ 1048576) && (w 3).toNat % 8 == 0 &&
  (w 4).toNat % 8 == 0 && zeroAt (w 5) 34 30 &&
  (if gather then (w 5).toNat % 128 == 0 && s.inSlot1 (w 5).toNat 1 else w 5 == 0) && tailZero ws 6

/-- A command enters its engine's queue once its identifier is not busy and the queue has room. -/
def State.enterEngine (s : State) (coll : Bool) (i : Fin 4) (queued : Nat) (t : Todo) (put : State → State) : Out :=
  if (s.engIds coll)[i].st == .busy || decide (Config.engineQueueSize ≤ queued) then s.stall
  else ((put (s.setEngId coll i { st := .busy, reg := s.act.reg, addr := 0 })).push t).finish

def State.pull (s : State) (pa pb pc : PReg) (i : Fin 4) (acq rel recd gather : Bool) : Out :=
  s.engineCmd 1 pa
    (fun s1 ws =>
      let src := ws.getD 0 0
      [faultIf (!formOk src) 0x03 src, s1.scopeFault pc, faultIf (!s1.pullOk gather ws) 0x05 (s1.pv pa), s1.sourceFault src])
    fun s1 ws =>
      let c : PullCmd :=
        { num := s1.cl.nextPull, lcell := s1.lcell, id := i, reg := s1.act.reg, aid := s1.act.aid, desc := ws, user := s1.pv pb,
          gather, acq, rel, recd, mark := s1.nextRid, mxMark := s1.mx.next, started := false, row := 0, off := 0, got := [],
          wait := none, resend := false, retries := 0, fin := none }
      s1.enterEngine false i (s1.cl.pullQ.filter fun d : PullCmd => !d.started).length .pullStart
        fun s2 => { s2 with cl := { s2.cl with pullQ := s2.cl.pullQ ++ [c], nextPull := s2.cl.nextPull + 1 } }

def execPull (pa pb pc : PReg) (i : Fin 4) (acq rel recd : Bool) (s : State) : Out := s.pull pa pb pc i acq rel recd false
def execPullg (pa pb pc : PReg) (i : Fin 4) (acq rel recd : Bool) (s : State) : Out := s.pull pa pb pc i acq rel recd true

/-! ## Running (R385 to R387) -/

def State.setPull (s : State) (c : PullCmd) : State :=
  { s with cl := { s.cl with pullQ := s.cl.pullQ.map fun d : PullCmd => if d.num == c.num then c else d } }

/-- PULL_START: the next command in queue order, while fewer than eight run. -/
def execPullStart (s : State) : Out :=
  match s.cl.pullQ.find? fun c : PullCmd => !c.started with
  | none => .next s
  | some c =>
    if Config.maxPulls ≤ (s.cl.pullQ.filter fun d : PullCmd => d.started).length then .next s
    else if c.acq && !s.acquiredAll c.aid c.mark c.mxMark then .next (s.hold .pullStart)
    else .next (((s.setPull { c with started := true }).push (.pullAccess c.num)).unblock)

def PullCmd.w (c : PullCmd) (i : Nat) : Word := c.desc.getD i 0
def PullCmd.rows (c : PullCmd) : Nat := ((c.w 2).extractLsb' 32 24).toNat
def PullCmd.rlen (c : PullCmd) : Nat := ((c.w 2).extractLsb' 0 21).toNat

/-- An event would have to wait for room in the queue (R105). -/
def State.eventsFull (s : State) : Bool := s.cl.evFull || !s.cl.evWait.isEmpty

/-- The command ends (R387): its identifier, its record, and the next command may start. The engine stays busy while its event finds
no room (R105). -/
def State.pullEnd (s : State) (c : PullCmd) (code : Code) (addr : Word) : State :=
  if (c.recd || code != 0) && s.eventsFull then s.setPull { c with wait := none, resend := false, fin := some (code, addr) }
  else
  let s1 := { s with cl := { s.cl with pullQ := s.cl.pullQ.filter fun d : PullCmd => d.num != c.num } }
  let s2 := s1.endId false c.away c.id { st := .ended code, reg := c.reg, addr := if code == 0 then 0 else addr }
  let detail : Word := BitVec.ofNat 64 (c.row * 2 ^ 32 + c.id.val)
  let s3 := if c.recd || code != 0 then s2.postEvent 0x01 code c.lcell c.user (if code == 0 then c.w 1 else addr) detail else s2
  (s3.push .pullStart).unblock

/-- What an access that did not succeed makes of the command; a retry holds it, uncounted (R386). -/
def State.pullStop {α : Type} (s : State) (c : PullCmd) : Eng α → Out
  | .ok _ => .next s
  | .bad code a => .next (s.pullEnd c code a)
  | .badAt s1 code a => .next (s1.pullEnd c code a)
  | .miss oa kind a => .next ((s.setPull { c with missAt := a }).missWait oa kind s.deviceReq (.pullAccess c.num))
  | .snoop line oa => .next ((s.sendSnoop line).holdAt oa (.pullAccess c.num))
  | .hold oa => .next (s.holdAt oa (.pullAccess c.num))
  | .retry _ => .next (s.hold (.pullAccess c.num))

/-- The row's number in the source: its own, or its index, read as the row needs it (R385). -/
def State.pullIndex (s : State) (c : PullCmd) : Eng Nat :=
  if !c.gather then .ok c.row
  else
    let oa := (c.w 5).toNat + 4 * c.row
    if !s.inSlot1 oa 4 then .bad 0x04 (BitVec.ofNat 64 oa)
    else (Chk.eng oa .engRead (s.checkPort (s.engineFor c.reg) .engRead oa)).bind fun site => .ok (leNat (s.view site 4))

/-- The destination of the access in progress (R384). -/
def PullCmd.dest (c : PullCmd) : Word := c.w 1 + BitVec.ofNat 64 c.row * c.w 4 + BitVec.ofNat 64 c.off
/-- Its source, for the row's source number. -/
def PullCmd.source (c : PullCmd) (i : Nat) : Word := c.w 0 + BitVec.ofNat 64 i * c.w 3 + BitVec.ofNat 64 c.off

/-- A whole line where both ends are aligned and the row has one left, else a word. -/
def PullCmd.size (c : PullCmd) (src : Word) : Nat :=
  if src.toNat % 128 == 0 && c.dest.toNat % 128 == 0 && decide (c.off + 128 ≤ c.rlen) then 128 else 8

/-- The command past an access of `n` bytes. -/
def PullCmd.past (c : PullCmd) (n : Nat) : PullCmd :=
  let off := c.off + n
  if c.rlen ≤ off then { c with row := c.row + 1, off := 0, got := [], wait := none, resend := false, retries := 0 }
  else { c with off, got := [], wait := none, resend := false, retries := 0 }

/-- Writes what the command has read. -/
def State.pullWrite (s : State) (c : PullCmd) : Out :=
  let d := c.dest
  let data : WData := .bytes c.got (List.replicate (c.got.length / 8) false)
  if !isOwn d then .next (s.pullEnd c 0x03 d)
  else
    match Chk.eng d.toNat .engWrite (s.checkWrite (s.engineFor c.reg) .engWrite d.toNat data) with
    | .ok site =>
      let c1 := c.past c.got.length
      let s1 := s.perform site d.toNat data
      if c1.rows ≤ c1.row then .next (s1.pullEnd c1 0 0) else .next ((s1.setPull c1).push (.pullAccess c.num))
    | r => (s.setPull c).pullStop c r

/-- Makes the next read: at a port of the own cluster, or a request to another. -/
def State.pullRead (s : State) (c : PullCmd) : Out :=
  match s.pullIndex c with
  | .ok i =>
    let a := c.source i
    let n := c.size a
    if !formOk a then .next (s.pullEnd c 0x03 a)
    else if s.isHere a then
      match Chk.engAt a (oaOf a) .engRead (s.checkPort (s.engineFor c.reg) .engRead (oaOf a)) with
      | .ok site => s.pullWrite { c with got := s.view site n }
      | r => s.pullStop c r
    else
      match s.placeFault a with
      | some code => .next (s.pullEnd c code a)
      | none =>
        .next (({ s with nextRid := s.nextRid + 1 }.setPull { c with wait := some s.nextRid, resend := false }).leave
          (outMsg .loadReq (prefixOf a) a s.nextRid 0 [5, BitVec.ofNat 64 n]) (.refusedLoad s.nextRid 0x04))
  | r => s.pullStop c r

/-- The address that the command reads next. -/
def State.pullSource (s : State) (c : PullCmd) : Word :=
  match s.pullIndex c with
  | .ok i => c.source i
  | _ => c.w 0

/-- A reply to the command's read. -/
def State.pullReply (s : State) (c : PullCmd) (ans : LoadAns) : Out :=
  match ans with
  | .data e _ _ _ _ _ =>
    s.pullWrite { c with got := (e.data.flatMap bytesOf ++ List.replicate 128 0).take (c.size (s.pullSource c)), wait := none }
  | .refused code =>
    let a := s.pullSource c
    if code == 0x0C && decide (c.retries < 64) then
      .next ({ s with nextRid := s.nextRid + 1 }.setPull { c with wait := some s.nextRid, resend := true, retries := c.retries + 1 })
    else .next (s.pullEnd c code (faultAddr a code))

/-- PULL_ACCESS: the running command's next access, or the reply to its read. -/
def execPullAccess (cmd : CmdAt) (ans : Option LoadAns) (s : State) : Out :=
  match cmd with
  | .other k st => .next (s.elseCmd k st)
  | .own n =>
  match s.cl.pullQ.find? fun c : PullCmd => c.num == n && c.started with
  | none => .next s
  | some c =>
    match c.fin with
    | some (code, addr) => .next (if ans.isSome then s else s.pullEnd c code addr)
    | none =>
    match ans, c.wait with
    | some a, some _ => if c.resend then .next s else s.pullReply c a
    | none, none => if c.got.isEmpty then s.pullRead c else s.pullWrite c
    | _, _ => .next s

/-- A TLB miss of the command was refused (R62, R387, R396). -/
def State.pullRefused (s : State) (n : Nat) (code : Code) : State :=
  match s.cl.pullQ.find? fun c : PullCmd => c.num == n with
  | none => s
  | some c => s.pullEnd c code c.missAt

/-- The commands that move data to this cluster stop with 0x08 when it is lost (R387), those that wait or are held among them. -/
def State.losePulls (s : State) : State :=
  let s1 := { s with cl := { s.cl with pullQ := s.cl.pullHeld ++ s.cl.pullQ, pullHeld := [] } }
  s1.cl.pullQ.foldl (fun (st : State) (c : PullCmd) => st.pullEnd c 0x08 c.dest) s1

/-! ## Resending (R400) -/

/-- RETRY_RESEND (R400): a message from the reply table, the access in progress of a slot, or a read of a running engine command. -/
def execRetryResend (rid : Nat) (s : State) : Out :=
  match s.replyOf rid with
  | some e =>
    if e.waiting then
      .next ({ s.sendAgain e with replies := s.replies.map fun x : ReplyEnt =>
        if x.rid == rid then { x with waiting := false } else x })
    else .next s
  | none =>
    let s1 := s.mapPhases fun a => match a.phase with
      | .retryWait r n => if r == rid then { a with phase := .again n, blocked := false } else a
      | _ => a
    match s1.cl.pullQ.find? fun c : PullCmd => c.resend && c.wait == some rid with
    | some c => .next ((s1.setPull { c with wait := none, resend := false }).push (.pullAccess c.num))
    | none =>
      match s1.mx.waiter rid with
      | some c => .next ((s1.setCmd { c with wait := none }).push (.matrixTile c.num))
      | none => .next s1

end Sys2Proof.Machine
end

