-- ==== Sys2Proof/Machine/Collective.lean ====
section
/-!
DEFINITION. The collective engine (R388 to R395), major 0x32: issue, the ring and the tree over the survivors, the wire format, lost
members and the end of a command. What a peer's control line and wire slot held arrives with the event COLL_STEP.
-/
namespace Sys2Proof.Machine

/-! ## The descriptor (R388) -/

def CollCmd.w (c : CollCmd) (i : Nat) : Word := c.desc.getD i 0

/-- Fields of word 0. -/
structure CollSpec where
  op : Nat
  tree : Bool
  nmem : Nat
  self : Nat
  red : Nat
  scl : Nat
  rnd : Nat
  cmp : Bool
  cfmt : Fin 16
  cblen : Nat
  ety : BitVec 4
  deriving DecidableEq, Repr

def collSpec (w : Word) : CollSpec :=
  { op := (w.extractLsb' 60 4).toNat, tree := w.extractLsb' 58 2 == 1, nmem := (w.extractLsb' 52 6).toNat + 1,
    self := (w.extractLsb' 46 6).toNat, red := (w.extractLsb' 44 2).toNat, scl := (w.extractLsb' 42 2).toNat,
    rnd := (w.extractLsb' 39 3).toNat, cmp := w.getLsbD 38, cfmt := (w.extractLsb' 34 4).toFin,
    cblen := (w.extractLsb' 31 3).toNat, ety := w.extractLsb' 27 4 }

def CollCmd.spec (c : CollCmd) : CollSpec := collSpec (c.w 0)
def CollCmd.nel (c : CollCmd) : Nat := (c.w 2).toNat
def CollCmd.buf (c : CollCmd) : Nat := (c.w 1).toNat
def CollCmd.stage (c : CollCmd) : Nat := (c.w 3).toNat

/-- The ranges and reserved bits of R388. -/
def State.collRanges (s : State) (ws : List Word) : Bool :=
  let w (i : Nat) : Word := ws.getD i 0
  let f := collSpec (w 0)
  decide (f.op ≤ 2) && decide (((w 0).extractLsb' 58 2).toNat ≤ 1) && decide (f.self < f.nmem) && f.red != 3 && f.scl != 3 &&
  f.rnd != 5 && f.rnd != 6 && f.cblen != 7 && (tyIn f.ety [.fp32, .bf16]).isSome && zeroAt (w 0) 0 27 && zeroAt (w 1) 34 30 &&
  (w 1).toNat % 128 == 0 && zeroAt (w 2) 28 36 && (w 2).toNat % (32 * f.nmem) == 0 && zeroAt (w 3) 34 30 &&
  (w 3).toNat % 128 == 0 && zeroAt (w 4) 32 32 && decide ((w 4).toNat ≤ 60000000) && zeroAt (w 5) 34 30 &&
  s.inSlot1 (w 5).toNat (8 * f.nmem) && zeroAt (w 6) 32 32 && tailZero ws 7 && !(f.op != 0 && f.tree)

/-- A page or half of the stage: rd and w, or a miss to wait for. -/
def State.stagePage (s : State) (oa : Nat) : Chk Unit :=
  match s.cl.window oa with
  | .dram =>
    match s.cl.translate oa with
    | .hit _ a _ _ => if a.rd && a.w then .ok () else .fault 0x05 false
    | .miss => .miss
    | .fault => .fault 0x05 false
  | .ls n =>
    let w := s.cells[n].lsattr
    if (Attr.ofHalf (if oa % 0x40000 < 0x20000 then w.extractLsb' 0 32 else w.extractLsb' 32 32)).w then .ok () else .fault 0x05 false
  | _ => .fault 0x05 false

/-- The pages from an address, for `n` pages of 64 KiB: with the address of the first that is not as the stage needs it. -/
def State.stagePages (s : State) (oa : Nat) : Nat → Eng Unit
  | 0 => .ok ()
  | n + 1 => (Chk.eng oa .engWrite (s.stagePage oa)).bind fun _ => s.stagePages (oa / 0x10000 * 0x10000 + 0x10000) n

/-- The member table, read at issue. -/
def State.memberTable (s : State) (oa : Nat) : Nat → Eng (List Word)
  | 0 => .ok []
  | n + 1 =>
    (Chk.eng oa .load (s.checkOwn .load oa)).bind fun site =>
      (s.memberTable (oa + 8) n).bind fun rest => .ok (wordOf (s.view site 8) :: rest)

def distinct : List Word → Bool
  | [] => true
  | x :: t => !t.contains x && distinct t

/-- The refusals of R388 beyond the fields' ranges. -/
def State.membersOk (s : State) (ws ms : List Word) : Bool :=
  let f := collSpec (ws.getD 0 0)
  (ms.all fun m => m.getLsbD 63 && zeroAt m 0 36) && ms.getD f.self 0 == s.cl.place &&
  distinct (ms.map fun m => m &&& 0x7FFFE00000000000#64) &&
  s.cl.inDepwin (ws.getD 3 0).toNat (128 + 12 * (ws.getD 2 0).toNat) && (!f.cmp || fmtValid s.cl.fmt[f.cfmt])

/-! ## Issue and wait (R381 to R383) -/

/-- Enters the queue with what is copied at issue. -/
def State.enterColl (s : State) (pb : PReg) (i : Fin 4) (acq rel : Bool) (ws ms : List Word) : Out :=
  let f := collSpec (ws.getD 0 0)
  let c : CollCmd :=
    { lcell := s.lcell, id := i, reg := s.act.reg, aid := s.act.aid, desc := ws, members := ms, user := s.pv pb, acq, rel,
      mark := s.nextRid, mxMark := s.mx.next, rm := if f.rnd == 7 then s.rm .dyn else modeOfCode f.rnd, nsc := s.nsc,
      seed := s.seed, phase := .queued, fresh := none, round := 0, lost := 0, step := 0, sent := false, writes := 0,
      cleared := false, kids := 0, awaiting := none, want := 0, fin := none, got := none, snap := [], work := [], wire := [] }
  s.enterEngine true i (s.cl.collQ.filter fun d : CollCmd => d.phase == .queued).length .collStart
    fun s1 => { s1 with cl := { s1.cl with collQ := s1.cl.collQ ++ [c] } }

/-- What an access made at issue leaves. -/
def State.issueStop {α : Type} (s : State) : Eng α → Out
  | .ok _ => .next s
  | .bad c a | .badAt _ c a => s.trapMem c (c == 0x0F) (faultAddr a c)
  | .miss oa kind _ => s.ownMiss oa kind
  | .snoop line oa => (s.sendSnoop line).stallAt oa
  | .hold oa => s.stallAt oa
  | .retry _ => s.stopped (s.portRetry 0)

/-- The translation that the instruction waited for was refused. -/
def Act.missRefused (a : Act) : Bool :=
  match a.phase with
  | .refused _ _ => true
  | _ => false

/-- `coll` (R388): only a page of its stage can miss, and one that is refused is none that the stage may lie on; the table's prefixes are looked up like the descriptor's addresses (DESIGN CHOICE, log 117). -/
def execColl (pa pb pc : PReg) (i : Fin 4) (acq rel : Bool) (s : State) : Out :=
  s.engineCmd 0 pa
    (fun s1 ws => [s1.scopeFault pc, faultIf (!s1.collRanges ws) 0x05 (s1.pv pa), faultIf s1.act.missRefused 0x05 (s1.pv pa)])
    fun s1 ws =>
      let f := collSpec (ws.getD 0 0)
      let stage := (ws.getD 3 0).toNat
      let size := 128 + 12 * (ws.getD 2 0).toNat
      match s1.memberTable (ws.getD 5 0).toNat f.nmem with
      | .ok ms =>
        if !s1.membersOk ws ms then s1.trap 0x05 (s1.pv pa)
        else
          match s1.stagePages stage ((stage % 0x10000 + size + 0xFFFF) / 0x10000) with
          | .ok _ =>
            match ms.find? fun m => !s1.isHere m && (s1.placeFault m).isSome with
            | some m => s1.trap ((s1.placeFault m).getD 0x04) m
            | none => s1.enterColl pb i acq rel ws ms
          | .bad _ _ | .badAt _ _ _ => s1.trap 0x05 (s1.pv pa)
          | r => s1.issueStop r
      | r => s1.issueStop r

/-! ## Survivors and chunks (R391, R393) -/

/-- The ranks that are not lost, in order. -/
def CollCmd.alive (c : CollCmd) : List Nat := (List.range c.spec.nmem).filter fun r => !c.lost.getLsbD r
def CollCmd.ns (c : CollCmd) : Nat := c.alive.length
/-- The issuer's position. -/
def CollCmd.pos (c : CollCmd) : Nat := c.alive.idxOf c.spec.self
def CollCmd.rankAt (c : CollCmd) (p : Nat) : Nat := c.alive.getD p 0
/-- The place of a rank's control line. -/
def CollCmd.peerLine (c : CollCmd) (rank : Nat) : Word := c.members.getD rank 0 + BitVec.ofNat 64 c.stage

/-- First element and length of chunk `i` of the ring; the tree moves everything as one chunk. -/
def CollCmd.chunk (c : CollCmd) (i : Nat) : Nat × Nat :=
  if c.spec.tree then (0, c.nel)
  else
    let n := 32 * c.ns
    let size := (c.nel + n - 1) / n * 32
    let lo := min c.nel (size * i)
    (lo, min size (c.nel - lo))

def CollCmd.part (c : CollCmd) (i : Nat) : List (BitVec 32) := (c.work.drop (c.chunk i).1).take (c.chunk i).2

/-- The working copy with a chunk replaced. -/
def CollCmd.putPart (c : CollCmd) (i : Nat) (xs : List (BitVec 32)) : CollCmd :=
  let k := c.chunk i
  { c with work := c.work.take k.1 ++ xs.take k.2 ++ c.work.drop (k.1 + k.2) }

/-! ## The wire (R392) -/

/-- Bits gathered from bit 0 up: how many, and their value. -/
structure WireBits where
  n : Nat
  v : Nat

def WireBits.put (b : WireBits) (w x : Nat) : WireBits := { n := b.n + w, v := b.v + x % 2 ^ w * 2 ^ b.n }

/-- What a sender makes of a chunk: the slot's bytes, the values that a receiver decodes, and the generator. -/
structure Wire where
  bytes : List Byte
  vals  : List (BitVec 32)
  seed  : BitVec 32

def words32 (xs : List (BitVec 32)) : List Byte := xs.flatMap fun x => leBytes 4 x.toNat

/-- A decoded element of the wire: a NaN scale gives the default NaN. -/
def wireVal (d : Desc) (scale code : Nat) : BitVec 32 :=
  if scale == 0xFF then BitVec.ofNat 32 (fnanDefault Fmt.fp32) else BitVec.ofNat 32 (nfsDecode d scale .rne 0 code).bits

/-- Encodes blocks one after another. -/
def wireBlocks (d : Desc) (rm : Rnd) : List (List (BitVec 32)) → WireBits → BitVec 32 → WireBits × List (BitVec 32) × BitVec 32
  | [], b, seed => (b, [], seed)
  | xs :: rest, b, seed =>
    let x := chooseScale d (xs.map fun v => fdecode Fmt.fp32 v.toNat)
    let e := encNf d (127 - (x : Int)) false false rm seed xs (List.range xs.length)
    let b1 := e.codes.foldl (fun (a : WireBits) (c : Nat) => a.put d.width c) (b.put 8 x)
    let r := wireBlocks d rm rest b1 e.seed
    (r.1, e.codes.map (wireVal d x) ++ r.2.1, r.2.2)

/-- The wire descriptor. -/
def State.wireDesc (s : State) (c : CollCmd) : Desc := Desc.of (s.cl.fmt[c.spec.cfmt].extractLsb' 0 24)

/-- Encodes a chunk. -/
def State.wireOf (s : State) (c : CollCmd) (xs : List (BitVec 32)) : Wire :=
  if !c.spec.cmp then { bytes := words32 xs, vals := xs, seed := c.seed }
  else
    let r := wireBlocks (s.wireDesc c) c.rm (chunks (blockLen c.spec.cblen) xs.length xs) { n := 0, v := 0 } c.seed
    { bytes := leBytes ((r.1.n + 7) / 8) r.1.v, vals := r.2.1, seed := r.2.2 }

/-- Decodes `left` elements in blocks of `len` from bit `at0` of a slot; or the bit at which a NaN scale that stops the command stands
(R124). -/
def wireRead (d : Desc) (nsc : Bool) (v : Nat) : Nat → Nat → Nat → Nat → Except Nat (List (BitVec 32))
  | 0, _, _, _ => .ok []
  | fuel + 1, at0, len, left =>
    if left == 0 then .ok []
    else
      let n := min len left
      let x := v / 2 ^ at0 % 256
      if x == 0xFF && !nsc then .error at0
      else
        let code (i : Nat) : Nat := v / 2 ^ (at0 + 8 + i * d.width) % 2 ^ d.width
        (wireRead d nsc v fuel (at0 + 8 + n * d.width) len (left - n)).map fun rest =>
          ((List.range n).map fun i => wireVal d x (code i)) ++ rest

/-- The values of a slot that carries `n` elements. -/
def State.wireVals (s : State) (c : CollCmd) (n : Nat) (bs : List Byte) : Except Nat (List (BitVec 32)) :=
  if !c.spec.cmp then .ok ((List.range n).map fun i => BitVec.ofNat 32 (leNat ((bs.drop (4 * i)).take 4)))
  else wireRead (s.wireDesc c) c.nsc (leNat bs) (n + 1) 0 (blockLen c.spec.cblen) n

/-- One fold: a binary32 sum rounded to nearest-even, or `fmin`, `fmax` (R391). -/
def foldVal (red : Nat) (p x : BitVec 32) : BitVec 32 :=
  BitVec.ofNat 32 (if red == 0 then (fadd Fmt.fp32 .rne 0 p.toNat x.toNat).bits
    else fminmax Fmt.fp32 (red == 2) p.toNat x.toNat)

/-! ## Writing (R389, R390) -/

/-- Writes runs of bytes one after another as the engine. -/
def State.writeRuns (s : State) (who : Requester) (oa : Nat) : List (List Byte) → Eng State
  | [] => .ok s
  | p :: ps =>
    ((Chk.eng oa .engWrite (s.checkWrite who .engWrite oa (.bytes p []))).after s).bind fun site =>
      (s.perform site oa (.bytes p [])).writeRuns who (oa + p.length) ps

/-- Writes bytes, at most a line at a time. -/
def State.engineWrite (s : State) (who : Requester) (oa : Nat) (bs : List Byte) : Eng State :=
  let first := bs.take (128 - oa % 128)
  s.writeRuns who oa ((if first.isEmpty then [] else [first]) ++ chunks 128 bs.length (bs.drop (128 - oa % 128)))

/-- Where the stage keeps element `i` of the working copy, and wire slot `k` (R388, R389). -/
def CollCmd.workAt (c : CollCmd) (i : Nat) : Nat := c.stage + 128 + 4 * i
def CollCmd.slotAt (c : CollCmd) (k : Nat) : Nat := c.stage + 128 + 4 * c.nel * (1 + k)

/-- Words 1 and 2 of the control line. -/
def State.writeControl (s : State) (c : CollCmd) : Eng State :=
  let w1 : Word := (c.w 6).extractLsb' 0 32 ++ BitVec.ofNat 32 c.round
  s.engineWrite (s.engineFor c.reg) (c.stage + 8) (bytesOf w1 ++ bytesOf c.lost)

/-- The advance of the sequence word (R389). -/
def State.advanceSeq (s : State) (c : CollCmd) : Eng State :=
  ((Chk.eng c.stage .atomic (s.advance (s.engineFor c.reg) c.stage)).after s).bind fun r => .ok r.2

/-- A chunk of the working copy. -/
def State.writeWork (s : State) (c : CollCmd) (i : Nat) : Eng State :=
  s.engineWrite (s.engineFor c.reg) (c.workAt (c.chunk i).1) (words32 (c.part i))

/-- Fills a wire slot and advances. -/
def State.fillSlot (s : State) (c : CollCmd) (k : Nat) (bs : List Byte) : Eng State :=
  (s.engineWrite (s.engineFor c.reg) (c.slotAt k) bs).bind fun s1 => s1.advanceSeq c

/-! ## Results (R390, R393) -/

/-- A value times n over d, exact to far below the rounding, with a sticky last bit. -/
def ratio (n d : Nat) : FVal → FVal
  | .fin neg m e =>
    let x := m * n * 2 ^ 96
    .fin neg (2 * (x / d) + (if x % d == 0 then 0 else 1)) (e - 97)
  | v => v

/-- A result as it is written to buf: scaled, and rounded once to the element type. -/
def CollCmd.result (c : CollCmd) (x : BitVec 32) : List Byte :=
  let f := c.spec
  let ty : Ty := (Ty.ofCode f.ety).getD .fp32
  if f.scl == 0 && ty == .fp32 then leBytes 4 x.toNat
  else
    let v := fdecode Fmt.fp32 x.toNat
    let y := if f.scl == 0 then v else ratio (if f.scl == 2 then f.nmem else 1) c.ns v
    leBytes (tyBytes ty) (fpack Fmt.fp32 (tyFmt ty) .rne y 0).bits

/-- The elements that the command writes. -/
def CollCmd.outRange (c : CollCmd) : Nat × Nat := if c.spec.op == 1 then c.chunk c.pos else (0, c.nel)

/-! ## Ends (R387, R394) -/

def State.setColl (s : State) (c : CollCmd) : State := { s with cl := { s.cl with collQ := c :: s.cl.collQ.tail } }

def State.collEnd (s : State) (c : CollCmd) (code : Code) (addr : Word) : State :=
  if s.eventsFull then s.setColl { c with awaiting := none, fin := some (code, addr) }
  else
  let s1 := { s with cl := { s.cl with collQ := s.cl.collQ.tail } }
  let s2 := s1.endId true c.away c.id { st := .ended code, reg := c.reg, addr := if code == 0 then 0 else addr }
  (((s2.postEvent 0x02 code c.lcell c.user (if code == 0 then c.w 1 else addr) c.lost).push .collStart).push .collStep).unblock

/-- What an access of the engine that did not succeed makes of the command. -/
def State.collStop {α : Type} (s : State) (c : CollCmd) : Eng α → Out
  | .ok _ => .next s
  | .bad code a => .next (s.collEnd c code a)
  | .badAt s1 code a => .next (s1.collEnd c code a)
  | .miss oa kind a => .next ((s.setColl { c with missAt := a }).missWait oa kind s.deviceReq .collStep)
  | .snoop line oa => .next ((s.sendSnoop line).holdAt oa .collStep)
  | .hold oa => .next (s.holdAt oa .collStep)
  | .retry _ => .next (s.hold .collStep)

/-- A TLB miss of the engine was refused (R396). -/
def State.collRefused (s : State) (code : Code) : State :=
  match s.cl.collQ with
  | [] => s
  | c :: _ => s.collEnd c code c.missAt

/-! ## COLL_START (R390) -/

/-- Elements of buf widened to binary32. -/
def elemsOf (ty : Ty) (n : Nat) (bs : List Byte) : List (BitVec 32) :=
  let k := tyBytes ty
  (List.range n).map fun i =>
    let x := leNat ((bs.drop (k * i)).take k)
    if ty == .fp32 then BitVec.ofNat 32 x else widen32 (tyFmt ty) x

def CollCmd.firstPhase (c : CollCmd) : CollPhase :=
  if c.spec.tree then .treeUp else if c.spec.op == 2 then .gather else .reduce

def execCollStart (s : State) : Out :=
  match s.cl.collQ with
  | [] => .next s
  | c :: _ =>
    if c.phase != .queued || c.fin.isSome then .next s
    else if c.acq && !s.acquiredAll c.aid c.mark c.mxMark then .next (s.hold .collStart)
    else
      let ty : Ty := (Ty.ofCode c.spec.ety).getD .fp32
      match s.engineLines (s.engineFor c.reg) .engRead c.buf ((c.nel * tyBytes ty + 127) / 128) with
      | .ok r =>
        let xs := elemsOf ty c.nel r.1
        .next (((s.setColl { c with phase := c.firstPhase, fresh := some false, snap := xs, work := xs }).push .collStep).unblock)
      | .miss oa kind a => .next ((s.setColl { c with missAt := a }).missWait oa kind s.deviceReq .collStart)
      | .snoop line oa => .next ((s.sendSnoop line).holdAt oa .collStart)
      | .bad code a | .badAt _ code a => .next (s.collEnd c code a)
      | .hold oa => .next (s.holdAt oa .collStart)
      | .retry _ => .next (s.hold .collStart)

/-! ## Steps -/

/-- The engine goes on with the command at the next step of its hardware. -/
def State.collOn (s : State) (c : CollCmd) : Out := .next ((s.setColl c).push .collStep)

/-- Goes on where a run of writes succeeded. -/
def State.collThen (s : State) (c0 : CollCmd) (r : Eng State) (c : CollCmd) : Out :=
  match r with
  | .ok s1 => s1.collOn c
  | r => s.collStop c0 r

/-- Waits for a rank's control line: an acquiring watch for the awaited value of its sequence word. -/
def State.awaitPeer (s : State) (c : CollCmd) (rank : Nat) : Out :=
  let a := c.peerLine rank
  if s.noPeer a then .next (s.collEnd c 0x04 a)
  else
    let want := Config.awaitedSeq a (c.w 6) c.round (c.step + c.kids + c.writes)
    .next (({ s with nextRid := s.nextRid + 1 }.setColl { c with awaiting := some rank, want }).leaveAs 1
      (outMsg .watchReq (prefixOf a) a s.nextRid 0 [want, 1]) .collStart)

/-- Writes the results, and the command ends. -/
def State.collFinish (s : State) (c : CollCmd) : Out :=
  let k := c.outRange
  let bs := ((c.work.drop k.1).take k.2).flatMap c.result
  let esz := tyBytes ((Ty.ofCode c.spec.ety).getD .fp32)
  match s.engineWrite (s.engineFor c.reg) (c.buf + esz * k.1) bs with
  | .ok s1 => .next (s1.collEnd c 0 0)
  | r => s.collStop c r

/-- The bytes that a finished chunk travels as, and its own copy of them. -/
def State.finishedWire (s : State) (c : CollCmd) (i : Nat) : List Byte × CollCmd :=
  match c.wire.find? fun e : Nat × List Byte => e.1 == i with
  | some e => (e.2, c)
  | none =>
    let w := s.wireOf c (c.part i)
    (w.bytes, { c.putPart i w.vals with seed := w.seed, wire := (i, w.bytes) :: c.wire })

/-- A step of the ring. -/
def State.ringStep (s : State) (c : CollCmd) : Out :=
  let ns := c.ns
  let q := c.pos
  if ns ≤ c.step + 1 then
    if c.phase == .reduce && c.spec.op == 0 then s.collOn { c with phase := .gather, step := 0, sent := false } else s.collFinish c
  else if c.sent then s.awaitPeer c (c.rankAt ((q + ns - 1) % ns))
  else if decide (2 ≤ c.writes) && decide (2 < ns) && !c.cleared then s.awaitPeer c (c.rankAt ((q + 1) % ns))
  else
    let slot := c.writes % 2
    if c.phase == .reduce then
      let w := s.wireOf c (c.part ((q + 2 * ns - 1 - c.step) % ns))
      s.collThen c (s.fillSlot c slot w.bytes) { c with sent := true, writes := c.writes + 1, cleared := false, seed := w.seed }
    else
      let i := (q + ns - c.step) % ns
      let r := s.finishedWire c i
      s.collThen c ((s.writeWork r.2 i).bind fun s1 => s1.fillSlot r.2 slot r.1)
        { r.2 with sent := true, writes := c.writes + 1, cleared := false }

/-- The line of a rank's wire slot that holds a bit of it. -/
def CollCmd.peerSlot (c : CollCmd) (rank slot bit : Nat) : Word :=
  c.members.getD rank 0 + BitVec.ofNat 64 ((c.slotAt slot + bit / 8) / 128 * 128)

/-- A ring slot that has arrived: folded, or taken in place of the own copy. -/
def State.ringTake (s : State) (c : CollCmd) (bs : List Byte) : Out :=
  let ns := c.ns
  let i := if c.phase == .reduce then (c.pos + 2 * ns - 2 - c.step) % ns else (c.pos + 2 * ns - 1 - c.step) % ns
  match s.wireVals c (c.chunk i).2 bs with
  | .error bit => .next (s.collEnd c 0x12 (c.peerSlot (c.rankAt ((c.pos + ns - 1) % ns)) ((c.writes + 1) % 2) bit))
  | .ok vals =>
    let c1 := if c.phase == .reduce then c.putPart i (List.zipWith (foldVal c.spec.red) vals (c.part i))
      else { c.putPart i vals with wire := (i, bs) :: c.wire }
    s.collThen c (s.writeWork c1 i) { c1 with step := c.step + 1, sent := false, got := none }

/-- The children of a position of the tree. -/
def CollCmd.children (c : CollCmd) : Nat := min 2 (c.ns - (2 * c.pos + 1))

/-- A step of the tree: partials go up in slot 0, the result comes down in slot 1. -/
def State.treeStep (s : State) (c : CollCmd) : Out :=
  if c.phase == .treeUp then
    if c.kids < c.children then s.awaitPeer c (c.rankAt (2 * c.pos + 1 + c.kids))
    else if c.pos == 0 then s.collOn { c with phase := .treeDown, sent := false }
    else if !c.sent then
      let w := s.wireOf c (c.part 0)
      s.collThen c (s.fillSlot c 0 w.bytes) { c with sent := true, seed := w.seed }
    else s.awaitPeer c (c.rankAt ((c.pos - 1) / 2))
  else if c.sent || c.children == 0 then s.collFinish c
  else
    let r := s.finishedWire c 0
    s.collThen c ((s.writeWork r.2 0).bind fun s1 => s1.fillSlot r.2 1 r.1) { r.2 with sent := true }

def State.treeTake (s : State) (c : CollCmd) (bs : List Byte) : Out :=
  let up := decide (c.kids < c.children)
  let from_ := if up then c.rankAt (2 * c.pos + 1 + c.kids) else c.rankAt ((c.pos - 1) / 2)
  match s.wireVals c c.nel bs with
  | .error bit => .next (s.collEnd c 0x12 (c.peerSlot from_ (if up then 0 else 1) bit))
  | .ok vals =>
    let c1 := if up then { c.putPart 0 (List.zipWith (foldVal c.spec.red) (c.part 0) vals) with kids := c.kids + 1 }
      else { c.putPart 0 vals with wire := [(0, bs)], phase := .treeDown, sent := false }
    s.collThen c (s.writeWork c1 0) { c1 with got := none }

/-- One step of the running command: the control line and the working copy of a round that begins, a slot that has arrived, or the
next action of its phase. -/
def State.collGo (s : State) : Out :=
  match s.cl.collQ with
  | [] => .next s
  | c :: _ =>
    match c.fin with
    | some (code, addr) => .next (s.collEnd c code addr)
    | none =>
    if c.phase == .queued || c.awaiting.isSome then .next s
    else
      match c.fresh with
      | some adv =>
        s.collThen c ((s.writeControl c).bind fun s1 =>
          (s1.engineWrite (s1.engineFor c.reg) (c.workAt 0) (words32 c.work)).bind fun s2 =>
            if adv then s2.advanceSeq c else .ok s2) { c with fresh := none }
      | none =>
        match c.got with
        | some bs => if c.spec.tree then s.treeTake c bs else s.ringTake c bs
        | none => if c.spec.tree then s.treeStep c else s.ringStep c

/-! ## COLL_STEP and MEMBER_LOST (R391, R393) -/

/-- A round begins again from the snapshot with a new set of survivors. -/
def State.collRestart (s : State) (c : CollCmd) (lost : BitVec 64) (round : Nat) : Out :=
  s.collOn { c with lost, round, phase := c.firstPhase, fresh := some true, step := 0, sent := false, writes := 0, cleared := false,
                    kids := 0, awaiting := none, got := none, work := c.snap, wire := [] }

/-- A member is declared lost. -/
def State.collLose (s : State) (c : CollCmd) (rank : Nat) : Out :=
  s.collRestart c (c.lost ||| (1#64 <<< rank)) (c.round + 1)

/-- A peer's control line with what its slot held; one whose sequence word has not reached the awaited value is passed over. -/
def State.collLine (s : State) (c : CollCmd) (peer : Nat) (seq : Word) (inst round : BitVec 32) (lost : Word) (slot : List Byte) : Out :=
  if seq.toNat < c.want.toNat then .next s
  else if inst != (c.w 6).extractLsb' 0 32 then s.collLose c peer
  else if lost.getLsbD c.spec.self then .next (s.collEnd { c with lost := c.lost ||| lost } 0x08 (c.peerLine peer))
  else if c.round < round.toNat then s.collRestart c (c.lost ||| lost) round.toNat
  else if round.toNat < c.round then .next s
  else if !c.spec.tree && !c.sent then s.collOn { c with awaiting := none, cleared := true }
  else s.collOn { c with awaiting := none, got := some slot }

/-- The answer to an acquiring watch at another owner raises the floor of that owner (R90). -/
def State.raised (s : State) (a count : Word) : State :=
  if prefixOf a == prefixOf s.cl.place then s else { s with cl := s.cl.raiseFloor (prefixOf a) count }

/-- COLL_STEP: the answer to the awaited watch, with the pull that follows it. -/
def execCollStep (at_ : CollAt) (ans : CollPeer) (s : State) : Out :=
  match at_ with
  | .other k st => .next (s.elseCmd k st)
  | .own peer =>
  match s.cl.collQ with
  | [] => .next s
  | c :: _ =>
    if c.awaiting != some peer.val then .next s
    else
      match ans with
      | .refused code =>
        if code == 0x08 then s.collLose c peer.val
        else if code == 0x0C then .next s
        else .next (s.collEnd c code (c.peerLine peer.val))
      | .refusedAt code off =>
        if code == 0x08 then s.collLose c peer.val
        else if code == 0x0C then .next s
        else .next (s.collEnd c code (c.peerLine peer.val + BitVec.ofNat 64 (off / 128 * 128)))
      | .line seq count inst round lost slot => (s.raised (c.peerLine peer.val) count).collLine c peer.val seq inst round lost slot

/-- MEMBER_LOST: a member's timeout expires while the command runs. -/
def execMemberLost (rank : Fin 64) (s : State) : Out :=
  match s.cl.collQ with
  | [] => .next s
  | c :: _ =>
    if c.phase == .queued || c.spec.nmem ≤ rank.val || rank.val == c.spec.self || c.lost.getLsbD rank.val then .next s
    else s.collLose c rank.val

/-- Ends `n` commands from the head of the queue on. -/
def State.loseColls : Nat → State → State
  | 0, s => s
  | n + 1, s =>
    match s.cl.collQ with
    | c :: _ => if c.fin.isSome then s else State.loseColls n (s.collEnd c 0x08 (BitVec.ofNat 64 c.buf))
    | [] => s

/-- The commands stop with 0x08 when their own cluster is lost (R387, R394), those that wait or are held among them. -/
def State.loseColl (s : State) : State :=
  let s1 := { s with cl := { s.cl with collQ := s.cl.collQ ++ s.cl.collHeld, collHeld := [] } }
  State.loseColls s1.cl.collQ.length s1

/-! ## The end of a region (R387, R394) -/

/-- The commands of a region entry stop without a record, and its identifiers are free. -/
def State.dropEngines (s : State) (r : Fin 8) : State :=
  let free (e : EngId) : EngId := if e.reg == r then EngId.reset else e
  let keepP (c : PullCmd) : Bool := c.reg != r || c.away.isSome
  let keepC (c : CollCmd) : Bool := c.reg != r || c.away.isSome
  let cl := { s.cl with pullQ := s.cl.pullQ.filter keepP, collQ := s.cl.collQ.filter keepC,
                        pullHeld := s.cl.pullHeld.filter keepP, collHeld := s.cl.collHeld.filter keepC }
  let s1 := { s with pulls := Vector.ofFn fun i : Fin 4 => free s.pulls[i], colls := Vector.ofFn fun i : Fin 4 => free s.colls[i], cl }
  ((s1.push .pullStart).push .collStart).push .collStep

end Sys2Proof.Machine
end

