-- ==== Sys2Proof/Machine/Mail.lean ====
section
/-!
DEFINITION. The management mailbox (R454 to R459): answers, the event rings of both ports, the hold of commands before the mailbox
opens (R460), and the host as a requester.
-/
namespace Sys2Proof.Machine

/-! ## Measurements and records (R449, R458) -/

/-- A slot is extended with an item. -/
def State.extend (s : State) (k : Fin 8) (item : List Byte) : State :=
  let bytes (x : BitVec 256) : List Byte := leBytes 32 x.toNat
  { s with pkg := { s.pkg with slots := s.pkg.slots.set k (Config.sha256 (bytes s.pkg.slots[k] ++ bytes (Config.sha256 item))) } }

/-- A target word (R458). -/
def MbTarget.word (t : MbTarget) : Word := (t.space ++ 0#9 ++ t.die ++ 0#2 ++ t.pclu ++ 0#8 ++ t.index : BitVec 64)

/-- The item of a configuration write: its target word and its value. -/
def writeItem (t : MbTarget) (v : Word) : List Byte := bytesOf (MbTarget.word t) ++ bytesOf v

/-- What the host has written as another cluster's compartment (R436). -/
def State.cmptOf (s : State) (c : BitVec 9) : BitVec 6 :=
  ((s.pkg.cmpts.find? fun x : BitVec 9 × BitVec 6 => x.1 == c).map fun x => x.2).getD 0
def State.setCmpt (s : State) (c : BitVec 9) (k : BitVec 6) : State :=
  { s with pkg := { s.pkg with cmpts := (c, k) :: s.pkg.cmpts.filter fun x : BitVec 9 × BitVec 6 => x.1 != c } }

/-- What the host has written of another cluster's partition and share (R192). -/
def State.shareOf (s : State) (c : BitVec 9) : BitVec 24 × BitVec 13 :=
  ((s.pkg.shares.find? fun x : BitVec 9 × BitVec 24 × BitVec 13 => x.1 == c).map fun x => x.2).getD (0, 0)
def State.setShare (s : State) (c : BitVec 9) (p : BitVec 24) (q : BitVec 13) : State :=
  { s with pkg := { s.pkg with shares := (c, p, q) :: s.pkg.shares.filter fun x : BitVec 9 × BitVec 24 × BitVec 13 => x.1 != c } }

/-! ## Events to the host (R455, R459) -/

/-- A ring with 64 events that are not consumed is full. -/
def Mailbox.full (m : Mailbox) : Bool := m.evTail - m.evHead == 64

/-- Puts an event in a ring that has room. -/
def Mailbox.put (m : Mailbox) (e : HostEv) : Mailbox :=
  { m with ring := m.ring.set (Fin.ofNat 64 m.evTail.toNat) e, evTail := m.evTail + 1 }

/-- Posts an event to one ring, or keeps it waiting. -/
def Mailbox.post (m : Mailbox) (e : HostEv) : Mailbox :=
  if m.full || !m.waiting.isEmpty then { m with waiting := m.waiting ++ [e] } else m.put e

/-- Word 0 of a host event. -/
def hostWord0 (kind : BitVec 8) (code : Code) (seq : BitVec 16) : Word := (kind ++ code ++ seq ++ 0#32 : BitVec 64)

/-- A posting to an empty ring signals MSI-X vector 0. -/
def State.msix (s : State) (port : Bool) (before after : Mailbox) : State :=
  if before.evHead == before.evTail && after.evTail != before.evTail then s.emit (outMsg .msix 0 (if port then 1 else 0) 0 0 []) else s

/-- Posts an event to the ring of every port; a bare die has one (R456). -/
def State.postHost (s : State) (kind : BitVec 8) (code : Code) (a b : Word) : State :=
  let e : HostEv := { w0 := hostWord0 kind code s.pkg.hostSeq, w1 := a, w2 := b }
  let old := s.pkg.mail
  let new := Vector.ofFn fun i : Fin 2 => if s.pkg.bare && i == 1 then old[i] else old[i].post e
  (({ s with pkg := { s.pkg with mail := new, hostSeq := s.pkg.hostSeq + 1 } }).msix false old[0] new[0]).msix true old[1] new[1]

/-- Lets `n` waiting events into a ring, as far as it has room. -/
def Mailbox.refill : Nat → Mailbox → Mailbox
  | 0, m => m
  | n + 1, m =>
    match m.waiting with
    | [] => m
    | e :: es => if m.full then m else Mailbox.refill n ({ m with waiting := es }.put e)

/-- The register number of a port. -/
def portIdx (port : Bool) : Fin 2 := if port then 1 else 0

def State.setMail (s : State) (i : Fin 2) (m : Mailbox) : State := { s with pkg := { s.pkg with mail := s.pkg.mail.set i m } }

/-- A write of `evhead` (R459): a value outside the range from the old head to the tail is ignored. -/
def State.headWrite (s : State) (port : Bool) (value : Word) : State :=
  let m := s.pkg.mail[portIdx port]
  let head := value.extractLsb' 0 7
  if !zeroAt value 7 57 || decide ((m.evTail - m.evHead).toNat < (head - m.evHead).toNat) then s
  else
    let m1 := { m with evHead := head }
    let m2 := Mailbox.refill m1.waiting.length m1
    (s.setMail (portIdx port) m2).msix port m1 m2

/-! ## Commands (R454, R458) -/

/-- The mailbox takes up a command: it has opened (R460), and every earlier one has been answered (R455). -/
def State.mbReady (s : State) : Bool := s.pkg.boot == .open && !s.pkg.mbBusy && !s.agenda.contains .mbNext

/-- A command is carried out and not yet answered. -/
def State.busy (s : State) : State := { s with pkg := { s.pkg with mbBusy := true } }

/-- A mailbox command: held until the mailbox takes it up. -/
def State.mailbox (s : State) (cmd : MbCmd) (run : State → Out) : Out :=
  if s.mbReady then run s.busy else .next { s with mbHeld := s.mbHeld ++ [cmd] }

/-- An answer: op, the sequence number that the command's header word carries, status, and result words (R454). The next command in
arrival order is taken up then. -/
def State.hostAnswer (s : State) (op : BitVec 8) (code : Code) (results : List Word) : State :=
  let i := s.pkg.mbCur
  let seq : BitVec 8 := (s.pkg.mail[i].cmd.getD 0 0).extractLsb' 48 8
  let w : Word := (op ++ seq ++ code ++ 0#40 : BitVec 64)
  let ans := (w :: results) ++ List.replicate (15 - results.length) 0
  let m := { s.pkg.mail[i] with ans, door := false }
  let s1 := ({ s with pkg := { s.pkg with mail := s.pkg.mail.set i m, mbBusy := false, mbCur := 0 } }).emit
    { outMsg .hostAnswer 0 0 0 code (w :: results) with addr := w }
  if s.mbHeld.isEmpty then s1 else s1.push .mbNext

/-- The answer of a command without results. -/
def State.answer (s : State) (op : BitVec 8) (code : Code) : Out := .next (s.hostAnswer op code [])

/-- A command that another cluster carries out; what it measures and records waits for its answer. -/
def State.forwardWith (s : State) (op : BitVec 8) (t : Word) (ws : List Word) (items : List (Fin 8 × List Byte))
    (note : Option (MbTarget × Word)) : State :=
  ({ s with nextRid := s.nextRid + 1, pkg := { s.pkg with mbBusy := true, mbFwd := some { rid := s.nextRid, op, items, note } } }).emit
    (outMsg .mbForward 0 t s.nextRid op (t :: ws))
def State.forward (s : State) (op : BitVec 8) (t v : Word) : State := s.forwardWith op t [v] [] none

/-- What an accepted write says of another cluster's partition, share of the hold queue or compartment (R192, R436). -/
def State.noted (s : State) (t : MbTarget) (v : Word) : State :=
  let c := t.die ++ t.pclu
  let old := s.shareOf c
  if t.space != 6 then s
  else if t.index == 0x101 then s.setShare c (v.extractLsb' 0 24) old.2
  else if t.index == 0x106 then s.setShare c old.1 (v.extractLsb' 0 13)
  else if t.index == 0x107 then s.setCmpt c (v.extractLsb' 0 6)
  else s

/-- Another cluster's answer to a command that was passed on to it: the host's answer. -/
def State.forwardAnswer (s : State) (rid : Nat) (code : Code) (results : List Word) : State :=
  match s.pkg.mbFwd with
  | none => s
  | some f =>
    if f.rid != rid then s
    else
      let s1 := { s with pkg := { s.pkg with mbFwd := none } }
      if code != 0 then s1.hostAnswer f.op code []
      else
        let s2 := f.items.foldl (fun (st : State) (x : Fin 8 × List Byte) => st.extend x.1 x.2) s1
        (match f.note with
         | some n => s2.noted n.1 n.2
         | none => s2).hostAnswer f.op 0 results

/-! ### The operand words (R458) -/

/-- A target word, where its reserved bits are zero and its space is one. -/
def targetOf (w : Word) : Option MbTarget :=
  let t : MbTarget := { space := w.extractLsb' 60 4, die := w.extractLsb' 48 3, pclu := w.extractLsb' 40 6, index := w.extractLsb' 0 32 }
  if zeroAt w 51 9 && zeroAt w 46 2 && zeroAt w 32 8 && decide (1 ≤ t.space.toNat) && decide (t.space.toNat ≤ 8) then some t else none

/-- A word that names a cluster in [50:48] and [45:40]; its other bits that are not in `rest` are zero. -/
def clusterWordOk (w rest : Word) : Bool := w &&& ~~~(0x00073F0000000000#64 ||| rest) == 0
def dieOf (w : Word) : BitVec 3 := w.extractLsb' 48 3
def pcluOf (w : Word) : BitVec 6 := w.extractLsb' 40 6

/-- The security command of sub `w 0`, with `nw` operand words and what the buffers in host memory hold. -/
def securityCmd (nw : Nat) (w : Nat → Word) (host : List Byte) : MbCmd :=
  let world := (w 0).extractLsb' 0 24
  let ckey := (w 1).extractLsb' 0 6
  let keyOnly := zeroAt (w 1) 6 58
  if !zeroAt (w 0) 24 32 then .bad 3
  else
    match ((w 0).extractLsb' 56 8).toNat with
    | 1 => if nw == 2 && zeroAt (w 1) 6 2 && zeroAt (w 1) 9 55 then .create world ckey (if (w 1).getLsbD 8 then .weight else .data) else .bad 3
    | 2 => if nw == 2 && keyOnly then .destroy world ckey else .bad 3
    | 3 => if nw == 3 && keyOnly then .keyLoad world ckey (host.take 1088) ((host.drop 1088).take 72) else .bad 3
    | 4 => if nw == 3 && zeroAt (w 1) 4 60 then .gate world ((w 1).extractLsb' 0 4).toFin (w 2) else .bad 3
    | 5 => if nw == 4 then .evidence world (BitVec.ofNat 256 (leNat (host.take 32))) (w 2) (w 3).toNat else .bad 3
    | 6 =>
      if nw == 3 && decide ((w 1).toNat ≤ 16) then
        .peers ((List.range (w 1).toNat).map fun i => BitVec.ofNat 256 (leNat ((host.drop (32 * i)).take 32)))
      else .bad 3
    | 7 =>
      if nw == 5 && clusterWordOk (w 3) 0 then
        .handOver (host.take (w 2).toNat) { oa := w 4, die := dieOf (w 3), pclu := pcluOf (w 3) } world
      else .bad 3
    | _ => .bad 3

/-- The power command of an operand word. -/
def powerOf (w : Word) : MbCmd :=
  let f := w.extractLsb' 0 12
  if !clusterWordOk w 0x3000FFF#64 then .bad 4
  else
    match (w.extractLsb' 24 2).toNat with
    | 0 => .powerRun (dieOf w) (pcluOf w) f
    | 1 => .powerHold (dieOf w) (pcluOf w) f
    | 2 => .powerOff (dieOf w) (pcluOf w) f
    | _ => .bad 4

/-- An export or import. -/
def pageCmd (w : Nat → Word) (host : List Byte) : MbCmd :=
  let c : CkeyAt := { ckey := (w 1).extractLsb' 58 6, die := dieOf (w 0), pclu := pcluOf (w 0) }
  let vpn := (w 1).extractLsb' 0 17
  if !clusterWordOk (w 0) 1 || !zeroAt (w 1) 17 41 || (w 2).toNat % 64 != 0 then .bad 5
  else if (w 0).getLsbD 0 then (if zeroAt (w 3) 16 48 then .importPage c vpn (host.take 67712) ((w 3).extractLsb' 0 16) else .bad 5)
  else if w 3 == 0 then .exportPage c vpn (w 2)
  else .bad 5

/-- The command that the registers of a port hold (R454, R458); one outside the layouts is `bad`. -/
def Mailbox.command (m : Mailbox) (host : List Byte) : MbCmd :=
  let h := m.cmd.getD 0 0
  let op := h.extractLsb' 56 8
  let nw := (h.extractLsb' 40 8).toNat
  let w (i : Nat) : Word := m.cmd.getD (i + 1) 0
  if !zeroAt h 0 40 then .bad op
  else
    match op.toNat with
    | 1 =>
      let k := ((w 1).extractLsb' 32 2).toNat
      if nw != 2 || !zeroAt (w 1) 34 6 then .bad op
      else if k == 1 then .evict (w 0) ((w 1).extractLsb' 0 32) ((w 1).extractLsb' 40 24)
      else if k == 2 then .restore (w 0) ((w 1).extractLsb' 0 32) ((w 1).extractLsb' 40 24)
      else .bad op
    | 2 => if nw != 2 then .bad op else ((targetOf (w 0)).map fun t => MbCmd.hostReg t (w 1)).getD (.bad op)
    | 3 => securityCmd nw w host
    | 4 => if nw != 1 then .bad op else powerOf (w 0)
    | 5 => if nw != 4 then .bad op else pageCmd w host
    | 6 => if nw != 1 || !zeroAt (w 0) 18 46 then .bad op else .declareLost ((w 0).extractLsb' 0 18)
    | 7 => if nw != 1 then .bad op else ((targetOf (w 0)).map MbCmd.regRead).getD (.bad op)
    | 8 =>
      if nw != 2 || !zeroAt (w 1) 4 36 then .bad op else .region (w 0) ((w 1).extractLsb' 40 24) ((w 1).extractLsb' 0 4)
    | _ => .bad op

/-- The buffer in host memory that a command has the device read, with its length. -/
def Mailbox.buffer (m : Mailbox) : Option (Word × Nat) :=
  let h := m.cmd.getD 0 0
  let w (i : Nat) : Word := m.cmd.getD (i + 1) 0
  match (h.extractLsb' 56 8).toNat, ((w 0).extractLsb' 56 8).toNat with
  | 3, 3 => some (w 2, 1160)
  | 3, 5 => some (w 1, 32)
  | 3, 6 => some (w 2, 32 * (w 1).toNat)
  | 3, 7 => some (w 1, (w 2).toNat)
  | 5, _ => if (w 0).getLsbD 0 then some (w 2, 67712) else none
  | _, _ => none

/-! ### The registers (R457) -/

/-- Word `k` of an event-ring entry. -/
def HostEv.word (e : HostEv) : Nat → Word
  | 0 => e.w0
  | 1 => e.w1
  | 2 => e.w2
  | _ => 0

/-- What a read of the capability gives; an offset that is not listed reads 0. -/
def Mailbox.word (m : Mailbox) (off : Nat) : Word :=
  if off % 8 != 0 then 0
  else if 0x10 ≤ off && off < 0x90 then m.cmd.getD ((off - 0x10) / 8) 0
  else if off == 0x90 then (if m.door then 1 else 0)
  else if 0xA0 ≤ off && off < 0x120 then m.ans.getD ((off - 0xA0) / 8) 0
  else if off == 0x120 then m.evHead.setWidth 64
  else if off == 0x128 then m.evTail.setWidth 64
  else if 0x130 ≤ off && off < 0x930 then m.ring[Fin.ofNat 64 ((off - 0x130) / 32)].word ((off - 0x130) % 32 / 8)
  else 0

/-- The host submits what the registers of a port hold: it waits its turn, and go reads 1 until its answer. -/
def State.submit (s : State) (i : Fin 2) (host : List Byte) : State :=
  let m := s.pkg.mail[i]
  let s1 := { s.setMail i { m with door := true } with mbHeld := s.mbHeld ++ [.via i (m.command host)] }
  let s2 := match m.buffer with
    | some b => s1.emit (outMsg .hostRead 0 b.1 0 0 [BitVec.ofNat 64 b.2])
    | none => s1
  if s.mbReady then s2.push .mbNext else s2

/-- A write of a register of the capability; one of `mbcmd` while go reads 1, and one of an offset that is not listed, is ignored. -/
def State.mailWrite (s : State) (port : Bool) (off : Nat) (value : Word) (host : List Byte) : State :=
  let i := portIdx port
  let m := s.pkg.mail[i]
  if off == 0x120 then s.headWrite port value
  else if off == 0x90 then (if value.getLsbD 0 && !m.door then s.submit i host else s)
  else if off % 8 == 0 && decide (0x10 ≤ off) && decide (off < 0x90) && !m.door then
    s.setMail i { m with cmd := m.cmd.set ((off - 0x10) / 8) value }
  else s

/-- EVHEAD_WRITE (R457, R459): the host at the mailbox registers of a port; a bare die has one port (R456). -/
def execEvheadWrite (port : Bool) (acc : DvsecAccess) (s : State) : Out :=
  if port && s.pkg.bare then .next s
  else
    match acc with
    | .write off value host => .next (s.mailWrite port off value host)
    | .read off => .next (s.emit (outMsg .cfgRead 0 (BitVec.ofNat 64 off) (portIdx port).val 0 [s.pkg.mail[portIdx port].word off]))

/-- The host as a requester, for the mailbox command `op`. -/
def hostReq (op : Nat) : Requester :=
  { remote := true, lcell := 0x7FFF#15, place := 0, ptn := 0, cmpt := 0, engine := true, rid := op, rcb := 0 }


end Sys2Proof.Machine
end

