-- ==== Sys2Proof/Machine/Region.lean ====
section
/-!
DEFINITION. Regions at the home (R196 to R205): the control block and its ancestors, launch, install, pause, resume and end, and the
budgets, grants and counts of R203.
-/
namespace Sys2Proof.Machine

/-! ## Reading control blocks and images -/

/-- The outcome of a home's reading: a refusal, a line of another cluster that is needed, a TLB miss, or a held line. -/
inductive Home (α : Type) where
  | ok (a : α)
  | bad (c : Code)
  | need (addr : Word)
  | miss (oa : Nat) (kind : AccKind)
  /-- a host holds a half of the line at this own-space address (R433) -/
  | snoop (line oa : Nat)
  /-- the command waits; at a port, for the access at this own-space address -/
  | hold (oa : Option Nat)

def Home.bind {α β : Type} (x : Home α) (f : α → Home β) : Home β :=
  match x with
  | .ok a => f a
  | .bad c => .bad c
  | .need a => .need a
  | .miss oa k => .miss oa k
  | .snoop l oa => .snoop l oa
  | .hold oa => .hold oa

def Home.need? (b : Bool) (c : Code) : Home Unit := if b then .ok () else .bad c

def Chk.home {α : Type} (oa : Nat) (kind : AccKind) : Chk α → Home α
  | .ok a => .ok a
  | .fault c _ => if c == 0x0C then .hold none else .bad c
  | .miss => .miss oa kind
  | .snoop l => .snoop l oa
  | .wait => .hold (some oa)

/-- Lines that a command has read from other clusters. -/
abbrev Lines := List (Word × List Byte)

/-- A line of the pod: at the home's own port, or among those read. -/
def State.homeLine (s : State) (got : Lines) (a : Word) : Home (List Byte) :=
  if !formOk a then .bad 0x03
  else if s.isHere a then
    (Chk.home (oaOf a) .engRead (s.checkPort s.deviceReq .engRead (oaOf a))).bind fun site => .ok (s.view site 128)
  else
    match got.find? fun e : Word × List Byte => e.1 == a with
    | some e => .ok e.2
    | none =>
      match s.placeFault a with
      | some c => .bad c
      | none => .need a

/-- `n` lines from an address. -/
def State.homeLines (s : State) (got : Lines) (a : Word) : Nat → Home (List Byte)
  | 0 => .ok []
  | n + 1 => (s.homeLine got a).bind fun l => (s.homeLines got (a + 128) n).bind fun r => .ok (l ++ r)

/-! ## The control block (R196, R197) -/

/-- A control block: its pod address and its words 0 to 15. -/
structure Rcb where
  addr  : Word
  words : List Word
  deriving DecidableEq, Repr

def Rcb.w (r : Rcb) (i : Nat) : Word := r.words.getD i 0
def Rcb.state (r : Rcb) : BitVec 2 := (r.w 0).extractLsb' 62 2
def Rcb.parent (r : Rcb) : Word := r.w 1
def Rcb.rect (r : Rcb) : BitVec 32 := (r.w 11).extractLsb' 0 32
def Rcb.nmsg (r : Rcb) : Nat := ((r.w 10).extractLsb' 16 16).toNat
def Rcb.nrec (r : Rcb) : Nat := ((r.w 10).extractLsb' 0 16).toNat

/-- The control block at an address, in the DRAM window. -/
def State.rcbAt (s : State) (got : Lines) (a : Word) : Home Rcb :=
  if oaOf a % 256 != 0 || decide (0x200000000 ≤ oaOf a) then .bad 0x05
  else (s.homeLine got a).bind fun l => .ok { addr := a, words := wordsOf 16 l }

/-- The region and its ancestors, at most eight (R197). -/
def State.rcbChain (s : State) (got : Lines) (a : Word) : Nat → Home (List Rcb)
  | 0 => .bad 0x05
  | n + 1 =>
    (s.rcbAt got a).bind fun r =>
      if r.parent == 0 then .ok [r] else (s.rcbChain got r.parent n).bind fun rest => .ok (r :: rest)

/-- The reserved fields and ranges of R196 that launch checks. -/
def Rcb.fieldsOk (r : Rcb) : Bool :=
  let w := r.w
  zeroAt (w 0) 48 14 && decide (((w 0).extractLsb' 44 4).toNat ≤ 8) && decide (((w 0).extractLsb' 37 7).toNat ≤ 64) &&
  decide (((w 0).extractLsb' 31 6).toNat ≤ 32) && zeroAt (w 0) 0 31 && zeroAt (w 4) 32 31 && zeroAt (w 5) 32 32 &&
  zeroAt (w 6) 39 25 && zeroAt (w 6) 33 1 && zeroAt (w 6) 0 9 && decide (((w 6).extractLsb' 34 5).toNat ≤ 16) &&
  zeroAt (w 7) 34 14 && zeroAt (w 7) 33 1 && zeroAt (w 7) 0 7 && isOwn (w 8) && zeroAt (w 9) 0 7 && zeroAt (w 10) 32 32 &&
  zeroAt (w 11) 32 31 && zeroAt (w 15) 32 32

/-- The first nonzero value of a field along the chain. -/
def inherit (f : Rcb → Nat) (d : Nat) : List Rcb → Nat
  | [] => d
  | r :: rs => if f r != 0 then f r else inherit f d rs

/-- The address of the nearest control block whose flag is 1, else 0. -/
def payerIn (word : Nat) : List Rcb → Word
  | [] => 0
  | r :: rs => if (r.w word).getLsbD 63 then r.addr else payerIn word rs

/-- The rectangle of a chain: the nearest one given, else the single cell (0, 0). -/
def rectOfChain : List Rcb → BitVec 32
  | [] => 0
  | r :: rs => if (r.w 11).getLsbD 63 then r.rect else rectOfChain rs

/-- The fields as launch resolves them (R197). -/
def resolveInfo (rcb : Word) (chain : List Rcb) : RegInfo :=
  let w6 := inherit (fun r => (r.w 6).toNat) 0 chain
  { rcb
    pri := BitVec.ofNat 3 (inherit (fun r => ((r.w 0).extractLsb' 44 4).toNat) 1 chain - 1)
    ctlc := BitVec.ofNat 6 (inherit (fun r => ((r.w 0).extractLsb' 37 7).toNat) 63 chain - 1)
    trapc := BitVec.ofNat 5 (inherit (fun r => ((r.w 0).extractLsb' 31 6).toNat) 2 chain - 1)
    trot := inherit (fun r => ((r.w 5).extractLsb' 16 16).toNat) 20 chain
    tfar := inherit (fun r => ((r.w 5).extractLsb' 0 16).toNat) 5000 chain
    nfr := w6 / 2 ^ 34 % 32
    save := BitVec.ofNat 64 (w6 % 2 ^ 34)
    sump := BitVec.ofNat 64 ((chain.head?.map fun r => (r.w 7).toNat % 2 ^ 34).getD 0)
    slines := inherit (fun r => ((r.w 7).extractLsb' 48 16).toNat) 0 chain
    evsave := BitVec.ofNat 64 (inherit (fun r => (r.w 8).toNat) 0 chain)
    rect := rectOfChain chain
    payA := payerIn 2 chain
    payC := payerIn 3 chain
    payS := payerIn 4 chain
    chain := chain.map Rcb.addr }

/-- Whether one rectangle lies inside another. -/
def Rect.inside (a b : Rect) : Bool := decide (b.x0 ≤ a.x0) && decide (a.x1 ≤ b.x1) && decide (b.y0 ≤ a.y0) && decide (a.y1 ≤ b.y1)

/-- The checks of R201 step 1 on the control blocks. -/
def State.launchOk (s : State) (chain : List Rcb) (info : RegInfo) : Bool :=
  chain.all Rcb.fieldsOk && s.cl.rectOk (rectOf info.rect) &&
  (decide (chain.length ≤ 1) || (rectOf info.rect).inside (rectOf (rectOfChain chain.tail))) &&
  decide (info.trot ≤ 60000) && decide (info.tfar ≤ 60000)

/-! ## Writing control blocks -/

/-- Writes words of a control block from an offset, as the home does. -/
def State.rcbPut (s : State) (rcb : Word) (off : Nat) (ws : List Word) : Home State :=
  let oa := oaOf rcb + off
  let d := wordsData (plainWords ws)
  (Chk.home oa .engWrite (s.checkWrite s.deviceReq .engWrite oa d)).bind fun site => .ok (s.perform site oa d)

/-- As `rcbPut`, for a block that has just been read; a page that refuses the write is left as it is. -/
def State.rcbWrite (s : State) (rcb : Word) (off : Nat) (ws : List Word) : State :=
  match s.rcbPut rcb off ws with
  | .ok t => t
  | _ => s

/-- A word of a control block as it stands. -/
def State.rcbWord (s : State) (rcb : Word) (i : Nat) : Word :=
  match s.rcbAt [] rcb with
  | .ok r => r.w i
  | _ => 0

/-- The state field of a control block (R200). -/
def State.setRcbState (s : State) (r : Rcb) (st : BitVec 2) : State :=
  s.rcbWrite r.addr 0 [(st ++ (r.w 0).extractLsb' 0 62 : BitVec 64)]

/-! ## Replies and events -/

/-- The answer to a region command: to the mailbox, to a slot's message, or out; a command that has been carried out lands (R188). -/
def State.cmdReply (s : State) (who : Requester) (rcb : Word) (tok : BitVec 24) (code : Code) : State :=
  if isHost who then s.hostAnswer (BitVec.ofNat 8 who.rid) code []
  else if code == 0 then s.replyPos who rcb tok
  else s.replyNeg who rcb code

/-- The region event of R202: to the event queue of the parent's cluster, or to the host for a root region. -/
def State.regionEvent (s : State) (rcb parent user : Word) (reason : BitVec 8) (code : Code) : State :=
  let w3 : Word := (0#48 ++ code ++ reason : BitVec 64)
  if parent == 0 then s.postHost 0x01 code rcb w3
  else if s.isHere parent then s.postEvent 0x03 code 0x7FFF#15 user rcb w3
  else s.emit (outMsg .regionTell (prefixOf parent) rcb 0x03 code [user, rcb, w3])

/-- The logical places of the grid that a rectangle covers, other than this cluster. -/
def State.tellPlaces (s : State) (rect : BitVec 32) : List Word := s.rectOthers (rectOf rect)

/-- Tells the homes of the other clusters of a rectangle; `k` is the command. -/
def State.tellOthers (s : State) (rcb : Word) (rect : BitVec 32) (k : Nat) : State :=
  (s.tellPlaces rect).foldl (fun (st : State) (p : Word) => st.emit (outMsg .regionTell p rcb k 0 [rect.setWidth 64])) s

/-- The index of a region in a cell's table. -/
def CellRegs.regOf (c : CellRegs) (rcb : Word) : Option (Fin 8) :=
  (List.finRange 8).find? fun r => c.regs[r].v && c.regs[r].info.rcb == rcb

/-- Changes the tables of a cell that hold a region. -/
def CellRegs.mapRegion (c : CellRegs) (rcb : Word) (f : Fin 8 → CellRegs → CellRegs) : CellRegs :=
  match c.regOf rcb with
  | some r => f r c
  | none => c

/-- Changes the tables of the cluster's other cells that hold a region, those of evicted ones as they are saved (R406). -/
def State.mapOthers (s : State) (rcb : Word) (f : Fin 8 → CellRegs → CellRegs) : State :=
  { s with cells := Vector.ofFn fun n : Fin 64 => if n == s.self then s.cells[n] else s.cells[n].mapRegion rcb f,
           saved := s.saved.map fun v : SavedCell => if v.cell == s.self then v else { v with regs := v.regs.mapRegion rcb f } }

/-! ## Install (R198, R201, R205) -/

/-- A scratchpad binding that launch accepts. -/
def bindingOk (b : BitVec 32) : Bool :=
  decide ((b.extractLsb' 20 12).toNat ≤ 2048) && b.extractLsb' 11 9 == 0 &&
  decide ((b.extractLsb' 0 11).toNat + (b.extractLsb' 20 12).toNat ≤ 2048)

/-- What R205 and R201 refuse of a handler record. -/
def recordOk (r : InstallRec) : Bool :=
  decide ((r.e0.extractLsb' 52 4).toNat ≤ 8) && zeroAt r.e0 34 16 && zeroAt r.e0 0 2 &&
  bindingOk (r.e1.extractLsb' 0 32) && bindingOk (r.e1.extractLsb' 32 32) && bindingOk (r.e2.extractLsb' 0 32) &&
  bindingOk (r.e2.extractLsb' 32 32) && (decide (r.chan.toNat < 29) || r.chan == 30)

/-- The handler entry that a record writes: a valid one, whatever bit 63 of its E0 is (DESIGN CHOICE, log 95). -/
def handlerOf (r : InstallRec) (reg : Fin 8) : Handler :=
  { v := true, mask := r.e0.getLsbD 62, pri := r.e0.extractLsb' 59 3, reg, len := r.e0.extractLsb' 52 4,
    lim := r.e0.extractLsb' 50 2, entry := r.e0.extractLsb' 0 34,
    sc := Vector.ofFn fun i : Fin 4 => (if i.val < 2 then r.e1 else r.e2).extractLsb' (32 * (i.val % 2)) 32 }

/-- Installs a record in one cell. -/
def CellRegs.install (c : CellRegs) (r : InstallRec) : Option CellRegs :=
  let chan := r.chan.toFin
  if c.handlers[chan].v then none
  else
    match c.regOf r.info.rcb with
    | some k => some { c with handlers := c.handlers.set chan (handlerOf r k), ended := c.ended &&& ~~~(1#32 <<< r.chan.toNat) }
    | none =>
      match (List.finRange 8).find? fun k => !c.regs[k].v with
      | none => none
      | some k =>
        some { c with regs := c.regs.set k { RegEntry.reset with v := true, info := r.info },
                      handlers := c.handlers.set chan (handlerOf r k),
                      ended := c.ended &&& ~~~(1#32 <<< r.chan.toNat) }

/-- The cells of this cluster in a rectangle. -/
def State.cellsIn (s : State) (rect : BitVec 32) : List (Fin 64) :=
  (List.finRange 64).filter fun n => (rectOf rect).holds (s.coords n).1 (s.coords n).2

/-- Whether a page of a block is one of the DRAM window with rd and w (R198). -/
def State.blockPage (s : State) (oa : Nat) : Home Unit :=
  if 0x200000000 ≤ oa then .bad 0x05
  else
    match s.cl.translate oa with
    | .hit _ a _ _ => Home.need? (a.rd && a.w) 0x05
    | .fault => .bad 0x05
    | .miss => .miss oa .engWrite

/-- The pages of a block, `n` of them. -/
def State.blockPages (s : State) (oa : Nat) : Nat → Home Unit
  | 0 => .ok ()
  | n + 1 => (s.blockPage oa).bind fun _ => s.blockPages (oa / 0x10000 * 0x10000 + 0x10000) n

/-- A block of `len` bytes in whole. -/
def State.blockOk (s : State) (oa len : Nat) : Home Unit :=
  if len == 0 then .ok ()
  else if 0x200000000 < oa + len then .bad 0x05
  else s.blockPages oa ((oa % 0x10000 + len + 0xFFFF) / 0x10000)

/-- The blocks of the save area and the sump of a cell. -/
def State.cellBlocks (s : State) (info : RegInfo) (n : Fin 64) : Home Unit :=
  (if info.save == 0 then .ok () else s.blockOk (saveBlock info n) (512 * (1 + info.nfr))).bind fun _ =>
    s.blockOk (info.sump.toNat + 128 * info.slines * n.val) (128 * info.slines)

/-- The blocks of every cell that a record names. -/
def State.recordBlocks (s : State) (info : RegInfo) : List (Fin 64) → Home Unit
  | [] => .ok ()
  | n :: ns => (s.cellBlocks info n).bind fun _ => s.recordBlocks info ns

/-- Writes a record into the cells that it names. -/
def State.installCells (s : State) (r : InstallRec) : List (Fin 64) → Option State
  | [] => some s
  | n :: ns =>
    if !s.cl.present n then none
    else
      match s.cells[n].install r with
      | none => none
      | some c => (s.setCell n c).installCells r ns

/-- Installs one record at this home. -/
def State.installHere (s : State) (r : InstallRec) : Home State :=
  (Home.need? (recordOk r) 0x05).bind fun _ =>
    (s.recordBlocks r.info (s.cellsIn r.rect)).bind fun _ =>
      match s.installCells r (s.cellsIn r.rect) with
      | some s1 => .ok s1
      | none => .bad 0x05

def State.installAll (s : State) : List InstallRec → Home State
  | [] => .ok s
  | r :: rs => (s.installHere r).bind fun s1 => s1.installAll rs

/-- Takes a region's entries out of a cell's tables. -/
def CellRegs.clearRegion (c : CellRegs) (k : Fin 8) (ended : Bool) : CellRegs :=
  let had := BitVec.ofNat 32 ((List.finRange 32).foldl (fun n i => if c.handlers[i].v && c.handlers[i].reg == k then n + 2 ^ i.val else n) 0)
  { c with handlers := Vector.ofFn fun i : Fin 32 => if c.handlers[i].v && c.handlers[i].reg == k then Handler.reset else c.handlers[i],
           regs := c.regs.set k RegEntry.reset, ended := if ended then c.ended ||| had else c.ended }

/-- Clears what a launch has written at this home (R201 step 2). -/
def State.clearLaunch (s : State) (rcb : Word) : State :=
  { s with cells := Vector.ofFn fun n : Fin 64 =>
      match s.cells[n].regOf rcb with
      | some k => s.cells[n].clearRegion k false
      | none => s.cells[n] }

/-- HANDLER_INSTALL (R201 step 2): a record from the home of another cluster. -/
def execHandlerInstall (record : InstallRec) (who : Requester) (s : State) : Out :=
  if s.stopsFor who then .next (s.hold (.install record who)) else
  match s.turnsAway who with
  | some c => .next (s.emit (outMsg .negReply who.place record.info.rcb who.rid c []))
  | none =>
  match s.installHere record with
  | .ok s1 => .next ((s1.unblock).emit (outMsg .posReply who.place record.info.rcb who.rid 0 []))
  | .bad c => .next (s.emit (outMsg .negReply who.place record.info.rcb who.rid c []))
  | .miss oa kind => .next (s.missWait oa kind s.deviceReq (.refuseAs 0x05 (.install record who)))
  | .snoop line oa => .next ((s.sendSnoop line).holdAt oa (.install record who))
  | .hold oa => .next (s.holdIf oa (.install record who))
  | .need _ => .next (s.hold (.install record who))

/-! ## Launch (R201) -/

/-- The handler records of an image, with their reserved bits checked. -/
def recordsOf (info : RegInfo) (n : Nat) (bs : List Byte) : List (InstallRec × Bool) :=
  (List.range n).map fun i =>
    let w (k : Nat) : Word := wordOf ((bs.drop (32 * i + 8 * k)).take 8)
    let e0 := if (w 0).getLsbD 37 then (w 1) &&& ~~~(7#64 <<< 59) ||| (info.pri.setWidth 64 <<< 59) else w 1
    ({ info, rect := (w 0).extractLsb' 0 32, chan := (w 0).extractLsb' 32 5, e0, e1 := w 2, e2 := w 3 }, zeroAt (w 0) 38 26)

/-- A message from a sump line's or an initial record's bytes (R207, R212). -/
def msgOfLine (bs : List Byte) : Msg :=
  let w (k : Nat) : Word := wordOf ((bs.drop (8 * k)).take 8)
  let h0 := w 0
  { kind := if h0.extractLsb' 62 2 == 0 then .data else if h0.extractLsb' 62 2 == 1 then .rcmd else .notice,
    chan := h0.extractLsb' 53 5, spw := h0.getLsbD 52, held := h0.getLsbD 51, src := h0.extractLsb' 30 15,
    dst := h0.extractLsb' 15 15, spkg := (w 1).extractLsb' 46 18, tok := (w 1).extractLsb' 0 24,
    words := (List.range (h0.extractLsb' 58 4).toNat).map fun i => { val := w (2 + i), tag := h0.getLsbD i } }

/-- The initial messages of an image, and whether their headers are accepted. -/
def State.initialMsgs (s : State) (n : Nat) (bs : List Byte) : List Msg × Bool :=
  let line (i : Nat) : List Byte := (bs.drop (128 * i)).take 128
  ((List.range n).map fun i => { msgOfLine (line i) with src := 0x7FFF#15, spkg := s.cl.place.extractLsb' 45 18 },
   (List.range n).all fun i => decide ((wordOf ((line i).take 8)).toNat / 2 ^ 62 = 0) &&
     decide (((wordOf ((line i).take 8)).extractLsb' 58 4).toNat ≤ 8))

/-- Sends a message of the home to its destination cell. -/
def State.homeMsg (s : State) (m : Msg) : State :=
  if m.dst.extractLsb' 6 9 == s.lclu then
    let n : Fin 64 := (m.dst.extractLsb' 0 6).toFin
    if n == s.self then s.push (.message { who := s.deviceReq, msg := m, tok := 0 })
    else s.emit { outMsg .message s.cl.place (BitVec.ofNat 64 n.val) 0 0 [] with
      chan := m.chan, words := plainWords [msgH0 m, msgH1 m] ++ m.words }
  else s.emit { outMsg .message (1#1 ++ m.spkg ++ m.dst.extractLsb' 6 9 ++ 0#36 : BitVec 64) 0 0 0 [] with
    chan := m.chan, words := plainWords [msgH0 m, msgH1 m] ++ m.words }

/-- A launch that fails leaves the region idle (R200). -/
def State.launchFails (s : State) (l : Launch) (code : Code) : State :=
  let s1 := l.places.foldl (fun (st : State) (p : Word) => st.emit (outMsg .regionTell p l.rcb 0 0 [])) (s.clearLaunch l.rcb)
  (s1.regionEvent l.rcb l.parent l.user 4 code).cmdReply l.who l.rcb l.tok code

/-- State and counters of a region that has been launched (R201 step 3). -/
def State.markLaunched (s : State) (rcb : Word) : Home State :=
  (s.rcbAt [] rcb).bind fun r =>
    (s.rcbPut rcb 0 [(1#2 ++ (r.w 0).extractLsb' 0 62 : BitVec 64)]).bind fun s1 => s1.rcbPut rcb 104 [0, 0, 0]

/-- Steps 3 and 4 of R201; a write that has to wait keeps the launch in progress. -/
def State.launchEnds (s : State) (l : Launch) : State :=
  let waiting : State := { s with cl := { s.cl with launches := s.cl.launches ++ [{ l with waits := [] }] } }
  match s.markLaunched l.rcb with
  | .ok s1 =>
    let s2 := { s1 with cl := { s1.cl with running := l.rcb :: s1.cl.running.filter (fun x : Word => x != l.rcb),
                                           launched := (l.rcb, s1.cl.cmpt) :: s1.cl.launched.filter fun x : Word × BitVec 6 => x.1 != l.rcb } }
    ((l.msgs.foldl (fun (st : State) (m : Msg) => st.homeMsg m) s2).cmdReply l.who l.rcb l.tok 0).unblock
  | .bad c => s.launchFails l c
  | .miss oa kind => waiting.missWait oa kind s.deviceReq (.launchEnd l.rcb)
  | .snoop line oa => (waiting.sendSnoop line).holdAt oa (.launchEnd l.rcb)
  | .hold oa => waiting.holdIf oa (.launchEnd l.rcb)
  | .need _ => waiting.hold (.launchEnd l.rcb)

/-- A launch whose last writes had to wait goes on. -/
def State.launchGo (s : State) (rcb : Word) : State :=
  let mine (l : Launch) : Bool := l.rcb == rcb && l.waits.isEmpty
  match s.cl.launches.find? mine with
  | none => s
  | some l => ({ s with cl := { s.cl with launches := s.cl.launches.filter fun x : Launch => !mine x } }).launchEnds l

/-- The words of a record on its way to another home. -/
def installWords (r : InstallRec) : List Word :=
  [r.info.rcb, (0#27 ++ r.chan ++ r.rect : BitVec 64), r.e0, r.e1, r.e2,
   (0#50 ++ r.info.pri ++ r.info.ctlc ++ r.info.trapc : BitVec 64), BitVec.ofNat 64 r.info.nfr, r.info.save, r.info.sump,
   BitVec.ofNat 64 r.info.slines, r.info.evsave, r.info.payA, r.info.payC, r.info.payS]

/-- Sends the records to the other homes that their rectangles cover, and the numbers they go by. -/
def State.sendInstalls (s : State) (rs : List InstallRec) : State × List Nat × List Word :=
  rs.foldl (fun (acc : State × List Nat × List Word) (r : InstallRec) =>
    (acc.1.tellPlaces r.rect).foldl (fun (a : State × List Nat × List Word) (p : Word) =>
      let rid := a.1.nextRid
      ({ a.1 with nextRid := rid + 1 }.emit (outMsg .install p r.info.rcb rid 0 (installWords r)), a.2.1 ++ [rid],
       if a.2.2.contains p then a.2.2 else a.2.2 ++ [p])) acc) (s, [], [])

/-- The checks and the installs of a launch: the state after it, or why not. -/
def State.launch (s : State) (got : Lines) (chain : List Rcb) (r : Rcb) (who : Requester) (tok : BitVec 24) : Home State :=
  let info := resolveInfo r.addr chain
  (Home.need? (s.launchOk chain info) 0x05).bind fun _ =>
    let hdr := (32 * r.nrec + 127) / 128
    (s.homeLines got (r.w 9) (hdr + r.nmsg)).bind fun bs =>
      let recs := recordsOf info r.nrec bs
      let msgs := s.initialMsgs r.nmsg (bs.drop (128 * hdr))
      (Home.need? (msgs.2 && recs.all fun x => x.2 && s.cl.rectOk (rectOf x.1.rect) && recordOk x.1) 0x05).bind fun _ =>
        (s.installAll (recs.map fun x => x.1)).bind fun s1 =>
          let t := s1.sendInstalls (recs.map fun x => x.1)
          let l : Launch := { waits := t.2.1, rcb := r.addr, who, tok, failed := false, msgs := msgs.1, parent := r.parent,
                              user := r.w 12, places := t.2.2 }
          .ok (if l.waits.isEmpty then t.1.launchEnds l else { t.1 with cl := { t.1.cl with launches := t.1.cl.launches ++ [l] } })

/-- An answer of another home to a record of a launch in progress; the last one ends the launch. -/
def State.launchAnswer (s : State) (rid : Nat) (code : Code) : Option State :=
  match s.cl.launches.find? fun l : Launch => l.waits.contains rid with
  | none => none
  | some l =>
    let l1 := { l with waits := l.waits.filter fun n => n != rid, failed := l.failed || code != 0 }
    let rest := s.cl.launches.filter fun x : Launch => x.rcb != l.rcb
    some (if l1.waits.isEmpty then
        let s1 := { s with cl := { s.cl with launches := rest } }
        if l1.failed then s1.launchFails l1 0x05 else s1.launchEnds l1
      else { s with cl := { s.cl with launches := rest ++ [l1] } })

/-! ## Pause, resume, end (R200, R202, R204) -/

/-- Pause: the state, the cells of the rectangle, and the event. -/
def State.pauseRegion (s : State) (chain : List Rcb) (r : Rcb) (reason : BitVec 8) : State :=
  let rect := rectOfChain chain
  let s1 := s.setRcbState r 2
  let s2 := ({ s1 with cl := { s1.cl with running := s1.cl.running.filter fun x : Word => x != r.addr } }).mapOthers r.addr
    fun k c => { c with regs := c.regs.set k { c.regs[k] with paused := true } }
  ((s2.push (.pauseAtCell r.addr)).tellOthers r.addr rect 2).regionEvent r.addr r.parent (r.w 12) reason 0

/-- Whether an own budget stands at zero (R200). -/
def Rcb.budgetGone (r : Rcb) : Bool :=
  ((r.w 2).getLsbD 63 && zeroAt (r.w 2) 0 63) || ((r.w 3).getLsbD 63 && zeroAt (r.w 3) 0 63)

/-- Whether a cell is evicted from the tree of a chain (R410): one of this cluster, or one of another whose home has been told (DEDUCED,
log 121). -/
def State.treeEvicted (s : State) (chain : List Rcb) : Bool :=
  s.cells.toList.any (fun c : CellRegs => c.evicted && chain.any fun r => r.addr == c.evRoot) ||
  s.cl.evElse.any fun e : Word × Nat × List (Fin 64) => chain.any fun r => r.addr == e.1

/-- The cells of the cluster select a region's channels again, and its parked activations are runnable (R200). -/
def State.resumeCells (s : State) (rcb : Word) : State :=
  let off (k : Fin 8) (c : CellRegs) : CellRegs := { c with regs := c.regs.set k { c.regs[k] with paused := false } }
  let s1 := { s with parked := s.parked.map fun p : Parked =>
    if p.byPause && p.word41 == rcb then { p with runnable := true } else p }
  (s1.mapOthers rcb off).mapMe fun c => c.mapRegion rcb off

def State.resumeRegion (s : State) (chain : List Rcb) (r : Rcb) : State :=
  let s1 := s.setRcbState r 1
  let s2 := { s1 with cl := { s1.cl with running := r.addr :: s1.cl.running } }
  ((s2.resumeCells r.addr).tellOthers r.addr (rectOfChain chain) 3).wakeHeld

/-- End begins (R204): the cells of the rectangle clear the region, and when this cluster's have, the home writes the state and posts the
event. The rules name no answer of another cluster's home, which is not waited for (DESIGN CHOICE, log 118). -/
def State.endRegion (s : State) (chain : List Rcb) (r : Rcb) (who : Option Requester) (tok : BitVec 24) : State :=
  let e : EndRun := { rcb := r.addr, parent := r.parent, user := r.w 12, who, tok }
  let s1 := ({ s with cl := { s.cl with ends := s.cl.ends ++ [e] } }).mapOthers r.addr fun k c => c.clearRegion k true
  ((s1.push (.endAtCell r.addr)).tellOthers r.addr (rectOfChain chain) 4).push (.endDone r.addr)

/-- The last step of an end: the region has no running activation and no launch any more, its event is posted, and the command answered. -/
def State.endFinish (s : State) (e : EndRun) : State :=
  let cl := { s.cl with ends := s.cl.ends.filter (fun x : EndRun => x.rcb != e.rcb),
                        running := s.cl.running.filter (fun x : Word => x != e.rcb),
                        launched := s.cl.launched.filter fun x : Word × BitVec 6 => x.1 != e.rcb }
  let s1 := { s with cl }.regionEvent e.rcb e.parent e.user 5 0
  (match e.who with
   | some who => s1.cmdReply who e.rcb e.tok 0
   | none => s1).wakeHeld

/-- The page of the control block is refused to the last writes of a launch, which fails, or of an end, which is carried out without them. -/
def State.launchRefused (s : State) (rcb : Word) (code : Code) : State :=
  match s.cl.launches.find? fun l : Launch => l.rcb == rcb && l.waits.isEmpty with
  | none => s
  | some l => ({ s with cl := { s.cl with launches := s.cl.launches.filter fun x : Launch => x.rcb != rcb } }).launchFails l code

def State.endRefused (s : State) (rcb : Word) : State :=
  match s.cl.ends.find? fun e : EndRun => e.rcb == rcb with
  | none => s
  | some e => s.endFinish e

/-! ## The commands -/

/-- A region command in its region's state (R200): its effect, or the code of its refusal; a launch answers for itself. -/
def State.runCommand (s : State) (got : Lines) (who : Requester) (k : BitVec 4) (tok : BitVec 24) (reason : BitVec 8)
    (chain : List Rcb) (r : Rcb) : Home State :=
  let st := r.state.toNat
  let done (s1 : State) : Home State := .ok (if reason == 3 then s1.cmdReply who r.addr tok 0 else s1)
  if !(isHost who || reason != 3 || chain.any fun c : Rcb => c.addr == who.rcb) then .bad 0x05
  else if st == 3 then .bad 0x11
  else
    match k.toNat, st with
    | 1, 0 =>
      match s.launch got chain r who tok with
      | .bad c =>
        .ok (s.launchFails { waits := [], rcb := r.addr, who := who, tok := tok, failed := true, msgs := [], parent := r.parent,
                             user := r.w 12, places := [] } c)
      | x => x
    | 2, 1 => done (s.pauseRegion chain r reason)
    | 3, 2 => if r.budgetGone then .bad 0x11 else if s.treeEvicted chain then .bad 0x05 else done (s.resumeRegion chain r)
    | 4, 1 => .ok (s.endRegion chain r (if reason == 3 then some who else none) tok)
    | 4, 2 => .ok (s.endRegion chain r (if reason == 3 then some who else none) tok)
    | _, _ => .bad 0x05

/-- Asks another cluster for a line that a command needs. -/
def State.homeNeeds (s : State) (a : Word) (t : Todo) : State :=
  let r : HomeRead := { rid := s.nextRid, addr := a, todo := t }
  ({ s with nextRid := s.nextRid + 1, cl := { s.cl with reads := s.cl.reads ++ [r] } }).leave
    (outMsg .loadReq (prefixOf a) a s.nextRid 0 [0, 128]) (.refusedLoad s.nextRid 0x04)

/-- A command whose reading of memory has been refused: a launch fails with the code (R200), any other command is refused. -/
def State.commandStops (s : State) (who : Requester) (rcb : Word) (k : BitVec 4) (tok : BitVec 24) (reason : BitVec 8) (c : Code) :
    State :=
  if reason != 3 then s
  else
    match s.rcbAt [] rcb with
    | .ok r =>
      if k == 1 && r.state == 0 then
        s.launchFails { waits := [], rcb, who, tok, failed := true, msgs := [], parent := r.parent, user := r.w 12, places := [] } c
      else s.cmdReply who rcb tok c
    | _ => s.cmdReply who rcb tok c

/-- A region command at the home of its RCB, after a launch or an end of the region that is in progress; the lines of other clusters that it needs
are read first. A launch with no readable chain, or with one of more than eight, posts no event (DESIGN CHOICE, log 108). -/
def State.regionCommand (s : State) (named : Word) (who : Requester) (k : BitVec 4) (tok : BitVec 24) (reason : BitVec 8)
    (got : Lines) : Out :=
  let rcb := s.podOf named
  let t : Todo := .regionCmd who rcb k tok reason got
  if (s.cl.launches.any fun l : Launch => l.rcb == rcb) || (s.cl.ends.any fun e : EndRun => e.rcb == rcb) || s.stopsFor who then
    .next (s.hold t)
  else match s.turnsAway who with
  | some c => .next (s.cmdReply who rcb tok c)
  | none =>
  let r := (s.rcbChain got rcb 9).bind fun chain =>
    match chain with
    | [] => .bad 0x05
    | r :: _ => s.runCommand got who k tok reason chain r
  match r with
  | .ok s1 => .next s1.unblock
  | .bad c => .next (if reason == 3 then s.cmdReply who rcb tok c else s)
  | .need a => .next (s.homeNeeds a t)
  | .miss oa kind => .next (s.missWait oa kind s.deviceReq (if kind == .engWrite then .refuseAs 0x05 t else t))
  | .snoop line oa => .next ((s.sendSnoop line).holdAt oa t)
  | .hold oa => .next (s.holdIf oa t)

/-- What the home of a region of another cluster says takes effect here, unless this cluster turns its message away (R37, R107). -/
def State.elsewhere (s : State) (rcb : Word) (who : Requester) (tok : BitVec 24) (t : State) : Out :=
  match s.turnsAway who with
  | some c => .next (s.cmdReply who rcb tok c)
  | none => .next t

/-- REGION_LAUNCH, REGION_PAUSE, REGION_RESUME, REGION_END (R200): commands that arrive at the home. Of a region of another cluster,
its home says that its launch has failed, so that what it installed here is cleared (R201), or that it is resumed. -/
def execRegionLaunch (rcb : Word) (who : Requester) (tok : BitVec 24) (s : State) : Out :=
  if s.isHere rcb then s.regionCommand rcb who 1 tok 3 [] else s.elsewhere rcb who tok (s.clearLaunch rcb).unblock
def execRegionPause (rcb : Word) (who : Requester) (tok : BitVec 24) (reason : BitVec 8) (s : State) : Out :=
  s.regionCommand rcb who 2 tok reason []
def execRegionResume (rcb : Word) (who : Requester) (tok : BitVec 24) (s : State) : Out :=
  if s.isHere rcb then s.regionCommand rcb who 3 tok 3 [] else s.elsewhere rcb who tok (s.resumeCells rcb).wakeHeld
def execRegionEnd (rcb : Word) (who : Requester) (tok : BitVec 24) (s : State) : Out := s.regionCommand rcb who 4 tok 3 []

/-- Where the control block that the host names stands: in a cluster that this one's place tables know, perhaps in another cluster of
the package, or nowhere. -/
inductive RcbRoute where
  | here
  | pass
  | refuse
  deriving DecidableEq, Repr

/-- The cluster of the package whose ptn and place match an RCB that the host names (R199, R404). -/
def State.rcbRoute (s : State) (rcb : Word) (ptn : BitVec 24) : RcbRoute :=
  let mine := ptn == s.cl.ptn && rcb.extractLsb' 45 18 == s.cl.place.extractLsb' 45 18
  if !rcb.getLsbD 63 then .refuse
  else if mine && (prefixOf rcb == prefixOf s.cl.place || (s.placeFault rcb).isNone) then .here
  else if mine then .refuse
  else .pass

/-- MB_REGION_COMMAND (R199): the address is resolved to the cluster whose ptn and place match. -/
def execMbRegionCommand (rcb : Word) (ptn : BitVec 24) (k : BitVec 4) (s : State) : Out :=
  s.mailbox (.region rcb ptn k) fun s1 =>
    match s1.rcbRoute rcb ptn with
    | .refuse => s1.answer 0x08 0x04
    | .pass => .next (s1.forward 0x08 rcb (0#36 ++ k ++ ptn : BitVec 64))
    | .here =>
      if prefixOf rcb == prefixOf s1.cl.place then s1.regionCommand rcb (hostReq 0x08) k 0 3 []
      else .next (s1.forward 0x08 rcb (0#36 ++ k ++ ptn : BitVec 64))

/-! ## Grants and counts (R203, R216) -/

/-- The width of a control block's field that a kind of grant is taken from, and the chunk: R216 gives none for spawn credit, which goes out
a unit at a time, so that no unit stands idle in a cell while another waits (DESIGN CHOICE, log 31). -/
def grantBits : GrantKind → Nat
  | .credit => 32
  | _ => 63
def grantChunk : GrantKind → Nat
  | .activations => 64
  | .cycles => 65536
  | .credit => 1

/-- Sends a grant to the cell that asked. -/
def State.sendGrant (s : State) (who : Requester) (rcb : Word) (what : GrantKind) (n : Nat) : State :=
  if s.isSelf who then
    match s.me.regOf who.rcb with
    | some r => s.push (.grant r what n)
    | none => s
  else s.emit (outMsg .grant who.place rcb who.rid 0 [grantCode what, BitVec.ofNat 64 n, who.lcell.setWidth 64])

/-- The control block that a region charges now (R197): the nearest whose flag is 1, from the region on, and whether it and the ancestors
on the path to it run; none where no flag is set, and the budget is unlimited. -/
def State.payerNow (s : State) (got : Lines) (word : Nat) (region : Word) (runs : Bool) : Nat → Home (Option (Rcb × Bool))
  | 0 => .ok none
  | n + 1 =>
    (s.rcbAt got region).bind fun r =>
      if (r.w word).getLsbD 63 then .ok (some (r, runs && r.state == 1))
      else if r.parent == 0 then .ok none
      else (s.rcbAt got r.parent).bind fun p => s.payerNow got word r.parent (runs && p.state == 1) n

/-- The grant that a request finds at the control block `r` (R203): all of it that the chunk allows; nothing left pauses the region,
or makes a `spawn` wait. -/
def State.grantFrom (s : State) (rcb : Word) (who : Requester) (what : GrantKind) (r : Rcb) : Out :=
  let i := grantWord what
  let left := (r.w i).toNat % 2 ^ grantBits what
  if left == 0 then
    match what with
    | .credit => .next (s.hold (.ask rcb who what []))
    | .activations => .next ((s.push (.regionCmd s.deviceReq rcb 2 0 1 [])).hold (.ask rcb who what []))
    | .cycles => .next ((s.push (.regionCmd s.deviceReq rcb 2 0 2 [])).hold (.ask rcb who what []))
  else
    let n := min (grantChunk what) left
    .next (((s.rcbWrite rcb (8 * i) [r.w i - BitVec.ofNat 64 n]).sendGrant who rcb what n).unblock)

/-- A request for a grant, with the lines of other clusters that the home has read for it: the region's flags say now who is charged; a
charge waits while an ancestor on the path to it does not run (R197). -/
def State.grantAsk (s : State) (rcb : Word) (who : Requester) (what : GrantKind) (got : Lines) : Out :=
  if s.stopsFor who then .next (s.hold (.ask rcb who what got)) else
  match s.turnsAway who with
  | some c => .next (s.emit (outMsg .negReply who.place rcb who.rid c []))
  | none =>
  match s.payerNow got (grantWord what) who.rcb true 9 with
  | .ok none => .next ((s.sendGrant who rcb what (grantChunk what)).unblock)
  | .ok (some (r, ok)) =>
    if !ok then .next (s.hold (.ask rcb who what []))
    else if s.isHere r.addr then s.grantFrom r.addr who what r
    else .next (s.emit { outMsg .grantReq (prefixOf r.addr) r.addr who.rid 0 [grantCode what, who.rcb] with src := who.lcell })
  | .need a => .next (s.homeNeeds a (.ask rcb who what got))
  | .miss oa kind => .next (s.missWait oa kind s.deviceReq (.ask rcb who what got))
  | .snoop line oa => .next ((s.sendSnoop line).holdAt oa (.ask rcb who what []))
  | .hold oa => .next (s.holdIf oa (.ask rcb who what []))
  | .bad _ => .next (s.hold (.ask rcb who what []))

/-- GRANT_REQUEST at the home of the charged RCB. -/
def execGrantRequest (rcb : Word) (who : Requester) (what : GrantKind) (s : State) : Out := s.grantAsk rcb who what []

/-- A unit of spawn credit comes back to the RCB (R216). -/
def State.creditBack (s : State) (rcb : Word) : Out :=
  match s.rcbAt [] rcb with
  | .ok r =>
    let w := r.w 4
    .next ((s.rcbWrite rcb 32 [(w.extractLsb' 32 32 ++ (w.extractLsb' 0 32 + 1) : BitVec 64)]).wakeHeld)
  | .miss oa kind => .next (s.missWait oa kind s.deviceReq (.creditBack rcb))
  | .snoop line oa => .next ((s.sendSnoop line).holdAt oa (.creditBack rcb))
  | .hold oa => .next (s.holdIf oa (.creditBack rcb))
  | _ => .next s

/-- The home takes a report into astart, live and cused of the region's own RCB (R203). -/
def State.countReport (s : State) (rcb : Word) (starts ends cycles : Nat) : Out :=
  match s.rcbAt [] rcb with
  | .ok r =>
    let live := ((r.w 15).toNat % 2 ^ 32 + starts + 2 ^ 32 - ends % 2 ^ 32) % 2 ^ 32
    .next (s.rcbWrite rcb 104 [r.w 13 + BitVec.ofNat 64 starts, r.w 14 + BitVec.ofNat 64 cycles, BitVec.ofNat 64 live])
  | .miss oa kind => .next (s.missWait oa kind s.deviceReq (.report rcb starts ends cycles))
  | .snoop line oa => .next ((s.sendSnoop line).holdAt oa (.report rcb starts ends cycles))
  | .hold oa => .next (s.holdIf oa (.report rcb starts ends cycles))
  | _ => .next s

/-- Takes `n` entries of a region out of a list. -/
def dropRegion (rcb : Word) : Nat → List Word → List Word
  | 0, l => l
  | n + 1, l => dropRegion rcb n (l.erase rcb)

/-- ACTIVATION_REPORT from another cell, counted at the home of the region's control block. Where it is of a cell of this cluster, an
activation of the region stands in a slot of it, or no longer does (R96, R116). -/
def execActivationReport (about : ReportAt) (starts ends cycles : Nat) (s : State) : Out :=
  let rcb := about.rcb
  let s1 := if about.cell.isSome then
      { s with cl := { s.cl with others := dropRegion rcb ends (List.replicate starts rcb ++ s.cl.others) } } else s
  if s.isHere rcb then s1.countReport rcb starts ends cycles else .next s1

/-! ## Replies to the messages of cells and of the home -/

/-- The reflection caches of the partition that released a frame have answered: it is clean (R71 step 3). -/
def State.scrubAnswer (s : State) (rid : Nat) : State :=
  match s.cl.scrubs.find? fun x : Nat × Nat => x.1 == rid with
  | none => s
  | some x => { s with cl := { s.cl with clean := markAt x.2 true s.cl.clean, scrubs := s.cl.scrubs.filter fun y : Nat × Nat => y.1 != rid } }

/-- POSITIVE_REPLY (R167): the reply-table entry is free; another home has installed a launch's record (R201); or a home answers a
`barset` check (R42). -/
def execPositiveReply (rid : Nat) (s0 : State) : Out :=
  let s := (s0.scrubAnswer rid).forwardAnswer rid 0 []
  match s.launchAnswer rid 0 with
  | some s1 => .next s1
  | none =>
    if s.ridSaved rid then .next (s.hold (.positive rid))
    else .next (((s.dropReply rid).mapPhases (barAnswered rid false)).wakeHeld)

/-- NEGATIVE_REPLY (R169): a retry answer below the limit, or a refusal that is reported; the home's own messages as above. -/
def execNegativeReply (rid : Nat) (code : Code) (oa : Option Word) (s0 : State) : Out :=
  let s := s0.forwardAnswer rid code []
  match s.launchAnswer rid code with
  | some s1 => .next s1
  | none =>
    if s.ridSaved rid then .next (s.hold (.negative rid code oa))
    else
    match s.replyOf rid with
    | none => .next (s.mapPhases (barAnswered rid true)).unblock
    | some e =>
      if code == 0x0C && decide (e.retries < 64) then .next (s.retryAnswer rid)
      else .next (s.refusedMsg e code oa)

end Sys2Proof.Machine
end

