-- ==== Sys2Proof/Machine/Select.lean ====
section
/-!
DEFINITION. Messages at a cell (R207 to R212, R340, R399, R407), selection (R213 to R217), the grants of a cell (R203, R216), and
what a pause and an end do there (R202, R204).
-/
namespace Sys2Proof.Machine

/-! ## Arrival (R209, R210) -/

/-- The channels that are never spilled and may fill the inbox (R210). -/
def freeChan (c : BitVec 5) : Bool := c == 0 || c == 28

def State.entryOf (s : State) (c : BitVec 5) : Handler := s.me.handlers[c.toFin]
/-- The region-table entry of a channel. -/
def State.chanReg (s : State) (c : BitVec 5) : RegEntry := s.me.regs[(s.entryOf c).reg]

def RegEntry.sumpEmpty (e : RegEntry) : Bool := e.sumpHead == e.sumpTail
def RegEntry.hasSump (e : RegEntry) : Bool := e.info.slines != 0
def RegEntry.sumpFull (e : RegEntry) : Bool := decide (e.info.slines ≤ e.sumpTail - e.sumpHead)

/-- The inbox has room for a channel. -/
def State.inboxRoom (s : State) (c : BitVec 5) : Bool :=
  decide (s.inbox.length < (if freeChan c then Config.inboxSize else Config.inboxLimit))

/-- The code with which the cell refuses a data message, or 0 (R208, R209, R216, R407). -/
def State.msgRefusal (s : State) (m : InMsg) : Code :=
  let c := m.msg.chan
  if 29 ≤ c.toNat then 0x05
  else if !(s.entryOf c).v then
    (if s.me.evicted && s.me.evChans.getLsbD c.toNat then 0x0C else if s.me.ended.getLsbD c.toNat then 0x11 else 0x04)
  else if m.msg.spw && !isHome m.who && (s.chanReg c).info.rcb != m.who.rcb && !m.msg.moves then 0x05
  else 0

/-- The sump line of the count `n` (R211). -/
def State.sumpLine (s : State) (e : RegEntry) (n : Nat) : Nat :=
  e.info.sump.toNat + 128 * (e.info.slines * s.self.val + n % e.info.slines)

/-- The line of a message (R212). -/
def sumpData (m : Msg) : WData :=
  let ws := plainWords [msgH0 m, msgH1 m] ++ m.words
  wordsData (ws ++ List.replicate (16 - ws.length) { val := 0, tag := false })

/-- Why a message is not taken now, or the state with it taken. -/
inductive Placed where
  | taken (s : State)
  | refused (c : Code)
  | stays (s : State)

/-- The miss of a unit that may already wait on it. -/
def State.missOnce (s : State) (oa : Nat) (kind : AccKind) (t : Todo) : State :=
  if (s.cl.miss.any fun e : MissEnt => e.waiters.contains t) || (s.cl.missOver.any fun e : Word × Word × Todo => e.2.2 == t) then s
  else s.missWait oa kind s.cellReq t

/-- The pump stops for a region, with the trap notice of R399 the first time. -/
def State.pumpStops (s : State) (r : Fin 8) (chan : BitVec 5) (code : Code) (line : Nat) : State :=
  let e := s.me.regs[r]
  if e.pumpOff then s
  else
    let w1 := recordWord1 5 chan false false false (code == 0x0F) false false code
    let a := BitVec.ofNat 64 line
    let q : TrapReq := { code, addr := a, place := s.placeOf a, tok := 0, pc := 0, resume := 0, isDef := false, mem := code == 0x0F,
                         sw := false, pay := false, iw := 0, pfx := 0 }
    (s.mapReg r fun e => { e with pumpOff := true }).trapNotice e.info 0 0 w1 q 0

/-- The positive reply of a data message that lands; notices have none (R209). -/
def State.landed (s : State) (m : InMsg) : State := if m.msg.kind == .notice then s else s.replyPos m.who 0 m.tok

/-- The pump's own next go: over all regions, or one that tries again (R399). -/
def pumpTodo : Option (Fin 8) → Todo
  | some r => .pumpAgain r
  | none => .pumpReplay

/-- The pump waits at a port, once. -/
def State.pumpWaits (s : State) (oa : Nat) (t : Todo) : State :=
  if s.cl.held.contains (.port oa t) then s else s.holdAt oa t

/-- Appends a message to its region's sump (R211). -/
def State.spill (s : State) (retry : Option (Fin 8)) (m : InMsg) : Placed :=
  let c := m.msg.chan
  let r := (s.entryOf c).reg
  let e := s.me.regs[r]
  let line := s.sumpLine e e.sumpTail
  match s.checkWrite s.cellReq .store line (sumpData m.msg) with
  | .ok site =>
    let s1 := (s.perform site line (sumpData m.msg)).mapReg r fun e =>
      { e with sumpTail := e.sumpTail + 1, sumpChans := e.sumpChans ++ [c], pumpOff := false }
    .taken (s1.landed m)
  | .fault code _ => .stays (s.pumpStops r c code line)
  | .miss => .stays (s.missOnce line .store (pumpTodo retry))
  | .snoop l => .stays ((s.sendSnoop l).pumpWaits line (pumpTodo retry))
  | .wait => .stays (s.pumpWaits line (pumpTodo retry))

/-- Whether a message that was held in the mesh keeps this one there: one of its channel, or, for one that would be spilled, one of
its region (R210, R211). -/
def State.blocks (s : State) (m k : InMsg) : Bool :=
  k.msg.chan == m.msg.chan ||
  (!freeChan m.msg.chan && !freeChan k.msg.chan && (s.chanReg m.msg.chan).hasSump && (s.entryOf k.msg.chan).v &&
    (s.entryOf k.msg.chan).reg == (s.entryOf m.msg.chan).reg)

/-- Whose turn it is when a message is placed: the inbox's alone, or the pump slot's, which spills, with the region whose stopped pump
tries again (R211, R218, R399). -/
inductive PumpTurn where
  | inbox
  | pump (retry : Option (Fin 8))
  deriving DecidableEq, Repr

def PumpTurn.retry : PumpTurn → Option (Fin 8)
  | .inbox => none
  | .pump r => r

/-- The pump slot has an instruction ready (R218). -/
def State.wantPump (s : State) : State := { s with pumpWant := true }

/-- Takes a message, behind those kept in the mesh (R210): into the inbox, or in the pump's turn into the sump. -/
def State.placeMsg (s : State) (kept : List InMsg) (turn : PumpTurn) (m : InMsg) : Placed :=
  let retry := turn.retry
  let c := m.msg.chan
  let code := s.msgRefusal m
  let e := s.chanReg c
  if code != 0 then .refused code
  else if kept.any fun k => s.blocks m k then .stays s
  else if s.inboxRoom c && (freeChan c || e.sumpEmpty) then .taken ({ s with inbox := s.inbox ++ [m] }.landed m)
  else if freeChan c || !e.hasSump || e.sumpFull || (e.pumpOff && retry != some (s.entryOf c).reg) then .stays s
  else if turn == .inbox then .stays s.wantPump
  else s.spill (if retry == some (s.entryOf c).reg then retry else none) m

/-- Refuses a message: a notice is discarded (R347). -/
def State.refuseMsg (s : State) (m : InMsg) (c : Code) : State := if m.msg.kind == .notice then s else s.replyNeg m.who 0 c

/-- Tries the messages of the mesh in order; `kept` are those that stay. -/
def State.settleFrom (turn : PumpTurn) : List InMsg → List InMsg → State → State
  | [], kept, s => { s with mesh := kept }
  | m :: ms, kept, s =>
    match s.placeMsg kept turn m with
    | .taken s1 => State.settleFrom turn ms kept s1
    | .refused c => State.settleFrom turn ms kept (s.refuseMsg m c)
    | .stays s1 => State.settleFrom turn ms (kept ++ [m]) s1

def State.settle (s : State) (turn : PumpTurn) : State := State.settleFrom turn s.mesh [] s

/-! ## Replay (R211, R399) -/

/-- A sump that can be replayed: not one whose replay has stopped, unless it is the one that tries again. -/
def RegEntry.replays (e : RegEntry) (again : Bool) : Bool := e.v && !e.sumpEmpty && (!e.pumpOff || again)

/-- Some sump can be replayed. -/
def State.canReplay (s : State) : Bool := s.me.regs.toList.any fun e : RegEntry => e.replays false

/-- The next region-table entry in turn with a sump to replay; `retry` is the region whose stopped pump tries again. -/
def State.nextSump (s : State) (retry : Option (Fin 8) := none) : Option (Fin 8) :=
  (List.range 8).findSome? fun i =>
    let r : Fin 8 := s.pumpNext + Fin.ofNat 8 i
    if s.me.regs[r].replays (retry == some r) then some r else none

/-- The line at the head of a sump has been taken, or stands for a message that selection took (R217). -/
def RegEntry.popSump (e : RegEntry) : RegEntry :=
  { e with sumpHead := e.sumpHead + 1, sumpChans := e.sumpChans.tail, pumpOff := false, pumpHead := false }

/-- The mark of a sump line that selection has taken: channel 31 is never spilled (R208). -/
def takenChan : BitVec 5 := 31

/-- Replays lines into the inbox until it holds 28 messages or no sump has one, for at most `n` lines. -/
def State.replay (retry : Option (Fin 8)) : Nat → State → State
  | 0, s => s
  | n + 1, s =>
    if Config.inboxLimit ≤ s.inbox.length then { s with pumping := false }
    else
      match s.nextSump retry with
      | none => { s with pumping := false }
      | some r =>
        let e := s.me.regs[r]
        let line := s.sumpLine e e.sumpHead
        if e.sumpChans.head? == some takenChan then State.replay retry n (s.mapReg r RegEntry.popSump)
        else
          match s.checkPort s.cellReq .load line with
          | .ok site =>
            let m : InMsg := { who := s.deviceReq, msg := msgOfLine (s.view site 128), tok := 0 }
            State.replay none n (({ s with inbox := s.inbox ++ [m], pumpNext := r + 1 }).mapReg r RegEntry.popSump)
          | .fault c _ =>
            State.replay none n ((s.pumpStops r (e.sumpChans.headD 0) c line).mapReg r fun e => { e with pumpHead := true })
          | .miss => s.missOnce line .load (pumpTodo retry)
          | .snoop l => (s.sendSnoop l).pumpWaits line (pumpTodo retry)
          | .wait => s.pumpWaits line (pumpTodo retry)

/-- The replay of a region that has stopped tries again when a message of the region arrives (R399). -/
def State.retryPump (s : State) (r : Fin 8) : State :=
  let e := s.me.regs[r]
  if e.pumpOff && e.pumpHead && !e.sumpEmpty then State.replay (some r) Config.inboxSize { s with pumping := true, pumpNext := r } else s

/-- Where the home takes a message that has reached the cluster (R30, R37, R335). -/
inductive Delivery where
  | here
  | cell (n : Fin 64)
  | refused (c : Code)
  deriving DecidableEq, Repr

/-- The cell that a message names by its logical index: an absent index of a DRAM line stands for 63, one of a local-store slot is
refused (R34, R335). H0.dst stays as it was sent (DESIGN CHOICE, log 113). -/
def State.homeDest (s : State) (m : Msg) : Delivery :=
  let n : Fin 64 := (m.dst.extractLsb' 0 6).toFin
  let goes (k : Fin 64) : Delivery := if k == s.self then .here else .cell k
  if s.cl.present n then goes n else if m.line then goes 63 else .refused 0x04

/-- What the cluster does with a message: the partition of one from outside (R107, R108), its place (R37), its cell. The modelled
cell's own messages and the home's notices have been resolved. -/
def State.delivery (s : State) (m : InMsg) : Delivery :=
  if m.who.remote then
    if s.cl.ptn == 0 || m.who.ptn != s.cl.ptn then .refused 0x05
    else
      match s.arrivalFault m.who with
      | some c => .refused c
      | none => s.homeDest m.msg
  else if s.isSelf m.who || isHome m.who then .here
  else s.homeDest m.msg

/-- A message goes on to another cell of the cluster. -/
def State.passTo (s : State) (n : Fin 64) (m : InMsg) : State :=
  s.emit { outMsg .message s.cl.place (BitVec.ofNat 64 n.val) m.who.rid 0 [] with
    chan := m.msg.chan, tok := m.tok, words := plainWords [msgH0 m.msg, msgH1 m.msg] ++ m.msg.words }

/-- A notice of the cluster's own hardware is not answered retry but kept, as its sender would send it again (R400, R406; DEDUCED,
log 97). -/
def State.keepsNotice (s : State) (m : InMsg) : Bool := m.msg.kind == .notice && !m.who.remote

/-- A message reaches the modelled cell, and the pump of its region, if it has stopped, tries again (R399); a cell that is being evicted, or whose cluster is held, answers retry
(R406, R462). -/
def State.arriveHere (s : State) (m : InMsg) : State :=
  let away := m.msg.kind == .notice && s.me.evicted && s.me.evChans.getLsbD m.msg.chan.toNat && !(s.entryOf m.msg.chan).v
  if away || (m.who.remote && s.cl.clockStop) then s.hold (.message m)
  else if s.me.fenced || s.cl.power == .hold then (if s.keepsNotice m then s.hold (.message m) else s.replyNeg m.who 0 0x0C)
  else
    let h := s.entryOf m.msg.chan
    let s1 := { s with mesh := s.mesh ++ [m] }
    let again := h.v && s.msgRefusal m == 0 && s.me.regs[h.reg].pumpOff
    let s2 := if again then { s1.wantPump with pumpRetry := some h.reg } else s1
    (s2.settle .inbox).unblock

/-- A message reaches the cluster (R30). -/
def State.arrive (s : State) (m : InMsg) : State :=
  match s.delivery m with
  | .here => s.arriveHere m
  | .cell n => s.passTo n m
  | .refused c => s.refuseMsg m c

/-- MESSAGE_ARRIVAL. -/
def execMessageArrival (who : Requester) (msg : Msg) (tok : BitVec 24) (s : State) : Out := .next (s.arrive { who, msg, tok })

/-! ## The pump (R211, R399) -/

/-- The inbox has fallen to 8 messages, so the pump has a replay to do, or messages of the mesh to place (R211). -/
def State.pumpCheck (s : State) : State :=
  if decide (s.inbox.length ≤ Config.replayLevel) && s.canReplay then { s.wantPump with pumping := true }
  else if s.mesh.isEmpty then s
  else s.wantPump

/-- The pump goes on: replay while it lasts, then the messages that wait in the mesh; `retry` is a stopped region that tries again, whose
access had to wait (R399). -/
def State.pumpGo (s : State) (retry : Option (Fin 8)) : State :=
  let s := { s with pumpWant := false, pumpRetry := none, pumpWait := 0 }
  let s1 := if decide (s.inbox.length ≤ Config.replayLevel) && s.canReplay then { s with pumping := true } else s
  let s1 := { s1 with cells := (s1.mapMe fun c => { c with regs := c.regs.map fun e : RegEntry => { e with sumpWait := false } }).cells }
  let s2 := match retry with
    | some r => s1.retryPump r
    | none => s1
  let s3 := if s2.pumping then State.replay none Config.inboxSize s2 else s2
  (s3.settle (.pump (retry.filter fun r => !s3.me.regs[r].pumpHead))).unblock

/-- PUMP_REPLAY: replay while it lasts, then the messages that wait in the mesh. -/
def execPumpReplay (s : State) : Out := .next (s.pumpGo none)

/-! ## The yield buffers (R340) -/

/-- Takes a yielded message out of its buffer, with its reply-table entry, whose target is the base of the cell's slot (DESIGN CHOICE, log 112). -/
def State.leaveBuffer (s : State) (i : Fin 4) (y : YieldMsg) : State :=
  let rid := s.nextRid
  let e : ReplyEnt :=
    { rid, kind := .message, aid := y.aid, reg := y.reg, rcb := s.me.regs[y.reg].info.rcb, chan := y.msg.chan, slot := i, pc := y.pc,
      target := BitVec.ofNat 64 (0x200000000 + 0x40000 * s.self.val), place := s.cl.place, tok := 0, asked := 0, iw := y.iw, pfx := 0,
      words := y.msg.words, retries := 0, waiting := false, todo := none, sent := none }
  { s with nextRid := rid + 1, replies := s.replies ++ [e], yieldBuf := s.yieldBuf.set i none }

/-- The message of a buffer as it arrives at its own cell. -/
def State.yieldedMsg (s : State) (rid : Nat) (y : YieldMsg) : InMsg :=
  { who := { s.deviceReq with lcell := s.lcell, engine := false, rid, rcb := s.me.regs[y.reg].info.rcb }, msg := y.msg, tok := 0 }

/-- YIELD_BUFFER_SEND: the message leaves when the inbox or the sump admits it, behind the messages of its channel in the mesh. -/
def execYieldBufferSend (i : Fin 4) (s : State) : Out :=
  match s.yieldBuf[i] with
  | none => .next s
  | some y =>
    if Config.replyTableSize ≤ s.replies.length then .next s
    else
      let m := s.yieldedMsg s.nextRid y
      match (s.leaveBuffer i y).placeMsg s.mesh (.pump none) m with
      | .taken s1 => .next s1.unblock
      | .refused c => .next (((s.leaveBuffer i y).refuseMsg m c).unblock)
      | .stays s1 => .next { s1 with replies := s.replies, yieldBuf := s.yieldBuf }

/-- Whether a buffer's message would leave now. -/
def State.yieldReady (s : State) (i : Fin 4) : Bool :=
  match s.yieldBuf[i] with
  | none => false
  | some y =>
    decide (s.replies.length < Config.replyTableSize) &&
    (match (s.leaveBuffer i y).placeMsg s.mesh (.pump none) (s.yieldedMsg s.nextRid y) with
     | .stays _ => false
     | _ => true)

/-! ## Selection (R213, R217) -/

/-- General slots that hold an activation of a channel. -/
def State.inSlots (s : State) (c : BitVec 5) : Nat :=
  ((List.finRange 5).filter fun i => i.val < 4 && (s.slotAct i).live && (s.slotAct i).chan == c).length

/-- The oldest parked activation of a channel that may be selected, one whose frame is being waited for apart. -/
def State.runnableOf (s : State) (c : BitVec 5) : Option Parked :=
  s.parked.find? fun p : Parked => p.runnable && !p.waits && p.act.chan == c

/-- The oldest message of a channel in the inbox. -/
def State.pendingOf (s : State) (c : BitVec 5) : Option InMsg := s.inbox.find? fun m : InMsg => m.msg.chan == c

/-- The channel's oldest message in the sump of its region, where none stands in the inbox: its number behind the head (R206, R217). -/
def State.sumpOf (s : State) (c : BitVec 5) : Option Nat :=
  let e := s.chanReg c
  if (s.pendingOf c).isSome || freeChan c || e.pumpOff || e.sumpWait then none else e.sumpChans.findIdx? fun x : BitVec 5 => x == c

/-- The region is running, as far as the cluster knows: one whose control block it holds stands in the list of running ones, and no
end has reached the cell (R217). -/
def State.regRuns (s : State) (e : RegEntry) : Bool :=
  e.v && !e.paused && !e.ending && (!s.isHere e.info.rcb || s.cl.running.contains e.info.rcb)

/-- The entry admits a selection, grants apart. -/
def State.selectable (s : State) (c : BitVec 5) : Bool :=
  let h := s.entryOf c
  let e := s.me.regs[h.reg]
  h.v && !h.mask && s.regRuns e && decide (s.inSlots c < h.lim.toNat + 1) &&
  ((s.pendingOf c).isSome || (s.runnableOf c).isSome || (s.sumpOf c).isSome)

/-- The grants that a selection of the channel still lacks: cycles, and an activation for one that starts (R203). -/
def State.lacks (s : State) (c : BitVec 5) : List GrantKind :=
  let e := s.chanReg c
  (if e.cycles == 0 && s.payer e .cycles != 0 then [.cycles] else []) ++
  (if (s.runnableOf c).isNone && e.acts == 0 && s.payer e .activations != 0 then [.activations] else [])

/-- The channels that may be selected now. -/
def State.candidates (s : State) : List (BitVec 5) :=
  ((List.range 29).map fun n => BitVec.ofNat 5 n).filter fun c => s.selectable c && (s.lacks c).isEmpty

/-- The channel that R217 chooses. -/
def State.choose (s : State) : Option (BitVec 5) :=
  let cs := s.candidates
  let p := cs.foldl (fun (n : Nat) (c : BitVec 5) => max n (s.entryOf c).pri.toNat) 0
  let last := s.lastSel[Fin.ofNat 8 p].val
  ((List.range 32).map fun k => BitVec.ofNat 5 (last + 1 + k)).find? fun c => cs.contains c && (s.entryOf c).pri.toNat == p

/-- Asks for the grants that selection waits on. -/
def State.askLacking (s : State) : State :=
  ((List.range 29).map fun n => BitVec.ofNat 5 n).foldl (fun (st : State) (c : BitVec 5) =>
    if st.selectable c then (st.lacks c).foldl (fun (t : State) (k : GrantKind) => t.askGrant (t.entryOf c).reg k) st else st) s

/-- Whether selection waits on a grant that has not been asked for. -/
def State.wantsGrant (s : State) : Bool :=
  ((List.range 29).map fun n => BitVec.ofNat 5 n).any fun c =>
    s.selectable c && (s.lacks c).any fun k => !((s.chanReg c).asked k)

/-- The state an activation starts in (R213). -/
def startAct (aid : Nat) (h : Handler) (m : Msg) : Act :=
  let ptr (i : Nat) : Ptr :=
    if i < h.len.toNat then
      let w := m.words.getD i { val := 0, tag := false }
      { val := w.val, step := 0, tag := w.tag }
    else Ptr.zero
  { Act.idle with
    live := true
    aid
    chan := m.chan
    reg := h.reg
    prio := h.pri
    spw := m.spw
    pc := h.entry.setWidth 64
    p := Vector.ofFn fun i : Fin 8 => ptr i.val }

/-- A message that has been taken starts an activation in a slot. -/
def State.startWith (s : State) (i : Fin 4) (c : BitVec 5) (m : Msg) : State :=
  let h := s.entryOf c
  let e := s.me.regs[h.reg]
  let s1 := { s with nextAid := s.nextAid + 1 }
  let s2 := if s.payer e .activations == 0 then s1 else s1.mapReg h.reg fun e => { e with acts := e.acts - 1 }
  ((s2.setSlot (slotIdx (.gen i)) (startAct s.nextAid h m)).reportUse e.info.rcb 1 0 0).pumpCheck

/-- The oldest pending message of a channel starts in a slot. -/
def State.startMsg (s : State) (i : Fin 4) (c : BitVec 5) (m : InMsg) : State :=
  { s with inbox := s.inbox.erase m }.startWith i c m.msg

/-- The channel's oldest message starts from its line of the sump, `k` lines behind the head. -/
def State.startSump (s : State) (i : Fin 4) (c : BitVec 5) (k : Nat) : State :=
  let r := (s.entryOf c).reg
  let e := s.me.regs[r]
  let line := s.sumpLine e (e.sumpHead + k)
  let later (st : State) : State := st.mapReg r fun e => { e with sumpWait := true }
  match s.checkPort s.cellReq .load line with
  | .ok site =>
    let s1 := s.mapReg r fun e => if k == 0 then e.popSump else { e with sumpChans := e.sumpChans.set k takenChan }
    s1.startWith i c (msgOfLine (s.view site 128))
  | .fault code _ => (s.pumpStops r c code line).mapReg r fun e => { e with pumpHead := true }
  | .miss => later (s.missOnce line .load .pumpReplay)
  | .snoop l => later ((s.sendSnoop l).pumpWaits line .pumpReplay)
  | .wait => later (s.pumpWaits line .pumpReplay)

/-- Words 0 to 39 of a frame, as they stand (R66). -/
def State.frameLines (s : State) (oa : Nat) : Nat → Chk (List Byte)
  | 0 => .ok []
  | n + 1 => (s.checkPort s.cellReq .load oa).bind fun site => (s.frameLines (oa + 128) n).bind fun r => .ok (s.view site 128 ++ r)

/-- A kept activation with words 0 and 4 to 39 of its frame (R64, R66). -/
def reload (a : Act) (ws : List Word) : Act :=
  let w (i : Nat) : Word := ws.getD i 0
  let ptr (i : Nat) : Ptr :=
    { val := w (4 + i), step := (w (12 + i / 4)).extractLsb' (16 * (i % 4)) 16, tag := (w 14).getLsbD i }
  { a with
    pc := w 0
    p := Vector.ofFn fun i : Fin 8 => ptr i.val
    f := { z := (w 14).getLsbD 12, n := (w 14).getLsbD 11, c := (w 14).getLsbD 10, o := (w 14).getLsbD 9, x := (w 14).getLsbD 8 }
    a := w 15
    k := (w 16).extractLsb' 0 32
    loop := { count := w 17, start := w 18, stop := w 19 }
    toks := Vector.ofFn fun i : Fin 4 => (w (20 + i.val)).extractLsb' 0 24
    v := Vector.ofFn fun i : Fin 32 => (w (24 + i.val / 2)).extractLsb' (32 * (i.val % 2)) 32 }

/-- The trap with which a resumed instruction fails (R66, R356). -/
def State.failReq (s : State) (p : Parked) (a : Act) (c : Code) (addr : Word) : TrapReq :=
  { code := c, addr, place := s.placeOf addr, tok := 0, pc := a.pc, resume := a.pc, isDef := false, mem := c == 0x0F, sw := false,
    pay := false, iw := a.iw, pfx := p.pfx }

/-- A parked activation goes back into a slot; its frame and its record are free. What was reported to it while a page fault kept it
parked comes before its instruction (R169). -/
def State.resumeIn (s : State) (i : Fin 4) (p : Parked) (a : Act) (fail : Option (Code × Word)) : State :=
  let a0 := { a with reportFirst := p.byFault && !a.deferred.isEmpty }
  let a1 := match fail with
    | some (c, addr) => { a0 with trapping := some (s.failReq p a0 c addr) }
    | none => a0
  ({ s with parked := s.parked.filter fun q : Parked => q.frame != p.frame }.setSlot (slotIdx (.gen i)) a1).unblock

/-- Changes the parked record of a frame. -/
def State.mapParked (s : State) (frame : Word) (f : Parked → Parked) : State :=
  { s with parked := s.parked.map fun p : Parked => if p.frame == frame then f p else p }

/-- Resumes a parked activation: its context is read from its frame, for which it waits while other selections go on. The rules do not
say what becomes of one whose frame cannot be read: it keeps the registers that the cell held, and traps at the frame's address
(DESIGN CHOICE, log 85). -/
def State.startParked (s : State) (i : Fin 4) (p : Parked) : State :=
  let later (st : State) : State := st.mapParked p.frame fun q => { q with waits := true }
  if p.lost then s.resumeIn i p p.act p.failCode
  else
    match s.frameLines p.frame.toNat 3 with
    | .ok bs => s.resumeIn i p (reload p.act (wordsOf 40 bs)) p.failCode
    | .fault c _ => s.resumeIn i p p.act (some (p.failCode.getD (c, p.frame)))
    | .miss => later (s.missWait p.frame.toNat .load s.cellReq (.resume p.frame))
    | .snoop l => later ((s.sendSnoop l).holdAt p.frame.toNat (.resume p.frame))
    | .wait => later (s.holdAt p.frame.toNat (.resume p.frame))

/-- A frame that a resumption waited for is there, so its activation may be selected again. -/
def State.frameReady (s : State) (frame : Word) : State := (s.mapParked frame fun q => { q with waits := false }).unblock

/-- The parked activation's frame is on a page that the service cell refused (R62). -/
def State.frameRefused (s : State) (frame : Word) (c : Code) : State :=
  (s.mapParked frame fun q => { q with waits := false, lost := true, failCode := some (q.failCode.getD (c, frame)) }).unblock

/-- SELECTION: a free general slot takes a runnable activation or a pending message. -/
def execSelection (i : Fin 4) (s : State) : Out :=
  if (s.slotAct (slotIdx (.gen i))).live then .next s
  else
    let s0 := s.askLacking
    match s0.choose with
    | none => .next s0
    | some c =>
      let s1 := { s0 with lastSel := s0.lastSel.set (Fin.ofNat 8 (s0.entryOf c).pri.toNat) c.toFin }
      match s1.runnableOf c, s1.pendingOf c, s1.sumpOf c with
      | some p, _, _ => .next (s1.startParked i p)
      | none, some m, _ => .next (s1.startMsg i c m).unblock
      | none, none, some k => .next (s1.startSump i c k).unblock
      | none, none, none => .next s1

/-! ## Grants (R203, R216) -/

/-- GRANT_ARRIVAL: at most 64 activations, 65,536 cycles or 16 units of credit are held. -/
def execGrantArrival (r : Fin 8) (what : GrantKind) (n : Nat) (s : State) : Out :=
  .next ((s.mapReg r fun e =>
    let e1 := e.setAsked what false
    match what with
    | .activations => { e1 with acts := min 64 (e1.acts + n) }
    | .cycles => { e1 with cycles := min 65536 (e1.cycles + n) }
    | .credit => { e1 with credit := min 16 (e1.credit + n) }).unblock)

/-! ## Pause and end at the cell (R202, R204, R379) -/

/-- The modelled cell is evicted, and the region's entry is saved with it: its region commands wait at the home (R406). -/
def State.regionSaved (s : State) (rcb : Word) : Bool :=
  s.me.evicted && s.saved.any fun v : SavedCell => v.cell == s.self && (v.regs.regOf rcb).isSome

/-- PAUSE_AT_CELL: in every cell of the cluster that holds the region its channels are not selected, and the modelled cell's activations
of it park at their next instruction. -/
def execPauseAtCell (rcb : Word) (s : State) : Out :=
  let s0 := s.mapOthers rcb fun k c => { c with regs := c.regs.set k { c.regs[k] with paused := true } }
  match s.me.regOf rcb with
  | none => .next (if s.regionSaved rcb then s0.hold (.pauseAtCell rcb) else s0)
  | some r => .next ((s0.mapReg r fun e => { e with paused := true }).unblock)

/-- Ends the region's activation in a slot, as `done` would, if it stands at an instruction boundary. -/
def State.endSlot (r : Fin 8) (s : State) (i : Fin 4) : State :=
  let a := s.slotAct (slotIdx (.gen i))
  if a.live && a.reg == r && a.betweenWords then ((s.withdraw (slotIdx (.gen i))).switchTo (slotIdx (.gen i))).endAct true else s

/-- Some general slot holds an activation of the region. -/
def State.inAnySlot (s : State) (r : Fin 8) : Bool :=
  (List.finRange 4).any fun i => (s.slotAct (slotIdx (.gen i))).live && (s.slotAct (slotIdx (.gen i))).reg == r

/-- The general slot that a parked activation was in, as its frame says (R64 word 1). -/
def Parked.slot (p : Parked) : Fin 4 := (p.word1.extractLsb' 16 2).toFin

/-- A parked activation ends (R340, R356): what was reported to it goes to its trap channel (R169), and its credit comes back. -/
def State.endParkedOne (s : State) (p : Parked) : State :=
  let s0 := s.tellDeferred p.act.reg p.act.chan p.slot p.act.deferred
  let s1 := ({ s0 with parked := s0.parked.filter fun q : Parked => q.frame != p.frame }.cancelWatches p.act.watch).reportUse
    s.me.regs[p.act.reg].info.rcb 0 1 0
  (if p.act.spw then s1.returnCredit p.act.reg else s1).unblock

/-- Discards the region's parked activations and their frames. -/
def State.endParked (s : State) (r : Fin 8) : State := (s.parked.filter fun p : Parked => p.act.reg == r).foldl State.endParkedOne s

/-- A queue without a region's commands: a load that has not started still makes its buffer invalid, in its turn (R369, R379). -/
def dropCmds (r : Fin 8) (q : List MCmd) : List MCmd :=
  q.filterMap fun c : MCmd =>
    if c.reg != r || c.void then some c else if c.op == .mwld && !c.started && !c.reload then some { c with void := true } else none

/-- Drops the region's matrix commands, frees its transfers and invalidates its buffers. -/
def State.dropMatrix (s : State) (r : Fin 8) : State :=
  let s1 := { s with mx := { s.mx with
      bufs := Vector.ofFn fun i : Fin 2 => if s.mx.bufs[i].reg == r then StatBuf.reset else s.mx.bufs[i],
      xfers := Vector.ofFn fun i : Fin 16 => if s.mx.xfers[i].reg == r then Xfer.reset else s.mx.xfers[i],
      queue := dropCmds r s.mx.queue } }
  s1.mxNext

/-- Discards the messages of a region in the inbox and in the yield buffers. -/
def State.dropMessages (s : State) (r : Fin 8) : State :=
  { s with inbox := s.inbox.filter fun m : InMsg => !((s.entryOf m.msg.chan).v && (s.entryOf m.msg.chan).reg == r),
           yieldBuf := Vector.ofFn fun i : Fin 4 =>
             match s.yieldBuf[i] with
             | some y => if y.reg == r then none else some y
             | none => none }

/-- END_AT_CELL: messages, activations, engine commands and entries of the region, in every cell of the cluster; an activation that is
inside an instruction ends at its boundary, and the entries are cleared after it. -/
def execEndAtCell (rcb : Word) (s : State) : Out :=
  let s0 := s.mapOthers rcb fun k c => c.clearRegion k true
  match s.me.regOf rcb with
  | none => .next (if s.regionSaved rcb then s0.hold (.endAtCell rcb) else s0)
  | some r =>
    let s1 := (s0.dropMessages r).mapReg r fun e => { e with ending := true }
    let s2 := ((List.finRange 4).foldl (State.endSlot r) s1).endParked r
    if s2.inAnySlot r then .next (s2.hold (.endAtCell rcb))
    else
      let s3 := (s2.dropMatrix r).dropEngines r
      .next (((s3.mapMe fun c => c.clearRegion r true).settle .inbox).pumpCheck).wakeHeld

/-- The end of a region goes on when this cluster's cells have cleared it: its control block says so (R204 step 4). -/
def State.endGo (s : State) (rcb : Word) : Out :=
  match s.cl.ends.find? fun e : EndRun => e.rcb == rcb with
  | none => .next s
  | some e =>
    if (s.me.regOf rcb).isSome || s.regionSaved rcb then .next (s.hold (.endDone rcb))
    else
      let done : Home State := (s.rcbAt [] rcb).bind fun r => s.rcbPut rcb 0 [(3#2 ++ (r.w 0).extractLsb' 0 62 : BitVec 64)]
      match done with
      | .ok s1 => .next (s1.endFinish e)
      | .miss oa kind => .next (s.missWait oa kind s.deviceReq (.endDone rcb))
      | .snoop line oa => .next ((s.sendSnoop line).holdAt oa (.endDone rcb))
      | .hold oa => .next (s.holdIf oa (.endDone rcb))
      | .bad _ | .need _ => .next (s.endFinish e)

end Sys2Proof.Machine
end

