-- ==== Sys2Proof/Machine/Translate.lean ====
section
/-!
DEFINITION. The home's translation from the side of those who write it (R46 to R69): `tlbw` and `tlbi` at the home, the accesses
that wait on a miss, the page fault of an activation, and the answer of a parked frame.
-/
namespace Sys2Proof.Machine

/-! ## The words of `tlbw` (R48 to R50) -/

def dispOf (mw : Word) : Nat := (mw.extractLsb' 62 2).toNat

/-- What the issuing cell checks (R50). -/
def tlbWordsOk (mw dw : Word) : Bool :=
  zeroAt mw 48 9 && zeroAt mw 17 15 && dispOf mw != 3 && zeroAt dw 16 26 && dw.extractLsb' 51 3 != 7 &&
  !(dw.getLsbD 45 && dw.getLsbD 49) && !(dw.getLsbD 47 && dw.getLsbD 46) &&
  (!mw.getLsbD 61 || (zeroAt mw 0 8 && zeroAt dw 0 8))

/-- The home already holds as many pinned entries as it may. -/
def Cluster.pinsFull (cl : Cluster) : Bool := decide (Config.maxPinned ≤ (cl.tlb.filter fun e : TlbEnt => e.pin).length)

/-! ## Waiting accesses (R51, R62) -/

/-- The miss-table entries inside a page, and the rest. -/
def State.missIn (s : State) (e : TlbEnt) : List MissEnt := s.cl.miss.filter fun m : MissEnt => e.covers m.page.toNat
def State.missOut (s : State) (e : TlbEnt) : List MissEnt := s.cl.miss.filter fun m : MissEnt => !e.covers m.page.toNat

/-- Frees the entries inside a page, and lets the accesses that found the table full look up again. -/
def State.freeMisses (s : State) (e : TlbEnt) : State :=
  if (s.missIn e).isEmpty && !(s.cl.missOver.any fun x : Word × Word × Todo => e.covers (x.1.toNat / 0x10000)) then s
  else
    { s with agenda := s.agenda ++ s.cl.missOver.map (fun x : Word × Word × Todo => x.2.2),
             cl := { s.cl with miss := s.missOut e, missOver := [] } }

/-- Wakes every access waiting on a miss inside a page (R51). -/
def State.wakeMisses (s : State) (e : TlbEnt) : State :=
  let ws := (s.missIn e).flatMap fun m : MissEnt => m.waiters
  let s1 := s.freeMisses e
  { s1 with agenda := ws ++ s1.agenda }

/-- The accesses that waited in a page no longer stand ahead of an ordering point: they are answered, or go on before the rest (R61). -/
def State.passOrder (s : State) (e : TlbEnt) : State :=
  if s.orderPages.isEmpty then s
  else { s with orderPages := s.orderPages.filter fun p : BitVec 17 => !e.covers p.toNat }.wakeHeld

/-- The sump line that a region's pump would touch next lies in a page; the pump stops (R399). -/
def State.pumpRefused (s : State) (oa : Word) (code : Code) : State :=
  (List.finRange 8).foldl (fun (st : State) (r : Fin 8) =>
    let e := st.me.regs[r]
    let here (n : Nat) : Bool := st.sumpLine e n / 0x10000 == oa.toNat / 0x10000
    if e.v && e.hasSump && (here e.sumpHead || here e.sumpTail) then
      let head := here e.sumpHead && !e.sumpEmpty
      (st.pumpStops r (e.sumpChans.headD 0) code (oa.toNat / 128 * 128)).mapReg r fun x => { x with pumpHead := head, sumpWait := false }
    else st) s

/-- The refusal of a read request. -/
def State.refuseLoad (s : State) (who : Requester) (oa : Word) (code : Code) (p1 : Word) : State :=
  s.emit (outMsg .loadRefusal who.place oa who.rid code [p1])

/-- Finishes one waiting access with a refusal (R62): its code, and whether an activation in a general slot takes the page-fault path
instead. -/
def State.finishWaiter (code : Code) (fault : Bool) (oa p1 : Word) (s : State) : Todo → State
  | .refuseAs c t => s.finishWaiter c false oa p1 t
  | .port _ t => s.finishWaiter code fault oa p1 t
  | .wake slot =>
    s.mapSlot (slotIdx slot) fun a =>
      match a.phase with
      | .missWait x =>
        if fault && slot != .atomic then { a with phase := .pageFault x p1 0, blocked := false }
        else { a with phase := .refused code false, blocked := false }
      | _ => a
  | .wakeFrame slot =>
    s.mapSlot (slotIdx slot) fun a =>
      match a.phase with
      | .frameWait => { a with phase := .frameBad, blocked := false }
      | .pageFault x p _ => { a with phase := .pageFault x p 2, blocked := false }
      | _ => a
  | .deposit req => s.refuseAt req.who (req.oa.toNat + if code == 0x07 then s.escapeOff req.data else 0) code
  | .atomicRequest req => s.refuseAt req.who (s.amoFaultAt req code) code
  | .atomicGo n req => (s.refuseAt req.who (s.amoFaultAt req code) code).slotFree n req
  | .watchPlace req => s.sendWatchAns req (.refused code)
  | .loadAtPort who x _ _ => s.refuseLoad who x code p1
  | .storeAccept who x _ => s.emit (outMsg .negReply who.place x who.rid code [p1])
  | .walkMiss x => s.walkRefused code x
  | .matrixTile n =>
    match s.mx.queue.find? fun c : MCmd => c.num == n && c.started with
    | some c => s.mxFault c code c.missAt
    | none => s
  | .pullAccess n => s.pullRefused n code
  | .collStart => s.collRefused code
  | .collStep => s.collRefused code
  | .pumpReplay | .pumpAgain _ => s.pumpRefused oa code
  | .resume f => s.frameRefused f code
  | .regionCmd who rcb k tok reason _ => s.commandStops who rcb k tok reason code
  | .ask rcb who what _ => s.hold (.ask rcb who what [])
  | .launchEnd rcb => s.launchRefused rcb code
  | .endDone rcb => s.endRefused rcb
  | .install r who => s.emit (outMsg .negReply who.place r.info.rcb who.rid code [])
  | .evict _ rect restore _ => (if restore then s.setFence (s.cellsIn rect) false else s).hostAnswer 0x01 code []
  | .quiesced => s.push .saveFails
  | .pready _ _ _ _ issuer => s.emit (outMsg .negReply s.cl.place oa issuer 0x05 [])
  | _ => s

/-- Finishes every access waiting in a page (R51, R62). -/
def State.finishMisses (s : State) (e : TlbEnt) (code : Code) (fault : Bool) : State :=
  let more := s.cl.missOver.filter fun x : Word × Word × Todo => e.covers (x.1.toNat / 0x10000)
  let keep := s.cl.missOver.filter fun x : Word × Word × Todo => !e.covers (x.1.toNat / 0x10000)
  let ms := s.missIn e
  let s1 := ({ s with cl := { s.cl with missOver := keep } }.freeMisses e).passOrder e
  let s2 := ms.foldl (fun (st : State) (m : MissEnt) => m.waiters.foldl (State.finishWaiter code fault m.oa m.p1) st) s1
  (more.foldl (fun (st : State) (x : Word × Word × Todo) => st.finishWaiter code fault x.1 x.2.1 x.2.2) s2).unblock

/-! ## tlbw (R51) -/

/-- Installs an entry; where the array is full, an unpinned entry gives way (R47). -/
def State.installTlb (s : State) (e : TlbEnt) : State :=
  let rest := s.cl.tlb.filter fun x : TlbEnt => !x.overlaps e
  if rest.length < Config.tlbSize then { s with cl := { s.cl with tlb := rest ++ [e] } }
  else
    let loose := rest.filter fun x : TlbEnt => !x.pin
    match loose[Config.tlbVictim s.free % loose.length]? with
    | some v => { s with free := s.free + 1, cl := { s.cl with tlb := rest.erase v ++ [e] } }
    | none => s

/-- The home acts on a `tlbw`; `none` where it refuses a pinned entry (R50). -/
def State.tlbwHome (s : State) (mw dw : Word) : Option State :=
  let e : TlbEnt := { mw, dw }
  match dispOf mw with
  | 0 =>
    if e.pin && s.cl.pinsFull then none
    else if mw.extractLsb' 32 16 == s.cl.epoch then
      some ((let s1 := (s.installTlb e).passOrder e; if s1.cl.watches.isEmpty then s1 else s1.push .poll).wakeMisses e)
    else some (s.wakeMisses e)
  | 1 => some (s.finishMisses e 0x04 true)
  | _ => some (s.finishMisses e 0x05 false)

/-- TLBW_AT_HOME: a `tlbw` of the service cell arrives; the home answers it. -/
def execTlbwAtHome (mw dw : Word) (s : State) : Out :=
  match s.tlbwHome mw dw with
  | some s1 => .next (s1.emit (outMsg .posReply s.cl.place 63 0 0 []))
  | none => .next (s.emit (outMsg .negReply s.cl.place 63 0 0x05 []))

/-! ## tlbi (R67, R68) -/

/-- Removes the entries that a `tlbi` names and advances the epoch. -/
def State.tlbiHome (s : State) (m : BitVec 2) (arg : Word) : State :=
  let gone (e : TlbEnt) : Bool :=
    match m.toNat with
    | 0 => e.covers (arg.extractLsb' 16 17).toNat
    | 1 => e.vf.val == (arg.extractLsb' 0 4).toNat
    | _ => true
  let s1 := s.keepXlat
  let s2 := { s1 with cl := { s1.cl with tlb := s1.cl.tlb.filter fun e : TlbEnt => !gone e, epoch := s1.cl.epoch + 1 } }
  if s2.cl.watches.isEmpty then s2 else s2.push .poll

/-- The acknowledgement leaves when every access queued ahead of the `tlbi` has completed (R68). -/
def State.ackTlbi (s : State) (m : BitVec 2) (arg : Word) : State :=
  if s.oldWaits then s.hold (.tlbiAck m arg) else s.emit (outMsg .shootdown s.cl.place arg m.toNat 0 [])

/-- TLBI_AT_HOME: a `tlbi` of another cell is applied; its acknowledgement follows every access queued ahead of it. -/
def execTlbiAtHome (m : BitVec 2) (arg : Word) (s : State) : Out := .next ((s.tlbiHome m arg).ackTlbi m arg)

/-- SHOOTDOWN_ACK: the issuing slot's `tlbi` completes. -/
def execShootdownAck (slot : SlotId) (s : State) : Out :=
  .next ((s.mapSlot (slotIdx slot) fun a => if a.phase == .ackWait then { a with phase := .ackDone } else a).unblock)

/-- TLBCTL_ENABLE (R75). -/
def execTlbctlEnable (s : State) : Out := .next s.enableTlb

/-! ## The page fault (R63 to R65) -/

/-- The notice of a page fault. -/
def State.faultNotice (s : State) (info : RegInfo) (frame oa : Word) : State :=
  s.noticeFrom s.lcell (Fin.ofNat 64 info.ctlc.toNat) info.trapc (plainWords [frame, oa, 0x8000000000000004#64])

/-- The slot waits with its page fault: for older instructions, a frame, or the frame's translation. -/
def State.holdFault (s : State) (oa p1 : Word) (st : Nat) : Out := s.waitIn (.pageFault oa p1 st)

/-- The page fault of the activation in service; `st` says what is known of its frame. -/
def State.takeFault (s : State) (oa p1 : Word) (st : Nat) : Out :=
  let info := s.regEntry.info
  let asTrap (a : Word) : Out := (s.mapAct fun x => { x with phase := .none }).trap 0x04 a
  if s.act.olderWait then .next (s.mapAct fun a => { a with phase := .pageFault oa p1 st })
  else if info.save == 0 || info.nfr == 0 then asTrap oa
  else if st == 2 then asTrap ((s.freeFrame info).getD 0)
  else
    match s.park s.act.trapPc oa p1 [] false with
    | .parked s1 f => .next (s1.faultNotice info f oa)
    | .full => s.holdFault oa p1 0
    | .wait x => (s.atPortOf x).holdFault oa p1 0
    | .bad f => asTrap f
    | .miss x =>
      if st == 1 then s.holdFault oa p1 1 else (s.missWait x .store s.cellReq (.wakeFrame (slotOfIdx s.cur))).holdFault oa p1 1

/-- PAGE_FAULT: a general slot's access is answered "not mapped". -/
def execPageFault (slot : SlotId) (oa p1 : Word) (s : State) : Out :=
  match slot with
  | .atomic => .next s
  | .gen _ =>
    let s1 := s.switchTo (slotIdx slot)
    if !s1.act.live then .next s
    else
      match s1.act.phase with
      | .pageFault _ _ st => s1.takeFault oa p1 st
      | .missWait _ => s1.takeFault oa p1 0
      | _ => .next s

/-! ## pready at the parked cell (R66, R356) -/

/-- Words 1, 40 and 41 of a frame as they stand. -/
def State.frameMarks (s : State) (frame : Nat) : Chk (Word × Word × Word) :=
  (s.checkPort s.cellReq .load (frame + 8)).bind fun a =>
    (s.checkPort s.cellReq .load (frame + 320)).bind fun b =>
      let ws := wordsOf 2 (s.view b 16)
      .ok (wordOf (s.view a 8), ws.getD 0 0, ws.getD 1 0)

/-- The outcome of a `pready`. -/
inductive Pready where
  | done (s : State)
  | refused
  | miss
  /-- a host holds a half of the frame's machine line, or the port makes the read wait -/
  | snoop (line : Nat)
  | port
  | wait

/-- The cell answers a `pready` from an issuer of the region `rcb`; frame words that it cannot read are refused (DESIGN CHOICE, log 114). -/
def State.preadyHere (s : State) (frame rcb : Word) (fail : Bool) (n : BitVec 8) : Pready :=
  match s.parked.find? fun p : Parked => p.frame == frame with
  | none => if s.me.evicted && s.ownSaves.any fun o : OwnSave => o.parked.any fun p : Parked => p.frame == frame then .wait else .refused
  | some p =>
    if s.me.fenced then .wait
    else
      match s.frameMarks frame.toNat with
      | .ok (w1, w40, w41) =>
        if w1 != p.word1 || w40 != p.word40 || w41 != p.word41 || p.byPause || p.runnable ||
            !(s.me.regs[p.act.reg].info.chain.contains rcb) then .refused
        else if !fail then .done ((s.mapParked frame fun q => { q with runnable := true }).unblock)
        else if p.byFault then .done ((s.mapParked frame fun q => { q with runnable := true, failCode := some (n, p.oa) }).unblock)
        else .done (s.endParkedOne p)
      | .miss => .miss
      | .fault _ _ => .refused
      | .snoop line => .snoop line
      | .wait => .port

/-- PREADY_AT_CELL: a notice from another cell of the cluster; its answer goes back. -/
def execPreadyAtCell (frame rcb : Word) (fail : Bool) (n : BitVec 8) (issuer : Nat) (s : State) : Out :=
  match s.preadyHere frame rcb fail n with
  | .done s1 => .next (s1.emit (outMsg .posReply s.cl.place frame issuer 0 []))
  | .refused => .next (s.emit (outMsg .negReply s.cl.place frame issuer 0x05 []))
  | .miss => .next (s.missWait frame.toNat .load s.cellReq (.pready frame rcb fail n issuer))
  | .snoop line => .next ((s.sendSnoop line).holdAt (frame.toNat + 8) (.pready frame rcb fail n issuer))
  | .port => .next (s.holdAt (frame.toNat + 8) (.pready frame rcb fail n issuer))
  | .wait => .next (s.hold (.pready frame rcb fail n issuer))

end Sys2Proof.Machine
end

