-- ==== Sys2Proof/Machine/System.lean ====
section
/-!
DEFINITION. System instructions (R348 to R356), major 0x38, and the illegal instruction (R226).
-/
namespace Sys2Proof.Machine

/-- `trap n` (R348): the record carries sw, and the activation resumes behind it. -/
def execTrap (n : BitVec 8) (s : State) : Out :=
  if s.inAtomic then .next (s.abortAtomic 0x05)
  else s.takeTrap { s.trapReq n 0 with sw := true, mem := false, resume := s.act.pc + 4 }

/-- `rti` (R349). -/
def execRti (s : State) : Out := s.returnFromTrap

/-- `cget` (R350). -/
def execCget (pa : PReg) (idx : BitVec 12) (s : State) : Out :=
  s.inOrder fun s1 =>
    match s1.lookCtl s1.issuer s1.self idx.toNat with
    | some (w, s2) => (s2.mapAct fun a => a.setPVal pa w).finish
    | none => s1.trap 0x05 (idx.setWidth 64)

/-- `cset` (R350, R352); a change of the cistern's mode completes when the register holds the new value (R97, R99). -/
def execCset (pa : PReg) (idx : BitVec 12) (s : State) : Out :=
  s.generalOnly fun s1 =>
    if s1.act.phase == .ackWait then (if s1.cl.busy then s1.stall else s1.finishAll)
    else
      match s1.writeCtl s1.issuer s1.self idx.toNat (s1.pv pa) with
      | none => s1.trap 0x05 (idx.setWidth 64)
      | some s2 => if idx.toNat == 0x108 && s2.cl.busy && s2.cl.fill != (s1.pv pa).getLsbD 0 then s2.waitIn .ackWait else s2.finishAll

/-- `ifence` (R353): the slot forgets the instruction lines it holds. -/
def execIfence (s : State) : Out := s.generalOnly fun s1 => (s1.mapAct fun a => { a with ibuf := [] }).finish

/-- `tlbw` (R354). -/
def execTlbw (pa pb : PReg) (s : State) : Out :=
  s.generalOnly fun s1 =>
    let mw := s1.pv pa
    let dw := s1.pv pb
    if !s1.isService || !tlbWordsOk mw dw then s1.trap 0x05 0
    else
      match s1.tlbwHome mw dw with
      | none => s1.trap 0x05 0
      | some s2 => s2.finishAll

/-- What `tlbi` checks of its operand (R355). -/
def tlbiFault (m : BitVec 2) (arg : Word) : Option Code :=
  match m.toNat with
  | 0 => if !isOwn arg then some 0x03 else if arg.getLsbD 33 then some 0x04 else none
  | 1 => if zeroAt arg 4 60 then none else some 0x05
  | _ => none

/-- `tlbi` (R355): applied at the home, and complete when the acknowledgement arrives (R68). A refused pair index stands in word 2
(DESIGN CHOICE, log 111). -/
def execTlbi (pa : PReg) (m : BitVec 2) (s : State) : Out :=
  s.generalOnly fun s1 =>
    let arg := s1.pv pa
    match s1.act.phase with
    | .ackWait => s1.stall
    | .ackDone => s1.finishAll
    | _ =>
      if !s1.issuer.privileged then s1.trap 0x05 0
      else
        match tlbiFault m arg with
        | some c => s1.trap c arg
        | none => ((s1.tlbiHome m arg).push (.shootdownAck (slotOfIdx s1.cur))).waitIn .ackWait

/-- `pready` once words 40 and 41 of the frame have been read (R356): answered by this cell, or by another of the cluster. -/
def State.preadyTo (s : State) (frame : Word) (fail : Bool) (n : BitVec 8) (w40 : Word) : Out :=
  let c := w40.extractLsb' 0 15
  let k : Fin 64 := (c.extractLsb' 0 6).toFin
  if !zeroAt w40 15 49 || c.extractLsb' 6 9 != s.lclu || !s.cl.present k then s.trap 0x05 frame
  else if k == s.self then
    match s.preadyHere frame s.rcb fail n with
    | .done s1 => s1.finishAll
    | .refused => s.trap 0x05 frame
    | .miss => s.ownMiss (frame.toNat + 8) .load
    | .snoop line => (s.sendSnoop line).stallAt (frame.toNat + 8)
    | .port => s.stallAt (frame.toNat + 8)
    | .wait => s.stall
  else
    let m := outMsg .pready s.cl.place frame s.nextRid 0 [BitVec.ofNat 64 k.val, if fail then 1 else 0, n.setWidth 64, s.rcb]
    ({ s with nextRid := s.nextRid + 1 }.emit m).waitIn (.barWait s.nextRid 1 false)

def execPready (pa : PReg) (fail : Bool) (n : BitVec 8) (s : State) : Out :=
  s.generalOnly fun s1 =>
    let a := s1.pv pa
    if !isOwn a then s1.trap 0x03 a
    else if a.toNat % 512 != 0 then s1.trap 0x02 a
    else
      match s1.act.phase with
      | .barWait _ 0 bad => if bad then s1.trap 0x05 a else s1.finishAll
      | .barWait _ _ _ => s1.stall
      | .refused c m => s1.trapMem c m (faultAddr (a + 320) c)
      | .missWait _ => s1.stall
      | _ =>
        match s1.checkOwn .load (a.toNat + 320) with
        | .ok site => s1.preadyTo a fail n (wordOf (s1.view site 8))
        | r => s1.stopped (s1.portOther (a + 320) (a.toNat + 320) .load r)

/-- ILLEGAL_INSTRUCTION (R226): the word is kept for record word 6. -/
def execIllegalInstruction (w : BitVec 32) (s : State) : Out := (s.mapAct fun a => { a with iw := w }).trap 0x01 0

/-- FETCH_LINE (R223): the line that a slot's next word lies in arrives in its buffer. -/
def execFetchLine (slot : SlotId) (line : Word) (s : State) : Out :=
  let s1 := s.switchTo (slotIdx slot)
  if !s1.act.live || lineOf s1.act.pc != lineOf line || !isOwn s1.act.pc || (s1.act.heldLine s1.act.pc).isSome ||
      s1.act.phase != .none then .next s
  else
    match s1.readLine s1.act.pc with
    | .ok bs => .next (s1.keepLine s1.act.pc bs).unblock
    | r => s1.stopped (s1.portOther s1.act.pc s1.act.pc.toNat .fetch r)

end Sys2Proof.Machine
end

