-- ==== Sys2Proof/Machine/Port.lean ====
section
/-!
DEFINITION. The ports of the cluster for requests that arrive from outside the modelled cell (R29, R280, R284), the replies to its
loads with the fills of the reflection cache (R88, R91), the home's own work (R71, R97, R99 to R105, R463), and the hold queue
(R192, R193).
-/
namespace Sys2Proof.Machine

/-! ## Requests at a port -/

/-- Another cell of the cluster as an issuer of control accesses (R26, R350). -/
def State.issuerOf (s : State) (who : Requester) : Issuer :=
  let n : Fin 64 := (who.lcell.extractLsb' 0 6).toFin
  let ctlc := match s.cells[n].regOf who.rcb with
    | some r => s.cells[n].regs[r].info.ctlc.toNat
    | none => 64
  { cell := n, ctlc, rcb := who.rcb, own := false }

/-- The type by which an access unit is read: the entry's element form is the requester's. -/
def unitTy : AccUnit → Ty
  | .bytes _ => .u64
  | .elem scaled _ => if scaled then .nfs else .nf
  | .group scaled _ => if scaled then .nfs else .nf

/-- The address of the scale byte of a line of an nfs tile (R361). -/
def tileScale (oa : Nat) : Nat := oa / 16384 * 16384 + oa % 16384 / 128

/-- The scale byte of a tile's line cannot be read (R79). -/
def State.tileBad (s : State) (site : Site) (oa : Nat) (kind : AccKind) : Bool :=
  kind == .stationary && (s.descOf site.attr).isSome && site.attr.geo.getLsbD 3 && s.nearPoisoned site oa (tileScale oa)

/-- The words of a reply: the whole line (R87), then stamp, whether it may be reflected (R88), the compartment, and what decodes
it (R117): of nf data, and of a tile's line that a stationary load reads, the owner's descriptor and block geometry, with the scale byte
of a line of an nfs tile. -/
def State.replyWords (s : State) (who : Requester) (site : Site) (oa : Nat) (kind : AccKind) (e : QEntry) : List TWord :=
  let tile := kind == .stationary
  let own := if e.ty.isNf || tile then s.descOf site.attr else none
  let geo := if own.isSome then site.attr.geo else 0
  let scale := if tile && geo.getLsbD 3 then s.nearByte site oa (tileScale oa) else e.scale
  let ws := (wordsOf 16 (s.view site.line 128)).zip (s.viewTags site.line 16)
  let keep := !site.attr.nc && site.attr.ckey == 0 && who.ptn == s.cl.ptn
  let desc : Word := match own with
    | some d => (1#1 ++ 0#39 ++ d : BitVec 64)
    | none => 0
  (ws.map fun p : Word × Bool => { val := p.1, tag := p.2 }) ++
    plainWords ([s.cl.pubctr, (b1 keep).setWidth 64, site.attr.ckey.setWidth 64, desc, geo.setWidth 64, scale.setWidth 64] ++ e.data)

/-- What a read of a unit meets at its port. -/
def State.serveLoad (s : State) (who : Requester) (oa : Word) (u : AccUnit) (kind : AccKind) : Chk (List TWord × State) :=
  if s.cl.window oa.toNat == .ctl && !who.remote && kind == .load then
    match (if u == .bytes 8 then s.ctlLoad (s.issuerOf who) (oa.toNat - 0x2F0000000) else none) with
    | some (w, s1) => .ok (plainWords [w], s1)
    | none => .fault 0x05 false
  else
    (s.checkPort who kind oa.toNat).bind fun site =>
      if s.tileBad site oa.toNat kind then .fault 0x0F true
      else (s.readUnit site oa.toNat (unitTy u) u .other).bind fun e => .ok (s.replyWords who site oa.toNat kind e, s)

/-- LOAD_AT_PORT: a read request is served with the checks of R29 and answered. -/
def execLoadAtPort (who : Requester) (oa : Word) (u : AccUnit) (kind : AccKind) (s : State) : Out :=
  match s.serveLoad who oa u kind with
  | .ok (ws, s1) => .next (s1.emit { outMsg .loadReply who.place oa who.rid 0 [] with words := ws })
  | .fault c _ => .next (s.refuseLoad who oa c 0)
  | .miss => .next (s.missWait oa.toNat kind who (.loadAtPort who oa u kind))
  | .snoop line => .next ((s.sendSnoop line).holdAt oa.toNat (.loadAtPort who oa u kind))
  | .wait => .next (s.holdAt oa.toNat (.loadAtPort who oa u kind))

/-- STORE_PERFORM (R135): an accepted write is performed at its port; the checks that it has passed are not made again. -/
def execStorePerform (oa : Word) (data : WData) (s : State) : Out :=
  match s.acceptedSite oa.toNat with
  | .ok site => .next (s.perform site oa.toNat data)
  | .miss => .next (s.missWait oa.toNat .store s.cellReq (.storePerform oa data))
  | .snoop line => .next ((s.sendSnoop line).holdAt oa.toNat (.storePerform oa data))
  | .wait => .next (s.holdAt oa.toNat (.storePerform oa data))
  | .fault _ _ => .next s

/-- The word that a store to the control window carries. -/
def storeWord : WData → Option Word
  | .bytes bs _ => if bs.length == 8 then some (wordOf bs) else none
  | _ => none

/-- STORE_ACCEPT (R284): a store of another cell of the cluster, accepted and performed, or refused. -/
def execStoreAccept (who : Requester) (oa : Word) (data : WData) (s : State) : Out :=
  let refuse (c : Code) : Out := .next (s.emit (outMsg .negReply who.place oa who.rid c []))
  if s.cl.window oa.toNat == .ctl then
    match (storeWord data).bind fun w => s.ctlStore (s.issuerOf who) (oa.toNat - 0x2F0000000) w with
    | some s1 => .next s1.unblock
    | none => refuse 0x05
  else
    match s.checkWrite who .store oa.toNat data with
    | .ok site => .next (s.perform site oa.toNat data)
    | .fault c _ => refuse c
    | .miss => .next (s.missWrite .store who oa.toNat data (.storeAccept who oa data))
    | .snoop line => .next ((s.sendSnoop line).holdAt oa.toNat (.storeAccept who oa data))
    | .wait => .next (s.holdAt oa.toNat (.storeAccept who oa data))

/-! ## Replies (R280, R88, R91) -/

/-- Keeps a line, in place of another where its set of sixteen ways is full (R87). -/
def State.keepRefl (s : State) (l : ReflLine) : State :=
  let rest := s.cl.refl.filter fun x : ReflLine => !(x.place == l.place && x.line == l.line)
  let set := Config.reflectionSet l.place l.line % 1024
  let same := rest.filter fun x : ReflLine => Config.reflectionSet x.place x.line % 1024 == set
  if same.length < 16 then { s with cl := { s.cl with refl := l :: rest } }
  else
    match same[Config.reflectionVictim set s.free % 16]? with
    | some v => { s with free := s.free + 1, cl := { s.cl with refl := l :: rest.erase v } }
    | none => { s with cl := { s.cl with refl := l :: rest } }

/-- Installs a fill under the conditions of R91; a free floor entry is taken with floor 0. -/
def State.installFill (s : State) (f : Fill) (l : ReflLine) : State :=
  let idx := floorIdx f.place
  if s.cl.changeOf idx != f.count then s
  else
    match s.cl.floorOf idx with
    | none => { s with cl := s.cl.setFloor idx f.place 0 }.keepRefl l
    | some e => if e.place == f.place && decide (e.floor.toNat ≤ l.stamp.toNat) then s.keepRefl l else s

/-- What a reply leaves in the reflection cache. -/
def State.takeFill (s : State) (rid : Nat) (ans : LoadAns) : State :=
  match s.cl.fills.find? fun f : Fill => f.rid == rid with
  | none => s
  | some f =>
    let s1 := { s with cl := { s.cl with fills := s.cl.fills.filter fun x : Fill => x.rid != rid } }
    match ans with
    | .data e line ltags stamp true 0 =>
      s1.installFill f { place := f.place, line := f.line, bytes := line, tags := ltags, stamp, desc := e.desc, geo := e.geo,
                         scale := e.scale, scaled := e.ty == .nfs }
    | _ => s1

/-- A slot's load takes its reply: the entry, a retry (R400), or a refusal. -/
def State.slotReply (s : State) (i : Fin 5) (n : Nat) (ans : LoadAns) : State :=
  let put (st : State) (ph : Phase) : State := (st.mapSlot i fun a => { a with phase := ph }).unblock
  match ans with
  | .data e _ _ _ _ _ => put s (.loaded e)
  | .refused c =>
    if c == 0x0C && decide (n < 64) then
      { s with nextRid := s.nextRid + 1 }.mapSlot i fun a => { a with phase := .retryWait s.nextRid (n + 1) }
    else put s (.refused c (c == 0x0F))

/-- Goes on with what waited for a line of another cluster, or refuses it. -/
def State.homeReply (s : State) (r : HomeRead) (ans : LoadAns) : State :=
  let s1 := { s with cl := { s.cl with reads := s.cl.reads.filter fun x : HomeRead => x.rid != r.rid } }
  match ans, r.todo with
  | .data _ line _ _ _ _, .regionCmd who rcb k tok reason got => s1.push (.regionCmd who rcb k tok reason (got ++ [(r.addr, line)]))
  | .data _ line _ _ _ _, .evict rcb rect restore got => s1.push (.evict rcb rect restore (got ++ [(r.addr, line)]))
  | .data _ line _ _ _ _, .ask rcb who what got => s1.push (.ask rcb who what (got ++ [(r.addr, line)]))
  | .data _ _ _ _ _ _, t => s1.push t
  | .refused c, .regionCmd who rcb k tok reason got =>
    if c == 0x0C then s1.push (.regionCmd who rcb k tok reason got)
    else s1.commandStops who rcb k tok reason c
  | .refused c, .ask rcb who what got => if c == 0x0C then s1.push (.ask rcb who what got) else s1.hold (.ask rcb who what [])
  | .refused c, .evict rcb rect restore got =>
    if c == 0x0C then s1.push (.evict rcb rect restore got) else s1.hostAnswer 0x01 c []
  | .refused _, _ => s1

/-- The slot whose load waits under a number. -/
def State.loadWaiter (s : State) (rid : Nat) : Option (Fin 5 × Nat) :=
  (List.finRange 5).findSome? fun i =>
    match (s.slotAct i).phase with
    | .loadWait r n => if r == rid && !(s.joins.any fun j : LoadJoin => j.rid == rid && j.slot == i) then some (i, n) else none
    | _ => none

/-- A load that has joined the fill takes its own part of the line (R91); one that the line cannot serve is issued again. -/
def State.joinReply (ans : LoadAns) (s : State) (j : LoadJoin) : State :=
  match (s.slotAct j.slot).phase with
  | .loadWait r n =>
    if r != j.rid then s
    else
      let put (ph : Phase) : State := (s.mapSlot j.slot fun a => { a with phase := ph }).unblock
      match ans with
      | .data e line ltags stamp refl ckey =>
        let l : ReflLine := { place := 0, line := 0, bytes := line, tags := ltags, stamp, desc := e.desc, geo := e.geo, scale := e.scale,
                              scaled := e.ty == .nfs }
        match l.entry j.oa j.ty j.unit j.q with
        | some (.ok e1) => s.slotReply j.slot n (.data e1 line ltags stamp refl ckey)
        | some (.fault c m) => put (.refused c m)
        | _ => put (if n == 0 then .none else .again n)
      | .refused c => s.slotReply j.slot n (.refused c)
  | _ => s

/-- The loads that joined a fill take its reply, after the load that sent the request. -/
def State.joinsReply (s : State) (rid : Nat) (ans : LoadAns) : State :=
  (s.joins.filter fun j : LoadJoin => j.rid == rid).foldl (State.joinReply ans)
    { s with joins := s.joins.filter fun j : LoadJoin => j.rid != rid }

/-- Another cluster's answer to a register read that was passed on to it (R458). -/
def State.forwardRead (s : State) (rid : Nat) : LoadAns → State
  | .refused code => s.forwardAnswer rid code []
  | .data e _ _ _ _ _ => s.forwardAnswer rid 0 (e.data.take 1)

/-- The phase of a load with `n` retry answers after a reply: refused, to be made again, or with its data. -/
def phaseAfter (n : Nat) : LoadAns → Phase
  | .data e _ _ _ _ _ => .loaded e
  | .refused c => if c == 0x0C && decide (n < 64) then .again (n + 1) else .refused c (c == 0x0F)

/-- A reply reaches a load that has issued behind an incomplete instruction (R278: replies fill their places in any order). -/
def Ahead.reply (rid : Nat) (ans : LoadAns) (x : Ahead) : Ahead :=
  match x.act.phase with
  | .loadWait r n => if r == rid then { x with act := { x.act with phase := phaseAfter n ans, blocked := false } } else x
  | _ => x

def State.aheadReply (s : State) (rid : Nat) (ans : LoadAns) : State :=
  { s with ahead := s.ahead.map fun q => q.map fun r : RunAhead => { r with parts := r.parts.map (Ahead.reply rid ans) } }

/-- LOAD_REPLY: the reply to a read of a slot, of the matrix engine, of the copy engine or of the home. -/
def execLoadReply (rid : Nat) (ans : LoadAns) (s : State) : Out :=
  let s1 := (s.takeFill rid ans).forwardRead rid ans
  match s1.loadWaiter rid with
  | some (i, n) => .next ((s1.slotReply i n ans).joinsReply rid ans)
  | none =>
    match s1.mx.waiter rid, s1.cl.pullQ.find? (fun c : PullCmd => c.wait == some rid && !c.resend),
        s1.cl.reads.find? (fun r : HomeRead => r.rid == rid) with
    | _, some c, _ => s1.pullReply c ans
    | _, none, some r => .next (s1.homeReply r ans)
    | some c, none, none => s1.mxReply c ans
    | none, none, none => .next ((s1.aheadReply rid ans).joinsReply rid ans)

/-! ## Scrub and patrol (R71, R79, R463) -/

/-- The reflection cache of this cluster, which belongs to the partition, holds no line any more. -/
def State.emptyRefl (s : State) (ptn : BitVec 24) : State :=
  if s.cl.ptn == ptn then { s with cl := { s.cl with refl := [], acqCount := s.cl.acqCount + 1 } } else s

/-- The partition that released a frame, if one did since reset: the latest. -/
def Cluster.freedBy (cl : Cluster) (f : Nat) : Option (BitVec 24) :=
  (cl.freed.find? fun x : BitVec 24 × Nat × Nat => decide (x.2.1 ≤ f) && decide (f < x.2.1 + x.2.2)).map fun x => x.1

/-- Before the frame is clean, every reflection cache of the partition that released it has invalidated what it holds (R71 step 3): the
own cluster's now, and those of the others when they have answered one message to them all. That there is one message and one answer is
the model's choice (DESIGN CHOICE, log 104). -/
def State.dropReflections (s : State) (f : Nat) (ptn : BitVec 24) : State :=
  let s1 := (s.emptyRefl ptn).emit (outMsg .invalidate s.cl.place (BitVec.ofNat 64 (f * 0x10000)) s.nextRid 0 [ptn.setWidth 64])
  { s1 with nextRid := s.nextRid + 1, cl := { s1.cl with scrubs := (s.nextRid, f) :: s1.cl.scrubs } }

/-- The frame is clean. -/
def State.markClean (s : State) (f : Nat) : State := { s with cl := { s.cl with clean := markAt f true s.cl.clean } }

/-- The frame is zero, untagged and shadowed (R71 step 1). -/
def State.zeroed (s : State) (f : Nat) : State := s.withMem (s.mem.scrub (f * 0x10000) 0x10000)

/-! ### Windows (R431, R433, R434) -/

/-- The fields of a window register. -/
def hcEn (w : Word) : Bool := w.getLsbD 63
def hcSize (w : Word) : Nat := (w.extractLsb' 32 16).toNat
def hcBase (w : Word) : Nat := (w.extractLsb' 0 16).toNat

/-- The first machine byte of a pair's window, and its bytes. -/
def Cluster.windowAt (cl : Cluster) (k : Fin 16) : Nat := (pairBase cl.vfpair[k] + hcBase cl.hcwin[k]) * 0x10000
def Cluster.windowLen (cl : Cluster) (k : Fin 16) : Nat := hcSize cl.hcwin[k] * 0x10000

/-- Whether a machine line lies in a pair's window. -/
def Cluster.inWindow (cl : Cluster) (k : Fin 16) (line : Nat) : Bool :=
  decide (cl.windowAt k ≤ line) && decide (line < cl.windowAt k + cl.windowLen k)

/-- A refused request (R434): poisoned data or an error completion, and the first refusal in `hcerr`. -/
def State.hostRefuse (s : State) (ag : HostAgent) (off : Nat) (wr : Bool) : State :=
  let a : BitVec 48 := BitVec.ofNat 48 ((Config.hdmBase ag.vf.toNat + off) / 64 * 64)
  let w : Word := (1#1 ++ b1 wr ++ 0#5 ++ b1 ag.port ++ ag.agent ++ a : BitVec 64)
  let s1 := if s.pkg.hcerr.getLsbD 63 then s else { s with pkg := { s.pkg with hcerr := w } }
  s1.emit (outMsg .hostError 0 (a.setWidth 64) ag.agent.toNat 0 [(b1 wr).setWidth 64])

/-- The key of a half. -/
def halfKey (line : Nat) (h : Bool) : Nat := line + if h then 64 else 0

/-- A line is taken from every holder: its requests are refused, and the responses awaited, with their dirty data (R433). -/
def State.recallLine (s : State) (d : DirEnt) : State :=
  let k := (List.finRange 16).find? fun k => s.cl.inWindow k d.line
  let base := (k.map fun k => s.cl.windowAt k).getD 0
  let vf := (k.map fun k => s.cl.vfpair[k].extractLsb' 48 9).getD 0
  let s1 := d.reqs.foldl (fun (t : State) (w : HostWait) =>
    t.hostRefuse w.agent ((w.write.map fun x => x.1).getD (halfKey d.line w.half) - base) w.write.isSome) s
  let s2 := { s1 with cl := { s1.cl with dir := s1.cl.dir.map fun x : DirEnt =>
    if x.line == d.line then { x with reqs := [], closed := some (vf, d.line - base) } else x } }
  let ask (h : Bool) : List Snoop := if d.half h == .I then [] else (d.sharers h).map fun a => { agent := a, half := h, inv := true }
  s2.askAgents d.line (ask false ++ ask true)

/-- Window lines are taken from every holder; those that nobody holds are forgotten. -/
def State.takeLines (s : State) (hit : Nat → Bool) : State :=
  let s1 := (s.cl.dir.filter fun d : DirEnt => hit d.line && d.closed.isNone).foldl State.recallLine s
  { s1 with cl := { s1.cl with dir := s1.cl.dir.filter fun d : DirEnt => !hit d.line || !d.waits.isEmpty } }

/-- A response for a line of a frame is awaited. -/
def Cluster.snooping (cl : Cluster) (f : Nat) : Bool := cl.dir.any fun d : DirEnt => d.line / 0x10000 == f && !d.waits.isEmpty

/-- The scrub engine at a pending frame, behind the accesses that completed under the pair that held it: the frame becomes zero, its lines
taken from every holder (R433), and clean, where a partition released it once that partition's reflection caches have answered. -/
def State.scrubOwn (s : State) (f : Nat) : Out :=
  if s.cl.power == .off || decide (Config.sliceFrames ≤ f) || s.cl.clean.contains f || s.cl.scrubs.any (fun x : Nat × Nat => x.2 == f) then .next s
  else if s.oldWaits || s.cl.snooping f then .next (s.hold (.scrub f))
  else
    let s1 := (s.takeLines fun l => l / 0x10000 == f).zeroed f
    if s1.cl.snooping f then .next (s1.hold (.scrub f))
    else .next (match s.cl.freedBy f with
      | none => (s1.markClean f).wakeHeld
      | some p => (s1.dropReflections f p).wakeHeld)

/-- SCRUB_FRAME: a frame of the own slice, or the message of another home whose frame the partition released. -/
def execScrubFrame (x : ScrubAt) (s : State) : Out :=
  match x with
  | .own frame => s.scrubOwn frame.toNat
  | .other place ptn rid => .next ((s.emptyRefl ptn).emit (outMsg .posReply place 0 rid 0 []))

/-- PATROL_READ: with ecc = 0b01 the home reads a line of its slice and poisons one that cannot be corrected. -/
def execPatrolRead (line : Nat) (struck : List (Fin 144)) (s : State) : Out :=
  if s.cl.clucfg.extractLsb' 4 2 != 1 || decide (Config.sliceFrames * 512 ≤ line) then .next s
  else
    match eccOutcome struck with
    | .clean | .corrected => .next s
    | .uncorrectable => .next { s with mem := s.mem.setPoison (line * 128) true }

/-! ## The cistern's modes (R96 to R99, R106) -/

/-- CSET_CISTERN_FILL: a write of fill = 1 by a control cell, from an activation of a region, is taken, unless a case of R96 refuses
it. -/
def execCsetCisternFill (w : FillAt) (s : State) : Out :=
  let i : Issuer := { cell := w.cell, ctlc := w.cell.val, rcb := w.rcb, own := false }
  if s.cl.fill || s.cl.busy || s.engineBusy || s.othersInSlots i then .next s else .next (s.startCistern true w.cell)

/-- CSET_CISTERN_SERVE: a control cell's write of fill = 0 is taken. -/
def execCsetCisternServe (cell : Fin 64) (s : State) : Out :=
  if !s.cl.fill || s.cl.busy then .next s else .next (s.startCistern false cell)

/-- The change ends: busy clears and the event is posted (R106). Writes to the share were accepted until now (DESIGN CHOICE, log 88). -/
def State.endCistern (s : State) (fill : Bool) : State :=
  ({ s with cl := { s.cl with fill, busy := false } }.postEvent 0x04 0 s.cl.cisIssuer s.cl.pubctr 0x240000000#64
    ((b1 fill).setWidth 64)).wakeHeld

/-- Accesses to the share that the home has accepted still wait, for a refresh window (R97, R99, R100). -/
def inShare (oa : Nat) : Bool := decide (0x240000000 ≤ oa) && decide (oa < 0x244400000)
def State.shareWaits (s : State) : Bool := s.portHolds inShare

/-- The change waits for accesses accepted before. -/
def State.changeLater (s : State) (t : Todo) : State := if s.cl.held.contains t then s else s.hold t

/-- FILL_MODE_ENTERED: every read accepted before has been performed. -/
def execFillModeEntered (s : State) : Out :=
  .next (if s.cl.busy && !s.cl.fill then (if s.shareWaits then s.changeLater .fillDone else s.endCistern true) else s)

/-- SERVE_MODE_RETURN: every write accepted before has been performed, and the publish counter rises. -/
def execServeModeReturn (s : State) : Out :=
  .next (if s.cl.busy && s.cl.fill then
      (if s.shareWaits then s.changeLater .serveDone else { s with cl := { s.cl with pubctr := s.cl.pubctr + 1 } }.endCistern false)
    else s)

/-! ## Refresh windows (R100) -/

/-- The refresh timebase reaches a tick. -/
def State.timeTo (s : State) (tick : Word) : State :=
  if s.cl.aktime.toNat < tick.toNat then { s with cl := { s.cl with aktime := tick } } else s

/-- REFRESH_WINDOW_START, at a multiple of 1,200,000 ticks. -/
def execRefreshWindowStart (tick : Word) (s : State) : Out :=
  .next (if tick.toNat % 1200000 == 0 then (s.timeTo tick).wakeHeld else s)

/-- REFRESH_WINDOW_END, 1,200 ticks later: the accesses that waited go on. -/
def execRefreshWindowEnd (tick : Word) (s : State) : Out :=
  .next (if tick.toNat % 1200000 == 1200 then (s.timeTo tick).wakeHeld else s)

/-! ## The event queue (R102 to R105) -/

/-- EVENT_POST. -/
def execEventPost (kind : BitVec 8) (code : Code) (lcell : BitVec 15) (user addr detail : Word) (s : State) : Out :=
  .next (s.postEvent kind code lcell user addr detail)

/-- CSET_EVQ_HEAD: a control cell consumes entries. -/
def execCsetEvqHead (head : BitVec 9) (s : State) : Out := .next (if s.cl.headOk head then s.consumeEvents head else s)

/-! ## The hold queue (R192, R193) -/

/-- The partition that a held message's slot counts for, the partition's quota, and the slots that it holds now (R192). -/
def State.heldPtn (s : State) (h : HeldMsg) : BitVec 24 := (h.other.map fun x => x.2).getD s.cl.ptn

def State.holdQuota (s : State) (p : BitVec 24) : Nat :=
  if p == s.cl.ptn then s.cl.holdq.toNat
  else ((s.pkg.shares.find? fun x : BitVec 9 × BitVec 24 × BitVec 13 => x.2.1 == p).map fun x => x.2.2.toNat).getD 0

/-- A message that passes goes on as an unheld one: to the modelled cluster, or to another of the package. -/
def State.passBody (s : State) (b : HeldBody) : State :=
  match b with
  | .message who m tok => s.push (.message { who, msg := { m with held := false }, tok })
  | .deposit req => s.push (.deposit req)
  | .atomic req => s.push (.atomicRequest req)
  | .rcmd who rcb k tok => s.push (.regionCmd who rcb k tok 3 [])

/-- The message of a held body as it goes to another cluster. -/
def heldOut : HeldBody → OutMsg
  | .message who m tok => { outMsg .message who.place 0 who.rid 0 [] with
      chan := m.chan, tok, words := plainWords [msgH0 { m with held := false }, msgH1 m] ++ m.words }
  | .deposit req => { outMsg .depositReq req.who.place req.oa req.who.rid 0 [] with tok := req.tok }
  | .atomic req => { outMsg .atomicReq req.who.place req.oa req.who.rid 0 [] with tok := req.tok, words := req.words }
  | .rcmd who rcb k tok => { outMsg .regionCmd who.place rcb who.rid 0 [rcb, k.setWidth 64] with tok }

def State.passHeld (s : State) (h : HeldMsg) : State :=
  match h.other with
  | none => s.passBody h.body
  | some (c, p) =>
    s.release 0 { heldOut h.body with
      ptn := p, route := { away := false, far := false, ppkg := s.pkg.ppkg, die := c.extractLsb' 6 3, pclu := c.extractLsb' 0 6 } } none

/-- A message that is refused. -/
def State.refuseHeld (s : State) (b : HeldBody) (c : Code) : State :=
  match b with
  | .message who _ _ => s.replyNeg who 0 c
  | .deposit req => s.replyNeg req.who req.oa c
  | .atomic req => s.replyNeg req.who req.oa c
  | .rcmd who rcb _ _ => s.replyNeg who rcb c

/-- The release record of a token. -/
def Cluster.relOf (cl : Cluster) (tok : BitVec 24) : Option RelEnt := cl.rels.find? fun r : RelEnt => r.tok == tok

/-- Takes `n` from the record of a token, which goes at 0. -/
def Cluster.spendRel (cl : Cluster) (tok : BitVec 24) (n : Nat) : Cluster :=
  let less (r : RelEnt) : RelEnt := if r.tok == tok then { r with count := r.count - n } else r
  { cl with rels := (cl.rels.map less).filter fun r : RelEnt => r.count != 0 }

/-- A release record more is free for a partition: of its share, and of the package's table (R192). -/
def State.relRoom (s : State) (p : BitVec 24) : Bool :=
  decide ((s.cl.rels.filter fun r : RelEnt => r.ptn == p).length < max 1 (s.holdQuota p / 4)) &&
  decide (s.cl.rels.length < Config.releaseTableSize)

/-- HELD_MESSAGE_ARRIVAL, at the hold queue of the package. -/
def execHeldMessageArrival (held : HeldMsg) (s : State) : Out :=
  match s.cl.relOf held.tok with
  | some _ => .next (({ s with cl := s.cl.spendRel held.tok 1 }.passHeld held).wakeHeld)
  | none =>
    if s.holdQuota (s.heldPtn held) ≤ s.cl.holdUsed (s.heldPtn held) then .next (s.refuseHeld held.body 0x0D)
    else .next { s with cl := { s.cl with hold := s.cl.hold ++ [{ held }] } }

/-- Takes the messages held on a token out of the queue. -/
def State.takeHeld (s : State) (p : HoldEnt → Bool) : State :=
  { s with cl := { s.cl with hold := s.cl.hold.filter fun e : HoldEnt => !p e } }

/-- RELEASE_NOTICE: as many messages as it counts pass, and a record keeps the rest; with no record free the notice waits. -/
def execReleaseNotice (tok : BitVec 24) (n : RelCount) (s : State) : Out :=
  let go := (s.cl.hold.filter fun e : HoldEnt => e.held.tok == tok).take n.count
  let left := n.count - go.length
  let p := n.ptn.getD s.cl.ptn
  let s1 := go.foldl (fun (st : State) (e : HoldEnt) => st.passHeld e.held) (s.takeHeld fun e => go.contains e)
  if left == 0 then .next s1.unblock
  else
    match s1.cl.relOf tok with
    | some _ =>
      .next { s1 with cl := { s1.cl with rels := s1.cl.rels.map fun r : RelEnt =>
        if r.tok == tok then { r with count := r.count + left } else r } }
    | none =>
      if s1.relRoom p then .next { s1 with cl := { s1.cl with rels := s1.cl.rels ++ [{ tok, count := left, ptn := p }] } }
      else .next (s1.hold (.release tok { n with count := left }))

/-- CANCEL_NOTICE: the messages held on the token are refused. -/
def execCancelNotice (tok : BitVec 24) (s : State) : Out :=
  let go := s.cl.hold.filter fun e : HoldEnt => e.held.tok == tok
  .next (go.foldl (fun (st : State) (e : HoldEnt) => st.refuseHeld e.held.body 0x0A) (s.takeHeld fun e => e.held.tok == tok)).unblock

/-- HOLD_TIMER_EXPIRY: one held message is refused. -/
def execHoldTimerExpiry (tok : BitVec 24) (hid : Nat) (s : State) : Out :=
  let p (e : HoldEnt) : Bool := e.held.tok == tok && e.held.hid == hid
  .next ((s.cl.hold.filter p).foldl (fun (st : State) (e : HoldEnt) => st.refuseHeld e.held.body 0x0A) (s.takeHeld p)).unblock

/-- RELEASE_RECORD_EXPIRY: the record is deleted, and a notice that waited for one goes on. -/
def execReleaseRecordExpiry (tok : BitVec 24) (s : State) : Out :=
  .next ({ s with cl := { s.cl with rels := s.cl.rels.filter fun r : RelEnt => r.tok != tok } }.wakeHeld)

end Sys2Proof.Machine
end

