-- ==== Sys2Proof/Machine/Evict.lean ====
section
/-!
DEFINITION. Eviction and restore of cells (R404 to R410, R378, R386): fence, quiesce, the save block, the clear, and the way back.
-/
namespace Sys2Proof.Machine

/-! ## The commands' checks (R405) -/

/-- The address of a cell's save block. -/
def saveBase (base : Word) (n : Fin 64) : Nat := base.toNat + n.val * 0x80000
/-- The bytes of a block that are written (R408). -/
def saveLen : Nat := 0x65080

/-- Whether a rectangle has index 63 of a cluster of the grid. -/
def Cluster.rectHas63 (cl : Cluster) (r : Rect) : Bool :=
  (List.range (cl.cw * cl.ch)).any fun l => r.holds (l % cl.cw * 8 + 7) (l / cl.cw * 8 + 7)

/-- Whether all handler entries of a cell belong to a root's tree. -/
def CellRegs.inTree (c : CellRegs) (root : Word) : Bool :=
  c.handlers.toList.all fun h : Handler => !h.v || c.regs[h.reg].info.chain.contains root

/-- The save blocks of the cells. -/
def State.saveBlocks (s : State) (base : Word) : List (Fin 64) → Home Unit
  | [] => .ok ()
  | n :: ns => (s.blockOk (saveBase base n) 0x80000).bind fun _ => s.saveBlocks base ns

/-- What an eviction finds: the base of the save area. -/
def State.evictOk (s : State) (got : Lines) (rcb : Word) (rect : BitVec 32) : Home Word :=
  (Home.need? (s.cl.rectOk (rectOf rect) && !s.cl.rectHas63 (rectOf rect)) 0x05).bind fun _ =>
    (s.rcbChain got rcb 9).bind fun chain =>
      let info := resolveInfo rcb chain
      let cells := s.cellsIn rect
      let state := (chain.head?.map Rcb.state).getD 0
      (Home.need? (state == 2 && cells.all (fun n => s.cells[n].inTree rcb && !s.cells[n].evicted) && info.evsave != 0) 0x05).bind
        fun _ => (s.saveBlocks info.evsave cells).bind fun _ => .ok info.evsave

/-- What a restore finds. -/
def State.restoreOk (s : State) (got : Lines) (rcb : Word) (rect : BitVec 32) : Home Word :=
  (Home.need? (s.cl.rectOk (rectOf rect)) 0x05).bind fun _ =>
    (s.rcbChain got rcb 9).bind fun chain =>
      let idle := s.pulls.toList.all (fun e : EngId => e.st != .busy) && s.colls.toList.all (fun e : EngId => e.st != .busy) &&
        s.mx.xfers.toList.all fun t : Xfer => t.st != .opened
      let ok (n : Fin 64) : Bool :=
        s.cells[n].evicted && s.cells[n].evRoot == rcb && s.cells[n].handlers.toList.all (fun h : Handler => !h.v) &&
        (n != s.self || idle)
      (Home.need? ((s.cellsIn rect).all ok) 0x05).bind fun _ => .ok (resolveInfo rcb chain).evsave

/-! ## Fence and quiesce (R406 steps 1 to 3) -/

/-- A request stands at an atomic slot of the cells behind the one at work there. -/
def State.behind (s : State) (cells : List (Fin 64)) (x : Fin 64 × AtomReq) : Bool :=
  cells.contains x.1 && s.atomNow.find? (fun y : Fin 64 × AtomReq => y.1 == x.1) != some x

/-- The fence of the cells: atomic requests that have not started and messages in the mesh are answered with retry. -/
def State.fence (s : State) (cells : List (Fin 64)) : State :=
  let s1 := (s.atomNow.filter (s.behind cells)).foldl (fun (st : State) (x : Fin 64 × AtomReq) => st.replyNeg x.2.who x.2.oa 0x0C)
    { s.setFence cells true with atomNow := s.atomNow.filter fun x => !s.behind cells x }
  if !cells.contains s.self then s1
  else
    let s2 := s1.atomQ.foldl (fun (st : State) (r : AtomReq) => st.replyNeg r.who r.oa 0x0C) { s1 with atomQ := [] }
    s2.mesh.foldl (fun (st : State) (m : InMsg) =>
      if st.keepsNotice m then st.hold (.message m) else st.replyNeg m.who 0 0x0C) { s2 with mesh := [] }

/-- A slot of the modelled cell has nothing issued that is not complete: no activation, or one whose instruction waits and can be
withdrawn unissued; a `pub`, `seqadv` or `shade` is waited for (R158, R313). -/
def quietSlot (a : Act) : Bool :=
  !a.live || (a.exq.isEmpty && !a.publishing && (a.trapping.isSome ||
    (match a.phase with
     | .none | .pageFault _ _ _ | .frameWait | .frameBad | .again _ | .retryWait _ _ | .engWait _ | .engQueue _ _ | .waitLost => true
     | _ => false)))

/-- A matrix command can be saved: it stands at a tile boundary, or the first access of its tile has been answered with retry, as every
access to the fenced slot is, so that its tile has not begun (R377, R378, R406; DEDUCED, log 97). -/
def MCmd.canSave (c : MCmd) : Bool := c.atBoundary || (c.wait.isSome && c.retries != 0 && c.tileStart)

/-- The cells are quiet: no walk entry and no atomic request of theirs is at work, and the modelled cell's slots and matrix commands can
be saved. -/
def State.quiet (s : State) (cells : List (Fin 64)) : Bool :=
  let theirs (who : BitVec 15) : Bool := cells.any fun n => s.lcellOf n == who
  !(s.cl.walkQ.any fun e : WalkEnt => theirs e.who) && !(s.cl.walk.any fun w : WalkRun => theirs w.ent.who) &&
  !(s.atomNow.any fun x : Fin 64 × AtomReq => cells.contains x.1) && !(s.cl.atomElse.any fun n : Fin 64 => cells.contains n) &&
  (!cells.contains s.self ||
    (s.atomRun.isNone && (List.finRange 5).all (fun i => quietSlot (s.slotAct i)) && s.mx.queue.all MCmd.canSave))

/-- The instruction of a slot that waits is withdrawn unissued, and the cycles charged to the activation are reported (R203, R406). -/
def State.unissue (s : State) (i : Fin 5) : State :=
  let s1 := s.withdraw i
  let a := s1.slotAct i
  let s2 := if a.live && a.cycles != 0 then s1.reportUse s1.me.regs[a.reg].info.rcb 0 0 a.cycles else s1
  let ph := match a.phase with
    | .retryWait _ n => Phase.again n
    | x => x
  s2.mapSlot i fun b => { b with cycles := 0, phase := ph, blocked := false, atPort := none }

/-! ## The save block (R408) -/

/-- Tags and lit bit of a local-store line. -/
def State.lineMark (s : State) (key : Nat) : Nat :=
  ((List.range 16).foldl (fun n i => if s.mem.tagAt (key + 8 * i) then n + 2 ^ i else n) 0) +
    (if s.mem.litAt key then 65536 else 0)

/-- The key of the first byte of a cell's local store. -/
def Cluster.storeKey (cl : Cluster) (n : Fin 64) : Nat := 0x200000000 + cl.pcell n * 0x40000

/-- A buffer that is saved by its source: one under a ckey (R378), or with a line that was decrypted (R362). -/
def StatBuf.bySource (b : StatBuf) : Bool := b.ckey != 0 || b.secret

/-- The stationary buffers that are saved by their source (R378), by number. -/
def Matrix.bySource (m : Matrix) : List Nat := (List.range 2).filter fun k => m.bufs[Fin.ofNat 2 k].bySource

/-- The bytes of the implementation-defined part, for the save's number; the place of a buffer that is saved by its source is zero. -/
def formatBytes (digest : Nat) (zero : List Nat) : List Byte :=
  (List.range 0x23000).map fun i => if zero.any fun k => decide (0xA000 + 0x4000 * k ≤ i) && decide (i < 0xE000 + 0x4000 * k) then 0 else Config.saveFormat digest i

/-- The block without its seal. -/
def State.blockBytes (s : State) (n : Fin 64) (digest : Nat) : List Byte :=
  let key := s.cl.storeKey n
  s.mem.bytesAt key 0x40000 ++ ((List.range 2048).flatMap fun i => leBytes 4 (s.lineMark (key + 128 * i))) ++
    formatBytes digest (if n == s.self then s.mx.bySource else [])

def State.sealOf (s : State) (block : List Byte) : List Byte := Config.sealOf (s.cl.sealKey.getD 0) block

/-- Writes a run of lines as the home does: untagged. -/
def State.writeBlock (s : State) (oa : Nat) : List (List Byte) → Wrote
  | [] => .ok s
  | bs :: rest =>
    let d : WData := .bytes bs (List.replicate 16 false)
    match s.checkWrite s.deviceReq .engWrite oa d with
    | .ok site => ({ s with mem := s.performAt site oa d }).writeBlock (oa + 128) rest
    | .miss => .miss oa
    | .fault _ _ => .bad
    | _ => .wait oa

/-- Reads `n` lines. -/
def State.readBlock (s : State) (oa : Nat) : Nat → Chk (List Byte)
  | 0 => .ok []
  | n + 1 => (s.checkPort s.deviceReq .engRead oa).bind fun site => (s.readBlock (oa + 128) n).bind fun r => .ok (s.view site 128 ++ r)

/-! ## Save and clear (R406 steps 4 and 5) -/

/-- Whether a range of own space meets a cell's slot. -/
def meetsSlot (n : Fin 64) (lo len : Nat) : Bool :=
  let base := 0x200000000 + n.val * 0x40000
  decide (lo < base + 0x40000) && decide (base < lo + len)

/-- The source row of number `i` of a copy command, where its index can be read. -/
def State.pullRow (s : State) (c : PullCmd) (i : Nat) : Option Nat :=
  match s.pullIndex { c with row := i } with
  | .ok k => some k
  | _ => none

/-- A copy command touches a cell's slot: with its destination, its source or its index vector (R386). -/
def State.pullTouches (s : State) (n : Fin 64) (c : PullCmd) : Bool :=
  c.lcell == s.lcellOf n || (c.gather && meetsSlot n (oaOf (c.w 5)) (4 * c.rows)) ||
  (List.range c.rows).any fun i =>
    meetsSlot n (oaOf (c.w 1 + BitVec.ofNat 64 i * c.w 4)) c.rlen ||
    (s.isHere (c.w 0) && (s.pullRow c i).any fun k => meetsSlot n (oaOf (c.w 0 + BitVec.ofNat 64 k * c.w 3)) c.rlen)

/-- A collective command touches a cell's slot. -/
def State.collTouches (s : State) (n : Fin 64) (c : CollCmd) : Bool :=
  c.lcell == s.lcellOf n || meetsSlot n c.buf (c.nel * tyBytes ((Ty.ofCode c.spec.ety).getD .fp32)) || meetsSlot n c.stage (128 + 12 * c.nel)

/-- A stationary buffer as it is saved: of one that is saved by its source only the source, type and ckey (R378). -/
def StatBuf.saved (b : StatBuf) : StatBuf := if b.bySource then { b with bytes := [], scales := [] } else b

/-- A matrix command as it is saved: its entry and the next row or line to process (R378); no load is inside a tile, so none of its
bytes was decrypted (R362). -/
def MCmd.saved (c : MCmd) : MCmd := { c with wait := none, retryAt := 0, retries := 0 }

/-- The engine's state as it is saved (R378). -/
def Matrix.saved (m : Matrix) : Matrix :=
  { m with bufs := Vector.ofFn fun i : Fin 2 => m.bufs[i].saved, queue := m.queue.map MCmd.saved }

/-- What a cell's save stands for. -/
def State.capture (s : State) (e : EvictRun) (n : Fin 64) (digest : Nat) : SavedCell :=
  { cell := n, root := e.rcb, base := e.base, digest, regs := { s.cells[n] with fenced := false },
    engs := (s.cl.engElse.filter fun k : Fin 64 => k == n).length,
    own := if n == s.self then
        some { act := s.act, slots := s.slots, cur := s.cur, lastSel := s.lastSel, replies := s.replies, toks := s.toks,
               tokSeq := s.tokSeq, parked := s.parked, inbox := s.inbox, yieldBuf := s.yieldBuf, pumpNext := s.pumpNext,
               pulls := s.pulls, colls := s.colls, mx := s.mx.saved }
      else none }

/-- The modelled cell's own context at reset. -/
def State.clearOwn (s : State) : State :=
  { s with act := Act.idle, slots := Vector.replicate 5 Act.idle, lastSel := Vector.replicate 8 31, replies := [], toks := [],
           tokSeq := 0, parked := [], inbox := [], yieldBuf := Vector.replicate 4 none, pumpNext := 0, pumping := false,
           joins := [], pulls := Vector.replicate 4 EngId.reset, colls := Vector.replicate 4 EngId.reset,
           mx := { Matrix.reset with next := s.mx.next } }

/-- Commands that touch the slot of a cell that is cleared are held (R386, R394); where it is the modelled cell, whose commands they all
are, their identifiers are away with it. -/
def State.holdEngines (s : State) (e : EvictRun) (n : Fin 64) : State :=
  let own := n == s.self
  let awayP (c : PullCmd) : PullCmd := if own && c.away.isNone then { c with away := some e.rcb } else c
  let awayC (c : CollCmd) : CollCmd := if own && c.away.isNone then { c with away := some e.rcb } else c
  let ps := s.cl.pullQ.filter (s.pullTouches n)
  let cs := s.cl.collQ.filter (s.collTouches n)
  let cl := { s.cl with
      pullQ := s.cl.pullQ.filter fun c : PullCmd => !s.pullTouches n c
      pullHeld := (s.cl.pullHeld ++ ps.map fun c : PullCmd => { c with started := false, wait := none, resend := false, retries := 0 }).map awayP
      collQ := s.cl.collQ.filter fun c : CollCmd => !s.collTouches n c
      collHeld := (s.cl.collHeld ++ cs.map fun c : CollCmd => { c with awaiting := none }).map awayC }
  (({ s with cl }.push .pullStart).push .collStart).push .collStep

/-- A held command touches the slot of some cell that is still evicted. -/
def State.stillHeld (s : State) (touches : Fin 64 → Bool) : Bool := (List.finRange 64).any fun n => s.cells[n].evicted && touches n

/-- The held commands that no evicted cell keeps go on: copies ahead of those that wait, a collective command behind the one that runs
(R386, R390). -/
def State.freeEngines (s : State) (root : Word) (own : Bool) : State :=
  let backP (c : PullCmd) : PullCmd := if own && c.away == some root then { c with away := none } else c
  let backC (c : CollCmd) : CollCmd := if own && c.away == some root then { c with away := none } else c
  let ps := s.cl.pullHeld.map backP
  let cs := s.cl.collHeld.map backC
  let waitP (c : PullCmd) : Bool := c.away.isSome || s.stillHeld fun n => s.pullTouches n c
  let waitC (c : CollCmd) : Bool := c.away.isSome || s.stillHeld fun n => s.collTouches n c
  let running := s.cl.collQ.takeWhile fun c : CollCmd => c.phase != .queued
  let cl := { s.cl with
      pullQ := (ps.filter fun c : PullCmd => !waitP c) ++ s.cl.pullQ
      pullHeld := ps.filter waitP
      collQ := running ++ (cs.filter fun c : CollCmd => !waitC c) ++ s.cl.collQ.drop running.length
      collHeld := cs.filter waitC }
  (({ s with cl }.push .pullStart).push .collStart).push .collStep

/-- The channels that a cell's entries hold. -/
def CellRegs.channels (c : CellRegs) : BitVec 32 :=
  BitVec.ofNat 32 ((List.finRange 32).foldl (fun n i => if c.handlers[i].v then n + 2 ^ i.val else n) 0)

/-- Clears a cell that has been saved: its local store, tables, registers and engine state. -/
def State.clearCell (s : State) (e : EvictRun) (n : Fin 64) : State :=
  let c := s.cells[n]
  let s1 := (s.holdEngines e n).setCell n { CellRegs.reset with evicted := true, evChans := c.channels, evRoot := e.rcb }
  let s2 := { s1 with
    cl := { s1.cl with engElse := s1.cl.engElse.filter fun k : Fin 64 => k != n }
    mem := s1.mem.scrub (s.cl.storeKey n) 0x40000 }
  if n == s.self then s2.clearOwn else s2

/-- The outcome of the save of cells. -/
inductive SaveRes where
  | ok (s : State)
  | bad
  | miss (oa : Nat)
  | wait (oa : Nat)

/-- Saves and clears the cells in turn. -/
def State.saveCells (s : State) (e : EvictRun) : List (Fin 64) → SaveRes
  | [] => .ok s
  | n :: ns =>
    let digest := s.free
    let body := s.blockBytes n digest
    match s.writeBlock (saveBase e.base n) (chunks 3233 128 (body ++ s.sealOf body)) with
    | .bad => .bad
    | .miss oa => .miss oa
    | .wait oa => .wait oa
    | .ok s1 =>
      let v := s.capture e n digest
      let s2 := { s1 with free := s1.free + 1,
                          saved := s1.saved.filter (fun x : SavedCell => !(x.cell == n && x.root == e.rcb)) ++ [v] }
      (s2.clearCell e n).saveCells e ns

/-- The eviction ends with an answer; a save that could not be written leaves the cells as they were. -/
def State.endEviction (s : State) (e : EvictRun) (code : Code) : State :=
  let s1 := s.setFence e.cells false
  (({ s1 with cl := { s1.cl with evicting := none } }.withMem s1.mem).hostAnswer 0x01 code []).wakeHeld

/-- The save cannot be written: the eviction is refused. -/
def State.saveFails (s : State) : Out :=
  match s.cl.evicting with
  | some e => .next (s.endEviction e 0x05)
  | none => .next s

/-- EVICTION_QUIESCED: the cells are saved once they are quiet, cleared, and the mailbox is answered. -/
def execEvictionQuiesced (s : State) : Out :=
  match s.cl.evicting with
  | none => .next s
  | some e =>
    if !s.quiet e.cells then .next (s.hold .quiesced)
    else
      let s0 := if e.cells.contains s.self then (List.finRange 5).foldl State.unissue s else s
      match s0.saveCells e e.cells with
      | .ok s1 => .next (s1.endEviction e 0)
      | .bad => .next (s0.endEviction e 0x05)
      | .miss oa => .next (s0.missWait oa .engWrite s0.deviceReq .quiesced)
      | .wait oa => .next (s0.holdAt oa .quiesced)

/-! ## Restore (R409) -/

/-- The saved state that a block in memory stands for: its seal holds, and its formatted bytes are those of the save. -/
def State.sealedSave (s : State) (n : Fin 64) (rcb : Word) (bs : List Byte) : Option SavedCell :=
  let body := bs.take 0x65000
  if bs.drop 0x65000 == s.sealOf body then
    s.saved.find? fun v : SavedCell =>
      v.cell == n && v.root == rcb && formatBytes v.digest ((v.own.map fun o => o.mx.bySource).getD []) == body.drop 0x42000
  else none

/-- Writes a line of local store back with its tags and lit bit. -/
def Memory.putLine (m : Memory) (key : Nat) (bs : List Byte) (mark : Nat) : Memory :=
  ((m.setBytes key bs).putTags key true ((List.range 16).map fun i => mark / 2 ^ i % 2 == 1)).setLit key (mark / 65536 % 2 == 1)

/-- The local store of a block. -/
def Memory.putStore (m : Memory) (key : Nat) (bs : List Byte) : Memory :=
  (List.range 2048).foldl (fun (m : Memory) (i : Nat) =>
    m.putLine (key + 128 * i) ((bs.drop (128 * i)).take 128) (leNat ((bs.drop (0x40000 + 4 * i)).take 4))) m

/-- The reloads of buffers that were saved by their source (R378). -/
def State.reloads (s : State) (mx : Matrix) : List MCmd :=
  (List.finRange 2).filterMap fun i : Fin 2 =>
    let b := mx.bufs[i]
    if !b.bySource || !b.valid then none
    else some { s.newCmd .mwld with num := s.mx.next + i.val, aid := 0, reg := b.reg, chan := 0, slot := 0, pc := 0, iw := 0,
                                    wa := b.src, wb := b.ty.code.setWidth 64, sb := i == 1, reload := true }

/-- The modelled cell's context comes back; its commands go on behind the reloads. -/
def State.restoreOwn (s : State) (o : OwnSave) : State :=
  let rl := s.reloads o.mx
  let s1 := { s with act := o.act, slots := o.slots, cur := o.cur, lastSel := o.lastSel, replies := o.replies, toks := o.toks,
                     tokSeq := o.tokSeq, parked := o.parked, inbox := o.inbox, yieldBuf := o.yieldBuf, pumpNext := o.pumpNext,
                     pulls := o.pulls, colls := o.colls,
                     mx := { o.mx with queue := rl ++ o.mx.queue, next := max s.mx.next o.mx.next + 2,
                                       bufs := Vector.ofFn fun i : Fin 2 =>
                                         { o.mx.bufs[i] with valid := o.mx.bufs[i].valid && !o.mx.bufs[i].bySource } } }
  ((s1.mx.queue.filter fun c : MCmd => c.started).foldl (fun (st : State) (c : MCmd) => st.push (.matrixTile c.num)) s1).mxNext

/-- A cell comes back from its block. -/
def State.restoreCell (s : State) (v : SavedCell) (bs : List Byte) : State :=
  let n := v.cell
  let s1 := (s.setCell n { v.regs with evicted := false, evChans := 0, evRoot := 0, fenced := false })
  let s2 := { s1 with
    mem := s1.mem.putStore (s.cl.storeKey n) bs
    cl := { s1.cl with engElse := s1.cl.engElse ++ List.replicate v.engs n }
    saved := s1.saved.filter fun x : SavedCell => !(x.cell == n && x.root == v.root) }
  match v.own with
  | some o => (s2.restoreOwn o).freeEngines v.root true
  | none => s2.freeEngines v.root false

/-- A seal that fails leaves the cell cleared, with nothing kept for the tree (R409). -/
def State.restoreFails (s : State) (n : Fin 64) (rcb : Word) : State :=
  let s1 := { s.setCell n CellRegs.reset with
    mem := s.mem.scrub (s.cl.storeKey n) 0x40000
    cl := { s.cl with pullHeld := s.cl.pullHeld.filter fun c : PullCmd => n != s.self || c.away != some rcb,
                      collHeld := s.cl.collHeld.filter fun c : CollCmd => n != s.self || c.away != some rcb }
    saved := s.saved.filter fun v : SavedCell => !(v.cell == n && v.root == rcb) }
  if n == s.self then s1.clearOwn else s1

/-- The cells have nothing of a tenant in progress. -/
def State.vacant (s : State) (cells : List (Fin 64)) : Bool :=
  !(s.atomNow.any fun x : Fin 64 × AtomReq => cells.contains x.1) && !(s.cl.atomElse.any fun n : Fin 64 => cells.contains n) &&
  (!cells.contains s.self || (s.atomRun.isNone && (List.finRange 5).all fun i => !(s.slotAct i).live))

/-- Restores cells in turn, and the code of the answer. -/
def State.restoreCells (s : State) (rcb base : Word) (code : Code) : List (Fin 64) → Home (State × Code)
  | [] => .ok (s, code)
  | n :: ns =>
    (Chk.home (saveBase base n) .engRead (s.readBlock (saveBase base n) 3233)).bind fun bs =>
      match s.sealedSave n rcb (bs.take saveLen) with
      | some v => (s.restoreCell v bs).restoreCells rcb base code ns
      | none => (s.restoreFails n rcb).restoreCells rcb base 0x0F ns

/-! ## The cells of other clusters (R410) -/

/-- The cells of a logical cluster that a rectangle holds. -/
def Cluster.rectCells (cl : Cluster) (r : Rect) (l : Nat) : List (Fin 64) :=
  (List.finRange 64).filter fun n => r.holds (l % cl.cw * 8 + n.val % 8) (l / cl.cw * 8 + n.val / 8)

/-- The homes of a rectangle's other clusters are told of an eviction, and their cells count as evicted. -/
def State.evictElse (s : State) (rcb : Word) (rect : BitVec 32) : State :=
  let r := rectOf rect
  let ls := (List.range (s.cl.cw * s.cl.ch)).filter fun l => l != s.lclu.toNat && s.cl.rectMeets r l
  { s with cl := { s.cl with evElse := s.cl.evElse ++ ls.map fun l => (rcb, l, s.cl.rectCells r l) } }.tellOthers rcb rect 5

/-- They are told of a restore. -/
def State.restoreElse (s : State) (rcb : Word) (rect : BitVec 32) : State :=
  let r := rectOf rect
  let left (e : Word × Nat × List (Fin 64)) : Word × Nat × List (Fin 64) :=
    if e.1 == rcb then (e.1, e.2.1, e.2.2.filter fun n => !(s.cl.rectCells r e.2.1).contains n) else e
  { s with cl := { s.cl with evElse := (s.cl.evElse.map left).filter fun e : Word × Nat × List (Fin 64) => !e.2.2.isEmpty } }.tellOthers
    rcb rect 6

/-! ## The commands -/

/-- What becomes of a command that needs a line of another cluster, misses, or waits. -/
def State.evictOther {α : Type} (s : State) (t : Todo) : Home α → Out
  | .ok _ => .next s
  | .bad c => .next (s.hostAnswer 0x01 c [])
  | .need a => .next (s.homeNeeds a t)
  | .miss oa kind => .next (s.missWait oa kind s.deviceReq (if kind == .engWrite then .refuseAs 0x05 t else t))
  | .snoop line oa => .next ((s.sendSnoop line).holdAt oa t)
  | .hold oa => .next (s.holdIf oa t)

/-- An eviction: the cells are fenced, and saved when they are quiet; the homes of the rectangle's other clusters are told. -/
def State.evictCmd (s : State) (rcb : Word) (rect : BitVec 32) (got : Lines) : Out :=
  let t : Todo := .evict rcb rect false got
  if s.cl.evicting.isSome then .next (s.hold t)
  else
    match s.evictOk got rcb rect with
    | .ok base =>
      let e : EvictRun := { rcb, rect, base, cells := s.cellsIn rect }
      let s1 := { s with cl := { s.cl with evicting := some e } }.fence e.cells
      .next (((s1.evictElse rcb rect).push .quiesced).unblock)
    | r => s.evictOther t r

/-- A restore (R409): the fence, block, seal, state, what the home held, and the answer. -/
def State.restoreCmd (s : State) (rcb : Word) (rect : BitVec 32) (got : Lines) : Out :=
  let t : Todo := .evict rcb rect true got
  let cells := s.cellsIn rect
  match s.restoreOk got rcb rect with
  | .ok base =>
    let s1 := s.fence cells
    if !s1.vacant cells then .next (s1.hold t)
    else
      match s1.restoreCells rcb base 0 cells with
      | .ok (s2, code) => .next ((((s2.restoreElse rcb rect).withMem s2.mem).hostAnswer 0x01 code []).wakeHeld)
      | .bad c => .next ((s1.setFence cells false).hostAnswer 0x01 c []).wakeHeld
      | r => s1.evictOther t r
  | r => s.evictOther t r

/-- EVICT and RESTORE (R404): the root is resolved as for a region command, and an eviction needs the value that keys its seals
(R446). -/
def execEvict (rcb : Word) (rect : BitVec 32) (ptn : BitVec 24) (s : State) : Out :=
  s.mailbox (.evict rcb rect ptn) fun s1 =>
    match s1.rcbRoute rcb ptn with
    | .refuse => s1.answer 0x01 0x04
    | .pass => .next (s1.forward 0x01 rcb (0#8 ++ ptn ++ rect : BitVec 64))
    | .here => if s1.cl.sealKey.isNone then s1.answer 0x01 0x13 else s1.evictCmd rcb rect []

def execRestore (rcb : Word) (rect : BitVec 32) (ptn : BitVec 24) (s : State) : Out :=
  s.mailbox (.restore rcb rect ptn) fun s1 =>
    match s1.rcbRoute rcb ptn with
    | .refuse => s1.answer 0x01 0x04
    | .pass => .next (s1.forward 0x01 rcb (0#8 ++ ptn ++ rect : BitVec 64))
    | .here => s1.restoreCmd rcb rect []

end Sys2Proof.Machine
end

