-- ==== Sys2Proof/Machine/HostPort.lean ====
section
/-!
DEFINITION. The host's memory requests (R430 to R434): the frames of a window, the directory of its lines with its snoops, host
reads and writes, and what is refused. An address of a request is an offset in the range of the agent's virtual function.
-/
namespace Sys2Proof.Machine

/-! ## Windows (R430, R431) -/

/-- The machine byte of an offset in a virtual function's range, whose host addresses map onto the frames of its window in order. -/
def Cluster.windowByte (cl : Cluster) (vf : BitVec 9) (off : Nat) : Option Nat :=
  (List.finRange 16).findSome? fun k =>
    if pairEn cl.vfpair[k] && hcEn cl.hcwin[k] && cl.vfpair[k].extractLsb' 48 9 == vf && decide (off < cl.windowLen k) &&
        decide (hcBase cl.hcwin[k] * 0x10000 + off < pairSize cl.vfpair[k] * 0x10000) then
      some (cl.windowAt k + off)
    else none

/-- The machine byte at which a port serves an agent: the port has trained as CXL, and the agent is bound to the window's pair. -/
def State.hostByte (s : State) (ag : HostAgent) (off : Nat) : Option Nat :=
  if s.pkg.cxl[portIdx ag.port] then s.cl.windowByte ag.vf off else none

/-- A host write performed at the port (R432): the tags of the words it touches are cleared, the lit bits stay. -/
def State.hostStore (s : State) (key : Nat) (bs : List Byte) : State :=
  s.withMem ((((s.mem.recode 0 key).recode 0 (key + bs.length - 1)).setBytes key bs).clearTags key bs.length)

/-! ## The directory (R433) -/

def DirEnt.new (line : Nat) : DirEnt := { line, h0 := .I, h1 := .I, ptrs := [], coarse := none, waits := [], reqs := [] }

def Cluster.dirOf (cl : Cluster) (line : Nat) : DirEnt := (cl.dir.find? fun d : DirEnt => d.line == line).getD (DirEnt.new line)

def DirEnt.setHalf (d : DirEnt) (h : Bool) (x : HalfState) : DirEnt := if h then { d with h1 := x } else { d with h0 := x }
def halfMask (h : Bool) : BitVec 2 := if h then 2 else 1

/-- The record returns to pointers when both halves are I. -/
def DirEnt.settled (d : DirEnt) : DirEnt := if d.h0 == .I && d.h1 == .I then { d with ptrs := [], coarse := none } else d

/-- Keeps an entry, unless it says nothing. -/
def State.setDir (s : State) (d : DirEnt) : State :=
  let e := d.settled
  let rest := s.cl.dir.filter fun x : DirEnt => x.line != d.line
  { s with cl := { s.cl with dir :=
      if e.h0 == .I && e.h1 == .I && e.waits.isEmpty && e.reqs.isEmpty then rest else rest ++ [e] } }

/-- The groups of eight that a record names. -/
def groupBit (a : BitVec 8) : BitVec 32 := 1#32 <<< (a.toNat / 8)

/-- Records an agent for a half: a pointer, or the coarse vector where none of the four is free. -/
def DirEnt.record (d : DirEnt) (a : BitVec 8) (h : Bool) : DirEnt :=
  match d.coarse with
  | some g => { d with coarse := some (g ||| groupBit a) }
  | none =>
    if d.ptrs.any fun p : BitVec 8 × BitVec 2 => p.1 == a then
      { d with ptrs := d.ptrs.map fun p : BitVec 8 × BitVec 2 => if p.1 == a then (a, p.2 ||| halfMask h) else p }
    else if d.ptrs.length < 4 then { d with ptrs := d.ptrs ++ [(a, halfMask h)] }
    else { d with ptrs := [],
                  coarse := some (d.ptrs.foldl (fun (g : BitVec 32) (p : BitVec 8 × BitVec 2) => g ||| groupBit p.1) (groupBit a)) }

/-- Takes an agent's pointer for a half out of the record. -/
def DirEnt.drop (d : DirEnt) (a : BitVec 8) (h : Bool) : DirEnt :=
  let ps := d.ptrs.map fun p : BitVec 8 × BitVec 2 => if p.1 == a then (a, p.2 &&& ~~~(halfMask h)) else p
  { d with ptrs := ps.filter fun p : BitVec 8 × BitVec 2 => p.2 != 0 }

/-- A half becomes I. -/
def DirEnt.clearHalf (d : DirEnt) (h : Bool) : DirEnt :=
  let ps := d.ptrs.map fun p : BitVec 8 × BitVec 2 => (p.1, p.2 &&& ~~~(halfMask h))
  { d.setHalf h .I with ptrs := ps.filter fun p : BitVec 8 × BitVec 2 => p.2 != 0 }

/-! ## Host reads -/

/-- A host read completes: the agent is recorded and takes the half's bytes. -/
def State.hostGive (s : State) (line : Nat) (w : HostWait) (x : HalfState) : State :=
  let d := ((s.cl.dirOf line).record w.agent.agent w.half).setHalf w.half x
  let key := halfKey line w.half
  (s.setDir d).emit (outMsg .hostData 0 (BitVec.ofNat 64 key) w.agent.agent.toNat (if s.mem.poisoned key then 0x0F else 0)
    (wordsOf 8 (s.mem.viewBytes 0 key 64)))

/-- What a host request meets: it completes (true), or is a read that waits for snoops. -/
def State.hostServe1 (s : State) (line : Nat) (w : HostWait) : State × Bool :=
  match w.write with
  | some (m, bs) => (s.hostStore m bs, true)
  | none =>
  let d := s.cl.dirOf line
  let others := (d.sharers w.half).filter fun a => a != w.agent.agent
  let ask (inv : Bool) : State × Bool :=
    (s.askAgents line (others.map fun a => { agent := a, half := w.half, inv }), false)
  match d.half w.half, w.own with
  | .I, own => (s.hostGive line w (if own then .E else .S), true)
  | .S, false => (s.hostGive line w .S, true)
  | .S, true => if others.isEmpty then (s.hostGive line w .E, true) else ask true
  | .E, _ => if others.isEmpty then (s.hostGive line w .E, true) else ask false

/-- The requests that wait for a line, put back. -/
def State.setReqs (s : State) (line : Nat) (l : List HostWait) : State := s.setDir { s.cl.dirOf line with reqs := l }

/-- Serves requests in order until one has to wait. -/
def State.hostServeAll (line : Nat) : List HostWait → State → State
  | [], s => s.setReqs line []
  | w :: ws, s =>
    match s.hostServe1 line w with
    | (s1, true) => State.hostServeAll line ws s1
    | (s1, false) => s1.setReqs line (w :: ws)

/-- A device read of a machine line that has been made to wait is still to be performed, at a slot's port or as queued work: the line is
held for it (R433). -/
def State.deviceAt (s : State) (line : Nat) : Bool :=
  let here (oa : Nat) : Bool :=
    match s.cl.translate oa with
    | .hit m .. => m / 128 * 128 == line
    | _ => false
  s.portHolds here

/-- The requests of a line go on, unless a snoop is out or a device read holds the line. -/
def State.hostServe (s : State) (line : Nat) : Out :=
  let d := s.cl.dirOf line
  .next (if !d.waits.isEmpty then s else if s.deviceAt line then s.hold (.hostServe line) else State.hostServeAll line d.reqs s)

/-- No snoop of the line that holds a machine byte is out, no device read holds it, and no host request waits for it. -/
def State.hostFree (s : State) (m : Nat) : Bool :=
  let d := s.cl.dirOf (m / 128 * 128)
  d.waits.isEmpty && d.reqs.isEmpty && !s.deviceAt (m / 128 * 128)

/-- A request joins those that wait for a line. -/
def State.hostLater (s : State) (line : Nat) (w : HostWait) : State :=
  let d := s.cl.dirOf line
  let s1 := s.setReqs line (d.reqs ++ [w])
  if d.waits.isEmpty && d.reqs.isEmpty then s1.hold (.hostServe line) else s1

/-- A host read of a half. -/
def State.hostRead (s : State) (ag : HostAgent) (line : Nat) (half own : Bool) : Out :=
  let off := halfKey (128 * line) half
  match s.hostByte ag off with
  | none => .next (s.hostRefuse ag off false)
  | some m =>
    let l := m / 128 * 128
    let w : HostWait := { agent := ag, half, own }
    .next (if s.hostFree m then State.hostServeAll l [w] s else s.hostLater l w)

/-- HOST_SHARED_READ and HOST_OWNERSHIP_READ. -/
def execHostSharedRead (ag : HostAgent) (line : Nat) (half : Bool) (s : State) : Out := s.hostRead ag line half false
def execHostOwnershipRead (ag : HostAgent) (line : Nat) (half : Bool) (s : State) : Out := s.hostRead ag line half true

/-! ## Host writes and responses -/

/-- HOST_WRITEBACK: the holder's writeback of a half in E is a host write, and the half is I. -/
def execHostWriteback (ag : HostAgent) (line : Nat) (half : Bool) (data : List Byte) (s : State) : Out :=
  let off := halfKey (128 * line) half
  match s.hostByte ag off with
  | none => .next (s.hostRefuse ag off true)
  | some m =>
    let d := s.cl.dirOf (m / 128 * 128)
    if d.half half == .E && (d.sharers half).contains ag.agent then
      .next ((s.hostStore m (data.take 64)).setDir (d.clearHalf half))
    else .next s

/-- A host write of the machine bytes from `m`: performed, or put behind what waits for one of its lines (R433). -/
def State.hostPut (s : State) (ag : HostAgent) (m : Nat) (bs : List Byte) : State :=
  let last := m + bs.length - 1
  let wait (a : Nat) : State :=
    s.hostLater (a / 128 * 128) { agent := ag, half := false, own := false, write := some (m, bs) }
  if bs.isEmpty then s else if !s.hostFree m then wait m else if !s.hostFree last then wait last else s.hostStore m bs

/-- HOST_WRITE (R432): served for an agent bound to the window's pair, else refused. -/
def execHostWrite (ag : HostAgent) (addr : Nat) (data : List Byte) (s : State) : Out :=
  let bs := data.take 64
  match s.hostByte ag addr, s.hostByte ag (addr + bs.length - 1) with
  | some m, some _ => .next (s.hostPut ag m bs)
  | _, _ => .next (s.hostRefuse ag addr true)

/-- The directory after a response: the last one of a half settles its state. -/
def DirEnt.answered (d : DirEnt) (w : Snoop) (keep : Bool) : DirEnt :=
  let d1 := { d with waits := d.waits.erase w }
  let d2 := if w.inv || !keep then d1.drop w.agent w.half else d1
  if d2.waits.any (fun x : Snoop => x.half == w.half) || d2.half w.half == .I then d2
  else if w.inv || (d2.sharers w.half).isEmpty then d2.clearHalf w.half
  else d2.setHalf w.half .S

/-- The machine byte of a half that a response names: in an enabled window, or in one that is being taken back (R433). -/
def State.snoopAt (s : State) (ag : HostAgent) (line : Nat) (half : Bool) : Option Nat :=
  match s.hostByte ag (halfKey (128 * line) half) with
  | some m => some m
  | none => (s.cl.dir.find? fun d : DirEnt => d.closed == some (ag.vf, 128 * line)).map fun d => halfKey d.line half

/-- SNOOP_RESPONSE: dirty data is a host write; after the last response, what waited for the line goes on, device reads first. -/
def execSnoopResponse (ag : HostAgent) (line : Nat) (half : Bool) (dirty : Option (List Byte)) (keep : Bool) (s : State) : Out :=
  match s.snoopAt ag line half with
  | none => .next s
  | some m =>
    let d := s.cl.dirOf (m / 128 * 128)
    match d.waits.find? fun x : Snoop => x.agent == ag.agent && x.half == half with
    | none => .next s
    | some w =>
      let s1 := match dirty with
        | some bs => s.hostStore m (bs.take 64)
        | none => s
      let d1 := d.answered w keep
      let s2 := s1.setDir d1
      if !d1.waits.isEmpty then .next s2
      else .next (if d1.reqs.isEmpty then s2.wakeHeld.pollWatches else s2.wakeHeld.pollWatches.hold (.hostServe d.line))

/-- RDCURR_FILL (R430): on a command of the mailbox a home reads a line of host memory with RdCurr, over a port that has trained as CXL, and
fills a line of a window frame with it, as a host write; `line` is a machine line, and the read is what leaves. -/
def execRdcurrFill (line : Nat) (data : List Byte) (s : State) : Out :=
  let inside := s.pkg.cxl.any id && (List.finRange 16).any fun k =>
    pairEn s.cl.vfpair[k] && hcEn s.cl.hcwin[k] && decide (s.cl.windowAt k ≤ 128 * line) &&
    decide (128 * line < s.cl.windowAt k + s.cl.windowLen k)
  .next (if inside then (s.emit (outMsg .hostRead 0 (BitVec.ofNat 64 (128 * line)) 0 0 [])).hostPut { port := false, agent := 0, vf := 0 } (128 * line) (data.take 128) else s)

/-- HOST_PORT_TRAINS (R430): a port that falls back to PCIe 6.0 serves no window, as the port of a bare die does (R456). -/
def execHostPortTrains (port cxl : Bool) (s : State) : Out :=
  .next { s with pkg := { s.pkg with cxl := s.pkg.cxl.set (portIdx port) (cxl && !s.pkg.bare) } }

/-! ## Window registers (R431) -/

/-- A window is disabled with its pair (R431, R433): its lines are taken from every holder. -/
def State.closeWindow (s : State) (k : Fin 16) : State :=
  if !hcEn s.cl.hcwin[k] then s
  else
    let s1 := s.takeLines (s.cl.inWindow k)
    { s1 with cl := { s1.cl with hcwin := s1.cl.hcwin.set k (s.cl.hcwin[k] &&& ~~~(1#64 <<< 63)) } }

/-- What R431 asks of a window register's new value. -/
def Cluster.hcwinOk (cl : Cluster) (k : Fin 16) (v : Word) : Bool :=
  zeroAt v 48 15 && zeroAt v 16 16 && pairEn cl.vfpair[k] && decide (hcBase v + hcSize v ≤ pairSize cl.vfpair[k]) &&
  !(hcEn cl.hcwin[k] && cl.dir.any fun d : DirEnt => cl.inWindow k d.line)

end Sys2Proof.Machine
end

