-- ==== Sys2Proof/Machine/Fabric.lean ====
section
/-!
DEFINITION. The rotor fabric (R414 to R424), lost packages (R39, R194, R402, R425) and far links (R426 to R429, R451). A message of
this package leaves as flits, or in frames of a far link; a message that its flits complete here is the step that it means.
-/
namespace Sys2Proof

/-- The steps that a message of another package can mean: what the fabric carries. -/
def Instr.fromFabric : Instr → Bool
  | .loadAtPort .. | .loadReply .. | .depositAtOwner .. | .atomicRequestArrival .. | .atomicReply .. | .positiveReply ..
  | .negativeReply .. | .landingAck .. | .heldMessageArrival .. | .releaseNotice .. | .cancelNotice .. | .messageArrival ..
  | .watchAtOwner .. | .watchReplace .. | .watchAnswer .. | .tokenExpiry .. | .grantRequest .. | .grantArrival ..
  | .activationReport .. | .regionLaunch .. | .regionPause .. | .regionResume .. | .regionEnd .. | .handlerInstall ..
  | .pauseAtCell .. | .endAtCell .. | .barsetCheck .. | .barrierSignal .. | .barrierRelease .. | .preadyAtCell .. | .pullAccess ..
  | .collStep .. => true
  | _ => false

end Sys2Proof

namespace Sys2Proof.Machine

/-! ## Ports and schedule (R415, R416) -/

def portLanes (w : Word) : BitVec 8 := w.extractLsb' 48 8
def portThr (w : Word) : Nat := (w.extractLsb' 40 8).toNat
def portAdis (w : Word) : Bool := w.getLsbD 39

def Package.fabtime (p : Package) : Nat := (p.fabWord 0x110).toNat
/-- The active bank, and the slots of a bank's cycle. -/
def Package.bank (p : Package) : Bool := (p.fabWord 0x100).getLsbD 63
def Package.nslot (p : Package) (bank : Bool) : Nat :=
  ((p.fabWord 0x100).extractLsb' (if bank then 9 else 0) 9).toNat + 1

/-- An entry of a bank. -/
def Package.schedule (p : Package) (bank : Bool) (sl : Nat) (j : Fin 32) : BitVec 32 :=
  let off := 0x20000 + (if bank then 0x10000 else 0) + 4 * (32 * sl + j.val)
  (p.fabWord (off / 8 * 8)).extractLsb' (if off % 8 == 0 then 0 else 32) 32

/-- The flits that a port carries in a slot, its lanes clipped to the fused ones and its rate to the fused rate (R423, R453). -/
def Package.capacity (p : Package) (j : Fin 32) : Nat :=
  let on := portLanes (p.port j) &&& Config.fusedLanes j.val
  min 2265 (Config.fusedRate j.val) * ((List.range 8).filter fun i => on.getLsbD i).length / 8

/-- The pending switch takes place (R416). -/
def Package.switchBank (p : Package) : Package :=
  if p.switchAt == some p.fabtime then
    { p.setFab 0x100 ((p.fabWord 0x100 ^^^ (1#64 <<< 63)) &&& ~~~(1#64 <<< 62)) with switchAt := none, bankStart := p.fabtime }
  else p

/-- Lanes whose score fell are disabled at a slot boundary (R423). -/
def Package.dropLanes (p : Package) : Package :=
  { p.laneOff.foldl (fun (q : Package) (x : Fin 32 × Fin 8) =>
      q.setFab (8 * x.1.val) (q.port x.1 &&& ~~~(1#64 <<< (48 + x.2.val)))) p with laneOff := [] }

/-! ## A slot (R417 to R419, R424, R425) -/

/-- The enabled lanes of a port, its lanes clipped to the fused ones (R453). -/
def Package.lanesOn (p : Package) (j : Fin 32) : List (Fin 8) :=
  (List.finRange 8).filter fun i => (portLanes (p.port j) &&& Config.fusedLanes j.val).getLsbD i.val

/-- A flit leaves on a port, striped over the enabled lanes: each lane's number with the bytes that it carries (R421). -/
def State.sendFlit (s : State) (j : Fin 32) (f : Flit) : State :=
  let lanes := s.pkg.lanesOn j
  let bs := f.words.flatMap bytesOf
  s.emit (outMsg .flit (f.dst.setWidth 64) (BitVec.ofNat 64 j.val) 0 0 (lanes.zipIdx.flatMap fun x : Fin 8 × Nat =>
    let part := stripe lanes.length x.2 bs
    BitVec.ofNat 64 x.1.val :: wordsOf ((part.length + 7) / 8) part))

/-- A control flit between the ends of a port, outside every stream (log 52). -/
def Package.controlFlit (p : Package) (peer : BitVec 18) (what : Nat) (l : List Nat) : Flit :=
  { dst := peer, src := p.ppkg, cls := 3, rly := false, last := true, seq := 0, body := controlBody what l }

/-- The opening flit of a slot: the own package, and whether it has room for multicast copies (R417, R424). -/
def Package.opening (p : Package) (peer : BitVec 18) : Flit :=
  p.controlFlit peer 0 [p.ppkg.toNat, if p.copies.length < Config.copyRoom then 1 else 0]

/-- The flit of a multicast copy. -/
def Package.copyFlit (p : Package) (peer : BitVec 18) (c : McCopy) : Flit :=
  p.controlFlit peer (match c.note with | .lost _ => 1 | .switch _ => 2)
    [c.group.toNat, c.seq.toNat, match c.note with | .lost q => q.toNat | .switch n => n]

/-! ## Lane health (R423) -/

/-- A lane's register at the end of a window. -/
def laneWord (corr : BitVec 16) (repl : BitVec 16) (mism : BitVec 8) : Word :=
  let score : Nat := 255 - min 255 (corr.toNat / 16 + 4 * repl.toNat)
  (BitVec.ofNat 8 score ++ mism ++ 0#16 ++ repl ++ corr : BitVec 64)

/-- Bursts corrected on a lane, and flits of a port resent, in the window so far, with `n` more; flits resent count on an enabled lane. -/
def Package.laneCorrected (p : Package) (port : Fin 32) (i : Fin 8) (n : Nat) : BitVec 16 :=
  BitVec.ofNat 16 (min 65535 (p.laneCorr.toList.getD (8 * port.val + i.val) 0 + n))
def Package.laneResent (p : Package) (port : Fin 32) (i : Fin 8) (n : Nat) : BitVec 16 :=
  if (portLanes (p.port port)).getLsbD i.val then BitVec.ofNat 16 (min 65535 (p.laneRepl[port] + n)) else 0

def State.laneWindow (port : Fin 32) (corr : List (BitVec 16)) (repl : BitVec 16) (s : State) (i : Fin 8) : State :=
  let p := s.pkg.port port
  let w := laneWord (s.pkg.laneCorrected port i (corr.getD i.val 0).toNat) (s.pkg.laneResent port i repl.toNat) s.pkg.mism[port]
  let s1 := { s with pkg := s.pkg.setFab (0x800 + 8 * (8 * port.val + i.val)) w }
  if decide (portThr p ≤ (w.extractLsb' 56 8).toNat) then s1
  else
    let s2 := s1.postHost 0x02 0 (BitVec.ofNat 64 (port.val * 256 + i.val)) w
    if portAdis p && (portLanes p).getLsbD i.val then { s2 with pkg := { s2.pkg with laneOff := s2.pkg.laneOff ++ [(port, i)] } } else s2

/-- A window of a port ends: every lane's register is renewed, and the counts begin anew. -/
def State.endWindow (s : State) (port : Fin 32) (corr : List (BitVec 16)) (repl : BitVec 16) : State :=
  let s1 := (List.finRange 8).foldl (State.laneWindow port corr repl) s
  { s1 with pkg := { s1.pkg with
      mism := s1.pkg.mism.set port 0
      laneRepl := s1.pkg.laneRepl.set port 0
      laneCorr := Vector.ofFn fun k : Fin 256 => if k.val / 8 == port.val then 0 else s1.pkg.laneCorr[k] } }

/-- Flits pass a port, some of them resent: 2^20 end its window. Both directions count (DESIGN CHOICE, log 52). -/
def State.countFlits (s : State) (port : Fin 32) (n resent : Nat) : State :=
  let m := s.pkg.laneFlits[port] + n
  let s1 := { s with pkg := { s.pkg with laneFlits := s.pkg.laneFlits.set port (if m < 2 ^ 20 then m else m - 2 ^ 20)
                                         laneRepl := s.pkg.laneRepl.set port (s.pkg.laneRepl[port] + resent) } }
  if m < 2 ^ 20 then s1 else s1.endWindow port [] 0

/-- LANE_HEALTH_WINDOW: the rest of a port's window has passed, with bursts corrected and flits resent beside those counted; the
mismatches are those that the port has counted (R417), whatever the step names. -/
def execLaneHealthWindow (port : Fin 32) (corr : List (BitVec 16)) (repl : BitVec 16) (_mism : BitVec 8) (s : State) : Out :=
  .next ({ s with pkg := { s.pkg with laneFlits := s.pkg.laneFlits.set port 0 } }.endWindow port corr repl)

/-! ## Paths (R417 to R419, R422, R424, R425) -/

/-- The peer that the active bank gives a port in a slot, where the port is an enabled rotor port and the entry is valid. -/
def Package.scheduled (p : Package) (pos : Nat) (j : Fin 32) : Option (BitVec 18) :=
  let w := p.port j
  let e := p.schedule p.bank pos j
  if !portEn w || portMode w != 0 || !e.getLsbD 31 then none else some (e.extractLsb' 0 18)

/-- Whether a port is matched to a package in the slot. -/
def Package.direct (p : Package) (peers : List (Option PortSlot)) (pos : Nat) (d : BitVec 18) : Bool :=
  (List.finRange 32).any fun j => p.scheduled pos j == some d && (peers.getD j.val none).any fun x : PortSlot => x.peer == d

/-- Whether the next direct slot of a package is far enough away for a relay (R418, R419). -/
def Package.mayRelay (p : Package) (pos : Nat) (d : BitVec 18) : Bool :=
  let thr := ((p.fabWord 0x118).extractLsb' 32 16).toNat
  let n := p.nslot p.bank
  thr != 0 && !((List.range (min (thr - 1) n)).any fun k =>
    (List.finRange 32).any fun j => p.scheduled ((pos + k + 1) % n) j == some d)

/-- Own flits that a port may carry, of those not sent in the slot yet: direct ones, and those that take a relay (R418). -/
def Package.ownFor (p : Package) (peers : List (Option PortSlot)) (pos : Nat) (j : Fin 32) (peer : BitVec 18) (pool : List TxFlit) :
    List TxFlit :=
  (pool.zipIdx.filter fun x : TxFlit × Nat =>
    x.1.flit.dst == peer ||
    (!p.direct peers pos x.1.flit.dst && p.mayRelay pos x.1.flit.dst && Config.relayTaken p.fabtime (32 * x.2 + j.val))).map
    fun x => x.1

/-- Two queues in the ratio of their weights (R395), for at most `n` rounds. -/
def weave {α : Type} (wc wo : Nat) : Nat → List α → List α → List α
  | 0, xs, ys => xs ++ ys
  | n + 1, xs, ys =>
    if xs.isEmpty then ys else if ys.isEmpty then xs
    else xs.take wc ++ ys.take wo ++ weave wc wo n (xs.drop wc) (ys.drop wo)

/-- The flit as it travels on a port: through an intermediate, or to its destination. -/
def TxFlit.toward (x : TxFlit) (peer : BitVec 18) : Flit := if x.flit.dst == peer then x.flit else { x.flit with rly := true }

/-- An own flit after its slot: delivered, counted against its intermediate (R420), or resent later (R422). -/
def TxFlit.after (acked : List TxFlit) (peer : BitVec 18) (x : TxFlit) : Option TxFlit :=
  if !acked.contains x then some x
  else if x.flit.dst == peer then none
  else some { x with via := some peer }

/-- The port that carries a branch's next direct slot, from a position of the cycle on. -/
def Package.nextPort (p : Package) (pos : Nat) (b : BitVec 18) : Option (Fin 32) :=
  (List.range (p.nslot p.bank)).findSome? fun k =>
    (List.finRange 32).find? fun j => p.scheduled ((pos + k) % p.nslot p.bank) j == some b

/-- The pending-port mask of a copy (R424). -/
def Package.portMask (p : Package) (pos : Nat) (c : McCopy) : BitVec 32 :=
  c.pending.foldl (fun (w : BitVec 32) (b : BitVec 18) =>
    match p.nextPort pos b with
    | some j => w ||| (1#32 <<< j.val)
    | none => w) 0

/-- The machine byte of a place of the spill area, where that lies in the own cluster (R419). -/
def State.spillAt (s : State) (n : Nat) : Option Nat :=
  let w := s.pkg.fabWord 0x120
  if w.extractLsb' 55 3 == s.cl.die && w.extractLsb' 49 6 == s.cl.pclu then some ((w.extractLsb' 0 16).toNat * 0x10000 + 256 * n) else none

/-- A held flit as it leaves: one that was spilled is read back from the area (R419). -/
def State.readBack (s : State) (f : Flit) : Flit :=
  match s.pkg.spill.find? fun x : Nat × Flit => x.2 == f with
  | none => f
  | some x =>
    match s.spillAt x.1 with
    | some a => Flit.ofBytes (s.mem.viewBytes 0 a 240)
    | none => f

/-- What a slot carries: the flits in order, and after each refusal, by position, that flit and every later one again (R422). -/
def resent (cap : Nat) (fs : List Flit) (refused : List Nat) : List Flit := (fs ++ refused.flatMap fun r => fs.drop r).take cap

/-- What a port holds after `n` acknowledged flits. -/
def Package.leaveHeld (p : Package) (gone : List Flit) : Package :=
  { p with relay := gone.foldl (fun (l : List Flit) (f : Flit) => l.erase f) p.relay
           spill := p.spill.filter fun x : Nat × Flit => !gone.contains x.2 }

/-- A matched port: the opening, then copies whose branch is the peer, where it has room for them, then held flits for it in arrival order,
then own ones; what the slot's end leaves unacknowledged stays. -/
def State.matched (s : State) (peers : List (Option PortSlot)) (pos : Nat) (j : Fin 32) (x : PortSlot)
    (pool : List TxFlit) : State × List TxFlit :=
  let cap := s.pkg.capacity j - 1
  let copies := (if x.room then s.pkg.copies.filter (fun c : McCopy =>
    c.pending.contains x.peer && (s.pkg.portMask pos c).getLsbD j.val) else []).take cap
  let held := (s.pkg.relay.filter fun f : Flit => f.dst == x.peer).take (cap - copies.length)
  let own := s.pkg.ownFor peers pos j x.peer pool
  let coll := own.filter fun t : TxFlit => t.flit.cls == 1
  let other := own.filter fun t : TxFlit => t.flit.cls != 1
  let mine := (weave (s.cl.collbw.extractLsb' 0 4).toNat (s.cl.collbw.extractLsb' 4 4).toNat own.length coll other).take
    (cap - copies.length - held.length)
  let goneCopies := copies.take x.acked
  let goneHeld := held.take (x.acked - copies.length)
  let goneOwn := mine.take (x.acked - copies.length - held.length)
  let flits := (s.pkg.opening x.peer :: copies.map (s.pkg.copyFlit x.peer)) ++ held.map s.readBack ++ mine.map fun t => t.toward x.peer
  let sent := resent (s.pkg.capacity j) flits x.refused
  let rest := s.pkg.copies.map fun c : McCopy =>
    if goneCopies.contains c then { c with pending := c.pending.filter fun b => b != x.peer } else c
  let s1 := { s with pkg := { s.pkg.leaveHeld goneHeld with copies := rest.filter fun c : McCopy => !c.pending.isEmpty
                                                            tx := s.pkg.tx.filterMap (TxFlit.after goneOwn x.peer)
                                                            met := x.peer :: s.pkg.met.filter fun b => b != x.peer } }
  ((sent.foldl (fun (st : State) (f : Flit) => st.sendFlit j f) s1).countFlits j sent.length (sent.length - flits.length),
    pool.filter fun t => !mine.contains t)

/-- The port is idle for the slot, and counts a mismatch. -/
def State.missed (s : State) (j : Fin 32) (peer : BitVec 18) : State :=
  let n := s.pkg.mism[j]
  { s with pkg := { s.pkg with
      mism := s.pkg.mism.set j (if n == 255 then n else n + 1)
      absent := if s.pkg.absent.any fun x : Fin 32 × BitVec 18 => x.2 == peer then s.pkg.absent else s.pkg.absent ++ [(j, peer)] } }

/-- A port in a slot: it opens, and sends more only where the received opening names the scheduled peer. -/
def State.portSlot (peers : List (Option PortSlot)) (pos : Nat) (acc : State × List TxFlit) (j : Fin 32) : State × List TxFlit :=
  match acc.1.pkg.scheduled pos j with
  | none => acc
  | some peer =>
    let alone := ((acc.1.sendFlit j (acc.1.pkg.opening peer)).missed j peer).countFlits j 1 0
    match peers.getD j.val none with
    | some x => if x.peer == peer then acc.1.matched peers pos j x acc.2 else (alone, acc.2)
    | none => (alone, acc.2)

/-- The end of a cycle reports the peers that were absent all through it (R425). -/
def State.endCycle (s : State) : State :=
  let gone := s.pkg.absent.filter fun x : Fin 32 × BitVec 18 => !s.pkg.met.contains x.2
  gone.foldl (fun (st : State) (x : Fin 32 × BitVec 18) => st.postHost 0x04 0 (BitVec.ofNat 64 x.1.val) (x.2.setWidth 64))
    { s with pkg := { s.pkg with absent := [], met := [] } }

/-- FABRIC_SLOT: a slot of the schedule passes. `peers` is what each port meets; an own flit is sent on at most one port. -/
def execFabricSlot (peers : List (Option PortSlot)) (s : State) : Out :=
  let s1 := { s with pkg := { s.pkg.switchBank.dropLanes with rxPos := Vector.replicate 32 0 } }
  let n := s1.pkg.nslot s1.pkg.bank
  let pos := (s1.pkg.fabtime - s1.pkg.bankStart) % n
  let pool := s1.pkg.tx.filter fun t : TxFlit => t.via.isNone
  let s2 := ((List.finRange 32).foldl (State.portSlot peers pos) (s1, pool)).1
  let s3 := if pos + 1 == n then s2.endCycle else s2
  .next { s3 with pkg := s3.pkg.setFab 0x110 (s3.pkg.fabWord 0x110 + 1) }

/-! ## Flits that arrive (R419, R420, R422) -/

/-- Whether a sequence number has been passed. -/
def Stream.passed (st : Stream) (q : BitVec 20) : Bool := decide (2 ^ 19 ≤ (q - st.next).toNat)

/-- A stream after a flit that stands next in it, with the message that it completes. -/
def Stream.after (st : Stream) (f : Flit) : Stream :=
  { st with next := st.next + 1, held := st.held.erase f, part := if f.last then [] else st.part ++ f.body, broken := st.broken && !f.last }
def Stream.message (st : Stream) (f : Flit) : List (List Byte) := if f.last && !st.broken then [st.part ++ f.body] else []

/-- A stream after a number that its source has passed: the rest of that message is dropped. -/
def Stream.skip (st : Stream) (g : BitVec 20 × Bool) : Stream :=
  { st with next := st.next + 1, gone := st.gone.erase g, part := [], broken := !g.2 }

/-- Delivers what stands next in a stream, for at most `n` numbers, with the messages in order. -/
def Stream.deliver : Nat → Stream → Stream × List (List Byte)
  | 0, st => (st, [])
  | n + 1, st =>
    match st.held.find? fun f : Flit => f.seq == st.next with
    | some f => let r := Stream.deliver n (st.after f); (r.1, st.message f ++ r.2)
    | none =>
      match st.gone.find? fun g : BitVec 20 × Bool => g.1 == st.next with
      | some g => Stream.deliver n (st.skip g)
      | none => (st, [])

/-- The stream of a flit. -/
def Package.streamOf (p : Package) (f : Flit) : Stream :=
  (p.streams.find? fun x : Stream => x.src == f.src && x.cls == f.cls).getD { src := f.src, cls := f.cls, next := 0, held := [] }

/-- Flits of 256 bytes that the reorder buffer holds (R420), and that relaying holds on chip and in the spill area (R419). -/
def reorderRoom : Nat := 65536
def Package.relayRoom (p : Package) : Nat :=
  let w := p.fabWord 0x120
  262144 + if w.getLsbD 63 then (w.extractLsb' 16 16).toNat * 256 else 0

/-- Messages that their flits have completed are what happens next, in their order (R420). -/
def State.heard (s : State) (f : Flit) (ms : List (List Byte)) : State :=
  if f.cls == 2 || f.cls == 3 then s
  else { s with world := ((ms.filterMap fun bs => (Config.unpacked f.src f.cls bs).filter Instr.fromFabric).map some) ++ s.world }

/-- A control flit for the other end of a stream. -/
def State.tellStream (s : State) (dst : BitVec 18) (what : Nat) (l : List Nat) : State :=
  { s with pkg := s.pkg.queueFlits dst 2 (controlBody what l) none }

/-- The end-to-end acknowledgement of a relayed flit; acknowledgements have none. -/
def State.ackFlit (s : State) (f : Flit) : State :=
  if f.rly && f.cls != 2 then s.tellStream f.src 0 [f.cls.toNat, f.seq.toNat] else s

/-- An acknowledgement takes the flit it names from its intermediate. -/
def Package.acked (p : Package) (f : Flit) : Package :=
  if f.cls == 2 && f.control == 0 then
    { p with tx := p.tx.filter fun t : TxFlit =>
        !(t.via.isSome && t.flit.dst == f.src && t.flit.cls.toNat == f.number 0 && t.flit.seq.toNat == f.number 1) }
  else p

/-- A stream is kept, and what stands next in it delivered. -/
def State.streamOn (s : State) (f : Flit) (st : Stream) : State :=
  let rest := s.pkg.streams.filter fun x : Stream => !(x.src == st.src && x.cls == st.cls)
  let r := Stream.deliver (st.held.length + st.gone.length + 1) st
  { s with pkg := { s.pkg with streams := rest ++ [r.1] } }.heard f r.2

/-- A note that the source has passed a number of a stream: its flit was lost with an intermediate (R420). -/
def State.passNote (s : State) (f : Flit) : State :=
  let g : Flit := { f with cls := BitVec.ofNat 2 (f.number 0), seq := BitVec.ofNat 20 (f.number 1) }
  let st := s.pkg.streamOf g
  if st.passed g.seq || st.held.any (fun x : Flit => x.seq == g.seq) then s
  else s.streamOn g { st with gone := st.gone ++ [(g.seq, f.number 2 == 1)] }

/-- What a flit of class 2 does as it arrives. -/
def State.control (s : State) (f : Flit) : State :=
  if f.cls == 2 && f.control == 1 then s.passNote f else { s with pkg := s.pkg.acked f }

/-- A flit for this package joins its stream; a passed one is discarded, and one that does not fit is not acknowledged. -/
def State.takeFlit (s : State) (f : Flit) : State :=
  let st := s.pkg.streamOf f
  let held := s.pkg.streams.foldl (fun (n : Nat) (x : Stream) => n + x.held.length) 0
  if st.passed f.seq || st.held.any (fun x : Flit => x.seq == f.seq) then s.ackFlit f
  else if f.seq != st.next && decide (reorderRoom ≤ held) then s
  else ((s.streamOn f { st with held := st.held ++ [f] }).control f).ackFlit f

/-! ## Lost packages (R39, R194, R402, R425) -/

/-- The logical packages bound to a physical one. -/
def State.boundTo (s : State) (p : BitVec 18) : List Nat :=
  (List.range s.cl.pkgbound.toNat).filter fun n =>
    let e := s.pkgEntry n
    e.extractLsb' 30 2 == 1 && e.extractLsb' 0 18 == p

/-- Writes an entry of the package table. -/
def State.setPkgEntry (s : State) (n : Nat) (e : BitVec 32) : State :=
  s.withMem (s.mem.setBytes (s.cl.pkgbase.toNat + 4 * n) (leBytes 4 e.toNat))

/-- Whether a place lies in one of the logical packages. -/
def inPackages (l : List Nat) (a : Word) : Bool := a.getLsbD 63 && l.contains (a.extractLsb' 45 18).toNat

/-- The prefix of a logical package. -/
def pkgPrefix (n : Nat) : Word := (1#1 ++ BitVec.ofNat 18 n ++ 0#45 : BitVec 64)

/-- Reflections, floors and fills of places are forgotten (R94). -/
def Cluster.forget (cl : Cluster) (hit : Word → Bool) : Cluster :=
  { cl with refl := cl.refl.filter (fun l : ReflLine => !hit l.place), floor := cl.floor.filter (fun e : FloorEnt => !hit e.place),
            fills := cl.fills.filter fun f : Fill => !hit f.place }

/-- The reads of this cluster that wait for owners, by number. -/
def State.lostReads (s : State) (hit : Word → Bool) : List Nat :=
  let mx := s.mx.queue.filterMap fun c : MCmd => if c.isLoad && hit c.wa then c.wait else none
  let pulls := s.cl.pullQ.filterMap fun c : PullCmd =>
    match c.wait with
    | some r => if !c.resend && hit (s.pullSource c) then some r else none
    | none => none
  ((s.cl.fills.filter fun f : Fill => hit f.place).map fun f => f.rid) ++ mx ++ pulls ++
    ((s.cl.reads.filter fun r : HomeRead => hit r.addr).map fun r => r.rid)

/-- The watches that wait for owners, those of an evicted cell among them. -/
def State.lostWatches (s : State) (hit : Word → Bool) : List Nat :=
  ((s.allWatches ++ s.ownSaves.flatMap OwnSave.watches).filter fun w : WatchReg => w.st == .pending && hit w.addr).map fun w => w.rid

/-- The members of the running collective command that owners are. -/
def State.lostMembers (s : State) (hit : Word → Bool) : List (Fin 64) :=
  match s.cl.collQ with
  | [] => []
  | c :: _ => (List.finRange 64).filter fun r => hit (c.members.getD r.val 0)

def State.loseMember (s : State) (r : Fin 64) : State :=
  match execMemberLost r s with
  | .next t => t
  | _ => s

/-- The messages of an evicted cell that await a reply from owners: the replies wait with the cell. -/
def State.lostSaved (s : State) (hit : Word → Bool) : List Nat :=
  s.saved.flatMap fun v : SavedCell =>
    match v.own with
    | some o => (o.replies.filter fun e : ReplyEnt => hit e.place).map fun e => e.rid
    | none => []

/-- Where this cluster is itself such an owner, the messages held here are refused (R193), and engine commands that write here stop
(R387). -/
def State.loseHeld (s : State) (hit : Word → Bool) : State :=
  if hit s.cl.place then
    s.cl.hold.foldl (fun (st : State) (e : HoldEnt) => st.refuseHeld e.held.body 0x08)
      ({ s with cl := { s.cl with hold := [] } }.losePulls.loseColl)
  else s

/-- What waits on owners that are lost learns of it (R402). -/
def State.loseOwners (s : State) (hit : Word → Bool) : State :=
  let s1 := (s.replies.filter fun e : ReplyEnt => hit e.place).foldl (fun (st : State) (e : ReplyEnt) => st.refusedMsg e 0x08 none) s
  let s2 := (s.lostReads hit).foldl (fun (st : State) (r : Nat) => st.push (.refusedLoad r 0x08)) s1
  let s3 := (s.lostWatches hit).foldl (fun (st : State) (r : Nat) => st.push (.watchAns r (.refused 0x08))) s2
  let s4 := (s.lostSaved hit).foldl (fun (st : State) (r : Nat) => st.hold (.negative r 0x08 none)) s3
  { s4 with cl := s4.cl.forget hit }.loseHeld hit

/-- What takes the refusal of a message takes it with code 0x08. -/
def Todo.asLost : Todo → Todo
  | .refusedLoad r _ => .refusedLoad r 0x08
  | .negative r _ o => .negative r 0x08 o
  | .watchAns r _ => .watchAns r (.refused 0x08)
  | t => t

/-- Messages that have a flit counted against a lost intermediate are refused, each once (R420), and the destination learns which numbers
are passed; flits for the lost package are dropped. -/
def State.lostFlits (s : State) (p : BitVec 18) : State :=
  let lost := s.pkg.tx.filter fun t : TxFlit => t.via == some p
  let nos := (lost.filterMap fun t : TxFlit => t.no).eraseDups
  let s1 := nos.foldl (fun (st : State) (t : Todo) => st.push t.asLost)
    { s with pkg := { s.pkg with tx := s.pkg.tx.filter fun t : TxFlit => t.via != some p && t.flit.dst != p } }
  (lost.filter fun t : TxFlit => t.flit.dst != p).foldl (fun (st : State) (t : TxFlit) =>
    st.tellStream t.flit.dst 1 [t.flit.cls.toNat, t.flit.seq.toNat, if t.flit.last then 1 else 0]) s1

/-- A physical package is lost: every bound entry becomes lost, each lost place is an event, its lines and floors are forgotten (R94),
and what waits on an owner there learns of it. -/
def State.applyLost (s : State) (p : BitVec 18) : State :=
  let l := s.boundTo p
  let s1 := l.foldl (fun (st : State) (n : Nat) =>
    (st.setPkgEntry n (2#2 ++ (st.pkgEntry n).extractLsb' 0 30 : BitVec 32)).postEvent 0x05 0x08 0x7FFF#15 0 (pkgPrefix n) 0) s
  (((s.lostMembers (inPackages l)).foldl State.loseMember (s1.loseOwners (inPackages l)))).lostFlits p

/-- The branches of a multicast group (R424). -/
def Package.branches (p : Package) (g : BitVec 6) : List (BitVec 18) :=
  let w0 := p.fabWord (0x1000 + 16 * g.toNat)
  let w1 := p.fabWord (0x1000 + 16 * g.toNat + 8)
  [w0.extractLsb' 0 18, w0.extractLsb' 32 18, w1.extractLsb' 0 18, w1.extractLsb' 32 18].filter fun b => b != 0x3FFFF#18

/-- A copy is passed on to the branches of its group. -/
def Package.cast (p : Package) (g : BitVec 6) (seq : BitVec 20) (note : McNote) : Package :=
  let bs := p.branches g
  { p with mcSeen := (g, seq) :: p.mcSeen,
           copies := if bs.isEmpty then p.copies else p.copies ++ [{ group := g, seq, note, pending := bs }] }

/-- A copy over a group, discarded where it has been passed already; a lost declaration is applied, and a switch notice only passed on:
the switch itself is the host's write at every package (R416). -/
def State.takeCopy (s : State) (g : BitVec 6) (seq : BitVec 20) (note : McNote) : State :=
  if s.pkg.mcSeen.contains (g, seq) then s
  else
    let s1 := { s with pkg := s.pkg.cast g seq note }
    match note with
    | .lost p => (s1.applyLost p).unblock
    | .switch _ => s1

/-- A multicast flit that arrives. -/
def State.castIn (s : State) (f : Flit) : State :=
  let g := BitVec.ofNat 6 (f.number 0)
  let seq := BitVec.ofNat 20 (f.number 1)
  if f.control == 1 then s.takeCopy g seq (.lost (BitVec.ofNat 18 (f.number 2)))
  else if f.control == 2 then s.takeCopy g seq (.switch (f.number 2))
  else s

/-- LOST_DECLARATION: a copy over group 0. -/
def execLostDeclaration (ppkg : BitVec 18) (seq : BitVec 20) (s : State) : Out := .next (s.takeCopy 0 seq (.lost ppkg))

/-- The own next copy over group 0. -/
def State.castOwn (s : State) (note : McNote) : State :=
  { s with pkg := { s.pkg.cast 0 s.pkg.mcSeq note with mcSeq := s.pkg.mcSeq + 1 } }

/-- DECLARE_LOST: the mailbox command, multicast over group 0 and applied here. -/
def execDeclareLost (ppkg : BitVec 18) (s : State) : Out :=
  s.mailbox (.declareLost ppkg) fun s1 => (((s1.castOwn (.lost ppkg)).applyLost ppkg).unblock).answer 0x06 0

/-! ## Flits at a port (R419, R422, R424) -/

/-- A flit that fails its check, or finds no room to be relayed, is refused at the link, by its position in the slot. -/
def State.refuseFlit (s : State) (port : Fin 32) (f : Flit) : State :=
  s.emit (outMsg .retry (f.src.setWidth 64) (BitVec.ofNat 64 port.val) 0 0 [BitVec.ofNat 64 s.pkg.rxPos[port]])

/-- A flit passes a port inward: it takes a position in the slot, and a corrected burst counts on the lane of its first bit (R422, R423). -/
def State.flitSeen (s : State) (port : Fin 32) (x : RxCheck) : State :=
  let lanes := s.pkg.lanesOn port
  let lane := (lanes.getD (x.first / 8 % lanes.length) 0).val
  let corrected := decide (1 ≤ x.burst) && decide (x.burst ≤ 32)
  let corr := if corrected then s.pkg.laneCorr.mapIdx fun k n => if k == 8 * port.val + lane then n + 1 else n
    else s.pkg.laneCorr
  { s with pkg := { s.pkg with rxPos := s.pkg.rxPos.set port (s.pkg.rxPos[port] + 1), laneCorr := corr } }.countFlits port 1 0

/-- A flit is held for its destination, in the spill area where the buffer on chip is full (R419). -/
def State.holdFlit (s : State) (f : Flit) : State :=
  let s1 := { s with pkg := { s.pkg with relay := s.pkg.relay ++ [f] } }
  if s.pkg.relay.length < 262144 + s.pkg.spill.length then s1
  else
    let n := ((List.range (s.pkg.spill.length + 1)).find? fun i => !s.pkg.spill.any fun x : Nat × Flit => x.1 == i).getD 0
    let s2 := { s1 with pkg := { s1.pkg with spill := s1.pkg.spill ++ [(n, f)] } }
    match s.spillAt n with
    | some a => s2.hostStore a (f.words.flatMap bytesOf)
    | none => s2.emit (outMsg .spill 0 (BitVec.ofNat 64 (256 * n)) 0 0 (s.pkg.fabWord 0x120 :: f.words))

/-- FLIT_RECEIVE. A relayed flit is held for its destination, and never relayed again; a multicast copy is passed on and applied. -/
def execFlitReceive (port : Fin 32) (f : Flit) (x : RxCheck) (s : State) : Out :=
  if !portEn (s.pkg.port port) then .next s
  else
    let s1 := s.flitSeen port x
    if !x.ok f then .next (s.refuseFlit port f |>.flitSeen port x)
    else if f.dst == s.pkg.ppkg then .next (if f.cls == 3 then s1.castIn f else s1.takeFlit f)
    else if !f.rly then .next s1
    else if s.pkg.relayRoom ≤ s.pkg.relay.length then .next (s.refuseFlit port f |>.flitSeen port x)
    else .next (s1.holdFlit f)

/-! ## Far links (R426 to R429, R451) -/

def State.sessOf (s : State) (e : Nat) : Option FarSess := s.pkg.sess.find? fun x : FarSess => x.peer == e
def State.setSess (s : State) (x : FarSess) : State := { s with pkg := s.pkg.setSess x }

def FarSess.new (e : Nat) : FarSess :=
  { peer := e, st := .opening, fcode := 0, drop := 0, sent := 0, top := 0, seen := [],
    keys := { sendKey := 0, recvKey := 0, sendSalt := 0, recvSalt := 0 }, old := none, hello := none, unacked := [] }

/-- Messages that waited for a session go on. -/
def State.flushFar (s : State) (e : Nat) : State :=
  (s.pkg.farWait.filter fun x : FarWait => x.peer == e).foldl
    (fun (st : State) (x : FarWait) => { st with pkg := st.carry x.cls x.msg x.no })
    { s with pkg := { s.pkg with farWait := s.pkg.farWait.filter fun x : FarWait => x.peer != e } }

/-- A flit of a frame: the acknowledgement of a frame names its counter; any other joins its stream. -/
def State.farFlit (e : Nat) (s : State) (f : Flit) : State :=
  if f.cls == 2 && f.control == 2 then
    match s.sessOf e with
    | some x => s.setSess { x with unacked := x.unacked.filter fun u : FarSent => u.counter != f.number 0 }
    | none => s
  else s.takeFlit f

/-- The control flit that acknowledges a frame, in a frame of its own. -/
def State.ackFrame (s : State) (e counter : Nat) : State :=
  match s.sessOf e with
  | some x =>
    let f : Flit := { dst := (s.pkg.peerWord e 0).extractLsb' 0 18, src := s.pkg.ppkg, cls := 2, rly := false, last := true, seq := 0,
                      body := controlBody 2 [counter] }
    { s with pkg := s.pkg.sendFrame x [f] 0 }
  | none => s

/-- The entry that a frame of an unknown session comes from, by its addresses and ports. -/
def State.senderOf (s : State) (f : FarFrame) : Option FarSess :=
  s.pkg.sess.find? fun x : FarSess => s.pkg.peerAddr x.peer 4 == f.src && (s.pkg.peerWord x.peer 3).extractLsb' 0 16 == f.sport

/-- A frame that its session does not take is counted, and no byte of it is delivered. -/
def State.dropFrame (s : State) (x : Option FarSess) : State :=
  match x with
  | some x => s.setSess x.dropped
  | none => s

/-- The far port of a frame is enabled (R426). -/
def State.farPort (s : State) (f : FarFrame) : Bool :=
  let w := s.pkg.port f.port.toFin
  portEn w && portMode w == 1

/-- FAR_FRAME_RECEIVE: frames of a form that R426 does not support are not accepted. -/
def execFarFrameReceive (f : FarFrame) (s : State) : Out :=
  if !s.farPort f || !f.formOk then .next s
  else
    match s.sessOf f.peer with
    | none => .next (s.dropFrame (s.senderOf f))
    | some x =>
      if x.takes f then
        let y := x.taken f
        let flits := (x.keyOf f).flits f
        let s1 := flits.foldl (State.farFlit f.peer) (s.setSess y)
        let s2 := if flits.all fun g : Flit => g.cls == 2 then s1 else s1.ackFrame f.peer f.counter
        .next (if x.st == .rekeying && y.st == .up then s2.flushFar f.peer else s2)
      else .next (s.dropFrame (some x))

/-- The physical package of a peer entry. -/
def State.peerPkg (s : State) (e : Nat) : BitVec 18 := (s.pkg.peerWord e 0).extractLsb' 0 18

/-- FAR_RETRANSMIT (R428, R429): the flits of an unacknowledged frame go in a new one under a new counter, unless the session is not up;
the sixteenth resend is an event. -/
def execFarRetransmit (peer counter : Nat) (s : State) : Out :=
  match s.sessOf peer with
  | none => .next s
  | some x =>
    if x.st != .up then .next s
    else
    match x.unacked.find? fun u : FarSent => u.counter == counter with
    | none => .next s
    | some u =>
      let s1 := { s with pkg := s.pkg.sendFrame { x with unacked := x.unacked.erase u } u.flits (u.resends + 1) }
      .next (if u.resends + 1 == 16 then s1.postHost 0x03 0 (BitVec.ofNat 64 peer) ((s.peerPkg peer).setWidth 64) else s1)

/-- FAR_REKEY (R428). -/
def execFarRekey (peer : Nat) (s : State) : Out :=
  match s.sessOf peer with
  | none => .next s
  | some x => .next (if x.st != .up then s else { s with pkg := s.pkg.rekey x })

/-! ## Writes of the host (R416, R427) -/

/-- What R427 asks of a word of a peer entry. -/
def Package.farWordOk (p : Package) (word : Nat) (v : Word) : Bool :=
  match word with
  | 0 => zeroAt v 18 26 && (!v.getLsbD 63 || portMode (p.port (v.extractLsb' 58 5).toFin) == 1)
  | 1 | 2 => zeroAt v 48 16
  | 3 => decide (1000 ≤ (v.extractLsb' 32 32).toNat) && decide ((v.extractLsb' 32 32).toNat ≤ 1000000)
  | _ => true

/-- A peer entry that is no longer valid refuses what waited for it. -/
def State.closeFar (s : State) (e : Nat) : State :=
  ((s.pkg.farWait.filter fun x : FarWait => x.peer == e).filterMap fun x : FarWait => x.no).foldl State.push
    { s with pkg := { s.pkg with farWait := s.pkg.farWait.filter (fun x : FarWait => x.peer != e),
                                 sess := s.pkg.sess.filter fun x : FarSess => x.peer != e } }

/-- A word of a peer entry is written; v := 1 opens the session, again where it has failed. -/
def State.putFar (s : State) (e : Nat) (word : Fin 8) (v : Word) : State :=
  let old := s.pkg.peerWord e 0
  let s1 := { s with pkg := s.pkg.setFab (0x40000 + 64 * e + 8 * word.val) v }
  if word != 0 then s1
  else if !v.getLsbD 63 then s1.closeFar e
  else if old.getLsbD 63 && !((s.sessOf e).any fun x : FarSess => x.st == .failed) then s1
  else s1.setSess (FarSess.new e)

/-- A write of a far peer entry, as a code; a bare die has no far link (R456). -/
def State.farWrite (s : State) (e : Nat) (word : Fin 8) (v : Word) : Code × State :=
  if s.pkg.bare || decide (1024 ≤ e) || !s.pkg.farWordOk word.val v then (0x05, s) else (0, s.putFar e word v)

/-- FAR_PEER_WRITE. -/
def execFarPeerWrite (peer : Nat) (word : Fin 8) (value : Word) (s : State) : Out :=
  s.mailbox (.farPeer peer word value) fun s1 => let r := s1.farWrite peer word value; r.2.answer 0x02 r.1

/-- A write of `fabswitch`: a cycle boundary of the active bank, a full cycle ahead, and no switch pending; a bare die has no fabric
block (R456). A notice of the switch is multicast (R424). -/
def State.switchWrite (s : State) (v : Word) : Code × State :=
  let p := s.pkg
  let n := p.nslot p.bank
  let c := v.toNat
  if p.bare || p.switchAt.isSome || decide (c < p.fabtime + n) || (c - p.bankStart) % n != 0 then (0x05, s)
  else
    let s1 := s.extend 5 (writeItem { space := 7, die := 0, pclu := 0, index := 0x108 } v)
    (0, { s1 with pkg := { (s1.pkg.setFab 0x108 v).setFab 0x100 (s1.pkg.fabWord 0x100 ||| (1#64 <<< 62)) with switchAt := some c } }.castOwn (.switch c))

/-- FABSWITCH_WRITE. -/
def execFabswitchWrite (value : Word) (s : State) : Out :=
  s.mailbox (.fabswitch value) fun s1 => let r := s1.switchWrite value; r.2.answer 0x02 r.1

end Sys2Proof.Machine
end

