-- ==== Sys2Proof/Machine/Manage.lean ====
section
/-!
DEFINITION. What the host writes and reads through mailbox ops 0x02 and 0x07 (R458): place tables (R33 to R38, R94), pairs (R55 to
R57), windows (R431), cluster registers (R107, R139, R192, R436, R463) and the fabric block (R414 to R424).
-/
namespace Sys2Proof.Machine

/-! ## Suspension (R38) -/

/-- What the own cluster shows of a suspended partition: no activation in a slot, no atomic request or engine command, and no region
of its control blocks running. -/
def State.suspended (s : State) : Bool :=
  (List.finRange 5).all (fun i => !(s.slotAct i).live) && s.cl.others.isEmpty && s.cl.atomElse.isEmpty && s.atomQ.isEmpty && s.atomRun.isNone && s.atomNow.isEmpty &&
  !s.engineBusy && s.cl.running.isEmpty

/-! ## Place tables (R33 to R36, R94) -/

/-- The rules of R34 for a cell map. -/
def cellMapOk (m : Vector (BitVec 8) 64) : Bool :=
  let on (i : Fin 64) : Bool := m[i].getLsbD 7
  let pc (i : Fin 64) : Nat := (m[i].extractLsb' 0 6).toNat
  (List.finRange 64).all fun i => (List.finRange 64).all fun j =>
    !on i || !on j || i == j ||
    (pc i != pc j && ((i.val / 8 == j.val / 8) == (pc i / 8 == pc j / 8)))

/-- The answer to a write: a code, and the state after it. -/
abbrev Answer := Code × State

def State.refuse (s : State) : Answer := (0x05, s)

/-- A place that a write moves from bound to lost is an event, and what waits on it learns of it (R102, R402). -/
def State.placeMoves (s : State) (old new : BitVec 2) (place : Word) (hit : Word → Bool) : State :=
  if old == 1 && new == 2 then (s.postEvent 0x05 0x08 0x7FFF#15 0 place 0).loseOwners hit else s

def State.writeMap (s : State) (t : MbTarget) (v : Word) : Answer :=
  let n := t.index.toNat
  if decide (512 ≤ n) || !zeroAt v 9 53 || !s.suspended then s.refuse
  else
    let s1 := s.extend 2 (writeItem t v)
    let old := s.cl.map[Fin.ofNat 512 n]
    let place : Word := (1#1 ++ s.cl.place.extractLsb' 45 18 ++ BitVec.ofNat 9 n ++ 0#36 : BitVec 64)
    let hit (p : Word) : Bool := prefixOf p == place
    (0, { s1 with cl := { s1.cl with map := s1.cl.map.set (Fin.ofNat 512 n) v }.forget hit }.placeMoves
      (old.extractLsb' 62 2) (v.extractLsb' 62 2) place hit)

def State.writeMapHead (s : State) (t : MbTarget) (v : Word) : Answer :=
  let cw := (v.extractLsb' 0 6).toNat
  if !zeroAt v 19 45 || cw == 0 || decide (40 < cw) || !s.suspended then s.refuse
  else
    let s1 := s.extend 2 (writeItem t v)
    (0, { s1 with cl := { s1.cl with mapHead := v } })

/-- Index `n` names a physical cell: that cell's registers stand there, and those that stood there follow their own cell. What the
home records of an eviction belongs to the index. The modelled cell goes with its physical cell, unless it is evicted. -/
def State.moveCell (s : State) (n q : Fin 64) : State :=
  match (List.finRange 64).find? fun k : Fin 64 => s.phys[k] == q with
  | none => s
  | some k =>
    let keep (c home : CellRegs) : CellRegs :=
      { c with evicted := home.evicted, evChans := home.evChans, evRoot := home.evRoot, fenced := home.fenced }
    let a := s.cells[n]
    let b := s.cells[k]
    { s with cells := (s.cells.set n (keep b a)).set k (keep a b), phys := (s.phys.set n q).set k s.phys[n],
             self := if s.me.evicted then s.self else if s.self == n then k else if s.self == k then n else s.self }

def State.writeCellMap (s : State) (t : MbTarget) (v : Word) : Answer :=
  let n := t.index.toNat
  let m := s.cl.cellMap.set (Fin.ofNat 64 n) (v.extractLsb' 0 8)
  if decide (63 ≤ n) || !zeroAt v 8 56 || v.getLsbD 6 || !cellMapOk m || !s.suspended then s.refuse
  else
    let s1 := { s with cl := { s.cl with cellMap := m } }
    (0, if v.getLsbD 7 then s1.moveCell (Fin.ofNat 64 n) (v.extractLsb' 0 6).toFin else s1)

def State.writePkg (s : State) (t : MbTarget) (v : Word) : Answer :=
  let n := t.index.toNat
  if decide (s.cl.pkgbound.toNat ≤ n) || !zeroAt v 32 32 || !zeroAt v 18 11 || !s.suspended then s.refuse
  else
    let s1 := s.setPkgEntry n (v.extractLsb' 0 32)
    let hit (p : Word) : Bool := inPackages [n] p
    (0, { s1 with cl := s1.cl.forget hit }.placeMoves ((s.pkgEntry n).extractLsb' 30 2) (v.extractLsb' 30 2) (pkgPrefix n) hit)

/-! ## Pairs (R55 to R57, R70) -/

/-- The frames of a pair, where it is enabled. -/
def pairHas (p : Word) (f : Nat) : Bool := pairEn p && decide (pairBase p ≤ f) && decide (f < pairBase p + pairSize p)

/-- Two ranges of frames meet; an empty one meets none. -/
def pairsMeet (a b : Word) : Bool :=
  pairSize a != 0 && pairSize b != 0 && decide (pairBase a < pairBase b + pairSize b) && decide (pairBase b < pairBase a + pairSize a)

/-- A frame that a write adds to a pair: one outside the old range, or any where the pair becomes enabled (R56, R72). -/
def pairAdds (old v : Word) (f : Nat) : Bool :=
  (pairEn v && !pairEn old) || !(decide (pairBase old ≤ f) && decide (f < pairBase old + pairSize old))

/-- The virtual functions of the package: 384, and 48 on a bare die, an eighth of the package's as R2 has its other
figures (R52, R56). -/
def Package.vfCount (p : Package) : Nat := if p.bare then 48 else 384

/-- What R56 asks of a pair's new value. -/
def State.pairOk (s : State) (n : Fin 16) (v : Word) : Bool :=
  let old := s.cl.vfpair[n]
  let frames := (List.range (pairSize v)).map fun i => pairBase v + i
  zeroAt v 57 6 && zeroAt v 32 16 && decide ((v.extractLsb' 48 9).toNat < s.pkg.vfCount) && s.suspended &&
  decide (pairBase v + pairSize v ≤ Config.sliceFrames) && !(pairEn old && pairBase v != pairBase old) &&
  ((List.finRange 16).all fun k => k == n || !pairEn s.cl.vfpair[k] || !pairsMeet v s.cl.vfpair[k]) &&
  frames.all fun f => !pairAdds old v f || s.cl.clean.contains f

/-- The frames that a write takes from a pair: where the pair stays enabled, those beyond its new size (R56, R57). -/
def pairFrees (old v : Word) : Nat × Nat :=
  if !pairEn old then (0, 0)
  else if pairEn v then (pairBase old + pairSize v, pairSize old - pairSize v)
  else (pairBase old, pairSize old)

/-- A write of a pair. Every access that has reached the home keeps the pair as it stands (R54). A pair that is disabled, or changes its
virtual function, leaves the TLB as by a shootdown (R57, R68); the frames that it releases are scrub-pending, and stay this partition's
reflections until they are clean (R71). -/
def State.putPair (s : State) (n : Fin 16) (v : Word) : State :=
  let old := s.cl.vfpair[n]
  let s1 := (if pairEn old && !pairEn v then s.closeWindow n else s).keepXlat
  let flush := (pairEn old && !pairEn v) || v.extractLsb' 48 9 != old.extractLsb' 48 9
  let gone := pairFrees old v
  let s2 := { s1 with cl := { s1.cl with
      vfpair := s1.cl.vfpair.set n v
      tlb := if flush then s1.cl.tlb.filter fun e : TlbEnt => e.vf != n else s1.cl.tlb
      epoch := if flush then s1.cl.epoch + 1 else s1.cl.epoch
      freed := if gone.2 == 0 || s1.cl.ptn == 0 then s1.cl.freed else (s1.cl.ptn, gone.1, gone.2) :: s1.cl.freed
      clean := s1.cl.clean.filter fun f => !(pairHas old f && !pairHas v f) } }
  if flush && !s2.cl.watches.isEmpty then s2.push .poll else s2

def State.writePair (s : State) (n : Fin 16) (v : Word) : Answer := if s.pairOk n v then (0, s.putPair n v) else s.refuse

/-! ## Windows (R431) -/

def State.writeWindow (s : State) (k : Nat) (v : Word) : Answer :=
  let n : Fin 16 := Fin.ofNat 16 k
  if decide (16 ≤ k) || s.pkg.bare || !s.suspended || !s.cl.hcwinOk n v then s.refuse
  else (0, { s with cl := { s.cl with hcwin := s.cl.hcwin.set n v } })

/-! ## Home and cluster registers -/

/-- The home registers that the host writes (R73); `tlbctl` is written by the control and the service cell alone (R75). -/
def State.writeHome (s : State) (off : Nat) (v : Word) : Answer :=
  if off == 0x20 then (if v.toNat % 0x10000 != 0 then s.refuse else (0, { s with cl := { s.cl with pkgbase := v } }))
  else if off == 0x28 then (if 262144 < v.toNat then s.refuse else (0, { s with cl := { s.cl with pkgbound := v } }))
  else if 0x100 ≤ off && off < 0x180 && off % 8 == 0 then s.writePair (Fin.ofNat 16 ((off - 0x100) / 8)) v
  else s.refuse

/-- The gate table of a world (R442). -/
def Package.gatesOf (p : Package) (world : BitVec 24) : Vector Word 16 :=
  Vector.ofFn fun i : Fin 16 =>
    match p.gateTab.find? fun g : BitVec 24 × Fin 16 × Word => g.1 == world && g.2.1 == i with
    | some g => g.2.2
    | none => 0

/-- The spill area of the fabric lies in a cluster (R419). -/
def Package.spillIn (p : Package) (die : BitVec 3) (pclu : BitVec 6) : Bool :=
  let w := p.fabWord 0x120
  w.getLsbD 63 && w.extractLsb' 55 3 == die && w.extractLsb' 49 6 == pclu

/-- The fields of `ctl.clucfg` (R463). -/
def clucfgOk (v : Word) (freq : BitVec 12) : Bool :=
  let ck := (v.extractLsb' 8 8).toNat
  zeroAt v 16 48 && zeroAt v 6 2 && !v.getLsbD 5 && !v.getLsbD 3 &&
  (ck == 0 || (decide (12 ≤ ck) && decide (ck ≤ 48) && decide (freq.toNat ≤ 25 * ck)))

/-- The slots of the hold queue: a bare die has an eighth of a package's (R2, R192). -/
def Package.holdSlots (p : Package) : Nat := if p.bare then 512 else 4096

/-- The hold-queue slots that are shared out once the partition `p` has `q` of them: each partition's share counts once (R192;
DESIGN CHOICE, log 100). -/
def State.sharedOut (s : State) (p : BitVec 24) (q : Nat) : Nat :=
  let all := (s.cl.ptn, s.cl.holdq.toNat) :: s.pkg.shares.map fun x : BitVec 9 × BitVec 24 × BitVec 13 => (x.2.1, x.2.2.toNat)
  (all.foldl (fun (acc : List (BitVec 24) × Nat) (x : BitVec 24 × Nat) =>
    if acc.1.contains x.1 then acc else (x.1 :: acc.1, acc.2 + x.2)) ([p], q)).2

/-- The cluster registers that the host writes; `ctl.place` and the map header are kept apart (DESIGN CHOICE, log 91). -/
def State.writeCluster (s : State) (t : MbTarget) (v : Word) : Answer :=
  match t.index.toNat with
  | 0x100 =>
    if !v.getLsbD 63 || !zeroAt v 0 36 || !s.suspended then s.refuse else (0, { s with cl := { s.cl with place := v } })
  | 0x101 =>
    if !zeroAt v 24 40 || s.cl.vfpair.toList.any pairEn || s.pkg.spillIn s.cl.die s.cl.pclu then s.refuse
    else
      let s1 := s.extend 2 (writeItem t v)
      let p := v.extractLsb' 0 24
      let clean := if s.cl.ptn != 0 && p != s.cl.ptn then [] else s1.cl.clean
      (0, { s1 with cl := { s1.cl with ptn := p, gates := s1.pkg.gatesOf p, clean } })
  | 0x106 =>
    if !zeroAt v 29 35 || !zeroAt v 13 3 || decide (s.pkg.holdSlots < s.sharedOut s.cl.ptn (v.extractLsb' 0 13).toNat) then s.refuse
    else (0, { s with cl := { s.cl with holdq := v.extractLsb' 0 13 } })
  | 0x107 =>
    let c := v.extractLsb' 0 6
    if !zeroAt v 6 58 || !s.suspended || (c != 0 && (s.comp c).isNone) then s.refuse
    else
      let s1 := s.extend 2 (writeItem t v)
      (0, { s1 with cl := { s1.cl with cmpt := c } })
  | 0x10D =>
    if !clucfgOk v s.cl.freq || !s.suspended then s.refuse
    else
      let s1 := (s.extend 6 (writeItem t v)).extend 7 (writeItem t v)
      (0, { s1 with cl := { s1.cl with clucfg := v } })
  | _ => s.refuse

/-! ## The fabric block (R414 to R424) -/

/-- What R415 asks of a port register. -/
def Package.portOk (p : Package) (j : Fin 32) (v : Word) : Bool :=
  let old := p.port j
  let far := (List.finRange 32).filter fun k =>
    let w := if k == j then v else p.port k
    portEn w && portMode w == 1
  zeroAt v 56 5 && zeroAt v 0 39 && !v.getLsbD 62 && portLanes v != 0 && !(portEn old && portMode v != portMode old) &&
  decide (far.length ≤ 4)

/-- What R416 asks of `fabsched`: the active bank's count stays. -/
def Package.schedOk (p : Package) (v : Word) : Bool :=
  let lo := if p.bank then 9 else 0
  zeroAt v 18 44 && v.extractLsb' lo 9 == (p.fabWord 0x100).extractLsb' lo 9

/-- MiB of relayed flits on chip and in the spill area (R419). -/
def Package.relayWord (p : Package) : Word :=
  let mib (n : Nat) : Nat := (n + 4095) / 4096
  let n := p.spill.length
  (0#16 ++ (p.fabWord 0x118).extractLsb' 32 16 ++ BitVec.ofNat 12 (mib n) ++ 0#7 ++ BitVec.ofNat 7 (mib (p.relay.length - n)) ++
    0#6 : BitVec 64)

/-- What R419 asks of `fabspill`. -/
def State.spillOk (s : State) (v : Word) : Bool :=
  let size := (v.extractLsb' 16 16).toNat
  let die := v.extractLsb' 55 3
  let pclu := v.extractLsb' 49 6
  let ptn := if die == s.cl.die && pclu == s.cl.pclu then s.cl.ptn else (s.shareOf (die ++ pclu)).1
  zeroAt v 58 5 && zeroAt v 32 17 && decide (pclu.toNat < 60) && ptn == 0 &&
  decide ((v.extractLsb' 0 16).toNat + size ≤ Config.sliceFrames) && decide (1 ≤ size) && decide (size ≤ 32768) &&
  s.pkg.spill.isEmpty

/-- The window register of the own cluster at an offset of the block, or another cluster's. -/
def State.windowIndex (s : State) (off : Nat) : Option Nat :=
  if (off - 0x10000) / 128 == 60 * s.cl.die.toNat + s.cl.pclu.toNat then some ((off - 0x10000) % 128 / 8) else none

/-- A write of the fabric block; `none` where it belongs to another cluster. -/
def State.writeFabric (s : State) (t : MbTarget) (v : Word) : Option Answer :=
  let off := t.index.toNat
  let put (ok : Bool) (w : Word) : Option Answer :=
    if ok then some (0, { s with pkg := s.pkg.setFab off w }) else some s.refuse
  if off % 8 != 0 then some (0, s)
  else if off < 0x100 then
    let j : Fin 32 := Fin.ofNat 32 (off / 8)
    if s.pkg.portOk j v then
      let s1 := s.extend 5 (writeItem t v)
      some (0, { s1 with pkg := s1.pkg.setFab off v })
    else some s.refuse
  else if off == 0x100 then
    put (s.pkg.schedOk v) ((s.pkg.fabWord 0x100 &&& (3#64 <<< 62)) ||| (v.extractLsb' 0 18).setWidth 64)
  else if off == 0x108 then some (s.switchWrite v)
  else if off == 0x110 then some s.refuse
  else if off == 0x118 then put (zeroAt v 48 16 && zeroAt v 13 7 && zeroAt v 0 6) (v &&& 0x0000FFFF00000000#64)
  else if off == 0x120 then put (s.spillOk v) v
  else if off < 0x800 then some (0, s)
  else if off < 0x1000 then some s.refuse
  else if off < 0x1400 then put (zeroAt v 50 14 && zeroAt v 18 14) v
  else if off < 0x10000 then some (0, s)
  else if off < 0x1F000 then (s.windowIndex off).map fun k => s.writeWindow k v
  else if off < 0x20000 then some (0, s)
  else if off < 0x40000 then put ((decide (0x30000 ≤ off) != s.pkg.bank) && zeroAt v 18 13 && zeroAt v 50 13) v
  else if off < 0x50000 then some (s.farWrite ((off - 0x40000) / 64) (Fin.ofNat 8 (off % 64 / 8)) v)
  else if off < 0x52000 then some s.refuse
  else if off == 0x52000 then some (0, if v.getLsbD 63 then { s with pkg := { s.pkg with hcerr := 0 } } else s)
  else some (0, s)

/-- A session word (R428). -/
def FarSess.word (x : FarSess) : Word :=
  let st : BitVec 3 := match x.st with
    | .down => 0 | .opening => 1 | .up => 2 | .rekeying => 3 | .failed => 4
  (st ++ 0#5 ++ x.fcode ++ BitVec.ofNat 48 x.drop : BitVec 64)

/-- Offsets of the block that hold a register. -/
def fabListed (off : Nat) : Bool :=
  off % 8 == 0 && (decide (off < 0x128) || (decide (0x800 ≤ off) && decide (off < 0x1400)) ||
    (decide (0x20000 ≤ off) && decide (off < 0x50000)))

/-- A read of the fabric block. -/
def State.readFabric (s : State) (off : Nat) : Option Word :=
  if 0x10000 ≤ off && off < 0x1F000 && off % 8 == 0 then (s.windowIndex off).map fun k => s.cl.hcwin[Fin.ofNat 16 k]
  else if off == 0x118 then some s.pkg.relayWord
  else if 0x50000 ≤ off && off < 0x52000 && off % 8 == 0 then
    some (match s.sessOf ((off - 0x50000) / 8) with
      | some x => FarSess.word x
      | none => 0)
  else if off == 0x52000 then some s.pkg.hcerr
  else some (if fabListed off then s.pkg.fabWord off else 0)

/-! ## Mailbox op 0x02 -/

/-- The target is the own cluster's, or names no cluster. -/
def State.isMine (s : State) (t : MbTarget) : Bool := t.space == 7 || (t.die == s.cl.die && t.pclu == s.cl.pclu)

/-- A bare die has no fabric block, and commands name its own clusters as die 0 (R456). -/
def State.noSuch (s : State) (t : MbTarget) : Bool := s.pkg.bare && (t.space == 7 || t.die != 0)

/-- A write at the own cluster or the fabric block; `none` where another cluster carries it out. -/
def State.writeTarget (s : State) (t : MbTarget) (v : Word) : Option Answer :=
  if (t.space != 7 && decide (60 ≤ t.pclu.toNat)) || s.noSuch t then some s.refuse
  else if !s.isMine t then none
  else
    match t.space.toNat with
    | 1 => some (s.writeMap t v)
    | 2 => some (s.writeMapHead t v)
    | 3 => some (s.writeCellMap t v)
    | 4 => some (s.writePkg t v)
    | 5 => some (s.writeHome t.index.toNat v)
    | 6 => some (s.writeCluster t v)
    | 7 => s.writeFabric t v
    | 8 => some (s.writeWindow t.index.toNat v)
    | _ => some s.refuse


/-- What a write for another cluster extends once that cluster accepts it (R449, R463; DESIGN CHOICE, log 100). -/
def measuredItems (t : MbTarget) (v : Word) : List (Fin 8 × List Byte) :=
  let item := writeItem t v
  match t.space.toNat, t.index.toNat with
  | 1, _ | 2, _ | 6, 0x101 | 6, 0x107 => [(2, item)]
  | 6, 0x10D => [(6, item), (7, item)]
  | _, _ => []

/-- A write that another cluster carries out. A share that the hold queue has no room for is refused (R192), and so is a partition while
the spill area lies there (R419). -/
def State.writeElsewhere (s : State) (t : MbTarget) (v : Word) : Out :=
  let old := s.shareOf (t.die ++ t.pclu)
  if t.space == 6 && t.index == 0x101 && s.pkg.spillIn t.die t.pclu then s.answer 0x02 0x05
  else if t.space == 6 && t.index == 0x106 && decide (s.pkg.holdSlots < s.sharedOut old.1 (v.extractLsb' 0 13).toNat) then s.answer 0x02 0x05
  else .next (s.forwardWith 0x02 (MbTarget.word t) [v] (measuredItems t v) (some (t, v)))

def State.writeAnswer (s : State) (t : MbTarget) (v : Word) : Out :=
  match s.writeTarget t v with
  | some (c, s1) => s1.unblock.answer 0x02 c
  | none => s.writeElsewhere t v

/-- The own cluster as a target. -/
def State.mine (s : State) (space : BitVec 4) (index : Nat) : MbTarget :=
  { space, die := s.cl.die, pclu := s.cl.pclu, index := BitVec.ofNat 32 index }

/-- PLACE_TABLE_WRITE, VFPAIR_WRITE, HCWIN_WRITE and HOST_REGISTER_WRITE. -/
def execPlaceTableWrite (t : MbTarget) (v : Word) (s : State) : Out :=
  s.mailbox (.placeTable t v) fun s1 => s1.writeAnswer t v
def execVfpairWrite (n : Fin 16) (v : Word) (s : State) : Out :=
  s.mailbox (.vfpair n v) fun s1 => s1.writeAnswer (s1.mine 5 (0x100 + 8 * n.val)) v
def execHcwinWrite (n : Fin 16) (v : Word) (s : State) : Out :=
  s.mailbox (.hcwin n v) fun s1 => s1.writeAnswer (s1.mine 8 n.val) v
def execHostRegisterWrite (t : MbTarget) (v : Word) (s : State) : Out :=
  s.mailbox (.hostReg t v) fun s1 => s1.writeAnswer t v

/-! ## Mailbox op 0x07 -/

/-- The value at a target, or the code of its refusal; `none` where another cluster answers. -/
def State.readTarget (s : State) (t : MbTarget) : Option (Option Word) :=
  let n := t.index.toNat
  if (t.space != 7 && decide (60 ≤ t.pclu.toNat)) || s.noSuch t then some none
  else if !s.isMine t then none
  else
    match t.space.toNat with
    | 1 => some (if n < 512 then some s.cl.map[Fin.ofNat 512 n] else none)
    | 2 => some (some s.cl.mapHead)
    | 3 => some (if n < 64 then some (s.cl.cellMap[Fin.ofNat 64 n].setWidth 64) else none)
    | 4 => some (if n < s.cl.pkgbound.toNat then some ((s.pkgEntry n).setWidth 64) else none)
    | 5 =>
      some (if n % 8 == 0 && (decide (n < 0x30) || (decide (0x100 ≤ n) && decide (n < 0x180))) then some (s.cl.homeReg n) else none)
    | 6 => some (if 0x100 ≤ n then s.readCluCtl { cell := 63, ctlc := 63, rcb := 0, own := false } 63 n else none)
    | 7 => (s.readFabric n).map some
    | 8 => some (if n < 16 then some s.cl.hcwin[Fin.ofNat 16 n] else none)
    | _ => some none

/-- REGISTER_READ. -/
def execRegisterRead (t : MbTarget) (s : State) : Out :=
  s.mailbox (.regRead t) fun s0 =>
    let s1 := if timeIndex t.index.toNat && t.space == 6 then s0.tick else s0
    match s1.readTarget t with
    | some (some w) => .next (s1.hostAnswer 0x07 0 [w])
    | some none => s1.answer 0x07 0x05
    | none => .next (s1.forward 0x07 (MbTarget.word t) 0)

end Sys2Proof.Machine
end

