-- ==== Sys2Proof/Machine/Scalar.lean ====
section
/-!
DEFINITION. Scalar instructions with a memory operand, majors 0x10 to 0x13: integer operations (R295, R296), floating point (R297)
and conversions (R298). The access half reads the operand, the execute half computes (R244); the flags follow R294.
-/
namespace Sys2Proof.Machine

/-! ## The two halves of a split instruction (R244, R245) -/

/-- The operand lies in the control window, which admits no split form (R26, R280). -/
def State.inCtl (s : State) (x : Access) : Bool := s.isHere x.ea && s.cl.window (oaOf x.ea) == .ctl

/-- The load of a split instruction. -/
def State.splitRead (s : State) (x : Access) (ty : Ty) (form : QUnit) : Got :=
  if s.inCtl x then .stop (.bad ((s.cellCheck x).getD 0x05) false x.ea) else s.load x ty form false

/-- A place whose pop may trap, or whose entry is not there. -/
def LdqPlace.doubtful : LdqPlace → Bool
  | .filled e => entryNan e
  | _ => true

/-- The access half goes on ahead of the execute half: the entries that it has read take their places, and the part that pops as many
waits (R244). Where the pop could trap, the instruction is not complete: what comes after it goes on in `State.ahead` (R245, log 98). -/
def State.aheadOf (s t : State) (p : PReg) (am : Am) (np : Word) (es : List QEntry) : Out :=
  match decode s.act.iw with
  | .ok i =>
    if decide (Config.exqSize ≤ s.act.exq.length) || (s.act.ldq ++ es.map LdqPlace.filled).any LdqPlace.doubtful then s.stall
    else (t.mapAct fun a =>
      { a.bump p am np with ldq := a.ldq ++ es.map LdqPlace.filled,
                            exq := a.exq ++ [{ pc := a.pc, word := a.iw, instr := i, pfx := a.pfx, pops := es.length }] }).finish
  | .error _ => s.stall

/-- The execute part pops the entries at the head of LDQ, in program order: its own only where no older one is left (R244, R278). -/
def State.popFirst (s t : State) (e : QEntry) (k : QEntry → State → Out) : Out :=
  match s.act.ldq with
  | [] => k e t
  | .filled h :: _ => k h (t.mapAct fun a => { a with ldq := a.ldq.tail ++ [.filled e] })
  | _ :: _ => s.stall

/-- The operand of a split instruction: the load needs a place of LDQ, and `k` goes on with the entry that the execute part pops and the
state after the load. While older parts wait in the execute half, the instruction's own part waits behind them. -/
def State.splitLoad (s : State) (p : PReg) (am : Am) (x : Access) (ty : Ty) (form : QUnit) (k : QEntry → State → Out) : Out :=
  if s.act.drain then
    match s.act.ldq with
    | .filled e :: rest => k e (s.mapAct fun a => { a with ldq := rest })
    | _ => s.stall
  else if !s.act.ldqRoom then
    match s.cellCheck x with
    | some c => s.trap c x.ea
    | none => s.stall
  else
    match s.splitRead x ty form with
    | .stop x => s.stopped x
    | .ok e s1 => if s.act.exq.isEmpty then s.popFirst s1 e k else s.aheadOf s1 p am x.np [e]

/-- Completes a split load: the pointer update of its mode (R229), which an access part that went ahead has made. -/
def State.endLoad (s : State) (p : PReg) (am : Am) (np : Word) : Out :=
  if s.act.drain then s.finish else (s.mapAct fun a => a.bump p am np).finish

/-- An integer operation on A and an element (R295). -/
def State.intOp (s : State) (p : PReg) (am : Am) (ty : Ty) (d : BitVec 12) (f : Word → Word → AOut) : Out :=
  let x := accessOf s.act.p[p] am (s.act.wide d) .element ty
  s.splitLoad p am x ty .element fun e s1 =>
    (s1.mapAct fun a => a.setAF (f a.a (e.data.getD 0 0))).endLoad p am x.np

/-- As `intOp`, writing only F (`cmp`, `tst`). -/
def State.intTest (s : State) (p : PReg) (am : Am) (ty : Ty) (d : BitVec 12) (f : Word → Word → AOut) : Out :=
  let x := accessOf s.act.p[p] am (s.act.wide d) .element ty
  s.splitLoad p am x ty .element fun e s1 =>
    (s1.mapAct fun a => { a with f := (f a.a (e.data.getD 0 0)).f }).endLoad p am x.np

def execLda (p : PReg) (am : Am) (ty : Ty) (d : BitVec 12) (s : State) : Out := s.intOp p am ty d (fun _ m => aluLda ty m)
def execAdd (p : PReg) (am : Am) (ty : Ty) (d : BitVec 12) (s : State) : Out := s.intOp p am ty d (aluAdd ty)
def execSub (p : PReg) (am : Am) (ty : Ty) (d : BitVec 12) (s : State) : Out := s.intOp p am ty d (aluSub ty)
def execRsub (p : PReg) (am : Am) (ty : Ty) (d : BitVec 12) (s : State) : Out := s.intOp p am ty d (fun a m => aluSub ty m a)
def execAdds (p : PReg) (am : Am) (ty : Ty) (d : BitVec 12) (s : State) : Out := s.intOp p am ty d (aluAdds ty)
def execSubs (p : PReg) (am : Am) (ty : Ty) (d : BitVec 12) (s : State) : Out := s.intOp p am ty d (aluSubs ty)
def execAnd (p : PReg) (am : Am) (ty : Ty) (d : BitVec 12) (s : State) : Out := s.intOp p am ty d (aluAnd ty)
def execOr (p : PReg) (am : Am) (ty : Ty) (d : BitVec 12) (s : State) : Out := s.intOp p am ty d (aluOr ty)
def execXor (p : PReg) (am : Am) (ty : Ty) (d : BitVec 12) (s : State) : Out := s.intOp p am ty d (aluXor ty)
def execAndn (p : PReg) (am : Am) (ty : Ty) (d : BitVec 12) (s : State) : Out := s.intOp p am ty d (aluAndn ty)
def execShl (p : PReg) (am : Am) (ty : Ty) (d : BitVec 12) (s : State) : Out := s.intOp p am ty d (aluShl ty)
def execShr (p : PReg) (am : Am) (ty : Ty) (d : BitVec 12) (s : State) : Out := s.intOp p am ty d (aluShr ty)
def execSar (p : PReg) (am : Am) (ty : Ty) (d : BitVec 12) (s : State) : Out := s.intOp p am ty d (aluSar ty)
def execRol (p : PReg) (am : Am) (ty : Ty) (d : BitVec 12) (s : State) : Out := s.intOp p am ty d (aluRol ty)
def execRor (p : PReg) (am : Am) (ty : Ty) (d : BitVec 12) (s : State) : Out := s.intOp p am ty d (aluRor ty)
def execMin (p : PReg) (am : Am) (ty : Ty) (d : BitVec 12) (s : State) : Out := s.intOp p am ty d (aluMin ty)
def execMax (p : PReg) (am : Am) (ty : Ty) (d : BitVec 12) (s : State) : Out := s.intOp p am ty d (aluMax ty)
def execCmp (p : PReg) (am : Am) (ty : Ty) (d : BitVec 12) (s : State) : Out := s.intTest p am ty d (aluSub ty)
def execTst (p : PReg) (am : Am) (ty : Ty) (d : BitVec 12) (s : State) : Out := s.intTest p am ty d (aluAnd ty)
def execPopc (p : PReg) (am : Am) (ty : Ty) (d : BitVec 12) (s : State) : Out := s.intOp p am ty d (fun _ m => aluPopc ty m)
def execClz (p : PReg) (am : Am) (ty : Ty) (d : BitVec 12) (s : State) : Out := s.intOp p am ty d (fun _ m => aluClz ty m)
def execCtz (p : PReg) (am : Am) (ty : Ty) (d : BitVec 12) (s : State) : Out := s.intOp p am ty d (fun _ m => aluCtz ty m)
def execBswap (p : PReg) (am : Am) (ty : Ty) (d : BitVec 12) (s : State) : Out := s.intOp p am ty d (fun _ m => aluBswap ty m)

/-- A store by a split instruction: the execute half pushes its own entry, the access half stores it (R244, R283). `v` is what a
control register would take; R280 admits none of these forms there. -/
def State.splitStore (s : State) (p : PReg) (am : Am) (x : Access) (d : WData) : Out :=
  if !s.act.exq.isEmpty then s.stall
  else
    match storeCheck x with
    | some c => s.trap c x.ea
    | none =>
      if !s.act.stqRoom then s.stall
      else
        match s.store x d none with
        | .stop x => s.stopped x
        | .ok s1 => s1.endLoad p am x.np

/-- `sta` stores the low bytes of A (R295). -/
def execSta (p : PReg) (am : Am) (ty : Ty) (d : BitVec 12) (s : State) : Out :=
  let x := accessOf s.act.p[p] am (s.act.wide d) .element ty
  s.splitStore p am x (.bytes ((bytesOf s.act.a).take (tyBytes ty)) ((List.range (tyBytes ty / 8)).map fun _ => false))

/-! ## Major 0x11 -/

def execMul (p : PReg) (am : Am) (ty : Ty) (d : BitVec 12) (s : State) : Out := s.intOp p am ty d (aluMul ty)
def execMulh (p : PReg) (am : Am) (ty : Ty) (d : BitVec 12) (s : State) : Out := s.intOp p am ty d (aluMulh ty)
def execMuls (p : PReg) (am : Am) (ty : Ty) (d : BitVec 12) (s : State) : Out := s.intOp p am ty d (aluMuls ty)
def execDiv (p : PReg) (am : Am) (ty : Ty) (d : BitVec 12) (s : State) : Out := s.intOp p am ty d (aluDiv ty)
def execRem (p : PReg) (am : Am) (ty : Ty) (d : BitVec 12) (s : State) : Out := s.intOp p am ty d (aluRem ty)

/-! ## Major 0x12 -/

/-- A floating operation that rounds: one draw in the stochastic mode (R128, R297). -/
def State.fpOp (s : State) (p : PReg) (am : Am) (ty : Ty) (r : Rnd) (d : BitVec 9) (f : Rnd → Nat → Nat → Nat → FRes) : Out :=
  let x := accessOf s.act.p[p] am (s.act.wide d) .element ty
  s.splitLoad p am x ty .element fun e s1 =>
    let rm := s1.rm r
    let dr := takeDraw rm s1.seed
    let res := f rm dr.2 (readBits ty s1.act.a) (readBits ty (e.data.getD 0 0))
    ((s1.setSeed dr.1).mapAct fun a => a.setAF (floatOut (tyFmt ty) res res.ovf)).endLoad p am x.np

/-- A floating operation that does not round. -/
def State.fpPlain (s : State) (p : PReg) (am : Am) (ty : Ty) (d : BitVec 9) (f : Act → Nat → Act) : Out :=
  let x := accessOf s.act.p[p] am (s.act.wide d) .element ty
  s.splitLoad p am x ty .element fun e s1 => (s1.mapAct fun a => f a (readBits ty (e.data.getD 0 0))).endLoad p am x.np

def execFadd (p : PReg) (am : Am) (ty : Ty) (r : Rnd) (d : BitVec 9) (s : State) : Out := s.fpOp p am ty r d (fadd (tyFmt ty))
def execFsub (p : PReg) (am : Am) (ty : Ty) (r : Rnd) (d : BitVec 9) (s : State) : Out := s.fpOp p am ty r d (fsub (tyFmt ty))
def execFrsub (p : PReg) (am : Am) (ty : Ty) (r : Rnd) (d : BitVec 9) (s : State) : Out := s.fpOp p am ty r d (fun rm dr a m => fsub (tyFmt ty) rm dr m a)
def execFmul (p : PReg) (am : Am) (ty : Ty) (r : Rnd) (d : BitVec 9) (s : State) : Out := s.fpOp p am ty r d (fmul (tyFmt ty))
def execFdiv (p : PReg) (am : Am) (ty : Ty) (r : Rnd) (d : BitVec 9) (s : State) : Out := s.fpOp p am ty r d (fdiv (tyFmt ty))
def execFrdiv (p : PReg) (am : Am) (ty : Ty) (r : Rnd) (d : BitVec 9) (s : State) : Out := s.fpOp p am ty r d (fun rm dr a m => fdiv (tyFmt ty) rm dr m a)
def execFsqrt (p : PReg) (am : Am) (ty : Ty) (r : Rnd) (d : BitVec 9) (s : State) : Out := s.fpOp p am ty r d (fun rm dr _ m => fsqrt (tyFmt ty) rm dr m)
def execFmin (p : PReg) (am : Am) (ty : Ty) (r : Rnd) (d : BitVec 9) (s : State) : Out := s.fpOp p am ty r d (fun _ _ a m => nanRes (fminmax (tyFmt ty) false a m))
def execFmax (p : PReg) (am : Am) (ty : Ty) (r : Rnd) (d : BitVec 9) (s : State) : Out := s.fpOp p am ty r d (fun _ _ a m => nanRes (fminmax (tyFmt ty) true a m))
def execFabs (p : PReg) (am : Am) (ty : Ty) (d : BitVec 9) (s : State) : Out :=
  s.fpPlain p am ty d fun a m => a.setAF (floatOut (tyFmt ty) (nanRes (fabsBits (tyFmt ty) m)) false)
def execFneg (p : PReg) (am : Am) (ty : Ty) (d : BitVec 9) (s : State) : Out :=
  s.fpPlain p am ty d fun a m => a.setAF (floatOut (tyFmt ty) (nanRes (fnegate (tyFmt ty) m)) false)
/-- `fcmp` writes F alone. -/
def execFcmp (p : PReg) (am : Am) (ty : Ty) (d : BitVec 9) (s : State) : Out :=
  s.fpPlain p am ty d fun a m => { a with f := fcmpFlags (tyFmt ty) (readBits ty a.a) m }
/-- `fclass` writes A alone. -/
def execFclass (p : PReg) (am : Am) (ty : Ty) (d : BitVec 9) (s : State) : Out :=
  s.fpPlain p am ty d fun a m => a.setA (BitVec.ofNat 64 (fclassMask (tyFmt ty) m))
def execFrnd (p : PReg) (am : Am) (ty : Ty) (r : Rnd) (d : BitVec 9) (s : State) : Out := s.fpOp p am ty r d (fun rm dr _ m => frint (tyFmt ty) rm dr m)
def execFscale (p : PReg) (am : Am) (ty : Ty) (r : Rnd) (d : BitVec 9) (s : State) : Out := s.fpOp p am ty r d (fscaleBits (tyFmt ty))

/-! ## Major 0x13 -/

/-- What decoding an nfs element added to the flags: its one rounding (R121, R294). -/
def Flags.orLane (f : Flags) (l : LaneFlags) : Flags := { f with c := f.c || l.c, o := f.o || l.o }

/-- A conversion of an element of type `ty` into A (R298). -/
def State.cvtOp (s : State) (p : PReg) (am : Am) (dt ty : Ty) (sat : Bool) (r : Rnd) (d : BitVec 9) : Out :=
  let x := accessOf s.act.p[p] am (s.act.wide d) .element ty
  s.splitLoad p am x ty .element fun e s1 =>
    let rm := s1.rm r
    if ty.isNf then
      if entryNan e && !s1.nsc then s1.trap 0x12 (scaleLine e x.ea (s.act.wide d).toNat)
      else
        let m := entryElem e s1.nsc rm s1.seed
        let res := cvtFromFloat Fmt.fp32 dt sat rm m.seed (laneNat m.v 0)
        ((s1.setSeed res.1).mapAct fun a => a.setAF { res.2 with f := res.2.f.orLane m.l }).endLoad p am x.np
    else
      let res := cvtWord ty dt sat rm s1.seed (e.data.getD 0 0)
      ((s1.setSeed res.1).mapAct fun a => a.setAF res.2).endLoad p am x.np

def execCvt (p : PReg) (am : Am) (dt ty : Ty) (r : Rnd) (d : BitVec 9) (s : State) : Out := s.cvtOp p am dt ty false r d
def execCvts (p : PReg) (am : Am) (dt ty : Ty) (r : Rnd) (d : BitVec 9) (s : State) : Out := s.cvtOp p am dt ty true r d

end Sys2Proof.Machine
end

