-- ==== Sys2Proof/Machine/Vector.lean ====
section
/-!
DEFINITION. Vector instructions with a memory operand, majors 0x18 to 0x1C: integer lanes (R299), binary32 lanes (R300), stores that
encode (R301, R302), converts and packs (R303, R304), reductions into A (R305), compares and select (R306).
-/
namespace Sys2Proof.Machine

/-! ## Major 0x18 (R299) -/

/-- The group operand of a vector instruction. -/
def State.vecLoad {n : Nat} (s : State) (p : PReg) (am : Am) (ty : Ty) (d : BitVec n) (k : QEntry → State → Access → Out) : Out :=
  let x := accessOf s.act.p[p] am (s.act.wide d) .group ty
  s.splitLoad p am x ty .group fun e s1 => k e s1 x

/-- A lane operation on V and the operand; flags are left as they are. -/
def State.vecInt (s : State) (p : PReg) (am : Am) (ty : Ty) (d : BitVec 12) (f : Act → Lane → Lane → Lane) : Out :=
  s.vecLoad p am ty d fun e s1 x =>
    let m := entryInts e
    (s1.mapAct fun a => a.setV (lanes fun i => f a a.v[i] m[i])).endLoad p am x.np

/-- A saturating lane operation: O says that some lane saturated. -/
def State.vecSat (s : State) (p : PReg) (am : Am) (ty : Ty) (d : BitVec 12) (f : Int → Int → Int) : Out :=
  s.vecLoad p am ty d fun e s1 x =>
    let m := entryInts e
    let exact (a : Act) (i : Fin 32) : Int := f (laneInt ty a.v[i]) (laneInt ty m[i])
    (s1.mapAct fun a =>
      { a.setV (lanes fun i => BitVec.ofInt 32 (laneClamp ty (exact a i))) with
        f := a.f.withO (anyLane fun i => !laneFits ty (exact a i)) }).endLoad p am x.np

/-- `vld`: V is the operand; a ref group brings its tags (R290). -/
def execVld (p : PReg) (am : Am) (ty : Ty) (d : BitVec 12) (s : State) : Out :=
  s.vecLoad p am ty d fun e s1 x =>
    (s1.mapAct fun a => if ty == .ref then { a.setV (pairLanes e.data) with vtag := e.tags } else a.setV (entryInts e)).endLoad p am x.np

/-- The bytes that a lane store writes: the low bytes of each lane at a type's width. -/
def laneBytes (n : Nat) (v : Lanes) : List Byte := v.toList.flatMap fun l => leBytes n l.toNat

/-- What `vst` stores (R299): low bytes of the lanes, or pairs with their tags. -/
def vstData (a : Act) (ty : Ty) : WData :=
  if ty == .ref then .bytes ((pairWords a.v).flatMap bytesOf) ((List.range 16).map fun j => a.vtag.getLsbD j)
  else .bytes (laneBytes (tyBytes ty) a.v) ((List.range (tyBytes ty * 4)).map fun _ => false)

def execVst (p : PReg) (am : Am) (ty : Ty) (d : BitVec 12) (s : State) : Out :=
  s.splitStore p am (accessOf s.act.p[p] am (s.act.wide d) .group ty) (vstData s.act ty)

def execVadd (p : PReg) (am : Am) (ty : Ty) (d : BitVec 12) (s : State) : Out := s.vecInt p am ty d fun _ v m => v + m
def execVsub (p : PReg) (am : Am) (ty : Ty) (d : BitVec 12) (s : State) : Out := s.vecInt p am ty d fun _ v m => v - m
def execVrsub (p : PReg) (am : Am) (ty : Ty) (d : BitVec 12) (s : State) : Out := s.vecInt p am ty d fun _ v m => m - v
def execVadds (p : PReg) (am : Am) (ty : Ty) (d : BitVec 12) (s : State) : Out := s.vecSat p am ty d fun v m => v + m
def execVsubs (p : PReg) (am : Am) (ty : Ty) (d : BitVec 12) (s : State) : Out := s.vecSat p am ty d fun v m => v - m
def execVand (p : PReg) (am : Am) (ty : Ty) (d : BitVec 12) (s : State) : Out := s.vecInt p am ty d fun _ v m => v &&& m
def execVor (p : PReg) (am : Am) (ty : Ty) (d : BitVec 12) (s : State) : Out := s.vecInt p am ty d fun _ v m => v ||| m
def execVxor (p : PReg) (am : Am) (ty : Ty) (d : BitVec 12) (s : State) : Out := s.vecInt p am ty d fun _ v m => v ^^^ m
def execVandn (p : PReg) (am : Am) (ty : Ty) (d : BitVec 12) (s : State) : Out := s.vecInt p am ty d fun _ v m => v &&& ~~~m
def execVshl (p : PReg) (am : Am) (ty : Ty) (d : BitVec 12) (s : State) : Out := s.vecInt p am ty d fun _ v m => laneShl v m
def execVshr (p : PReg) (am : Am) (ty : Ty) (d : BitVec 12) (s : State) : Out := s.vecInt p am ty d fun _ v m => laneShr v m
def execVsar (p : PReg) (am : Am) (ty : Ty) (d : BitVec 12) (s : State) : Out := s.vecInt p am ty d fun _ v m => laneSar v m
def execVmin (p : PReg) (am : Am) (ty : Ty) (d : BitVec 12) (s : State) : Out := s.vecInt p am ty d fun _ v m => laneMin ty v m
def execVmax (p : PReg) (am : Am) (ty : Ty) (d : BitVec 12) (s : State) : Out := s.vecInt p am ty d fun _ v m => laneMax ty v m
def execVmul (p : PReg) (am : Am) (ty : Ty) (d : BitVec 12) (s : State) : Out := s.vecInt p am ty d fun _ v m => v * m
def execVmulh (p : PReg) (am : Am) (ty : Ty) (d : BitVec 12) (s : State) : Out := s.vecInt p am ty d fun _ v m => laneMulh ty v m
def execVmac (p : PReg) (am : Am) (ty : Ty) (d : BitVec 12) (s : State) : Out := s.vecInt p am ty d fun a v m => v + m * a.a.extractLsb' 0 32
def execVabs (p : PReg) (am : Am) (ty : Ty) (d : BitVec 12) (s : State) : Out := s.vecInt p am ty d fun _ _ m => laneAbs ty m
def execVneg (p : PReg) (am : Am) (ty : Ty) (d : BitVec 12) (s : State) : Out := s.vecInt p am ty d fun _ _ m => -m
def execVpopc (p : PReg) (am : Am) (ty : Ty) (d : BitVec 12) (s : State) : Out := s.vecInt p am ty d fun _ _ m => lanePopc m

/-! ## Major 0x19 (R300) -/

/-- The flags of a lane operation: what decoding and the operation report together, the rounding of an nfs decode among
them (DESIGN CHOICE, log 109); X is the results' (R294). -/
def laneOut (dec res : LaneFlags) : LaneFlags := { c := dec.c || res.c, o := dec.o || res.o, x := res.x }

/-- A group of floats decoded under the instruction's mode (R292): a NaN scale traps, or the lanes, before the operation's draws. -/
def State.vecFloat (s : State) (p : PReg) (am : Am) (ty : Ty) (r : Rnd) (d : BitVec 9)
    (k : VOut → Rnd → State → Access → Out) : Out :=
  s.vecLoad p am ty d fun e s1 x =>
    if entryNan e && !s1.nsc then s1.trap 0x12 (scaleLine e x.ea (32 * (s.act.wide d).toNat))
    else k (entryFloats e s1.nsc (s1.rm r) s1.seed) (s1.rm r) s1 x

/-- Ends a lane operation: V, the lane flags, the generator and the pointer. -/
def State.endLanes (s : State) (p : PReg) (am : Am) (np : Word) (dec : LaneFlags) (o : VOut) : Out :=
  ((s.setSeed o.seed).mapAct fun a =>
    { a.setV (vecOf o.v) with f := a.f.withLanes (laneOut dec o.l) }).endLoad p am np

/-- A lane operation on V, A and the operand, rounded once, one draw a lane in the stochastic mode; `f` takes mode, draw, the
activation and the operand lane's number. -/
def State.vecFp (s : State) (p : PReg) (am : Am) (ty : Ty) (r : Rnd) (d : BitVec 9)
    (f : Rnd → Nat → Nat → Nat → Nat → FRes) : Out :=
  s.vecFloat p am ty r d fun m rm s1 x =>
    let v := s1.act.v.toList
    let a := (s1.act.a.extractLsb' 0 32).toNat
    s1.endLanes p am x.np m.l (laneMap rm m.seed (fun dr i => f rm dr (laneNat v i) (laneNat m.v i) a) laneIdx)

/-- A lane operation that does not round: it takes no draw of its own. -/
def State.vecPlain (s : State) (p : PReg) (am : Am) (ty : Ty) (r : Rnd) (d : BitVec 9) (f : Nat → Nat) : Out :=
  s.vecFloat p am ty r d fun m _ s1 x =>
    s1.endLanes p am x.np m.l (laneMap .rne m.seed (fun _ i => nanRes (f (laneNat m.v i))) laneIdx)

def execVfld (p : PReg) (am : Am) (ty : Ty) (r : Rnd) (d : BitVec 9) (s : State) : Out := s.vecPlain p am ty r d fun m => m
def execVfadd (p : PReg) (am : Am) (ty : Ty) (r : Rnd) (d : BitVec 9) (s : State) : Out := s.vecFp p am ty r d fun rm dr v m _ => fadd Fmt.fp32 rm dr v m
def execVfsub (p : PReg) (am : Am) (ty : Ty) (r : Rnd) (d : BitVec 9) (s : State) : Out := s.vecFp p am ty r d fun rm dr v m _ => fsub Fmt.fp32 rm dr v m
def execVfrsub (p : PReg) (am : Am) (ty : Ty) (r : Rnd) (d : BitVec 9) (s : State) : Out := s.vecFp p am ty r d fun rm dr v m _ => fsub Fmt.fp32 rm dr m v
def execVfmul (p : PReg) (am : Am) (ty : Ty) (r : Rnd) (d : BitVec 9) (s : State) : Out := s.vecFp p am ty r d fun rm dr v m _ => fmul Fmt.fp32 rm dr v m
def execVfma (p : PReg) (am : Am) (ty : Ty) (r : Rnd) (d : BitVec 9) (s : State) : Out := s.vecFp p am ty r d fun rm dr v m a => fmaLane rm dr false v m a
def execVfms (p : PReg) (am : Am) (ty : Ty) (r : Rnd) (d : BitVec 9) (s : State) : Out := s.vecFp p am ty r d fun rm dr v m a => fmaLane rm dr true v m a
def execVfdiv (p : PReg) (am : Am) (ty : Ty) (r : Rnd) (d : BitVec 9) (s : State) : Out := s.vecFp p am ty r d fun rm dr v m _ => fdiv Fmt.fp32 rm dr v m
def execVfsqrt (p : PReg) (am : Am) (ty : Ty) (r : Rnd) (d : BitVec 9) (s : State) : Out := s.vecFp p am ty r d fun rm dr _ m _ => fsqrt Fmt.fp32 rm dr m
def execVfmin (p : PReg) (am : Am) (ty : Ty) (r : Rnd) (d : BitVec 9) (s : State) : Out := s.vecFp p am ty r d fun _ _ v m _ => nanRes (fminmax Fmt.fp32 false v m)
def execVfmax (p : PReg) (am : Am) (ty : Ty) (r : Rnd) (d : BitVec 9) (s : State) : Out := s.vecFp p am ty r d fun _ _ v m _ => nanRes (fminmax Fmt.fp32 true v m)
def execVfabs (p : PReg) (am : Am) (ty : Ty) (r : Rnd) (d : BitVec 9) (s : State) : Out := s.vecPlain p am ty r d fun m => fabsBits Fmt.fp32 m
def execVfneg (p : PReg) (am : Am) (ty : Ty) (r : Rnd) (d : BitVec 9) (s : State) : Out := s.vecPlain p am ty r d fun m => fnegate Fmt.fp32 m
def execVfrnd (p : PReg) (am : Am) (ty : Ty) (r : Rnd) (d : BitVec 9) (s : State) : Out := s.vecFp p am ty r d fun rm dr _ m _ => frint Fmt.fp32 rm dr m
def execVfscale (p : PReg) (am : Am) (ty : Ty) (r : Rnd) (d : BitVec 9) (s : State) : Out := s.vecFp p am ty r d fun rm dr v m _ => fscaleBits Fmt.fp32 rm dr v m

/-- V + m1 × m2 of `vfmal`, once both operands are there (R237, R300). -/
def State.vfmalBoth (s : State) (p : PReg) (am : Am) (ty : Ty) (r : Rnd) (d : BitVec 9) (x1 x2 : Access) (e1 e2 : QEntry) : Out :=
  let g := 32 * (s.act.wide d).toNat
  if entryNan e1 && !s.nsc then s.trap 0x12 (scaleLine e1 x1.ea g)
  else if entryNan e2 && !s.nsc then s.trap 0x12 (scaleLine e2 x2.ea g)
  else
    let rm := s.rm r
    let m1 := entryFloats e1 s.nsc rm s.seed
    let m2 := entryFloats e2 s.nsc rm m1.seed
    let v := s.act.v.toList
    s.endLanes p am x2.np (m1.l.or m2.l)
      (laneMap rm m2.seed (fun dr i => fmaLane rm dr false (laneNat v i) (laneNat m1.v i) (laneNat m2.v i)) laneIdx)

/-- As `popFirst`, for the two entries of `vfmal`. -/
def State.popPair (s t : State) (e1 e2 : QEntry) (k : QEntry → QEntry → State → Out) : Out :=
  match s.act.ldq with
  | [] => k e1 e2 t
  | [.filled h] => k h e1 (t.mapAct fun a => { a with ldq := [.filled e2] })
  | .filled h :: .filled g :: rest => k h g (t.mapAct fun a => { a with ldq := rest ++ [.filled e1, .filled e2] })
  | _ => s.stall

/-- The second operand of `vfmal`, and what follows once both are there. -/
def State.vfmalSecond (s : State) (p : PReg) (am : Am) (ty : Ty) (r : Rnd) (d : BitVec 9) (x1 x2 : Access) (e1 : QEntry) : Out :=
  match s.load x2 ty .group false with
  | .stop st => s.stopped st
  | .ok e2 s1 =>
    if s.act.exq.isEmpty then s.popPair s1 e1 e2 fun h1 h2 s2 => s2.vfmalBoth p am ty r d x1 x2 h1 h2
    else s.aheadOf s1 p am x2.np [e1, e2]

/-- `vfmal` reads two operands and needs two places of LDQ (R244). -/
def execVfmal (p : PReg) (am : Am) (ty : Ty) (r : Rnd) (d : BitVec 9) (s : State) : Out :=
  let q := s.act.p[p]
  let x1 := accessOf q am (s.act.wide d) .group ty
  let x2 := x1.second q am (s.act.wide d) ty
  if s.act.drain then
    match s.act.ldq with
    | .filled e1 :: .filled e2 :: rest => (s.mapAct fun a => { a with ldq := rest }).vfmalBoth p am ty r d x1 x2 e1 e2
    | _ => s.stall
  else if Config.ldqSize < s.act.ldq.length + 2 then
    match s.cellCheck x1 with
    | some c => s.trap c x1.ea
    | none => s.stall
  else
    match s.act.first with
    | some e1 => s.vfmalSecond p am ty r d x1 x2 e1
    | none =>
      match s.load x1 ty .group false with
      | .stop st => s.stopped st
      | .ok e1 s1 =>
        (s1.mapAct fun a => { a with first := some e1, phase := .none }).vfmalSecond p am ty r d x1 x2 e1

/-! ## Stores that encode (R301, R302) -/

/-- What the execute half hands to the store of an encoding instruction: the data, what the lanes report, and the generator; or the
fault it raises (R310). -/
inductive Enc where
  | data (d : WData) (l : LaneFlags) (seed : BitVec 32)
  | bad (c : Code) (addr : Word)

/-- `ctl.nfenc` (R301). -/
def State.encFmt (s : State) : Option (BitVec 24) :=
  let w := s.cl.fmt[(s.me.nfenc.extractLsb' 0 4).toFin]
  if fmtValid w then some (w.extractLsb' 0 24) else none
def State.encGeo (s : State) : BitVec 4 := b1 (s.me.nfenc.getLsbD 7) ++ s.me.nfenc.extractLsb' 4 3
def State.encScale (s : State) : BitVec 8 := s.me.nfenc.extractLsb' 8 8

/-- The group number of an access. -/
def groupOf : AccUnit → Int
  | .group _ g => g
  | _ => 0

/-- V encoded as `ty` (R302, R303). -/
def State.encLanes (s : State) (ty : Ty) (sat : Bool) (r : Rnd) (x : Access) : Enc :=
  let rm := s.rm r
  let v := s.act.v.toList
  let nan := anyLane fun i => (fdecode Fmt.fp32 s.act.v[i].toNat).isNan
  match ty with
  | .fp32 => .data (.bytes (laneBytes 4 s.act.v) (List.replicate 16 false)) { c := false, o := false, x := nan } s.seed
  | .nf | .nfs =>
    match s.encFmt with
    | none => .bad 0x05 0
    | some d =>
      let scaled := ty == .nfs
      let nanScale := scaled && s.encScale == 0xFF
      if nanScale && !s.nsc then .bad 0x12 x.ea
      else
        let e := encNf (Desc.of d) (if scaled then 127 - (s.encScale.toNat : Int) else 0) nanScale sat rm s.seed v laneIdx
        .data (.group scaled (groupOf x.unit) (e.codes.map fun c => BitVec.ofNat 8 c) 0xFFFFFFFF#32 (some d)
          (if scaled then s.encGeo else 0) (if scaled then s.encScale else 0) false) e.l e.seed
  | t =>
    let e := encFloat (tyFmt t) sat rm s.seed v laneIdx
    .data (.bytes (e.codes.flatMap fun c => leBytes 2 c) (List.replicate 8 false)) e.l e.seed

/-- An encoding store (R244, R245): cell checks, room in STQ, the execute half's faults, then the port; a refusal at the port does
not give draws back (R128). -/
def State.encStore (s : State) (p : PReg) (am : Am) (x : Access) (e : Enc) : Out :=
  if !s.act.exq.isEmpty then s.stall
  else
    match storeCheck x with
    | some c => s.trap c x.ea
    | none =>
      if !s.act.stqRoom then s.stall
      else
        match e with
        | .bad c addr => s.trap c addr
        | .data d l seed =>
          match s.store x d none with
          | .stop (.wait o) => o
          | .stop (.bad c m addr) => (s.setSeed seed).trapMem c m addr
          | .ok s1 => ((s1.setSeed seed).mapAct fun a => { a with f := a.f.withLanes l }).endLoad p am x.np

def execVfst (p : PReg) (am : Am) (ty : Ty) (r : Rnd) (d : BitVec 9) (s : State) : Out :=
  let x := accessOf s.act.p[p] am (s.act.wide d) .group ty
  s.encStore p am x (s.encLanes ty false r x)

/-! ## Major 0x1A (R303, R304) -/

/-- `vcvtf`: the operand as binary32 lanes; an integer source is rounded. -/
def execVcvtf (p : PReg) (am : Am) (ty : Ty) (r : Rnd) (d : BitVec 9) (s : State) : Out :=
  if ty.isInt then
    s.vecLoad p am ty d fun e s1 x =>
      let m := (entryInts e).toList
      s1.endLanes p am x.np .none (laneMap (s1.rm r) s1.seed
        (fun dr i => fpack Fmt.fp64 Fmt.fp32 (s1.rm r) (.ofInt (laneInt ty (m.getD i 0))) dr) laneIdx)
  else s.vecPlain p am ty r d fun m => m

/-- `vcvti`: the operand as i32 lanes, clamped. -/
def execVcvti (p : PReg) (am : Am) (ty : Ty) (r : Rnd) (d : BitVec 9) (s : State) : Out :=
  if ty.isInt then
    s.vecLoad p am ty d fun e s1 x =>
      let m := entryInts e
      (s1.mapAct fun a =>
        { a.setV (lanes fun i => BitVec.ofInt 32 (clampTo .i32 (laneInt ty m[i]))) with
          f := a.f.withLanes { c := false, o := anyLane (fun i => !inRange .i32 (laneInt ty m[i])), x := false } }).endLoad p am x.np
  else
    s.vecFloat p am ty r d fun m rm s1 x => s1.endLanes p am x.np m.l (laneToInt rm true m.seed m.v laneIdx)

def execVpack (p : PReg) (am : Am) (ty : Ty) (r : Rnd) (d : BitVec 9) (s : State) : Out :=
  let x := accessOf s.act.p[p] am (s.act.wide d) .group ty
  s.encStore p am x (s.encLanes ty true r x)

/-- `vpacki`: lanes read as i32, clamped to the type. -/
def execVpacki (p : PReg) (am : Am) (ty : Ty) (d : BitVec 9) (s : State) : Out :=
  let n := tyBytes ty
  let bytes := s.act.v.toList.flatMap fun l => leBytes n (writeInt ty (clampTo ty l.toInt)).toNat
  s.encStore p am (accessOf s.act.p[p] am (s.act.wide d) .group ty)
    (.data (.bytes bytes (List.replicate (n * 4) false))
      { c := false, o := anyLane (fun i => !inRange ty s.act.v[i].toInt), x := false } s.seed)

/-- The block of `vpacks` (R304): its scale is chosen from the lanes, and lanes from L on take no part. -/
def State.packBlock (s : State) (r : Rnd) (x : Access) : Enc :=
  let l := blockLen (s.encGeo.extractLsb' 0 3).toNat
  if 32 < l then .bad 0x05 0
  else
    match s.encFmt with
    | none => .bad 0x05 0
    | some d =>
      let v := s.act.v.toList
      let vals := (List.range l).map fun i => fdecode Fmt.fp32 (laneNat v i)
      let scale := chooseScale (Desc.of d) vals
      let e := encNf (Desc.of d) (127 - (scale : Int)) false false (s.rm r) s.seed v (List.range l)
      .data (.group true (groupOf x.unit) (e.codes.map fun c => BitVec.ofNat 8 c) (maskOf fun i => decide (i < l)) (some d)
        s.encGeo (BitVec.ofNat 8 scale) true) e.l e.seed

def execVpacks (p : PReg) (am : Am) (ty : Ty) (r : Rnd) (d : BitVec 9) (s : State) : Out :=
  let x := accessOf s.act.p[p] am (s.act.wide d) .group ty
  s.encStore p am x (s.packBlock r x)

/-! ## Major 0x1B (R305) -/

/-- An integer reduction: A and the lanes that were read, at 64 bits. -/
def State.reduceInt (s : State) (p : PReg) (am : Am) (ty : Ty) (d : BitVec 9) (f : Act → Lanes → List (Fin 32) → Word) : Out :=
  s.vecLoad p am ty d fun e s1 x =>
    let m := entryInts e
    let idx := selected e.mask
    (s1.mapAct fun a =>
      let r := f a m idx
      a.setAF { a := r, f := { z := r == 0, n := r.getLsbD 63, c := false, o := false, x := false } }).endLoad p am x.np

/-- Folds minimum or maximum at 64 bits by the signedness of a type. -/
def foldPick (ty : Ty) (wantMax : Bool) (a : Word) (m : Lanes) (idx : List (Fin 32)) : Word :=
  let val (w : Word) : Int := if ty.isSigned then w.toInt else w.toNat
  idx.foldl (fun acc i =>
    let w : Word := BitVec.ofInt 64 (laneInt ty m[i])
    if wantMax then (if val acc < val w then w else acc) else (if val w < val acc then w else acc)) a

def execVrsum (p : PReg) (am : Am) (ty : Ty) (d : BitVec 9) (s : State) : Out :=
  s.reduceInt p am ty d fun a m idx => idx.foldl (fun acc i => acc + BitVec.ofInt 64 (laneInt ty m[i])) a.a
def execVrmin (p : PReg) (am : Am) (ty : Ty) (d : BitVec 9) (s : State) : Out :=
  s.reduceInt p am ty d fun a m idx => foldPick ty false a.a m idx
def execVrmax (p : PReg) (am : Am) (ty : Ty) (d : BitVec 9) (s : State) : Out :=
  s.reduceInt p am ty d fun a m idx => foldPick ty true a.a m idx
def execVrdot (p : PReg) (am : Am) (ty : Ty) (d : BitVec 9) (s : State) : Out :=
  s.reduceInt p am ty d fun a m idx =>
    idx.foldl (fun acc i => acc + BitVec.ofInt 64 (laneInt ty a.v[i] * laneInt ty m[i])) a.a

/-- The lanes of an entry that were read, in lane order. -/
def readLanes (mask : BitVec 32) : List Nat := (List.range 32).filter fun i => mask.getLsbD i

/-- A float reduction: `f` gets the mode, A, V, the operand lanes and those read, and the state of the generator. -/
def State.reduceFp (s : State) (p : PReg) (am : Am) (ty : Ty) (r : Rnd) (d : BitVec 9)
    (f : Rnd → Nat → Nat → List Lane → List Lane → List Nat → FRes) : Out :=
  s.vecLoad p am ty d fun e s1 x =>
    if entryNan e && !s1.nsc then s1.trap 0x12 (scaleLine e x.ea (32 * (s.act.wide d).toNat))
    else
      let rm := s1.rm r
      let m := entryFloats e s1.nsc rm s1.seed
      let dr := takeDraw rm m.seed
      let res := f rm dr.2 (s1.act.a.extractLsb' 0 32).toNat s1.act.v.toList m.v (readLanes e.mask)
      let out := reduceOut res
      ((s1.setSeed dr.1).mapAct fun a => a.setAF { out with f := out.f.orLane m.l }).endLoad p am x.np

def execVfrsum (p : PReg) (am : Am) (ty : Ty) (r : Rnd) (d : BitVec 9) (s : State) : Out :=
  s.reduceFp p am ty r d fun rm dr a _ m idx => exactSum rm dr (termOf a :: idx.map fun i => termOf (laneNat m i))
def execVfrmin (p : PReg) (am : Am) (ty : Ty) (r : Rnd) (d : BitVec 9) (s : State) : Out :=
  s.reduceFp p am ty r d fun _ _ a _ m idx => nanRes (idx.foldl (fun acc i => fminmax Fmt.fp32 false acc (laneNat m i)) a)
def execVfrmax (p : PReg) (am : Am) (ty : Ty) (r : Rnd) (d : BitVec 9) (s : State) : Out :=
  s.reduceFp p am ty r d fun _ _ a _ m idx => nanRes (idx.foldl (fun acc i => fminmax Fmt.fp32 true acc (laneNat m i)) a)
def execVfrdot (p : PReg) (am : Am) (ty : Ty) (r : Rnd) (d : BitVec 9) (s : State) : Out :=
  s.reduceFp p am ty r d fun rm dr a v m idx =>
    exactSum rm dr (termOf a :: idx.map fun i => termProd (laneNat v i) (laneNat m i))

/-! ## Major 0x1C (R306) -/

/-- An integer compare: K over the lanes that were read. -/
def State.vecCmp (s : State) (p : PReg) (am : Am) (ty : Ty) (d : BitVec 12) (f : Int → Int → Bool) : Out :=
  s.vecLoad p am ty d fun e s1 x =>
    let m := entryInts e
    (s1.mapAct fun a =>
      let k := maskOf fun i => e.mask.getLsbD i && f (laneInt ty (a.v.toList.getD i 0)) (laneInt ty (m.toList.getD i 0))
      { a with k := k, f := a.f.withK k }).endLoad p am x.np

/-- A float compare; nfs operands are decoded under nearest-even. -/
def State.vecFcmp (s : State) (p : PReg) (am : Am) (ty : Ty) (d : BitVec 12) (f : Nat → Nat → Bool) : Out :=
  s.vecLoad p am ty d fun e s1 x =>
    if entryNan e && !s1.nsc then s1.trap 0x12 (scaleLine e x.ea (32 * (s.act.wide d).toNat))
    else
      let m := (entryFloats e s1.nsc .rne s1.seed).v
      (s1.mapAct fun a =>
        let k := maskOf fun i => e.mask.getLsbD i && f (laneNat a.v.toList i) (laneNat m i)
        { a with k := k, f := a.f.withK k }).endLoad p am x.np

def execVceq (p : PReg) (am : Am) (ty : Ty) (d : BitVec 12) (s : State) : Out := s.vecCmp p am ty d fun v m => v == m
def execVcne (p : PReg) (am : Am) (ty : Ty) (d : BitVec 12) (s : State) : Out := s.vecCmp p am ty d fun v m => v != m
def execVclt (p : PReg) (am : Am) (ty : Ty) (d : BitVec 12) (s : State) : Out := s.vecCmp p am ty d fun v m => decide (v < m)
def execVcle (p : PReg) (am : Am) (ty : Ty) (d : BitVec 12) (s : State) : Out := s.vecCmp p am ty d fun v m => decide (v ≤ m)
def execVcgt (p : PReg) (am : Am) (ty : Ty) (d : BitVec 12) (s : State) : Out := s.vecCmp p am ty d fun v m => decide (m < v)
def execVcge (p : PReg) (am : Am) (ty : Ty) (d : BitVec 12) (s : State) : Out := s.vecCmp p am ty d fun v m => decide (m ≤ v)
def execVfceq (p : PReg) (am : Am) (ty : Ty) (d : BitVec 12) (s : State) : Out := s.vecFcmp p am ty d fpEq
def execVfclt (p : PReg) (am : Am) (ty : Ty) (d : BitVec 12) (s : State) : Out := s.vecFcmp p am ty d fpLt
def execVfcle (p : PReg) (am : Am) (ty : Ty) (d : BitVec 12) (s : State) : Out := s.vecFcmp p am ty d fun v m => fpEq v m || fpLt v m
def execVfcun (p : PReg) (am : Am) (ty : Ty) (d : BitVec 12) (s : State) : Out := s.vecFcmp p am ty d fpUn

/-- The operand of `vsel` as lanes: integers, or floats widened (R292). -/
def selLanes (e : QEntry) : Lanes := if e.ty.isInt then entryInts e else vecOf (entryFloats e true .rne 0).v

def execVsel (p : PReg) (am : Am) (ty : Ty) (d : BitVec 12) (s : State) : Out :=
  s.vecLoad p am ty d fun e s1 x =>
    let m := selLanes e
    (s1.mapAct fun a => a.setV (lanes fun i => if a.k.getLsbD i.val then m[i] else a.v[i])).endLoad p am x.np

end Sys2Proof.Machine
end

