-- ==== Sys2Proof/Machine/Move.lean ====
section
/-!
DEFINITION. Execute-half instructions without a memory operand, majors 0x20 and 0x21 (R238, R239, R307 to R309), and how they wait
in the execute half while the access half goes on (R244, R247, R270).
-/
namespace Sys2Proof.Machine

/-! ## Waiting in the execute half -/

/-- Whether the part can issue now; waits for a reply that will fill or refuse the place at the head of LDQ; would pop a refused
place; or waits for something a younger access part can bring, so that the access half goes on (R247). -/
inductive ExNeed where
  | go | hold | refused | later
  deriving DecidableEq, Repr

/-- A pop of LDQ (R278). -/
def Act.popNeed (a : Act) : ExNeed :=
  match a.ldq with
  | [] => .later
  | .filled _ :: _ => .go
  | .refused _ :: _ => .refused
  | .reserved _ :: _ => .hold

/-- A push to STQ (R283). -/
def Act.pushNeed (a : Act) : ExNeed := if a.stqRoom then .go else .later

/-- The need of a part that pops LDQ and pushes STQ. -/
def ExNeed.and (x y : ExNeed) : ExNeed := if x = .go then y else x

/-- Hands the part to the execute half's queue, reserving an XQ place for a producer (R270), and goes on. -/
def State.deferEx (s : State) (i : Instr) (pushXq : Bool) : Out :=
  (s.mapAct fun a =>
    { a with exq := a.exq ++ [{ pc := a.pc, word := a.iw, instr := i, pfx := a.pfx }],
             xq := if pushXq then a.xq ++ [.reserved] else a.xq }).finish

/-- An execute-half instruction: it runs when it can, in order behind those that wait. -/
def State.exOnly (s : State) (i : Instr) (pushXq pops : Bool) (need : ExNeed) (run : State → Out) : Out :=
  let a := s.act
  if a.drain then run s
  else if pushXq && decide (Config.xqSize ≤ a.xq.length) then s.stall
  else if a.exq.isEmpty then
    match need with
    | .go => run s
    | .hold => s.stall
    | .refused => if a.deferred.isEmpty then s.stall else s.takeDeferred
    | .later => s.deferEx i pushXq
  else if decide (Config.exqSize ≤ a.exq.length) || (pops && a.ldq.any fun p => !p.isFilled) then s.stall
  else s.deferEx i pushXq

/-- An instruction on A, V, K and F alone. -/
def State.exPlain (s : State) (i : Instr) (f : Act → Act) : Out :=
  s.exOnly i false false .go fun s1 => (s1.mapAct f).finish

/-! ## mov (R307) -/

/-- The head entry of LDQ. -/
def Act.ldqHead (a : Act) : Option QEntry :=
  match a.ldq with
  | .filled e :: _ => some e
  | _ => none

/-- The word a `mov` takes, with the tag that only STQ receives. -/
def Act.movWord (a : Act) (src : MovSrc) (imm : BitVec 16) : TWord :=
  match src with
  | .a => { val := a.a, tag := false }
  | .ldq =>
    match a.ldqHead with
    | some e => { val := e.data.getD 0 0, tag := e.tags.getLsbD 0 }
    | none => { val := 0, tag := false }
  | .k => { val := a.k.setWidth 64, tag := false }
  | .f => { val := a.f.toWord, tag := false }
  | .imm => { val := a.wide imm, tag := false }

/-- Fills the first reserved place of XQ, which is this producer's (R270). -/
def fillXq (w : Word) : List XqPlace → List XqPlace
  | [] => []
  | .reserved :: t => .filled w :: t
  | p :: t => p :: fillXq w t

def Act.pushXqWord (a : Act) (w : Word) : Act :=
  { a with xq := if a.drain then fillXq w a.xq else a.xq ++ [.filled w] }

/-- The entry that `mov` pushes to STQ. -/
def movEntry (w : TWord) (src : MovSrc) : QEntry :=
  { data := [w.val], tags := if w.tag then 1 else 0, ty := if src = .ldq then .ref else .u64, unit := .element, desc := none,
    geo := 0, scale := 0, mask := 0, whole := false }

def Act.movTo (a : Act) (src : MovSrc) (dst : MovDst) (w : TWord) : Act :=
  match dst with
  | .a => a.setA w.val
  | .stq => { a with stq := a.stq ++ [movEntry w src] }
  | .xq => a.pushXqWord w.val
  | .k => { a with k := w.val.extractLsb' 0 32 }

def execMov (src : MovSrc) (dst : MovDst) (imm : BitVec 16) (s : State) : Out :=
  let pops := src == .ldq
  let need := (if pops then s.act.popNeed else .go).and (if dst == .stq then s.act.pushNeed else .go)
  s.exOnly (.mov src dst imm) (dst == .xq) pops need fun s1 =>
    (s1.mapAct fun a =>
      let b := a.movTo src dst (a.movWord src imm)
      if pops then { b with ldq := b.ldq.tail } else b).finish

/-! ## Immediates and accumulators (R308) -/

def execAddi (imm : BitVec 16) (s : State) : Out := s.exPlain (.addi imm) fun a => a.setAF (aluAdd .i64 a.a (a.wide imm))
def execAndi (imm : BitVec 16) (s : State) : Out := s.exPlain (.andi imm) fun a => a.setAF (aluAnd .i64 a.a (a.wide imm))
def execOri (imm : BitVec 16) (s : State) : Out := s.exPlain (.ori imm) fun a => a.setAF (aluOr .i64 a.a (a.wide imm))
def execXori (imm : BitVec 16) (s : State) : Out := s.exPlain (.xori imm) fun a => a.setAF (aluXor .i64 a.a (a.wide imm))
def execShli (n : BitVec 6) (s : State) : Out := s.exPlain (.shli n) fun a => a.setAF (aluShl .i64 a.a (n.setWidth 64))
def execShri (n : BitVec 6) (s : State) : Out := s.exPlain (.shri n) fun a => a.setAF (aluShr .i64 a.a (n.setWidth 64))
def execSari (n : BitVec 6) (s : State) : Out := s.exPlain (.sari n) fun a => a.setAF (aluSar .i64 a.a (n.setWidth 64))
def execCmpi (imm : BitVec 16) (s : State) : Out :=
  s.exPlain (.cmpi imm) fun a => { a with f := (aluSub .i64 a.a (a.wide imm)).f }
def execFli (imm : BitVec 16) (s : State) : Out :=
  s.exPlain (.fli imm) fun a => a.setA ((widen32 Fmt.bf16 imm.toNat).setWidth 64)
def execVsplat (s : State) : Out := s.exPlain .vsplat fun a => a.setV (Vector.replicate 32 (a.a.extractLsb' 0 32))
def execVins (n : BitVec 5) (s : State) : Out := s.exPlain (.vins n) fun a => a.setV (a.v.set n.toFin (a.a.extractLsb' 0 32))
def execVext (n : BitVec 5) (s : State) : Out := s.exPlain (.vext n) fun a => a.setA (a.v[n.toFin].setWidth 64)
def execVzero (s : State) : Out := s.exPlain .vzero fun a => a.setV (Vector.replicate 32 0)
def execKset (imm : BitVec 16) (s : State) : Out := s.exPlain (.kset imm) fun a => { a with k := (a.wide imm).extractLsb' 0 32 }

def execQdrop (s : State) : Out :=
  s.exOnly .qdrop false true s.act.popNeed fun s1 => (s1.mapAct fun a => { a with ldq := a.ldq.tail }).finish

def execAcvt (sat : Bool) (r : Rnd) (dt st : Ty) (s : State) : Out :=
  s.exOnly (.acvt sat r dt st) false false .go fun s1 =>
    let res := cvtWord st dt sat (s1.rm r) s1.seed s1.act.a
    ((s1.setSeed res.1).mapAct fun a => a.setAF res.2).finish

def execVconv (sat : Bool) (r : Rnd) (toF : Bool) (s : State) : Out :=
  s.exOnly (.vconv sat r toF) false false .go fun s1 =>
    let v := s1.act.v.toList
    let rm := s1.rm r
    let o := if toF then laneMap rm s1.seed (fun dr i => fpack Fmt.fp64 Fmt.fp32 rm (.ofInt (v.getD i 0).toInt) dr) laneIdx
      else laneToInt rm sat s1.seed v laneIdx
    ((s1.setSeed o.seed).mapAct fun a => { a.setV (vecOf o.v) with f := a.f.withLanes o.l }).finish

def execVsum (r : Rnd) (fl : Bool) (s : State) : Out :=
  s.exOnly (.vsum r fl) false false .go fun s1 =>
    let v := s1.act.v.toList
    if fl then
      let dr := takeDraw (s1.rm r) s1.seed
      let res := exactSum (s1.rm r) dr.2 (laneIdx.map fun i => termOf (laneNat v i))
      ((s1.setSeed dr.1).mapAct fun a => a.setAF (reduceOut res)).finish
    else
      let n : Word := BitVec.ofInt 64 (v.foldl (fun acc l => acc + l.toInt) 0)
      (s1.mapAct fun a => a.setAF { a := n, f := { z := n == 0, n := n.getLsbD 63, c := false, o := false, x := false } }).finish

/-! ## Lanes and masks (R309) -/

def execVrot (n : BitVec 5) (s : State) : Out :=
  s.exPlain (.vrot n) fun a => a.setV (lanes fun i => a.v[Fin.ofNat 32 (i.val + 32 - n.toNat)])
def execVbcast (n : BitVec 5) (s : State) : Out := s.exPlain (.vbcast n) fun a => a.setV (Vector.replicate 32 a.v[n.toFin])

def execVperm (s : State) : Out :=
  s.exOnly .vperm false true s.act.popNeed fun s1 =>
    (s1.mapAct fun a =>
      let bs := match a.ldqHead with
        | some e => e.data.flatMap bytesOf
        | none => []
      { a.setV (lanes fun i => a.v[Fin.ofNat 32 (bs.getD i.val 0).toNat]) with ldq := a.ldq.tail }).finish

def execVcomp (s : State) : Out := s.exPlain .vcomp fun a => a.setV (compress a.k a.v)
def execVexpd (s : State) : Out := s.exPlain .vexpd fun a => a.setV (expand a.k a.v)
def execVrev (s : State) : Out := s.exPlain .vrev fun a => a.setV (lanes fun i => a.v[Fin.ofNat 32 (31 - i.val)])
def execKand (s : State) : Out := s.exPlain .kand fun a => { a with k := a.k &&& a.a.extractLsb' 0 32 }
def execKor (s : State) : Out := s.exPlain .kor fun a => { a with k := a.k ||| a.a.extractLsb' 0 32 }
def execKxor (s : State) : Out := s.exPlain .kxor fun a => { a with k := a.k ^^^ a.a.extractLsb' 0 32 }
def execKnot (s : State) : Out := s.exPlain .knot fun a => { a with k := ~~~a.k }
def execKpop (s : State) : Out := s.exPlain .kpop fun a => a.setA (BitVec.ofNat 64 (onesOf a.k.toNat 32))
def execKffs (s : State) : Out := s.exPlain .kffs fun a => a.setA (BitVec.ofNat 64 (trailingZeros a.k.toNat 32))

end Sys2Proof.Machine
end

