-- ==== Sys2Proof/Machine/Pointer.lean ====
section
/-!
DEFINITION. Pointer arithmetic, major 0x01 (R231, R263 to R265, R140).
-/
namespace Sys2Proof.Machine

/-- A pointer operation that writes a value: the tag clears and the step is kept (R263). -/
def State.setPv (s : State) (pd : PReg) (v : Word) : Out := (s.mapAct fun a => a.setPVal pd v).finish

def execPmov (pd ps : PReg) (s : State) : Out := (s.mapAct fun a => a.setP pd a.p[ps]).finish
def execPadd (pd ps : PReg) (s : State) : Out := s.setPv pd (s.pv pd + s.pv ps)
def execPsub (pd ps : PReg) (s : State) : Out := s.setPv pd (s.pv pd - s.pv ps)
def execPaddi (pd ps : PReg) (imm : BitVec 16) (s : State) : Out := s.setPv pd (s.pv ps + s.act.wide imm)
def execPand (pd ps : PReg) (s : State) : Out := s.setPv pd (s.pv pd &&& s.pv ps)
def execPor (pd ps : PReg) (s : State) : Out := s.setPv pd (s.pv pd ||| s.pv ps)
def execPxor (pd ps : PReg) (s : State) : Out := s.setPv pd (s.pv pd ^^^ s.pv ps)
def execPshl (pd ps : PReg) (n : BitVec 6) (s : State) : Out := s.setPv pd (s.pv ps <<< n.toNat)
def execPshr (pd ps : PReg) (n : BitVec 6) (s : State) : Out := s.setPv pd (s.pv ps >>> n.toNat)
def execPset (pd : PReg) (imm : BitVec 16) (s : State) : Out := s.setPv pd (s.act.wide imm)

/-- The immediate, as 48 bits, above the low 16 bits of pd (R263). -/
def execPseth (pd : PReg) (imm : BitVec 16) (s : State) : Out :=
  s.setPv pd ((s.act.wide imm).extractLsb' 0 48 ++ (s.pv pd).extractLsb' 0 16 : BitVec 64)

def execPstep (pd : PReg) (imm : BitVec 16) (s : State) : Out :=
  (s.mapAct fun a => a.setP pd { a.p[pd] with step := imm, tag := false }).finish

def execPscal (pd ps : PReg) (n : BitVec 3) (s : State) : Out := s.setPv pd (s.pv pd + (s.pv ps <<< n.toNat))

/-- What R140 finds wrong with an address, in its order. -/
def State.refFault (s : State) (a : Word) : Option Code :=
  if !isOwn a then some 0x03
  else if a.extractLsb' 0 7 != 0 then some 0x02
  else if decide (0x2F0000000 ≤ a.toNat) && decide (a.toNat < 0x2F1000000) then some 0x05
  else if s.cl.window a.toNat == .hole then some 0x04
  else none

def execMkref (pd ps : PReg) (s : State) : Out :=
  let a := s.pv ps
  match s.refFault a with
  | some c => s.trap c a
  | none =>
    (s.mapAct fun x => x.setP pd { val := s.cl.place ||| (a &&& 0x3FFFFFFFF#64), step := x.p[ps].step, tag := true }).finish

def execPclr (pd : PReg) (s : State) : Out := (s.mapAct fun a => a.setP pd Ptr.zero).finish

end Sys2Proof.Machine
end

