-- ==== Sys2Proof/Machine/Trust.lean ====
section
/-!
DEFINITION. The security cores' commands (R442 to R450, R460) and the protected pages (R411 to R413, R452).
-/
namespace Sys2Proof.Machine

/-! ## Compartments (R437, R444, R445) -/

/-- The compartment of a world with a ckey. -/
def Package.compOf (p : Package) (world : BitVec 24) (ckey : BitVec 6) : Option Compartment :=
  p.comps.find? fun c : Compartment => c.world == world && c.ckey == ckey

def Package.mapComp (p : Package) (world : BitVec 24) (ckey : BitVec 6) (f : Compartment → Compartment) : Package :=
  { p with comps := p.comps.map fun c : Compartment => if c.world == world && c.ckey == ckey then f c else c }

/-- The item of a creation (1) or destruction (2) with its kind (R449). -/
def compItem (op : Nat) (world : BitVec 24) (ckey : BitVec 6) (kind : CompKind) : List Byte :=
  [BitVec.ofNat 8 op, if kind == .weight then 1 else 0, ckey.setWidth 8] ++ leBytes 3 world.toNat

/-- CREATE: the kind's keys are drawn; versions begin at 0 and in. -/
def execCreate (world : BitVec 24) (ckey : BitVec 6) (kind : CompKind) (s : State) : Out :=
  s.mailbox (.create world ckey kind) fun s1 =>
    if s1.pkg.secHeld then s1.answer 0x03 0x13
    else if ckey == 0 || (s1.pkg.compOf world ckey).isSome then s1.answer 0x03 0x05
    else
      match s1.drawKey with
      | (none, s2) => s2.answer 0x03 0x13
      | (some k, s2) =>
        let s3 := s2.extend 3 (compItem 1 world ckey kind)
        let c : Compartment := { world, ckey, kind, keyId := k, xts := kind == .data, torn := false }
        { s3 with pkg := { s3.pkg with
            comps := s3.pkg.comps ++ [c],
            versions := s3.pkg.versions.filter fun v : PageVer => !(v.world == world && v.ckey == ckey) } }.answer 0x03 0

/-- The teardown of R413: the keys are withdrawn, and every region launched under the compartment ends; the homes of the package's other
clusters are told. -/
def State.teardown (s : State) (world : BitVec 24) (ckey : BitVec 6) : State :=
  let s1 := { s with pkg := s.pkg.mapComp world ckey fun c => { c with xts := false, torn := true } }
  let s2 := if world != s.cl.ptn then s1
    else (s.cl.launched.filter fun x : Word × BitVec 6 => x.2 == ckey).foldl
      (fun (st : State) (x : Word × BitVec 6) => st.push (.regionCmd s.deviceReq x.1 4 0 5 [])) s1
  s2.emit (outMsg .teardown 0 0 0 0 [world.setWidth 64, ckey.setWidth 64])

/-- The `ctl.cmpt` of a cluster of the package names a compartment: the own one's, or another's as the host has written it. -/
def State.compNamed (s : State) (world : BitVec 24) (ckey : BitVec 6) : Bool :=
  (world == s.cl.ptn && ckey == s.cl.cmpt) ||
  s.pkg.cmpts.any fun x : BitVec 9 × BitVec 6 => x.2 == ckey && (s.shareOf x.1).1 == world

/-- DESTROY. -/
def execDestroy (world : BitVec 24) (ckey : BitVec 6) (s : State) : Out :=
  s.mailbox (.destroy world ckey) fun s1 =>
    match s1.pkg.compOf world ckey with
    | none => s1.answer 0x03 0x05
    | some c =>
      if s1.pkg.secHeld then s1.answer 0x03 0x13
      else if s1.compNamed world ckey then s1.answer 0x03 0x05
      else
        let s2 := (s1.teardown world ckey).extend 3 (compItem 2 world ckey c.kind)
        { s2 with pkg := { s2.pkg with comps := s2.pkg.comps.filter fun x : Compartment =>
            !(x.world == world && x.ckey == ckey) } }.answer 0x03 0

/-- KEY_LOAD. -/
def execKeyLoad (world : BitVec 24) (ckey : BitVec 6) (kem wrapped : List Byte) (s : State) : Out :=
  s.mailbox (.keyLoad world ckey kem wrapped) fun s1 =>
    if s1.pkg.secHeld then s1.answer 0x03 0x13
    else
      match s1.pkg.compOf world ckey with
      | none => s1.answer 0x03 0x05
      | some c =>
        if c.kind != .weight || c.xts then s1.answer 0x03 0x05
        else if c.torn then s1.answer 0x03 0x13
        else
          match Config.unwrapKey c.keyId kem wrapped with
          | none => s1.answer 0x03 0x10
          | some k => { s1 with pkg := s1.pkg.mapComp world ckey fun c => { c with xts := true, pair := k } }.answer 0x03 0

/-! ## Gates, evidence, peers -/

/-- What R444 asks of a gate entry: its reserved bits, a mode of R442, and a source that is a compartment. -/
def State.gateEntryOk (s : State) (world : BitVec 24) (e : Word) : Bool :=
  zeroAt e 0 48 && decide ((e.extractLsb' 60 3).toNat < 2) && (s.pkg.compOf world (e.extractLsb' 54 6)).isSome &&
  (world != s.cl.ptn || s.suspended)

/-- The home's copy of the gate table changes: an access or a watch that was checked before completes under the old one (R443). -/
def State.setGate (s : State) (index : Fin 16) (entry : Word) : State :=
  let s1 := s.keepXlatAt fun _ => true
  let kept (w : WatchReq) : Bool := s1.cl.watchGates.any fun x : WatchReq × Vector Word 16 => x.1 == w
  { s1 with cl := { s1.cl with
      gates := s1.cl.gates.set index entry
      watchGates := s1.cl.watchGates ++ ((s1.cl.watches.filter fun w : WatchReq => !kept w).map fun w => (w, s1.cl.gates)) } }

/-- GATE: the table of the security cores and the home's copy. -/
def execGate (world : BitVec 24) (index : Fin 16) (entry : Word) (s : State) : Out :=
  s.mailbox (.gate world index entry) fun s1 =>
    if s1.pkg.secHeld then s1.answer 0x03 0x13
    else if !s1.gateEntryOk world entry then s1.answer 0x03 0x05
    else
      let s2 := s1.extend 4 (bytesOf entry)
      let rest := s2.pkg.gateTab.filter fun g : BitVec 24 × Fin 16 × Word => !(g.1 == world && g.2.1 == index)
      let s3 := { s2 with pkg := { s2.pkg with gateTab := (world, index, entry) :: rest } }
      (if world == s3.cl.ptn then s3.setGate index entry else s3).answer 0x03 0

/-- The signed part of evidence (R450). -/
def State.evidenceBytes (s : State) (world : BitVec 24) (nonce : BitVec 256) : List Byte :=
  let hash (k : Nat) : BitVec 256 :=
    match s.pkg.compOf world (BitVec.ofNat 6 k) with
    | some c => if k == 0 then 0 else Config.sha256 (Config.kemPublic c.keyId)
    | none => 0
  leBytes 2 1 ++ leBytes 3 world.toNat ++ leBytes 3 0 ++ leBytes 32 nonce.toNat ++
  (s.pkg.slots.toList.flatMap fun x => leBytes 32 x.toNat) ++ ((List.range 64).flatMap fun k => leBytes 32 (hash k).toNat) ++
  ((s.pkg.gatesOf world).toList.flatMap bytesOf) ++ leBytes 32 (Config.aliasPublic Config.identitySeed s.pkg.slots[0]).toNat

/-- What the host's buffer receives: the evidence with its signature, and beside it the alias certificate and the public keys of the
world's compartments, in ckey order (R450, R458). -/
def State.evidenceResult (s : State) (world : BitVec 24) (nonce : BitVec 256) : List Byte :=
  let bs := s.evidenceBytes world nonce
  let keys := (List.range 63).flatMap fun k =>
    match s.pkg.compOf world (BitVec.ofNat 6 (k + 1)) with
    | some c => Config.kemPublic c.keyId
    | none => []
  bs ++ (List.range 7856).map (Config.signature Config.identitySeed s.pkg.slots[0] bs) ++
    Config.aliasCertificate Config.identitySeed s.pkg.slots[0] ++ keys

/-- EVIDENCE: the result goes to the host's buffer at `buf`, which must hold it. -/
def execEvidence (world : BitVec 24) (nonce : BitVec 256) (buf : Word) (len : Nat) (s : State) : Out :=
  s.mailbox (.evidence world nonce buf len) fun s1 =>
    if s1.pkg.secHeld then s1.answer 0x03 0x13
    else
      let all := s1.evidenceResult world nonce
      if len < all.length then s1.answer 0x03 0x05
      else (s1.emit (outMsg .evidence 0 buf 0 0 (wordsOf ((all.length + 7) / 8) all))).answer 0x03 0

/-- PEERS: the far-peer allow list. -/
def execPeers (values : List (BitVec 256)) (s : State) : Out :=
  s.mailbox (.peers values) fun s1 =>
    if s1.pkg.secHeld then s1.answer 0x03 0x13
    else if 16 < values.length then s1.answer 0x03 0x05
    else
      let s2 := s1.extend 5 (values.flatMap fun x => leBytes 32 x.toNat)
      { s2 with pkg := { s2.pkg with allow := values } }.answer 0x03 0

/-! ## Hand-over (R460) -/

/-- Plain bytes in DRAM: untagged, with no compartment's number. -/
def Memory.putPlain (m : Memory) (key : Nat) (bs : List Byte) : Memory :=
  let out (a : Nat) : Bool := decide (a + 127 < key) || decide (key + bs.length ≤ a)
  let m1 := { m with enc := m.enc.filter fun c => out c.1 }
  (m1.setBytes key bs).clearTags key bs.length

/-- The control block, the save area and the sump that a hand-over's image names lie in pair 0's carve-out, and the region is a root's
(R460). -/
def State.imageOk (s : State) (oa : Nat) : Bool :=
  let size := pairSize s.cl.vfpair[0] * 0x10000
  let base := pairBase s.cl.vfpair[0] * 0x10000
  let r : Rcb := { addr := BitVec.ofNat 64 oa, words := wordsOf 16 (s.mem.viewBytes 0 (base + oa) 128) }
  let info := resolveInfo r.addr [r]
  let fits (lo len : Nat) : Bool := len == 0 || decide (lo + len ≤ size)
  oa % 256 == 0 && fits oa 256 && r.parent == 0 &&
  (s.cellsIn info.rect).all fun n =>
    (info.save == 0 || fits (saveBlock info n) (512 * (1 + info.nfr))) &&
    fits (info.sump.toNat + 128 * info.slines * n.val) (128 * info.slines)

/-- A measurement fails to complete: the cores hold the clusters in reset and post a fatal event (R460). -/
def State.measureStops (s : State) : State :=
  { s with cl := { s.cl with released := false } }.postHost 0x05 0 0 0

/-- HAND_OVER: the image is copied to the start of pair 0's carve-out of the named cluster, measured, and launched as a root region. -/
def execHandOver (image : List Byte) (rcb : OwnAt) (world : BitVec 24) (s : State) : Out :=
  s.mailbox (.handOver image rcb world) fun s1 =>
    let p := s1.cl.vfpair[0]
    if s1.pkg.secHeld then s1.answer 0x03 0x13
    else if decide (60 ≤ rcb.pclu.toNat) || (s1.pkg.bare && rcb.die != 0) || !isOwn rcb.oa then s1.answer 0x03 0x05
    else if rcb.die != s1.cl.die || rcb.pclu != s1.cl.pclu then
      .next (s1.forwardWith 0x03 (0#13 ++ rcb.die ++ 0#2 ++ rcb.pclu ++ 0#40 : BitVec 64)
        (rcb.oa :: world.setWidth 64 :: wordsOf ((image.length + 7) / 8) image) [(1, image)] none)
    else if world != s1.cl.ptn || !pairEn p || decide (pairSize p * 0x10000 < image.length) then s1.answer 0x03 0x05
    else
      let s2 := s1.withMem (s1.mem.putPlain (pairBase p * 0x10000) image)
      if !s2.imageOk rcb.oa.toNat then s1.answer 0x03 0x05
      else
        let s3 := { s2 with free := s2.free + 1 }
        if Config.measureFails s2.free then s3.measureStops.answer 0x03 0x05
        else (s3.extend 1 image).regionCommand (prefixOf s1.cl.place ||| rcb.oa) (hostReq 0x03) 1 0 3 []

/-! ## Protected pages (R411 to R413, R452) -/

/-- A machine frame's contents, at keys from 0. -/
def Memory.frame (m : Memory) (f : Nat) : Memory :=
  let base := f * 0x10000
  let mine (a : Nat) : Bool := decide (base ≤ a) && decide (a < base + 0x10000)
  let keys (l : List Nat) : List Nat := (l.filter mine).map fun a => a - base
  { bytes := (m.bytes.filter fun c => mine c.1).map fun c => (c.1 - base, c.2), tags := keys m.tags, lit := keys m.lit,
    poison := keys m.poison, enc := (m.enc.filter fun c => mine c.1).map fun c => (c.1 - base, c.2) }

/-- Puts a page's contents in a machine frame. -/
def Memory.putFrame (m : Memory) (f : Nat) (p : Memory) : Memory :=
  let base := f * 0x10000
  let nats (l q : List Nat) : List Nat :=
    l.filter (fun a => decide (a < base)) ++ (q.map fun a => a + base) ++ l.filter fun a => decide (base + 0x10000 ≤ a)
  { bytes := m.bytes.filter (fun c => decide (c.1 < base)) ++ (p.bytes.map fun c => (c.1 + base, c.2)) ++
      m.bytes.filter (fun c => decide (base + 0x10000 ≤ c.1))
    tags := nats m.tags p.tags, lit := nats m.lit p.lit, poison := nats m.poison p.poison
    enc := m.enc.filter (fun c => decide (c.1 < base)) ++ (p.enc.map fun c => (c.1 + base, c.2)) ++
      m.enc.filter (fun c => decide (base + 0x10000 ≤ c.1)) }

/-- The page and the side-band words of a frame, as an export writes them. -/
def State.storedPage (s : State) (f : Nat) : List Byte := (List.range 512).flatMap fun i => s.mem.rawLine (f * 0x10000 + 128 * i)
def State.storedSide (s : State) (f : Nat) : List Byte :=
  (List.range 512).flatMap fun i => leBytes 4 (s.lineMark (f * 0x10000 + 128 * i))

/-- The trailer of an export (R411). -/
def trailer (ckey : BitVec 6) (vpn : BitVec 17) (ver : BitVec 48) (mac : BitVec 128) : List Byte :=
  leBytes 8 (ckey ++ 0#41 ++ vpn : BitVec 64).toNat ++ leBytes 8 ver.toNat ++ leBytes 16 mac.toNat ++ List.replicate 96 0

/-- The version entry of a page: 0 and in where none is kept. -/
def State.pageVer (s : State) (ckey : BitVec 6) (vpn : BitVec 17) : PageVer :=
  (s.pkg.versions.find? fun v : PageVer => v.world == s.cl.ptn && v.ckey == ckey && v.vpn == vpn).getD
    { world := s.cl.ptn, ckey, vpn, ver := 0, out := false, page := Memory.reset }

def State.setPageVer (s : State) (v : PageVer) : State :=
  { s with pkg := { s.pkg with versions := v :: s.pkg.versions.filter fun x : PageVer =>
      !(x.world == v.world && x.ckey == v.ckey && x.vpn == v.vpn) } }

/-- The key of a compartment's exports, where the key store holds it. -/
def State.exportKey (s : State) (ckey : BitVec 6) : Option Nat :=
  match s.comp ckey with
  | some c => if c.torn || s.pkg.secHeld then none else some c.keyId
  | none => none

/-- An export or import at the named cluster: the own one's, or another's, to which it is passed on. -/
def State.pageAt (s : State) (c : CkeyAt) (words : List Word) (run : State → Out) : Out :=
  if decide (60 ≤ c.pclu.toNat) || (s.pkg.bare && c.die != 0) then s.answer 0x05 0x05
  else if c.die != s.cl.die || c.pclu != s.cl.pclu then
    .next (s.forwardWith 0x05 (0#13 ++ c.die ++ 0#2 ++ c.pclu ++ 0#40 : BitVec 64) words [] none)
  else run s

/-- EXPORT: the version rises, the page is out, and its image goes to the host. -/
def execExportPage (c : CkeyAt) (vpn : BitVec 17) (host : Word) (s : State) : Out :=
  s.mailbox (.exportPage c vpn host) fun s0 => s0.pageAt c [(c.ckey ++ 0#41 ++ vpn : BitVec 64), host] fun s1 =>
    let ckey := c.ckey
    let v := s1.pageVer ckey vpn
    if ckey == 0 || v.out || host.toNat % 64 != 0 || s1.cl.tlb.any (fun e : TlbEnt => e.covers vpn.toNat) then s1.answer 0x05 0x05
    else
      match s1.exportKey ckey with
      | none => s1.answer 0x05 0x13
      | some k =>
        let f := Config.exportFrame ckey.toNat vpn.toNat s1.free % Config.sliceFrames
        let ver := v.ver + 1
        let page := s1.storedPage f
        let side := s1.storedSide f
        let bs := page ++ side ++ trailer ckey vpn ver (Config.exportTag k ckey.toNat vpn.toNat ver.toNat page side)
        let s2 := { s1 with free := s1.free + 1 }.setPageVer { v with ver, out := true, page := s1.mem.frame f }
        (s2.emit (outMsg .hostData 0 host 0 0 (wordsOf 8464 bs))).answer 0x05 0

/-- The conditions of R412 on an image. -/
def State.importOk (s : State) (ckey : BitVec 6) (vpn : BitVec 17) (image : List Byte) (k : Nat) : Bool :=
  let v := s.pageVer ckey vpn
  let page := image.take 0x10000
  let side := (image.drop 0x10000).take 2048
  v.out && image.drop 0x10800 == trailer ckey vpn v.ver (Config.exportTag k ckey.toNat vpn.toNat v.ver.toNat page side)

/-- IMPORT: a good image is restored in a clean frame; any other tears its compartment down. -/
def execImportPage (c : CkeyAt) (vpn : BitVec 17) (image : List Byte) (frame : BitVec 16) (s : State) : Out :=
  s.mailbox (.importPage c vpn image frame) fun s0 =>
    s0.pageAt c ((c.ckey ++ 0#41 ++ vpn : BitVec 64) :: frame.setWidth 64 :: wordsOf 8464 image) fun s1 =>
    let ckey := c.ckey
    if !s1.cl.clean.contains frame.toNat then s1.answer 0x05 0x05
    else
      match s1.exportKey ckey with
      | none => s1.answer 0x05 0x13
      | some k =>
        if s1.importOk ckey vpn image k then
          let v := s1.pageVer ckey vpn
          ((s1.setPageVer { v with out := false, page := Memory.reset }).withMem (s1.mem.putFrame frame.toNat v.page)).answer 0x05 0
        else (s1.teardown s1.cl.ptn ckey).answer 0x05 0x0F

/-! ## A mismatch of the security cores (R447) -/

/-- SECURITY_CORE_MISMATCH: every key is erased, and the cores are held until the next package reset. -/
def execSecurityCoreMismatch (s : State) : Out :=
  let s1 := { s with pkg := { s.pkg with
      secHeld := true,
      comps := s.pkg.comps.map (fun c : Compartment => { c with xts := false }),
      sess := s.pkg.sess.map fun x : FarSess => if x.st == SessSt.down then x else { x with st := .failed, fcode := 0x13 } } }
  .next (s1.postHost 0x05 0 0 0)

end Sys2Proof.Machine
end

