-- ==== Sys2Proof/Machine/Far.lean ====
section
/-!
DEFINITION. The opening of a far session by the security cores (R451).
-/
namespace Sys2Proof.Machine

/-- What this package sends to open a session with a draw: the transcript of the key exchange, signed with the alias key, and its evidence
(R450, R451). The layout is that of log 122. -/
def State.farHello (s : State) (e k : Nat) (h : PeerHello) : OutMsg :=
  let bs := leBytes 32 (Config.farNonce k).toNat ++ leBytes 32 h.nonce.toNat ++ Config.kemMessage k ++ h.kem
  let signed := (List.range 7856).map (Config.signature Config.identitySeed s.pkg.slots[0] bs)
  let all := bs ++ signed ++ s.evidenceResult 0 h.nonce
  outMsg .session 0 (BitVec.ofNat 64 e) 0 0 (wordsOf ((all.length + 7) / 8) all)

/-- A session that opens with a draw and what the peer has sent: up where the peer is certified and allowed. -/
def State.openSess (s : State) (x : FarSess) (k : Nat) (h : PeerHello) (slot0 : BitVec 256) : State :=
  let s1 := s.emit (s.farHello x.peer k h)
  if h.certified && s.pkg.allow.contains slot0 then
    (s1.setSess { x with st := .up, keys := s.pkg.keysFor x.peer k h, hello := some h }).flushFar x.peer
  else s1.setSess { x with st := .failed, fcode := 0x10 }

/-- FAR_SESSION_OPEN (R451): a drawn key, and a peer that is certified and whose slot 0 is on the allow list. -/
def execFarSessionOpen (peer : Nat) (hello : PeerHello) (slot0 : BitVec 256) (s : State) : Out :=
  match s.sessOf peer with
  | none => .next s
  | some x =>
    if x.st != .opening then .next s
    else
      match s.drawKey with
      | (none, s1) => .next (s1.setSess x.noKey)
      | (some k, s1) => .next (if s.pkg.secHeld then s1.setSess x.noKey else s1.openSess x k hello slot0)

end Sys2Proof.Machine
end

