-- ==== Sys2Proof/Machine/Power.lean ====
section
/-!
DEFINITION. Power and clock states of the cluster (R461, R462), and the package reset (R460).
-/
namespace Sys2Proof.Machine

/-! ## The checks of a power command -/

/-- A frequency that a command may name: a multiple of 25 MHz from 300 to 1,200. -/
def freqOk (f : BitVec 12) : Bool := f.toNat % 25 == 0 && decide (300 ≤ f.toNat) && decide (f.toNat ≤ 1200)

/-- The fused clock ceiling as it bounds CK: AK runs at half of it (R453, R461). -/
def releaseClock : Nat := min Config.clockCeiling (2 * Config.arithCeiling)

/-- The ceilings of R462: modelled power, the fused clocks, and the cluster's own. -/
def State.underCeilings (s : State) (die : BitVec 3) (pclu : BitVec 6) (f : BitVec 12) : Bool :=
  let ck := (s.cl.clucfg.extractLsb' 8 8).toNat
  !Config.powerOverCeiling die.toNat pclu.toNat f.toNat s.free && decide (f.toNat ≤ releaseClock) &&
  (ck == 0 || decide (f.toNat ≤ 25 * ck))

/-- A command for the own cluster, whose words are in range and which the ceilings admit; another cluster's is passed on. -/
def State.powerCmd (s : State) (st : Nat) (die : BitVec 3) (pclu : BitVec 6) (f : BitVec 12) (run : State → Out) : Out :=
  if decide (60 ≤ pclu.toNat) || !freqOk f || (s.pkg.bare && die != 0) then s.answer 0x04 0x05
  else if die != s.cl.die || pclu != s.cl.pclu then
    .next (s.forward 0x04 ((0#13 ++ die ++ 0#2 ++ pclu ++ 0#14 ++ BitVec.ofNat 2 st ++ 0#12 ++ f : BitVec 64)) 0)
  else if !s.underCeilings die pclu f then { s with free := s.free + 1 }.answer 0x04 0x05
  else run { s with free := s.free + 1 }

/-- A cluster without power has lost what it held; its identity stays, and so does the timebase of its die (R101). -/
def State.clusterReset (s : State) : State :=
  let r := State.reset
  { s with cur := 0, act := r.act, slots := r.slots, lastSlot := r.lastSlot, cells := r.cells, phys := r.phys, lastSel := r.lastSel,
           replies := [], toks := [], tokSeq := 0, parked := [], inbox := [], mesh := [], yieldBuf := r.yieldBuf, pumpNext := 0,
           pumping := false, pumpWant := false, pumpRetry := none, pumpWait := 0, atomOld := [], joins := [], orderPages := [], acquiring := [], atomQ := [], atomRun := none, atomNow := [], pulls := r.pulls, colls := r.colls, mx := r.mx,
           mem := Memory.reset, cl := { Cluster.reset with die := s.cl.die, pclu := s.cl.pclu, aktime := s.cl.aktime }, saved := [],
           agenda := s.agenda.filter fun t : Todo => match t with
             | .mbNext => true
             | _ => false }

/-! ## The commands (R461) -/

/-- POWER_RUN: a change of frequency in run stops issue; a return from off is a reset of the cluster, with nothing kept of
what reached it without power, whose frames are scrub-pending. -/
def execPowerRun (die : BitVec 3) (pclu : BitVec 6) (f : BitVec 12) (s : State) : Out :=
  s.mailbox (.powerRun die pclu f) fun s0 => s0.powerCmd 0 die pclu f fun s1 =>
    match s1.cl.power with
    | .run => { s1 with cl := { s1.cl with freq := f, clockStop := s1.cl.clockStop || f != s1.cl.freq } }.unblock.answer 0x04 0
    | .hold => ({ s1 with cl := { s1.cl with power := .run, freq := f } }.wakeHeld.pollWatches).answer 0x04 0
    | .off =>
      match s1.clusterReset.drawKey with
      | (k, s2) => { s2 with cl := { s2.cl with power := .run, freq := f, released := true, sealKey := k } }.answer 0x04 0

/-- POWER_HOLD: the clocks stop, with everything kept. -/
def execPowerHold (die : BitVec 3) (pclu : BitVec 6) (f : BitVec 12) (s : State) : Out :=
  s.mailbox (.powerHold die pclu f) fun s0 => s0.powerCmd 1 die pclu f fun s1 =>
    if !s1.suspended || s1.cl.power == .off then s1.answer 0x04 0x05
    else { s1 with cl := { s1.cl with power := .hold, freq := f } }.answer 0x04 0

/-- POWER_OFF: only a cluster of no partition; its contents are lost. -/
def execPowerOff (die : BitVec 3) (pclu : BitVec 6) (f : BitVec 12) (s : State) : Out :=
  s.mailbox (.powerOff die pclu f) fun s0 => s0.powerCmd 2 die pclu f fun s1 =>
    if s1.cl.ptn != 0 then s1.answer 0x04 0x05
    else
      let s2 := s1.clusterReset
      { s2 with cl := { s2.cl with power := .off, freq := f, released := false } }.answer 0x04 0

/-- CLOCK_CHANGE_DONE (R462): issue resumes, and what waited at the cluster goes on. -/
def execClockChangeDone (s : State) : Out :=
  if s.cl.clockStop then .next ({ s with cl := { s.cl with clockStop := false } }.wakeHeld.pollWatches) else .next s

/-! ## Package reset (R460) -/

/-- The package as the reset controller leaves it: what the registers of the ports hold while the sequence runs waits for its end. -/
def State.heldReset (s : State) : State :=
  let fresh := s.pkg.boot == .open
  { State.reset with
    self := s.self, world := s.world, out := s.out, free := s.free + 1, mbHeld := if fresh then [] else s.mbHeld,
    cl := { Cluster.reset with die := s.cl.die, pclu := s.cl.pclu },
    pkg := { Package.reset with bare := s.pkg.bare, ppkg := s.pkg.ppkg, draws := s.pkg.draws,
                                mail := if fresh then Package.reset.mail else s.pkg.mail } }

/-- PACKAGE_RESET: slot 0 measures the security cores' firmware, and slot 6 the fused clock ceilings (R449, log 63); the cluster is released
at them, every frame scrub-pending, with a value drawn for its seals; then the mailbox opens, and commands that were held run in order. Where
the measurement fails to complete, the clusters are held in reset, and a fatal event is posted. -/
def execPackageReset (s : State) : Out :=
  let r := s.heldReset
  if Config.measureFails s.free then .next r.measureStops
  else
    match ((r.extend 0 Config.securityFirmware).extend 6 (leBytes 2 Config.clockCeiling ++ leBytes 2 Config.arithCeiling)).drawKey with
    | (k, s1) =>
      let s2 := { s1 with cl := { s1.cl with released := true, freq := BitVec.ofNat 12 releaseClock, sealKey := k },
                          pkg := { s1.pkg with boot := .open } }
      .next (if s2.mbHeld.isEmpty then s2 else s2.push .mbNext)

end Sys2Proof.Machine
end

