-- ==== Sys2Proof/Machine/Prefix.lean ====
section
/-!
DEFINITION. The prefixes of major 0x3F (R248, R250 to R252): each stands in the slot until its target issues.
-/
namespace Sys2Proof.Machine

/-- Makes the word in service the pending prefix and goes on to its target (R248). -/
def State.setPfx (s : State) (k : PfxKind) : Out :=
  .next (s.mapAct fun a =>
    { a.settled with pfx := some { pc := a.pc, word := a.iw, kind := k }, pc := a.pc + 4 })

def execExt (payload : BitVec 24) (s : State) : Out := s.setPfx (.ext payload)

def execTok (ask : Bool) (askSlot : Fin 4) (nm : Bool) (nmSlot : Fin 4) (s : State) : Out :=
  s.setPfx (.tok (if ask then some askSlot else none) (if nm then some nmSlot else none))

/-- A hint changes no result and no fault (R252). -/
def execHint (s : State) : Out := s.setPfx .hint

end Sys2Proof.Machine
end

