-- ==== Sys2Proof/Machine/Dispatch.lean ====
section
/-!
DEFINITION. What each instruction and each step of spec/opcode_table.json means: one arm for each constructor of `Instr`.
-/
namespace Sys2Proof.Machine

def exec (i : Instr) (s : State) : Host.Outcome State Fault Refusal :=
  match i with
  | .pmov pd ps => Sys2Proof.Machine.execPmov pd ps s
  | .padd pd ps => Sys2Proof.Machine.execPadd pd ps s
  | .psub pd ps => Sys2Proof.Machine.execPsub pd ps s
  | .paddi pd ps imm => Sys2Proof.Machine.execPaddi pd ps imm s
  | .pand pd ps => Sys2Proof.Machine.execPand pd ps s
  | .por pd ps => Sys2Proof.Machine.execPor pd ps s
  | .pxor pd ps => Sys2Proof.Machine.execPxor pd ps s
  | .pshl pd ps n => Sys2Proof.Machine.execPshl pd ps n s
  | .pshr pd ps n => Sys2Proof.Machine.execPshr pd ps n s
  | .pset pd imm => Sys2Proof.Machine.execPset pd imm s
  | .pseth pd imm => Sys2Proof.Machine.execPseth pd imm s
  | .pstep pd imm => Sys2Proof.Machine.execPstep pd imm s
  | .pscal pd ps n => Sys2Proof.Machine.execPscal pd ps n s
  | .mkref pd ps => Sys2Proof.Machine.execMkref pd ps s
  | .pclr pd => Sys2Proof.Machine.execPclr pd s
  | .pbeq pd ps off => Sys2Proof.Machine.execPbeq pd ps off s
  | .pbne pd ps off => Sys2Proof.Machine.execPbne pd ps off s
  | .pblt pd ps off => Sys2Proof.Machine.execPblt pd ps off s
  | .pbge pd ps off => Sys2Proof.Machine.execPbge pd ps off s
  | .pbltu pd ps off => Sys2Proof.Machine.execPbltu pd ps off s
  | .pbgeu pd ps off => Sys2Proof.Machine.execPbgeu pd ps off s
  | .pbtag pd off => Sys2Proof.Machine.execPbtag pd off s
  | .pbnt pd off => Sys2Proof.Machine.execPbnt pd off s
  | .br off => Sys2Proof.Machine.execBr off s
  | .call off => Sys2Proof.Machine.execCall off s
  | .bz off => Sys2Proof.Machine.execBz off s
  | .bnz off => Sys2Proof.Machine.execBnz off s
  | .bn off => Sys2Proof.Machine.execBn off s
  | .bnn off => Sys2Proof.Machine.execBnn off s
  | .bc off => Sys2Proof.Machine.execBc off s
  | .bnc off => Sys2Proof.Machine.execBnc off s
  | .bo off => Sys2Proof.Machine.execBo off s
  | .bno off => Sys2Proof.Machine.execBno off s
  | .bx off => Sys2Proof.Machine.execBx off s
  | .bnx off => Sys2Proof.Machine.execBnx off s
  | .bxz off => Sys2Proof.Machine.execBxz off s
  | .bxnz off => Sys2Proof.Machine.execBxnz off s
  | .bxs off => Sys2Proof.Machine.execBxs off s
  | .bxns off => Sys2Proof.Machine.execBxns off s
  | .bxt off => Sys2Proof.Machine.execBxt off s
  | .bxf off => Sys2Proof.Machine.execBxf off s
  | .loop ps len => Sys2Proof.Machine.execLoop ps len s
  | .loopi n len => Sys2Proof.Machine.execLoopi n len s
  | .jmp ps => Sys2Proof.Machine.execJmp ps s
  | .jal pd ps => Sys2Proof.Machine.execJal pd ps s
  | .lq p am ty d => Sys2Proof.Machine.execLq p am ty d s
  | .lqv p am ty d => Sys2Proof.Machine.execLqv p am ty d s
  | .lql p am ty d => Sys2Proof.Machine.execLql p am ty d s
  | .sq p am ty d => Sys2Proof.Machine.execSq p am ty d s
  | .sqv p am ty d => Sys2Proof.Machine.execSqv p am ty d s
  | .sql p am ty d => Sys2Proof.Machine.execSql p am ty d s
  | .rl p am ty d => Sys2Proof.Machine.execRl p am ty d s
  | .rlv p am ty d => Sys2Proof.Machine.execRlv p am ty d s
  | .rll p am ty d => Sys2Proof.Machine.execRll p am ty d s
  | .lp pd ps imm => Sys2Proof.Machine.execLp pd ps imm s
  | .sp pd ps imm => Sys2Proof.Machine.execSp pd ps imm s
  | .rlp pd ps imm => Sys2Proof.Machine.execRlp pd ps imm s
  | .lda p am ty d => Sys2Proof.Machine.execLda p am ty d s
  | .add p am ty d => Sys2Proof.Machine.execAdd p am ty d s
  | .sub p am ty d => Sys2Proof.Machine.execSub p am ty d s
  | .rsub p am ty d => Sys2Proof.Machine.execRsub p am ty d s
  | .adds p am ty d => Sys2Proof.Machine.execAdds p am ty d s
  | .subs p am ty d => Sys2Proof.Machine.execSubs p am ty d s
  | .and p am ty d => Sys2Proof.Machine.execAnd p am ty d s
  | .or p am ty d => Sys2Proof.Machine.execOr p am ty d s
  | .xor p am ty d => Sys2Proof.Machine.execXor p am ty d s
  | .andn p am ty d => Sys2Proof.Machine.execAndn p am ty d s
  | .shl p am ty d => Sys2Proof.Machine.execShl p am ty d s
  | .shr p am ty d => Sys2Proof.Machine.execShr p am ty d s
  | .sar p am ty d => Sys2Proof.Machine.execSar p am ty d s
  | .rol p am ty d => Sys2Proof.Machine.execRol p am ty d s
  | .ror p am ty d => Sys2Proof.Machine.execRor p am ty d s
  | .min p am ty d => Sys2Proof.Machine.execMin p am ty d s
  | .max p am ty d => Sys2Proof.Machine.execMax p am ty d s
  | .cmp p am ty d => Sys2Proof.Machine.execCmp p am ty d s
  | .tst p am ty d => Sys2Proof.Machine.execTst p am ty d s
  | .popc p am ty d => Sys2Proof.Machine.execPopc p am ty d s
  | .clz p am ty d => Sys2Proof.Machine.execClz p am ty d s
  | .ctz p am ty d => Sys2Proof.Machine.execCtz p am ty d s
  | .bswap p am ty d => Sys2Proof.Machine.execBswap p am ty d s
  | .sta p am ty d => Sys2Proof.Machine.execSta p am ty d s
  | .mul p am ty d => Sys2Proof.Machine.execMul p am ty d s
  | .mulh p am ty d => Sys2Proof.Machine.execMulh p am ty d s
  | .muls p am ty d => Sys2Proof.Machine.execMuls p am ty d s
  | .div p am ty d => Sys2Proof.Machine.execDiv p am ty d s
  | .rem p am ty d => Sys2Proof.Machine.execRem p am ty d s
  | .fadd p am ty r d => Sys2Proof.Machine.execFadd p am ty r d s
  | .fsub p am ty r d => Sys2Proof.Machine.execFsub p am ty r d s
  | .frsub p am ty r d => Sys2Proof.Machine.execFrsub p am ty r d s
  | .fmul p am ty r d => Sys2Proof.Machine.execFmul p am ty r d s
  | .fdiv p am ty r d => Sys2Proof.Machine.execFdiv p am ty r d s
  | .frdiv p am ty r d => Sys2Proof.Machine.execFrdiv p am ty r d s
  | .fsqrt p am ty r d => Sys2Proof.Machine.execFsqrt p am ty r d s
  | .fmin p am ty r d => Sys2Proof.Machine.execFmin p am ty r d s
  | .fmax p am ty r d => Sys2Proof.Machine.execFmax p am ty r d s
  | .fabs p am ty d => Sys2Proof.Machine.execFabs p am ty d s
  | .fneg p am ty d => Sys2Proof.Machine.execFneg p am ty d s
  | .fcmp p am ty d => Sys2Proof.Machine.execFcmp p am ty d s
  | .fclass p am ty d => Sys2Proof.Machine.execFclass p am ty d s
  | .frnd p am ty r d => Sys2Proof.Machine.execFrnd p am ty r d s
  | .fscale p am ty r d => Sys2Proof.Machine.execFscale p am ty r d s
  | .cvt p am dt ty r d => Sys2Proof.Machine.execCvt p am dt ty r d s
  | .cvts p am dt ty r d => Sys2Proof.Machine.execCvts p am dt ty r d s
  | .vld p am ty d => Sys2Proof.Machine.execVld p am ty d s
  | .vst p am ty d => Sys2Proof.Machine.execVst p am ty d s
  | .vadd p am ty d => Sys2Proof.Machine.execVadd p am ty d s
  | .vsub p am ty d => Sys2Proof.Machine.execVsub p am ty d s
  | .vrsub p am ty d => Sys2Proof.Machine.execVrsub p am ty d s
  | .vadds p am ty d => Sys2Proof.Machine.execVadds p am ty d s
  | .vsubs p am ty d => Sys2Proof.Machine.execVsubs p am ty d s
  | .vand p am ty d => Sys2Proof.Machine.execVand p am ty d s
  | .vor p am ty d => Sys2Proof.Machine.execVor p am ty d s
  | .vxor p am ty d => Sys2Proof.Machine.execVxor p am ty d s
  | .vandn p am ty d => Sys2Proof.Machine.execVandn p am ty d s
  | .vshl p am ty d => Sys2Proof.Machine.execVshl p am ty d s
  | .vshr p am ty d => Sys2Proof.Machine.execVshr p am ty d s
  | .vsar p am ty d => Sys2Proof.Machine.execVsar p am ty d s
  | .vmin p am ty d => Sys2Proof.Machine.execVmin p am ty d s
  | .vmax p am ty d => Sys2Proof.Machine.execVmax p am ty d s
  | .vmul p am ty d => Sys2Proof.Machine.execVmul p am ty d s
  | .vmulh p am ty d => Sys2Proof.Machine.execVmulh p am ty d s
  | .vmac p am ty d => Sys2Proof.Machine.execVmac p am ty d s
  | .vabs p am ty d => Sys2Proof.Machine.execVabs p am ty d s
  | .vneg p am ty d => Sys2Proof.Machine.execVneg p am ty d s
  | .vpopc p am ty d => Sys2Proof.Machine.execVpopc p am ty d s
  | .vfld p am ty r d => Sys2Proof.Machine.execVfld p am ty r d s
  | .vfst p am ty r d => Sys2Proof.Machine.execVfst p am ty r d s
  | .vfadd p am ty r d => Sys2Proof.Machine.execVfadd p am ty r d s
  | .vfsub p am ty r d => Sys2Proof.Machine.execVfsub p am ty r d s
  | .vfrsub p am ty r d => Sys2Proof.Machine.execVfrsub p am ty r d s
  | .vfmul p am ty r d => Sys2Proof.Machine.execVfmul p am ty r d s
  | .vfma p am ty r d => Sys2Proof.Machine.execVfma p am ty r d s
  | .vfmal p am ty r d => Sys2Proof.Machine.execVfmal p am ty r d s
  | .vfms p am ty r d => Sys2Proof.Machine.execVfms p am ty r d s
  | .vfdiv p am ty r d => Sys2Proof.Machine.execVfdiv p am ty r d s
  | .vfsqrt p am ty r d => Sys2Proof.Machine.execVfsqrt p am ty r d s
  | .vfmin p am ty r d => Sys2Proof.Machine.execVfmin p am ty r d s
  | .vfmax p am ty r d => Sys2Proof.Machine.execVfmax p am ty r d s
  | .vfabs p am ty r d => Sys2Proof.Machine.execVfabs p am ty r d s
  | .vfneg p am ty r d => Sys2Proof.Machine.execVfneg p am ty r d s
  | .vfrnd p am ty r d => Sys2Proof.Machine.execVfrnd p am ty r d s
  | .vfscale p am ty r d => Sys2Proof.Machine.execVfscale p am ty r d s
  | .vcvtf p am ty r d => Sys2Proof.Machine.execVcvtf p am ty r d s
  | .vcvti p am ty r d => Sys2Proof.Machine.execVcvti p am ty r d s
  | .vpack p am ty r d => Sys2Proof.Machine.execVpack p am ty r d s
  | .vpacki p am ty d => Sys2Proof.Machine.execVpacki p am ty d s
  | .vpacks p am ty r d => Sys2Proof.Machine.execVpacks p am ty r d s
  | .vrsum p am ty d => Sys2Proof.Machine.execVrsum p am ty d s
  | .vrmin p am ty d => Sys2Proof.Machine.execVrmin p am ty d s
  | .vrmax p am ty d => Sys2Proof.Machine.execVrmax p am ty d s
  | .vrdot p am ty d => Sys2Proof.Machine.execVrdot p am ty d s
  | .vfrsum p am ty r d => Sys2Proof.Machine.execVfrsum p am ty r d s
  | .vfrmin p am ty r d => Sys2Proof.Machine.execVfrmin p am ty r d s
  | .vfrmax p am ty r d => Sys2Proof.Machine.execVfrmax p am ty r d s
  | .vfrdot p am ty r d => Sys2Proof.Machine.execVfrdot p am ty r d s
  | .vceq p am ty d => Sys2Proof.Machine.execVceq p am ty d s
  | .vcne p am ty d => Sys2Proof.Machine.execVcne p am ty d s
  | .vclt p am ty d => Sys2Proof.Machine.execVclt p am ty d s
  | .vcle p am ty d => Sys2Proof.Machine.execVcle p am ty d s
  | .vcgt p am ty d => Sys2Proof.Machine.execVcgt p am ty d s
  | .vcge p am ty d => Sys2Proof.Machine.execVcge p am ty d s
  | .vfceq p am ty d => Sys2Proof.Machine.execVfceq p am ty d s
  | .vfclt p am ty d => Sys2Proof.Machine.execVfclt p am ty d s
  | .vfcle p am ty d => Sys2Proof.Machine.execVfcle p am ty d s
  | .vfcun p am ty d => Sys2Proof.Machine.execVfcun p am ty d s
  | .vsel p am ty d => Sys2Proof.Machine.execVsel p am ty d s
  | .mov src dst imm => Sys2Proof.Machine.execMov src dst imm s
  | .addi imm => Sys2Proof.Machine.execAddi imm s
  | .andi imm => Sys2Proof.Machine.execAndi imm s
  | .ori imm => Sys2Proof.Machine.execOri imm s
  | .xori imm => Sys2Proof.Machine.execXori imm s
  | .shli n => Sys2Proof.Machine.execShli n s
  | .shri n => Sys2Proof.Machine.execShri n s
  | .sari n => Sys2Proof.Machine.execSari n s
  | .cmpi imm => Sys2Proof.Machine.execCmpi imm s
  | .fli imm => Sys2Proof.Machine.execFli imm s
  | .vins n => Sys2Proof.Machine.execVins n s
  | .vext n => Sys2Proof.Machine.execVext n s
  | .kset imm => Sys2Proof.Machine.execKset imm s
  | .acvt sat r dt st => Sys2Proof.Machine.execAcvt sat r dt st s
  | .vconv sat r toF => Sys2Proof.Machine.execVconv sat r toF s
  | .vsum r fl => Sys2Proof.Machine.execVsum r fl s
  | .vrot n => Sys2Proof.Machine.execVrot n s
  | .vbcast n => Sys2Proof.Machine.execVbcast n s
  | .fence pa => Sys2Proof.Machine.execFence pa s
  | .acq pa => Sys2Proof.Machine.execAcq pa s
  | .acqO pa => Sys2Proof.Machine.execAcqO pa s
  | .rel pa => Sys2Proof.Machine.execRel pa s
  | .pub pa pb => Sys2Proof.Machine.execPub pa pb s
  | .shade pa pb => Sys2Proof.Machine.execShade pa pb s
  | .seqadv pb => Sys2Proof.Machine.execSeqadv pb s
  | .watch pa pb wd => Sys2Proof.Machine.execWatch pa pb wd s
  | .watcha pa pb wd => Sys2Proof.Machine.execWatcha pa pb wd s
  | .wwait wd => Sys2Proof.Machine.execWwait wd s
  | .wtest wd => Sys2Proof.Machine.execWtest wd s
  | .barset pa b => Sys2Proof.Machine.execBarset pa b s
  | .barv b => Sys2Proof.Machine.execBarv b s
  | .barw b => Sys2Proof.Machine.execBarw b s
  | .dep pa pb tn n => Sys2Proof.Machine.execDep pa pb tn n s
  | .depq pa tn n => Sys2Proof.Machine.execDepq pa tn n s
  | .depqLine pa tn => Sys2Proof.Machine.execDepqLine pa tn s
  | .depe pa pb tn wd ix => Sys2Proof.Machine.execDepe pa pb tn wd ix s
  | .depes pa pb tn wd ix => Sys2Proof.Machine.execDepes pa pb tn wd ix s
  | .amoAdd pa pb tn dbl => Sys2Proof.Machine.execAmoAdd pa pb tn dbl s
  | .amoMin pa pb tn dbl => Sys2Proof.Machine.execAmoMin pa pb tn dbl s
  | .amoMax pa pb tn dbl => Sys2Proof.Machine.execAmoMax pa pb tn dbl s
  | .amoMinu pa pb tn dbl => Sys2Proof.Machine.execAmoMinu pa pb tn dbl s
  | .amoMaxu pa pb tn dbl => Sys2Proof.Machine.execAmoMaxu pa pb tn dbl s
  | .amoAnd pa pb tn dbl => Sys2Proof.Machine.execAmoAnd pa pb tn dbl s
  | .amoOr pa pb tn dbl => Sys2Proof.Machine.execAmoOr pa pb tn dbl s
  | .amoXor pa pb tn dbl => Sys2Proof.Machine.execAmoXor pa pb tn dbl s
  | .amoSwap pa pb tn dbl => Sys2Proof.Machine.execAmoSwap pa pb tn dbl s
  | .amoCas pa pb tn dbl => Sys2Proof.Machine.execAmoCas pa pb tn dbl s
  | .amoEnq pa pb tn => Sys2Proof.Machine.execAmoEnq pa pb tn s
  | .amoDeq pa tn => Sys2Proof.Machine.execAmoDeq pa tn s
  | .amoAdv pa tn => Sys2Proof.Machine.execAmoAdv pa tn s
  | .amoUser pa pb tn k dbl => Sys2Proof.Machine.execAmoUser pa pb tn k dbl s
  | .send pa tn n c => Sys2Proof.Machine.execSend pa tn n c s
  | .mig pa c => Sys2Proof.Machine.execMig pa c s
  | .spawn pa tn n c => Sys2Proof.Machine.execSpawn pa tn n c s
  | .rcmd pa tn k => Sys2Proof.Machine.execRcmd pa tn k s
  | .tokq k => Sys2Proof.Machine.execTokq k s
  | .tokw k => Sys2Proof.Machine.execTokw k s
  | .tokz k => Sys2Proof.Machine.execTokz k s
  | .mwld pa pb pc fa fr sb => Sys2Proof.Machine.execMwld pa pb pc fa fr sb s
  | .mwldLanding pa pb pc x fa fr => Sys2Proof.Machine.execMwldLanding pa pb pc x fa fr s
  | .mma pa pb pc x fa fr sb init dense => Sys2Proof.Machine.execMma pa pb pc x fa fr sb init dense s
  | .mmp pa pb pc x fa fr sb init dense => Sys2Proof.Machine.execMmp pa pb pc x fa fr sb init dense s
  | .mprog pa pb n => Sys2Proof.Machine.execMprog pa pb n s
  | .mcommit pa pb pc x fa fr r sat => Sys2Proof.Machine.execMcommit pa pb pc x fa fr r sat s
  | .mwait x all => Sys2Proof.Machine.execMwait x all s
  | .pull pa pb pc id fa fr rec => Sys2Proof.Machine.execPull pa pb pc id fa fr rec s
  | .pullg pa pb pc id fa fr rec => Sys2Proof.Machine.execPullg pa pb pc id fa fr rec s
  | .pullw id all => Sys2Proof.Machine.execPullw id all s
  | .coll pa pb pc id fa fr => Sys2Proof.Machine.execColl pa pb pc id fa fr s
  | .collw id all => Sys2Proof.Machine.execCollw id all s
  | .trap n => Sys2Proof.Machine.execTrap n s
  | .cget pa idx => Sys2Proof.Machine.execCget pa idx s
  | .cset pa idx => Sys2Proof.Machine.execCset pa idx s
  | .tlbw pa pb => Sys2Proof.Machine.execTlbw pa pb s
  | .tlbi pa m => Sys2Proof.Machine.execTlbi pa m s
  | .pready pa fail n => Sys2Proof.Machine.execPready pa fail n s
  | .ext payload => Sys2Proof.Machine.execExt payload s
  | .tok ask askSlot nm nmSlot => Sys2Proof.Machine.execTok ask askSlot nm nmSlot s
  | .ret => Sys2Proof.Machine.execRet s
  | .vsplat => Sys2Proof.Machine.execVsplat s
  | .vzero => Sys2Proof.Machine.execVzero s
  | .qdrop => Sys2Proof.Machine.execQdrop s
  | .vperm => Sys2Proof.Machine.execVperm s
  | .vcomp => Sys2Proof.Machine.execVcomp s
  | .vexpd => Sys2Proof.Machine.execVexpd s
  | .vrev => Sys2Proof.Machine.execVrev s
  | .kand => Sys2Proof.Machine.execKand s
  | .kor => Sys2Proof.Machine.execKor s
  | .kxor => Sys2Proof.Machine.execKxor s
  | .knot => Sys2Proof.Machine.execKnot s
  | .kpop => Sys2Proof.Machine.execKpop s
  | .kffs => Sys2Proof.Machine.execKffs s
  | .done => Sys2Proof.Machine.execDone s
  | .yield => Sys2Proof.Machine.execYield s
  | .rti => Sys2Proof.Machine.execRti s
  | .ifence => Sys2Proof.Machine.execIfence s
  | .hint => Sys2Proof.Machine.execHint s
  | .fetchLine slot line => Sys2Proof.Machine.execFetchLine slot line s
  | .loadAtPort who oa u kind => Sys2Proof.Machine.execLoadAtPort who oa u kind s
  | .loadReply rid ans => Sys2Proof.Machine.execLoadReply rid ans s
  | .storeAccept who oa data => Sys2Proof.Machine.execStoreAccept who oa data s
  | .storePerform oa data => Sys2Proof.Machine.execStorePerform oa data s
  | .tlbwAtHome mw dw => Sys2Proof.Machine.execTlbwAtHome mw dw s
  | .tlbiAtHome m arg => Sys2Proof.Machine.execTlbiAtHome m arg s
  | .shootdownAck slot => Sys2Proof.Machine.execShootdownAck slot s
  | .pageFault slot oa p1 => Sys2Proof.Machine.execPageFault slot oa p1 s
  | .preadyAtCell frame rcb fail n issuer => Sys2Proof.Machine.execPreadyAtCell frame rcb fail n issuer s
  | .scrubFrame frame => Sys2Proof.Machine.execScrubFrame frame s
  | .patrolRead line ecc => Sys2Proof.Machine.execPatrolRead line ecc s
  | .csetCisternFill cell => Sys2Proof.Machine.execCsetCisternFill cell s
  | .fillModeEntered => Sys2Proof.Machine.execFillModeEntered s
  | .csetCisternServe cell => Sys2Proof.Machine.execCsetCisternServe cell s
  | .serveModeReturn => Sys2Proof.Machine.execServeModeReturn s
  | .refreshWindowStart tick => Sys2Proof.Machine.execRefreshWindowStart tick s
  | .refreshWindowEnd tick => Sys2Proof.Machine.execRefreshWindowEnd tick s
  | .eventPost kind code lcell user addr detail => Sys2Proof.Machine.execEventPost kind code lcell user addr detail s
  | .csetEvqHead head => Sys2Proof.Machine.execCsetEvqHead head s
  | .tlbctlEnable => Sys2Proof.Machine.execTlbctlEnable s
  | .walkQueueEnter ent => Sys2Proof.Machine.execWalkQueueEnter ent s
  | .lampWalk => Sys2Proof.Machine.execLampWalk s
  | .watchAtOwner req => Sys2Proof.Machine.execWatchAtOwner req s
  | .watchReplace rid => Sys2Proof.Machine.execWatchReplace rid s
  | .watchAnswer rid ans => Sys2Proof.Machine.execWatchAnswer rid ans s
  | .barsetCheck who rect => Sys2Proof.Machine.execBarsetCheck who rect s
  | .barrierSignal b rect sig err => Sys2Proof.Machine.execBarrierSignal b rect sig err s
  | .barrierRelease b rect err => Sys2Proof.Machine.execBarrierRelease b rect err s
  | .depositAtOwner req => Sys2Proof.Machine.execDepositAtOwner req s
  | .atomicRequestArrival req => Sys2Proof.Machine.execAtomicRequestArrival req s
  | .atomicRun => Sys2Proof.Machine.execAtomicRun s
  | .atomicOverrun => Sys2Proof.Machine.execAtomicOverrun s
  | .atomicReply rid entry => Sys2Proof.Machine.execAtomicReply rid entry s
  | .positiveReply rid => Sys2Proof.Machine.execPositiveReply rid s
  | .negativeReply rid code oa => Sys2Proof.Machine.execNegativeReply rid code oa s
  | .landingAck token => Sys2Proof.Machine.execLandingAck token s
  | .tokenExpiry token => Sys2Proof.Machine.execTokenExpiry token s
  | .heldMessageArrival held => Sys2Proof.Machine.execHeldMessageArrival held s
  | .releaseNotice token count => Sys2Proof.Machine.execReleaseNotice token count s
  | .cancelNotice token => Sys2Proof.Machine.execCancelNotice token s
  | .holdTimerExpiry token hid => Sys2Proof.Machine.execHoldTimerExpiry token hid s
  | .releaseRecordExpiry token => Sys2Proof.Machine.execReleaseRecordExpiry token s
  | .messageArrival who msg tok => Sys2Proof.Machine.execMessageArrival who msg tok s
  | .pumpReplay => Sys2Proof.Machine.execPumpReplay s
  | .yieldBufferSend slot => Sys2Proof.Machine.execYieldBufferSend slot s
  | .selection slot => Sys2Proof.Machine.execSelection slot s
  | .grantRequest rcb who what => Sys2Proof.Machine.execGrantRequest rcb who what s
  | .grantArrival reg what amount => Sys2Proof.Machine.execGrantArrival reg what amount s
  | .activationReport rcb starts ends cycles => Sys2Proof.Machine.execActivationReport rcb starts ends cycles s
  | .regionLaunch rcb who tok => Sys2Proof.Machine.execRegionLaunch rcb who tok s
  | .handlerInstall record who => Sys2Proof.Machine.execHandlerInstall record who s
  | .regionPause rcb who tok reason => Sys2Proof.Machine.execRegionPause rcb who tok reason s
  | .pauseAtCell rcb => Sys2Proof.Machine.execPauseAtCell rcb s
  | .regionResume rcb who tok => Sys2Proof.Machine.execRegionResume rcb who tok s
  | .regionEnd rcb who tok => Sys2Proof.Machine.execRegionEnd rcb who tok s
  | .endAtCell rcb => Sys2Proof.Machine.execEndAtCell rcb s
  | .retryResend rid => Sys2Proof.Machine.execRetryResend rid s
  | .evict rcb rect ptn => Sys2Proof.Machine.execEvict rcb rect ptn s
  | .evictionQuiesced => Sys2Proof.Machine.execEvictionQuiesced s
  | .restore rcb rect ptn => Sys2Proof.Machine.execRestore rcb rect ptn s
  | .matrixCommandStart n => Sys2Proof.Machine.execMatrixCommandStart n s
  | .matrixTile n => Sys2Proof.Machine.execMatrixTile n s
  | .pullStart => Sys2Proof.Machine.execPullStart s
  | .pullAccess n ans => Sys2Proof.Machine.execPullAccess n ans s
  | .collStart => Sys2Proof.Machine.execCollStart s
  | .collStep peer ans => Sys2Proof.Machine.execCollStep peer ans s
  | .memberLost rank => Sys2Proof.Machine.execMemberLost rank s
  | .fabricSlot peers => Sys2Proof.Machine.execFabricSlot peers s
  | .flitReceive port flit crcOk => Sys2Proof.Machine.execFlitReceive port flit crcOk s
  | .laneHealthWindow port corr repl mism => Sys2Proof.Machine.execLaneHealthWindow port corr repl mism s
  | .lostDeclaration ppkg seq => Sys2Proof.Machine.execLostDeclaration ppkg seq s
  | .farFrameReceive frame => Sys2Proof.Machine.execFarFrameReceive frame s
  | .farRetransmit peer counter => Sys2Proof.Machine.execFarRetransmit peer counter s
  | .farSessionOpen peer certified slot0 => Sys2Proof.Machine.execFarSessionOpen peer certified slot0 s
  | .farRekey peer => Sys2Proof.Machine.execFarRekey peer s
  | .hostSharedRead agent line half => Sys2Proof.Machine.execHostSharedRead agent line half s
  | .hostOwnershipRead agent line half => Sys2Proof.Machine.execHostOwnershipRead agent line half s
  | .hostWriteback agent line half data => Sys2Proof.Machine.execHostWriteback agent line half data s
  | .hostWrite agent addr data => Sys2Proof.Machine.execHostWrite agent addr data s
  | .snoopResponse agent line half dirty keep => Sys2Proof.Machine.execSnoopResponse agent line half dirty keep s
  | .placeTableWrite target value => Sys2Proof.Machine.execPlaceTableWrite target value s
  | .vfpairWrite n value => Sys2Proof.Machine.execVfpairWrite n value s
  | .hcwinWrite n value => Sys2Proof.Machine.execHcwinWrite n value s
  | .fabswitchWrite value => Sys2Proof.Machine.execFabswitchWrite value s
  | .farPeerWrite peer word value => Sys2Proof.Machine.execFarPeerWrite peer word value s
  | .hostRegisterWrite target value => Sys2Proof.Machine.execHostRegisterWrite target value s
  | .registerRead target => Sys2Proof.Machine.execRegisterRead target s
  | .create world ckey kind => Sys2Proof.Machine.execCreate world ckey kind s
  | .destroy world ckey => Sys2Proof.Machine.execDestroy world ckey s
  | .keyLoad world ckey kem wrapped => Sys2Proof.Machine.execKeyLoad world ckey kem wrapped s
  | .gate world index entry => Sys2Proof.Machine.execGate world index entry s
  | .evidence world nonce buf len => Sys2Proof.Machine.execEvidence world nonce buf len s
  | .peers values => Sys2Proof.Machine.execPeers values s
  | .handOver image rcb world => Sys2Proof.Machine.execHandOver image rcb world s
  | .powerRun die pclu freq => Sys2Proof.Machine.execPowerRun die pclu freq s
  | .powerHold die pclu freq => Sys2Proof.Machine.execPowerHold die pclu freq s
  | .powerOff die pclu freq => Sys2Proof.Machine.execPowerOff die pclu freq s
  | .clockChangeDone => Sys2Proof.Machine.execClockChangeDone s
  | .exportPage ckey vpn host => Sys2Proof.Machine.execExportPage ckey vpn host s
  | .importPage ckey vpn image frame => Sys2Proof.Machine.execImportPage ckey vpn image frame s
  | .declareLost ppkg => Sys2Proof.Machine.execDeclareLost ppkg s
  | .mbRegionCommand rcb ptn k => Sys2Proof.Machine.execMbRegionCommand rcb ptn k s
  | .packageReset => Sys2Proof.Machine.execPackageReset s
  | .securityCoreMismatch => Sys2Proof.Machine.execSecurityCoreMismatch s
  | .illegalInstruction wd => Sys2Proof.Machine.execIllegalInstruction wd s
  | .evheadWrite port value => Sys2Proof.Machine.execEvheadWrite port value s
  | .rdcurrFill line data => Sys2Proof.Machine.execRdcurrFill line data s
  | .hostPortTrains port cxl => Sys2Proof.Machine.execHostPortTrains port cxl s

end Sys2Proof.Machine
end

