-- ==== Sys2Proof/Machine/Turn.lean ====
section
/-!
DEFINITION. One turn of a slot around `exec`: a mailbox command that waits, misses that are filled, the execute half's queue, traps that
wait, pauses and grants, and the next word (R202, R203, R218, R223, R244 to R247).
-/
namespace Sys2Proof.Machine

/-! ## The hardware's work -/

/-- Carries out a mailbox command that has waited (R455, R460). -/
def State.runMb (s : State) : MbCmd → Out
  | .evict rcb rect ptn => execEvict rcb rect ptn s
  | .restore rcb rect ptn => execRestore rcb rect ptn s
  | .placeTable t v => execPlaceTableWrite t v s
  | .vfpair n v => execVfpairWrite n v s
  | .hcwin n v => execHcwinWrite n v s
  | .fabswitch v => execFabswitchWrite v s
  | .farPeer p w v => execFarPeerWrite p w v s
  | .hostReg t v => execHostRegisterWrite t v s
  | .regRead t => execRegisterRead t s
  | .create w c k => execCreate w c k s
  | .destroy w c => execDestroy w c s
  | .keyLoad w c kem wrapped => execKeyLoad w c kem wrapped s
  | .gate w i e => execGate w i e s
  | .evidence w n b l => execEvidence w n b l s
  | .peers vs => execPeers vs s
  | .handOver img rcb w => execHandOver img rcb w s
  | .powerRun d c f => execPowerRun d c f s
  | .powerHold d c f => execPowerHold d c f s
  | .powerOff d c f => execPowerOff d c f s
  | .exportPage c vpn h => execExportPage c vpn h s
  | .importPage c vpn img f => execImportPage c vpn img f s
  | .declareLost p => execDeclareLost p s
  | .region rcb ptn k => execMbRegionCommand rcb ptn k s
  | .bad op => s.mailbox (.bad op) fun s1 => s1.answer op 0x05
  | .via port c => { s with pkg := { s.pkg with mbCur := port } }.runMb c

/-- The next mailbox command in arrival order is taken up (R455). -/
def State.nextCommand (s : State) : Out :=
  match s.mbHeld with
  | [] => .next s
  | c :: cs => if s.mbReady then { s with mbHeld := cs }.runMb c else .next s

/-- A slot's miss has been filled: its access is made again (R59), ahead of what the cell has issued behind an ordering point since
(R61). -/
def State.wakeSlot (s : State) (i : Fin 5) : State :=
  (s.mapSlot i fun a =>
    match a.phase with
    | .missWait _ => { a with phase := .none, early := true }
    | _ => a).unblock

/-- The translation of a slot's trap frame or parked frame has come (R62). -/
def State.wakeFrame (s : State) (i : Fin 5) : State :=
  (s.mapSlot i fun a =>
    match a.phase with
    | .frameWait => { a with phase := .none }
    | .pageFault oa p1 1 => { a with phase := .pageFault oa p1 0 }
    | _ => a).unblock

/-- What a slot's access still waits for keeps its translation and its turn. -/
def Act.keepOld (a : Act) (old : PortWait) : Act :=
  { a with atPort := a.atPort.map fun w : PortWait => if w.oa == old.oa then old else w }

/-! ## The execute half's queue (R244, R247) -/

/-- Whether an instruction that waits in the execute half can issue now. -/
def Act.exReady (a : Act) (x : ExItem) : Bool :=
  (a.ldq.take x.pops).all LdqPlace.isFilled &&
  match x.instr with
  | .mov src dst _ =>
    (if src == .ldq then a.popNeed else .go).and (if dst == .stq then a.pushNeed else .go) == .go
  | .qdrop | .vperm => a.popNeed == .go
  | _ => true

/-- The oldest instruction of the execute half's queue issues, with its own word and prefix in the slot. -/
def State.drainOne (s : State) (x : ExItem) : Out :=
  let iw := s.act.iw
  let pfx := s.act.pfx
  let s1 := s.mapAct fun a => { a with drain := true, iw := x.word, pfx := x.pfx }
  match exec x.instr s1 with
  | .next t => .next (t.mapAct fun a => { a with drain := false, iw, pfx })
  | r => r

/-- The instruction of the execute half that can issue. -/
def Act.draining (a : Act) : Option ExItem :=
  match a.exq with
  | [] => none
  | x :: _ => if a.exReady x then some x else none

/-! ## Pauses and grants (R202, R203) -/

/-- The slot cannot go on until something happens; no instruction has been tried. -/
def State.block (s : State) : Out := .next (s.mapAct fun a => { a with blocked := true })

/-- Whether the activation stands at an instruction boundary of a paused region. -/
def State.pauses (s : State) : Bool := !s.inAtomic && s.regEntry.paused && s.act.betweenWords

/-- Whether it stands at one of a region that has ended (R204). -/
def State.ends (s : State) : Bool := !s.inAtomic && s.regEntry.ending && s.act.betweenWords

/-- The activation in service ends with its region, as `done` would (R204). -/
def State.endNow (s : State) : State := ((s.withdraw s.cur).endAct true).wakeHeld

/-- The activation ends because its parked frame at `f` cannot be written (R202). -/
def State.pauseFails (s : State) (f : Word) : Out :=
  let r := s.trapReq 0x04 f
  let w1 := recordWord1 (BitVec.ofNat 3 s.slotNo.val) s.act.chan false s.act.tm false false false false 0x04
  .next ((s.trapNotice s.regEntry.info 0 0 w1 r 0).endAct false)

/-- Parks an activation of a paused region (R202); with no free frame it stays in its slot. -/
def State.parkPaused (s : State) : Out :=
  if s.act.phase == .frameBad then s.pauseFails ((s.freeFrame s.regEntry.info).getD 0)
  else
    match s.park s.act.trapPc 0 0 [] true with
    | .parked t _ => .next t
    | .full => s.block
    | .wait oa => (s.atPortOf oa).block
    | .bad f => s.pauseFails f
    | .miss oa =>
      if s.act.phase == .frameWait then s.block
      else ((s.missWait oa .store s.cellReq (.wakeFrame (slotOfIdx s.cur))).mapAct fun a => { a with phase := .frameWait }).block

/-- The activation waits at an instruction boundary for a grant of cycles (R203). -/
def State.outOfCycles (s : State) : Bool :=
  !s.inAtomic && s.regEntry.cycles == 0 && s.payer s.regEntry .cycles != 0 && s.act.phase == .none && !s.act.stalled

/-- The cycles charged are due to be reported (R203). -/
def State.reportDue (s : State) : Bool := !s.inAtomic && decide (65536 ≤ s.act.cycles)

def State.reportNow (s : State) : State :=
  (s.reportUse s.rcb 0 0 s.act.cycles).mapAct fun a => { a with cycles := 0 }

/-- An activation in a general slot is charged the cycles that have passed, an amount that the model leaves free (R203). -/
def State.charge (s : State) : State :=
  let n := Config.cyclesCharged s.free
  let s1 := { s with act := { s.act with cycles := s.act.cycles + n }, free := s.free + 1 }
  if s.payer s.regEntry .cycles == 0 then s1 else s1.mapReg s.act.reg fun e => { e with cycles := e.cycles - n }

/-! ## One word of a slot (R218, R223) -/

/-- The word that is issued stands in the slot for a trap record (R343). -/
def State.issued (s : State) (w : BitVec 32) : State :=
  (if s.inAtomic then s else s.charge).mapAct fun a => { a with iw := w }

/-- Whether a step left the instruction of `s` waiting where it was. -/
def State.waitsStill (s t : State) : Bool :=
  t.cur == s.cur && t.act.live && t.act.stalled && t.act.trapping.isNone && t.act.pc == s.act.pc

/-- Whether a deferred report is taken at the word (R169): it has an access-half part, and nothing that it asked for is on its way. -/
def State.reportsAt (s : State) (w : BitVec 32) : Bool :=
  !s.inAtomic && !s.act.deferred.isEmpty && !isExWord w && !isPrefixWord w &&
  (match s.act.phase with
   | .none | .engWait _ | .engQueue _ _ | .waitLost => true
   | _ => false)

/-- Executes a decoded instruction, or takes a deferred report at it (R169): one that had to wait completes first, if it can now. -/
def State.execAt (s : State) (w : BitVec 32) (i : Instr) : Out :=
  if s.reportsAt w then
    if s.act.stalled && s.act.phase != .waitLost then
      match exec i s with
      | .next t => if s.waitsStill t then (s.withdraw s.cur).takeDeferred else .next t
      | r => r
    else s.takeDeferred
  else exec i s

/-- A fetched word is decoded and executed (R249, R274). -/
def State.issueWord (s : State) (w : BitVec 32) : Out :=
  if s.act.misplaced w then s.trap 0x01 0
  else
    match decode w with
    | .error _ => execIllegalInstruction w s
    | .ok i => if s.act.atLoopEnd && isFlowWord w then s.trap 0x05 0 else s.execAt w i

/-- The atomic slot counts the instructions of its handler (R177). -/
def State.countAtomic (s : State) : State :=
  if s.act.stalled then s
  else { s with atomRun := s.atomRun.map fun r => { r with issued := r.issued + 1 } }

/-- A write of a frame that is no longer wanted leaves no phase behind. -/
def State.dropFrameWait (s : State) : State :=
  match s.act.phase with
  | .frameWait | .frameBad => s.mapAct fun a => { a with phase := .none }
  | _ => s

/-- Fetches and issues the next word of the slot in service. -/
def State.nextWord (s : State) : Out :=
  match s.fetchWord with
  | .stop x => s.stopped x
  | .word w s1 => (s1.issued w).issueWord w

/-- The handler in the atomic slot has issued all that it may (R177). -/
def State.overrun (s : State) : Bool :=
  s.inAtomic && !s.act.stalled &&
  (match s.atomRun with
   | some r => decide (Config.atomicLimit ≤ r.issued)
   | none => false)

/-- What the slot in service does next: a waiting part of its execute half, a trap or page fault that waits, a pause, a grant, or its
next word. -/
def State.slotStep (s : State) : Out :=
  match s.act.draining with
  | some x => s.drainOne x
  | none =>
    if s.ends then .next s.endNow
    else match s.act.trapping with
    | some r => (s.mapAct fun a => { a with trapping := none }).takeTrap r
    | none =>
      if s.act.reportFirst && !s.act.deferred.isEmpty then s.takeDeferred
      else match s.act.phase with
      | .pageFault oa p1 st => if s.act.olderWait then s.block else s.takeFault oa p1 st
      | _ =>
        if s.pauses then (s.withdraw s.cur).parkPaused
        else if s.reportDue then .next s.reportNow
        else if s.outOfCycles then (s.askGrant s.act.reg .cycles).block
        else if s.overrun then .next (s.abortAtomic 0x0B)
        else if s.inAtomic then s.countAtomic.dropFrameWait.nextWord
        else s.dropFrameWait.nextWord

def Todo.isHostServe : Todo → Bool
  | .hostServe _ => true
  | _ => false

/-- The slot in service takes its turn: an access that its port made wait is tried again, under the translation that it keeps; when it
has completed, what waited for it goes on, host requests for the line among them (R68, R433). -/
def State.turn (s : State) : Out :=
  match s.act.atPort with
  | none => s.slotStep
  | some w =>
    let s1 := { s.mapAct fun a => { a with atPort := none } with trying := some (w.oa / 128) }
    let r := match w.old with
      | none => s1.slotStep
      | some x => s1.underXlat x State.slotStep
    match r with
    | .next t =>
      let t1 := { t.mapAct fun a => a.keepOld w with trying := none }
      .next (if (w.old.isSome || t1.cl.held.any Todo.isHostServe) && !(t1.slotAct s.cur).atPort.isSome then t1.wakeHeld else t1)
    | r => r

end Sys2Proof.Machine
end

