-- ==== Sys2Proof/Machine/Ahead.lean ====
section
/-!
DEFINITION. Parts of a slot that issue behind an instruction that is not complete: loads and stores that wait for their ports, places of
LDQ that are not yet filled, and everything that may go on past them (R244, R262, R278, R284, R285). The slot's context stays that of its
oldest incomplete instruction, so that a trap there finds everything older complete and nothing younger done (R245); `State.ahead` holds
what has issued behind it, which becomes final as the instructions complete, in program order, and is dropped when one traps (log 8).
-/
namespace Sys2Proof.Machine

/-! ## The context of the oldest incomplete instruction -/

/-- A context without what only waiting changes. -/
def Act.still (a : Act) : Act := { a with blocked := false, atPort := none, phase := .none, early := false, cycles := 0, iw := 0 }

def State.setAhead (s : State) (i : Fin 5) (r : Option RunAhead) : State := { s with ahead := s.ahead.set i r }

/-- What has issued behind the context of a slot; nothing once that context has changed. -/
def State.aheadOfSlot (s : State) (i : Fin 5) : Option RunAhead := s.ahead[i].filter fun r => r.base == (s.slotAct i).still

/-- What issued behind an instruction that is there no more is cancelled (R245). -/
def State.trimAhead (s : State) : State :=
  if (List.finRange 5).all fun i => s.ahead[i].isNone then s else { s with ahead := Vector.ofFn fun i => s.aheadOfSlot i }

/-! ## Parts that may stay incomplete -/

/-- The parts of an instruction that may stay incomplete while others issue: its access with base update and type, whether it reserves a
place of LDQ, pops STQ or hands a part to the execute half, and the pointer that its data writes. -/
structure Issue where
  p     : PReg
  am    : Am
  x     : Access
  ty    : Ty
  form  : QUnit
  isMem : Bool := true
  store : Bool := false
  place : Bool := false
  pop   : Bool := false
  item  : Bool := false
  xq    : Bool := false
  busy  : Option PReg := none

/-- An execute-half instruction that pops LDQ. -/
def Issue.exOnly (x : Access) (xq : Bool) : Issue :=
  { p := 0, am := .disp, x, ty := .u64, form := .element, isMem := false, item := true, xq }

/-- What an instruction of the slot in service would issue; `none` for one whose parts do not wait apart. A store whose execute part
writes flags, and the two loads of `vfmal`, are not let apart. -/
def State.issueOf (s : State) (w : BitVec 32) (i : Instr) : Option Issue :=
  let a := s.act
  let load (p : PReg) (am : Am) (ty : Ty) (d : BitVec 12) (form : QUnit) : Option Issue :=
    some { p, am, x := accessOf a.p[p] am (a.wide d) form ty, ty, form, place := true }
  let store (p : PReg) (am : Am) (ty : Ty) (d : BitVec 12) (form : QUnit) (pop : Bool) : Option Issue :=
    some { p, am, x := accessOf a.p[p] am (a.wide d) form ty, ty, form, store := true, pop }
  let ptr (ps : PReg) (imm : BitVec 16) (st : Bool) (busy : Option PReg) : Option Issue :=
    some { p := ps, am := .disp, x := s.ptrAccess ps imm, ty := .ref, form := .element, store := st, busy }
  match i with
  | .lq p am ty d => load p am ty d .element
  | .rl p am ty d => load p am ty d .element
  | .lqv p am ty d => load p am ty d .group
  | .rlv p am ty d => load p am ty d .group
  | .lql p am ty d => load p am ty d .line
  | .rll p am ty d => load p am ty d .line
  | .sq p am ty d => store p am ty d .element true
  | .sqv p am ty d => store p am ty d .group true
  | .sql p am ty d => store p am ty d .line true
  | .sta p am ty d => if a.exq.isEmpty then store p am ty d .element false else none
  | .vst p am ty d => if a.exq.isEmpty then store p am ty d .group false else none
  | .lp pd ps imm => ptr ps imm false (some pd)
  | .rlp pd ps imm => ptr ps imm false (some pd)
  | .sp _ ps imm => ptr ps imm true none
  | .mov .ldq dst _ => some (Issue.exOnly { ea := 0, np := 0, unit := .bytes 8, align := 8, bad := false } (dst == .xq))
  | .qdrop => some (Issue.exOnly { ea := 0, np := 0, unit := .bytes 8, align := 8, bad := false } false)
  | .vperm => some (Issue.exOnly { ea := 0, np := 0, unit := .bytes 8, align := 8, bad := false } false)
  | .vfst _ _ _ _ _ => none
  | .vpack _ _ _ _ _ => none
  | .vpacki _ _ _ _ => none
  | .vpacks _ _ _ _ _ => none
  | .vfmal _ _ _ _ _ => none
  | _ =>
    if !isMWord w || decide (majorOf w < 0x10) then none
    else
      match Ty.ofCode (fld w 12 4) with
      | none => none
      | some ty =>
        let p := pregAt w 23
        let am := Am.ofCode (fld w 21 2)
        let m := majorOf w
        let d := if m == 0x12 || m == 0x13 || m == 0x19 || m == 0x1A || m == 0x1B then a.wide (fld w 0 9) else a.wide (fld w 0 12)
        let form : QUnit := if m < 0x18 then .element else .group
        some { p, am, x := accessOf a.p[p] am d form ty, ty, form, place := true, item := true }

/-- The cell's checks let the access out, to a place whose accesses have no other effect (R26, R280, R284). -/
def State.admits (s : State) (u : Issue) : Bool :=
  !u.isMem || (!s.inCtl u.x && (if u.store then (storeCheck u.x).isNone else (s.cellCheck u.x).isNone))

/-- The queues have room for what it issues (R244, R278). -/
def Issue.fits (u : Issue) (a : Act) : Bool :=
  (!u.place || a.ldqRoom) && (!u.item || decide (a.exq.length < Config.exqSize)) && (!u.pop || !a.stq.isEmpty) &&
  (!u.xq || decide (a.xq.length < Config.xqSize))

/-- The context behind an instruction whose place of LDQ, where it takes one, is `place`: its base updated, its STQ entry popped, its
execute part queued. -/
def Issue.behind (u : Issue) (place : LdqPlace) (w : BitVec 32) (i : Instr) (a : Act) : Act :=
  let b := a.bump u.p u.am u.x.np
  let c : Act :=
    { b with ldq := if u.place then b.ldq ++ [place] else b.ldq
             stq := if u.pop then b.stq.tail else b.stq
             exq := if u.item then b.exq ++ [{ pc := a.pc, word := w, instr := i, pfx := a.pfx, pops := if u.place then 1 else 0 }]
                    else b.exq
             xq := if u.xq then b.xq ++ [.reserved] else b.xq }
  c.nextPc.settled

/-- The incomplete part. -/
def Issue.part (u : Issue) (tag : Nat) (behind : Act) : PartAhead :=
  { next := behind.pc, ea := u.x.ea, isMem := u.isMem, store := u.store, nf := u.ty.isNf, busy := u.busy,
    tag := if u.place then some tag else none, item := u.item }

/-! ## When a slot goes ahead -/

/-- The instruction waits for a queue place or a port, not for a trap. -/
def Phase.canWait : Phase → Bool
  | .none | .again _ | .loadWait _ _ | .missWait _ | .retryWait _ _ => true
  | _ => false

/-- The word at the PC, where the slot holds its line and it may stand there. -/
def Act.wordHere (a : Act) : Option (BitVec 32) :=
  ((a.heldLine a.pc).map fun bs => wordInLine bs a.pc).filter fun w => !a.misplaced w

/-- What the stalled instruction of the slot in service leaves incomplete, if the slot may go on past it. An execute-half instruction is
one that finds a place of LDQ unfilled. -/
def State.firstIssue (s : State) : Option (BitVec 32 × Instr × Issue) :=
  match s.act.wordHere with
  | none => none
  | some w =>
    match decode w with
    | .error _ => none
    | .ok i =>
      ((s.issueOf w i).filter fun u =>
        s.admits u && u.fits s.act && (u.isMem || s.act.ldq.any fun p => !p.isFilled)).map fun u => (w, i, u)

/-- The region of a slot lets it issue. -/
def State.mayRun (s : State) (a : Act) : Bool :=
  let e := s.me.regs[a.reg]
  !e.paused && !e.ending && !(e.cycles == 0 && s.payer e .cycles != 0)

/-- The slot can issue a part behind its oldest incomplete instruction. -/
def State.aheadReady (s : State) (i : Fin 5) : Bool :=
  let a := s.slotAct i
  decide (i.val < 4) && a.live && a.stalled && a.blocked && a.trapping.isNone && a.deferred.isEmpty && !a.drain && s.mayRun a &&
  match s.aheadOfSlot i with
  | some r => !r.blocked
  | none => a.phase.canWait && (s.switchTo i).firstIssue.isSome

/-! ## Issuing behind it -/

/-- How many words may issue behind an incomplete instruction (DESIGN CHOICE, log 8). -/
def aheadLimit : Nat := 64

/-- The slot in service begins to go ahead: its stalled instruction is the first incomplete part. -/
def State.startAhead (s : State) : Out :=
  match s.firstIssue with
  | none => .next s
  | some (w, i, u) =>
    let b := u.behind (.reserved s.nextRid) w i s.act
    .next ({ s with nextRid := s.nextRid + 1 }.setAhead s.cur
      (some { base := s.act.still, parts := [{ part := u.part s.nextRid b, act := b }], left := aheadLimit, blocked := false }))

/-- Nothing can issue behind the incomplete parts until one completes. -/
def State.blockAhead (s : State) (r : RunAhead) : Out := .next (s.setAhead s.cur (some { r with blocked := true }))

/-- The newest context is `a`. -/
def RunAhead.withLast (r : RunAhead) (a : Act) : RunAhead :=
  { r with left := r.left - 1,
           parts := r.parts.dropLast ++ (match r.parts.getLast? with
             | some x => [{ x with act := a }]
             | none => []) }

/-- A further part stays incomplete: it stands at `a`, and `b` is the context behind it. -/
def RunAhead.push (r : RunAhead) (a : Act) (x : PartAhead) (b : Act) : RunAhead :=
  let q := r.withLast { a with stalled := true }
  { q with parts := q.parts ++ [{ part := x, act := b }] }

/-- Two accesses that might touch one location keep their order (R181): pages keep the offset of a byte; a scale line may lie apart. -/
def PartAhead.meets (p : PartAhead) (u : Issue) : Bool :=
  p.isMem && ((p.store && (p.nf || u.ty.isNf)) || p.ea.extractLsb' 7 9 == u.x.ea.extractLsb' 7 9)

/-- A word reads or writes a pointer whose data is awaited (R262); a branch may write a link. -/
def usesPtr (w : BitVec 32) (p : PReg) : Bool :=
  !isExWord w && !isPrefixWord w &&
  (pregAt w 23 == p || (!isMWord w && pregAt w 20 == p) || majorOf w == 3 || majorOf w == 4)

/-- An instruction has completed in the context `t`, which came from `a`, with no effect beyond what a context undoes. -/
def Act.went (a t : Act) : Bool :=
  t.live && t.aid == a.aid && t.tm == a.tm && !t.stalled && !t.blocked && t.trapping.isNone && t.phase == .none && !t.drain &&
  t.deferred.isEmpty && t.watch == a.watch && t.toks == a.toks && t.first.isNone

/-- The machine is as it was but for the context in service. -/
def State.onlyAct (s t : State) : Bool := decide ({ t with act := s.act } = s)

/-- The next word, executed in the newest context, stays there if it did nothing else. -/
def State.tryPlain (s : State) (r : RunAhead) (a : Act) (w : BitVec 32) : Option State :=
  match ({ s with act := a } : State).issueWord w with
  | .next t => if s.onlyAct t && a.went t.act then some (s.setAhead s.cur (some (r.withLast t.act))) else none
  | _ => none

/-- An execute-half word that finds a place of LDQ unfilled: its part waits in order (R244). Where an atomic request is to fill the place,
the word stays incomplete, since a refusal is reported there (R169). -/
def State.exAhead (s : State) (r : RunAhead) (a : Act) (w : BitVec 32) (i : Instr) (u : Issue) : Out :=
  let ours (p : LdqPlace) : Bool := p.isFilled || r.parts.any fun x => x.part.tag.any fun n => p == .reserved n
  let b := u.behind (.reserved 0) w i a
  if !u.fits a then s.blockAhead r
  else if a.ldq.all ours then .next (s.setAhead s.cur (some (r.withLast b)))
  else .next (s.setAhead s.cur (some (r.push a (u.part 0 b) b)))

/-- A load or store behind the incomplete parts. A store stays incomplete until it is the oldest (R284); a load is performed if its port
answers at once, is sent to its owner if that is elsewhere, and else stays incomplete (R278). -/
def State.memAhead (s : State) (r : RunAhead) (a : Act) (w : BitVec 32) (i : Instr) (u : Issue) : Out :=
  let s1 : State := { s with act := { a with iw := w } }
  let tag := s.nextRid
  let later : Out :=
    let b := u.behind (.reserved tag) w i a
    .next ({ s with nextRid := tag + 1 }.setAhead s.cur (some (r.push a (u.part tag b) b)))
  let sent (t : State) : Out :=
    match t.act.phase with
    | .loadWait rid _ =>
      if rid == tag && t.nextRid == tag + 1 && t.joins == s.joins then
        let b := u.behind (.reserved (tag + 1)) w i a
        .next ({ t with act := s.act, nextRid := tag + 2 }.setAhead s.cur (some (r.push t.act (u.part (tag + 1) b) b)))
      else later
    | _ => later
  let nanDoubt := r.parts.any fun x => x.part.nf && x.part.tag.isSome && !x.part.item
  if !s1.admits u || !u.fits a || decide (Config.exqSize ≤ r.parts.length + a.exq.length) then s.blockAhead r
  else if u.store then later
  else if r.parts.any fun x => x.part.meets u then s.blockAhead r
  else if u.item then
    match s1.splitRead u.x u.ty u.form with
    | .ok e t =>
      if s.onlyAct t && !entryNan e && !nanDoubt then .next (s.setAhead s.cur (some (r.withLast (u.behind (.filled e) w i t.act)))) else later
    | .stop (.wait (.next t)) => sent t
    | .stop _ => s.blockAhead r
  else
    match s.tryPlain r a w with
    | some t => .next t
    | none =>
      match s1.issueWord w with
      | .next t => if t.act.stalled && t.act.trapping.isNone && t.act.aid == a.aid then sent t else s.blockAhead r
      | _ => s.blockAhead r

/-- The newest context fetches its next word and issues it, if that is one of majors 0x01 to 0x21 (R285) and needs no pointer that is
awaited (R262). -/
def State.wordAhead (s : State) (r : RunAhead) (a : Act) : Out :=
  let s0 := s.charge
  match ({ s0 with act := a } : State).fetchWord with
  | .stop _ => s.blockAhead r
  | .word w s1 =>
    let b := { s1.act with iw := w }
    if (decide (0x28 ≤ majorOf w) && !isPrefixWord w) || (r.parts.any fun x => x.part.busy.any fun p => usesPtr w p) || b.misplaced w then
      s.blockAhead r
    else
      match decode w with
      | .error _ => s.blockAhead r
      | .ok i =>
        match ({ s1 with act := b } : State).issueOf w i with
        | some u =>
          if u.isMem then s0.memAhead r b w i u
          else (s0.tryPlain r b w).elim (s0.exAhead r b w i u) .next
        | none => (s0.tryPlain r b w).elim (s.blockAhead r) .next

/-- The execute part at the head of the oldest context that has one is its instruction's own. -/
def markRan : List Ahead → List Ahead
  | [] => []
  | y :: ys => if y.act.exq.isEmpty then y :: markRan ys else { y with part := { y.part with ran := true } } :: ys

/-- The execute half's oldest part issues: in the slot's context, where it waits there too, and in every context behind (R244). A
context where it would do more than the execute half may, or trap, keeps the others from going on. -/
def State.drainAhead (s : State) (r : RunAhead) (x : ExItem) : Out :=
  let copy (y : Ahead) : Option Ahead :=
    if y.act.exq.head? != some x then some y
    else
      match ({ s with act := y.act } : State).drainOne x with
      | .next t =>
        if t.act.live && t.act.trapping.isNone && t.act.exq == y.act.exq.tail && (!s.act.exq.isEmpty || s.onlyAct t) then
          some { y with act := { t.act with blocked := y.act.blocked } }
        else none
      | _ => none
  match (if s.act.exq.isEmpty then markRan r.parts else r.parts).mapM copy with
  | none => if s.act.draining.isSome then (s.setAhead s.cur none).turn else s.blockAhead r
  | some ps =>
    if s.act.exq.isEmpty then .next (s.setAhead s.cur (some { r with parts := ps }))
    else
      match s.drainOne x with
      | .next t =>
        let ok := t.act.live && t.act.trapping.isNone && t.act.exq == s.act.exq.tail
        .next (t.setAhead s.cur (if ok then some { r with base := t.act.still, parts := ps } else none))
      | out => out

/-- A part issues behind the oldest incomplete instruction of the slot in service. -/
def State.aheadTurn (s : State) : Out :=
  match s.aheadOfSlot s.cur with
  | none => s.startAhead
  | some r =>
    match r.parts.getLast? with
    | none => s.blockAhead r
    | some y =>
      match y.act.draining with
      | some x => s.drainAhead r x
      | none => if r.left == 0 then s.blockAhead r else s.wordAhead r y.act

/-! ## Completion, in program order -/

/-- What a completed instruction leaves to a context behind it: `a` is the slot's context after it, `base` the one before. Its data fills
its place of LDQ or its pointer; where its execute part has run too, that has left the queue (R278). -/
def PartAhead.settle (p : PartAhead) (base a c : Act) : Act :=
  let ran := p.item && !p.ran && a.exq.length == base.exq.length
  let c1 : Act :=
    if ran then { c with ldq := a.ldq ++ c.ldq.drop (base.ldq.length + if p.tag.isSome then 1 else 0) }
    else
      match p.tag, a.ldq.getLast? with
      | some n, some e => { c with ldq := c.ldq.map fun q => if q == .reserved n then e else q }
      | _, _ => c
  let c2 : Act :=
    if ran then
      { c1 with exq := c1.exq.tail, a := a.a, v := a.v, vtag := a.vtag, k := a.k, f := a.f, stq := c1.stq ++ a.stq.drop base.stq.length,
                xq := match a.xq.drop base.xq.length with
                  | .filled w :: _ => fillXq w c1.xq
                  | _ => c1.xq }
    else c1
  let c3 : Act := match p.busy with
    | some pd => c2.setP pd a.p[pd]
    | none => c2
  { c3 with cycles := a.cycles }

/-- The instruction at which the slot stood has completed, and no more than that has happened. -/
def PartAhead.isDone (p : PartAhead) (base a : Act) : Bool := base.went a && a.pc == p.next && a.pfx.isNone

/-- After a turn of a slot: it waits on; its instruction has completed, so that the next incomplete one becomes the oldest; or what
issued behind it is cancelled. -/
def State.mergeAhead (s t : State) (r : RunAhead) : State :=
  let a := t.slotAct s.cur
  if a.still == r.base then t
  else
    match r.parts with
    | [] => t.setAhead s.cur none
    | h :: rest =>
      if h.part.isDone r.base a then
        let b := h.part.settle r.base a h.act
        let ps := rest.map fun x => { x with act := h.part.settle r.base a x.act }
        (t.mapSlot s.cur fun _ => b).setAhead s.cur
          (if rest.isEmpty then none else some { base := b.still, parts := ps, left := aheadLimit, blocked := false })
      else t.setAhead s.cur none

/-- The slot in service takes its turn, with what has issued behind its instruction. -/
def State.slotTurn (s : State) : Out :=
  match s.ahead[s.cur] with
  | none => s.turn
  | some r =>
    if r.base != s.act.still then (s.setAhead s.cur none).turn
    else
      match s.act.draining with
      | some x => s.drainAhead r x
      | none =>
        match s.turn with
        | .next t => .next (s.mergeAhead t r)
        | out => out

end Sys2Proof.Machine
end

