-- ==== Sys2Proof/Machine/Cycle.lean ====
section
/-!
DEFINITION. What a step does around `exec`: the work of the hardware that stands in the agenda, what the outside does, and the cell's
own cycle, in which selection, the atomic slot, the yield buffers and the decoder take their turns (R202, R217, R218, R223, R247).
-/
namespace Sys2Proof.Machine

/-- The cell is out of reset and its clock runs (R460 to R462). -/
def State.runs (s : State) : Bool := s.cl.released && s.cl.power == .run && !s.cl.clockStop

/-- A slot's miss has been filled: its access is made again at once, so that it keeps its place before accesses that arrive later
(R59, R61). -/
def State.wakeTurn (s : State) (i : Fin 5) : Out :=
  let s1 := s.wakeSlot i
  match (s.slotAct i).phase with
  | .missWait _ => if s.runs then (s1.switchTo i).slotTurn else .next s1
  | _ => .next s1

/-- A request of the modelled cell comes behind the accesses that an ordering point keeps ahead of it (R61). -/
def State.behindOrder (s : State) (who : Requester) : Bool := s.isSelf who && !s.orderPages.isEmpty

/-- One item of the agenda. -/
def State.runTodo (s : State) : Todo → Out
  | .loadAtPort who oa u kind => execLoadAtPort who oa u kind s
  | .deposit req => if s.behindOrder req.who then .next (s.hold (.ordered (.deposit req))) else execDepositAtOwner req s
  | .atomicRequest req =>
    if s.behindOrder req.who then .next (s.hold (.ordered (.atomicRequest req))) else execAtomicRequestArrival req s
  | .atomicGo n req => s.atomicGo n req
  | .storePerform oa data => execStorePerform oa data s
  | .port _ (.deposit req) => execDepositAtOwner req s
  | .port _ t => s.runTodo t
  | .ordered t => if s.orderPages.isEmpty then s.runTodo t else .next (s.hold (.ordered t))
  | .pumpAgain r => .next { s.wantPump.unblock with pumpRetry := some r }
  | .scrub f => s.scrubOwn f
  | .under x t =>
    match s.underXlat x fun s1 => s1.runTodo t with
    | .next s1 => .next { s1 with cl := { s1.cl with held := s1.cl.held.map fun y : Todo => if y == t then .under x t else y } }
    | r => r
  | .tlbiAck m arg => .next (s.ackTlbi m arg)
  | .poll => .next s.pollWatches.unblock
  | .storeAccept who oa data => execStoreAccept who oa data s
  | .shootdownAck slot => if s.oldWaits then .next (s.hold (.shootdownAck slot)) else execShootdownAck slot s
  | .message m => .next (s.arrive m)
  | .lampWalk => execLampWalk s
  | .walkMiss _ => s.walkFilled
  | .watchPlace req => execWatchAtOwner req s
  | .positive rid => execPositiveReply rid s
  | .negative rid code oa => execNegativeReply rid code oa s
  | .atomReply rid e => execAtomicReply rid e s
  | .regionCmd who rcb k tok reason got => s.regionCommand rcb who k tok reason got
  | .install r who => execHandlerInstall r who s
  | .launchEnd rcb => .next (s.launchGo rcb)
  | .evict rcb rect restore got => if restore then s.restoreCmd rcb rect got else s.evictCmd rcb rect got
  | .creditBack rcb => s.creditBack rcb
  | .mbNext => s.nextCommand
  | .pullStart => execPullStart s
  | .collStart => execCollStart s
  | .matrix n => execMatrixCommandStart (.own n) s
  | .pumpReplay => .next s.wantPump.unblock
  | .selection i => execSelection i s
  | .resume f => .next (s.frameReady f)
  | .wake slot => s.wakeTurn (slotIdx slot)
  | .wakeFrame slot => .next (s.wakeFrame (slotIdx slot))
  | .report rcb a e c => s.countReport rcb a e c
  | .collStep => s.collGo
  | .matrixTile n => execMatrixTile (.own n) s
  | .pullAccess n => execPullAccess (.own n) none s
  | .grant r k n => execGrantArrival r k n s
  | .ask rcb who k got => s.grantAsk rcb who k got
  | .refuseAs _ t => .next { s with agenda := t :: s.agenda }
  | .endAtCell rcb => execEndAtCell rcb s
  | .endDone rcb => s.endGo rcb
  | .pauseAtCell rcb => execPauseAtCell rcb s
  | .landing t => execLandingAck t s
  | .quiesced => execEvictionQuiesced s
  | .pready f rcb fail n issuer => execPreadyAtCell f rcb fail n issuer s
  | .release t n => execReleaseNotice t n s
  | .watchAns rid ans => execWatchAnswer { rid, sibling := none } ans s
  | .refusedLoad rid c => execLoadReply rid (.refused c) s
  | .barSignal b rect sig err => execBarrierSignal b rect sig err s
  | .barRelease b rect err => execBarrierRelease b rect err s
  | .hostServe line => s.hostServe line
  | .expiry t => execTokenExpiry t s
  | .serveDone => execServeModeReturn s
  | .fillDone => execFillModeEntered s
  | .saveFails => s.saveFails

/-! ## The cell's cycle (R217, R218) -/

/-- The general slot that selection fills, if it has something to do. -/
def State.freeSlot (s : State) : Option (Fin 4) :=
  if s.me.fenced then none
  else if s.choose.isSome || s.wantsGrant then (List.finRange 4).find? fun i => !(s.slotAct (slotIdx (.gen i))).live
  else none

/-- The slot's access waits at a port behind an older one of the cell to the same line (R83). -/
def State.behindPort (s : State) (i : Fin 5) : Bool :=
  (s.slotAct i).atPort.any fun w : PortWait => (List.finRange 5).any fun j =>
    j != i && (s.slotAct j).live && (s.slotAct j).atPort.any fun v : PortWait => v.oa / 128 == w.oa / 128 && decide (v.turn < w.turn)

/-- A slot whose oldest incomplete instruction can be tried. -/
def State.ready (s : State) (i : Fin 5) : Bool := (s.slotAct i).live && !(s.slotAct i).blocked && !s.behindPort i

/-- The general slots that have a part ready. -/
def State.readySlots (s : State) : List (Fin 4) :=
  (List.finRange 4).filter fun i => s.ready (slotIdx (.gen i)) || s.aheadReady (slotIdx (.gen i))

/-- The slot that the decoder serves, the pump slot apart (R218): the atomic slot first; else the highest activation priority, round-robin
after the slot last chosen. -/
def State.pickSlot (s : State) : Option (Fin 5) :=
  if s.ready 4 then some 4
  else
    let rs := s.readySlots
    let p := rs.foldl (fun (n : Nat) (i : Fin 4) => max n (s.slotAct (slotIdx (.gen i))).prio.toNat) 0
    (((List.range 4).map fun k => s.lastSlot + 1 + Fin.ofNat 4 k).find? fun i : Fin 4 =>
      rs.contains i && (s.slotAct (slotIdx (.gen i))).prio.toNat == p).map fun i => slotIdx (.gen i)

/-- Puts a slot in service, and remembers a general slot for the next turn. -/
def State.serve (s : State) (i : Fin 5) : State :=
  let s1 := s.switchTo i
  if i.val < 4 then { s1 with lastSlot := Fin.ofNat 4 i.val } else s1

/-- An uncorrectable error may have struck a line of DRAM or of a local store, which poisons it (R79); the rules say nothing of when
or where. -/
def State.struck (s : State) : State :=
  { s with mem := s.mem.struck (Config.softError s.free), free := s.free + 1 }

/-- Nothing can issue: time passes, and accesses that waited at a port try again. -/
def State.idle (s : State) : State := s.tick.struck.wakeHeld

/-- The pump slot's turn (R218): it yields to general slots until it has waited three turns, and to the atomic slot. -/
def State.pumpTurn (s : State) : Bool := s.pumpWant && !s.ready 4 && (decide (3 ≤ s.pumpWait) || s.readySlots.isEmpty)

/-- The pump slot waits while another is served. -/
def State.pumpWaited (s : State) : State := if s.pumpWant then { s with pumpWait := s.pumpWait + 1 } else s

/-- What the cell does in one cycle. -/
def State.cellTurn (s : State) : Out :=
  match s.freeSlot with
  | some i => execSelection i s
  | none =>
    if !s.atomQ.isEmpty && !s.atomBusy then execAtomicRun s
    else
      match (List.finRange 4).find? s.yieldReady with
      | some i => execYieldBufferSend i s
      | none =>
        if s.pumpTurn then .next (s.pumpGo s.pumpRetry)
        else
          match s.pickSlot with
          | some i => if s.ready i then (s.pumpWaited.serve i).slotTurn else (s.pumpWaited.serve i).aheadTurn
          | none => .next s.idle

/-- One cycle of the cell. -/
def State.cellStep (s : State) : Out := if !s.runs then .next s else s.trimAhead.cellTurn

/-- What the outside does: a step of the table that has no encoding. -/
def State.outside (s : State) (i : Instr) : Out := if (encode i).isNone then exec i s else .next s

/-- One step of the machine: the oldest work of the agenda; else what the outside does next; else a cycle of the cell. -/
def State.cycle (s : State) : Out :=
  match s.agenda with
  | t :: ts => { s with agenda := ts }.runTodo t
  | [] =>
    match s.world with
    | some i :: rest => { s with world := rest }.outside i
    | none :: rest => { s with world := rest }.cellStep
    | [] => s.cellStep

/-! ## Placing an instruction -/

/-- Where an instruction is placed: the start of the modelled cell's local store (R18). -/
def State.placeAt (s : State) : Nat := 0x200000000 + 0x40000 * s.self.val

/-- Memory with four bytes at a key, plain, and not poisoned. -/
def Memory.placed (m : Memory) (key : Nat) (bs : List Byte) : Memory :=
  { (m.setBytes key bs) with poison := markAt (key / 128 * 128) false m.poison, enc := insertAt 0 (key / 128 * 128) 0 m.enc }

/-- The machine with an instruction's bytes placed and a fresh activation in general slot 0 that stands at them, in region-table
entry 0; nothing else is pending, and the cell runs. -/
def State.placeWord (s : State) (w : BitVec 32) : State :=
  let n := s.self
  let c := s.cells[n]
  let cl := { s.cl with released := true, power := .run, clockStop := false, cellMap := s.cl.cellMap.set n (s.cl.cellMap[n] ||| 0x80),
                        held := [] }
  let e := { c.regs[0] with paused := false, ending := false, cycles := 65536 }
  let c1 := { c with lsattr := c.lsattr ||| 0x0000000000008000#64, fenced := false, regs := c.regs.set 0 e }
  { s with
    cur := 0
    act := { Act.idle with live := true, pc := BitVec.ofNat 64 s.placeAt }
    slots := Vector.replicate 5 Act.idle
    ahead := Vector.replicate 5 none
    cells := s.cells.set n c1
    mem := s.mem.placed (cl.lsKey n s.placeAt) (bytesOfWord w)
    cl
    inbox := []
    mesh := []
    parked := []
    yieldBuf := Vector.replicate 4 none
    atomQ := []
    atomRun := none
    atomNow := []
    lastSlot := 3
    pumpWant := false
    agenda := []
    world := [] }

end Sys2Proof.Machine
end

