-- ==== Sys2Proof/Machine/Step.lean ====
section
/-!
DEFINITION. One step of the machine, and the state in which the next step fetches and runs a given instruction. Both are calls of
Machine/Cycle.lean.
-/
namespace Sys2Proof.Machine

/-- One step (`State.cycle`). -/
def step (s : State) : Host.Outcome State Fault Refusal := s.cycle

/-- `s` with an instruction of the opcode table placed where the next step fetches (`State.placeWord`): bits above `nbits` are
zero. -/
def State.withFetchWord (s : State) (nbits w : Nat) : State := s.placeWord (BitVec.ofNat 32 (w % 2 ^ nbits))

end Sys2Proof.Machine
end

