-- ==== Sys2Proof/Safety.lean ====
section
/-!
DEFINITION. What counts as a safe run, and the words in which the statements about the machine speak: outcomes that go on, the
canonical form of everything that memory holds, and what an instruction leaves when it completes.
-/
namespace Sys2Proof.Machine

/-! ## Outcomes -/

/-- The outcome is a next state that has a property. -/
def Leads (o : Out) (P : State → Prop) : Prop := ∃ t, o = .next t ∧ P t

/-- The outcome is a next state: the machine does not stop. -/
def GoesOn (o : Out) : Prop := Leads o fun _ => True

/-! ## The canonical form (R80) -/

/-- A stored page lies in 64 KiB and is canonical. -/
def PageVer.canonical (v : PageVer) : Bool :=
  v.page.wf && v.page.bytes.all (fun c => decide (c.1 < 0x10000)) && v.page.tags.all (fun a => decide (a < 0x10000)) &&
  v.page.lit.all (fun a => decide (a < 0x10000)) && v.page.poison.all (fun a => decide (a < 0x10000)) &&
  v.page.enc.all fun c => decide (c.1 < 0x10000)

/-- Memory, every page that the package keeps, the fabric block's registers and the list of clean frames are in their one canonical
form. -/
def Canonical (s : State) : Prop :=
  s.mem.wf = true ∧ s.pkg.versions.all PageVer.canonical = true ∧ rising (s.pkg.fab.map Prod.fst) = true ∧ rising s.cl.clean = true

/-! ## What an instruction finds and leaves -/

/-- The instruction in service issues in program order: no older part waits in the execute half, and it is not itself one of the
execute half's queue. -/
def InOrder (s : State) : Prop := s.act.exq = [] ∧ s.act.drain = false

/-- The instruction in service comes from the decoder and not from the execute half's queue. -/
def FromDecoder (s : State) : Prop := s.act.drain = false

/-- A trap on the instruction in service with a code and an address word (R343 to R346). -/
def trapsWith (s : State) (c : Code) (addr : Word) : Out := s.trap c addr

/-- A load of the slot in service finds its operand: the entry, and the state after the read. -/
def Reads (s : State) (x : Access) (ty : Ty) (q : QUnit) (ptr : Bool) (e : QEntry) (t : State) : Prop := s.load x ty q ptr = .ok e t

/-- A split instruction can read its operand now: program order, a place of LDQ, and an operand that is there, outside the control
window, where R280 admits no split form. Its execute part computes with `e`, the head of LDQ after the load, and `t` is the state without
it: the operand itself where LDQ was empty, else an older entry (R278). -/
def Operand (s : State) (x : Access) (ty : Ty) (q : QUnit) (e : QEntry) (t : State) : Prop :=
  InOrder s ∧ s.act.ldqRoom = true ∧ s.inCtl x = false ∧
  ∃ e1 t1, Reads s x ty q false e1 t1 ∧
    ((s.act.ldq = [] ∧ e = e1 ∧ t = t1) ∨
     ∃ rest, s.act.ldq = .filled e :: rest ∧ t = t1.mapAct fun a => { a with ldq := a.ldq.tail ++ [.filled e1] })

/-- The two entries that `vfmal` pops behind its loads `e1` and `e2`, and the state without them: the heads of LDQ, its own where no older
ones are left (R278). -/
def PopsPair (s : State) (e1 e2 : QEntry) (u : State) (h1 h2 : QEntry) (v : State) : Prop :=
  (s.act.ldq = [] ∧ h1 = e1 ∧ h2 = e2 ∧ v = u) ∨
  (s.act.ldq = [.filled h1] ∧ h2 = e1 ∧ v = u.mapAct fun a => { a with ldq := [.filled e2] }) ∨
  (∃ rest, s.act.ldq = .filled h1 :: .filled h2 :: rest ∧ v = u.mapAct fun a => { a with ldq := rest ++ [.filled e1, .filled e2] })

/-- A split store can be made now, and leaves `t`. -/
def Stores (s : State) (x : Access) (d : WData) (t : State) : Prop :=
  InOrder s ∧ s.act.stqRoom = true ∧ storeCheck x = none ∧ s.store x d none = .ok t

/-- The slot in service is a general slot. -/
def General (s : State) : Prop := s.inAtomic = false

/-- The slot in service is a general slot and everything older of its activation has completed (R285). -/
def Serving (s : State) : Prop := InOrder s ∧ General s

/-- The instruction waits and changes nothing else: it is tried again when something has happened. -/
def waits (s : State) : Out := .next { s with act := { s.act with blocked := true, stalled := true } }

/-- As `waits`, with what it waits for. -/
def waitsFor (s : State) (ph : Phase) : Out := .next { s with act := { s.act with blocked := true, stalled := true, phase := ph } }

/-- The instruction has not begun to wait for anything. -/
def Fresh (s : State) : Prop := s.act.phase = .none

/-- A deposit or an atomic request on `a` passes its checks, and the tables have room for it (R168, R323). -/
def Sendable (s : State) (a : Word) (align : Nat) (nm : Option (Fin 4)) : Prop :=
  s.remoteFault a align = none ∧ s.tokFault a s.act.askSlot nm = none ∧ s.canSend a s.act.askSlot nm = true

/-- A message to `a` passes its checks, and the tables have room for it (R168, R336). -/
def Mailable (s : State) (a : Word) (align : Nat) (chan : Option (BitVec 5)) (nm : Option (Fin 4)) : Prop :=
  s.msgFault a align chan s.act.askSlot nm = none ∧ s.canSend a s.act.askSlot nm = true

/-- The requester `who` has been answered: positively with code 0, else with the refusal (R167). The home awaits no answer. -/
def Answered (s t : State) (who : Requester) (code : Code) : Prop :=
  if s.isSelf who then (if code = 0 then Todo.positive who.rid ∈ t.agenda else ∃ a, Todo.negative who.rid code a ∈ t.agenda)
  else isHome who = true ∨
    ∃ m ∈ t.out, m.kind = (if code = 0 then .posReply else .negReply) ∧ m.rid = who.rid ∧ m.place = who.place ∧ m.code = code

/-- A message of a kind with a number, code and words has left for a place. -/
def Left (t : State) (kind : OutKind) (place : Word) (rid : Nat) (code : Code) : Prop :=
  ∃ m ∈ t.out, m.kind = kind ∧ m.place = place ∧ m.rid = rid ∧ m.code = code

/-- The instruction in service has completed with no effect but `f` on the slot's context: the PC has moved on as R274 says, and
nothing of the instruction is left pending. -/
def completed (s : State) (f : Act → Act) : State := { s with act := (f s.act).nextPc.settled }

/-- As `completed`, for one that branches to `pc`. -/
def branched (s : State) (pc : Word) (f : Act → Act) : State := { s with act := { (f s.act).settled with pc := pc } }

/-- The element and the group that an instruction's memory operand names (R229, R277). -/
def elementOf (s : State) (p : PReg) (am : Am) (ty : Ty) {n : Nat} (d : BitVec n) : Access :=
  accessOf s.act.p[p] am (s.act.wide d) .element ty
def groupAt (s : State) (p : PReg) (am : Am) (ty : Ty) {n : Nat} (d : BitVec n) : Access :=
  accessOf s.act.p[p] am (s.act.wide d) .group ty

/-- The operand of a float group whose scale can be applied. -/
def Scaled (e : QEntry) (t : State) : Prop := entryNan e = false ∨ t.nsc = true

/-- What R266 and R275 make of a branch to `t` that is taken: 0x03 or 0x02 at the branch, or the jump, which clears the loop state
when `t` lies outside the body. -/
def branchTo (s : State) (t : Word) : Out :=
  if t.extractLsb' 34 30 ≠ 0 then trapsWith s 0x03 t
  else if t.extractLsb' 0 2 ≠ 0 then trapsWith s 0x02 t
  else
    .next (branched s t fun a =>
      { a with loop := if a.loop.count ≠ 0 ∧ a.loop.start.toNat ≤ t.toNat ∧ t.toNat ≤ a.loop.stop.toNat then a.loop
                       else LoopState.zero })

/-- The slot in service stands at an instruction: nothing waits that comes before it, and its region runs. -/
def Ready (s : State) : Prop :=
  s.agenda = [] ∧ s.world = [] ∧ s.runs = true ∧ s.freeSlot = none ∧ (s.atomQ = [] ∨ s.atomBusy = true) ∧
  (∀ i : Fin 4, s.yieldReady i = false) ∧ s.pumpWant = false ∧ s.pickSlot = some s.cur ∧ s.ready s.cur = true ∧
  s.ahead = Vector.replicate 5 none ∧ s.act.draining = none ∧ s.act.trapping = none ∧
  (∀ oa p1 st, s.act.phase ≠ .pageFault oa p1 st) ∧ s.act.phase ≠ .frameWait ∧ s.act.phase ≠ .frameBad ∧
  s.act.atPort = none ∧ s.act.reportFirst = false ∧ s.ends = false ∧ s.pauses = false ∧ s.reportDue = false ∧
  s.outOfCycles = false ∧ s.overrun = false

end Sys2Proof.Machine
end

