-- ==== Sys2Proof/Certificates/Slice0/Obligations.lean ====
section
/-!
DEFINITION. The statements about the machine. A statement that has several parts is the conjunction of parts that stand before it, each
with the rules of the spec that it follows. Safety.lean has the words: `trapsWith`, `completed`, `branched`, `waits`, `Serving` and others.
-/

open Sys2Proof Sys2Proof.Machine

/-- R226 to R257: the word of every well-formed instruction decodes to that instruction, with every operand at every value that its encoding
admits. -/
def Obligations.EncodeThenDecode : Prop :=
  ∀ (i : Instr) (w : BitVec 32), i.wf = true → encode i = some w → decode w = .ok i

/-- The words that the spec works out: `pset`, `pshl`, `pstep` and `por` of R262 to R265, `pbne` (R267), `loopi` (R273), and of the later
chapters one or more of each family. -/
def Obligations.DecodedWords : Prop :=
  ∀ p ∈ ([(0x04890001#32, .pset 1 1), (0x0497003F#32, .pshl 1 1 63), (0x040B0008#32, .pstep 0 8), (0x04A50000#32, .por 1 2),
      (0x09C1FFFD#32, .pbne 3 4 0xFFFD), (0x14410004#32, .loopi 4 4), (0x40203000#32, .lda 0 .step .i64 0), (0x80200001#32, .addi 1),
      (0x80010000#32, .mov .a .stq 0), (0x24A03000#32, .sq 1 .step .i64 0), (0x40B73000#32, .sta 1 .step .i64 0),
      (0x65269E00#32, .vfma 2 .step .bf16 .dyn 0), (0xFC000012#32, .ext 0x12), (0xB8600000#32, .done), (0xE0000040#32, .trap 0x40),
      (0xE0200000#32, .rti), (0xE04C0008#32, .cget 3 8), (0xE0800000#32, .ifence), (0xE0A50000#32, .tlbw 1 2), (0xE0C40000#32, .tlbi 1 0)] :
      List (BitVec 32 × Instr)),
    decode p.1 = .ok p.2

/-- R217, R218, R223, R249, R274: a step that serves a slot runs the instruction at its PC. The word comes from the slot's line, else from a
line that the step reads and keeps; the step is `exec` of the instruction that the word decodes to, at that state, with the slot's turn,
charge and issued word noted. A misplaced prefix, an illegal word, and a flow instruction at the end of a loop are taken there instead. -/
def Obligations.StepRunsDecoded : Prop :=
  ∀ (s : State) (w : BitVec 32) (bs : List Byte), Ready s → wordInLine bs s.act.pc = w →
    let turn : State := if s.cur.val < 4 then { s with lastSlot := Fin.ofNat 4 s.cur.val } else s.countAtomic
    let runs (t : State) : Prop :=
      (s.act.misplaced w = true → step s = trapsWith (t.issued w) 0x01 0) ∧
      (s.act.misplaced w = false →
        (∀ e, decode w = .error e → step s = exec (.illegalInstruction w) (t.issued w)) ∧
        (∀ i, decode w = .ok i →
          (s.act.atLoopEnd = true ∧ isFlowWord w = true → step s = trapsWith (t.issued w) 0x05 0) ∧
          (s.act.atLoopEnd = false ∨ isFlowWord w = false →
            s.inAtomic = true ∨ s.act.deferred = [] ∨ isExWord w = true ∨ isPrefixWord w = true → step s = exec i (t.issued w))))
    (s.act.heldLine s.act.pc = some bs → runs turn) ∧
    (s.act.heldLine s.act.pc = none → s.act.phase = .none ∨ (∃ n, s.act.phase = .again n) →
      (isOwn s.act.pc = false → step s = trapsWith turn 0x03 s.act.pc) ∧
      (isOwn s.act.pc = true → turn.readLine s.act.pc = .ok bs → runs (turn.keepLine s.act.pc bs)))

/-- R202, R217: what else a step does. Work that the hardware has begun comes first, in order; then what the outside does next: an event of
the table, or nothing, when the cell has its turn; a cell that is held in reset, off or stopped does nothing. -/
def Obligations.StepTakesWork : Prop :=
  ∀ (s : State),
    (∀ t rest, s.agenda = t :: rest → step s = ({ s with agenda := rest } : State).runTodo t) ∧
    (s.agenda = [] →
      (∀ i rest, s.world = some i :: rest → encode i = none → step s = exec i { s with world := rest }) ∧
      (∀ i w rest, s.world = some i :: rest → encode i = some w → step s = .next { s with world := rest }) ∧
      (∀ rest, s.world = none :: rest → step s = ({ s with world := rest } : State).cellStep) ∧
      (s.world = [] → s.runs = false → step s = .next s))

/-- Every step of the machine answers a next state: no state and no instruction stops it. -/
def Obligations.EveryStepGoesOn : Prop := ∀ s : State, GoesOn (step s)

/-- Every step keeps the canonical form of all that memory, the exported pages, the fabric's registers and the list of clean frames hold. -/
def Obligations.StepKeepsCanonical : Prop := ∀ s t : State, Canonical s → step s = .next t → Canonical t

/-- R213, R460: the machine right after reset: memory is in its canonical form and lists nothing, no slot holds an activation, no handler or
region is installed, every frame is scrub-pending, the TLB is empty, nothing is queued, and the cluster is held. -/
def Obligations.ResetState : Prop :=
  let s := State.reset
  Canonical s ∧ s.mem = Memory.reset ∧ (∀ i : Fin 5, (s.slotAct i).live = false) ∧
  (∀ n : Fin 64, (∀ c : Fin 32, s.cells[n].handlers[c].v = false) ∧ ∀ r : Fin 8, s.cells[n].regs[r].v = false) ∧
  s.cl.clean = [] ∧ s.cl.tlb = [] ∧ s.cl.tlbctl = false ∧ s.agenda = [] ∧ s.cl.released = false ∧ step s = .next s

/-- R89, R90: the floor table has 256 entries, indexed by the hash of the owner place. Each is free, or holds one place with a 64-bit floor,
and has a 48-bit change count; every entry is free at reset, and its count 0. An acquiring answer for a place takes its entry: the floor
becomes the greater of the two where the entry holds the place, else the answer's counter, and lines filed under another place's entry go;
the entry's change count, and no other, rises by one whatever becomes of the floor. -/
def Obligations.FloorTable : Prop :=
  (∀ (lpkg : BitVec 18) (lclu : BitVec 9) (oa : BitVec 34),
    (floorIdx (1#1 ++ lpkg ++ lclu ++ 0#2 ++ oa)).toNat =
      (lpkg.toNat ^^^ (lpkg.toNat >>> 8) ^^^ (lpkg.toNat >>> 16) ^^^ lclu.toNat ^^^ (lclu.toNat >>> 8)) &&& 0xFF) ∧
  (∀ idx : BitVec 8, State.reset.cl.floorOf idx = none ∧ State.reset.cl.changeOf idx = 0) ∧
  (∀ (cl : Cluster) (idx k : BitVec 8) (place floor : Word),
    (cl.setFloor idx place floor).floorOf k = if k = idx then some { idx := idx, place := place, floor := floor } else cl.floorOf k) ∧
  ∀ (cl : Cluster) (k : BitVec 8) (place c : Word),
    let held := (cl.floorOf (floorIdx place)).filter fun f => f.place == place
    let floor : Word := match held with
      | some f => if f.floor.toNat < c.toNat then c else f.floor
      | none => c
    (cl.raiseFloor place c).floorOf k = (if k = floorIdx place then some { idx := k, place := place, floor := floor } else cl.floorOf k) ∧
    ((cl.raiseFloor place c).changeOf k).toNat = ((cl.changeOf k).toNat + if k = floorIdx place then 1 else 0) % 2 ^ 48 ∧
    (cl.raiseFloor place c).refl =
      (if (cl.floorOf (floorIdx place)).isSome ∧ held = none then cl.refl.filter fun l => floorIdx l.place != floorIdx place else cl.refl)

/-- R208: a data message to channel 29, 30 or 31 is refused with 0x05. An atomic request, which reaches channels 30 and 31 by its own path,
never occupies the inbox. The message has reached its cell: its partition and place have been taken (R37, R108, R335), and a cell that is
fenced or whose cluster is held answers retry instead (R406, R462). -/
def Obligations.ReservedChannels : Prop :=
  ∀ (s : State) (who : Requester) (msg : Msg) (tok : BitVec 24) (req : AtomReq),
    (msg.kind = .data → 29 ≤ msg.chan.toNat → s.delivery { who := who, msg := msg, tok := tok } = .here → s.me.fenced = false → s.cl.power ≠ .hold → s.cl.clockStop = false →
      ∃ t, exec (.messageArrival who msg tok) s = .next t ∧ Answered s t who 0x05 ∧ (s.mesh = [] → t.inbox = s.inbox)) ∧
    (∃ t, exec (.atomicRequestArrival req) s = .next t ∧ t.inbox = s.inbox)

/-- R263: each pointer operation of major 0x01 but `mkref` writes pd as its row says, and completes; nothing else changes but the
PC. Both operands are read before pd is written; the immediate is widened by a pending `ext` (R250). -/
def Claim.PointerArithmetic : Prop :=
  ∀ (s : State) (pd ps : PReg), FromDecoder s →
    let d := s.act.p[pd]
    let q := s.act.p[ps]
    let wr (r : Ptr) : Out := .next (completed s fun a => a.setP pd r)
    let v (w : Word) : Out := wr { val := w, step := d.step, tag := false }
    exec (.pmov pd ps) s = wr q ∧
    exec (.padd pd ps) s = v (d.val + q.val) ∧
    exec (.psub pd ps) s = v (d.val - q.val) ∧
    exec (.pand pd ps) s = v (d.val &&& q.val) ∧
    exec (.por pd ps) s = v (d.val ||| q.val) ∧
    exec (.pxor pd ps) s = v (d.val ^^^ q.val) ∧
    (∀ n : BitVec 6, exec (.pshl pd ps n) s = v (q.val <<< n.toNat) ∧ exec (.pshr pd ps n) s = v (q.val >>> n.toNat)) ∧
    (∀ n : BitVec 3, exec (.pscal pd ps n) s = v (d.val + (q.val <<< n.toNat))) ∧
    (∀ i : BitVec 16,
      exec (.paddi pd ps i) s = v (q.val + s.act.wide i) ∧
      exec (.pset pd i) s = v (s.act.wide i) ∧
      exec (.pseth pd i) s = v ((s.act.wide i <<< 16) ||| (d.val &&& 0xFFFF#64)) ∧
      exec (.pstep pd i) s = wr { val := d.val, step := i, tag := false }) ∧
    exec (.pclr pd) s = wr { val := 0, step := 0, tag := false }

/-- R250: the immediate of 16, 12 or 9 bits is sign-extended; with an `ext` prefix pending it is the low part of a number whose high
part is the payload. -/
def Claim.ImmediateWidening : Prop :=
  ∀ (a : Act) (i16 : BitVec 16) (i12 : BitVec 12) (i9 : BitVec 9),
    ((∀ p x, a.pfx = some p → p.kind ≠ .ext x) →
      (a.wide i16).toInt = i16.toInt ∧ (a.wide i12).toInt = i12.toInt ∧ (a.wide i9).toInt = i9.toInt) ∧
    (∀ p x, a.pfx = some p → p.kind = .ext x →
      (a.wide i16).toInt = x.toInt * 2 ^ 16 + i16.toNat ∧
      (a.wide i12).toInt = x.toInt * 2 ^ 12 + i12.toNat ∧
      (a.wide i9).toInt = x.toInt * 2 ^ 9 + i9.toNat)

/-- R140, R265: `mkref` refuses, in this order, an address that is not own-space (0x03), not a line (0x02), in the control window
(0x05) or in a hole (0x04), and else writes the reference of the place and keeps the step of ps. -/
def Claim.MakeReference : Prop :=
  ∀ (s : State) (pd ps : PReg), FromDecoder s →
    let a := s.act.p[ps].val
    (a.extractLsb' 34 30 ≠ 0 → exec (.mkref pd ps) s = trapsWith s 0x03 a) ∧
    (a.extractLsb' 34 30 = 0 → a.extractLsb' 0 7 ≠ 0 → exec (.mkref pd ps) s = trapsWith s 0x02 a) ∧
    (a.extractLsb' 34 30 = 0 → a.extractLsb' 0 7 = 0 → 0x2F0000000 ≤ a.toNat → a.toNat < 0x2F1000000 →
      exec (.mkref pd ps) s = trapsWith s 0x05 a) ∧
    (a.extractLsb' 34 30 = 0 → a.extractLsb' 0 7 = 0 → (a.toNat < 0x2F0000000 ∨ 0x2F1000000 ≤ a.toNat) →
      s.cl.window a.toNat = .hole → exec (.mkref pd ps) s = trapsWith s 0x04 a) ∧
    (a.extractLsb' 34 30 = 0 → a.extractLsb' 0 7 = 0 → (a.toNat < 0x2F0000000 ∨ 0x2F1000000 ≤ a.toNat) →
      s.cl.window a.toNat ≠ .hole →
      exec (.mkref pd ps) s = .next (completed s fun x =>
        x.setP pd { val := s.cl.place ||| (a &&& 0x3FFFFFFFF#64), step := x.p[ps].step, tag := true }))

/-- Pointer operations, the widening of immediates, and mkref. -/
def Obligations.Pointers : Prop :=
  Claim.PointerArithmetic ∧ Claim.ImmediateWidening ∧ Claim.MakeReference

/-- R232, R267: the pointer compare-and-branch tests values, or pd's tag, ignores all else, and is taken to PC + 4 × the offset; one
that is not taken completes and changes nothing but the PC. -/
def Claim.PointerBranches : Prop :=
  ∀ (s : State) (pd ps : PReg) (off : BitVec 16), FromDecoder s →
    let d := s.act.p[pd]
    let q := s.act.p[ps]
    let on (taken : Prop) [Decidable taken] : Out :=
      if taken then branchTo s (s.act.pc + 4 * s.act.wide off) else .next (completed s id)
    exec (.pbeq pd ps off) s = on (d.val = q.val) ∧
    exec (.pbne pd ps off) s = on (d.val ≠ q.val) ∧
    exec (.pblt pd ps off) s = on (d.val.toInt < q.val.toInt) ∧
    exec (.pbge pd ps off) s = on (q.val.toInt ≤ d.val.toInt) ∧
    exec (.pbltu pd ps off) s = on (d.val.toNat < q.val.toNat) ∧
    exec (.pbgeu pd ps off) s = on (q.val.toNat ≤ d.val.toNat) ∧
    exec (.pbtag pd off) s = on (d.tag = true) ∧
    exec (.pbnt pd off) s = on (d.tag = false)

/-- R233, R268: `br` and the flag conditions branch to PC + 4 × sext(off22); a flag condition reads F once no older part waits in
the execute half. `call` writes P7 := PC + 4, untagged and with step 0, and keeps the loop state. -/
def Claim.BranchesAndCall : Prop :=
  ∀ (s : State) (off : BitVec 22), InOrder s →
    let t := s.act.pc + 4 * off.signExtend 64
    let f := s.act.f
    let on (taken : Bool) : Out := if taken then branchTo s t else .next (completed s id)
    exec (.br off) s = branchTo s t ∧
    exec (.bz off) s = on f.z ∧ exec (.bnz off) s = on (!f.z) ∧
    exec (.bn off) s = on f.n ∧ exec (.bnn off) s = on (!f.n) ∧
    exec (.bc off) s = on f.c ∧ exec (.bnc off) s = on (!f.c) ∧
    exec (.bo off) s = on f.o ∧ exec (.bno off) s = on (!f.o) ∧
    exec (.bx off) s = on f.x ∧ exec (.bnx off) s = on (!f.x) ∧
    (t.extractLsb' 34 30 ≠ 0 → exec (.call off) s = trapsWith s 0x03 t) ∧
    (t.extractLsb' 34 30 = 0 → t.extractLsb' 0 2 ≠ 0 → exec (.call off) s = trapsWith s 0x02 t) ∧
    (t.extractLsb' 34 30 = 0 → t.extractLsb' 0 2 = 0 →
      exec (.call off) s = .next (branched s t fun a => a.setP 7 { val := s.act.pc + 4, step := 0, tag := false }))

/-- R271: the forms of major 0x06, for a target that R266 admits and for one that it refuses. -/
def Claim.Jumps : Prop :=
  ∀ (s : State) (pd ps : PReg), FromDecoder s →
    let t := s.act.p[ps].val
    let r := s.act.p[(7 : PReg)].val
    exec (.jmp ps) s = branchTo s t ∧
    (targetFault t = none →
      exec (.jal pd ps) s = .next (branched s t fun a => a.setP pd { val := s.act.pc + 4, step := 0, tag := false })) ∧
    (∀ c, targetFault t = some c → exec (.jal pd ps) s = trapsWith s c t) ∧
    (targetFault r = none → exec .ret s = .next (branched s r id)) ∧
    (∀ c, targetFault r = some c → exec .ret s = trapsWith s c r)

/-- Compare-and-branch on pointers, branches on flags, call, and jumps. -/
def Obligations.Branches : Prop :=
  Claim.PointerBranches ∧ Claim.BranchesAndCall ∧ Claim.Jumps

/-- R234, R269: a branch on XQ pops the head word whether or not it is taken; one that faults under R266 leaves the word at the head of XQ;
with no filled word there it waits and changes nothing else. It is encoded `000100 _ cond _ off22`, and conditions 0x6 to 0xF are reserved. -/
def Obligations.QueueBranches : Prop :=
  ∀ (s : State) (off : BitVec 22), FromDecoder s →
    let t := s.act.pc + 4 * off.signExtend 64
    let forms : List (Instr × (Word → Bool)) :=
      [(.bxz off, fun x => x == 0), (.bxnz off, fun x => x != 0), (.bxs off, fun x => x.getLsbD 63),
       (.bxns off, fun x => !x.getLsbD 63), (.bxt off, fun x => x.getLsbD 0), (.bxf off, fun x => !x.getLsbD 0)]
    ∀ i c, (i, c) ∈ forms →
      (∀ x rest, s.act.xq = .filled x :: rest →
        let s1 := s.mapAct fun a => { a with xq := rest }
        (c x = false → exec i s = .next (completed s1 id)) ∧
        (c x = true → targetFault t = none → exec i s = branchTo s1 t) ∧
        (∀ e, c x = true → targetFault t = some e → exec i s = trapsWith s e t)) ∧
      ((∀ x rest, s.act.xq ≠ .filled x :: rest) →
        exec i s = .next { s with act := { s.act with blocked := true, stalled := true } }) ∧
      (∃ cond : Fin 6, (forms.map Prod.fst)[cond.val]? = some i ∧ encode i = some (0b000100#6 ++ BitVec.ofNat 4 cond.val ++ off)) ∧
      (∀ cond : BitVec 4, 6 ≤ cond.toNat → (decode (0b000100#6 ++ cond ++ off)).toOption = none)

/-- R273: `loop` and `loopi` fault with 0x05 while a loop is active; else a count of zero skips the body, and any other count sets
the loop state and goes on with the body. -/
def Claim.LoopStart : Prop :=
  ∀ (s : State) (ps : PReg) (m : BitVec 6) (len : BitVec 16), FromDecoder s →
    let len4 : Word := 4 * len.setWidth 64
    let starts (i : Instr) (n : Word) : Prop :=
      (s.act.loop.count ≠ 0 → exec i s = trapsWith s 0x05 0) ∧
      (s.act.loop.count = 0 → n = 0 → exec i s = .next (branched s (s.act.pc + len4 + 4) id)) ∧
      (s.act.loop.count = 0 → n ≠ 0 →
        exec i s = .next (branched s (s.act.pc + 4) fun a =>
          { a with loop := { count := n, start := s.act.pc + 4, stop := s.act.pc + len4 } }))
    starts (.loop ps len) s.act.p[ps].val ∧ starts (.loopi m len) (m.setWidth 64)

/-- R274: where the word after which the PC moves on stands at the end of an active loop, the count falls by one, and the next PC is
the loop's start, or with a count of 0 the loop state is cleared and the next PC is PC + 4, which is also the next PC of every other
word. Nothing else changes. -/
def Claim.LoopEnd : Prop :=
  ∀ a : Act,
    (a.loop.count = 0 ∨ a.pc ≠ a.loop.stop → a.nextPc = { a with pc := a.pc + 4 }) ∧
    (a.loop.count ≠ 0 → a.loop.count ≠ 1 → a.pc = a.loop.stop →
      a.nextPc = { a with pc := a.loop.start, loop := { a.loop with count := a.loop.count - 1 } }) ∧
    (a.loop.count = 1 → a.pc = a.loop.stop →
      a.nextPc = { a with pc := a.pc + 4, loop := { count := 0, start := 0, stop := 0 } })

/-- The start and the end of a zero-overhead loop. -/
def Obligations.Loops : Prop :=
  Claim.LoopStart ∧ Claim.LoopEnd

/-- R280, R281: a load form of majors 0x08 and 0x0B whose operand is there appends the entry to LDQ and updates its pointer, tag
clear and step kept; the l and rl forms have the same effect. -/
def Claim.QueueLoads : Prop :=
  ∀ (s t : State) (p : PReg) (am : Am) (ty : Ty) (d : BitVec 12) (e : QEntry), FromDecoder s → s.act.ldqRoom = true →
    let loads (i : Instr) (q : QUnit) : Prop :=
      let x := accessOf s.act.p[p] am (s.act.wide d) q ty
      Reads s x ty q false e t →
        exec i s = .next (completed t fun a => { a.bump p am x.np with ldq := s.act.ldq ++ [.filled e] })
    loads (.lq p am ty d) .element ∧ loads (.rl p am ty d) .element ∧ loads (.lqv p am ty d) .group ∧
    loads (.rlv p am ty d) .group ∧ loads (.lql p am ty d) .line ∧ loads (.rll p am ty d) .line

/-- R278, R288: with no place of LDQ free a load form waits and changes nothing else, unless a check at the cell refuses its
address. -/
def Claim.LoadWaitsForRoom : Prop :=
  ∀ (s : State) (p : PReg) (am : Am) (ty : Ty) (d : BitVec 12), s.act.ldqRoom = false →
    let waits (i : Instr) (q : QUnit) : Prop :=
      let x := accessOf s.act.p[p] am (s.act.wide d) q ty
      (s.cellCheck x = none → exec i s = .next { s with act := { s.act with blocked := true, stalled := true } }) ∧
      (∀ c, s.cellCheck x = some c → exec i s = trapsWith s c x.ea)
    waits (.lq p am ty d) .element ∧ waits (.rl p am ty d) .element ∧ waits (.lqv p am ty d) .group ∧
    waits (.rlv p am ty d) .group ∧ waits (.lql p am ty d) .line ∧ waits (.rll p am ty d) .line

/-- A load of the slot in service changes nothing but the passing of time, which a read of a timebase register lets pass, and the
counter of free values (R280). -/
def Claim.LoadChangesNothing : Prop :=
  ∀ (s t : State) (x : Access) (ty : Ty) (q : QUnit) (ptr : Bool) (e : QEntry), Reads s x ty q ptr e t →
    t = { s with free := t.free, cl := { s.cl with aktime := t.cl.aktime } }

/-- R277, R279, R280: what a load of whole bytes of the own cluster gives: where the port accepts it, the entry holds the bytes
that stand at the address from word 0 up, and an element is extended by the signedness of its type. -/
def Claim.LoadGivesMemory : Prop :=
  ∀ (s : State) (x : Access) (ty : Ty) (q : QUnit) (ptr : Bool) (n : Nat) (site : Site),
    s.act.phase = .none → General s → x.unit = .bytes n → x.bad = false → x.ea.toNat % x.align = 0 → isOwn x.ea = true →
    s.cl.window x.ea.toNat ≠ .ctl → s.checkOwn .load x.ea.toNat = .ok site →
    s.mem.encAt site.key = site.enc → site.key % 128 + n ≤ 128 →
    let bs := s.mem.bytesAt site.key n
    ∃ e, Reads s x ty q ptr e s ∧ e.ty = ty ∧ e.unit = q ∧
      (q = .element → ty.isInt = true → n = tyBytes ty →
        e.data = [if ty.isSigned then BitVec.ofInt 64 ((leNat bs : Int).bmod (256 ^ n)) else BitVec.ofNat 64 (leNat bs)]) ∧
      (q = .element → ty.isInt = false → e.data = [BitVec.ofNat 64 (leNat bs)]) ∧
      (q ≠ .element → e.data = (List.range ((n + 7) / 8)).map fun i => BitVec.ofNat 64 (leNat ((bs.drop (8 * i)).take 8)))

/-- R26, R280: the control window admits no split form: one whose operand lies there, and passes the checks at the cell, raises 0x05 with
the address. -/
def Claim.ControlWindowForms : Prop :=
  ∀ (s : State) (p : PReg) (am : Am) (ty dt : Ty) (r : Rnd) (d : BitVec 12) (d9 : BitVec 9), FromDecoder s → s.act.ldqRoom = true →
    let refused (x : Access) (i : Instr) : Prop :=
      s.isHere x.ea = true → s.cl.window (oaOf x.ea) = .ctl → s.cellCheck x = none → exec i s = trapsWith s 0x05 x.ea
    (∀ i ∈ [Instr.lda p am ty d, .add p am ty d, .sub p am ty d, .rsub p am ty d, .adds p am ty d, .subs p am ty d, .and p am ty d,
        .or p am ty d, .xor p am ty d, .andn p am ty d, .shl p am ty d, .shr p am ty d, .sar p am ty d, .rol p am ty d, .ror p am ty d,
        .min p am ty d, .max p am ty d, .cmp p am ty d, .tst p am ty d, .popc p am ty d, .clz p am ty d, .ctz p am ty d, .bswap p am ty d,
        .mul p am ty d, .mulh p am ty d, .muls p am ty d, .div p am ty d, .rem p am ty d],
      refused (elementOf s p am ty d) i) ∧
    refused (elementOf s p am ty d9) (.cvt p am dt ty r d9) ∧ refused (elementOf s p am ty d9) (.cvts p am dt ty r d9) ∧
    (∀ i ∈ [Instr.vld p am ty d, .vadd p am ty d, .vsub p am ty d, .vmul p am ty d, .vsel p am ty d, .vceq p am ty d],
      refused (groupAt s p am ty d) i)

/-- Loads into LDQ: completion, what they give, what they leave, the wait for room, and the forms of the control window. -/
def Obligations.LoadForms : Prop :=
  Claim.QueueLoads ∧ Claim.LoadWaitsForRoom ∧ Claim.LoadChangesNothing ∧ Claim.LoadGivesMemory ∧ Claim.ControlWindowForms

/-- R12, R13, R27, R29 rows 1 and 2, R277: a load of an address that is neither own-space nor a pod address with bits [35:34] clear,
and a store of one that is not own-space, raise 0x03; else an address that is not a multiple of its unit, and an NF access with a mode
other than 0b00, raise 0x02. The trap is taken on the instruction, with the address, whatever stands in STQ. -/
def Obligations.AddressChecks : Prop :=
  ∀ (s : State) (p : PReg) (am : Am) (ty : Ty) (d : BitVec 12), s.act.phase = .none →
    let own (a : Word) : Prop := a.extractLsb' 34 30 = 0
    let pod (a : Word) : Prop := a.getLsbD 63 = true ∧ a.extractLsb' 34 2 = 0
    let checks (i : Instr) (q : QUnit) (admits : Word → Prop) : Prop :=
      let x := accessOf s.act.p[p] am (s.act.wide d) q ty
      (¬ admits x.ea → exec i s = trapsWith s 0x03 x.ea) ∧
      (admits x.ea → x.bad = true ∨ x.ea.toNat % x.align ≠ 0 → exec i s = trapsWith s 0x02 x.ea)
    checks (.lq p am ty d) .element (fun a => own a ∨ pod a) ∧ checks (.rl p am ty d) .element (fun a => own a ∨ pod a) ∧
    checks (.lqv p am ty d) .group (fun a => own a ∨ pod a) ∧ checks (.rlv p am ty d) .group (fun a => own a ∨ pod a) ∧
    checks (.lql p am ty d) .line (fun a => own a ∨ pod a) ∧ checks (.rll p am ty d) .line (fun a => own a ∨ pod a) ∧
    checks (.sq p am ty d) .element own ∧ checks (.sqv p am ty d) .group own ∧ checks (.sql p am ty d) .line own

/-- R283, R284: a store form of major 0x09 pops the head of STQ, stores it, and updates its pointer; with STQ empty it waits and
changes nothing else. -/
def Claim.QueueStores : Prop :=
  ∀ (s : State) (p : PReg) (am : Am) (ty : Ty) (d : BitVec 12), FromDecoder s →
    let stores (i : Instr) (q : QUnit) : Prop :=
      let x := accessOf s.act.p[p] am (s.act.wide d) q ty
      storeCheck x = none →
      (s.act.stq = [] → exec i s = .next { s with act := { s.act with blocked := true, stalled := true } }) ∧
      (∀ e rest t, s.act.stq = e :: rest → s.store x (storeData e ty x.unit) (ctlWord e ty q x.unit) = .ok t →
        exec i s = .next (completed t fun a => { a.bump p am x.np with stq := rest }))
    stores (.sq p am ty d) .element ∧ stores (.sqv p am ty d) .group ∧ stores (.sql p am ty d) .line

/-- R287: `lp` and `rlp` write the value and the tag of pd and keep its step; `sp` stores value and tag; ps is never updated unless it
is pd. -/
def Claim.PointerLoadsAndStores : Prop :=
  ∀ (s t : State) (pd ps : PReg) (imm : BitVec 16) (e : QEntry), FromDecoder s →
    let q := s.act.p[pd]
    let x : Access := { ea := s.act.p[ps].val + 8 * s.act.wide imm, np := s.act.p[ps].val, unit := .bytes 8, align := 8, bad := false }
    let loaded : Out :=
      .next (completed t fun a => a.setP pd { val := e.data.getD 0 0, step := q.step, tag := e.tags.getLsbD 0 })
    (Reads s x .ref .element true e t → exec (.lp pd ps imm) s = loaded ∧ exec (.rlp pd ps imm) s = loaded) ∧
    (s.store x (.bytes (bytesOf q.val) [q.tag]) (some q.val) = .ok t → exec (.sp pd ps imm) s = .next (completed t id))

/-- Stores from STQ, and pointer loads and stores. -/
def Obligations.StoreForms : Prop :=
  Claim.QueueStores ∧ Claim.PointerLoadsAndStores

/-- R135, R283, R284: what an accepted store of bytes leaves in memory. It is performed at the site that its port gives: each byte
stored reads back; every other byte of the line reads as before to a reader of the same site; every other line keeps its bytes. No
register changes: of the slot, only watches may have been answered. -/
def Claim.StoreWritesBytes : Prop :=
  ∀ (s t : State) (x : Access) (bs : List Byte) (tags : List Bool) (v : Option Word),
    s.mem.wf = true → s.inAtomic = false → s.cl.window x.ea.toNat ≠ .ctl → s.store x (.bytes bs tags) v = .ok t →
    ∃ site, s.checkWrite s.requester .store x.ea.toNat (.bytes bs tags) = .ok site ∧
      t.act = { s.act with watch := t.act.watch, blocked := false } ∧
      (site.key % 128 + bs.length ≤ 128 → 
        (∀ i, i < bs.length → t.mem.viewByte site.enc (site.key + i) = bs.getD i 0) ∧
        (∀ k, k / 128 = site.key / 128 → (k < site.key ∨ site.key + bs.length ≤ k) →
          t.mem.viewByte site.enc k = s.mem.viewByte site.enc k) ∧
        (∀ k, k / 128 ≠ site.key / 128 → t.mem.byteAt k = s.mem.byteAt k ∧ t.mem.encAt k = s.mem.encAt k))

/-- R81, R141, R283: the tags that a store of whole words leaves: of a word stored, the given tag where the page or half has tags = 1,
else clear; of every other word, what it was. In the cistern no tag changes. -/
def Claim.StoreWritesTags : Prop :=
  ∀ (m : Memory) (site : Site) (bs : List Byte) (tags : List Bool),
    m.wf = true → bs.length = 8 * tags.length → site.key % 8 = 0 →
    let m' := m.performBytes site bs tags
    (site.win ≠ .cis → ∀ j, j < tags.length → m'.tagAt (site.key + 8 * j) = (tags.getD j false && site.attr.tags)) ∧
    (∀ k, (k / 8 < site.key / 8 ∨ site.key / 8 + tags.length ≤ k / 8 ∨ site.win = .cis) → m'.tagAt k = m.tagAt k)

/-- R8, R80: memory is read as it was last written: a byte, and any run of bytes, reads back; a byte that is not written stays; a run
reads as the little-endian number that was stored. -/
def Claim.ReadAfterWrite : Prop :=
  ∀ (m : Memory) (a k : Nat) (bs : List Byte), m.wf = true →
    (m.setBytes a bs).bytesAt a bs.length = bs ∧
    ((k < a ∨ a + bs.length ≤ k) → (m.setBytes a bs).byteAt k = m.byteAt k) ∧
    (∀ w : Word, wordOf ((m.setBytes a (bytesOf w)).bytesAt a 8) = w) ∧
    (m.setBytes a bs).wf = true

/-- What a store leaves in memory: its bytes, its tags, and everything else as it was. -/
def Obligations.StoredMemory : Prop :=
  Claim.StoreWritesBytes ∧ Claim.StoreWritesTags ∧ Claim.ReadAfterWrite

/-- R244, R295, R296: a scalar integer instruction whose operand is there computes from A and the element, writes A and F, or F alone
for `cmp` and `tst`, and updates its pointer. -/
def Obligations.ScalarInteger : Prop :=
  ∀ (s t : State) (p : PReg) (am : Am) (ty : Ty) (d : BitVec 12) (e : QEntry),
    let x := elementOf s p am ty d
    Operand s x ty .element e t →
    let a := s.act.a
    let m := e.data.getD 0 0
    let wr (i : Instr) (o : AOut) : Prop :=
      exec i s = .next (completed t fun b => ({ b with a := o.a, f := o.f } : Act).bump p am x.np)
    let fl (i : Instr) (o : AOut) : Prop := exec i s = .next (completed t fun b => ({ b with f := o.f } : Act).bump p am x.np)
    wr (.lda p am ty d) (aluLda ty m) ∧ wr (.add p am ty d) (aluAdd ty a m) ∧ wr (.sub p am ty d) (aluSub ty a m) ∧
    wr (.rsub p am ty d) (aluSub ty m a) ∧ wr (.adds p am ty d) (aluAdds ty a m) ∧ wr (.subs p am ty d) (aluSubs ty a m) ∧
    wr (.and p am ty d) (aluAnd ty a m) ∧ wr (.or p am ty d) (aluOr ty a m) ∧ wr (.xor p am ty d) (aluXor ty a m) ∧
    wr (.andn p am ty d) (aluAndn ty a m) ∧ wr (.shl p am ty d) (aluShl ty a m) ∧ wr (.shr p am ty d) (aluShr ty a m) ∧
    wr (.sar p am ty d) (aluSar ty a m) ∧ wr (.rol p am ty d) (aluRol ty a m) ∧ wr (.ror p am ty d) (aluRor ty a m) ∧
    wr (.min p am ty d) (aluMin ty a m) ∧ wr (.max p am ty d) (aluMax ty a m) ∧ fl (.cmp p am ty d) (aluSub ty a m) ∧
    fl (.tst p am ty d) (aluAnd ty a m) ∧ wr (.popc p am ty d) (aluPopc ty m) ∧ wr (.clz p am ty d) (aluClz ty m) ∧
    wr (.ctz p am ty d) (aluCtz ty m) ∧ wr (.bswap p am ty d) (aluBswap ty m) ∧ wr (.mul p am ty d) (aluMul ty a m) ∧
    wr (.mulh p am ty d) (aluMulh ty a m) ∧ wr (.muls p am ty d) (aluMuls ty a m) ∧ wr (.div p am ty d) (aluDiv ty a m) ∧
    wr (.rem p am ty d) (aluRem ty a m)

/-- R291, R294, R295: sums and differences, for each type, as arithmetic on the low bits of the operands at the type's width: the
result modulo 2^w extended by the type's signedness, and the flags Z, N, C (carry out, or borrow), O (signed overflow), X. -/
def Claim.SumsAndDifferences : Prop :=
  ∀ (ty : Ty) (a b : Word), ty.isInt = true →
    let w := tyBits ty
    let x := a.setWidth w
    let y := b.setWidth w
    let ext (r : BitVec w) : Word := if ty.isSigned then r.signExtend 64 else r.setWidth 64
    aluAdd ty a b =
      { a := ext (x + y),
        f := { z := decide (x + y = 0#w), n := (x + y).msb, c := decide (2 ^ w ≤ x.toNat + y.toNat),
               o := decide (x.msb = y.msb ∧ (x + y).msb ≠ x.msb), x := false } } ∧
    aluSub ty a b =
      { a := ext (x - y),
        f := { z := decide (x = y), n := (x - y).msb, c := decide (x.toNat < y.toNat),
               o := decide (x.msb ≠ y.msb ∧ (x - y).msb ≠ x.msb), x := false } }

/-- R294, R295: the bitwise forms, minimum and maximum, at each width: Z and N from the result, C, O and X clear. -/
def Claim.LogicAndOrder : Prop :=
  ∀ (ty : Ty) (a b : Word), ty.isInt = true →
    let w := tyBits ty
    let x := a.setWidth w
    let y := b.setWidth w
    let plain (r : BitVec w) : AOut :=
      { a := if ty.isSigned then r.signExtend 64 else r.setWidth 64,
        f := { z := decide (r = 0#w), n := r.msb, c := false, o := false, x := false } }
    let less : Bool := if ty.isSigned then x.slt y else x.ult y
    aluLda ty b = plain y ∧ aluAnd ty a b = plain (x &&& y) ∧ aluOr ty a b = plain (x ||| y) ∧ aluXor ty a b = plain (x ^^^ y) ∧
    aluAndn ty a b = plain (x &&& ~~~y) ∧ aluMin ty a b = plain (if less then x else y) ∧ aluMax ty a b = plain (if less then y else x)

/-- R228, R294, R295: shifts and rotates at each width, for every count: a count of the width or more gives 0, or copies of the top
bit for `sar`, whatever the type's signedness; C is the last bit shifted out, 0 for a count of 0, and above the width 0, or the top bit for
`sar`; a rotate takes its count modulo the width and clears C. -/
def Claim.ShiftsAndRotates : Prop :=
  ∀ (ty : Ty) (a b : Word), ty.isInt = true →
    let w := tyBits ty
    let x := a.setWidth w
    let n := (b.setWidth w).toNat
    let out (r : BitVec w) (c : Bool) : AOut :=
      { a := if ty.isSigned then r.signExtend 64 else r.setWidth 64,
        f := { z := decide (r = 0#w), n := r.msb, c := c, o := false, x := false } }
    aluShl ty a b = out (if w ≤ n then 0#w else x <<< n) (n != 0 && decide (n ≤ w) && x.getLsbD (w - n)) ∧
    aluShr ty a b = out (if w ≤ n then 0#w else x >>> n) (n != 0 && decide (n ≤ w) && x.getLsbD (n - 1)) ∧
    aluSar ty a b = out (x.sshiftRight (min n w)) (n != 0 && if w ≤ n then x.msb else x.getLsbD (n - 1)) ∧
    aluRol ty a b = out (x.rotateLeft (n % w)) false ∧
    aluRor ty a b = out (x.rotateRight (n % w)) false

/-- R294, R296: products and quotients of the operands read by the type's signedness. `mul` gives the low bits, with C and O where the
exact product leaves the range; `mulh` the high bits; division truncates toward zero and never traps: by 0 the quotient is all ones and
the remainder is a, the least signed value by -1 gives itself and 0, and those two cases alone set O. -/
def Claim.ProductsAndQuotients : Prop :=
  ∀ (ty : Ty) (a b : Word), ty.isInt = true →
    let w := tyBits ty
    let val (x : BitVec w) : Int := if ty.isSigned then x.toInt else x.toNat
    let x := a.setWidth w
    let y := b.setWidth w
    let lo : Int := if ty.isSigned then -(2 ^ (w - 1)) else 0
    let hi : Int := if ty.isSigned then 2 ^ (w - 1) - 1 else 2 ^ w - 1
    let out (r : BitVec w) (c o : Bool) : AOut :=
      { a := if ty.isSigned then r.signExtend 64 else r.setWidth 64,
        f := { z := decide (r = 0#w), n := r.msb, c := c, o := o, x := false } }
    let ovf : Bool := decide (val x * val y < lo ∨ hi < val x * val y)
    let corner : Bool := decide (y = 0#w ∨ (ty.isSigned = true ∧ val x = lo ∧ val y = -1))
    aluMul ty a b = out (x * y) ovf ovf ∧
    aluMulh ty a b = out (BitVec.ofInt w (val x * val y / 2 ^ w)) false false ∧
    aluDiv ty a b = out (if y = 0#w then BitVec.allOnes w else if corner then x else BitVec.ofInt w ((val x).tdiv (val y))) false corner ∧
    aluRem ty a b = out (if y = 0#w then x else if corner then 0#w else BitVec.ofInt w ((val x).tmod (val y))) false corner

/-- R294, R295, R296: the saturating forms give the exact sum, difference or product where the type holds it and else its nearest value,
and O says that it saturated; C is 0. -/
def Claim.Saturation : Prop :=
  ∀ (ty : Ty) (a b : Word), ty.isInt = true →
    let w := tyBits ty
    let val (x : Word) : Int := if ty.isSigned then (x.setWidth w).toInt else (x.setWidth w).toNat
    let lo : Int := if ty.isSigned then -(2 ^ (w - 1)) else 0
    let hi : Int := if ty.isSigned then 2 ^ (w - 1) - 1 else 2 ^ w - 1
    let sat (n : Int) (r : AOut) : Prop :=
      val r.a = max lo (min hi n) ∧ (r.f.o = true ↔ n < lo ∨ hi < n) ∧ (r.f.z = true ↔ val r.a = 0) ∧ r.f.c = false ∧ r.f.x = false ∧
      r.a = BitVec.ofInt 64 (val r.a)
    sat (val a + val b) (aluAdds ty a b) ∧ sat (val a - val b) (aluSubs ty a b) ∧ sat (val a * val b) (aluMuls ty a b)

/-- R295: the bit counts and the byte reversal. -/
def Claim.BitCounts : Prop :=
  ∀ (ty : Ty) (b : Word), ty.isInt = true →
    let w := tyBits ty
    let y := b.setWidth w
    (aluPopc ty b).a = BitVec.ofNat 64 ((List.range w).countP fun i => y.getLsbD i) ∧
    (∀ k, k < w → y.getLsbD k = true → (∀ i, i < k → y.getLsbD i = false) → (aluCtz ty b).a = BitVec.ofNat 64 k) ∧
    (∀ k, k < w → y.getLsbD (w - 1 - k) = true → (∀ i, i < k → y.getLsbD (w - 1 - i) = false) → (aluClz ty b).a = BitVec.ofNat 64 k) ∧
    (y = 0#w → (aluCtz ty b).a = BitVec.ofNat 64 w ∧ (aluClz ty b).a = BitVec.ofNat 64 w) ∧
    (∀ j k, j < w / 8 → k < 8 → (aluBswap ty b).a.getLsbD (8 * j + k) = y.getLsbD (8 * (w / 8 - 1 - j) + k))

/-- Sums, differences, bitwise forms, order, shifts, rotates, products, quotients, saturating forms and bit counts with their flags. -/
def Obligations.IntegerArithmetic : Prop :=
  Claim.SumsAndDifferences ∧ Claim.LogicAndOrder ∧ Claim.ShiftsAndRotates ∧ Claim.ProductsAndQuotients ∧ Claim.Saturation ∧ Claim.BitCounts

/-- R126: what each rounding mode makes of the magnitude m / 2^k, of sign `neg`: to nearest with ties to even, toward zero, down and up by
the sign, and the stochastic rule on the first 32 fraction bits and the draw. A whole number stays as it is. -/
def Claim.RoundingModes : Prop :=
  ∀ (m k draw : Nat) (neg : Bool),
    let q := m / 2 ^ k
    let r := m % 2 ^ k
    let rnd (rm : Rnd) : Nat := roundShift m k rm neg draw
    (r = 0 → draw < 2 ^ 32 → ∀ rm, rnd rm = q) ∧
    (2 * rnd .rne * 2 ^ k ≤ 2 * m + 2 ^ k ∧ 2 * m ≤ 2 * rnd .rne * 2 ^ k + 2 ^ k ∧ (2 * r = 2 ^ k → rnd .rne % 2 = 0)) ∧
    (rnd .rtz = q) ∧
    (rnd .rdn = if neg = true ∧ 0 < r then q + 1 else q) ∧
    (rnd .rup = if neg = false ∧ 0 < r then q + 1 else q) ∧
    (rnd .rst = if 0 < r ∧ 2 ^ 32 - r * 2 ^ 32 / 2 ^ k ≤ draw then q + 1 else q)

/-- R113, R297: an operation with a NaN operand gives the first one with its quiet bit set; `fmin` and `fmax` give the other operand
when exactly one is a NaN; an invalid operation without one gives the default NaN; the sign-bit forms change the sign bit alone. -/
def Claim.NaNRules : Prop :=
  ∀ f ∈ [Fmt.fp16, Fmt.bf16, Fmt.fp32, Fmt.fp64], ∀ (rm : Rnd) (draw x y : Nat), x < 2 ^ f.width → y < 2 ^ f.width →
    let nan (b : Nat) : Bool := (fdecode f b).isNan
    let quiet (b : Nat) : Nat := b ||| 2 ^ (f.mb - 1)
    (nan x = true →
      (fadd f rm draw x y).bits = quiet x ∧ (fsub f rm draw x y).bits = quiet x ∧ (fmul f rm draw x y).bits = quiet x ∧
      (fdiv f rm draw x y).bits = quiet x ∧ (fsqrt f rm draw x).bits = quiet x ∧ (frint f rm draw x).bits = quiet x) ∧
    (nan x = false → nan y = true →
      (fadd f rm draw x y).bits = quiet y ∧ (fsub f rm draw x y).bits = quiet y ∧ (fmul f rm draw x y).bits = quiet y ∧
      (fdiv f rm draw x y).bits = quiet y) ∧
    (∀ b, (nan x = true → nan y = false → fminmax f b x y = y) ∧ (nan x = false → nan y = true → fminmax f b x y = x) ∧
      (nan x = true → nan y = true → fminmax f b x y = quiet x)) ∧
    (∀ s, (fsub f rm draw (finf f s) (finf f s)).bits = fnanDefault f ∧
      (fmul f rm draw (finf f s) (fzero f s)).bits = fnanDefault f ∧ (fdiv f rm draw (fzero f s) (fzero f s)).bits = fnanDefault f) ∧
    (∀ i, (fabsBits f x).testBit i = (x.testBit i && i != f.width - 1) ∧
      (fnegate f x).testBit i = (x.testBit i != (i == f.width - 1))) ∧
    (nan x = true → nan (quiet x) = true)

/-- R118, R120: encoding the value of a finite code gives that code back, in every mode of rounding and with nothing reported, for every
valid descriptor. -/
def Claim.EncodingInvertsDecoding : Prop :=
  ∀ (w : BitVec 64) (c draw : Nat) (rm : Rnd) (sat : Bool), fmtValid w = true →
    let d := Desc.of (w.extractLsb' 0 24)
    c < 2 ^ d.width →
    ∀ n m e, nfDecode d c = .fin n m e → nfEncode d rm sat draw (.fin n m e) = { code := c, inv := false, ovf := false, inexact := false }

/-- R119, R174: writing an element of w bits at a place of a line sets those bits and no others. -/
def Claim.PackedElements : Prop :=
  ∀ (bs : List Byte) (lo w v : Nat), w ≤ 8 → lo + w ≤ 8 * bs.length →
    (setBits bs lo w v).length = bs.length ∧
    bitsOf (setBits bs lo w v) lo w = v % 2 ^ w ∧
    (∀ i, i < 8 * bs.length → i < lo ∨ lo + w ≤ i →
      ((setBits bs lo w v).getD (i / 8) 0).getLsbD (i % 8) = (bs.getD (i / 8) 0).getLsbD (i % 8))

/-- R126, R128, R294, R297: a scalar floating instruction whose operand is there, under the mode in force; the stochastic mode takes one
draw. `fmin`, `fmax` and the sign-bit forms do not round. `fcmp` writes F alone and `fclass` A alone. -/
def Claim.ScalarFloat : Prop :=
  ∀ (s t : State) (p : PReg) (am : Am) (ty : Ty) (r : Rnd) (d : BitVec 9) (e : QEntry),
    let x := elementOf s p am ty d
    Operand s x ty .element e t →
    let f := tyFmt ty
    let rm := t.rm r
    let dr := takeDraw rm t.seed
    let a := readBits ty s.act.a
    let m := readBits ty (e.data.getD 0 0)
    let rounds (i : Instr) (res : FRes) : Prop :=
      exec i s = .next (completed (t.setSeed dr.1) fun b => (b.setAF (floatOut f res res.ovf)).bump p am x.np)
    let plain (i : Instr) (g : Act → Act) : Prop := exec i s = .next (completed t fun b => (g b).bump p am x.np)
    rounds (.fadd p am ty r d) (fadd f rm dr.2 a m) ∧ rounds (.fsub p am ty r d) (fsub f rm dr.2 a m) ∧
    rounds (.frsub p am ty r d) (fsub f rm dr.2 m a) ∧ rounds (.fmul p am ty r d) (fmul f rm dr.2 a m) ∧
    rounds (.fdiv p am ty r d) (fdiv f rm dr.2 a m) ∧ rounds (.frdiv p am ty r d) (fdiv f rm dr.2 m a) ∧
    rounds (.fsqrt p am ty r d) (fsqrt f rm dr.2 m) ∧ rounds (.fmin p am ty r d) (nanRes (fminmax f false a m)) ∧
    rounds (.fmax p am ty r d) (nanRes (fminmax f true a m)) ∧ rounds (.frnd p am ty r d) (frint f rm dr.2 m) ∧
    rounds (.fscale p am ty r d) (fscaleBits f rm dr.2 a m) ∧
    plain (.fabs p am ty d) (fun b => b.setAF (floatOut f (nanRes (fabsBits f m)) false)) ∧
    plain (.fneg p am ty d) (fun b => b.setAF (floatOut f (nanRes (fnegate f m)) false)) ∧
    plain (.fcmp p am ty d) (fun b => { b with f := fcmpFlags f a m }) ∧
    plain (.fclass p am ty d) (fun b => b.setA (BitVec.ofNat 64 (fclassMask f m)))

/-- R124, R292, R298: the scalar conversions: an integer or floating element is converted as it stands, an NF element as the binary32
number that it decodes to, whose rounding the flags include; a NaN scale traps with 0x12 unless `ctl.round`.nsc is set. -/
def Claim.ScalarConversions : Prop :=
  ∀ (s t : State) (p : PReg) (am : Am) (dt ty : Ty) (r : Rnd) (d : BitVec 9) (e : QEntry),
    let x := elementOf s p am ty d
    Operand s x ty .element e t →
    let rm := t.rm r
    let gives (i : Instr) (o : BitVec 32 × AOut) : Prop :=
      exec i s = .next (completed (t.setSeed o.1) fun b => (b.setAF o.2).bump p am x.np)
    let nf := entryElem e t.nsc rm t.seed
    let fromNf (sat : Bool) : BitVec 32 × AOut :=
      let res := cvtFromFloat Fmt.fp32 dt sat rm nf.seed (laneNat nf.v 0)
      (res.1, { res.2 with f := res.2.f.orLane nf.l })
    let traps (i : Instr) : Prop := exec i s = trapsWith t 0x12 (scaleLine e x.ea (s.act.wide d).toNat)
    (ty.isNf = false → gives (.cvt p am dt ty r d) (cvtWord ty dt false rm t.seed (e.data.getD 0 0)) ∧
      gives (.cvts p am dt ty r d) (cvtWord ty dt true rm t.seed (e.data.getD 0 0))) ∧
    (ty.isNf = true → entryNan e = false ∨ t.nsc = true →
      gives (.cvt p am dt ty r d) (fromNf false) ∧ gives (.cvts p am dt ty r d) (fromNf true)) ∧
    (ty.isNf = true → entryNan e = true → t.nsc = false → traps (.cvt p am dt ty r d) ∧ traps (.cvts p am dt ty r d))

/-- Rounding, NaNs, number-format codes and packed elements; scalar floating-point instructions and conversions. -/
def Obligations.FloatRulesAndScalarFloat : Prop :=
  Claim.RoundingModes ∧ Claim.NaNRules ∧ Claim.EncodingInvertsDecoding ∧ Claim.PackedElements ∧ Claim.ScalarFloat ∧ Claim.ScalarConversions

/-- R299: a vector integer instruction whose operand is there writes every lane of V by its row, modulo 2^32, clears vtag, leaves F
but for the O of the saturating forms, and updates its pointer. `vld` of a ref group brings the tags. -/
def Claim.VectorInteger : Prop :=
  ∀ (s t : State) (p : PReg) (am : Am) (ty : Ty) (d : BitVec 12) (e : QEntry),
    let x := groupAt s p am ty d
    Operand s x ty .group e t →
    let m := entryInts e
    let v := s.act.v
    let does (i : Instr) (g : Act → Act) : Prop := exec i s = .next (completed t fun b => (g b).bump p am x.np)
    let each (i : Instr) (g : Lane → Lane → Lane) : Prop := does i fun b => { b with v := lanes fun k => g v[k] m[k], vtag := 0 }
    let num (y : Lane) : Int := if ty.isSigned then y.toInt else y.toNat
    let lo : Int := if ty.isSigned then -(2 ^ 31) else 0
    let hi : Int := if ty.isSigned then 2 ^ 31 - 1 else 2 ^ 32 - 1
    let sats (i : Instr) (g : Int → Int → Int) : Prop := does i fun b =>
      { b with v := lanes fun k => BitVec.ofInt 32 (max lo (min hi (g (num v[k]) (num m[k])))), vtag := 0,
               f := { b.f with o := anyLane fun k => decide (g (num v[k]) (num m[k]) < lo ∨ hi < g (num v[k]) (num m[k])) } }
    (ty ≠ .ref → does (.vld p am ty d) fun b => { b with v := m, vtag := 0 }) ∧
    (ty = .ref → does (.vld p am ty d) fun b => { b with v := pairLanes e.data, vtag := e.tags }) ∧
    each (.vadd p am ty d) (fun y z => y + z) ∧ each (.vsub p am ty d) (fun y z => y - z) ∧
    each (.vrsub p am ty d) (fun y z => z - y) ∧ sats (.vadds p am ty d) (fun y z => y + z) ∧
    sats (.vsubs p am ty d) (fun y z => y - z) ∧ each (.vand p am ty d) (fun y z => y &&& z) ∧
    each (.vor p am ty d) (fun y z => y ||| z) ∧ each (.vxor p am ty d) (fun y z => y ^^^ z) ∧
    each (.vandn p am ty d) (fun y z => y &&& ~~~z) ∧ each (.vshl p am ty d) (fun y z => y <<< z.toNat) ∧
    each (.vshr p am ty d) (fun y z => y >>> z.toNat) ∧ each (.vsar p am ty d) (fun y z => y.sshiftRight z.toNat) ∧
    each (.vmin p am ty d) (fun y z => if num y ≤ num z then y else z) ∧
    each (.vmax p am ty d) (fun y z => if num y ≤ num z then z else y) ∧ each (.vmul p am ty d) (fun y z => y * z) ∧
    each (.vmulh p am ty d) (fun y z => BitVec.ofInt 32 (num y * num z / 2 ^ 32)) ∧
    each (.vmac p am ty d) (fun y z => y + z * s.act.a.extractLsb' 0 32) ∧
    each (.vabs p am ty d) (fun _ z => if num z < 0 then -z else z) ∧ each (.vneg p am ty d) (fun _ z => -z) ∧
    each (.vpopc p am ty d) (fun _ z => BitVec.ofNat 32 ((List.range 32).countP fun k => z.getLsbD k))

/-- R244, R283, R295, R299, R302, R303, R304: a split store whose store is accepted completes with its pointer updated: `sta` stores the
low bytes of A, `vst` the low bytes of the lanes or the pairs with their tags, and the encoding forms what their encoding gives, with
C, O and X from the lanes and the draws taken; an encoding that cannot be made traps. -/
def Claim.SplitStores : Prop :=
  ∀ (s t : State) (p : PReg) (am : Am) (ty : Ty) (r : Rnd) (d12 : BitVec 12) (d9 : BitVec 9),
    let x := elementOf s p am ty d12
    let g := groupAt s p am ty d12
    let y := groupAt s p am ty d9
    (Stores s x (.bytes ((bytesOf s.act.a).take (tyBytes ty)) (List.replicate (tyBytes ty / 8) false)) t →
      exec (.sta p am ty d12) s = .next (completed t fun b => b.bump p am x.np)) ∧
    (Stores s g (vstData s.act ty) t → exec (.vst p am ty d12) s = .next (completed t fun b => b.bump p am g.np)) ∧
    (let enc (i : Instr) (out : Enc) : Prop :=
       (∀ data l seed, out = .data data l seed → Stores s y data t →
         exec i s = .next (completed (t.setSeed seed) fun b =>
           ({ b with f := { b.f with c := l.c, o := l.o, x := l.x } } : Act).bump p am y.np)) ∧
       (∀ c addr, out = .bad c addr → InOrder s → storeCheck y = none → s.act.stqRoom = true → exec i s = trapsWith s c addr)
     enc (.vfst p am ty r d9) (s.encLanes ty false r y) ∧ enc (.vpack p am ty r d9) (s.encLanes ty true r y) ∧
     enc (.vpacks p am ty r d9) (s.packBlock r y) ∧
     enc (.vpacki p am ty d9)
       (.data (.bytes (s.act.v.toList.flatMap fun l => leBytes (tyBytes ty) (writeInt ty (clampTo ty l.toInt)).toNat)
           (List.replicate (tyBytes ty * 4) false))
         { c := false, o := anyLane (fun k => !inRange ty s.act.v[k].toInt), x := false } s.seed))

/-- Vector integer instructions, and the split stores of A and V. -/
def Obligations.VectorIntegerAndSplitStores : Prop :=
  Claim.VectorInteger ∧ Claim.SplitStores

/-- R124, R128, R294, R300, R303: a vector floating or converting instruction whose operand is there decodes the group, computes each lane
with one rounding and, in the stochastic mode, one draw a lane after the draws of the decoding; F takes C, O and X. -/
def Claim.VectorFloat : Prop :=
  ∀ (s t : State) (p : PReg) (am : Am) (ty : Ty) (r : Rnd) (d : BitVec 9) (e : QEntry),
    let x := groupAt s p am ty d
    Operand s x ty .group e t →
    let rm := t.rm r
    let m := entryFloats e t.nsc rm t.seed
    let v := s.act.v.toList
    let a := (s.act.a.extractLsb' 0 32).toNat
    let ends (i : Instr) (dec : LaneFlags) (o : VOut) : Prop :=
      exec i s = .next (completed (t.setSeed o.seed) fun b =>
        ({ b with v := vecOf o.v, vtag := 0,
                  f := { b.f with c := dec.c || o.l.c, o := dec.o || o.l.o, x := o.l.x } } : Act).bump p am x.np)
    let each (i : Instr) (f : Nat → Nat → Nat → FRes) : Prop :=
      ends i m.l (laneMap rm m.seed (fun dr k => f dr (laneNat v k) (laneNat m.v k)) laneIdx)
    let bits (i : Instr) (f : Nat → Nat) : Prop :=
      ends i m.l (laneMap .rne m.seed (fun _ k => nanRes (f (laneNat m.v k))) laneIdx)
    let f := Fmt.fp32
    (Scaled e t →
      bits (.vfld p am ty r d) (fun z => z) ∧ bits (.vfabs p am ty r d) (fabsBits f) ∧ bits (.vfneg p am ty r d) (fnegate f) ∧
      each (.vfadd p am ty r d) (fun dr y z => fadd f rm dr y z) ∧ each (.vfsub p am ty r d) (fun dr y z => fsub f rm dr y z) ∧
      each (.vfrsub p am ty r d) (fun dr y z => fsub f rm dr z y) ∧ each (.vfmul p am ty r d) (fun dr y z => fmul f rm dr y z) ∧
      each (.vfma p am ty r d) (fun dr y z => fmaLane rm dr false y z a) ∧
      each (.vfms p am ty r d) (fun dr y z => fmaLane rm dr true y z a) ∧ each (.vfdiv p am ty r d) (fun dr y z => fdiv f rm dr y z) ∧
      each (.vfsqrt p am ty r d) (fun dr _ z => fsqrt f rm dr z) ∧
      each (.vfmin p am ty r d) (fun _ y z => nanRes (fminmax f false y z)) ∧
      each (.vfmax p am ty r d) (fun _ y z => nanRes (fminmax f true y z)) ∧ each (.vfrnd p am ty r d) (fun dr _ z => frint f rm dr z) ∧
      each (.vfscale p am ty r d) (fun dr y z => fscaleBits f rm dr y z) ∧
      (ty.isInt = false → bits (.vcvtf p am ty r d) (fun z => z) ∧
        ends (.vcvti p am ty r d) m.l (laneToInt rm true m.seed m.v laneIdx))) ∧
    (ty.isInt = true →
      ends (.vcvtf p am ty r d) LaneFlags.none (laneMap rm t.seed
        (fun dr k => fpack Fmt.fp64 f rm (.ofInt (laneInt ty ((entryInts e).toList.getD k 0))) dr) laneIdx) ∧
      exec (.vcvti p am ty r d) s = .next (completed t fun b =>
        ({ b with v := lanes fun k => BitVec.ofInt 32 (min (2 ^ 31 - 1) (laneInt ty (entryInts e)[k])), vtag := 0,
                  f := { b.f with c := false, o := anyLane (fun k => decide (2 ^ 31 ≤ laneInt ty (entryInts e)[k])), x := false } } :
          Act).bump p am x.np)) ∧
    (ty.isInt = false → entryNan e = true → t.nsc = false →
      ∀ i ∈ [Instr.vfld p am ty r d, .vfadd p am ty r d, .vfsub p am ty r d, .vfrsub p am ty r d, .vfmul p am ty r d, .vfma p am ty r d,
             .vfms p am ty r d, .vfdiv p am ty r d, .vfsqrt p am ty r d, .vfmin p am ty r d, .vfmax p am ty r d, .vfabs p am ty r d,
             .vfneg p am ty r d, .vfrnd p am ty r d, .vfscale p am ty r d, .vcvtf p am ty r d, .vcvti p am ty r d],
        exec i s = trapsWith t 0x12 (scaleLine e x.ea (32 * (s.act.wide d).toNat)))

/-- R237, R300: `vfmal` reads two groups, the second by the mode applied again or 128 bytes on, and fuses V + m1 × m2 in every lane. -/
def Claim.FusedLoadPair : Prop :=
  ∀ (s t u v : State) (p : PReg) (am : Am) (ty : Ty) (r : Rnd) (d : BitVec 9) (e1 e2 h1 h2 : QEntry),
    let q := s.act.p[p]
    let x1 := groupAt s p am ty d
    let x2 := x1.second q am (s.act.wide d) ty
    InOrder s → s.act.ldq.length + 2 ≤ Config.ldqSize → s.act.first = none → Reads s x1 ty .group false e1 t →
    Reads (t.mapAct fun b => { b with first := some e1, phase := .none }) x2 ty .group false e2 u →
    PopsPair s e1 e2 u h1 h2 v → Scaled h1 v → Scaled h2 v →
    let rm := v.rm r
    let m1 := entryFloats h1 v.nsc rm v.seed
    let m2 := entryFloats h2 v.nsc rm m1.seed
    let o := laneMap rm m2.seed (fun dr k => fmaLane rm dr false (laneNat s.act.v.toList k) (laneNat m1.v k) (laneNat m2.v k)) laneIdx
    exec (.vfmal p am ty r d) s = .next (completed (v.setSeed o.seed) fun b =>
      ({ b with v := vecOf o.v, vtag := 0,
                f := { b.f with c := m1.l.c || m2.l.c || o.l.c, o := m1.l.o || m2.l.o || o.l.o, x := o.l.x } } : Act).bump p am x2.np)

/-- Vector floating-point instructions. -/
def Obligations.VectorFloat : Prop :=
  Claim.VectorFloat ∧ Claim.FusedLoadPair

/-- R305: a reduction folds A and the lanes that were read into A: the integer forms at 64 bits, the float forms exactly with one rounding,
or by minimum and maximum in lane order; N is the sign of a float result, of a NaN too (R294). -/
def Claim.Reductions : Prop :=
  ∀ (s t : State) (p : PReg) (am : Am) (ty : Ty) (r : Rnd) (d : BitVec 9) (e : QEntry),
    let x := groupAt s p am ty d
    Operand s x ty .group e t →
    let idx := (List.finRange 32).filter fun k => e.mask.getLsbD k.val
    let ints := entryInts e
    let num (y : Lane) : Word := BitVec.ofInt 64 (laneInt ty y)
    let less (y z : Word) : Bool := if ty.isSigned then y.slt z else y.ult z
    let int (i : Instr) (n : Word) : Prop :=
      exec i s = .next (completed t fun b =>
        ({ b with a := n, f := { z := n == 0, n := n.getLsbD 63, c := false, o := false, x := false } } : Act).bump p am x.np)
    let rm := t.rm r
    let m := entryFloats e t.nsc rm t.seed
    let dr := takeDraw rm m.seed
    let a := (s.act.a.extractLsb' 0 32).toNat
    let read := (List.range 32).filter fun k => e.mask.getLsbD k
    let fl (i : Instr) (res : FRes) : Prop :=
      let out := floatOut Fmt.fp32 res res.ovf
      let sign := (fdecode Fmt.fp32 res.bits).neg?
      exec i s = .next (completed (t.setSeed dr.1) fun b =>
        ({ b with a := out.a, f := { out.f with n := sign, c := out.f.c || m.l.c, o := out.f.o || m.l.o } } : Act).bump p am x.np)
    int (.vrsum p am ty d) (idx.foldl (fun acc k => acc + num ints[k]) s.act.a) ∧
    int (.vrmin p am ty d) (idx.foldl (fun acc k => if less (num ints[k]) acc then num ints[k] else acc) s.act.a) ∧
    int (.vrmax p am ty d) (idx.foldl (fun acc k => if less acc (num ints[k]) then num ints[k] else acc) s.act.a) ∧
    int (.vrdot p am ty d) (idx.foldl (fun acc k => acc + BitVec.ofInt 64 (laneInt ty s.act.v[k] * laneInt ty ints[k])) s.act.a) ∧
    (Scaled e t →
      fl (.vfrsum p am ty r d) (exactSum rm dr.2 (termOf a :: read.map fun k => termOf (laneNat m.v k))) ∧
      fl (.vfrmin p am ty r d) (nanRes (read.foldl (fun acc k => fminmax Fmt.fp32 false acc (laneNat m.v k)) a)) ∧
      fl (.vfrmax p am ty r d) (nanRes (read.foldl (fun acc k => fminmax Fmt.fp32 true acc (laneNat m.v k)) a)) ∧
      fl (.vfrdot p am ty r d)
        (exactSum rm dr.2 (termOf a :: read.map fun k => termProd (laneNat s.act.v.toList k) (laneNat m.v k)))) ∧
    (entryNan e = true → t.nsc = false →
      ∀ i ∈ [Instr.vfrsum p am ty r d, .vfrmin p am ty r d, .vfrmax p am ty r d, .vfrdot p am ty r d],
        exec i s = trapsWith t 0x12 (scaleLine e x.ea (32 * (s.act.wide d).toNat)))

/-- R294, R306: a compare writes K, a bit for each lane that was read and meets the condition, and Z and N; `vsel` takes the lanes of the
operand where K is set. -/
def Claim.ComparesAndSelect : Prop :=
  ∀ (s t : State) (p : PReg) (am : Am) (ty : Ty) (d : BitVec 12) (e : QEntry),
    let x := groupAt s p am ty d
    Operand s x ty .group e t →
    let v := s.act.v
    let m := entryInts e
    let num (y : Lane) : Int := if ty.isSigned then y.toInt else y.toNat
    let fm := (entryFloats e t.nsc .rne t.seed).v
    let sets (i : Instr) (c : Fin 32 → Bool) : Prop :=
      ∃ k : BitVec 32, (∀ j : Fin 32, k.getLsbD j.val = (e.mask.getLsbD j.val && c j)) ∧
        exec i s = .next (completed t fun b =>
          ({ b with k := k, f := { b.f with z := k == 0, n := k.getLsbD 31 } } : Act).bump p am x.np)
    sets (.vceq p am ty d) (fun j => v[j] == m[j]) ∧ sets (.vcne p am ty d) (fun j => v[j] != m[j]) ∧
    sets (.vclt p am ty d) (fun j => decide (num v[j] < num m[j])) ∧ sets (.vcle p am ty d) (fun j => decide (num v[j] ≤ num m[j])) ∧
    sets (.vcgt p am ty d) (fun j => decide (num m[j] < num v[j])) ∧ sets (.vcge p am ty d) (fun j => decide (num m[j] ≤ num v[j])) ∧
    (Scaled e t →
      sets (.vfceq p am ty d) (fun j => fpEq v[j].toNat (laneNat fm j.val)) ∧
      sets (.vfclt p am ty d) (fun j => fpLt v[j].toNat (laneNat fm j.val)) ∧
      sets (.vfcle p am ty d) (fun j => fpEq v[j].toNat (laneNat fm j.val) || fpLt v[j].toNat (laneNat fm j.val)) ∧
      sets (.vfcun p am ty d) (fun j => fpUn v[j].toNat (laneNat fm j.val))) ∧
    (entryNan e = true → t.nsc = false →
      ∀ i ∈ [Instr.vfceq p am ty d, .vfclt p am ty d, .vfcle p am ty d, .vfcun p am ty d],
        exec i s = trapsWith t 0x12 (scaleLine e x.ea (32 * (s.act.wide d).toNat))) ∧
    exec (.vsel p am ty d) s = .next (completed t fun b =>
      ({ b with v := lanes fun j => if b.k.getLsbD j.val then (selLanes e)[j] else b.v[j], vtag := 0 } : Act).bump p am x.np)

/-- Reductions over the lanes, vector compares and the select. -/
def Obligations.ReductionsAndCompares : Prop :=
  Claim.Reductions ∧ Claim.ComparesAndSelect

/-- R238, R307: `mov` takes its word from A, K, F, the immediate or the head of LDQ, which it pops, and puts it into A, K, STQ or XQ,
with the tag only from LDQ to STQ; it writes no flags. With nothing at the head of LDQ it waits in the execute half, with its place of XQ
reserved (R247, R270). -/
def Claim.Moves : Prop :=
  ∀ (s : State) (dst : MovDst) (imm : BitVec 16), InOrder s →
    let a := s.act
    let f := a.f
    let bit (b : Bool) (k : Nat) : Nat := if b then 2 ^ k else 0
    let goes (i : Instr) (w : TWord) (ty : Ty) (rest : List LdqPlace) : Prop :=
      (dst = .a → exec i s = .next (completed s fun b => { b with a := w.val, ldq := rest })) ∧
      (dst = .k → exec i s = .next (completed s fun b => { b with k := w.val.extractLsb' 0 32, ldq := rest })) ∧
      (dst = .xq → a.xq.length < Config.xqSize →
        exec i s = .next (completed s fun b => { b with xq := b.xq ++ [.filled w.val], ldq := rest })) ∧
      (dst = .stq → a.stq.length < Config.stqSize →
        ∃ e : QEntry, e.data = [w.val] ∧ e.tags = (if w.tag then 1 else 0) ∧ e.ty = ty ∧ e.unit = .element ∧ e.desc = none ∧
          exec i s = .next (completed s fun b => { b with stq := b.stq ++ [e], ldq := rest }))
    goes (.mov .a dst imm) { val := a.a, tag := false } .u64 a.ldq ∧
    goes (.mov .k dst imm) { val := a.k.setWidth 64, tag := false } .u64 a.ldq ∧
    goes (.mov .f dst imm)
      { val := BitVec.ofNat 64 (bit f.z 4 + bit f.n 3 + bit f.c 2 + bit f.o 1 + bit f.x 0), tag := false } .u64 a.ldq ∧
    goes (.mov .imm dst imm) { val := a.wide imm, tag := false } .u64 a.ldq ∧
    (∀ e rest, a.ldq = .filled e :: rest →
      goes (.mov .ldq dst imm) { val := e.data.getD 0 0, tag := e.tags.getLsbD 0 } .ref rest) ∧
    (a.ldq = [] → (dst = .xq → a.xq.length < Config.xqSize) →
      exec (.mov .ldq dst imm) s = .next (completed s fun b =>
        { b with exq := [{ pc := b.pc, word := b.iw, instr := .mov .ldq dst imm, pfx := b.pfx }],
                 xq := if dst = .xq then b.xq ++ [.reserved] else b.xq }))

/-- R244, R247: an execute-half instruction that finds older ones waiting in the execute half joins them in order, with its own word and
prefix, and the access half goes on; nothing else changes. -/
def Claim.ExecuteHalfQueue : Prop :=
  ∀ (s : State) (i : Instr), FromDecoder s → s.act.exq ≠ [] → s.act.exq.length < Config.exqSize →
    (∃ imm n l, i ∈ [Instr.addi imm, .andi imm, .ori imm, .xori imm, .cmpi imm, .fli imm, .kset imm, .shli n, .shri n, .sari n,
        .vins l, .vext l, .vrot l, .vbcast l, .vsplat, .vzero, .vcomp, .vexpd, .vrev, .kand, .kor, .kxor, .knot, .kpop, .kffs]) →
    exec i s = .next (completed s fun b => { b with exq := b.exq ++ [{ pc := b.pc, word := b.iw, instr := i, pfx := b.pfx }] })

/-- Moves between the queues and the accumulators, and the queue of the execute half. -/
def Obligations.Moves : Prop :=
  Claim.Moves ∧ Claim.ExecuteHalfQueue

/-- R238, R308: the immediate and accumulator forms of major 0x20 on A, V, K and F; each form that writes V clears vtag, and only the
arithmetic and logic forms write F. -/
def Claim.AccumulatorForms : Prop :=
  ∀ (s : State) (imm : BitVec 16) (n : BitVec 6) (l : BitVec 5), InOrder s →
    let a := s.act.a
    let w := s.act.wide imm
    let does (i : Instr) (g : Act → Act) : Prop := exec i s = .next (completed s g)
    let wr (i : Instr) (o : AOut) : Prop := does i fun b => { b with a := o.a, f := o.f }
    wr (.addi imm) (aluAdd .i64 a w) ∧ wr (.andi imm) (aluAnd .i64 a w) ∧ wr (.ori imm) (aluOr .i64 a w) ∧
    wr (.xori imm) (aluXor .i64 a w) ∧ wr (.shli n) (aluShl .i64 a (n.setWidth 64)) ∧ wr (.shri n) (aluShr .i64 a (n.setWidth 64)) ∧
    wr (.sari n) (aluSar .i64 a (n.setWidth 64)) ∧
    does (.cmpi imm) (fun b => { b with f := (aluSub .i64 a w).f }) ∧
    does (.fli imm) (fun b => { b with a := (widen32 Fmt.bf16 imm.toNat).setWidth 64 }) ∧
    does .vsplat (fun b => { b with v := Vector.replicate 32 (a.extractLsb' 0 32), vtag := 0 }) ∧
    does (.vins l) (fun b => { b with v := b.v.set l.toFin (a.extractLsb' 0 32), vtag := 0 }) ∧
    does (.vext l) (fun b => { b with a := b.v[l.toFin].setWidth 64 }) ∧
    does .vzero (fun b => { b with v := Vector.replicate 32 0, vtag := 0 }) ∧
    does (.kset imm) (fun b => { b with k := w.extractLsb' 0 32 }) ∧
    (∀ e rest, s.act.ldq = .filled e :: rest → does .qdrop fun b => { b with ldq := rest })

/-- R298, R305, R308: the conversions in place and the sum of the lanes. -/
def Claim.InPlaceConversions : Prop :=
  ∀ (s : State) (sat : Bool) (r : Rnd) (dt st : Ty), InOrder s →
    let v := s.act.v.toList
    let rm := s.rm r
    let acv := cvtWord st dt sat rm s.seed s.act.a
    let lanesOf (i : Instr) (o : VOut) : Prop :=
      exec i s = .next (completed (s.setSeed o.seed) fun b =>
        { b with v := vecOf o.v, vtag := 0, f := { b.f with c := o.l.c, o := o.l.o, x := o.l.x } })
    let dr := takeDraw rm s.seed
    let sum := exactSum rm dr.2 (laneIdx.map fun k => termOf (laneNat v k))
    let n : Word := BitVec.ofInt 64 ((v.map BitVec.toInt).sum)
    exec (.acvt sat r dt st) s = .next (completed (s.setSeed acv.1) fun b => { b with a := acv.2.a, f := acv.2.f }) ∧
    lanesOf (.vconv sat r true) (laneMap rm s.seed (fun d k => fpack Fmt.fp64 Fmt.fp32 rm (.ofInt (v.getD k 0).toInt) d) laneIdx) ∧
    lanesOf (.vconv sat r false) (laneToInt rm sat s.seed v laneIdx) ∧
    exec (.vsum r true) s = .next (completed (s.setSeed dr.1) fun b =>
      let out := floatOut Fmt.fp32 sum sum.ovf
      { b with a := out.a, f := { out.f with n := (fdecode Fmt.fp32 sum.bits).neg? } }) ∧
    exec (.vsum r false) s = .next (completed s fun b =>
      { b with a := n, f := { z := n == 0, n := n.msb, c := false, o := false, x := false } })

/-- R309: the lane and mask forms of major 0x21; none writes F, and each that writes V clears vtag. -/
def Claim.LaneForms : Prop :=
  ∀ (s : State) (n : BitVec 5), InOrder s →
    let a := s.act
    let v := a.v
    let does (i : Instr) (g : Act → Act) : Prop := exec i s = .next (completed s g)
    let low := a.a.extractLsb' 0 32
    let ones := (List.finRange 32).filter fun j => a.k.getLsbD j.val
    (∃ u : Lanes, does (.vrot n) (fun b => { b with v := u, vtag := 0 }) ∧ ∀ i : Fin 32, u[(i + Fin.ofNat 32 n.toNat)] = v[i]) ∧
    does (.vbcast n) (fun b => { b with v := Vector.replicate 32 v[n.toFin], vtag := 0 }) ∧
    (∃ u : Lanes, does .vrev (fun b => { b with v := u, vtag := 0 }) ∧ ∀ i : Fin 32, u[i] = v[(31 - i)]) ∧
    (∃ u : Lanes, does .vcomp (fun b => { b with v := u, vtag := 0 }) ∧
      u.toList = (ones.map fun j => v[j]) ++ List.replicate (32 - ones.length) 0) ∧
    (∃ u : Lanes, does .vexpd (fun b => { b with v := u, vtag := 0 }) ∧
      (∀ i : Fin 32, a.k.getLsbD i.val = false → u[i] = 0) ∧ (ones.map fun j => u[j]) = v.toList.take ones.length) ∧
    (∀ e rest, a.ldq = .filled e :: rest →
      ∃ u : Lanes, does .vperm (fun b => { b with v := u, vtag := 0, ldq := rest }) ∧
        ∀ i : Fin 32, u[i] = v[Fin.ofNat 32 (((e.data.flatMap bytesOf).getD i.val 0).toNat)]) ∧
    does .kand (fun b => { b with k := a.k &&& low }) ∧ does .kor (fun b => { b with k := a.k ||| low }) ∧
    does .kxor (fun b => { b with k := a.k ^^^ low }) ∧ does .knot (fun b => { b with k := ~~~a.k }) ∧
    does .kpop (fun b => { b with a := BitVec.ofNat 64 ((List.range 32).countP fun i => a.k.getLsbD i) }) ∧
    (∃ m : Nat, does .kffs (fun b => { b with a := BitVec.ofNat 64 m }) ∧ (a.k = 0 → m = 32) ∧
      (a.k ≠ 0 → m < 32 ∧ a.k.getLsbD m = true ∧ ∀ i, i < m → a.k.getLsbD i = false))

/-- Immediate, accumulator, lane and mask forms of the execute half. -/
def Obligations.AccumulatorForms : Prop :=
  Claim.AccumulatorForms ∧ Claim.InPlaceConversions ∧ Claim.LaneForms

/-- R248, R250, R251, R252: a prefix stands in the slot with its PC and its word, and the PC goes on to its target; nothing else of the
slot's registers changes. -/
def Claim.Prefixes : Prop :=
  ∀ (s : State) (payload : BitVec 24) (ask nm : Bool) (j k : Fin 4),
    let stands (i : Instr) (kind : PfxKind) : Prop :=
      exec i s = .next { s with act := { s.act.settled with pfx := some { pc := s.act.pc, word := s.act.iw, kind }, pc := s.act.pc + 4 } }
    stands (.ext payload) (.ext payload) ∧
    stands (.tok ask j nm k) (.tok (if ask then some j else none) (if nm then some k else none)) ∧
    stands .hint .hint

/-- R249, R253: a word that follows a prefix and is none of the prefix's targets, another prefix among them, and a prefix that is the last
word of a loop body, raise 0x01, which is taken at the prefix. -/
def Claim.PrefixMisuse : Prop :=
  ∀ (s : State) (w : BitVec 32),
    ((∃ p, s.act.pfx = some p ∧ (w.extractLsb' 26 6 = 0x3F ∨ pfxAdmits p.kind w = false)) ∨
      (w.extractLsb' 26 6 = 0x3F ∧ s.act.loop.count ≠ 0 ∧ s.act.pc = s.act.loop.stop)) →
    s.issueWord w = trapsWith s 0x01 0 ∧
    (∀ p, s.act.pfx = some p → (s.trapReq 0x01 0).pc = p.pc ∧ (s.trapReq 0x01 0).pfx = p.word) ∧
    (s.act.pfx = none → (s.trapReq 0x01 0).pc = s.act.pc)

/-- R226: a word that the decoder refuses raises 0x01 on itself, with the word in the record; a branch, loop or jump at the end of an
active loop's body raises 0x05 (R274). -/
def Claim.IllegalWords : Prop :=
  ∀ (s : State) (w : BitVec 32), s.act.misplaced w = false →
    (∀ e, decode w = .error e → s.issueWord w = trapsWith (s.mapAct fun a => { a with iw := w }) 0x01 0) ∧
    (∀ i, decode w = .ok i → s.act.loop.count ≠ 0 → s.act.pc = s.act.loop.stop →
      2 ≤ (w.extractLsb' 26 6).toNat → (w.extractLsb' 26 6).toNat ≤ 6 → s.issueWord w = trapsWith s 0x05 0) ∧
    exec (.illegalInstruction w) s = trapsWith (s.mapAct fun a => { a with iw := w }) 0x01 0

/-- Prefixes, their misuse, and illegal words. -/
def Obligations.PrefixesAndIllegalWords : Prop :=
  Claim.Prefixes ∧ Claim.PrefixMisuse ∧ Claim.IllegalWords

/-- R343, R346 steps 1 to 3: a trap with no older part pending, in a general slot of a region with a save area, when the vector is enabled
for the region and the activation is not in trap mode: the record's eight words are written to the slot's trap frame (R344), and the
activation goes on in trap mode at the vector's entry, its registers kept and its queues empty. -/
def Claim.TrapEntry : Prop :=
  ∀ (s t : State) (r : TrapReq),
    let a := s.act
    let frame := s.trapFrame a.reg s.slotNo.val
    let v := s.me.trapvec
    let bit (x : Bool) (k : Nat) : Nat := if x then 2 ^ k else 0
    let lost := a.ldq.any (fun x => match x with | .filled _ => true | _ => false) ||
      a.xq.any (fun x => match x with | .filled _ => true | _ => false) || !a.stq.isEmpty
    let w1 := BitVec.ofNat 64 (r.code.toNat + bit r.sw 8 + bit lost 9 + bit r.mem 10 + bit r.isDef 11 + bit r.pay 13 +
      2 ^ 16 * a.chan.toNat + 2 ^ 21 * s.slotNo.val)
    let record : List Word := [r.pc, w1, r.addr, r.place, r.tok.setWidth 64, r.resume, (r.pfx ++ r.iw : BitVec 64), 0]
    s.inAtomic = false → a.olderWait = false → frame ≠ 0 → v.getLsbD 63 = true → (v.extractLsb' 56 3).toNat = a.reg.val → a.tm = false →
    s.writeWords frame.toNat [plainWords record] = .ok t →
    ∃ u, s.takeTrap r = .next u ∧
      u.act = { t.act with tm := true, pc := (v.extractLsb' 0 34).setWidth 64, ldq := [], stq := [], xq := [], exq := [], pfx := none,
                           phase := .none, stalled := false, blocked := false, atPort := none, drain := false, first := none,
                           trapping := none, early := false } ∧
      u.act.p = a.p ∧ u.act.a = a.a ∧ u.act.v = a.v ∧ u.act.k = a.k ∧ u.act.f = a.f ∧ u.act.toks = a.toks ∧ u.act.loop = a.loop ∧
      u.mem = t.mem ∧ u.cells = s.cells ∧ u.cur = s.cur

/-- R248, R343: a precise trap is taken for the instruction in service, at its prefix where it has one, with the address and the place of
the address, no token, the memory mark with code 0x0F alone, and itself as the resume PC. -/
def Claim.PreciseTrap : Prop :=
  ∀ (s : State) (c : Code) (addr : Word),
    let pc := match s.act.pfx with | some p => p.pc | none => s.act.pc
    let place : Word := if addr = 0 then 0 else if addr.getLsbD 63 then addr &&& 0xFFFFFFF000000000#64 else s.cl.place
    trapsWith s c addr = s.takeTrap
      { code := c, addr, place, tok := 0, pc, resume := pc, isDef := false, mem := c == 0x0F, sw := false, pay := false,
        iw := s.act.iw, pfx := match s.act.pfx with | some p => p.word | none => 0 }

/-- R346 steps 4 and 5, R347: a trap in trap mode, or without a vector for the region, parks the activation where the region has a save
area, and with none ends it; either way the trap notice of eight words is sent. -/
def Claim.TrapWithoutVector : Prop :=
  ∀ (s : State) (r : TrapReq), s.inAtomic = false → s.act.olderWait = false →
    let info := s.regEntry.info
    let w1 := recordWord1 (BitVec.ofNat 3 s.slotNo.val) s.act.chan r.pay s.act.tm r.isDef r.mem s.act.losesEntry r.sw r.code
    let frame := s.trapFrame s.act.reg s.slotNo.val
    let noticed (t : State) (p0 p1 p7 : Word) : State :=
      t.noticeFrom s.lcell (Fin.ofNat 64 info.ctlc.toNat) info.trapc (plainWords [p0, p1, w1, r.pc, r.addr, r.place, r.tok.setWidth 64, p7])
    (info.save = 0 → s.takeTrap r = .next ((noticed s 0 0 0).endAct false)) ∧
    (∀ t u f, frame ≠ 0 → s.writeWords frame.toNat [plainWords (recordWords r w1 0)] = .ok t →
      (s.me.trapvec.getLsbD 63 = false ∨ (s.me.trapvec.extractLsb' 56 3).toNat ≠ s.act.reg.val ∨ s.act.tm = true) →
      s.act.phase ≠ .frameBad → t.park r.resume 0 0 (recordWords r w1 0) false = .parked u f →
      s.takeTrap r = .next (noticed u f frame r.resume))

/-- Taking a trap: the record, the vector, parking, and the notice. -/
def Obligations.Traps : Prop :=
  Claim.TrapEntry ∧ Claim.PreciseTrap ∧ Claim.TrapWithoutVector

/-- R348: `trap n` traps with code n, sw set, no address, place or token, and PC + 4 as the resume PC, taken under R346; in the atomic slot it
aborts the handler with 0x05. It is encoded `111000 _ 00000 _ 000 _ 000 _ 0000000 _ n`, and an n below 0x20 is illegal. -/
def Obligations.TrapInstruction : Prop :=
  ∀ (s : State) (n : BitVec 8),
    (s.inAtomic = false →
      exec (.trap n) s = s.takeTrap
        { code := n, addr := 0, place := 0, tok := 0, pc := s.act.trapPc, resume := s.act.pc + 4, isDef := false, mem := false, sw := true,
          pay := false, iw := s.act.iw, pfx := s.act.pfxWord }) ∧
    (s.inAtomic = true → exec (.trap n) s = .next (s.abortAtomic 0x05)) ∧
    (s.inAtomic = false → s.act.olderWait = false → s.regEntry.info.save = 0 → ∃ t, exec (.trap n) s = .next t ∧ t.act.live = false) ∧
    (0x20 ≤ n.toNat → encode (.trap n) = some (0b111000#6 ++ 0#5 ++ 0#3 ++ 0#3 ++ 0#7 ++ n) ∧
      decode (0b111000#6 ++ 0#5 ++ 0#3 ++ 0#3 ++ 0#7 ++ n) = .ok (.trap n)) ∧
    (n.toNat < 0x20 → (decode (0b111000#6 ++ 0#5 ++ 0#3 ++ 0#3 ++ 0#7 ++ n)).toOption = none) ∧
    encode (.trap 0x40) = some 0xE0000040#32

/-- R349: `rti` reads word 5 of the slot's trap frame, refuses one that is no own-space word address with a nested trap, and else leaves
trap mode and goes on there with every register as it stands; outside trap mode it raises 0x05, and in the atomic slot it aborts the
handler with 0x05. -/
def Obligations.TrapReturn : Prop :=
  ∀ (s : State) (site : Site),
    let oa := (s.trapFrame s.act.reg s.slotNo.val).toNat + 40
    let w := wordOf (s.view site 8)
    (s.inAtomic = true → exec .rti s = .next (s.abortAtomic 0x05)) ∧
    (s.inAtomic = false → s.act.tm = false → exec .rti s = trapsWith s 0x05 0) ∧
    (s.inAtomic = false → s.act.tm = true → s.act.exq = [] → Fresh s → s.checkOwn .load oa = .ok site →
      (w.extractLsb' 34 30 ≠ 0 → exec .rti s = trapsWith s 0x03 w) ∧
      (w.extractLsb' 34 30 = 0 → w.extractLsb' 0 2 ≠ 0 → exec .rti s = trapsWith s 0x02 w) ∧
      (w.extractLsb' 34 30 = 0 → w.extractLsb' 0 2 = 0 →
        exec .rti s = .next ({ s with act := { s.act.settled with tm := false, pc := w } }.unblock)))

/-- R350, R351: `cget` writes the register's value into pa, tag clear and step kept, or raises 0x05 with the index; `cset` performs the
write or raises 0x05 with the index and changes no register; a change of the cistern's mode makes it wait until the register holds the
new value. In the atomic slot `cset` is refused (R352). -/
def Claim.ControlRegisters : Prop :=
  ∀ (s t : State) (pa : PReg) (idx : BitVec 12), InOrder s →
    let i := s.issuer
    let arg := s.act.p[pa].val
    (∀ w, s.lookCtl i s.self idx.toNat = some (w, t) →
      exec (.cget pa idx) s = .next (completed t fun a => a.setP pa { val := w, step := a.p[pa].step, tag := false })) ∧
    (s.lookCtl i s.self idx.toNat = none → exec (.cget pa idx) s = trapsWith s 0x05 (idx.setWidth 64)) ∧
    (s.inAtomic = true → exec (.cset pa idx) s = trapsWith s 0x05 0) ∧
    (s.inAtomic = false → s.act.phase ≠ .ackWait →
      (s.writeCtl i s.self idx.toNat arg = none → exec (.cset pa idx) s = trapsWith s 0x05 (idx.setWidth 64)) ∧
      (s.writeCtl i s.self idx.toNat arg = some t →
        let starts := idx = 0x108 ∧ t.cl.busy = true ∧ t.cl.fill ≠ arg.getLsbD 0
        (¬ starts → exec (.cset pa idx) s = .next (completed t id).unblock) ∧
        (starts → exec (.cset pa idx) s = .next { t with act := { t.act with blocked := true, stalled := true, phase := .ackWait } }))) ∧
    (s.inAtomic = false → s.act.phase = .ackWait → s.cl.busy = false → exec (.cset pa idx) s = .next (completed s id).unblock)

/-- R20, R21, R125, R127, R205, R206, R222, R301, R345, R350, R351: the cell registers that software writes: which values each takes, that a
refused write changes nothing, and that the register then reads as written while every other field of the machine stays. `ctl.chmask` takes
every mask: the valid entries of channels 0 to 28 take their bits, and every other bit is ignored and reads 0. -/
def Claim.CellRegisterWrites : Prop :=
  ∀ (s : State) (i : Issuer) (n : Fin 64) (v : Word),
    let takes (idx : Nat) (ok : Prop) : Prop :=
      (¬ ok → s.writeCtl i n idx v = none) ∧
      (ok → ∃ t, s.writeCtl i n idx v = some t ∧ t.readCellCtl n idx = some v ∧ t = { s with cells := t.cells } ∧
        (∀ m, m ≠ n → t.cells[m] = s.cells[m]) ∧
        ∀ k ∈ [0x001, 0x008, 0x009, 0x00A, 0x010, 0x018, 0x020, 0x028, 0x029, 0x02A, 0x02B], k ≠ idx →
          t.readCellCtl n k = s.readCellCtl n k)
    takes 0x001 (v &&& 0x78FFFFFC00000003#64 = 0) ∧
    takes 0x008 (v &&& 0xFFFFFFFFFFFFFF78#64 = 0 ∧ v.toNat % 8 ≤ 4) ∧
    takes 0x009 (v ≠ 0 ∧ v.toNat < 2 ^ 32) ∧
    takes 0x00A (v.toNat < 2 ^ 16 ∧ v.extractLsb' 4 3 ≠ 7) ∧
    takes 0x018 (v ≠ 0 ∧ v.toNat < 16) ∧
    takes 0x010 (v &&& 0x00003FFF00003FFF#64 = 0 ∧ ∀ h ∈ [v.extractLsb' 0 32, v.extractLsb' 32 32],
      h.extractLsb' 19 3 ≠ 7 ∧ ¬ (h.getLsbD 15 = true ∧ h.getLsbD 17 = true)) ∧
    (2 ^ 32 ≤ v.toNat → s.writeCtl i n 0x020 v = none) ∧
    (v.toNat < 2 ^ 32 → ∃ t, s.writeCtl i n 0x020 v = some t ∧ t = { s with cells := t.cells } ∧
      (∀ m, m ≠ n → t.cells[m] = s.cells[m]) ∧ t.cells[n] = { s.cells[n] with handlers := t.cells[n].handlers } ∧
      let table := s.cells[n].handlers
      let masks (c : Fin 32) : Prop := c.val < 29 ∧ table[c].v = true
      (∀ c : Fin 32, masks c → t.cells[n].handlers[c] = { table[c] with mask := v.getLsbD c.val }) ∧
      (∀ c : Fin 32, ¬ masks c → t.cells[n].handlers[c] = table[c]) ∧
      ∃ w, t.readCellCtl n 0x020 = some w ∧ w.toNat < 2 ^ 32 ∧
        ∀ c : Fin 32, w.getLsbD c.val = true ↔ masks c ∧ v.getLsbD c.val = true) ∧
    (∀ idx ∈ [0x000, 0x002, 0x021, 0x024, 0x025, 0x026, 0x027, 0x028, 0x029, 0x02A, 0x02B, 0x030, 0x031, 0x032, 0x033, 0x034, 0x035, 0x036,
        0x037], s.writeCtl i n idx v = none) ∧
    (∀ idx, 0x100 ≤ idx → i.ctlc ≠ n.val → s.writeCtl i n idx v = none)

/-- cget and cset, and what each cell register takes. -/
def Obligations.ControlRegisters : Prop :=
  Claim.ControlRegisters ∧ Claim.CellRegisterWrites

/-- R182, R183, R185, R311, R312: a fence of a rectangle that is not well formed raises 0x04; `acq` and `fence` empty the reflection cache of
the named owners' lines and raise every change count, `rel` and `fence` wait for what the activation has outstanding and keep the cell's later accesses behind
those that still wait on a miss (R61); in the atomic slot
the three are complete at once. The owner form of `acq` names one owner; own-space names the issuing cluster, and does nothing. -/
def Claim.Fences : Prop :=
  ∀ (s : State) (pa : PReg), InOrder s →
    let a := s.act.p[pa].val
    let w := a.extractLsb' 0 32
    let acquired (s : State) (named : Word → Bool) : State :=
      { s with cl := { s.cl with refl := s.cl.refl.filter fun l => !named l.place, acqCount := s.cl.acqCount + 1 } }
    let inRect (place : Word) : Bool :=
      place.extractLsb' 45 18 == s.cl.place.extractLsb' 45 18 && s.cl.rectMeets (rectOf w) (place.extractLsb' 36 9).toNat
    (s.cl.rectOk (rectOf w) = false → ∀ i ∈ [Instr.fence pa, .acq pa, .rel pa], exec i s = trapsWith s 0x04 (w.setWidth 64)) ∧
    (s.cl.rectOk (rectOf w) = true → s.inAtomic = true →
      ∀ i ∈ [Instr.fence pa, .acq pa, .rel pa], exec i s = .next (completed s id)) ∧
    (s.cl.rectOk (rectOf w) = true → General s →
      exec (.acq pa) s = .next (completed (acquired s inRect) id) ∧
      (s.released = true →
        exec (.rel pa) s = .next (completed s.orderPoint id) ∧
        exec (.fence pa) s = .next (completed (acquired s.orderPoint inRect) id)) ∧
      (s.released = false → exec (.rel pa) s = waits s ∧ exec (.fence pa) s = waits s)) ∧
    (a.getLsbD 63 = false → exec (.acqO pa) s = .next (completed s id)) ∧
    (∀ c, a.getLsbD 63 = true → s.placeFault a = some c → exec (.acqO pa) s = trapsWith s c a) ∧
    (a.getLsbD 63 = true → s.placeFault a = none → General s →
      exec (.acqO pa) s = .next (completed (acquired s fun place => place == prefixOf a) id))

/-- R150, R152, R162, R313: `pub` and `seqadv` of an own-space sequence word drain, take a place of the walk queue, wait there, and end as
their walk and advance ended; `shade` of an object keeps a pending shade, one for equal ones. What is no sequence word traps. -/
def Claim.Publication : Prop :=
  ∀ (s : State) (pa pb : PReg), Serving s →
    let w := s.act.p[pb].val
    let q := s.act.p[pa]
    let queued (i : Instr) (root : Option Word) : Prop :=
      (Fresh s → s.drained = true → s.cl.walkQ.length < Config.walkQueueSize →
        exec i s = waitsFor { s with cl := { s.cl with walkQ := s.cl.walkQ ++ [{ root, word := w, slot := slotOfIdx s.cur, who := s.lcell }] },
                                     agenda := s.agenda ++ [.lampWalk] } .walkWait) ∧
      (Fresh s → s.drained = false ∨ Config.walkQueueSize ≤ s.cl.walkQ.length → exec i s = waits s) ∧
      (s.act.phase = .walkWait → exec i s = waits s) ∧
      (s.act.phase = .walkDone → exec i s = .next (completed s.orderPoint id)) ∧
      (∀ c t, s.act.phase = .walkFail c t → exec i s = trapsWith s c t)
    let h : Shade := { obj := BitVec.ofNat 64 ((q.val.extractLsb' 0 34).toNat / 128 * 128), word := w }
    (∀ c, seqFault w = some c → ∀ i ∈ [Instr.pub pa pb, .seqadv pb, .shade pa pb], exec i s = trapsWith s c w) ∧
    (seqFault w = none →
      queued (.seqadv pb) none ∧
      (q.val = 0 → q.tag = false → queued (.pub pa pb) none) ∧
      (s.ownRef q = true → q.val ≠ 0 → s.cl.walkbuf.getLsbD 63 = true → queued (.pub pa pb) (some (q.val &&& 0x3FFFFFFFF#64))) ∧
      (q.val ≠ 0 ∨ q.tag = true → s.ownRef q = false →
        exec (.pub pa pb) s = trapsWith s 0x05 q.val ∧ exec (.shade pa pb) s = trapsWith s 0x05 q.val) ∧
      (∀ site, s.ownRef q = true → Fresh s → s.checkOwn .load h.obj.toNat = .ok site →
        (objOk (wordOf (s.view site 8)) ((s.viewTags site 1).headD false) h.obj.toNat = false →
          exec (.shade pa pb) s = trapsWith s 0x04 q.val) ∧
        (objOk (wordOf (s.view site 8)) ((s.viewTags site 1).headD false) h.obj.toNat = true →
          (s.cl.shades.contains h = true → exec (.shade pa pb) s = .next (completed s id)) ∧
          (s.cl.shades.contains h = false → s.cl.shades.length < Config.maxShades →
            exec (.shade pa pb) s = .next (completed { s with cl := { s.cl with shades := s.cl.shades ++ [h] } } id)) ∧
          (s.cl.shades.contains h = false → Config.maxShades ≤ s.cl.shades.length → exec (.shade pa pb) s = waits s))))

/-- acq, rel and fence; pub, seqadv and shade. -/
def Obligations.FencesAndPublication : Prop :=
  Claim.Fences ∧ Claim.Publication

/-- R315 to R318: `watch` and `watcha` set their register pending with the threshold and send the placement, which takes the place of one
that is still pending; `wwait` waits for the answer, and takes a refusal as its trap; `wtest` pushes to XQ whether the answer is there. -/
def Claim.Watches : Prop :=
  ∀ (s : State) (pa pb : PReg) (w : Fin 4), Serving s →
    let a := s.act.p[pa].val
    let old := s.act.watch[w]
    let place (acq : Bool) : Instr := if acq then .watcha pa pb w else .watch pa pb w
    let set (acq : Bool) (b : Act) : Act :=
      b.setWatch w { st := .pending, acq, code := 0, val := 0, rid := s.nextRid, addr := a, thresh := s.act.p[pb].val }
    (∀ acq c, s.watchFault a = some c → exec (place acq) s = trapsWith s c a) ∧
    (∀ acq, s.watchFault a = none → ∃ t, exec (place acq) s = .next (completed t (set acq)) ∧ t.act = s.act ∧ t.mem = s.mem ∧
      t.nextRid = s.nextRid + 1 ∧
      (s.isHere a = true → old.st ≠ .pending →
        t = { s with nextRid := s.nextRid + 1,
                     agenda := s.agenda ++ [.watchPlace { who := { s.requester with rid := s.nextRid }, oa := BitVec.ofNat 64 (oaOf a),
                                                          thresh := s.act.p[pb].val, acq }] })) ∧
    (old.st = .empty → exec (.wwait w) s = trapsWith s 0x05 0) ∧
    (old.st = .pending → exec (.wwait w) s = waits s) ∧
    (old.st = .answered → exec (.wwait w) s = .next (completed s id)) ∧
    (old.st = .failed → exec (.wwait w) s = trapsWith s old.code old.addr) ∧
    (Config.xqSize ≤ s.act.xq.length → exec (.wtest w) s = waits s) ∧
    (s.act.xq.length < Config.xqSize →
      exec (.wtest w) s = .next (completed s fun b =>
        { b with xq := b.xq ++ [.filled (if old.st = .answered ∨ old.st = .failed then 1 else 0)] }))

/-- R42, R219 to R222, R319 to R321: `barset` of a rectangle that holds its cell and only present cells binds the register, phase 0;
`barv` arrives, and where the rectangle is one cell the barrier is released at once; `barw` waits for the release and traps on one that
carries err. -/
def Claim.Barriers : Prop :=
  ∀ (s : State) (pa : PReg) (b : Fin 4), Serving s →
    let rect := s.act.p[pa].val.extractLsb' 0 32
    let r := rectOf rect
    let q := s.me.bars[b]
    let bar (q : BarReg) : State := { s with cells := s.cells.set s.self { s.me with bars := s.me.bars.set b q } }
    (s.cl.rectOk r = false → exec (.barset pa b) s = trapsWith s 0x04 (rect.setWidth 64)) ∧
    (s.cl.rectOk r = true → ((∃ n, s.act.phase = .barWait n 0 false) ∨ (Fresh s ∧ s.rectOthers r = [])) →
      (s.rectAbsent r = true → exec (.barset pa b) s = trapsWith s 0x04 (rect.setWidth 64)) ∧
      (s.rectAbsent r = false → r.holds s.here.1 s.here.2 = false ∨ q.arr = true → exec (.barset pa b) s = trapsWith s 0x05 0) ∧
      (s.rectAbsent r = false → r.holds s.here.1 s.here.2 = true → q.arr = false →
        exec (.barset pa b) s =
          .next (completed (bar { q with bound := true, rect, arr := false, ph := false, err := false }) id))) ∧
    (q.bound = false → exec (.barv b) s = trapsWith s 0x05 0 ∧ exec (.barw b) s = trapsWith s 0x05 0) ∧
    (q.bound = true → q.arr = true → exec (.barv b) s = waits s ∧ exec (.barw b) s = waits s) ∧
    (q.bound = true → q.arr = false →
      (q.err = true → exec (.barw b) s = trapsWith s 0x05 0) ∧
      (q.err = false → exec (.barw b) s = .next (completed s id)) ∧
      exec (.barv b) s = .next (completed ((s.setBar b { q with arr := true, err := false }).sweep b q) id) ∧
      (let k := rectOf q.rect
       k.x0 = s.here.1 → k.x1 = s.here.1 → k.y0 = s.here.2 → k.y1 = s.here.2 →
        ∃ t, exec (.barv b) s = .next t ∧
          t.me.bars[b] = { q with arr := false, ph := !q.ph, err := q.bad, west := false, north := false, bad := false }))

/-- Watches and barriers at the cell that uses them. -/
def Obligations.WatchesAndBarriers : Prop :=
  Claim.Watches ∧ Claim.Barriers

/-- R168, R189, R191: a message that the tables have room for leaves with a reply-table entry of a number of its own; a token that it asks
for takes the next sequence number that no entry holds, is pending, and stands in its slot; nothing else of the slot changes, and memory
does not. -/
def Claim.SendingAMessage : Prop :=
  ∀ (s : State) (kind : ReplyKind) (a : Word) (ask nm : Option (Fin 4)) (words : List TWord)
    (mk : State → Nat → BitVec 24 → BitVec 24 → Sent),
    let t := s.sendOut kind a ask nm words mk
    let tok : BitVec 24 := s.lcell ++ s.nextSeq
    t.mem = s.mem ∧ t.nextRid = s.nextRid + 1 ∧ t.act = { s.act with toks := t.act.toks } ∧
    (∃ e, t.replies = s.replies ++ [e] ∧ e.rid = s.nextRid ∧ e.kind = kind ∧ e.target = a ∧ e.aid = s.act.aid) ∧
    (ask = none → t.act.toks = s.act.toks ∧ t.toks.length = s.toks.length) ∧
    (∀ k, ask = some k → s.toks.length < Config.tokenTableSize →
      t.act.toks = s.act.toks.set k tok ∧ t.toks.length = s.toks.length + 1 ∧
      (∃ e ∈ t.toks, e.tok = tok ∧ e.st = .pending ∧ e.aid = s.act.aid ∧ e.target = a) ∧
      s.nextSeq ≠ 0 ∧ ∀ e ∈ s.toks, e.tok.extractLsb' 0 9 ≠ s.nextSeq)

/-- R332 to R334: `tokz` empties its slot; `tokq` pushes the token with its state, 0 for an empty slot, 1 pending, 2 not dead and no
longer pending, 3 dead; `tokw` waits while the token is pending. -/
def Claim.Tokens : Prop :=
  ∀ (s : State) (k : Fin 4), Serving s →
    let t := s.act.toks[k]
    let pushed (st : Word) : Out := .next (completed s fun b => { b with xq := b.xq ++ [.filled (t.setWidth 64 + 0x1000000 * st)] })
    exec (.tokz k) s = .next (completed s fun b => { b with toks := b.toks.set k 0 }) ∧
    (Config.xqSize ≤ s.act.xq.length → exec (.tokq k) s = waits s) ∧
    (s.act.xq.length < Config.xqSize →
      (t = 0 → exec (.tokq k) s = pushed 0) ∧
      (t ≠ 0 → s.ownTok t = none → exec (.tokq k) s = pushed 2) ∧
      (∀ e, t ≠ 0 → s.ownTok t = some e → exec (.tokq k) s = pushed (if e.st = .dead then 3 else 1))) ∧
    (t = 0 ∨ s.ownTok t = none → exec (.tokw k) s = .next (completed s id)) ∧
    (∀ e, t ≠ 0 → s.ownTok t = some e → e.st = .pending → exec (.tokw k) s = waits s)

/-- Dependency tokens, and how a message leaves the cell. -/
def Obligations.TokensAndSending : Prop :=
  Claim.SendingAMessage ∧ Claim.Tokens

/-- R323 to R326: a deposit whose checks pass leaves with its data, and one from STQ takes its entry off the queue; one whose address is
refused traps, with the token that it names in the record (R343); with no room in the tables, or nothing in STQ, it waits. An own-space
target goes to this cluster, any other to its owner, with the number of bytes before the data. -/
def Claim.Deposits : Prop :=
  ∀ (s : State) (pa pb : PReg) (tn : TokName), Serving s →
    let a := s.act.p[pa].val
    let ask := s.act.askSlot
    let nm := s.act.nameSlot tn
    let deposits (i : Instr) (align : Nat) (d : WData) (pop : Bool) : Prop :=
      let mk (s0 : State) (rid : Nat) (asked held : BitVec 24) : Sent :=
        if isOwn a then .here (.deposit { who := s0.asReq rid, oa := a, data := d, tok := 0 })
        else .away { outMsg .depositReq (prefixOf a) a rid 0 [] with tok := asked, held := held, words := depositWords d }
      (∀ c, s.remoteFault a align = some c → exec i s = s.takeTrap { s.trapReq c a with tok := s.named nm }) ∧
      (Sendable s a align nm →
        exec i s = .next (completed (s.sendOut .deposit a ask nm [] mk) fun b => { b with stq := if pop then b.stq.tail else b.stq })) ∧
      (s.remoteFault a align = none → s.tokFault a ask nm = none → s.canSend a ask nm = false → exec i s = waits s)
    let low (w : TWord) (k : Nat) : WData := .bytes ((bytesOf w.val).take k) (if k = 8 then [w.tag] else [])
    (∀ n : BitVec 2, deposits (.dep pa pb tn n) (2 ^ n.toNat) (low s.act.p[pb].tword (2 ^ n.toNat)) false) ∧
    (∀ e rest, s.act.stq = e :: rest →
      (∀ n : BitVec 2, deposits (.depq pa tn n) (2 ^ n.toNat)
        (low { val := e.data.getD 0 0, tag := e.tags.getLsbD 0 } (2 ^ n.toNat)) true) ∧
      deposits (.depqLine pa tn) 128
        (.bytes ((List.range 16).flatMap fun j => bytesOf (e.data.getD j 0)) ((List.range 16).map fun j => e.tags.getLsbD j)) true) ∧
    (s.act.stq = [] → (∀ n, exec (.depq pa tn n) s = waits s) ∧ exec (.depqLine pa tn) s = waits s) ∧
    (∀ (w : BitVec 3) (i : BitVec 9),
      let code : BitVec 8 := BitVec.ofNat 8 (s.act.p[pb].val.toNat % 2 ^ (w.toNat + 1))
      deposits (.depe pa pb tn w i) 128 (.elem false i.toNat code (some (w.toNat + 1))) false ∧
      deposits (.depes pa pb tn w i) 128 (.elem true i.toNat code (some (w.toNat + 1))) false)

/-- R327 to R331: an atomic request whose checks pass leaves with its operation, size and operand words, and reserves the next place of
LDQ; the advance also waits for the activation's earlier deposits and atomics of the same owner. -/
def Claim.AtomicRequests : Prop :=
  ∀ (s : State) (pa pb : PReg) (tn : TokName) (dbl : Bool) (k : BitVec 3), Serving s →
    let a := s.act.p[pa].val
    let nm := s.act.nameSlot tn
    let size := if dbl then 8 else 4
    let b := s.act.p[pb]
    let plain (q : Ptr) : TWord := { val := q.val, tag := false }
    let moved (q : Ptr) : TWord := { val := q.val, tag := q.tag && dbl }
    let regs (n : Nat) : List TWord := (List.range n).map fun i => s.act.p[pb + Fin.ofNat 8 i].tword
    let asks (i : Instr) (op : AmoOp) (align : Nat) (words : List TWord) : Prop :=
      let mk (s0 : State) (rid : Nat) (asked held : BitVec 24) : Sent :=
        if isOwn a then .here (.atomicRequest { who := s0.asReq rid, oa := a, op, size := align, words, tok := 0 })
        else .away { outMsg .atomicReq (prefixOf a) a rid 0 [] with tok := asked, held := held, words := atomWord op align :: words }
      let older := op = .adv ∧ ∃ e ∈ s.replies, e.aid = s.act.aid ∧ (e.kind = .deposit ∨ e.kind = .atomic) ∧
        s.ownerOf e.target = s.ownerOf a
      (∀ c, s.remoteFault a align = some c → exec i s = s.takeTrap { s.trapReq c a with tok := s.named nm }) ∧
      (Sendable s a align nm → s.act.ldqRoom = true → ¬ older →
        exec i s = .next (completed (s.sendOut .atomic a s.act.askSlot nm [] mk) fun b =>
          { b with ldq := b.ldq ++ [.reserved s.nextRid] })) ∧
      (Sendable s a align nm → s.act.ldqRoom = false ∨ older → exec i s = waits s)
    asks (.amoAdd pa pb tn dbl) .add size [plain b] ∧ asks (.amoMin pa pb tn dbl) .min size [plain b] ∧
    asks (.amoMax pa pb tn dbl) .max size [plain b] ∧ asks (.amoMinu pa pb tn dbl) .minu size [plain b] ∧
    asks (.amoMaxu pa pb tn dbl) .maxu size [plain b] ∧ asks (.amoAnd pa pb tn dbl) .and size [plain b] ∧
    asks (.amoOr pa pb tn dbl) .or size [plain b] ∧ asks (.amoXor pa pb tn dbl) .xor size [plain b] ∧
    asks (.amoSwap pa pb tn dbl) .swap size [moved b] ∧ asks (.amoCas pa pb tn dbl) .cas size [moved b, plain s.act.p[pb + 1]] ∧
    asks (.amoEnq pa pb tn) .enq 128 (regs 8) ∧ asks (.amoDeq pa tn) .deq 128 [] ∧ asks (.amoAdv pa tn) .adv 8 [] ∧
    asks (.amoUser pa pb tn k dbl) .user size (regs (k.toNat + 1))

/-- Deposits and atomic requests at their issuer. -/
def Obligations.DepositsAndAtomics : Prop :=
  Claim.Deposits ∧ Claim.AtomicRequests

/-- R335 to R341: `send` and `spawn` send P0 to P(n-1) and go on, `spawn` with a unit of credit, for which it waits; `mig` sends P0 to P7 and
ends; `yield` leaves P0 to P7 in its slot's yield buffer and ends; `done` ends; `rcmd` sends the command to the home of the region. A
message whose checks refuse it traps with their code. An activation that has ended leaves its slot empty and memory as it is. -/
def Obligations.Messages : Prop :=
  ∀ (s : State) (pa : PReg) (tn : TokName) (n k : BitVec 4) (c : BitVec 5), Serving s →
    let a := s.act.p[pa].val
    let ask := s.act.askSlot
    let nm := s.act.nameSlot tn
    let p (n : Nat) : List TWord := (s.act.p.toList.take n).map Ptr.tword
    let msg (spw moves : Bool) (nm : Option (Fin 4)) (n : Nat) (s0 : State) (rid : Nat) (asked held : BitVec 24) : Sent :=
      s0.routeMsg a (s0.msgOf a c spw (s0.named nm) held (p n) moves) rid asked held
    let e := s.regEntry
    let refusal (code : Code) (nm : Option (Fin 4)) : Out :=
      s.takeTrap { s.trapReq code a with tok := s.named nm }
    (∀ code, s.msgFault a 1 (some c) ask nm = some code →
      exec (.send pa tn n c) s = refusal code nm ∧ exec (.spawn pa tn n c) s = refusal code nm) ∧
    (∀ code, s.msgFault a 1 (some c) ask none = some code → exec (.mig pa c) s = refusal code none) ∧
    (Mailable s a 1 (some c) nm →
      exec (.send pa tn n c) s = .next (completed (s.sendOut .message a ask nm [] (msg false true nm n.toNat)) id) ∧
      (s.payer e .credit = 0 →
        exec (.spawn pa tn n c) s = .next (completed (s.sendOut .spawn a ask nm [] (msg true false nm n.toNat)) id)) ∧
      (s.payer e .credit ≠ 0 → e.credit ≠ 0 →
        exec (.spawn pa tn n c) s = .next (completed ((s.sendOut .spawn a ask nm [] (msg true false nm n.toNat)).mapReg s.act.reg fun r =>
          { r with credit := r.credit - 1 }) id)) ∧
      (s.payer e .credit ≠ 0 → e.credit = 0 → exec (.spawn pa tn n c) s = waits (s.askGrant s.act.reg .credit))) ∧
    (Mailable s a 1 (some c) none →
      exec (.mig pa c) s = .next ((s.sendOut .message a ask none (p 8) (msg s.act.spw true none 8)).endAct false)) ∧
    (Mailable s a 256 none nm →
      exec (.rcmd pa tn k) s = .next (completed (s.sendOut .rcmd a ask nm [] fun s0 rid asked held =>
        if s.isHere a then .here (.regionCmd (s.asReq rid) (s.podOf a) k 0 3 [])
        else .away { outMsg .regionCmd (prefixOf a) a rid 0 [a, k.setWidth 64, s.rcb] with tok := asked, held := held }) id)) ∧
    exec .done s = .next (s.endAct true) ∧
    (∀ y, s.yieldBuf[s.slotNo] = some y → exec .yield s = waits s) ∧
    (s.yieldBuf[s.slotNo] = none →
      ∃ y, exec .yield s = .next ({ s with yieldBuf := s.yieldBuf.set s.slotNo (some y) }.endAct false) ∧ y.aid = s.act.aid ∧
        y.msg.words = p 8 ∧ y.msg.chan = s.act.chan ∧ y.msg.spw = s.act.spw ∧ y.msg.kind = .data ∧ y.msg.src = s.lcell ∧
        y.msg.dst = s.lcell) ∧
    (∀ credit, (s.endAct credit).act = Act.idle ∧ (s.endAct credit).mem = s.mem)

/-- R328: the built-in operations on an 8-byte and a 4-byte word x with the operand b, and c for the compare: sums modulo 2^w, minimum and
maximum signed and unsigned, the bitwise forms, the exchange, and the exchange where x is c. -/
def Claim.BuiltinOperations : Prop :=
  ∀ (dbl : Bool),
    let z := if dbl then 8 else 4
    ∀ (x b c : BitVec (8 * z)),
    let gives (op : AmoOp) (r : BitVec (8 * z)) : Prop := amoNew op z x.toNat b.toNat c.toNat = some r.toNat
    gives .add (x + b) ∧ gives .min (if x.toInt ≤ b.toInt then x else b) ∧ gives .max (if b.toInt ≤ x.toInt then x else b) ∧
    gives .minu (if x.toNat ≤ b.toNat then x else b) ∧ gives .maxu (if b.toNat ≤ x.toNat then x else b) ∧
    gives .and (x &&& b) ∧ gives .or (x ||| b) ∧ gives .xor (x ^^^ b) ∧ gives .swap b ∧
    (x = c → gives .cas b) ∧ (x ≠ c → amoNew .cas z x.toNat b.toNat c.toNat = none)

/-- R177, R341: `done` in the atomic slot makes the handler's collected stores one write in their order, frees the slot, and answers with A;
a store that is refused makes the answer its code, and writes nothing. -/
def Claim.DoneInAtomicSlot : Prop :=
  ∀ (s : State) (run : AtomRun), InOrder s → s.inAtomic = true → s.atomRun = some run →
    let w := run.req.who
    (∀ t, ({ s with atomRun := none } : State).commitStores run.stores = .ok t →
      ∃ u, exec .done s = .next u ∧ u.mem = t.mem ∧ u.atomRun = none ∧ u.act = Act.idle ∧
        (s.isSelf w = true → ∃ e, .atomReply w.rid e ∈ u.agenda ∧ e.data = [s.act.a] ∧ e.tags = 0)) ∧
    (∀ c m, ({ s with atomRun := none } : State).commitStores run.stores = .fault c m →
      ∃ u, exec .done s = .next u ∧ u.mem = s.mem ∧ u.atomRun = none ∧ u.act = Act.idle ∧
        (s.isSelf w = true → ∃ a', .negative w.rid c a' ∈ u.agenda))

/-- Built-in atomic operations, and the end of an atomic handler. -/
def Obligations.AtomicSlot : Prop :=
  Claim.BuiltinOperations ∧ Claim.DoneInAtomicSlot

/-- R353 to R356, R51, R67, R68: `ifence` empties the slot's instruction buffer; `tlbw` of the service cell does what the home does with its two
words, which for disp 0 and the current epoch installs the entry in place of those it overlaps, and traps on words that are not accepted or
from any other cell; `tlbi` removes the entries that it names, advances the epoch, and completes when its acknowledgement is there. -/
def Claim.TranslationMaintenance : Prop :=
  ∀ (s : State) (pa pb : PReg) (m : BitVec 2), Serving s →
    let a := s.act.p[pa].val
    let b := s.act.p[pb].val
    let gone (e : TlbEnt) : Bool :=
      if m = 0 then e.covers (a.extractLsb' 16 17).toNat else if m = 1 then e.vf.val == (a.extractLsb' 0 4).toNat else true
    exec .ifence s = .next (completed s fun x => { x with ibuf := [] }) ∧
    (s.isService = false ∨ tlbWordsOk a b = false → exec (.tlbw pa pb) s = trapsWith s 0x05 0) ∧
    (s.isService = true → tlbWordsOk a b = true →
      (∀ t, s.tlbwHome a b = some t → t.act.drain = false → exec (.tlbw pa pb) s = .next (completed t id).unblock) ∧
      (s.tlbwHome a b = none → exec (.tlbw pa pb) s = trapsWith s 0x05 0) ∧
      (a.extractLsb' 62 2 = 0 → (s.cl.tlb.filter fun x => !x.overlaps { mw := a, dw := b }).length < Config.tlbSize →
        (b.getLsbD 42 = true → s.cl.pinsFull = false) →
        ∃ t, s.tlbwHome a b = some t ∧ t.act = { s.act with blocked := t.act.blocked } ∧ t.mem = s.mem ∧
          t.cl.tlb = (if a.extractLsb' 32 16 = s.cl.epoch then
            (s.cl.tlb.filter fun x => !x.overlaps { mw := a, dw := b }) ++ [{ mw := a, dw := b }] else s.cl.tlb))) ∧
    (s.act.phase = .ackWait → exec (.tlbi pa m) s = waits s) ∧
    (s.act.phase = .ackDone → exec (.tlbi pa m) s = .next (completed s id).unblock) ∧
    (Fresh s →
      (s.issuer.privileged = false → exec (.tlbi pa m) s = trapsWith s 0x05 0) ∧
      (∀ c, s.issuer.privileged = true → tlbiFault m a = some c → exec (.tlbi pa m) s = trapsWith s c a) ∧
      (s.issuer.privileged = true → tlbiFault m a = none →
        ∃ t, exec (.tlbi pa m) s = waitsFor t .ackWait ∧ t.cl.tlb = (s.cl.tlb.filter fun e => !gone e) ∧ t.cl.epoch = s.cl.epoch + 1 ∧
          .shootdownAck (slotOfIdx s.cur) ∈ t.agenda ∧ t.mem = s.mem ∧ t.cells = s.cells ∧ t.act = { s.act with atPort := t.act.atPort }))

/-- R66, R356: `pready` of an address that is not own-space, or no multiple of 512, traps; where word 40 of the frame names this cell, it
completes when the cell takes it, making the parked activation runnable, or on a failure failing it, and raises 0x05 where the cell turns it
away; where it names another cell of the cluster, it is sent there, and ends as that cell answers. -/
def Claim.ParkedActivations : Prop :=
  ∀ (s : State) (pa : PReg) (fail : Bool) (n : BitVec 8) (site : Site), Serving s →
    let i : Instr := .pready pa fail n
    let a := s.act.p[pa].val
    let w40 := wordOf (s.view site 8)
    let k : Fin 64 := (w40.extractLsb' 0 6).toFin
    (a.extractLsb' 34 30 ≠ 0 → exec i s = trapsWith s 0x03 a) ∧
    (a.extractLsb' 34 30 = 0 → a.toNat % 512 ≠ 0 → exec i s = trapsWith s 0x02 a) ∧
    (a.extractLsb' 34 30 = 0 → a.toNat % 512 = 0 →
      (∀ r, s.act.phase = .barWait r 0 false → exec i s = .next (completed s id).unblock) ∧
      (∀ r, s.act.phase = .barWait r 0 true → exec i s = trapsWith s 0x05 a) ∧
      (∀ r l b, s.act.phase = .barWait r (l + 1) b → exec i s = waits s) ∧
      (Fresh s → s.checkOwn .load (a.toNat + 320) = .ok site →
        (w40.extractLsb' 15 49 ≠ 0 ∨ w40.extractLsb' 6 9 ≠ s.lclu ∨ s.cl.present k = false → exec i s = trapsWith s 0x05 a) ∧
        (w40.extractLsb' 15 49 = 0 → w40.extractLsb' 6 9 = s.lclu → s.cl.present k = true →
          (∀ t, k = s.self → s.preadyHere a s.rcb fail n = .done t → t.act.drain = false →
            exec i s = .next (completed t id).unblock) ∧
          (k = s.self → s.preadyHere a s.rcb fail n = .refused → exec i s = trapsWith s 0x05 a) ∧
          (k ≠ s.self → exec i s = waitsFor
            ({ s with nextRid := s.nextRid + 1 }.emit (outMsg .pready s.cl.place a s.nextRid 0
              [BitVec.ofNat 64 k.val, if fail then 1 else 0, n.setWidth 64, s.rcb])) (.barWait s.nextRid 1 false)))))

/-- ifence, tlbw, tlbi and pready. -/
def Obligations.TranslationMaintenance : Prop :=
  Claim.TranslationMaintenance ∧ Claim.ParkedActivations

/-- R222, R365 to R367, R371 to R375: a matrix command whose checks pass enters the queue of its cell with its operands as they stand at issue
and completes; a command on a transfer changes its state as R365 says; with the queue full it waits for a place, with its transfer already
changed and its operands kept; with rows to wait for it waits; a check that fails, a transfer that is not the command's, and engines that are not enabled trap. -/
def Claim.MatrixCommands : Prop :=
  ∀ (s : State) (pa pb pc : PReg) (x : Fin 16) (fa fr sb init dense sat : Bool) (r : Rnd) (n : BitVec 2), Serving s →
    let a := s.act.p[pa].val
    let b := s.act.p[pb].val
    let m := (b.extractLsb' 56 8).toNat + 1
    let t := s.mx.xfers[x]
    let room : Prop := s.mxWaiting < Config.matrixQueueSize
    let queued (u : State) (c : MCmd) : State :=
      { u with mx := { u.mx with queue := u.mx.queue ++ [c], next := u.mx.next + 1 }, agenda := u.agenda ++ [.matrix u.mx.next] }
    let enters (i : Instr) (y : Xfer) (c : MCmd) (undo : Option (Fin 16 × Xfer)) : Prop :=
      let u := { s with mx := { s.mx with xfers := s.mx.xfers.set x y } }
      (room → exec i s = .next (completed (queued u c) id)) ∧ (¬ room → exec i s = waitsFor u (.engQueue c undo))
    let all : List Instr := [.mwld pa pb pc fa fr sb, .mwldLanding pa pb pc x fa fr, .mma pa pb pc x fa fr sb init dense,
      .mmp pa pb pc x fa fr sb init dense, .mprog pa pb n, .mcommit pa pb pc x fa fr r sat]
    let source : Prop := formOk a = true ∧ a.toNat % 128 = 0 ∧ s.scopeFault pc = none ∧ s.sourceFault a = none
    let takes : Prop := t.st ≠ .opened ∧ (t.st = .free ∨ t.reg = s.act.reg)
    let taken : Xfer := { t with st := .opened, reg := s.act.reg, aid := s.act.aid, m, older := t.older + if t.st = .closing then t.m else 0 }
    let abase : Word := (b.extractLsb' 0 34).setWidth 64
    let operands : Prop :=
      (dense = false → isOwn a = true ∧ a.toNat % 128 = 0 ∧ s.slotBase ≤ a.toNat ∧ a.toNat + 2 * m ≤ s.slotBase + 0x40000) ∧
      abase.toNat % 128 = 0 ∧ s.scopeFault pc = none ∧ s.inOctet abase.toNat 128 = true ∧ b.extractLsb' 34 10 = 0 ∧
      (tyIn (b.extractLsb' 44 4) operandTys).isSome = true ∧ s.bufferOk sb = true
    (Fresh s → s.cl.clucfg.getLsbD 2 = false → ∀ i ∈ all, exec i s = trapsWith s 0x05 0) ∧
    (∀ c undo, s.act.phase = .engQueue c undo → ∀ i ∈ all,
      (room → exec i s = .next (completed (queued s { c with num := s.mx.next }) id)) ∧ (¬ room → exec i s = waitsFor s (.engQueue c undo))) ∧
    (Fresh s → s.cl.clucfg.getLsbD 2 = true →
      (source → b.extractLsb' 4 60 = 0 → (tyIn (b.extractLsb' 0 4) operandTys).isSome = true →
        enters (.mwld pa pb pc fa fr sb) t { s.newCmd .mwld with wa := a, wb := b, sb, acq := fa } none) ∧
      (source → b.extractLsb' 4 52 = 0 → b.extractLsb' 0 4 = Ty.code .fp32 →
        (takes → s.mx.used + m ≤ 256 →
          enters (.mwldLanding pa pb pc x fa fr) taken { s.newCmd .landing with wa := a, wb := b, x, acq := fa, m } (some (x, t))) ∧
        (takes → 256 < s.mx.used + m → s.mx.used + m - s.mx.closingRows ≤ 256 → exec (.mwldLanding pa pb pc x fa fr) s = waits s) ∧
        (¬ takes ∨ 256 < s.mx.used + m - s.mx.closingRows → exec (.mwldLanding pa pb pc x fa fr) s = trapsWith s 0x05 0)) ∧
      (operands →
        let gemm (i : Instr) (op : MOp) : Prop :=
          (init = false → takes → s.mx.used + m ≤ 256 →
            enters i taken { s.newCmd op with wa := a, wb := b, x, sb, acq := fa, init, dense, m } (some (x, t))) ∧
          (init = false → takes → 256 < s.mx.used + m → s.mx.used + m - s.mx.closingRows ≤ 256 → exec i s = waits s) ∧
          (init = false → ¬ takes ∨ 256 < s.mx.used + m - s.mx.closingRows → exec i s = trapsWith s 0x05 0) ∧
          (init = true → t.st = .opened → t.reg = s.act.reg → t.m = m →
            enters i t { s.newCmd op with wa := a, wb := b, x, sb, acq := fa, init, dense, m } (some (x, t))) ∧
          (init = true → t.st ≠ .opened ∨ t.reg ≠ s.act.reg ∨ t.m ≠ m → exec i s = trapsWith s 0x05 0)
        gemm (.mma pa pb pc x fa fr sb init dense) .mma ∧ gemm (.mmp pa pb pc x fa fr sb init dense) .mmp) ∧
      (((List.range (n.toNat + 1)).all fun i => progOpOk (a.extractLsb' (16 * i) 16)) = true →
        (∀ i, n.toNat < i → i < 4 → a.extractLsb' (16 * i) 16 = 0) → b.extractLsb' 32 32 = 0 →
        enters (.mprog pa pb n) t { s.newCmd .mprog with wa := a, wb := b, m := n.toNat + 1 } none) ∧
      (isOwn a = true → a.toNat % 128 = 0 → s.scopeFault pc = none → commitDescOk b = true →
        (t.st = .opened → t.reg = s.act.reg →
          enters (.mcommit pa pb pc x fa fr r sat) { t with st := .closing }
            { s.newCmd .mcommit with wa := a, wb := b, x, acq := fa, r := s.rm r, sat, m := t.m } (some (x, t))) ∧
        (t.st ≠ .opened ∨ t.reg ≠ s.act.reg → exec (.mcommit pa pb pc x fa fr r sat) s = trapsWith s 0x05 0)))

/-- R360, R363, R367, R371 to R373, R375: the checks of a matrix command at issue, on the enabled engine: the first that fails traps, with its
code and address, in the order of R367's table (log 20): the form and the multiple of 128 of each address, the scope, the place of the
source, the octet and the issuer's slot, the descriptor and its type, the buffer (log 80), the program. -/
def Claim.MatrixRefusals : Prop :=
  ∀ (s : State) (pa pb pc : PReg) (x : Fin 16) (fa fr sb init dense sat : Bool) (r : Rnd) (n : BitVec 2), Serving s → Fresh s →
    s.cl.clucfg.getLsbD 2 = true →
    let a := s.act.p[pa].val
    let b := s.act.p[pb].val
    let refused (i : Instr) (checks : List (Bool × Code × Word)) : Prop :=
      ∀ f, (checks.find? fun f => f.1) = some f → exec i s = trapsWith s f.2.1 f.2.2
    let unaligned (w : Word) : Bool × Code × Word := (w.toNat % 128 != 0, 0x02, w)
    let scope : Bool × Code × Word := (!s.cl.rectOk (rectOf (s.act.p[pc].val.extractLsb' 0 32)), 0x04, (s.act.p[pc].val.extractLsb' 0 32).setWidth 64)
    let source : List (Bool × Code × Word) := [(!formOk a, 0x03, a), unaligned a, scope,
      (!s.isHere a && (s.placeFault a).isSome, (s.placeFault a).getD 0, a)]
    let typed (code : BitVec 4) (l : List Ty) : Bool := l.any fun ty => Ty.ofCode code == some ty
    let factors : List Ty := [.i8, .u8, .fp16, .bf16, .nf, .nfs]
    refused (.mwld pa pb pc fa fr sb) (source ++ [(b.extractLsb' 4 60 != 0 || !typed (b.extractLsb' 0 4) factors, 0x05, 0)]) ∧
    refused (.mwldLanding pa pb pc x fa fr) (source ++ [(b.extractLsb' 4 52 != 0 || b.extractLsb' 0 4 != 0xA, 0x05, 0)]) ∧
    (let base : Word := (b.extractLsb' 0 34).setWidth 64
     let slot := 0x200000000 + s.self.val * 0x40000
     let octet := 0x200000000 + s.self.val / 8 * 0x200000
     ∀ i ∈ [Instr.mma pa pb pc x fa fr sb init dense, .mmp pa pb pc x fa fr sb init dense],
       refused i [(!dense && !isOwn a, 0x03, a), (!dense && a.toNat % 128 != 0, 0x02, a), unaligned base, scope,
         (decide (base.toNat < octet) || decide (octet + 0x200000 < base.toNat + 128), 0x04, base),
         (!dense && (decide (a.toNat < slot) || decide (slot + 0x40000 < a.toNat + 2 * ((b.extractLsb' 56 8).toNat + 1))), 0x04, a),
         (b.extractLsb' 34 10 != 0 || !typed (b.extractLsb' 44 4) factors, 0x05, 0), (!s.bufferOk sb, 0x05, 0)]) ∧
    refused (.mprog pa pb n) [(b.extractLsb' 32 32 != 0 || ((List.range 4).any fun k =>
      if k ≤ n.toNat then !progOpOk (a.extractLsb' (16 * k) 16) else a.extractLsb' (16 * k) 16 != 0), 0x05, 0)] ∧
    (let ty := b.extractLsb' 60 4
     let pitch := (b.extractLsb' 0 16).toNat
     let bad : Bool := b.extractLsb' 16 36 != 0 || !typed ty [.fp32, .fp16, .bf16, .nf, .nfs] ||
       (if ty == Ty.code .nfs then pitch != 0 else pitch % 128 != 0 || decide (pitch < if ty == Ty.code .fp32 then 256 else 128))
     refused (.mcommit pa pb pc x fa fr r sat) [(!isOwn a, 0x03, a), unaligned a, scope, (bad, 0x05, 0)])

/-- Matrix commands at issue: their entry, their checks, and their wait for rows. -/
def Obligations.MatrixCommands : Prop :=
  Claim.MatrixCommands ∧ Claim.MatrixRefusals

/-- R381 to R384, R388: `pull`, `pullg` and `coll` read the descriptor line in the issuer's slot, and where every check passes enter their
engine's queue, with the identifier busy; a busy identifier or a full queue makes them wait; an engine that is not enabled, and a descriptor
address that is refused, trap. -/
def Claim.EngineCommands : Prop :=
  ∀ (s : State) (pa pb pc : PReg) (k : Fin 4) (fa fr recd : Bool), Serving s → Fresh s →
    let a := s.act.p[pa].val
    let all (pull : Bool) : List Instr :=
      if pull then [.pull pa pb pc k fa fr recd, .pullg pa pb pc k fa fr recd] else [.coll pa pb pc k fa fr]
    (∀ pull, ∀ i ∈ all pull,
      (s.cl.clucfg.getLsbD (if pull then 1 else 0) = false → exec i s = trapsWith s 0x05 0) ∧
      (s.cl.clucfg.getLsbD (if pull then 1 else 0) = true →
        (a.extractLsb' 34 30 ≠ 0 → exec i s = trapsWith s 0x03 a) ∧
        (a.extractLsb' 34 30 = 0 → a.toNat % 128 ≠ 0 → exec i s = trapsWith s 0x02 a) ∧
        (a.extractLsb' 34 30 = 0 → a.toNat % 128 = 0 → s.inSlot1 a.toNat 128 = false → exec i s = trapsWith s 0x04 a))) ∧
    (∀ site, a.extractLsb' 34 30 = 0 → a.toNat % 128 = 0 → s.inSlot1 a.toNat 128 = true →
      s.checkOwn .load a.toNat = .ok site →
      let ws := wordsOf 16 (s.view site 128)
      (∀ gather : Bool, s.cl.clucfg.getLsbD 1 = true → formOk (ws.getD 0 0) = true → s.scopeFault pc = none → s.pullOk gather ws = true →
        s.sourceFault (ws.getD 0 0) = none →
        let i : Instr := if gather then .pullg pa pb pc k fa fr recd else .pull pa pb pc k fa fr recd
        let full : Prop := s.pulls[k].st = .busy ∨ Config.engineQueueSize ≤ (s.cl.pullQ.filter fun d => !d.started).length
        (full → exec i s = waits s) ∧
        (¬ full → ∃ c : PullCmd, c.num = s.cl.nextPull ∧ c.id = k ∧ c.reg = s.act.reg ∧ c.aid = s.act.aid ∧ c.desc = ws ∧
          c.user = s.act.p[pb].val ∧ c.gather = gather ∧ c.acq = fa ∧ c.rel = fr ∧ c.recd = recd ∧ c.started = false ∧
          exec i s = .next (completed { s with
            pulls := s.pulls.set k { st := .busy, reg := s.act.reg, addr := 0 },
            cl := { s.cl with pullQ := s.cl.pullQ ++ [c], nextPull := s.cl.nextPull + 1 },
            agenda := s.agenda ++ [.pullStart] } id))) ∧
      (∀ ms, s.cl.clucfg.getLsbD 0 = true → s.scopeFault pc = none → s.collRanges ws = true →
        s.memberTable (ws.getD 5 0).toNat (collSpec (ws.getD 0 0)).nmem = .ok ms →
        let i : Instr := .coll pa pb pc k fa fr
        let stage := (ws.getD 3 0).toNat
        let full : Prop := s.colls[k].st = .busy ∨ Config.engineQueueSize ≤ (s.cl.collQ.filter fun d => d.phase == .queued).length
        (s.membersOk ws ms = false → exec i s = trapsWith s 0x05 a) ∧
        (s.membersOk ws ms = true →
          s.stagePages stage ((stage % 0x10000 + 128 + 12 * (ws.getD 2 0).toNat + 0xFFFF) / 0x10000) = .ok () →
          (∀ p ∈ ms, s.isHere p = true ∨ s.placeFault p = none) →
          (full → exec i s = waits s) ∧
          (¬ full → ∃ c : CollCmd, c.id = k ∧ c.reg = s.act.reg ∧ c.aid = s.act.aid ∧ c.desc = ws ∧ c.members = ms ∧
            c.user = s.act.p[pb].val ∧ c.acq = fa ∧ c.rel = fr ∧ c.seed = s.seed ∧ c.phase = .queued ∧ c.lost = 0 ∧ c.round = 0 ∧
            exec i s = .next (completed { s with
              colls := s.colls.set k { st := .busy, reg := s.act.reg, addr := 0 },
              cl := { s.cl with collQ := s.cl.collQ ++ [c] },
              agenda := s.agenda ++ [.collStart] } id)))))

/-- R376, R381 to R383: the waits on the engines. `mwait` waits for the commands on its transfer, or for all of the activation, that were
queued before it. `pullw` and `collw` of an identifier that is free complete, of one of another region entry trap, of a busy one wait, and
of one that has ended free it and take its code as their trap, or complete; with all set they wait for every identifier of the region
entry. -/
def Claim.EngineWaits : Prop :=
  ∀ (s : State) (x : Fin 16) (all : Bool) (k : Fin 4), Serving s →
    let t := s.mx.xfers[x]
    let concerns (upto : Nat) : Bool := s.mx.queue.any fun c =>
      decide (c.num < upto) && (if all then c.aid == s.act.aid else c.names && c.x == x)
    let mw : Instr := .mwait x all
    (all = false → t.st ≠ .free → t.reg ≠ s.act.reg → exec mw s = trapsWith s 0x05 0) ∧
    (all = true ∨ t.st = .free ∨ t.reg = s.act.reg →
      (Fresh s → concerns s.mx.next = true → exec mw s = waitsFor s (.engWait s.mx.next)) ∧
      (Fresh s → concerns s.mx.next = false → exec mw s = .next (completed s id)) ∧
      (∀ n, s.act.phase = .engWait n → concerns n = true → exec mw s = waitsFor s (.engWait n)) ∧
      (∀ n, s.act.phase = .engWait n → concerns n = false → exec mw s = .next (completed s id))) ∧
    (∀ (coll : Bool),
      let one : Instr := if coll then .collw k false else .pullw k false
      let every : Instr := if coll then .collw k true else .pullw k true
      let ids := if coll then s.colls else s.pulls
      let e := ids[k]
      let freed : State := if coll then { s with colls := s.colls.set k EngId.reset } else { s with pulls := s.pulls.set k EngId.reset }
      (e.st = .free → exec one s = .next (completed s id)) ∧
      (e.st ≠ .free → e.reg ≠ s.act.reg → exec one s = trapsWith s 0x05 0) ∧
      (e.st = .busy → e.reg = s.act.reg → exec one s = waits s) ∧
      (e.st = .ended 0 → e.reg = s.act.reg → exec one s = .next (completed freed id)) ∧
      (∀ c, c ≠ 0 → e.st = .ended c → e.reg = s.act.reg → exec one s = freed.trapMem c (c == 0x0F) e.addr) ∧
      ((∃ i : Fin 4, ids[i].st = .busy ∧ ids[i].reg = s.act.reg) → exec every s = waits s) ∧
      ((∀ i : Fin 4, ids[i].reg = s.act.reg → ids[i].st = .free ∨ ids[i].st = .ended 0) →
        ∃ u, exec every s = .next (completed u id) ∧ u.act = s.act ∧ u.mem = s.mem ∧
          ∀ i : Fin 4, (if coll then u.colls else u.pulls)[i] =
            (if ids[i].st = .ended 0 ∧ ids[i].reg = s.act.reg then EngId.reset else ids[i])))

/-- Copy and collective commands at issue, and the waits on the engines. -/
def Obligations.EngineCommandsAndWaits : Prop :=
  Claim.EngineCommands ∧ Claim.EngineWaits

/-- R29, R135, R172, R280, R284: what a port does with a request that it accepts. A read is answered with the unit's line, words and
decoding; a store and an accepted write are performed; a deposit is performed and answered; a refusal names its code and changes no memory, as
does that of a tile's line whose scale byte is poisoned.
A reply to a load of the slot in service fills it. A line that a slot waits for stands in its buffer. -/
def Obligations.PortRequests : Prop :=
  ∀ (s : State) (who : Requester) (oa : Word) (u : AccUnit) (kind : AccKind) (d : WData) (site : Site) (req : DepositReq) (rid : Nat),
    let at' (site : Site) (oa : Word) (d : WData) (o : Out) : Prop := ∃ t, o = .next t ∧ t.mem = s.performAt site oa.toNat d
    (∀ e, s.cl.window oa.toNat ≠ .ctl → s.checkPort who kind oa.toNat = .ok site → s.tileBad site oa.toNat kind = false →
      s.readUnit site oa.toNat (unitTy u) u .other = .ok e →
      exec (.loadAtPort who oa u kind) s =
        .next (s.emit { outMsg .loadReply who.place oa who.rid 0 [] with words := s.replyWords who site oa.toNat kind e })) ∧
    (s.cl.window oa.toNat ≠ .ctl → s.checkPort who kind oa.toNat = .ok site → s.tileBad site oa.toNat kind = true →
      exec (.loadAtPort who oa u kind) s = .next (s.emit (outMsg .loadRefusal who.place oa who.rid 0x0F [0]))) ∧
    (∀ c m, s.cl.window oa.toNat ≠ .ctl → s.checkPort who kind oa.toNat = .fault c m →
      exec (.loadAtPort who oa u kind) s = .next (s.emit (outMsg .loadRefusal who.place oa who.rid c [0]))) ∧
    (s.cl.window oa.toNat ≠ .ctl → s.checkWrite who .store oa.toNat d = .ok site → at' site oa d (exec (.storeAccept who oa d) s)) ∧
    (∀ c m, s.cl.window oa.toNat ≠ .ctl → s.checkWrite who .store oa.toNat d = .fault c m →
      exec (.storeAccept who oa d) s = .next (s.emit (outMsg .negReply who.place oa who.rid c []))) ∧
    (s.acceptedSite oa.toNat = .ok site → at' site oa d (exec (.storePerform oa d) s)) ∧
    (s.checkDeposit req = .ok site →
      ∃ t, exec (.depositAtOwner req) s = .next t ∧ t.mem = s.performAt site req.oa.toNat req.data ∧ Answered s t req.who 0) ∧
    (∀ c m, c ≠ 0 → s.checkDeposit req = .fault c m →
      ∃ t, exec (.depositAtOwner req) s = .next t ∧ t.mem = s.mem ∧ Answered s t req.who c) ∧
    (∀ e line tags stamp r n, s.cl.fills = [] → s.joins = [] → s.pkg.mbFwd = none → s.act.phase = .loadWait rid n →
      (∀ i : Fin 5, i < s.cur → ∀ k, (s.slotAct i).phase ≠ .loadWait rid k) →
      exec (.loadReply rid (.data e line tags stamp r 0)) s = .next (s.mapAct fun a => { a with phase := .loaded e }).unblock) ∧
    (∀ slot bs, slotIdx slot = s.cur → s.act.live = true → isOwn s.act.pc = true → s.act.heldLine s.act.pc = none → Fresh s →
      s.readLine s.act.pc = .ok bs →
      exec (.fetchLine slot s.act.pc) s = .next (s.mapAct fun a =>
        { a with ibuf := (lineOf a.pc, bs) :: a.ibuf.filter fun e => e.1 != lineOf a.pc }).unblock)

/-- R51, R59 to R68, R75, R356: translation at the home. A `tlbw` or `tlbi` of another cell is applied and answered; an acknowledgement
lets the slot's `tlbi` complete; the enable of tlbctl takes effect; a page fault parks its activation in a free frame with its notice, or,
where the region has no frames, is the trap 0x04 at the address; a `pready` from another cell makes a matching parked activation runnable. -/
def Obligations.TranslationAtHome : Prop :=
  ∀ (s : State) (mw dw arg oa p1 frame rcb : Word) (m : BitVec 2) (slot : Fin 4) (n : BitVec 8) (issuer : Nat),
    (∀ t, s.tlbwHome mw dw = some t →
      exec (.tlbwAtHome mw dw) s = .next (t.emit (outMsg .posReply s.cl.place 63 0 0 []))) ∧
    (s.tlbwHome mw dw = none →
      exec (.tlbwAtHome mw dw) s = .next (s.emit (outMsg .negReply s.cl.place 63 0 0x05 []))) ∧
    (s.portHolds inDram = false → s.oldWaits = false → ∃ t, exec (.tlbiAtHome m arg) s = .next t ∧ t.cl.epoch = s.cl.epoch + 1 ∧ t.mem = s.mem ∧ t.act = s.act ∧
      Left t .shootdown s.cl.place m.toNat 0 ∧
      ∀ e, e ∈ t.cl.tlb ↔ e ∈ s.cl.tlb ∧ (m = 0 → e.covers (arg.extractLsb' 16 17).toNat = false) ∧
        (m = 1 → e.vf.val ≠ (arg.extractLsb' 0 4).toNat) ∧ (m = 0 ∨ m = 1)) ∧
    (s.act.phase = .ackWait → exec (.shootdownAck (slotOfIdx s.cur)) s = .next (s.mapAct fun a => { a with phase := .ackDone }).unblock) ∧
    (s.cl.tlbctl = true ∨ s.portHolds inDram = false → exec .tlbctlEnable s = .next { s with cl := { s.cl with tlbctl := true } }) ∧
    (slotIdx (.gen slot) = s.cur → s.act.live = true → s.act.olderWait = false → s.act.phase = .missWait oa →
      ((s.regEntry.info.save = 0 ∨ s.regEntry.info.nfr = 0) →
        exec (.pageFault (.gen slot) oa p1) s = trapsWith (s.mapAct fun a => { a with phase := .none }) 0x04 oa) ∧
      (∀ t f, s.regEntry.info.save ≠ 0 → s.regEntry.info.nfr ≠ 0 → s.park s.act.trapPc oa p1 [] false = .parked t f →
        exec (.pageFault (.gen slot) oa p1) s =
          .next (t.noticeFrom s.lcell (Fin.ofNat 64 s.regEntry.info.ctlc.toNat) s.regEntry.info.trapc
            (plainWords [f, oa, 0x8000000000000004#64])))) ∧
    (∀ p w1 w40 w41, s.me.fenced = false → (s.parked.find? fun q => q.frame == frame) = some p →
      s.frameMarks frame.toNat = .ok (w1, w40, w41) →
      let taken : Prop := w1 = p.word1 ∧ w40 = p.word40 ∧ w41 = p.word41 ∧ p.byPause = false ∧ p.runnable = false ∧
        rcb ∈ s.me.regs[p.act.reg].info.chain
      (taken →
        ∃ t, exec (.preadyAtCell frame rcb false n issuer) s = .next t ∧ Left t .posReply s.cl.place issuer 0 ∧ t.mem = s.mem ∧
          t.parked = s.parked.map fun q => if q.frame = frame then { q with runnable := true } else q) ∧
      (¬ taken →
        exec (.preadyAtCell frame rcb false n issuer) s =
          .next (s.emit (outMsg .negReply s.cl.place frame issuer 0x05 []))))

/-- R71, R79, R96 to R106, R463: the upkeep of a cluster. A pending frame of the slice is scrubbed: every byte of it reads as zero, no other
changes, and, if no host holds a line of it, it is clean, but where a partition released it only when that partition's reflection caches have answered that they hold
nothing (that one message asks them all is the model's choice, log 104); the patrol poisons a line that it cannot correct; a change of the cistern's mode begins, with busy set, and ends
with the mode changed, busy clear and its event posted, the return to serve mode with the publish counter raised; a refresh window sets the
timebase, and its end lets the waiting accesses go on; an event takes the tail of a queue that has room, and waits for room in one that is
full; the control cell's head takes effect. -/
def Obligations.ClusterUpkeep : Prop :=
  ∀ (s : State) (frame : BitVec 16) (line : Nat) (cell : Fin 64) (tick rcb : Word) (kind : BitVec 8) (code : Code) (lcell : BitVec 15)
    (user addr detail : Word) (head : BitVec 9),
    let lo := frame.toNat * 0x10000
    (frame.toNat < Config.sliceFrames → s.cl.clean.contains frame.toNat = false → s.mem.wf = true → rising s.cl.clean = true →
      (∀ x ∈ s.cl.scrubs, x.2 ≠ frame.toNat) → s.oldWaits = false → s.cl.power ≠ .off →
      (∀ d ∈ s.cl.dir, d.line / 0x10000 ≠ frame.toNat) →
      ∃ t, exec (.scrubFrame (.own frame)) s = .next t ∧ t.mem.wf = true ∧
        (∀ k, t.mem.byteAt k = if lo ≤ k ∧ k < lo + 0x10000 then 0 else s.mem.byteAt k) ∧
        (s.cl.freedBy frame.toNat = none → t.cl.clean.contains frame.toNat = true) ∧
        (∀ p, s.cl.freedBy frame.toNat = some p →
          t.cl.clean = s.cl.clean ∧ (∃ rid, (rid, frame.toNat) ∈ t.cl.scrubs ∧ Left t .invalidate s.cl.place rid 0) ∧
            (p = s.cl.ptn → t.cl.refl = []))) ∧
    (∀ place rid, ∃ t, exec (.scrubFrame (.other place s.cl.ptn rid)) s = .next t ∧ t.cl.refl = [] ∧ t.mem = s.mem ∧
      Left t .posReply place rid 0) ∧
    (∀ rid f, s.cl.launches = [] → s.ridSaved rid = false → s.pkg.mbFwd = none → s.cl.scrubs.find? (fun x => x.1 == rid) = some (rid, f) →
      ∃ t, exec (.positiveReply rid) s = .next t ∧ t.mem = s.mem ∧ t.cl.clean.contains f = true) ∧
    (s.cl.clucfg.extractLsb' 4 2 = 1 → line < Config.sliceFrames * 512 →
      (∀ a b, a ≠ b → exec (.patrolRead line [a, b]) s = .next { s with mem := s.mem.setPoison (line * 128) true }) ∧
      (∀ a, exec (.patrolRead line [a]) s = .next s) ∧ exec (.patrolRead line []) s = .next s) ∧
    (s.cl.fill = false → s.cl.busy = false → s.engineBusy = false →
      s.othersInSlots { cell := cell, ctlc := cell.val, rcb := rcb, own := false } = false →
      exec (.csetCisternFill { cell := cell, rcb := rcb }) s = .next { s with
        cl := { s.cl with busy := true, cisIssuer := s.lcellOf cell },
        agenda := s.agenda ++ [.fillDone] }) ∧
    (s.cl.fill = true → s.cl.busy = false →
      exec (.csetCisternServe cell) s = .next { s with cl := { s.cl with busy := true, cisIssuer := s.lcellOf cell },
                                                        agenda := s.agenda ++ [.serveDone] }) ∧
    (s.cl.busy = true → s.cl.fill = false → s.shareWaits = false →
      ∃ t, exec .fillModeEntered s = .next t ∧ t.cl.fill = true ∧ t.cl.busy = false ∧ t.cl.pubctr = s.cl.pubctr ∧ t.mem = s.mem) ∧
    (s.cl.busy = true → s.cl.fill = true → s.shareWaits = false →
      ∃ t, exec .serveModeReturn s = .next t ∧ t.cl.fill = false ∧ t.cl.busy = false ∧ t.cl.pubctr = s.cl.pubctr + 1 ∧ t.mem = s.mem) ∧
    (tick.toNat % 1200000 = 0 →
      exec (.refreshWindowStart tick) s =
        .next ({ s with cl := { s.cl with aktime := if s.cl.aktime.toNat < tick.toNat then tick else s.cl.aktime } }).wakeHeld) ∧
    (tick.toNat % 1200000 = 1200 →
      ∃ t, exec (.refreshWindowEnd tick) s = .next t ∧ t.cl.held = [] ∧ t.agenda = s.agenda ++ s.cl.held ∧ t.mem = s.mem ∧
        t.cl.aktime = if s.cl.aktime.toNat < tick.toNat then tick else s.cl.aktime) ∧
    (let ev : Instr := .eventPost kind code lcell user addr detail
     (s.cl.evTail - s.cl.evHead ≠ 256 → s.cl.evWait = [] →
       ∃ t, exec ev s = .next t ∧ t.cl.evTail = s.cl.evTail + 1 ∧ t.cl.evSeq = s.cl.evSeq + 1 ∧ t.mem = s.mem ∧
         let e := t.cl.evRing[Fin.ofNat 256 s.cl.evTail.toNat]
         e.w0 = (kind ++ code ++ s.cl.evSeq ++ 0#17 ++ lcell : BitVec 64) ∧ e.w1 = user ∧ e.w2 = addr ∧ e.w3 = detail) ∧
     (s.cl.evTail - s.cl.evHead = 256 ∨ s.cl.evWait ≠ [] →
       ∃ e, exec ev s = .next { s with cl := { s.cl with evWait := s.cl.evWait ++ [e] } } ∧ e.w1 = user ∧ e.w2 = addr ∧ e.w3 = detail)) ∧
    ((head - s.cl.evHead).toNat ≤ (s.cl.evTail - s.cl.evHead).toNat →
      ∃ t, exec (.csetEvqHead head) s = .next t ∧ t.cl.evHead = head ∧ t.mem = s.mem ∧ t.act = s.act)

/-- R42, R90, R151 to R154, R164, R220, R316, R320: publication, watches and barriers from the side that serves them. A walk that has room
enters the queue; the walker at an advance without a root, and with no shade of its word pending, adds one to the sequence word, lights its
line, raises the publish counter and ends the walk; a word that is all ones fails it with 0x05; a watch is answered at once or kept; an answer
sets its register; a placement that was turned away is sent again; a `barset` check names an absent cell; a signal is noted; a release
clears arr and flips ph. -/
def Obligations.SynchronizationEvents : Prop :=
  ∀ (s : State) (ent : WalkEnt) (rest : List WalkEnt) (req : WatchReq) (rid : Nat) (ans : WatchAns) (who : Requester) (rect : BitVec 32)
    (b : Fin 4) (err : Bool) (site : Site),
    let q := s.me.bars[b]
    (s.cl.walkQ.length < Config.walkQueueSize →
      exec (.walkQueueEnter ent) s =
        .next { s with cl := { s.cl with walkQ := s.cl.walkQ ++ [ent] }, agenda := s.agenda ++ [.lampWalk] }) ∧
    (s.cl.walk = none → s.cl.walkQ = ent :: rest → ent.root = none → (∀ h ∈ s.cl.shades, h.word ≠ ent.word) →
      s.checkPort { s.deviceReq with lcell := ent.who } .atomic ent.word.toNat = .ok site →
      let v := wordOf (s.view site 8)
      (v ≠ 0xFFFFFFFFFFFFFFFF#64 →
        ∃ t, exec .lampWalk s = .next t ∧ t.cl.walkQ = rest ∧ t.cl.pubctr = s.cl.pubctr + 1 ∧
          t.mem = (s.mem.performBytes site (bytesOf (v + 1)) [false]).setLit site.key true) ∧
      (v = 0xFFFFFFFFFFFFFFFF#64 →
        ∃ t, exec .lampWalk s = .next t ∧ t.cl.walkQ = rest ∧ t.cl.pubctr = s.cl.pubctr ∧ t.mem = s.mem ∧
          (ent.who = s.lcell → slotIdx ent.slot = s.cur → s.act.phase = .walkWait → t.act.phase = .walkFail 0x05 ent.word))) ∧
    (∀ a, s.watchNow req = some a → exec (.watchAtOwner req) s = .next (s.sendWatchAns req a)) ∧
    (s.watchNow req = none → s.checkPort req.who .load req.oa.toNat = .ok site → s.cl.watches.length < Config.maxWatches →
      exec (.watchAtOwner req) s = .next { s with cl := { s.cl with watches := s.cl.watches ++ [req] } }) ∧
    ((∀ e ∈ s.acquiring, e.1 ≠ rid) → s.watchSaved rid = false →
      ∃ t, exec (.watchAnswer { rid := rid, sibling := none } ans) s = .next t ∧ t.mem = s.mem ∧
        ∀ k : Fin 4, s.act.watch[k].st = .pending → s.act.watch[k].rid = rid →
          (∀ v c, ans = .met v c → t.act.watch[k].st = .answered ∧ t.act.watch[k].val = v) ∧
          (∀ c, ans = .refused c → t.act.watch[k].st = .failed ∧ t.act.watch[k].code = c)) ∧
    (∀ w, (s.allWatches.find? fun w => w.st == WatchSt.pending && w.rid == rid) = some w → s.isHere w.addr = true →
      exec (.watchReplace rid) s = .next { s with
        agenda := s.agenda ++ [.watchPlace { who := { s.requester with rid := w.rid }, oa := BitVec.ofNat 64 (oaOf w.addr),
                                             thresh := w.thresh, acq := w.acq }] }) ∧
    exec (.barsetCheck who rect) s =
      .next (s.emit (outMsg .barAns who.place (rect.setWidth 64) who.rid ((s.turnsAway who).getD (if s.rectAbsent (rectOf rect) then 0x04 else 0)) [])) ∧
    (s.barSaved b rect = false → q.arr = false →
      let bad := q.bad || err || !q.bound || q.rect != rect
      exec (.barrierSignal b rect .row err) s = .next (s.setBar b { q with west := true, bad }) ∧
      exec (.barrierSignal b rect .col err) s = .next (s.setBar b { q with north := true, bad })) ∧
    (s.barSaved b rect = false → q.arr = true → ∃ t, exec (.barrierRelease b rect err) s = .next t ∧
      t.me.bars[b] = { q with arr := false, ph := !q.ph, err, west := false, north := false, bad := false })

/-- R167 to R169, R175 to R177, R191, R328, R329, R400: requests at their owner and the answers to them. An atomic request joins the queue of
its cell; the atomic slot takes the next one and, where it keeps no older translation, runs a built-in operation and answers with the old word, or starts the user handler at its
entry with the target and the operands in P0 to P7; the 257th instruction of a handler aborts it with 0x0B; an atomic reply fills its place
of LDQ, a positive reply frees its reply-table entry, a refusal is reported to the activation, and one of retry below the limit marks the
request to be sent again; a landing frees its token, and an expiry makes it dead. -/
def Claim.RequestsAndReplies : Prop :=
  ∀ (s : State) (req : AtomReq) (rest : List AtomReq) (site site2 : Site) (run : AtomRun) (rid : Nat) (e : ReplyEnt) (q : QEntry) (c : Code)
    (tok : BitVec 24) (k : TokEnt),
    let oa := req.oa.toNat
    (s.cells[s.atomicCell oa].fenced = true →
      ∃ t, exec (.atomicRequestArrival req) s = .next t ∧ t.mem = s.mem ∧ Answered s t req.who 0x0C) ∧
    (s.cells[s.atomicCell oa].fenced = false → s.atomicCell oa = s.self → s.atomQ.length < Config.atomicQueueSize →
      exec (.atomicRequestArrival req) s = .next { s with atomQ := s.atomQ ++ [req] }) ∧
    (s.atomBusy = false → s.atomQ = req :: rest → (∀ y ∈ s.atomOld, y.1 ≠ req) →
      (∀ r t, req.op ≠ .user → (({ s with atomQ := rest }.wakeHeld).without req).runBuiltin req = .ok (r, t) →
        ∃ u, exec .atomicRun s = .next u ∧ u.mem = t.mem ∧ u.atomRun = t.atomRun ∧
          (t.isSelf req.who = true → .atomReply req.who.rid r ∈ u.agenda)) ∧
      (req.op = .user → ({ s with atomQ := rest }.wakeHeld).checkPort req.who .atomic oa = .ok site → s.me.handlers[30].v = true →
        s.cur ≠ 4 →
        ∃ u, exec .atomicRun s = .next u ∧ u.mem = s.mem ∧ u.atomQ = rest ∧
          u.atomRun = some { req, line := site.key / 128 * 128, stores := [], issued := 0 } ∧
          let a := u.slots[(4 : Fin 5)]
          a.live = true ∧ a.chan = 30 ∧ a.pc = s.me.handlers[30].entry.setWidth 64 ∧ a.p[0].val = req.oa ∧ a.p[0].tag = false ∧
            ∀ i : Fin 7, a.p[i.val + 1].val = (req.words.getD i.val { val := 0, tag := false }).val)) ∧
    (∀ x b, s.checkPort req.who .atomic oa = .ok site → req.size = 8 → wordOf (s.view site 8) = x →
      req.words.getD 0 { val := 0, tag := false } = { val := b, tag := false } → req.op = .add →
      s.checkWrite req.who .atomic oa (.bytes (bytesOf (x + b)) [false]) = .ok site2 →
      ∃ r t, s.runBuiltin req = .ok (r, t) ∧ r.data = [x] ∧ r.tags = 0 ∧ t.mem = s.performAt site2 oa (.bytes (bytesOf (x + b)) [false])) ∧
    (s.atomRun = some run → s.cur = 4 →
      ∃ t, exec .atomicOverrun s = .next t ∧ t.atomRun = none ∧ t.act = Act.idle ∧ t.mem = s.mem ∧ Answered s t run.req.who 0x0B) ∧
    (s.replyOf rid = some e → s.cl.launches = [] → s.ridSaved rid = false → s.pkg.mbFwd = none →
      (∃ t, exec (.atomicReply rid q) s = .next t ∧ t.mem = s.mem ∧ t.replies = (s.replies.filter fun x => x.rid != rid) ∧
        t.act.ldq = s.act.ldq.map fun p => if p = .reserved rid then .filled q else p) ∧
      (∃ t, exec (.positiveReply rid) s = .next t ∧ t.mem = s.mem ∧ t.replies = s.replies.filter fun x => x.rid != rid) ∧
      (e.retries < 64 → ∀ a', exec (.negativeReply rid 0x0C a') s = .next { s with replies := s.replies.map fun x =>
        if x.rid = rid then { x with retries := x.retries + 1, waiting := true } else x }) ∧
      (c ≠ 0x0C ∨ 64 ≤ e.retries → e.asked = 0 → s.act.live = true → s.act.aid = e.aid → s.cur = 0 →
        ∀ a', ∃ t, exec (.negativeReply rid c a') s = .next t ∧ t.mem = s.mem ∧ (t.replies = s.replies.filter fun x => x.rid != rid) ∧
          ∃ i : TrapInfo, t.act.deferred = s.act.deferred ++ [i] ∧ i.code = c ∧ i.pc = e.pc ∧ i.tok = e.tok ∧
            i.addr = match a' with
              | none => e.target
              | some x => faultAddr (if isOwn e.target then x else prefixOf e.target ||| x) c) ∧
      (e.waiting = true → (∃ t0, e.todo = some t0) →
        ∃ t t0, exec (.retryResend rid) s = .next t ∧ t.mem = s.mem ∧ e.todo = some t0 ∧ t.agenda = s.agenda ++ [t0] ∧
          t.replies = s.replies.map fun x => if x.rid = rid then { x with waiting := false } else x)) ∧
    ((s.toks.find? fun x => x.tok == tok && x.st == .pending) = some k →
      (s.landSaved tok = false → ∃ t, exec (.landingAck tok) s = .next t ∧ t.mem = s.mem ∧ (t.toks = s.toks.filter fun x => x.tok != tok) ∧
        ∀ d ∈ k.dests, Left t .release (d.1.setWidth 64) 0 0) ∧
      (tok ≠ 0 → s.act.live = true → s.act.aid = k.aid → s.cur = 0 →
        ∃ t, exec (.tokenExpiry tok) s = .next t ∧ t.mem = s.mem ∧
          (t.toks = s.toks.map fun x => if x.tok = tok then { x with st := .dead } else x) ∧
          ∃ i : TrapInfo, t.act.deferred = s.act.deferred ++ [i] ∧ i.code = 0x0A ∧ i.tok = tok ∧ i.addr = k.target))

/-- R192, R193: the hold queue. A message held on a token passes where a release record counts it, waits where the queue has room, and is
refused with 0x0D where it is full; a release lets as many waiting messages pass as it counts and records the rest; a cancel and a timer
refuse what they name with 0x0A; a record that expires is deleted. -/
def Claim.HoldQueue : Prop :=
  ∀ (s : State) (h : HeldMsg) (rel : RelEnt) (tok : BitVec 24) (n : RelCount) (hid : Nat),
    (s.cl.relOf h.tok = some rel →
      exec (.heldMessageArrival h) s = .next ({ s with cl := s.cl.spendRel h.tok 1 }.passHeld h).wakeHeld) ∧
    (s.cl.relOf h.tok = none → s.cl.holdUsed (s.heldPtn h) < s.holdQuota (s.heldPtn h) →
      exec (.heldMessageArrival h) s = .next { s with cl := { s.cl with hold := s.cl.hold ++ [{ held := h }] } }) ∧
    (∀ req, s.cl.relOf h.tok = none → s.holdQuota (s.heldPtn h) ≤ s.cl.holdUsed (s.heldPtn h) → h.body = HeldBody.deposit req →
      ∃ t, exec (.heldMessageArrival h) s = .next t ∧ t.mem = s.mem ∧ Answered s t req.who 0x0D) ∧
    ((∀ e ∈ s.cl.hold, e.held.tok ≠ tok) → n.count ≠ 0 → s.cl.relOf tok = none → s.relRoom (n.ptn.getD s.cl.ptn) = true →
      exec (.releaseNotice tok n) s =
        .next { s with cl := { s.cl with rels := s.cl.rels ++ [{ tok, count := n.count, ptn := n.ptn.getD s.cl.ptn }] } }) ∧
    (∀ e req, s.cl.hold = [e] → e.held.tok = tok → e.held.body = HeldBody.deposit req →
      (e.held.other = none → exec (.releaseNotice tok { count := 1 }) s =
        .next ({ s with cl := { s.cl with hold := [] }, agenda := s.agenda ++ [Todo.deposit req] }).unblock) ∧
      (∀ c p, e.held.other = some (c, p) → ∃ t m, exec (.releaseNotice tok { count := 1 }) s = .next t ∧ t.cl.hold = [] ∧ t.mem = s.mem ∧
        t.agenda = s.agenda ∧ t.out = m :: s.out ∧ m.kind = .depositReq ∧ m.addr = req.oa ∧ m.ptn = p ∧ m.route.die = c.extractLsb' 6 3 ∧
        m.route.pclu = c.extractLsb' 0 6) ∧
      (∃ t, exec (.cancelNotice tok) s = .next t ∧ t.cl.hold = [] ∧ t.mem = s.mem ∧ Answered s t req.who 0x0A) ∧
      (e.held.hid = hid → ∃ t, exec (.holdTimerExpiry tok hid) s = .next t ∧ t.cl.hold = [] ∧ t.mem = s.mem ∧ Answered s t req.who 0x0A)) ∧
    (∃ t, exec (.cancelNotice tok) s = .next t ∧ t.mem = s.mem ∧ t.cl.hold = s.cl.hold.filter fun e => e.held.tok != tok) ∧
    (∃ t, exec (.releaseRecordExpiry tok) s = .next t ∧ t.mem = s.mem ∧ t.cl.rels = s.cl.rels.filter fun r => r.tok != tok)

/-- Atomic requests at their owner, replies, and the hold queue. -/
def Obligations.RequestsAndReplies : Prop :=
  Claim.RequestsAndReplies ∧ Claim.HoldQueue

/-- R203, R207 to R218, R340: messages and activations at the cell. A message that the cell takes joins its inbox and is answered; one of a
channel without an entry is refused; a yield buffer's message leaves it for the inbox; the pump replays the lines of a sump; a free slot starts
the oldest message of the chosen channel in the state of R213, with its watches empty, and a slot that is taken is left alone (log 12); a
grant is held up to its limit, and a request for one is answered from the control block, one unit of spawn credit at a time (log 31). -/
def Obligations.MessagesAtTheCell : Prop :=
  ∀ (s : State) (who : Requester) (msg : Msg) (tok : BitVec 24) (i : Fin 4) (y : YieldMsg) (c : BitVec 5) (m : InMsg) (r : Fin 8) (n : Nat)
    (what : GrantKind) (rcb : Word) (b : Rcb),
    let k := msg.chan
    let calm : Prop := s.me.fenced = false ∧ s.me.evicted = false ∧ s.cl.power ≠ .hold ∧ s.cl.clockStop = false ∧ s.mesh = []
    (calm → s.delivery { who := who, msg := msg, tok := tok } = .here → msg.kind = .data →
      s.msgRefusal { who := who, msg := msg, tok := tok } = 0 → s.inbox.length < Config.inboxLimit → (s.chanReg k).sumpEmpty = true →
      ∃ t, exec (.messageArrival who msg tok) s = .next t ∧ t.inbox = s.inbox ++ [{ who := who, msg := msg, tok := tok }] ∧ t.mesh = [] ∧ t.mem = s.mem ∧
        Answered s t who 0) ∧
    (calm → s.delivery { who := who, msg := msg, tok := tok } = .here → msg.kind = .data → msg.chan.toNat < 29 →
      (s.entryOf k).v = false → s.me.ended.getLsbD k.toNat = false →
      ∃ t, exec (.messageArrival who msg tok) s = .next t ∧ t.inbox = s.inbox ∧ t.mesh = [] ∧ t.mem = s.mem ∧ Answered s t who 0x04) ∧
    (calm → s.yieldBuf[i] = some y → y.msg.chan.toNat < 29 → (s.entryOf y.msg.chan).v = true → y.msg.kind = .data → y.msg.spw = false →
      s.inbox.length < Config.inboxLimit → (s.chanReg y.msg.chan).sumpEmpty = true → s.replies.length < Config.replyTableSize →
      ∃ t x, exec (.yieldBufferSend i) s = .next t ∧ t.yieldBuf[i] = none ∧ t.inbox = s.inbox ++ [x] ∧ x.msg = y.msg ∧ t.mem = s.mem) ∧
    (s.mesh = [m] → s.pumping = false → Config.replayLevel < s.inbox.length → m.msg.kind = .data → s.msgRefusal m = 0 →
      s.inbox.length < Config.inboxLimit → (s.chanReg m.msg.chan).sumpEmpty = true →
      ∃ t, exec .pumpReplay s = .next t ∧ t.inbox = s.inbox ++ [m] ∧ t.mesh = [] ∧ t.mem = s.mem ∧ Answered s t m.who 0) ∧
    (∀ site, s.mesh = [] → s.pumping = true → s.inbox.length + 1 = Config.inboxLimit → s.nextSump = some r →
      s.me.regs[r].sumpChans.head? ≠ some takenChan →
      s.checkPort s.cellReq .load (s.sumpLine s.me.regs[r] s.me.regs[r].sumpHead) = .ok site →
      ∃ t x, exec .pumpReplay s = .next t ∧ t.inbox = s.inbox ++ [x] ∧ x.msg = msgOfLine (s.view site 128) ∧ t.pumping = false ∧
        t.me.regs[r].sumpHead = s.me.regs[r].sumpHead + 1 ∧ t.mem = s.mem) ∧
    ((s.slotAct (slotIdx (.gen i))).live = true → exec (.selection i) s = .next s) ∧
    ((s.slotAct (slotIdx (.gen i))).live = false → s.askLacking = s → s.choose = some c → s.runnableOf c = none → s.pendingOf c = some m →
      ∃ t, exec (.selection i) s = .next t ∧ t.inbox = s.inbox.erase m ∧ t.mem = s.mem ∧
        let a := t.slotAct (slotIdx (.gen i))
        let h := s.entryOf c
        a.live = true ∧ a.chan = m.msg.chan ∧ a.reg = h.reg ∧ a.pc = h.entry.setWidth 64 ∧ a.tm = false ∧ a.a = 0 ∧ a.k = 0 ∧
          a.aid = s.nextAid ∧ a.ldq = [] ∧ a.stq = [] ∧ a.xq = [] ∧ a.prio = h.pri ∧ a.v = Vector.replicate 32 0 ∧ a.vtag = 0 ∧
          a.f = { z := false, n := false, c := false, o := false, x := false } ∧ a.toks = Vector.replicate 4 0 ∧
          a.loop.count = 0 ∧ a.loop.start = 0 ∧ a.loop.stop = 0 ∧ (∀ j : Fin 4, a.watch[j].st = .empty ∧ a.watch[j].val = 0) ∧
          ∀ j : Fin 8, a.p[j].step = 0 ∧
            (j.val < h.len.toNat → a.p[j].val = (m.msg.words.getD j.val { val := 0, tag := false }).val ∧
              a.p[j].tag = (m.msg.words.getD j.val { val := 0, tag := false }).tag) ∧
            (h.len.toNat ≤ j.val → a.p[j].val = 0 ∧ a.p[j].tag = false)) ∧
    (let e := s.me.regs[r]
     ∃ t, exec (.grantArrival r what n) s = .next t ∧ t.mem = s.mem ∧
       t.me.regs[r] = (match what with
         | .activations => { e with askedA := false, acts := min 64 (e.acts + n) }
         | .cycles => { e with askedC := false, cycles := min 65536 (e.cycles + n) }
         | .credit => { e with askedS := false, credit := min 16 (e.credit + n) })) ∧
    (let g : Instr := .grantRequest rcb who what
     let asks := s.payerNow [] (grantWord what) who.rcb true 9
     let left := (b.w (grantWord what)).toNat % 2 ^ grantBits what
     (s.stopsFor who = true → exec g s = .next (s.hold (.ask rcb who what []))) ∧
     (∀ c, s.stopsFor who = false → s.turnsAway who = some c → exec g s = .next (s.emit (outMsg .negReply who.place rcb who.rid c []))) ∧
     (s.stopsFor who = false → s.turnsAway who = none →
       (asks = .ok none → exec g s = .next ((s.sendGrant who rcb what (grantChunk what)).unblock)) ∧
       (asks = .ok (some (b, false)) → exec g s = .next (s.hold (.ask rcb who what []))) ∧
       (asks = .ok (some (b, true)) → s.isHere b.addr = false →
         ∃ t, exec g s = .next t ∧ Left t .grantReq (prefixOf b.addr) who.rid 0 ∧ t.mem = s.mem) ∧
       (asks = .ok (some (b, true)) → s.isHere b.addr = true →
         (left = 0 → what = .credit → exec g s = .next (s.hold (.ask b.addr who what []))) ∧
         (left = 0 → what ≠ .credit →
           ∃ t reason, exec g s = .next t ∧ .regionCmd s.deviceReq b.addr 2 0 reason [] ∈ t.agenda ∧ .ask b.addr who what [] ∈ t.cl.held ∧
             t.mem = s.mem) ∧
         (left ≠ 0 →
           let n := min (grantChunk what) left
           exec g s = .next (((s.rcbWrite b.addr (8 * grantWord what)
             [b.w (grantWord what) - BitVec.ofNat 64 n]).sendGrant who b.addr what n).unblock)))))

/-- R199 to R205: regions. A command for a region in no state for it is refused with 0x05, for one that has ended with 0x11; a pause, resume and
end change the state field of the control block and what the home records as running; the cells do their part: a paused entry is not selected,
and an ended one is gone with its messages; a record installs its entry in the cells that it names; a report is counted; the mailbox finds
the region's home. -/
def Obligations.RegionCommands : Prop :=
  ∀ (s : State) (rcb : Word) (who : Requester) (tok : BitVec 24) (b : Rcb) (chain : List Rcb) (rec' : InstallRec) (t : State) (r : Fin 8)
    (ptn : BitVec 24) (k : BitVec 4) (starts ends cycles : Nat) (reason : BitVec 8),
    let cmd (k : Nat) : Instr :=
      if k = 1 then .regionLaunch rcb who tok else if k = 2 then .regionPause rcb who tok 3
      else if k = 3 then .regionResume rcb who tok else .regionEnd rcb who tok
    let pod := s.podOf rcb
    (s.isHere rcb = true → ((∃ l ∈ s.cl.launches, l.rcb = pod) ∨ (∃ e ∈ s.cl.ends, e.rcb = pod) ∨ s.stopsFor who = true) →
      ∀ k, 1 ≤ k → k ≤ 4 → exec (cmd k) s = .next (s.hold (.regionCmd who pod (BitVec.ofNat 4 k) tok 3 []))) ∧
    (s.isHere rcb = true → (∀ l ∈ s.cl.launches, l.rcb ≠ pod) → (∀ e ∈ s.cl.ends, e.rcb ≠ pod) → s.stopsFor who = false →
      s.turnsAway who = none → s.rcbChain [] pod 9 = .ok (b :: chain) →
      ((∀ c ∈ b :: chain, c.addr ≠ who.rcb) → isHost who = false →
        ∀ k, 1 ≤ k → k ≤ 4 → exec (cmd k) s = .next (s.cmdReply who pod tok 0x05)) ∧
      ((∃ c ∈ b :: chain, c.addr = who.rcb) →
        (b.state = 3 → ∀ k, 1 ≤ k → k ≤ 4 → exec (cmd k) s = .next (s.cmdReply who pod tok 0x11)) ∧
        (b.state = 0 → ∀ k, 2 ≤ k → k ≤ 4 → exec (cmd k) s = .next (s.cmdReply who pod tok 0x05)) ∧
        (b.state = 0 → s.launch [] (b :: chain) b who tok = .ok t → exec (cmd 1) s = .next t.unblock) ∧
        (b.state = 1 → exec (cmd 2) s = .next ((s.pauseRegion (b :: chain) b 3).cmdReply who b.addr tok 0).unblock) ∧
        (b.state = 2 → b.budgetGone = true → exec (cmd 3) s = .next (s.cmdReply who pod tok 0x11)) ∧
        (b.state = 2 → b.budgetGone = false → s.treeEvicted (b :: chain) = false →
          exec (cmd 3) s = .next ((s.resumeRegion (b :: chain) b).cmdReply who b.addr tok 0).unblock) ∧
        (b.state = 1 ∨ b.state = 2 → exec (cmd 4) s = .next (s.endRegion (b :: chain) b (some who) tok).unblock)) ∧
      b.addr = pod ∧
      (s.pauseRegion (b :: chain) b reason).cl.running = s.cl.running.filter (fun x => x != pod) ∧
      (s.endRegion (b :: chain) b (some who) tok).agenda = s.agenda ++ [.endAtCell pod, .endDone pod] ∧
      (s.endRegion (b :: chain) b (some who) tok).mem = s.mem ∧
      pod ∈ (s.resumeRegion (b :: chain) b).cl.running) ∧
    (∀ x : EndRun, s.cl.ends = [x] → x.rcb = pod →
      ((s.me.regOf pod).isSome = true → s.endGo pod = .next (s.hold (.endDone pod))) ∧
      ((s.me.regOf pod).isNone = true → s.regionSaved pod = false → s.rcbAt [] pod = .ok b →
        s.rcbPut pod 0 [(3#2 ++ (b.w 0).extractLsb' 0 62 : BitVec 64)] = .ok t →
        s.endGo pod = .next (t.endFinish x) ∧ (t.endFinish x).cl.running = t.cl.running.filter (fun y => y != pod))) ∧
    (s.me.regOf rcb = some r →
      (∃ u, exec (.pauseAtCell rcb) s = .next u ∧ u.mem = s.mem ∧ u.me.regs[r] = { s.me.regs[r] with paused := true }) ∧
      ((∀ i : Fin 4, (s.slotAct (slotIdx (.gen i))).live = true → (s.slotAct (slotIdx (.gen i))).reg = r →
          (s.slotAct (slotIdx (.gen i))).betweenWords = true) →
        ∃ u, exec (.endAtCell rcb) s = .next u ∧ u.me.regs[r].v = false ∧
        ∀ c : Fin 32, s.me.handlers[c].v = true → s.me.handlers[c].reg = r → u.me.handlers[c].v = false)) ∧
    (s.stopsFor who = false → s.turnsAway who = none → s.installHere rec' = .ok t →
      ∃ u, exec (.handlerInstall rec' who) s = .next u ∧ u.cells = t.cells ∧ u.mem = t.mem ∧ Left u .posReply who.place who.rid 0) ∧
    (∀ c, s.stopsFor who = false → s.turnsAway who = none → s.installHere rec' = .bad c →
      exec (.handlerInstall rec' who) s = .next (s.emit (outMsg .negReply who.place rec'.info.rcb who.rid c []))) ∧
    (s.rcbAt [] rcb = .ok b → s.isHere rcb = true →
      exec (.activationReport { rcb := rcb, cell := none } starts ends cycles) s = .next (s.rcbWrite rcb 104
        [b.w 13 + BitVec.ofNat 64 starts, b.w 14 + BitVec.ofNat 64 cycles,
         BitVec.ofNat 64 (((b.w 15).toNat % 2 ^ 32 + starts + 2 ^ 32 - ends % 2 ^ 32) % 2 ^ 32)])) ∧
    (s.mbReady = false → exec (.mbRegionCommand rcb ptn k) s = .next { s with mbHeld := s.mbHeld ++ [.region rcb ptn k] }) ∧
    (s.mbReady = true → rcb.getLsbD 63 = true → ptn = s.cl.ptn → prefixOf rcb = prefixOf s.cl.place →
      exec (.mbRegionCommand rcb ptn k) s = s.busy.regionCommand rcb (hostReq 0x08) k 0 3 []) ∧
    (s.mbReady = true → rcb.getLsbD 63 = false → exec (.mbRegionCommand rcb ptn k) s = .next (s.hostAnswer 0x08 0x04 [])) ∧
    (s.mbReady = true → rcb.getLsbD 63 = true → ptn ≠ s.cl.ptn ∨ rcb.extractLsb' 45 18 ≠ s.cl.place.extractLsb' 45 18 →
      exec (.mbRegionCommand rcb ptn k) s = .next (s.forward 0x08 rcb (0#36 ++ k ++ ptn : BitVec 64)))

/-- R185, R366, R368, R386, R390: a queued command starts. A matrix command starts when those before it have started and R368 lets it run
beside those that have not completed, an `mwld` with its buffer invalid and a command that takes rows with them at their initial values; the
copy engine starts the first queued command while fewer than eight run; the collective engine snapshots the elements, widened to binary32. -/
def Claim.EngineStarts : Prop :=
  ∀ (s : State),
    (∀ (c : MCmd), (s.mx.queue.find? fun d => d.num == c.num && !d.started) = some c →
      let before := s.mx.queue.takeWhile fun d => d.num != c.num
      (c.mayStart before = false ∨ s.mx.unitFree c = false → exec (.matrixCommandStart (.own c.num)) s = .next s) ∧
      (c.mayStart before = true → s.mx.unitFree c = true →
        ∃ t, exec (.matrixCommandStart (.own c.num)) s = .next t ∧
          (t.mx.queue = s.mx.queue.map fun d => if d.num = c.num then { c with started := true, nsc := s.nsc } else d) ∧
          .matrixTile c.num ∈ t.agenda ∧ t.mem = s.mem ∧
          (c.op = .mwld → t.mx.bufs[bufIdx c.sb].valid = false) ∧
          (c.op = .mma ∨ c.op = .landing → c.init = false →
            t.mx.xfers[c.x].rows = List.replicate c.m (List.replicate 64 0)) ∧
          (c.op = .mmp → c.init = false → t.mx.xfers[c.x].rows = List.replicate c.m (List.replicate 64 s.mx.konst)))) ∧
    ((∀ c ∈ s.cl.pullQ, c.started = true) → exec .pullStart s = .next s) ∧
    (∀ c, (s.cl.pullQ.find? fun d => !d.started) = some c →
      let room : Prop := (s.cl.pullQ.filter fun d => d.started).length < 8
      (¬ room → exec .pullStart s = .next s) ∧
      (room → c.acq = true → s.acquiredAll c.aid c.mark c.mxMark = false → exec .pullStart s = .next (s.hold .pullStart)) ∧
      (room → c.acq = false ∨ s.acquiredAll c.aid c.mark c.mxMark = true →
        ∃ t, exec .pullStart s = .next t ∧ t.mem = s.mem ∧ .pullAccess c.num ∈ t.agenda ∧
          t.cl.pullQ = s.cl.pullQ.map fun d => if d.num = c.num then { c with started := true } else d)) ∧
    (∀ (c : CollCmd) rest, s.cl.collQ = c :: rest → c.phase = .queued → c.fin = none →
      let ty : Ty := (Ty.ofCode c.spec.ety).getD .fp32
      (c.acq = true → s.acquiredAll c.aid c.mark c.mxMark = false → exec .collStart s = .next (s.hold .collStart)) ∧
      (∀ r, c.acq = false ∨ s.acquiredAll c.aid c.mark c.mxMark = true →
        s.engineLines (s.engineFor c.reg) .engRead c.buf ((c.nel * tyBytes ty + 127) / 128) = .ok r →
        let xs := elemsOf ty c.nel r.1
        ∃ t, exec .collStart s = .next t ∧ t.mem = s.mem ∧ .collStep ∈ t.agenda ∧
          t.cl.collQ = { c with phase := c.firstPhase, fresh := some false, snap := xs, work := xs } :: rest))

/-- R185, R361 to R366, R369 to R375: a tile of the matrix engine. A command under an acquire waits before its first tile for what it acquires, and
one whose unit is not free, or that reads what a commit or a reload has still to bring, waits for that; a load that has all its lines fills its buffer, or its landing rows; a product's last tile leaves the new rows in the transfer; `mprog` sets the
program; the last row of a commit is written and its transfer is free; a stationary load that faults discards every command of the cell and
leaves its buffer invalid. -/
def Claim.MatrixTiles : Prop :=
  ∀ (s : State) (c : MCmd), (s.mx.queue.find? fun d => d.num == c.num && d.started && d.wait.isNone) = some c →
    c.reload = false → c.void = false →
    let tile : Instr := .matrixTile (.own c.num)
    let done (t : State) : Prop := exec tile s = .next t ∧ t.mx.queue = s.mx.queue.filter fun d => d.num != c.num
    (c.acq = true → c.done = 0 → s.acquiredAll c.aid c.mark c.num = false → exec tile s = .next (s.hold (.matrixTile c.num))) ∧
    (c.acq = false ∨ c.done ≠ 0 ∨ s.acquiredAll c.aid c.mark c.num = true → s.tileWaits c = true → exec tile s = .next (s.hold (.matrixTile c.num))) ∧
    (c.acq = false ∨ c.done ≠ 0 ∨ s.acquiredAll c.aid c.mark c.num = true → s.tileWaits c = false →
      (c.op = .mprog → ∃ t, done t ∧ t.mem = s.mem ∧ t.mx.konst = c.wb.extractLsb' 0 32 ∧ t.mx.xfers = s.mx.xfers ∧ t.mx.bufs = s.mx.bufs ∧
        t.mx.prog = (List.range c.m).map fun i => c.wa.extractLsb' (16 * i) 16) ∧
      (∀ d, c.op = .mwld → s.isHere c.wa = true → c.done < c.lines c.bTy → s.loadLines (c.lines c.bTy - c.done) c = .ok d →
        d.lines d.bTy ≤ d.done →
        ∃ t, done t ∧ t.mem = s.mem ∧ t.mx.xfers = s.mx.xfers ∧
          let b := t.mx.bufs[bufIdx d.sb]
          b.valid = true ∧ b.ty = d.bTy ∧ b.bytes = d.bytes ∧ b.scales = d.scales ∧ b.reg = d.reg ∧ b.src = d.wa) ∧
      (∀ d, c.op = .landing → s.isHere c.wa = true → c.done < c.lines c.bTy → s.loadLines c.tileLines c = .ok d →
        d.lines d.bTy ≤ d.done →
        ∃ t, done t ∧ t.mem = s.mem ∧ t.mx.bufs = s.mx.bufs ∧ t.mx.xfers[d.x].rows = rows64 d.m d.bytes) ∧
      (∀ bs rows, c.op = .mma ∨ c.op = .mmp →
        let b := s.mx.bufs[bufIdx c.sb]
        b.bad = 0 → b.valid = true → b.badScale = none ∨ c.nsc = true → s.readIndex c = .ok bs → c.m ≤ c.done + 16 →
        s.gemmRows { c with bytes := bs } (StatBuf.columns b) (c.m - c.done) c.done s.mx.xfers[c.x].rows = .ok rows →
        ∃ t, done t ∧ t.mem = s.mem ∧ t.mx.bufs = s.mx.bufs ∧ t.mx.xfers[c.x].rows = rows) ∧
      (∀ u, c.op = .mcommit → c.done + 1 = c.m → s.commitOne c c.done (s.mx.xfers[c.x].rows.getD c.done []) = .ok u →
        s.mx.xfers[c.x].older = 0 → s.mx.xfers[c.x].st = .closing →
        ∃ t, done t ∧ t.mem = u.mem ∧ t.mx.bufs = s.mx.bufs ∧ t.mx.xfers = s.mx.xfers.set c.x Xfer.reset) ∧
      (∀ code a, c.op = .mwld → s.isHere c.wa = true → c.done < c.lines c.bTy → s.loadLines (c.lines c.bTy - c.done) c = .bad code a →
        exec tile s = .next (s.mxFault c code a) ∧ (s.mxFault c code a).mx.queue = [] ∧ (s.mxFault c code a).mem = s.mem ∧
          (s.mxFault c code a).mx.bufs[bufIdx c.sb].valid = false))

/-- Engine commands start, and the matrix engine runs its tiles. -/
def Obligations.EngineRuns : Prop :=
  Claim.EngineStarts ∧ Claim.MatrixTiles

/-- R384 to R387: an access of a copy. What it reads at its own cluster's port stands at its destination; after the last access the identifier
has ended with code 0; a destination that is malformed ends the command with 0x03 there, with nothing written. -/
def Claim.CopyAccesses : Prop :=
  ∀ (s : State) (c : PullCmd), (s.cl.pullQ.find? fun d => d.num == c.num && d.started) = some c →
    c.fin = none → c.wait = none → c.got = [] → c.away = none → c.gather = false → s.eventsFull = false →
    let src := c.source c.row
    let here : Prop := formOk src = true ∧ s.isHere src = true
    ∀ site, here → s.checkPort (s.engineFor c.reg) .engRead (oaOf src) = .ok site →
      let d : WData := .bytes (s.view site (c.size src)) (List.replicate ((s.view site (c.size src)).length / 8) false)
      let past := c.past (s.view site (c.size src)).length
      (isOwn c.dest = false →
        ∃ t, exec (.pullAccess (.own c.num) none) s = .next t ∧ t.mem = s.mem ∧ t.pulls[c.id] = { st := .ended 0x03, reg := c.reg, addr := c.dest }) ∧
      (∀ site2, isOwn c.dest = true → s.checkWrite (s.engineFor c.reg) .engWrite c.dest.toNat d = .ok site2 →
        ∃ t, exec (.pullAccess (.own c.num) none) s = .next t ∧ t.mem = s.performAt site2 c.dest.toNat d ∧
          (past.row < c.rows → .pullAccess c.num ∈ t.agenda ∧ t.pulls = s.pulls) ∧
          (c.rows ≤ past.row → t.pulls[c.id] = { st := .ended 0, reg := c.reg, addr := 0 } ∧
            t.cl.pullQ = s.cl.pullQ.filter fun x => x.num != c.num))

/-- R391, R393, R394: a collective command meets its peers. A control line whose sequence word has not reached the awaited value is passed
over; one of another instance, a refusal with 0x08 or an expired timeout declares the member lost, and the round begins again from the
snapshot; a member that finds itself lost ends with 0x08, and one whose pull has another refusal with that code; a higher round is joined with
the union of the masks and a lower one passed over; of the same round a slot is taken, or found free to be rewritten. The answer from another
owner raises the floor of that owner by the value it carries (R90). -/
def Claim.CollectivePeers : Prop :=
  ∀ (s : State) (c : CollCmd) (rest : List CollCmd) (p : Fin 64) (slot : List Byte) (seq count : Word) (inst round : BitVec 32)
    (lost : Word), s.cl.collQ = c :: rest → c.phase ≠ .queued → c.away = none → s.eventsFull = false →
    let begins (s : State) (lost : Word) (round : Nat) : Out :=
      .next ({ s with
        cl := { s.cl with collQ :=
          { c with lost, round, phase := c.firstPhase, fresh := some true, step := 0, sent := false, writes := 0, cleared := false,
                   kids := 0, awaiting := none, got := none, work := c.snap, wire := [] } :: rest },
        agenda := s.agenda ++ [.collStep] })
    let goes (s : State) (d : CollCmd) : Out := .next { s with cl := { s.cl with collQ := d :: rest }, agenda := s.agenda ++ [.collStep] }
    let loses (s : State) (p : Fin 64) : Out := begins s (c.lost ||| (1#64 <<< p.val)) (c.round + 1)
    let ends (i : Instr) (code : Code) : Prop :=
      ∃ t, exec i s = .next t ∧ t.cl.collQ = rest ∧ t.colls[c.id].st = .ended code ∧ t.mem = s.mem
    let line : Instr := .collStep (.own p) (.line seq count inst round lost slot)
    let far : Prop := prefixOf (c.peerLine p.val) ≠ prefixOf s.cl.place
    let u : State := s.raised (c.peerLine p.val) count
    let mine : BitVec 32 := (c.w 6).extractLsb' 0 32
    (p.val < c.spec.nmem → p.val ≠ c.spec.self → c.lost.getLsbD p.val = false → exec (.memberLost p) s = loses s p) ∧
    (c.awaiting ≠ some p.val → exec line s = .next s) ∧
    (far → u.cl = s.cl.raiseFloor (prefixOf (c.peerLine p.val)) count) ∧ (¬ far → u = s) ∧
    (c.awaiting = some p.val →
      exec (.collStep (.own p) (.refused 0x08)) s = loses s p ∧
      (∀ code, code ≠ 0x08 → code ≠ 0x0C → ends (.collStep (.own p) (.refused code)) code) ∧
      (seq.toNat < c.want.toNat → exec line s = .next u) ∧
      (c.want.toNat ≤ seq.toNat →
        (inst ≠ mine → exec line s = loses u p) ∧
        (inst = mine → lost.getLsbD c.spec.self = true → ends line 0x08) ∧
        (inst = mine → lost.getLsbD c.spec.self = false →
          (c.round < round.toNat → exec line s = begins u (c.lost ||| lost) round.toNat) ∧
          (round.toNat < c.round → exec line s = .next u) ∧
          (round.toNat = c.round → c.spec.tree = true ∨ c.sent = true → exec line s = goes u { c with awaiting := none, got := some slot }) ∧
          (round.toNat = c.round → c.spec.tree = false → c.sent = false →
            exec line s = goes u { c with awaiting := none, cleared := true }))))

/-- The accesses of a copy, and a collective command that meets its peers. -/
def Obligations.CopiesAndCollectives : Prop :=
  Claim.CopyAccesses ∧ Claim.CollectivePeers

/-- R404 to R409, R446: eviction and restore. A root that is no pod address is refused with 0x04, one of another partition or package goes on to
its cluster, and an eviction without a seal key is refused with 0x13; an eviction that passes its checks fences its cells; when they are quiet
they are saved, cleared and unfenced, and the mailbox is answered with 0; one whose save cannot be written changes no memory; a restore
brings the cells back and answers with its code. -/
def Obligations.EvictionAndRestore : Prop :=
  ∀ (s : State) (rcb : Word) (rect : BitVec 32) (ptn : BitVec 24) (base : Word) (e : EvictRun) (t : State) (code : Code), s.mbReady = true →
    let ev : Instr := .evict rcb rect ptn
    let re : Instr := .restore rcb rect ptn
    let mine : Prop := ptn = s.cl.ptn ∧ rcb.extractLsb' 45 18 = s.cl.place.extractLsb' 45 18
    let here : Prop := rcb.getLsbD 63 = true ∧ mine ∧ (prefixOf rcb = prefixOf s.cl.place ∨ s.placeFault rcb = none)
    (rcb.getLsbD 63 = false → exec ev s = .next (s.hostAnswer 0x01 0x04 []) ∧ exec re s = .next (s.hostAnswer 0x01 0x04 [])) ∧
    (rcb.getLsbD 63 = true → ¬ mine →
      ∀ i ∈ [ev, re], exec i s = .next (s.forward 0x01 rcb (0#8 ++ ptn ++ rect : BitVec 64))) ∧
    (here → s.cl.sealKey = none → exec ev s = .next (s.hostAnswer 0x01 0x13 [])) ∧
    (here → s.cl.sealKey ≠ none → s.cl.evicting = none → s.busy.evictOk [] rcb rect = .bad code →
      exec ev s = .next (s.hostAnswer 0x01 code [])) ∧
    (here → s.cl.sealKey ≠ none → s.cl.evicting = none → s.busy.evictOk [] rcb rect = .ok base →
      ∃ u, exec ev s = .next u ∧ u.cl.evicting = some { rcb, rect, base, cells := s.cellsIn rect } ∧ u.mem = s.mem ∧ .quiesced ∈ u.agenda ∧
        ∀ n ∈ s.cellsIn rect, u.cells[n].fenced = true) ∧
    (s.cl.evicting = none → exec .evictionQuiesced s = .next s) ∧
    (s.cl.evicting = some e →
      (s.quiet e.cells = false → exec .evictionQuiesced s = .next (s.hold .quiesced)) ∧
      (s.quiet e.cells = true →
        let s0 := if s.self ∈ e.cells then (List.finRange 5).foldl State.unissue s else s
        let ended (u : State) (code : Code) : Prop :=
          exec .evictionQuiesced s = .next u ∧ u.cl.evicting = none ∧ Left u .hostAnswer 0 0 code ∧ ∀ n ∈ e.cells, u.cells[n].fenced = false
        (s0.saveCells e e.cells = .ok t → ∃ u, ended u 0 ∧ u.mem = t.mem) ∧
        (s0.saveCells e e.cells = .bad → ∃ u, ended u 0x05 ∧ u.mem = s.mem))) ∧
    (here → s.busy.restoreOk [] rcb rect = .ok base →
      let cells := s.cellsIn rect
      ((s.busy.fence cells).vacant cells = false → ∃ u, exec re s = .next u ∧ .evict rcb rect true [] ∈ u.cl.held ∧ u.mem = s.mem) ∧
      ((s.busy.fence cells).vacant cells = true → (s.busy.fence cells).restoreCells rcb base 0 cells = .ok (t, code) →
        ∃ u, exec re s = .next u ∧ u.mem = t.mem ∧ Left u .hostAnswer 0 0 code))

/-- R416 to R418, R423: a slot of the schedule passes: the slot count rises by one, a pending switch takes place at its slot, and every lane
that was to be dropped is; flits that are held for others or queued by this package only leave, and
stay where none is acknowledged; no port's count of mismatches falls, but where its window ends. A window's end writes the health of every
lane of a port with that count, the flits resent and the bursts corrected, which begin anew. -/
def Claim.FabricSlots : Prop :=
  ∀ (s : State) (peers : List (Option PortSlot)) (port : Fin 32) (corr : List (BitVec 16)) (repl : BitVec 16) (mism : BitVec 8),
    Canonical s →
    (∃ t, exec (.fabricSlot peers) s = .next t ∧ t.mem = s.mem ∧
      t.pkg.fabWord 0x110 = s.pkg.fabWord 0x110 + 1 ∧
      (∀ x ∈ s.pkg.laneOff, (portLanes (t.pkg.port x.1)).getLsbD x.2.val = false) ∧
      (s.pkg.switchAt = some s.pkg.fabtime → t.pkg.switchAt = none ∧ t.pkg.bank = !s.pkg.bank ∧ t.pkg.bankStart = s.pkg.fabtime) ∧
      (s.pkg.switchAt ≠ some s.pkg.fabtime → t.pkg.switchAt = s.pkg.switchAt ∧ t.pkg.bank = s.pkg.bank) ∧
      (∀ j : Fin 32, s.pkg.mism[j].toNat ≤ t.pkg.mism[j].toNat ∨ t.pkg.laneFlits[j] < s.pkg.laneFlits[j]) ∧
      (∀ f ∈ t.pkg.relay, f ∈ s.pkg.relay) ∧ (∀ x ∈ t.pkg.tx, ∃ y ∈ s.pkg.tx, x.flit = y.flit) ∧
      ((∀ x, some x ∈ peers → x.acked = 0) → t.pkg.relay = s.pkg.relay ∧ t.pkg.tx = s.pkg.tx)) ∧
    (∃ t, exec (.laneHealthWindow port corr repl mism) s = .next t ∧ t.mem = s.mem ∧ t.pkg.mism[port] = 0 ∧ t.pkg.laneFlits[port] = 0 ∧
      t.pkg.laneRepl[port] = 0 ∧
      ∀ i : Fin 8, t.pkg.fabWord (0x800 + 8 * (8 * port.val + i.val)) =
        laneWord (s.pkg.laneCorrected port i (corr.getD i.val 0).toNat) (s.pkg.laneResent port i repl.toNat) s.pkg.mism[port])

/-- R419, R420, R422 to R424: a flit that arrives. At a disabled port nothing happens; else it counts for the port's window, which 2^20 flits
end, and one that fails its check is refused at the link by its position in the slot; one for
another package is held where it is being relayed and there is room, on chip or in a free place of the spill area, refused where there is
none, and never relayed twice; one for this
package that stands next in its stream is delivered, with the message that it completes the next thing to happen, and one that has been
passed is discarded; an acknowledgement takes the flit that it names from its intermediate; a multicast copy is passed on. -/
def Claim.FlitsThatArrive : Prop :=
  ∀ (s : State) (port : Fin 32) (f : Flit) (x : RxCheck),
    let i : Instr := .flitReceive port f x
    let seen : State := s.flitSeen port x
    let refused : State :=
      (s.emit (outMsg .retry (f.src.setWidth 64) (BitVec.ofNat 64 port.val) 0 0 [BitVec.ofNat 64 s.pkg.rxPos[port]])).flitSeen port x
    (portEn (s.pkg.port port) = false → exec i s = .next s) ∧
    (portEn (s.pkg.port port) = true →
      seen.mem = s.mem ∧ seen.pkg.rxPos[port] = s.pkg.rxPos[port] + 1 ∧
      (s.pkg.laneFlits[port] < 2 ^ 20 - 1 → seen.pkg.laneFlits[port] = s.pkg.laneFlits[port] + 1) ∧
      (s.pkg.laneFlits[port] = 2 ^ 20 - 1 → seen.pkg.laneFlits[port] = 0 ∧ seen.pkg.mism[port] = 0) ∧
      (x.crc ≠ crc64 f.bytes → exec i s = .next refused) ∧
      (x.crc = crc64 f.bytes → f.dst ≠ s.pkg.ppkg →
        (f.rly = false → exec i s = .next seen) ∧
        (f.rly = true → s.pkg.relayRoom ≤ s.pkg.relay.length → exec i s = .next refused) ∧
        (f.rly = true → s.pkg.relay.length < s.pkg.relayRoom → s.pkg.relay.length < 262144 + s.pkg.spill.length →
          exec i s = .next { seen with pkg := { seen.pkg with relay := s.pkg.relay ++ [f] } }) ∧
        (f.rly = true → s.pkg.relay.length < s.pkg.relayRoom → 262144 + s.pkg.spill.length ≤ s.pkg.relay.length →
          ∃ t n, exec i s = .next t ∧ t.pkg.relay = s.pkg.relay ++ [f] ∧ t.pkg.spill = s.pkg.spill ++ [(n, f)] ∧
            ∀ y ∈ s.pkg.spill, y.1 ≠ n)) ∧
      (x.crc = crc64 f.bytes → f.dst = s.pkg.ppkg → f.cls ≠ 3 →
        let st := s.pkg.streamOf f
        (st.passed f.seq = true → ∃ t, exec i s = .next t ∧ t.pkg.streams = s.pkg.streams ∧ t.mem = s.mem) ∧
        (f.cls ≠ 2 → st.held = [] → st.gone = [] → f.seq = st.next → st.passed f.seq = false →
          ∃ t, exec i s = .next t ∧ t.mem = s.mem ∧
            { st with next := st.next + 1, part := if f.last then [] else st.part ++ f.body, broken := st.broken && !f.last } ∈ t.pkg.streams ∧
            t.world = (if f.last && !st.broken then
              (((Config.unpacked f.src f.cls (st.part ++ f.body)).filter Instr.fromFabric).map some).toList ++ s.world else s.world)) ∧
        (f.cls ≠ 2 → st.held = [] → st.gone = [] → f.seq ≠ st.next → st.passed f.seq = false →
          s.pkg.streams.foldl (fun n x => n + x.held.length) 0 < reorderRoom →
          ∃ t, exec i s = .next t ∧ t.mem = s.mem ∧ t.world = s.world ∧ { st with held := [f] } ∈ t.pkg.streams) ∧
        (f.cls = 2 → f.control = 0 → st.held = [] → st.gone = [] → f.seq = st.next → st.passed f.seq = false →
          ∃ t, exec i s = .next t ∧ t.mem = s.mem ∧ ∀ y ∈ t.pkg.tx, y ∈ s.pkg.tx ∧
            ¬ (y.via.isSome = true ∧ y.flit.dst = f.src ∧ y.flit.cls.toNat = f.number 0 ∧ y.flit.seq.toNat = f.number 1))) ∧
      (x.crc = crc64 f.bytes → f.dst = s.pkg.ppkg → f.cls = 3 →
        (f.control = 0 → exec i s = .next seen) ∧
        (f.control = 1 ∨ f.control = 2 →
          ∃ t, exec i s = .next t ∧ (BitVec.ofNat 6 (f.number 0), BitVec.ofNat 20 (f.number 1)) ∈ t.pkg.mcSeen)))

/-- The rotor schedule, lane health, and flits that arrive. -/
def Obligations.Fabric : Prop :=
  Claim.FabricSlots ∧ Claim.FlitsThatArrive

/-- R39, R194, R425: a declaration that a package is lost. A copy over group 0 that has been passed already is discarded; else it is passed
on to the group's branches and applied: every entry of the package table bound to the package becomes lost, and no other changes. The
mailbox command does the same with the next sequence number of its own, and is answered with 0. -/
def Claim.LostDeclarations : Prop :=
  ∀ (s : State) (p : BitVec 18) (seq : BitVec 20), Canonical s →
    let applied (t : State) (seq : BitVec 20) : Prop :=
      (0, seq) ∈ t.pkg.mcSeen ∧ t.pkg.copies = (s.pkg.cast 0 seq (.lost p)).copies ∧
      ∀ n, n < s.cl.pkgbound.toNat →
        t.pkgEntry n =
          (if (s.pkgEntry n).extractLsb' 30 2 = 1 ∧ (s.pkgEntry n).extractLsb' 0 18 = p
           then 2#2 ++ (s.pkgEntry n).extractLsb' 0 30 else s.pkgEntry n)
    ((0, seq) ∈ s.pkg.mcSeen → exec (.lostDeclaration p seq) s = .next s) ∧
    ((0, seq) ∉ s.pkg.mcSeen → ∃ t, exec (.lostDeclaration p seq) s = .next t ∧ applied t seq) ∧
    (s.mbReady = true →
      ∃ t, exec (.declareLost p) s = .next t ∧ applied t s.pkg.mcSeq ∧ t.pkg.mcSeq = s.pkg.mcSeq + 1 ∧ Left t .hostAnswer 0 0 0)

/-- R426, R428, R429, R446, R451: far sessions. A frame at a port that is no enabled far port, or of a form that is not supported, does
nothing; one that its session does not take is counted, as is one of an unknown session at the entry it comes from, and
nothing of it is delivered; one that it takes raises the top counter and cannot be taken again. A frame that is not acknowledged goes as a new
one under a new counter, with the same flits, while the session is up. A session opens with a peer that is certified and allowed, and fails
with 0x10 else and with 0x13 where no key can be drawn; it rekeys from up, and keeps the old keys until then (what the two keys and salts are
made of, and the frame that tells the peer, are the model's: log 122). -/
def Claim.FarSessions : Prop :=
  ∀ (s : State) (f : FarFrame) (e counter : Nat) (h : PeerHello) (slot0 : BitVec 256) (x : FarSess) (u : FarSent),
    (s.farPort f = false ∨ f.formOk = false → exec (.farFrameReceive f) s = .next s) ∧
    (s.farPort f = true → f.formOk = true →
      (s.sessOf f.peer = none → s.senderOf f = none → exec (.farFrameReceive f) s = .next s) ∧
      (s.sessOf f.peer = none → s.senderOf f = some x →
        exec (.farFrameReceive f) s = .next (s.setSess { x with drop := min (2 ^ 48 - 1) (x.drop + 1) })) ∧
      (s.sessOf f.peer = some x →
        (x.takes f = false → exec (.farFrameReceive f) s = .next (s.setSess { x with drop := min (2 ^ 48 - 1) (x.drop + 1) })) ∧
        (x.takes f = true → ∃ t y, exec (.farFrameReceive f) s = .next t ∧ t.mem = s.mem ∧ t.sessOf f.peer = some y ∧
          y.top = max x.top f.counter ∧ ∀ g : FarFrame, g.counter = f.counter → y.takes g = false))) ∧
    (s.sessOf e = none → ∀ i ∈ ([.farRetransmit e counter, .farSessionOpen e h slot0, .farRekey e] : List Instr), exec i s = .next s) ∧
    (s.sessOf e = some x →
      (x.st ≠ .up → exec (.farRetransmit e counter) s = .next s) ∧
      (x.st = .up → x.unacked.find? (fun u => u.counter == counter) = some u → (∃ g ∈ u.flits, g.cls ≠ 2) →
        ∃ t g, exec (.farRetransmit e counter) s = .next t ∧ t.mem = s.mem ∧ t.pkg.frames = g :: s.pkg.frames ∧
          g.counter = x.sent + 1 ∧ g.n = u.flits.length ∧
          t.sessOf e = some { x with sent := x.sent + 1
                                     unacked := x.unacked.erase u ++ [{ u with counter := x.sent + 1, resends := u.resends + 1 }] }) ∧
      (x.st ≠ .opening → exec (.farSessionOpen e h slot0) s = .next s) ∧
      (x.st ≠ .up → exec (.farRekey e) s = .next s) ∧
      (let k := s.drawKey.1
       let opens (st : SessSt) (c : Code) : Prop := ∃ t, exec (.farSessionOpen e h slot0) s = .next t ∧ t.mem = s.mem ∧
        ∃ z, t.sessOf e = some z ∧ z.st = st ∧ z.fcode = c
       (x.st = .opening → k = none ∨ s.pkg.secHeld = true → opens .failed 0x13) ∧
       (∀ n, x.st = .opening → k = some n → s.pkg.secHeld = false → h.certified = true → slot0 ∈ s.pkg.allow →
         (∀ y ∈ s.pkg.farWait, y.peer ≠ e) →
         ∃ t z, exec (.farSessionOpen e h slot0) s = .next t ∧ t.mem = s.mem ∧ t.sessOf e = some z ∧ z.st = .up ∧ z.fcode = x.fcode ∧
           z.keys = s.pkg.keysFor e n h ∧ z.hello = some h) ∧
       (∀ n, x.st = .opening → k = some n → s.pkg.secHeld = false → h.certified = false ∨ slot0 ∉ s.pkg.allow → opens .failed 0x10) ∧
       (x.st = .up → k = none ∨ s.pkg.secHeld = true →
         ∃ t, exec (.farRekey e) s = .next t ∧ t.mem = s.mem ∧ t.sessOf e = some { x with st := .failed, fcode := 0x13 }) ∧
       (∀ n, x.st = .up → k = some n → s.pkg.secHeld = false →
         ∃ t z, exec (.farRekey e) s = .next t ∧ t.mem = s.mem ∧ t.sessOf e = some z ∧ z.st = .rekeying ∧ z.old = some x.keys ∧
           ∀ y, x.hello = some y → z.keys = s.pkg.keysFor e n y)))

/-- Lost declarations and far sessions. -/
def Obligations.LostPackagesAndFarLinks : Prop :=
  Claim.LostDeclarations ∧ Claim.FarSessions

/-- R430 to R434: the host's requests for a window's half lines. A request outside every window is refused, and the first refusal recorded;
one for a half in I is served at once, a shared read leaving S and an ownership read E with the agent recorded; a shared read of S stays S;
one that finds another holder waits for its snoops; a write is performed and clears the tags of its words, or waits
behind the snoops and requests of its line; a holder's writeback is performed
and leaves I. -/
def Claim.HostRequests : Prop :=
  ∀ (s : State) (ag : HostAgent) (line addr m : Nat) (half own : Bool) (data : List Byte),
    let off := 128 * line + if half then 64 else 0
    let read : Instr := if own then .hostOwnershipRead ag line half else .hostSharedRead ag line half
    let write : Instr := .hostWrite ag addr data
    let back : Instr := .hostWriteback ag line half data
    let d := s.cl.dirOf (m / 128 * 128)
    let refused (i : Instr) (off : Nat) (wr : Bool) : Prop :=
      exec i s = .next (s.hostRefuse ag off wr) ∧ (s.hostRefuse ag off wr).mem = s.mem ∧ (s.hostRefuse ag off wr).pkg.hcerr.getLsbD 63 = true
    let given (t : State) (x : HalfState) : Prop :=
      exec read s = .next t ∧ t.mem = s.mem ∧ (t.cl.dirOf (m / 128 * 128)).half half = x ∧
        ag.agent ∈ (t.cl.dirOf (m / 128 * 128)).sharers half ∧
        let key := m / 128 * 128 + if half then 64 else 0
        ∃ x ∈ t.out, x.kind = .hostData ∧ x.addr = BitVec.ofNat 64 key ∧ x.rid = ag.agent.toNat ∧
          x.code = (if s.mem.poisoned key then 0x0F else 0) ∧ x.words.map (fun w => w.val) = wordsOf 8 (s.mem.viewBytes 0 key 64)
    (s.hostByte ag off = none → refused read off false ∧ refused back off true) ∧
    (s.hostByte ag addr = none → refused write addr true) ∧
    (s.hostByte ag off = some m → s.deviceAt (m / 128 * 128) = true →
      ∃ t, exec read s = .next t ∧ t.mem = s.mem ∧ (t.cl.dirOf (m / 128 * 128)).reqs = d.reqs ++ [{ agent := ag, half, own }]) ∧
    (s.hostByte ag off = some m → d.waits = [] → d.reqs = [] → s.deviceAt (m / 128 * 128) = false →
      (d.half half = .I → ∃ t, given t (if own then .E else .S)) ∧
      (d.half half = .S → own = false → ∃ t, given t .S) ∧
      (d.half half = .S → own = true → (∀ a ∈ d.sharers half, a = ag.agent) → ∃ t, given t .E) ∧
      (d.half half = .E → (∀ a ∈ d.sharers half, a = ag.agent) → ∃ t, given t .E) ∧
      ((d.half half = .S ∧ own = true) ∨ d.half half = .E → (∃ a ∈ d.sharers half, a ≠ ag.agent) →
        ∃ t, exec read s = .next t ∧ t.mem = s.mem ∧ (t.cl.dirOf (m / 128 * 128)).reqs = [{ agent := ag, half, own }] ∧
          ∀ a ∈ d.sharers half, a ≠ ag.agent →
            { agent := a, half, inv := d.half half == .S } ∈ (t.cl.dirOf (m / 128 * 128)).waits)) ∧
    (s.hostByte ag off = some m →
      (d.half half = .E → ag.agent ∈ d.sharers half →
        ∃ t, exec back s = .next t ∧ t.mem = (s.hostStore m (data.take 64)).mem ∧ (t.cl.dirOf (m / 128 * 128)).half half = .I) ∧
      (d.half half ≠ .E ∨ ag.agent ∉ d.sharers half → exec back s = .next s)) ∧
    (∀ k, data ≠ [] → s.hostByte ag addr = some m → s.hostByte ag (addr + (data.take 64).length - 1) = some k →
      Canonical s → s.mem.enc = [] → s.hostFree m = true → s.hostFree (m + (data.take 64).length - 1) = true →
      ∃ t, exec write s = .next t ∧ t.mem.lit = s.mem.lit ∧
        (∀ i, i < (data.take 64).length → t.mem.byteAt (m + i) = data.getD i 0 ∧ t.mem.tagAt (m + i) = false) ∧
        ∀ a, a < m ∨ m + (data.take 64).length ≤ a → t.mem.byteAt a = s.mem.byteAt a) ∧
    (∀ k, data ≠ [] → s.hostByte ag addr = some m → s.hostByte ag (addr + (data.take 64).length - 1) = some k → s.hostFree m = false →
      ∃ t, exec write s = .next t ∧ t.mem = s.mem ∧
        (t.cl.dirOf (m / 128 * 128)).reqs = d.reqs ++ [{ agent := ag, half := false, own := false, write := some (m, data.take 64) }])

/-- R430, R433, R454 to R459: a response to a snoop writes its dirty data and is no longer awaited; host memory fills
window lines only; a port that trains serves windows when it is CXL, and the port of a bare die serves none; a head of a mailbox ring is taken where it lies between the old head
and the tail. -/
def Claim.HostAnswers : Prop :=
  ∀ (s : State) (ag : HostAgent) (line m : Nat) (half port cxl : Bool) (dirty : Option (List Byte)) (keep : Bool) (data : List Byte)
    (w : Snoop) (v : Word) (off : Nat),
    let d := s.cl.dirOf (m / 128 * 128)
    let i : Instr := .snoopResponse ag line half dirty keep
    let now := s.pkg.mail[portIdx port]
    (s.snoopAt ag line half = none → exec i s = .next s) ∧
    (∀ k, s.hostByte ag (128 * line + if half then 64 else 0) = some k → s.snoopAt ag line half = some k) ∧
    (s.snoopAt ag line half = some m →
      ((∀ x ∈ d.waits, x.agent ≠ ag.agent ∨ x.half ≠ half) → exec i s = .next s) ∧
      ((d.waits.find? fun x => x.agent == ag.agent && x.half == half) = some w →
        ∃ t, exec i s = .next t ∧ (t.cl.dirOf (m / 128 * 128)).waits = d.waits.erase w ∧
          (dirty = none → t.mem = s.mem) ∧ (∀ bs, dirty = some bs → t.mem = (s.hostStore m (bs.take 64)).mem))) ∧
    ((∀ k : Fin 16, pairEn s.cl.vfpair[k] = true → hcEn s.cl.hcwin[k] = true →
        128 * line < s.cl.windowAt k ∨ s.cl.windowAt k + s.cl.windowLen k ≤ 128 * line) →
      exec (.rdcurrFill line data) s = .next s) ∧
    ((∀ j : Fin 2, s.pkg.cxl[j] = false) → exec (.rdcurrFill line data) s = .next s) ∧
    (∀ (k : Fin 16) (j : Fin 2), s.pkg.cxl[j] = true → pairEn s.cl.vfpair[k] = true → hcEn s.cl.hcwin[k] = true → s.cl.windowAt k ≤ 128 * line →
      128 * line < s.cl.windowAt k + s.cl.windowLen k → data ≠ [] → s.hostFree (128 * line) = true →
      exec (.rdcurrFill line data) s =
        .next ((s.emit (outMsg .hostRead 0 (BitVec.ofNat 64 (128 * line)) 0 0 [])).hostStore (128 * line) (data.take 128))) ∧
    exec (.hostPortTrains port cxl) s =
      .next { s with pkg := { s.pkg with cxl := s.pkg.cxl.set (portIdx port) (cxl && !s.pkg.bare) } } ∧
    (v.extractLsb' 7 57 ≠ 0 ∨ (now.evTail - now.evHead).toNat < (v.extractLsb' 0 7 - now.evHead).toNat →
      exec (.evheadWrite port (.write 0x120 v [])) s = .next s) ∧
    (port = true → s.pkg.bare = true → exec (.evheadWrite port (.write off v data)) s = .next s) ∧
    (port = false ∨ s.pkg.bare = false →
      (v.extractLsb' 7 57 = 0 → (v.extractLsb' 0 7 - now.evHead).toNat ≤ (now.evTail - now.evHead).toNat →
        ∃ t, exec (.evheadWrite port (.write 0x120 v [])) s = .next t ∧ t.mem = s.mem ∧
          t.pkg.mail[portIdx port].evHead = v.extractLsb' 0 7) ∧
      (∀ i, i < 16 →
        (now.door = true → exec (.evheadWrite port (.write (0x10 + 8 * i) v [])) s = .next s) ∧
        (now.door = false → ∃ t, exec (.evheadWrite port (.write (0x10 + 8 * i) v [])) s = .next t ∧ t.mem = s.mem ∧
          t.pkg.mail[portIdx port] = { now with cmd := now.cmd.set i v })) ∧
      (v.getLsbD 0 = true → now.door = false →
        ∃ t, exec (.evheadWrite port (.write 0x90 v data)) s = .next t ∧ t.mem = s.mem ∧ t.pkg.mail[portIdx port] = { now with door := true } ∧
          t.mbHeld = s.mbHeld ++ [.via (portIdx port) (now.command data)] ∧ (s.mbReady = true → .mbNext ∈ t.agenda)) ∧
      (∃ t, exec (.evheadWrite port (.read off)) s = .next t ∧ t.mem = s.mem ∧
        ∃ m ∈ t.out, m.kind = .cfgRead ∧ m.words.map (fun w => w.val) = [now.word off]) ∧
      (off % 8 ≠ 0 ∨ off < 0x10 ∨ 0x930 ≤ off → now.word off = 0) ∧ now.word 0x90 = (if now.door then 1 else 0))

/-- The host's memory requests, snoops and mailbox ring. -/
def Obligations.HostMemory : Prop :=
  Claim.HostRequests ∧ Claim.HostAnswers

/-- R455, R460: a mailbox command that arrives before the mailbox opens, or before every earlier one has been answered, is held, in order,
and does nothing else. -/
def Claim.CommandsBeforeTheMailboxOpens : Prop :=
  ∀ (s : State) (x y : Word) (rect : BitVec 32) (world : BitVec 24) (t : MbTarget) (k : Fin 16) (e : Nat) (w : Fin 8) (ckey : BitVec 6)
    (kind : CompKind) (bs cs : List Byte) (nonce : BitVec 256) (l : List (BitVec 256)) (die : BitVec 3) (pclu : BitVec 6) (f : BitVec 12)
    (vpn : BitVec 17) (frame : BitVec 16) (p : BitVec 18) (n : BitVec 4) (at_ : CkeyAt) (own : OwnAt), s.mbReady = false →
    ∀ c ∈ ([(.evict x rect world, .evict x rect world), (.restore x rect world, .restore x rect world),
        (.placeTableWrite t y, .placeTable t y), (.vfpairWrite k y, .vfpair k y), (.hcwinWrite k y, .hcwin k y),
        (.fabswitchWrite y, .fabswitch y), (.farPeerWrite e w y, .farPeer e w y), (.hostRegisterWrite t y, .hostReg t y),
        (.registerRead t, .regRead t), (.create world ckey kind, .create world ckey kind), (.destroy world ckey, .destroy world ckey),
        (.keyLoad world ckey bs cs, .keyLoad world ckey bs cs), (.gate world k y, .gate world k y),
        (.evidence world nonce x e, .evidence world nonce x e), (.peers l, .peers l), (.handOver bs own world, .handOver bs own world),
        (.powerRun die pclu f, .powerRun die pclu f), (.powerHold die pclu f, .powerHold die pclu f),
        (.powerOff die pclu f, .powerOff die pclu f), (.exportPage at_ vpn y, .exportPage at_ vpn y),
        (.importPage at_ vpn bs frame, .importPage at_ vpn bs frame), (.declareLost p, .declareLost p),
        (.mbRegionCommand x world n, .region x world n)] : List (Instr × MbCmd)),
      exec c.1 s = .next { s with mbHeld := s.mbHeld ++ [c.2] }

/-- R34, R38, R55 to R57, R416, R427, R431, R449, R454, R458: what the host writes and reads. A write that is refused is answered with 0x05
and changes no register; an accepted cluster-map entry is extended into slot 2 first; an accepted pair, window, far peer entry or `fabswitch`
stands in its register; a read answers with the value; what another cluster holds is passed on to it,
and measured and recorded once that cluster accepts it (that the slots are extended then is the model's choice, log 100). -/
def Claim.HostWritesAndReads : Prop :=
  ∀ (s : State) (t : MbTarget) (v x : Word) (k : Fin 16) (peer : Nat) (word : Fin 8), s.mbReady = true → Canonical s →
    let both (p : Instr → Prop) : Prop := p (.placeTableWrite t v) ∧ p (.hostRegisterWrite t v)
    let answered (i : Instr) (code : Code) (P : State → Prop) : Prop :=
      ∃ u, exec i s = .next u ∧ u.mem = s.mem ∧ Left u .hostAnswer 0 0 code ∧ P u
    let kept (u : State) : Prop := u.cl = s.cl ∧ u.pkg.slots = s.pkg.slots ∧ u.pkg.fab = s.pkg.fab
    (t.space ≠ 7 → 60 ≤ t.pclu.toNat → both (fun i => answered i 0x05 kept) ∧ answered (.registerRead t) 0x05 fun _ => True) ∧
    (s.pkg.bare = true → t.space = 7 ∨ t.die ≠ 0 → both (fun i => answered i 0x05 kept) ∧ answered (.registerRead t) 0x05 fun _ => True) ∧
    (s.noSuch t = false → t.space ≠ 7 → t.pclu.toNat < 60 → t.die ≠ s.cl.die ∨ t.pclu ≠ s.cl.pclu →
      let passed := s.forwardWith 0x02 (MbTarget.word t) [v] (measuredItems t v) (some (t, v))
      let done := passed.forwardAnswer s.nextRid 0 []
      let undone := passed.forwardAnswer s.nextRid 0x05 []
      let old := s.shareOf (t.die ++ t.pclu)
      let full : Prop := s.pkg.holdSlots < s.sharedOut old.1 (v.extractLsb' 0 13).toNat
      passed.pkg.slots = s.pkg.slots ∧ undone.pkg.slots = s.pkg.slots ∧ undone.pkg.shares = s.pkg.shares ∧ Left undone .hostAnswer 0 0 0x05 ∧
      Left done .hostAnswer 0 0 0 ∧
      (t.space ≠ 6 ∨ t.index ≠ 0x101 ∧ t.index ≠ 0x106 → both (fun i => exec i s = .next passed)) ∧
      (t.space = 1 ∨ t.space = 2 → done.pkg.slots = (s.extend 2 (writeItem t v)).pkg.slots) ∧
      (t.space = 6 → t.index = 0x10D →
        done.pkg.slots = ((s.extend 6 (writeItem t v)).extend 7 (writeItem t v)).pkg.slots) ∧
      (t.space = 6 → t.index = 0x101 →
        (s.pkg.spillIn t.die t.pclu = true → both (fun i => answered i 0x05 kept)) ∧
        (s.pkg.spillIn t.die t.pclu = false → both (fun i => exec i s = .next passed)) ∧
        done.shareOf (t.die ++ t.pclu) = (v.extractLsb' 0 24, old.2)) ∧
      (t.space = 6 → t.index = 0x107 → done.cmptOf (t.die ++ t.pclu) = v.extractLsb' 0 6) ∧
      (t.space = 6 → t.index = 0x106 →
        (full → both (fun i => answered i 0x05 kept)) ∧ (¬ full → both (fun i => exec i s = .next passed)) ∧
        done.shareOf (t.die ++ t.pclu) = (old.1, v.extractLsb' 0 13)) ∧
      (t.space ≠ 6 → exec (.registerRead t) s = .next (s.forward 0x07 (MbTarget.word t) 0))) ∧
    (s.noSuch t = false → t.pclu.toNat < 60 → t.die = s.cl.die → t.pclu = s.cl.pclu →
      (t.space = 1 →
        (t.index.toNat < 512 → v.extractLsb' 9 53 = 0 → s.suspended = true →
          both (fun i => answered i 0 fun u => u.cl.map[Fin.ofNat 512 t.index.toNat] = v ∧ u.pkg.slots = (s.extend 2 (writeItem t v)).pkg.slots)) ∧
        (512 ≤ t.index.toNat ∨ v.extractLsb' 9 53 ≠ 0 ∨ s.suspended = false → both (fun i => answered i 0x05 kept)) ∧
        (t.index.toNat < 512 → answered (.registerRead t) 0 fun u => ∃ m ∈ u.out, m.kind = .hostAnswer ∧
          m.words.map (fun w => w.val) =
            [(0x07#8 ++ (s.pkg.mail[s.pkg.mbCur].cmd.getD 0 0).extractLsb' 48 8 ++ 0#48 : BitVec 64), s.cl.map[Fin.ofNat 512 t.index.toNat]])) ∧
      (t.space = 2 →
        (v.extractLsb' 19 45 = 0 → 1 ≤ (v.extractLsb' 0 6).toNat → (v.extractLsb' 0 6).toNat ≤ 40 → s.suspended = true →
          both (fun i => answered i 0 fun u => u.cl.mapHead = v ∧ u.pkg.slots = (s.extend 2 (writeItem t v)).pkg.slots)) ∧
        (s.suspended = false → both (fun i => answered i 0x05 kept))) ∧
      (t.space = 3 →
        (t.index.toNat < 63 → v.extractLsb' 8 56 = 0 → v.getLsbD 6 = false →
          cellMapOk (s.cl.cellMap.set (Fin.ofNat 64 t.index.toNat) (v.extractLsb' 0 8)) = true → s.suspended = true →
          both (fun i => answered i 0 fun u => u.cl.cellMap = s.cl.cellMap.set (Fin.ofNat 64 t.index.toNat) (v.extractLsb' 0 8))) ∧
        (s.suspended = false → both (fun i => answered i 0x05 kept)))) ∧
    (s.cl.pclu.toNat < 60 →
      (s.pkg.bare = false ∨ s.cl.die = 0 → s.pairOk k v = true → answered (.vfpairWrite k v) 0 fun u => u.cl.vfpair = s.cl.vfpair.set k v) ∧
      (s.pairOk k v = false → answered (.vfpairWrite k v) 0x05 kept) ∧
      (s.pkg.bare = false → s.suspended = true → s.cl.hcwinOk k v = true → answered (.hcwinWrite k v) 0 fun u => u.cl.hcwin = s.cl.hcwin.set k v) ∧
      (s.suspended = false ∨ s.cl.hcwinOk k v = false → answered (.hcwinWrite k v) 0x05 kept)) ∧
    (let n := s.pkg.nslot s.pkg.bank
     let fits : Prop := s.pkg.bare = false ∧ s.pkg.switchAt = none ∧ s.pkg.fabtime + n ≤ v.toNat ∧ (v.toNat - s.pkg.bankStart) % n = 0
     (fits → answered (.fabswitchWrite v) 0 fun u => u.pkg.switchAt = some v.toNat ∧ u.pkg.fabWord 0x108 = v ∧
       (u.pkg.fabWord 0x100).getLsbD 62 = true) ∧
     (¬ fits → answered (.fabswitchWrite v) 0x05 kept)) ∧
    (s.pkg.bare = true ∨ 1024 ≤ peer ∨ s.pkg.farWordOk word.val v = false → answered (.farPeerWrite peer word v) 0x05 kept) ∧
    (s.pkg.bare = false → peer < 1024 → s.pkg.farWordOk word.val v = true →
      answered (.farPeerWrite peer word v) 0 fun u => u.pkg.fabWord (0x40000 + 64 * peer + 8 * word.val) = v ∧
        (word = 0 → v.getLsbD 63 = true → (s.pkg.fabWord (0x40000 + 64 * peer)).getLsbD 63 = false →
          (u.sessOf peer).map FarSess.st = some .opening) ∧
        (word = 0 → v.getLsbD 63 = false → u.sessOf peer = none))

/-- Mailbox commands before it opens, and the host's register writes and reads. -/
def Obligations.HostCommands : Prop :=
  Claim.CommandsBeforeTheMailboxOpens ∧ Claim.HostWritesAndReads

/-- R413, R442 to R450, R460: the security cores' commands. When the cores are held every command is answered with 0x13. Else: a compartment
is created under a drawn key and extended into slot 3, or refused with 0x05 where its number is 0 or in use and 0x13 where no key can be
drawn; one is destroyed; a weight key is loaded once; a gate entry stands in the table and, for the own world, in the home; the evidence is
signed and, with the certificate and the public keys beside it, fills the host's buffer or is refused where that is too short; the allow list is replaced by at most 16 values; an image that is handed over, of a
root region within the carve-out of pair 0 of the named cluster, is measured into slot 1, and the clusters are held in reset where that fails. -/
def Claim.SecurityCommands : Prop :=
  ∀ (s : State) (world : BitVec 24) (ckey : BitVec 6) (kind : CompKind) (kem wrapped image : List Byte) (index : Fin 16) (entry rcb : Word)
    (nonce : BitVec 256) (len : Nat) (values : List (BitVec 256)) (c : Compartment) (h : OwnAt), s.mbReady = true →
    let answer (i : Instr) (code : Code) : Prop := exec i s = .next (s.hostAnswer 0x03 code [])
    let accepts (i : Instr) (P : State → Prop) : Prop := ∃ t, exec i s = .next t ∧ t.mem = s.mem ∧ Left t .hostAnswer 0 0 0 ∧ P t
    let make : Instr := .create world ckey kind
    let load : Instr := .keyLoad world ckey kem wrapped
    let held := s.pkg.compOf world ckey
    (s.pkg.secHeld = true →
      (∀ i ∈ ([make, load, .gate world index entry, .evidence world nonce rcb len, .peers values, .handOver image h world] : List Instr), answer i 0x13) ∧
      (held ≠ none → answer (.destroy world ckey) 0x13)) ∧
    (s.pkg.secHeld = false →
      (ckey = 0 ∨ held ≠ none → answer make 0x05) ∧
      (ckey ≠ 0 → held = none →
        (s.drawKey.1 = none → ∃ t, exec make s = .next t ∧ t.pkg.comps = s.pkg.comps ∧ t.pkg.slots = s.pkg.slots ∧ Left t .hostAnswer 0 0 0x13) ∧
        (∀ n, s.drawKey.1 = some n →
          accepts make fun t => t.pkg.slots = (s.extend 3 (compItem 1 world ckey kind)).pkg.slots ∧
            t.pkg.comps = s.pkg.comps ++ [{ world, ckey, kind, keyId := n, xts := kind == .data, torn := false }])) ∧
      (held = none → answer (.destroy world ckey) 0x05 ∧ answer load 0x05) ∧
      (held = some c →
        (world = s.cl.ptn ∧ ckey = s.cl.cmpt → s.compNamed world ckey = true) ∧
        (s.compNamed world ckey = true → answer (.destroy world ckey) 0x05) ∧
        (s.compNamed world ckey = false →
          accepts (.destroy world ckey) fun t => t.pkg.compOf world ckey = none ∧
            t.pkg.slots = (s.extend 3 (compItem 2 world ckey c.kind)).pkg.slots) ∧
        (c.kind = .data ∨ c.xts = true → answer load 0x05) ∧
        (c.kind = .weight → c.xts = false → c.torn = true → answer load 0x13) ∧
        (c.kind = .weight → c.xts = false → c.torn = false →
          (Config.unwrapKey c.keyId kem wrapped = none → answer load 0x10) ∧
          (∀ n, Config.unwrapKey c.keyId kem wrapped = some n →
            accepts load fun t => t.pkg.compOf world ckey = some { c with xts := true, pair := n }))) ∧
      (s.gateEntryOk world entry = false → answer (.gate world index entry) 0x05) ∧
      (s.gateEntryOk world entry = true →
        accepts (.gate world index entry) fun t => (t.pkg.gatesOf world)[index] = entry ∧
          t.pkg.slots = (s.extend 4 (bytesOf entry)).pkg.slots ∧ (world = s.cl.ptn → t.cl.gates = s.cl.gates.set index entry)) ∧
      (let all := s.evidenceBytes world nonce ++ (List.range 7856).map (Config.signature Config.identitySeed s.pkg.slots[0] (s.evidenceBytes world nonce)) ++
         Config.aliasCertificate Config.identitySeed s.pkg.slots[0] ++ (List.range 63).flatMap fun k =>
           match s.pkg.compOf world (BitVec.ofNat 6 (k + 1)) with
           | some c => Config.kemPublic c.keyId
           | none => []
       (len < all.length → answer (.evidence world nonce rcb len) 0x05) ∧
       (all.length ≤ len → accepts (.evidence world nonce rcb len) fun t => t.pkg.slots = s.pkg.slots ∧
         ∃ m ∈ t.out, m.kind = .evidence ∧ m.addr = rcb ∧ m.words.map (fun w => w.val) = wordsOf ((all.length + 7) / 8) all)) ∧
      (16 < values.length → answer (.peers values) 0x05) ∧
      (values.length ≤ 16 → accepts (.peers values) fun t => t.pkg.allow = values ∧
        t.pkg.slots = (s.extend 5 (values.flatMap fun x => leBytes 32 x.toNat)).pkg.slots) ∧
      (let p := s.cl.vfpair[0]
       let give : Instr := .handOver image h world
       let named : Prop := h.pclu.toNat < 60 ∧ (s.pkg.bare = true → h.die = 0) ∧ isOwn h.oa = true
       let mine : Prop := h.die = s.cl.die ∧ h.pclu = s.cl.pclu
       let fits : Prop := world = s.cl.ptn ∧ pairEn p = true ∧ image.length ≤ pairSize p * 0x10000 ∧
         (s.withMem (s.mem.putPlain (pairBase p * 0x10000) image)).imageOk h.oa.toNat = true
       (¬ named → answer give 0x05) ∧
       (named → ¬ mine → ∃ t, exec give s = .next t ∧ t.mem = s.mem ∧ t.pkg.slots = s.pkg.slots ∧ ∃ m ∈ t.out, m.kind = .mbForward) ∧
       (named → mine → ¬ fits → answer give 0x05) ∧
       (named → mine → fits → ∃ t, exec give s = .next t ∧
         (Config.measureFails s.free = true → t.cl.released = false ∧ t.pkg.slots = s.pkg.slots) ∧
         (Config.measureFails s.free = false → t.pkg.slots = (s.extend 1 image).pkg.slots))))

/-- R411 to R413, R452: protected pages. An export raises the version, marks the page out and leaves the frame unchanged; of a page that is
out, or that a TLB entry matches, it is refused with 0x05. A page of another cluster is exported and imported there. An import of the exported version restores the page and marks it in; a failed one
is answered with 0x0F, writes no byte and tears the compartment down. -/
def Claim.ProtectedPages : Prop :=
  ∀ (s : State) (at_ : CkeyAt) (vpn : BitVec 17) (host : Word) (image : List Byte) (frame : BitVec 16) (key : Nat), s.mbReady = true →
    let ckey := at_.ckey
    let v := s.pageVer ckey vpn
    let gone : Instr := .exportPage at_ vpn host
    let back : Instr := .importPage at_ vpn image frame
    let named : Prop := at_.pclu.toNat < 60 ∧ (s.pkg.bare = true → at_.die = 0)
    let mine : Prop := at_.die = s.cl.die ∧ at_.pclu = s.cl.pclu
    (¬ named → ∀ i ∈ [gone, back], exec i s = .next (s.hostAnswer 0x05 0x05 [])) ∧
    (named → ¬ mine → ∀ i ∈ [gone, back], ∃ t, exec i s = .next t ∧ t.mem = s.mem ∧ t.pkg.versions = s.pkg.versions ∧
      ∃ m ∈ t.out, m.kind = .mbForward) ∧
    (named → mine →
    let mapped : Prop := ∃ e ∈ s.cl.tlb, e.covers vpn.toNat = true
    (ckey = 0 ∨ v.out = true ∨ host.toNat % 64 ≠ 0 ∨ mapped → exec gone s = .next (s.hostAnswer 0x05 0x05 [])) ∧
    (ckey ≠ 0 → v.out = false → host.toNat % 64 = 0 → ¬ mapped →
      (s.exportKey ckey = none → exec gone s = .next (s.hostAnswer 0x05 0x13 [])) ∧
      (s.exportKey ckey = some key →
        ∃ t, exec gone s = .next t ∧ t.mem = s.mem ∧ Left t .hostAnswer 0 0 0 ∧ (t.pageVer ckey vpn).ver = v.ver + 1 ∧
          (t.pageVer ckey vpn).out = true)) ∧
    (frame.toNat ∉ s.cl.clean → exec back s = .next (s.hostAnswer 0x05 0x05 [])) ∧
    (frame.toNat ∈ s.cl.clean →
      (s.exportKey ckey = none → exec back s = .next (s.hostAnswer 0x05 0x13 [])) ∧
      (s.exportKey ckey = some key → s.importOk ckey vpn image key = true →
        ∃ t, exec back s = .next t ∧ (t.pageVer ckey vpn).out = false ∧ (t.pageVer ckey vpn).ver = v.ver ∧ Left t .hostAnswer 0 0 0 ∧
          (Canonical s → ∀ i, i < 0x10000 → t.mem.byteAt (frame.toNat * 0x10000 + i) = v.page.byteAt i)) ∧
      (s.exportKey ckey = some key → s.importOk ckey vpn image key = false →
        ∃ t, exec back s = .next t ∧ t.mem = s.mem ∧ Left t .hostAnswer 0 0 0x0F ∧
          ∀ c, t.comp ckey = some c → c.torn = true ∧ c.xts = false)))

/-- The security cores' commands, and protected pages. -/
def Obligations.SecurityAndPages : Prop :=
  Claim.SecurityCommands ∧ Claim.ProtectedPages

/-- R461, R462: power commands. Out of range, or above a ceiling, they are refused with 0x05; another cluster's are passed on; `run` sets the
frequency, stopping issue where it changes, and brings a cluster back from off, at reset with every frame scrub-pending, released and with a value drawn for its seals; `hold` needs a suspended
partition; `off` needs a cluster of no partition, whose contents are lost. At the end of a change of clock issue resumes. -/
def Claim.PowerCommands : Prop :=
  ∀ (s : State) (die : BitVec 3) (pclu : BitVec 6) (f : BitVec 12), s.mbReady = true →
    let all : List Instr := [.powerRun die pclu f, .powerHold die pclu f, .powerOff die pclu f]
    let ranges : Prop := (s.pkg.bare = true → die = 0) ∧ pclu.toNat < 60 ∧ f.toNat % 25 = 0 ∧ 300 ≤ f.toNat ∧ f.toNat ≤ 1200
    let mine : Prop := die = s.cl.die ∧ pclu = s.cl.pclu
    let done (i : Instr) (code : Code) (P : State → Prop) : Prop := ∃ t, exec i s = .next t ∧ Left t .hostAnswer 0 0 code ∧ P t
    let nothing (t : State) : Prop := t.mem = s.mem ∧ t.cl = s.cl ∧ t.pkg.slots = s.pkg.slots
    (¬ ranges → ∀ i ∈ all, done i 0x05 nothing) ∧
    (ranges → ¬ mine → ∀ i ∈ all, ∃ t, exec i s = .next t ∧ t.mem = s.mem ∧ t.cl = s.cl ∧ ∃ m ∈ t.out, m.kind = .mbForward) ∧
    (ranges → mine → s.underCeilings die pclu f = false → ∀ i ∈ all, done i 0x05 nothing) ∧
    (ranges → mine → s.underCeilings die pclu f = true →
      (s.cl.power = .run → done (.powerRun die pclu f) 0 fun t => t.mem = s.mem ∧ t.cl.power = .run ∧ t.cl.freq = f ∧
        t.cl.clockStop = (s.cl.clockStop || f != s.cl.freq)) ∧
      (s.cl.power = .hold → done (.powerRun die pclu f) 0 fun t => t.mem = s.mem ∧ t.cl.power = .run ∧ t.cl.freq = f) ∧
      (s.cl.power = .off → done (.powerRun die pclu f) 0 fun t => t.mem = Memory.reset ∧ t.cl.clean = [] ∧ t.cl.power = .run ∧ t.cl.freq = f ∧ t.cl.released = true ∧
        t.cl.sealKey = s.drawKey.1) ∧
      (s.suspended = false ∨ s.cl.power = .off → done (.powerHold die pclu f) 0x05 nothing) ∧
      (s.suspended = true → s.cl.power ≠ .off → done (.powerHold die pclu f) 0 fun t => t.mem = s.mem ∧ t.cl.power = .hold ∧ t.cl.freq = f) ∧
      (s.cl.ptn ≠ 0 → done (.powerOff die pclu f) 0x05 nothing) ∧
      (s.cl.ptn = 0 → done (.powerOff die pclu f) 0 fun t => t.mem = Memory.reset ∧ t.cl.power = .off ∧ t.cl.clean = [] ∧ t.cl.released = false)) ∧
    (s.cl.clockStop = false → exec .clockChangeDone s = .next s) ∧
    (s.cl.clockStop = true → ∃ t, exec .clockChangeDone s = .next t ∧ t.cl.clockStop = false ∧ t.mem = s.mem)

/-- R70, R80, R447, R449, R460: a package reset and a mismatch of the security cores. After a reset memory lists nothing and every frame is
scrub-pending, slot 0 has been extended with the security cores' firmware and slot 6 with the fused clock ceilings (the model's choice, log 63)
and no other slot, the mailbox is open, the cluster is released in state run at those ceilings,
and commands that were held run in order; where the measurement fails to complete the cluster is held in reset, and a fatal event is posted. A mismatch erases every key, holds the cores and posts a fatal event. -/
def Claim.PackageResetAndMismatch : Prop :=
  ∀ (s : State),
    (∃ t, exec .packageReset s = .next t ∧ t.mem = Memory.reset ∧ t.cl.clean = [] ∧ t.cl.power = .run ∧
      t.cl.tlb = [] ∧ t.cl.tlbctl = false ∧ t.pkg.secHeld = false ∧ t.pkg.comps = [] ∧ (∀ c : Fin 64, t.cells[c] = CellRegs.reset) ∧
      t.act.live = false ∧ t.mbHeld = (if s.pkg.boot = .open then [] else s.mbHeld) ∧
      (Config.measureFails s.free = true → t.cl.released = false ∧ t.pkg.boot ≠ .open ∧ t.pkg.hostSeq = 1) ∧
      (Config.measureFails s.free = false →
        t.cl.released = true ∧ t.cl.freq = BitVec.ofNat 12 (min Config.clockCeiling (2 * Config.arithCeiling)) ∧ t.pkg.boot = .open ∧
        t.pkg.slots = ((State.reset.extend 0 Config.securityFirmware).extend 6
          (leBytes 2 Config.clockCeiling ++ leBytes 2 Config.arithCeiling)).pkg.slots ∧
        t.agenda = if t.mbHeld = [] then [] else [.mbNext])) ∧
    (∃ t, exec .securityCoreMismatch s = .next t ∧ t.mem = s.mem ∧ t.pkg.secHeld = true ∧ (∀ c ∈ t.pkg.comps, c.xts = false) ∧
      (∀ x ∈ t.pkg.sess, x.st = .down ∨ x.st = .failed) ∧ t.pkg.hostSeq = s.pkg.hostSeq + 1 ∧
      t.pkg.mail = Vector.ofFn fun i : Fin 2 =>
        if s.pkg.bare ∧ i = 1 then s.pkg.mail[i] else s.pkg.mail[i].post { w0 := hostWord0 0x05 0 s.pkg.hostSeq, w1 := 0, w2 := 0 })

/-- Power commands, the package reset and a mismatch of the security cores. -/
def Obligations.PowerAndReset : Prop :=
  Claim.PowerCommands ∧ Claim.PackageResetAndMismatch

/-- R316 to R321, R324 to R328: the watches, barriers, deposits and atomic requests complete. From a state that serves the instruction, with
its checks passed and room for what it needs, each answers a next state in which it has completed and its own effect stands. -/
def Obligations.SynchronizationCompletes : Prop :=
  ∀ (s : State) (pa pb : PReg) (w b : Fin 4) (tn : TokName) (n : BitVec 2) (u : BitVec 3) (i : BitVec 9) (dbl : Bool), Serving s →
    let a := s.act.p[pa].val
    let q := s.me.bars[b]
    let rect := a.extractLsb' 0 32
    let nm := s.act.nameSlot tn
    let size := if dbl then 8 else 4
    let does (i : Instr) (f : Act → Act) (P : State → Prop) : Prop := ∃ t, exec i s = .next (completed t f) ∧ t.mem = s.mem ∧ P t
    let set (acq : Bool) (x : Act) : Act :=
      x.setWatch w { st := .pending, acq, code := 0, val := 0, rid := s.nextRid, addr := a, thresh := s.act.p[pb].val }
    let sent (i : Instr) (f : Act → Act) (kind : ReplyKind) : Prop :=
      does i f fun t => t.nextRid = s.nextRid + 1 ∧ t.act = { s.act with toks := t.act.toks } ∧
        ∃ e, t.replies = s.replies ++ [e] ∧ e.rid = s.nextRid ∧ e.kind = kind ∧ e.target = a
    let drop (x : Act) : Act := { x with stq := x.stq.tail }
    let asked (x : Act) : Act := { x with ldq := x.ldq ++ [.reserved s.nextRid] }
    (s.watchFault a = none →
      does (.watch pa pb w) (set false) (fun t => t.act = s.act ∧ t.nextRid = s.nextRid + 1) ∧
      does (.watcha pa pb w) (set true) (fun t => t.act = s.act ∧ t.nextRid = s.nextRid + 1)) ∧
    (s.act.watch[w].st = .answered → does (.wwait w) id fun t => t = s) ∧
    (s.act.xq.length < Config.xqSize →
      does (.wtest w) (fun x => { x with
        xq := x.xq ++ [.filled (if s.act.watch[w].st = .answered ∨ s.act.watch[w].st = .failed then 1 else 0)] }) fun t => t = s) ∧
    (s.cl.rectOk (rectOf rect) = true → Fresh s → s.rectOthers (rectOf rect) = [] → s.rectAbsent (rectOf rect) = false →
      (rectOf rect).holds s.here.1 s.here.2 = true → q.arr = false →
      does (.barset pa b) id fun t => t.act = s.act ∧ t.me.bars[b] = { q with bound := true, rect, arr := false, ph := false, err := false }) ∧
    (q.bound = true → q.arr = false →
      does (.barv b) id (fun t => t.act.p = s.act.p ∧ (t.me.bars[b].arr = true ∨ t.me.bars[b].ph = !q.ph)) ∧
      (q.err = false → does (.barw b) id fun t => t = s)) ∧
    (Sendable s a (2 ^ n.toNat) nm →
      sent (.dep pa pb tn n) id .deposit ∧ (s.act.stq ≠ [] → sent (.depq pa tn n) drop .deposit)) ∧
    (Sendable s a 128 nm →
      (s.act.stq ≠ [] → sent (.depqLine pa tn) drop .deposit) ∧
      sent (.depe pa pb tn u i) id .deposit ∧ sent (.depes pa pb tn u i) id .deposit) ∧
    (s.act.ldqRoom = true →
      (Sendable s a size nm →
        sent (.amoAdd pa pb tn dbl) asked .atomic ∧ sent (.amoMin pa pb tn dbl) asked .atomic ∧ sent (.amoMax pa pb tn dbl) asked .atomic ∧
        sent (.amoMinu pa pb tn dbl) asked .atomic ∧ sent (.amoMaxu pa pb tn dbl) asked .atomic ∧
        sent (.amoAnd pa pb tn dbl) asked .atomic ∧ sent (.amoOr pa pb tn dbl) asked .atomic ∧ sent (.amoXor pa pb tn dbl) asked .atomic ∧
        sent (.amoSwap pa pb tn dbl) asked .atomic ∧ sent (.amoCas pa pb tn dbl) asked .atomic ∧
        sent (.amoUser pa pb tn u dbl) asked .atomic) ∧
      (Sendable s a 128 nm → sent (.amoEnq pa pb tn) asked .atomic ∧ sent (.amoDeq pa tn) asked .atomic) ∧
      (Sendable s a 8 nm → (∀ e ∈ s.replies, e.aid ≠ s.act.aid) → sent (.amoAdv pa tn) asked .atomic))

/-- R332 to R341, R348 to R356, R367, R376, R382, R383: messages, token, system and engine instructions complete. From a state that serves
the instruction, with its checks passed and room for what it needs, each answers a next state in which it has completed, or its activation
has ended or trapped as the instruction says, and its own effect stands. -/
def Obligations.SystemFormsComplete : Prop :=
  ∀ (s : State) (pa pb pc : PReg) (x : Fin 16) (k : Fin 4) (tn : TokName) (n : BitVec 4) (m : BitVec 2) (c : BitVec 5) (idx : BitVec 12)
    (fa fr sb init dense sat recd all fail : Bool) (r : Rnd) (l : BitVec 8), Serving s →
    let a := s.act.p[pa].val
    let b := s.act.p[pb].val
    let nm := s.act.nameSlot tn
    let does (i : Instr) (P : State → Prop) : Prop := ∃ t, exec i s = .next t ∧ P t
    let goes (i : Instr) (f : Act → Act) (P : State → Prop) : Prop := ∃ t, exec i s = .next (completed t f) ∧ P t
    let sent (i : Instr) (kind : ReplyKind) : Prop :=
      goes i id fun t => t.mem = s.mem ∧ t.nextRid = s.nextRid + 1 ∧ t.act = { s.act with toks := t.act.toks } ∧
        ∃ e, t.replies = s.replies ++ [e] ∧ e.rid = s.nextRid ∧ e.kind = kind ∧ e.target = a
    let gone (t : State) : Prop := t.act = Act.idle ∧ t.mem = s.mem
    let queued (i : Instr) (op : MOp) : Prop :=
      goes i id fun t => t.act = s.act ∧ t.mem = s.mem ∧ ∃ d, t.mx.queue = s.mx.queue ++ [d] ∧ d.op = op ∧ d.wa = a ∧ d.wb = b
    let source : Prop := formOk a = true ∧ a.toNat % 128 = 0 ∧ s.scopeFault pc = none ∧ s.sourceFault a = none
    let line : Prop := a.extractLsb' 34 30 = 0 ∧ a.toNat % 128 = 0 ∧ s.inSlot1 a.toNat 128 = true
    let takes : Prop := s.mx.xfers[x].st ≠ .opened ∧ (s.mx.xfers[x].st = .free ∨ s.mx.xfers[x].reg = s.act.reg)
    let rows := (b.extractLsb' 56 8).toNat + 1
    let abase : Word := (b.extractLsb' 0 34).setWidth 64
    (Mailable s a 1 (some c) nm →
      sent (.send pa tn n c) .message ∧ (s.payer s.regEntry .credit = 0 → sent (.spawn pa tn n c) .spawn)) ∧
    (Mailable s a 1 (some c) none → does (.mig pa c) gone) ∧
    (Mailable s a 256 none nm → sent (.rcmd pa tn n) .rcmd) ∧
    does .done gone ∧
    (s.yieldBuf[s.slotNo] = none → does .yield fun t => gone t ∧ t.yieldBuf[s.slotNo] ≠ none) ∧
    goes (.tokz k) (fun y => { y with toks := y.toks.set k 0 }) (fun t => t = s) ∧
    (s.act.xq.length < Config.xqSize → ∃ v, goes (.tokq k) (fun y => { y with xq := y.xq ++ [.filled v] }) fun t => t = s) ∧
    (s.act.toks[k] = 0 ∨ s.ownTok s.act.toks[k] = none → goes (.tokw k) id fun t => t = s) ∧
    (Fresh s → s.cl.clucfg.getLsbD 2 = true → s.mxWaiting < Config.matrixQueueSize →
      (source → b.extractLsb' 4 60 = 0 → (tyIn (b.extractLsb' 0 4) operandTys).isSome = true → queued (.mwld pa pb pc fa fr sb) .mwld) ∧
      (source → b.extractLsb' 4 52 = 0 → b.extractLsb' 0 4 = Ty.code .fp32 → takes → s.mx.used + rows ≤ 256 →
        queued (.mwldLanding pa pb pc x fa fr) .landing) ∧
      ((dense = false → isOwn a = true ∧ a.toNat % 128 = 0 ∧ s.slotBase ≤ a.toNat ∧ a.toNat + 2 * rows ≤ s.slotBase + 0x40000) →
        abase.toNat % 128 = 0 → s.scopeFault pc = none → s.inOctet abase.toNat 128 = true → b.extractLsb' 34 10 = 0 →
        (tyIn (b.extractLsb' 44 4) operandTys).isSome = true → s.bufferOk sb = true →
        (init = false → takes ∧ s.mx.used + rows ≤ 256) →
        (init = true → s.mx.xfers[x].st = .opened ∧ s.mx.xfers[x].reg = s.act.reg ∧ s.mx.xfers[x].m = rows) →
        queued (.mma pa pb pc x fa fr sb init dense) .mma ∧ queued (.mmp pa pb pc x fa fr sb init dense) .mmp) ∧
      ((∀ i, i ≤ m.toNat → progOpOk (a.extractLsb' (16 * i) 16) = true) →
        (∀ i, m.toNat < i → i < 4 → a.extractLsb' (16 * i) 16 = 0) → b.extractLsb' 32 32 = 0 → queued (.mprog pa pb m) .mprog) ∧
      (isOwn a = true → a.toNat % 128 = 0 → s.scopeFault pc = none → commitDescOk b = true → s.mx.xfers[x].st = .opened →
        s.mx.xfers[x].reg = s.act.reg → queued (.mcommit pa pb pc x fa fr r sat) .mcommit)) ∧
    (Fresh s → s.mx.queue = [] → s.mx.xfers[x].st = .free → goes (.mwait x all) id fun t => t = s) ∧
    (line → Fresh s → ∀ site, s.checkOwn .load a.toNat = .ok site →
      let ws := wordsOf 16 (s.view site 128)
      (∀ gather : Bool, s.cl.clucfg.getLsbD 1 = true → formOk (ws.getD 0 0) = true → s.scopeFault pc = none → s.pullOk gather ws = true →
        s.sourceFault (ws.getD 0 0) = none → s.pulls[k].st ≠ .busy →
        (s.cl.pullQ.filter fun d => !d.started).length < Config.engineQueueSize →
        goes (if gather then .pullg pa pb pc k fa fr recd else .pull pa pb pc k fa fr recd) id fun t =>
          t.mem = s.mem ∧ t.pulls[k].st = .busy ∧ ∃ d, t.cl.pullQ = s.cl.pullQ ++ [d] ∧ d.desc = ws ∧ d.id = k ∧ d.gather = gather) ∧
      (∀ ms, s.cl.clucfg.getLsbD 0 = true → s.scopeFault pc = none → s.collRanges ws = true →
        s.memberTable (ws.getD 5 0).toNat (collSpec (ws.getD 0 0)).nmem = .ok ms → s.membersOk ws ms = true →
        s.stagePages (ws.getD 3 0).toNat (((ws.getD 3 0).toNat % 0x10000 + 128 + 12 * (ws.getD 2 0).toNat + 0xFFFF) / 0x10000) = .ok () →
        (∀ p ∈ ms, s.isHere p = true ∨ s.placeFault p = none) → s.colls[k].st ≠ .busy →
        (s.cl.collQ.filter fun d => d.phase == .queued).length < Config.engineQueueSize →
        goes (.coll pa pb pc k fa fr) id fun t =>
          t.mem = s.mem ∧ t.colls[k].st = .busy ∧ ∃ d, t.cl.collQ = s.cl.collQ ++ [d] ∧ d.desc = ws ∧ d.id = k ∧ d.members = ms)) ∧
    (s.pulls[k].st = .free → goes (.pullw k false) id fun t => t = s) ∧
    (s.colls[k].st = .free → goes (.collw k false) id fun t => t = s) ∧
    (∀ t, s.act.olderWait = false → s.trapFrame s.act.reg s.slotNo.val ≠ 0 → s.me.trapvec.getLsbD 63 = true →
      (s.me.trapvec.extractLsb' 56 3).toNat = s.act.reg.val → s.act.tm = false →
      (let q : TrapReq := { s.trapReq l 0 with sw := true, resume := s.act.pc + 4 }
       s.writeWords (s.trapFrame s.act.reg s.slotNo.val).toNat [plainWords (recordWords q
        (recordWord1 (BitVec.ofNat 3 s.slotNo.val) s.act.chan false false false false s.act.losesEntry true l) 0)] = .ok t) →
      does (.trap l) fun u => u.act.tm = true ∧ u.act.pc = (s.me.trapvec.extractLsb' 0 34).setWidth 64 ∧ u.act.p = s.act.p ∧ u.mem = t.mem) ∧
    (∀ v t, s.lookCtl s.issuer s.self idx.toNat = some (v, t) →
      exec (.cget pa idx) s = .next (completed t fun y => y.setP pa { val := v, step := y.p[pa].step, tag := false })) ∧
    (∀ t, s.act.phase ≠ .ackWait → idx ≠ 0x108 → s.writeCtl s.issuer s.self idx.toNat a = some t → t.act.drain = false →
      exec (.cset pa idx) s = .next (completed t id).unblock) ∧
    (s.act.phase ≠ .ackWait → 0 < a.toNat → a.toNat < 2 ^ 32 → does (.cset pa 0x009) fun t => t.readCellCtl s.self 0x009 = some a ∧ t.mem = s.mem) ∧
    (s.isService = true → tlbWordsOk a b = true → ∀ t, s.tlbwHome a b = some t → t.act.drain = false →
      exec (.tlbw pa pb) s = .next (completed t id).unblock) ∧
    (s.act.phase = .ackDone → exec (.tlbi pa m) s = .next (completed s id).unblock) ∧
    (a.extractLsb' 34 30 = 0 → a.toNat % 512 = 0 → (∃ j, s.act.phase = .barWait j 0 false) →
      exec (.pready pa fail l) s = .next (completed s id).unblock) ∧
    (∀ site t, a.extractLsb' 34 30 = 0 → a.toNat % 512 = 0 → Fresh s → s.checkOwn .load (a.toNat + 320) = .ok site →
      wordOf (s.view site 8) = s.lcell.setWidth 64 → s.cl.present s.self = true → s.preadyHere a s.rcb fail l = .done t → t.act.drain = false →
      exec (.pready pa fail l) s = .next (completed t id).unblock) ∧
    (∀ site, s.act.tm = true → Fresh s →
      let oa := (s.trapFrame s.act.reg s.slotNo.val).toNat + 40
      let w := wordOf (s.view site 8)
      s.checkOwn .load oa = .ok site → w.extractLsb' 34 30 = 0 → w.extractLsb' 0 2 = 0 →
      does .rti fun t => t.act.tm = false ∧ t.act.pc = w ∧ t.act.p = s.act.p ∧ t.mem = s.mem) ∧
    goes .ifence (fun y => { y with ibuf := [] }) (fun t => t = s)

/-- R63, R66, R68, R71, R97 to R105, R135, R152, R164, R172, R220, R316: the events of the memory system, of order and of the waits
complete: each, where what it acts on is there, answers a next state with its own effect. -/
def Obligations.MemoryEventsComplete : Prop :=
  ∀ (s : State) (who : Requester) (oa mw dw arg p1 frame rcb tick user addr detail : Word) (u : AccUnit) (kind : AccKind) (d : WData)
    (site : Site) (req : DepositReq) (rid n issuer line : Nat) (m : BitVec 2) (k : BitVec 8) (head : BitVec 9) (f : BitVec 16) (cell : Fin 64)
    (code : Code) (lcell : BitVec 15) (ent : WalkEnt) (wq : WatchReq) (a : WatchAns) (rect : BitVec 32) (b : Fin 4) (err : Bool),
    let does (i : Instr) (P : State → Prop) : Prop := ∃ t, exec i s = .next t ∧ P t
    let open' : Prop := s.cl.window oa.toNat ≠ .ctl
    (∀ e, open' → s.checkPort who kind oa.toNat = .ok site → s.tileBad site oa.toNat kind = false → s.readUnit site oa.toNat (unitTy u) u .other = .ok e →
      does (.loadAtPort who oa u kind) fun t => t.mem = s.mem ∧ ∃ x ∈ t.out, x.kind = .loadReply ∧ x.rid = who.rid) ∧
    (∀ e line tags stamp r j, s.cl.fills = [] → s.joins = [] → s.pkg.mbFwd = none → s.act.phase = .loadWait rid j →
      (∀ i : Fin 5, i < s.cur → ∀ k, (s.slotAct i).phase ≠ .loadWait rid k) →
      does (.loadReply rid (.data e line tags stamp r 0)) fun t => t.act.phase = .loaded e ∧ t.mem = s.mem) ∧
    (∀ slot bs, slotIdx slot = s.cur → s.act.live = true → isOwn s.act.pc = true → s.act.heldLine s.act.pc = none → Fresh s →
      s.readLine s.act.pc = .ok bs →
      does (.fetchLine slot s.act.pc) fun t => (lineOf s.act.pc, bs) ∈ t.act.ibuf ∧ t.mem = s.mem) ∧
    (open' → s.checkWrite who .store oa.toNat d = .ok site → does (.storeAccept who oa d) fun t => t.mem = s.performAt site oa.toNat d) ∧
    (s.acceptedSite oa.toNat = .ok site →
      does (.storePerform oa d) fun t => t.mem = s.performAt site oa.toNat d) ∧
    (s.checkDeposit req = .ok site → does (.depositAtOwner req) fun t => t.mem = s.performAt site req.oa.toNat req.data) ∧
    (∀ t, s.tlbwHome mw dw = some t → exec (.tlbwAtHome mw dw) s = .next (t.emit (outMsg .posReply s.cl.place 63 0 0 []))) ∧
    (s.portHolds inDram = false → s.oldWaits = false → does (.tlbiAtHome m arg) fun t => t.cl.epoch = s.cl.epoch + 1 ∧ t.mem = s.mem) ∧
    (s.act.phase = .ackWait → does (.shootdownAck (slotOfIdx s.cur)) fun t => t.act.phase = .ackDone ∧ t.mem = s.mem) ∧
    (∀ slot t g, slotIdx (.gen slot) = s.cur → s.act.live = true → s.act.olderWait = false → s.act.phase = .missWait oa →
      s.regEntry.info.save ≠ 0 → s.regEntry.info.nfr ≠ 0 → s.park s.act.trapPc oa p1 [] false = .parked t g →
      does (.pageFault (.gen slot) oa p1) fun v => v.act = t.act ∧ v.parked = t.parked) ∧
    (∀ p, s.me.fenced = false → (s.parked.find? fun q => q.frame == frame) = some p →
      s.frameMarks frame.toNat = .ok (p.word1, p.word40, p.word41) → p.byPause = false → p.runnable = false →
      rcb ∈ s.me.regs[p.act.reg].info.chain →
      does (.preadyAtCell frame rcb false k issuer) fun t =>
        t.parked = s.parked.map fun q => if q.frame = frame then { q with runnable := true } else q) ∧
    (f.toNat < Config.sliceFrames → s.cl.clean.contains f.toNat = false → (∀ x ∈ s.cl.scrubs, x.2 ≠ f.toNat) → s.oldWaits = false → s.cl.power ≠ .off →
      (∀ d ∈ s.cl.dir, d.line / 0x10000 ≠ f.toNat) →
      s.cl.freedBy f.toNat = none → does (.scrubFrame (.own f)) fun t => t.cl.clean.contains f.toNat = true) ∧
    (s.cl.clucfg.extractLsb' 4 2 = 1 → line < Config.sliceFrames * 512 →
      does (.patrolRead line [0, 1]) fun t => t.mem = s.mem.setPoison (line * 128) true) ∧
    (s.cl.fill = false → s.cl.busy = false → s.engineBusy = false →
      s.othersInSlots { cell := cell, ctlc := cell.val, rcb := rcb, own := false } = false →
      does (.csetCisternFill { cell := cell, rcb := rcb }) fun t => t.cl.busy = true) ∧
    (s.cl.busy = true → s.cl.fill = false → s.shareWaits = false → does .fillModeEntered fun t => t.cl.fill = true ∧ t.cl.busy = false) ∧
    (s.cl.fill = true → s.cl.busy = false → does (.csetCisternServe cell) fun t => t.cl.busy = true) ∧
    (s.cl.busy = true → s.cl.fill = true → s.shareWaits = false →
      does .serveModeReturn fun t => t.cl.fill = false ∧ t.cl.busy = false ∧ t.cl.pubctr = s.cl.pubctr + 1) ∧
    (tick.toNat % 1200000 = 0 → s.cl.aktime.toNat < tick.toNat → does (.refreshWindowStart tick) fun t => t.cl.aktime = tick) ∧
    (tick.toNat % 1200000 = 1200 → does (.refreshWindowEnd tick) fun t => t.cl.held = [] ∧ t.agenda = s.agenda ++ s.cl.held) ∧
    (s.cl.evTail - s.cl.evHead ≠ 256 → s.cl.evWait = [] →
      does (.eventPost k code lcell user addr detail) fun t => t.cl.evTail = s.cl.evTail + 1 ∧ t.cl.evSeq = s.cl.evSeq + 1) ∧
    ((head - s.cl.evHead).toNat ≤ (s.cl.evTail - s.cl.evHead).toNat → does (.csetEvqHead head) fun t => t.cl.evHead = head) ∧
    (s.cl.tlbctl = true ∨ s.portHolds inDram = false → does .tlbctlEnable fun t => t.cl.tlbctl = true) ∧
    (s.cl.walkQ.length < Config.walkQueueSize → does (.walkQueueEnter ent) fun t => t.cl.walkQ = s.cl.walkQ ++ [ent]) ∧
    (∀ rest, s.cl.walk = none → s.cl.walkQ = ent :: rest → ent.root = none → (∀ h ∈ s.cl.shades, h.word ≠ ent.word) →
      s.checkPort { s.deviceReq with lcell := ent.who } .atomic ent.word.toNat = .ok site → wordOf (s.view site 8) ≠ 0xFFFFFFFFFFFFFFFF#64 →
      does .lampWalk fun t => t.cl.walkQ = rest ∧ t.cl.pubctr = s.cl.pubctr + 1) ∧
    (s.watchNow wq = none → s.checkPort wq.who .load wq.oa.toNat = .ok site → s.cl.watches.length < Config.maxWatches →
      does (.watchAtOwner wq) fun t => t.cl.watches = s.cl.watches ++ [wq]) ∧
    (∀ w, (s.allWatches.find? fun w => w.st == WatchSt.pending && w.rid == rid) = some w → s.isHere w.addr = true →
      does (.watchReplace rid) fun t => t.agenda.length = s.agenda.length + 1 ∧ t.mem = s.mem) ∧
    (∀ (j : Fin 4) v c, (∀ e ∈ s.acquiring, e.1 ≠ rid) → s.watchSaved rid = false → s.act.watch[j].st = .pending → s.act.watch[j].rid = rid →
      does (.watchAnswer { rid := rid, sibling := none } (.met v c)) fun t => t.act.watch[j].st = .answered ∧ t.act.watch[j].val = v) ∧
    does (.barsetCheck who rect) (fun t => ∃ x ∈ t.out, x.kind = .barAns ∧ x.rid = who.rid) ∧
    (s.barSaved b rect = false → s.me.bars[b].arr = false → does (.barrierSignal b rect .row err) fun t => t.me.bars[b].west = true) ∧
    (s.barSaved b rect = false → s.me.bars[b].arr = true →
      does (.barrierRelease b rect err) fun t => t.me.bars[b].arr = false ∧ t.me.bars[b].ph = !s.me.bars[b].ph)

/-- R167, R175, R191 to R193, R199 to R205, R211, R217, R328, R340: the events of requests, messages and regions complete: each, where what
it acts on is there, answers a next state with its own effect. -/
def Obligations.MessageEventsComplete : Prop :=
  ∀ (s : State) (req : AtomReq) (rest : List AtomReq) (run : AtomRun) (rid : Nat) (e : ReplyEnt) (q : QEntry) (tok : BitVec 24) (k : TokEnt)
    (h : HeldMsg) (n hid : Nat) (who : Requester) (msg : Msg) (i : Fin 4) (y : YieldMsg) (m : InMsg) (r : Fin 8) (c : BitVec 5) (rcb : Word)
    (what : GrantKind) (b : Rcb) (chain : List Rcb) (t0 : State) (rec' : InstallRec) (starts ends cycles : Nat) (kk : BitVec 4),
    let does (i : Instr) (P : State → Prop) : Prop := ∃ t, exec i s = .next t ∧ P t
    let calm : Prop := s.me.fenced = false ∧ s.me.evicted = false ∧ s.cl.power ≠ .hold ∧ s.cl.clockStop = false ∧ s.mesh = []
    (s.cells[s.atomicCell req.oa.toNat].fenced = false → s.atomicCell req.oa.toNat = s.self → s.atomQ.length < Config.atomicQueueSize →
      does (.atomicRequestArrival req) fun t => t.atomQ = s.atomQ ++ [req]) ∧
    (∀ res, s.atomBusy = false → s.atomQ = req :: rest → (∀ y ∈ s.atomOld, y.1 ≠ req) → req.op ≠ .user →
      (({ s with atomQ := rest }.wakeHeld).without req).runBuiltin req = .ok (res, t0) →
      does .atomicRun fun t => t.mem = t0.mem ∧ t.atomRun = t0.atomRun) ∧
    (s.atomRun = some run → s.cur = 4 → does .atomicOverrun fun t => t.atomRun = none ∧ t.act = Act.idle ∧ t.mem = s.mem) ∧
    (s.replyOf rid = some e → s.cl.launches = [] → s.ridSaved rid = false → s.pkg.mbFwd = none →
      does (.atomicReply rid q) (fun t => t.act.ldq = s.act.ldq.map fun p => if p = .reserved rid then .filled q else p) ∧
      does (.positiveReply rid) (fun t => t.replies = s.replies.filter fun x => x.rid != rid) ∧
      (s.act.live = true → s.act.aid = e.aid → s.cur = 0 → e.asked = 0 →
        does (.negativeReply rid 0x04 none) fun t => ∃ j : TrapInfo, t.act.deferred = s.act.deferred ++ [j] ∧ j.code = 0x04) ∧
      (e.waiting = true → (∃ d, e.todo = some d) →
        does (.retryResend rid) fun t => t.agenda.length = s.agenda.length + 1 ∧ t.mem = s.mem)) ∧
    ((s.toks.find? fun x => x.tok == tok && x.st == .pending) = some k →
      (s.landSaved tok = false → does (.landingAck tok) fun t => t.toks = s.toks.filter fun x => x.tok != tok) ∧
      (tok ≠ 0 → s.act.live = true → s.act.aid = k.aid → s.cur = 0 →
        does (.tokenExpiry tok) fun t => t.toks = s.toks.map fun x => if x.tok = tok then { x with st := .dead } else x)) ∧
    (s.cl.relOf h.tok = none → s.cl.holdUsed (s.heldPtn h) < s.holdQuota (s.heldPtn h) →
      does (.heldMessageArrival h) fun t => t.cl.hold = s.cl.hold ++ [{ held := h }]) ∧
    ((∀ x ∈ s.cl.hold, x.held.tok ≠ tok) → n ≠ 0 → s.cl.relOf tok = none → s.relRoom s.cl.ptn = true →
      does (.releaseNotice tok { count := n }) fun t => t.cl.rels = s.cl.rels ++ [{ tok, count := n, ptn := s.cl.ptn }]) ∧
    does (.cancelNotice tok) (fun t => t.cl.hold = s.cl.hold.filter fun x => x.held.tok != tok) ∧
    (∀ x dr, s.cl.hold = [x] → x.held.tok = tok → x.held.hid = hid → x.held.body = HeldBody.deposit dr →
      does (.holdTimerExpiry tok hid) fun t => t.cl.hold = []) ∧
    does (.releaseRecordExpiry tok) (fun t => t.cl.rels = s.cl.rels.filter fun x => x.tok != tok) ∧
    (calm → s.delivery { who := who, msg := msg, tok := tok } = .here → msg.kind = .data →
      s.msgRefusal { who := who, msg := msg, tok := tok } = 0 → s.inbox.length < Config.inboxLimit → (s.chanReg msg.chan).sumpEmpty = true →
      does (.messageArrival who msg tok) fun t => t.inbox = s.inbox ++ [{ who := who, msg := msg, tok := tok }]) ∧
    (s.mesh = [m] → s.pumping = false → Config.replayLevel < s.inbox.length → m.msg.kind = .data → s.msgRefusal m = 0 →
      s.inbox.length < Config.inboxLimit → (s.chanReg m.msg.chan).sumpEmpty = true →
      does .pumpReplay fun t => t.inbox = s.inbox ++ [m] ∧ t.mesh = []) ∧
    (calm → s.yieldBuf[i] = some y → y.msg.chan.toNat < 29 → (s.entryOf y.msg.chan).v = true → y.msg.kind = .data → y.msg.spw = false →
      s.inbox.length < Config.inboxLimit → (s.chanReg y.msg.chan).sumpEmpty = true → s.replies.length < Config.replyTableSize →
      does (.yieldBufferSend i) fun t => t.yieldBuf[i] = none ∧ t.inbox.length = s.inbox.length + 1) ∧
    ((s.slotAct (slotIdx (.gen i))).live = false → s.askLacking = s → s.choose = some c → s.runnableOf c = none → s.pendingOf c = some m →
      does (.selection i) fun t => t.inbox = s.inbox.erase m ∧ (t.slotAct (slotIdx (.gen i))).live = true) ∧
    does (.grantArrival r what n) (fun t => t.mem = s.mem ∧ (what = .credit → t.me.regs[r].credit = min 16 (s.me.regs[r].credit + n))) ∧
    (s.stopsFor who = false → s.turnsAway who = none → s.payerNow [] (grantWord what) who.rcb true 9 = .ok none →
      does (.grantRequest rcb who what) fun t => t = (s.sendGrant who rcb what (grantChunk what)).unblock) ∧
    (s.rcbAt [] rcb = .ok b → s.isHere rcb = true →
      does (.activationReport { rcb := rcb, cell := none } starts ends cycles) fun t => t = s.rcbWrite rcb 104
        [b.w 13 + BitVec.ofNat 64 starts, b.w 14 + BitVec.ofNat 64 cycles,
         BitVec.ofNat 64 (((b.w 15).toNat % 2 ^ 32 + starts + 2 ^ 32 - ends % 2 ^ 32) % 2 ^ 32)]) ∧
    (s.isHere rcb = true → (∀ l ∈ s.cl.launches, l.rcb ≠ s.podOf rcb) → (∀ e ∈ s.cl.ends, e.rcb ≠ s.podOf rcb) →
      s.stopsFor who = false → s.turnsAway who = none →
      s.rcbChain [] (s.podOf rcb) 9 = .ok (b :: chain) → (∃ c ∈ b :: chain, c.addr = who.rcb) →
      (b.state = 0 → s.launch [] (b :: chain) b who tok = .ok t0 → does (.regionLaunch rcb who tok) fun t => t = t0.unblock) ∧
      (b.state = 1 → does (.regionPause rcb who tok 3) fun t => t = ((s.pauseRegion (b :: chain) b 3).cmdReply who b.addr tok 0).unblock) ∧
      (b.state = 2 → b.budgetGone = false → s.treeEvicted (b :: chain) = false →
        does (.regionResume rcb who tok) fun t => t = ((s.resumeRegion (b :: chain) b).cmdReply who b.addr tok 0).unblock) ∧
      (b.state = 1 ∨ b.state = 2 →
        does (.regionEnd rcb who tok) fun t => t = (s.endRegion (b :: chain) b (some who) tok).unblock)) ∧
    (s.stopsFor who = false → s.turnsAway who = none → s.installHere rec' = .ok t0 → does (.handlerInstall rec' who) fun t => t.cells = t0.cells ∧ t.mem = t0.mem) ∧
    (s.me.regOf rcb = some r →
      does (.pauseAtCell rcb) (fun t => t.me.regs[r].paused = true) ∧
      ((∀ i : Fin 4, (s.slotAct (slotIdx (.gen i))).live = true → (s.slotAct (slotIdx (.gen i))).reg = r →
          (s.slotAct (slotIdx (.gen i))).betweenWords = true) → does (.endAtCell rcb) fun t => t.me.regs[r].v = false)) ∧
    (s.mbReady = true → rcb.getLsbD 63 = true → prefixOf rcb = prefixOf s.cl.place →
      exec (.mbRegionCommand rcb s.cl.ptn kk) s = s.busy.regionCommand rcb (hostReq 0x08) kk 0 3 [])

/-- R366, R368, R386, R390, R404 to R409, R416 to R434, R442 to R462: the events of the engines, of eviction, of the fabric, of the host and
of the mailbox complete: each, where what it acts on is there, answers a next state with its own effect. -/
def Obligations.ManagementEventsComplete : Prop :=
  ∀ (s : State) (p : Fin 64) (rcb base x y : Word) (rect : BitVec 32) (ptn : BitVec 24) (e : EvictRun) (t0 : State) (code : Code)
    (peers : List (Option PortSlot)) (port : Fin 32) (fl : Flit) (ff : FarFrame) (ses : FarSess) (hello : PeerHello) (counter m : Nat) (ag : HostAgent)
    (line addr key : Nat) (half ring cxl keep : Bool) (data image : List Byte) (w : Snoop) (tg : MbTarget) (k : Fin 16) (peer : Nat) (word : Fin 8)
    (ckey : BitVec 6) (nonce : BitVec 256) (len : Nat) (values : List (BitVec 256)) (c : Compartment) (pp : BitVec 18) (f : BitVec 12)
    (vpn : BitVec 17) (frame : BitVec 16) (cor : List (BitVec 16)) (repl : BitVec 16) (mism : BitVec 8) (iw : BitVec 32), Canonical s →
    let does (i : Instr) (P : State → Prop) : Prop := ∃ t, exec i s = .next t ∧ P t
    let answered (i : Instr) (P : State → Prop) : Prop := does i fun t => Left t .hostAnswer 0 0 0 ∧ P t
    (∀ c : MCmd, (s.mx.queue.find? fun d => d.num == c.num && !d.started) = some c →
      c.mayStart (s.mx.queue.takeWhile fun d => d.num != c.num) = true → s.mx.unitFree c = true →
      does (.matrixCommandStart (.own c.num)) fun t => .matrixTile c.num ∈ t.agenda ∧ t.mem = s.mem) ∧
    (∀ c : MCmd, (s.mx.queue.find? fun d => d.num == c.num && d.started && d.wait.isNone) = some c → c.reload = false → c.void = false →
      c.op = .mprog → c.acq = false → s.tileWaits c = false →
      does (.matrixTile (.own c.num)) fun t => t.mx.konst = c.wb.extractLsb' 0 32 ∧ t.mem = s.mem) ∧
    (∀ c : PullCmd, (s.cl.pullQ.find? fun d => !d.started) = some c → (s.cl.pullQ.filter fun d => d.started).length < 8 → c.acq = false →
      does .pullStart fun t => .pullAccess c.num ∈ t.agenda ∧ t.mem = s.mem) ∧
    (∀ (c : PullCmd) site site2, (s.cl.pullQ.find? fun d => d.num == c.num && d.started) = some c → c.fin = none → c.wait = none → c.got = [] →
      c.gather = false → s.eventsFull = false → formOk (c.source c.row) = true → s.isHere (c.source c.row) = true →
      s.checkPort (s.engineFor c.reg) .engRead (oaOf (c.source c.row)) = .ok site → isOwn c.dest = true →
      (let bs := s.view site (c.size (c.source c.row))
       let d : WData := .bytes bs (List.replicate (bs.length / 8) false)
       s.checkWrite (s.engineFor c.reg) .engWrite c.dest.toNat d = .ok site2 →
       does (.pullAccess (.own c.num) none) fun t => t.mem = s.performAt site2 c.dest.toNat d)) ∧
    (∀ (c : CollCmd) rest r, s.cl.collQ = c :: rest → c.phase = .queued → c.fin = none → c.acq = false →
      s.engineLines (s.engineFor c.reg) .engRead c.buf ((c.nel * tyBytes ((Ty.ofCode c.spec.ety).getD .fp32) + 127) / 128) = .ok r →
      does .collStart fun t => .collStep ∈ t.agenda ∧ t.mem = s.mem) ∧
    (∀ (c : CollCmd) rest slot seq count, s.cl.collQ = c :: rest → c.phase ≠ .queued → s.eventsFull = false → c.awaiting = some p.val →
      c.want.toNat ≤ seq.toNat → c.spec.tree = true → c.round < 2 ^ 32 →
      does (.collStep (.own p) (.line seq count ((c.w 6).extractLsb' 0 32) (BitVec.ofNat 32 c.round) 0 slot)) fun t =>
        t.cl.collQ = { c with awaiting := none, got := some slot } :: rest) ∧
    (∀ (c : CollCmd) rest, s.cl.collQ = c :: rest → c.phase ≠ .queued → s.eventsFull = false → p.val < c.spec.nmem → p.val ≠ c.spec.self →
      c.lost.getLsbD p.val = false →
      does (.memberLost p) fun t => ∃ d, t.cl.collQ = d :: rest ∧ d.lost = c.lost ||| (1#64 <<< p.val) ∧ d.round = c.round + 1) ∧
    (s.mbReady = true → rcb.getLsbD 63 = true → ptn = s.cl.ptn → prefixOf rcb = prefixOf s.cl.place →
      (s.cl.sealKey ≠ none → s.cl.evicting = none → s.busy.evictOk [] rcb rect = .ok base →
        does (.evict rcb rect ptn) fun t => t.cl.evicting = some { rcb, rect, base, cells := s.cellsIn rect } ∧ t.mem = s.mem) ∧
      (s.busy.restoreOk [] rcb rect = .ok base → (s.busy.fence (s.cellsIn rect)).vacant (s.cellsIn rect) = true →
        (s.busy.fence (s.cellsIn rect)).restoreCells rcb base 0 (s.cellsIn rect) = .ok (t0, code) →
        does (.restore rcb rect ptn) fun t => t.mem = t0.mem ∧ Left t .hostAnswer 0 0 code)) ∧
    (s.cl.evicting = some e → s.quiet e.cells = true → s.self ∉ e.cells → s.saveCells e e.cells = .ok t0 →
      does .evictionQuiesced fun t => t.cl.evicting = none ∧ t.mem = t0.mem) ∧
    does (.fabricSlot peers) (fun t => t.pkg.fabWord 0x110 = s.pkg.fabWord 0x110 + 1) ∧
    does (.laneHealthWindow port cor repl mism) (fun t => t.mem = s.mem ∧ ∀ i : Fin 8,
      t.pkg.fabWord (0x800 + 8 * (8 * port.val + i.val)) =
        laneWord (s.pkg.laneCorrected port i (cor.getD i.val 0).toNat) (s.pkg.laneResent port i repl.toNat) s.pkg.mism[port]) ∧
    (portEn (s.pkg.port port) = true → fl.dst ≠ s.pkg.ppkg → fl.rly = true → s.pkg.relay.length < s.pkg.relayRoom →
      does (.flitReceive port fl { burst := 0, first := 0, crc := crc64 fl.bytes }) fun t => t.pkg.relay = s.pkg.relay ++ [fl]) ∧
    (∀ seq, (0, seq) ∉ s.pkg.mcSeen → does (.lostDeclaration pp seq) fun t => (0, seq) ∈ t.pkg.mcSeen) ∧
    (s.farPort ff = true → ff.formOk = true → s.sessOf ff.peer = some ses → ses.takes ff = true →
      does (.farFrameReceive ff) fun t => ∃ z, t.sessOf ff.peer = some z ∧ z.top = max ses.top ff.counter) ∧
    (s.sessOf peer = some ses →
      (∀ u, ses.st = .up → ses.unacked.find? (fun u => u.counter == counter) = some u →
        does (.farRetransmit peer counter) fun t => ∃ g, t.pkg.frames = g :: s.pkg.frames ∧ g.counter = ses.sent + 1 ∧ g.n = u.flits.length) ∧
      (∀ n, s.drawKey.1 = some n → s.pkg.secHeld = false →
        (ses.st = .opening → hello.certified = true → nonce ∈ s.pkg.allow → (∀ y ∈ s.pkg.farWait, y.peer ≠ peer) →
          does (.farSessionOpen peer hello nonce) fun t => ∃ z, t.sessOf peer = some z ∧ z.st = .up ∧ z.keys = s.pkg.keysFor peer n hello) ∧
        (ses.st = .up → does (.farRekey peer) fun t => ∃ z, t.sessOf peer = some z ∧ z.st = .rekeying ∧ z.old = some ses.keys))) ∧
    (s.hostByte ag (128 * line + if half then 64 else 0) = some m →
      (let d := s.cl.dirOf (m / 128 * 128)
       (d.waits = [] → d.reqs = [] → s.deviceAt (m / 128 * 128) = false → d.half half = .I →
        does (.hostSharedRead ag line half) (fun t => (t.cl.dirOf (m / 128 * 128)).half half = .S ∧ t.mem = s.mem) ∧
        does (.hostOwnershipRead ag line half) (fun t => (t.cl.dirOf (m / 128 * 128)).half half = .E ∧ t.mem = s.mem)) ∧
       (d.half half = .E → ag.agent ∈ d.sharers half →
        does (.hostWriteback ag line half data) fun t => t.mem = (s.hostStore m (data.take 64)).mem) ∧
       ((d.waits.find? fun z => z.agent == ag.agent && z.half == half) = some w →
        does (.snoopResponse ag line half (some data) keep) fun t =>
          (t.cl.dirOf (m / 128 * 128)).waits = d.waits.erase w ∧ t.mem = (s.hostStore m (data.take 64)).mem))) ∧
    (∀ j, data ≠ [] → s.hostByte ag addr = some m → s.hostByte ag (addr + (data.take 64).length - 1) = some j → s.mem.enc = [] →
      s.hostFree m = true → s.hostFree (m + (data.take 64).length - 1) = true →
      does (.hostWrite ag addr data) fun t => ∀ i, i < (data.take 64).length → t.mem.byteAt (m + i) = data.getD i 0) ∧
    (∀ (j : Fin 16) (i : Fin 2), s.pkg.cxl[i] = true → pairEn s.cl.vfpair[j] = true → hcEn s.cl.hcwin[j] = true →
      s.cl.windowAt j ≤ 128 * line →
      128 * line < s.cl.windowAt j + s.cl.windowLen j → data ≠ [] → s.hostFree (128 * line) = true →
      does (.rdcurrFill line data) fun t => t.mem = (s.hostStore (128 * line) (data.take 128)).mem) ∧
    does (.hostPortTrains ring cxl) (fun t => t.pkg.cxl = s.pkg.cxl.set (portIdx ring) (cxl && !s.pkg.bare)) ∧
    (let now := s.pkg.mail[portIdx ring]
     ring = false ∨ s.pkg.bare = false → x.extractLsb' 7 57 = 0 →
     (x.extractLsb' 0 7 - now.evHead).toNat ≤ (now.evTail - now.evHead).toNat →
     does (.evheadWrite ring (.write 0x120 x [])) fun t => t.pkg.mail[portIdx ring].evHead = x.extractLsb' 0 7) ∧
    (s.mbReady = true →
      (s.noSuch tg = false → tg.pclu.toNat < 60 → tg.die = s.cl.die → tg.pclu = s.cl.pclu → tg.space = 1 → tg.index.toNat < 512 →
        answered (.registerRead tg) (fun t => t.mem = s.mem) ∧
        (x.extractLsb' 9 53 = 0 → s.suspended = true →
          answered (.placeTableWrite tg x) (fun t => t.cl.map[Fin.ofNat 512 tg.index.toNat] = x) ∧
          answered (.hostRegisterWrite tg x) fun t => t.cl.map[Fin.ofNat 512 tg.index.toNat] = x)) ∧
      (s.cl.pclu.toNat < 60 → s.pkg.bare = false → s.pairOk k x = true → answered (.vfpairWrite k x) fun t => t.cl.vfpair = s.cl.vfpair.set k x) ∧
      (s.cl.pclu.toNat < 60 → s.pkg.bare = false → s.suspended = true → s.cl.hcwinOk k x = true →
        answered (.hcwinWrite k x) fun t => t.cl.hcwin = s.cl.hcwin.set k x) ∧
      (s.pkg.bare = false → s.pkg.switchAt = none → s.pkg.fabtime + s.pkg.nslot s.pkg.bank ≤ x.toNat →
        (x.toNat - s.pkg.bankStart) % s.pkg.nslot s.pkg.bank = 0 → answered (.fabswitchWrite x) fun t => t.pkg.switchAt = some x.toNat) ∧
      (s.pkg.bare = false → peer < 1024 → s.pkg.farWordOk word.val x = true →
        answered (.farPeerWrite peer word x) fun t => t.pkg.fabWord (0x40000 + 64 * peer + 8 * word.val) = x) ∧
      (s.pkg.secHeld = false →
        (∀ n, ckey ≠ 0 → s.pkg.compOf ptn ckey = none → s.drawKey.1 = some n →
          answered (.create ptn ckey .data) fun t => (t.pkg.compOf ptn ckey).map Compartment.keyId = some n) ∧
        (s.pkg.compOf ptn ckey = some c →
          (s.compNamed ptn ckey = false → answered (.destroy ptn ckey) fun t => t.pkg.compOf ptn ckey = none) ∧
          (c.kind = .weight → c.xts = false → c.torn = false →
            does (.keyLoad ptn ckey data image) fun t => ∀ n, Config.unwrapKey c.keyId data image = some n →
              Left t .hostAnswer 0 0 0 ∧ t.pkg.compOf ptn ckey = some { c with xts := true, pair := n })) ∧
        (s.gateEntryOk ptn x = true → answered (.gate ptn k x) fun t => (t.pkg.gatesOf ptn)[k] = x) ∧
        (values.length ≤ 16 → answered (.peers values) fun t => t.pkg.allow = values) ∧
        (ptn = s.cl.ptn → pairEn s.cl.vfpair[0] = true → isOwn rcb = true → image.length ≤ pairSize s.cl.vfpair[0] * 0x10000 →
          s.cl.pclu.toNat < 60 → (s.pkg.bare = true → s.cl.die = 0) →
          (s.withMem (s.mem.putPlain (pairBase s.cl.vfpair[0] * 0x10000) image)).imageOk rcb.toNat = true →
          does (.handOver image { oa := rcb, die := s.cl.die, pclu := s.cl.pclu } ptn) fun t =>
            Config.measureFails s.free = false → t.pkg.slots = (s.extend 1 image).pkg.slots)) ∧
      (s.cl.pclu.toNat < 60 → (s.pkg.bare = true → s.cl.die = 0) → ckey ≠ 0 → (s.pageVer ckey vpn).out = false → x.toNat % 64 = 0 → (∀ z ∈ s.cl.tlb, z.covers vpn.toNat = false) →
        s.exportKey ckey = some key → answered (.exportPage { ckey, die := s.cl.die, pclu := s.cl.pclu } vpn x) fun t => (t.pageVer ckey vpn).out = true ∧ t.mem = s.mem) ∧
      (s.cl.pclu.toNat < 60 → (s.pkg.bare = true → s.cl.die = 0) → frame.toNat ∈ s.cl.clean → s.exportKey ckey = some key → s.importOk ckey vpn image key = true →
        answered (.importPage { ckey, die := s.cl.die, pclu := s.cl.pclu } vpn image frame) fun t => (t.pageVer ckey vpn).out = false) ∧
      ((s.pkg.bare = true → s.cl.die = 0) → s.cl.pclu.toNat < 60 → f.toNat % 25 = 0 → 300 ≤ f.toNat → f.toNat ≤ 1200 →
        s.underCeilings s.cl.die s.cl.pclu f = true →
        answered (.powerRun s.cl.die s.cl.pclu f) (fun t => t.cl.power = .run ∧ t.cl.freq = f) ∧
        (s.suspended = true → s.cl.power ≠ .off → answered (.powerHold s.cl.die s.cl.pclu f) fun t => t.cl.power = .hold) ∧
        (s.cl.ptn = 0 → answered (.powerOff s.cl.die s.cl.pclu f) fun t => t.cl.power = .off ∧ t.mem = Memory.reset)) ∧
      answered (.declareLost pp) fun t => t.pkg.mcSeq = s.pkg.mcSeq + 1) ∧
    (s.mbReady = true → s.pkg.secHeld = false → (∀ j, s.pkg.compOf ptn j = none) →
      (let all := s.evidenceBytes ptn nonce ++ (List.range 7856).map (Config.signature Config.identitySeed s.pkg.slots[0] (s.evidenceBytes ptn nonce)) ++
         Config.aliasCertificate Config.identitySeed s.pkg.slots[0]
       all.length ≤ len → answered (.evidence ptn nonce rcb len) fun t => t.mem = s.mem)) ∧
    (s.cl.clockStop = true → does .clockChangeDone fun t => t.cl.clockStop = false) ∧
    does .packageReset (fun t => t.mem = Memory.reset ∧ (Config.measureFails s.free = false → t.pkg.boot = .open ∧ t.cl.released = true)) ∧
    does .securityCoreMismatch (fun t => t.pkg.secHeld = true) ∧
    exec (.illegalInstruction iw) s = trapsWith (s.mapAct fun z => { z with iw := iw }) 0x01 0
end

