-- ==== Sys2Proof/Laws/Exec.lean ====
section
/-!
SUPPORT. What `exec` calls for each constructor, one lemma each, so that later proofs never unfold the dispatch.
-/
namespace Sys2Proof.Machine

@[simp] theorem exec_pmov (s : State) : ∀ pd ps, exec (.pmov pd ps) s = execPmov pd ps s := by intros; rfl
@[simp] theorem exec_padd (s : State) : ∀ pd ps, exec (.padd pd ps) s = execPadd pd ps s := by intros; rfl
@[simp] theorem exec_psub (s : State) : ∀ pd ps, exec (.psub pd ps) s = execPsub pd ps s := by intros; rfl
@[simp] theorem exec_paddi (s : State) : ∀ pd ps imm, exec (.paddi pd ps imm) s = execPaddi pd ps imm s := by intros; rfl
@[simp] theorem exec_pand (s : State) : ∀ pd ps, exec (.pand pd ps) s = execPand pd ps s := by intros; rfl
@[simp] theorem exec_por (s : State) : ∀ pd ps, exec (.por pd ps) s = execPor pd ps s := by intros; rfl
@[simp] theorem exec_pxor (s : State) : ∀ pd ps, exec (.pxor pd ps) s = execPxor pd ps s := by intros; rfl
@[simp] theorem exec_pshl (s : State) : ∀ pd ps n, exec (.pshl pd ps n) s = execPshl pd ps n s := by intros; rfl
@[simp] theorem exec_pshr (s : State) : ∀ pd ps n, exec (.pshr pd ps n) s = execPshr pd ps n s := by intros; rfl
@[simp] theorem exec_pset (s : State) : ∀ pd imm, exec (.pset pd imm) s = execPset pd imm s := by intros; rfl
@[simp] theorem exec_pseth (s : State) : ∀ pd imm, exec (.pseth pd imm) s = execPseth pd imm s := by intros; rfl
@[simp] theorem exec_pstep (s : State) : ∀ pd imm, exec (.pstep pd imm) s = execPstep pd imm s := by intros; rfl
@[simp] theorem exec_pscal (s : State) : ∀ pd ps n, exec (.pscal pd ps n) s = execPscal pd ps n s := by intros; rfl
@[simp] theorem exec_mkref (s : State) : ∀ pd ps, exec (.mkref pd ps) s = execMkref pd ps s := by intros; rfl
@[simp] theorem exec_pclr (s : State) : ∀ pd, exec (.pclr pd) s = execPclr pd s := by intros; rfl
@[simp] theorem exec_pbeq (s : State) : ∀ pd ps off, exec (.pbeq pd ps off) s = execPbeq pd ps off s := by intros; rfl
@[simp] theorem exec_pbne (s : State) : ∀ pd ps off, exec (.pbne pd ps off) s = execPbne pd ps off s := by intros; rfl
@[simp] theorem exec_pblt (s : State) : ∀ pd ps off, exec (.pblt pd ps off) s = execPblt pd ps off s := by intros; rfl
@[simp] theorem exec_pbge (s : State) : ∀ pd ps off, exec (.pbge pd ps off) s = execPbge pd ps off s := by intros; rfl
@[simp] theorem exec_pbltu (s : State) : ∀ pd ps off, exec (.pbltu pd ps off) s = execPbltu pd ps off s := by intros; rfl
@[simp] theorem exec_pbgeu (s : State) : ∀ pd ps off, exec (.pbgeu pd ps off) s = execPbgeu pd ps off s := by intros; rfl
@[simp] theorem exec_pbtag (s : State) : ∀ pd off, exec (.pbtag pd off) s = execPbtag pd off s := by intros; rfl
@[simp] theorem exec_pbnt (s : State) : ∀ pd off, exec (.pbnt pd off) s = execPbnt pd off s := by intros; rfl
@[simp] theorem exec_br (s : State) : ∀ off, exec (.br off) s = execBr off s := by intros; rfl
@[simp] theorem exec_call (s : State) : ∀ off, exec (.call off) s = execCall off s := by intros; rfl
@[simp] theorem exec_bz (s : State) : ∀ off, exec (.bz off) s = execBz off s := by intros; rfl
@[simp] theorem exec_bnz (s : State) : ∀ off, exec (.bnz off) s = execBnz off s := by intros; rfl
@[simp] theorem exec_bn (s : State) : ∀ off, exec (.bn off) s = execBn off s := by intros; rfl
@[simp] theorem exec_bnn (s : State) : ∀ off, exec (.bnn off) s = execBnn off s := by intros; rfl
@[simp] theorem exec_bc (s : State) : ∀ off, exec (.bc off) s = execBc off s := by intros; rfl
@[simp] theorem exec_bnc (s : State) : ∀ off, exec (.bnc off) s = execBnc off s := by intros; rfl
@[simp] theorem exec_bo (s : State) : ∀ off, exec (.bo off) s = execBo off s := by intros; rfl
@[simp] theorem exec_bno (s : State) : ∀ off, exec (.bno off) s = execBno off s := by intros; rfl
@[simp] theorem exec_bx (s : State) : ∀ off, exec (.bx off) s = execBx off s := by intros; rfl
@[simp] theorem exec_bnx (s : State) : ∀ off, exec (.bnx off) s = execBnx off s := by intros; rfl
@[simp] theorem exec_bxz (s : State) : ∀ off, exec (.bxz off) s = execBxz off s := by intros; rfl
@[simp] theorem exec_bxnz (s : State) : ∀ off, exec (.bxnz off) s = execBxnz off s := by intros; rfl
@[simp] theorem exec_bxs (s : State) : ∀ off, exec (.bxs off) s = execBxs off s := by intros; rfl
@[simp] theorem exec_bxns (s : State) : ∀ off, exec (.bxns off) s = execBxns off s := by intros; rfl
@[simp] theorem exec_bxt (s : State) : ∀ off, exec (.bxt off) s = execBxt off s := by intros; rfl
@[simp] theorem exec_bxf (s : State) : ∀ off, exec (.bxf off) s = execBxf off s := by intros; rfl
@[simp] theorem exec_loop (s : State) : ∀ ps len, exec (.loop ps len) s = execLoop ps len s := by intros; rfl
@[simp] theorem exec_loopi (s : State) : ∀ n len, exec (.loopi n len) s = execLoopi n len s := by intros; rfl
@[simp] theorem exec_jmp (s : State) : ∀ ps, exec (.jmp ps) s = execJmp ps s := by intros; rfl
@[simp] theorem exec_jal (s : State) : ∀ pd ps, exec (.jal pd ps) s = execJal pd ps s := by intros; rfl
@[simp] theorem exec_lq (s : State) : ∀ p am ty d, exec (.lq p am ty d) s = execLq p am ty d s := by intros; rfl
@[simp] theorem exec_lqv (s : State) : ∀ p am ty d, exec (.lqv p am ty d) s = execLqv p am ty d s := by intros; rfl
@[simp] theorem exec_lql (s : State) : ∀ p am ty d, exec (.lql p am ty d) s = execLql p am ty d s := by intros; rfl
@[simp] theorem exec_sq (s : State) : ∀ p am ty d, exec (.sq p am ty d) s = execSq p am ty d s := by intros; rfl
@[simp] theorem exec_sqv (s : State) : ∀ p am ty d, exec (.sqv p am ty d) s = execSqv p am ty d s := by intros; rfl
@[simp] theorem exec_sql (s : State) : ∀ p am ty d, exec (.sql p am ty d) s = execSql p am ty d s := by intros; rfl
@[simp] theorem exec_rl (s : State) : ∀ p am ty d, exec (.rl p am ty d) s = execRl p am ty d s := by intros; rfl
@[simp] theorem exec_rlv (s : State) : ∀ p am ty d, exec (.rlv p am ty d) s = execRlv p am ty d s := by intros; rfl
@[simp] theorem exec_rll (s : State) : ∀ p am ty d, exec (.rll p am ty d) s = execRll p am ty d s := by intros; rfl
@[simp] theorem exec_lp (s : State) : ∀ pd ps imm, exec (.lp pd ps imm) s = execLp pd ps imm s := by intros; rfl
@[simp] theorem exec_sp (s : State) : ∀ pd ps imm, exec (.sp pd ps imm) s = execSp pd ps imm s := by intros; rfl
@[simp] theorem exec_rlp (s : State) : ∀ pd ps imm, exec (.rlp pd ps imm) s = execRlp pd ps imm s := by intros; rfl
@[simp] theorem exec_lda (s : State) : ∀ p am ty d, exec (.lda p am ty d) s = execLda p am ty d s := by intros; rfl
@[simp] theorem exec_add (s : State) : ∀ p am ty d, exec (.add p am ty d) s = execAdd p am ty d s := by intros; rfl
@[simp] theorem exec_sub (s : State) : ∀ p am ty d, exec (.sub p am ty d) s = execSub p am ty d s := by intros; rfl
@[simp] theorem exec_rsub (s : State) : ∀ p am ty d, exec (.rsub p am ty d) s = execRsub p am ty d s := by intros; rfl
@[simp] theorem exec_adds (s : State) : ∀ p am ty d, exec (.adds p am ty d) s = execAdds p am ty d s := by intros; rfl
@[simp] theorem exec_subs (s : State) : ∀ p am ty d, exec (.subs p am ty d) s = execSubs p am ty d s := by intros; rfl
@[simp] theorem exec_and (s : State) : ∀ p am ty d, exec (.and p am ty d) s = execAnd p am ty d s := by intros; rfl
@[simp] theorem exec_or (s : State) : ∀ p am ty d, exec (.or p am ty d) s = execOr p am ty d s := by intros; rfl
@[simp] theorem exec_xor (s : State) : ∀ p am ty d, exec (.xor p am ty d) s = execXor p am ty d s := by intros; rfl
@[simp] theorem exec_andn (s : State) : ∀ p am ty d, exec (.andn p am ty d) s = execAndn p am ty d s := by intros; rfl
@[simp] theorem exec_shl (s : State) : ∀ p am ty d, exec (.shl p am ty d) s = execShl p am ty d s := by intros; rfl
@[simp] theorem exec_shr (s : State) : ∀ p am ty d, exec (.shr p am ty d) s = execShr p am ty d s := by intros; rfl
@[simp] theorem exec_sar (s : State) : ∀ p am ty d, exec (.sar p am ty d) s = execSar p am ty d s := by intros; rfl
@[simp] theorem exec_rol (s : State) : ∀ p am ty d, exec (.rol p am ty d) s = execRol p am ty d s := by intros; rfl
@[simp] theorem exec_ror (s : State) : ∀ p am ty d, exec (.ror p am ty d) s = execRor p am ty d s := by intros; rfl
@[simp] theorem exec_min (s : State) : ∀ p am ty d, exec (.min p am ty d) s = execMin p am ty d s := by intros; rfl
@[simp] theorem exec_max (s : State) : ∀ p am ty d, exec (.max p am ty d) s = execMax p am ty d s := by intros; rfl
@[simp] theorem exec_cmp (s : State) : ∀ p am ty d, exec (.cmp p am ty d) s = execCmp p am ty d s := by intros; rfl
@[simp] theorem exec_tst (s : State) : ∀ p am ty d, exec (.tst p am ty d) s = execTst p am ty d s := by intros; rfl
@[simp] theorem exec_popc (s : State) : ∀ p am ty d, exec (.popc p am ty d) s = execPopc p am ty d s := by intros; rfl
@[simp] theorem exec_clz (s : State) : ∀ p am ty d, exec (.clz p am ty d) s = execClz p am ty d s := by intros; rfl
@[simp] theorem exec_ctz (s : State) : ∀ p am ty d, exec (.ctz p am ty d) s = execCtz p am ty d s := by intros; rfl
@[simp] theorem exec_bswap (s : State) : ∀ p am ty d, exec (.bswap p am ty d) s = execBswap p am ty d s := by intros; rfl
@[simp] theorem exec_sta (s : State) : ∀ p am ty d, exec (.sta p am ty d) s = execSta p am ty d s := by intros; rfl
@[simp] theorem exec_mul (s : State) : ∀ p am ty d, exec (.mul p am ty d) s = execMul p am ty d s := by intros; rfl
@[simp] theorem exec_mulh (s : State) : ∀ p am ty d, exec (.mulh p am ty d) s = execMulh p am ty d s := by intros; rfl
@[simp] theorem exec_muls (s : State) : ∀ p am ty d, exec (.muls p am ty d) s = execMuls p am ty d s := by intros; rfl
@[simp] theorem exec_div (s : State) : ∀ p am ty d, exec (.div p am ty d) s = execDiv p am ty d s := by intros; rfl
@[simp] theorem exec_rem (s : State) : ∀ p am ty d, exec (.rem p am ty d) s = execRem p am ty d s := by intros; rfl
@[simp] theorem exec_fadd (s : State) : ∀ p am ty r d, exec (.fadd p am ty r d) s = execFadd p am ty r d s := by intros; rfl
@[simp] theorem exec_fsub (s : State) : ∀ p am ty r d, exec (.fsub p am ty r d) s = execFsub p am ty r d s := by intros; rfl
@[simp] theorem exec_frsub (s : State) : ∀ p am ty r d, exec (.frsub p am ty r d) s = execFrsub p am ty r d s := by intros; rfl
@[simp] theorem exec_fmul (s : State) : ∀ p am ty r d, exec (.fmul p am ty r d) s = execFmul p am ty r d s := by intros; rfl
@[simp] theorem exec_fdiv (s : State) : ∀ p am ty r d, exec (.fdiv p am ty r d) s = execFdiv p am ty r d s := by intros; rfl
@[simp] theorem exec_frdiv (s : State) : ∀ p am ty r d, exec (.frdiv p am ty r d) s = execFrdiv p am ty r d s := by intros; rfl
@[simp] theorem exec_fsqrt (s : State) : ∀ p am ty r d, exec (.fsqrt p am ty r d) s = execFsqrt p am ty r d s := by intros; rfl
@[simp] theorem exec_fmin (s : State) : ∀ p am ty r d, exec (.fmin p am ty r d) s = execFmin p am ty r d s := by intros; rfl
@[simp] theorem exec_fmax (s : State) : ∀ p am ty r d, exec (.fmax p am ty r d) s = execFmax p am ty r d s := by intros; rfl
@[simp] theorem exec_fabs (s : State) : ∀ p am ty d, exec (.fabs p am ty d) s = execFabs p am ty d s := by intros; rfl
@[simp] theorem exec_fneg (s : State) : ∀ p am ty d, exec (.fneg p am ty d) s = execFneg p am ty d s := by intros; rfl
@[simp] theorem exec_fcmp (s : State) : ∀ p am ty d, exec (.fcmp p am ty d) s = execFcmp p am ty d s := by intros; rfl
@[simp] theorem exec_fclass (s : State) : ∀ p am ty d, exec (.fclass p am ty d) s = execFclass p am ty d s := by intros; rfl
@[simp] theorem exec_frnd (s : State) : ∀ p am ty r d, exec (.frnd p am ty r d) s = execFrnd p am ty r d s := by intros; rfl
@[simp] theorem exec_fscale (s : State) : ∀ p am ty r d, exec (.fscale p am ty r d) s = execFscale p am ty r d s := by intros; rfl
@[simp] theorem exec_cvt (s : State) : ∀ p am dt ty r d, exec (.cvt p am dt ty r d) s = execCvt p am dt ty r d s := by intros; rfl
@[simp] theorem exec_cvts (s : State) : ∀ p am dt ty r d, exec (.cvts p am dt ty r d) s = execCvts p am dt ty r d s := by intros; rfl
@[simp] theorem exec_vld (s : State) : ∀ p am ty d, exec (.vld p am ty d) s = execVld p am ty d s := by intros; rfl
@[simp] theorem exec_vst (s : State) : ∀ p am ty d, exec (.vst p am ty d) s = execVst p am ty d s := by intros; rfl
@[simp] theorem exec_vadd (s : State) : ∀ p am ty d, exec (.vadd p am ty d) s = execVadd p am ty d s := by intros; rfl
@[simp] theorem exec_vsub (s : State) : ∀ p am ty d, exec (.vsub p am ty d) s = execVsub p am ty d s := by intros; rfl
@[simp] theorem exec_vrsub (s : State) : ∀ p am ty d, exec (.vrsub p am ty d) s = execVrsub p am ty d s := by intros; rfl
@[simp] theorem exec_vadds (s : State) : ∀ p am ty d, exec (.vadds p am ty d) s = execVadds p am ty d s := by intros; rfl
@[simp] theorem exec_vsubs (s : State) : ∀ p am ty d, exec (.vsubs p am ty d) s = execVsubs p am ty d s := by intros; rfl
@[simp] theorem exec_vand (s : State) : ∀ p am ty d, exec (.vand p am ty d) s = execVand p am ty d s := by intros; rfl
@[simp] theorem exec_vor (s : State) : ∀ p am ty d, exec (.vor p am ty d) s = execVor p am ty d s := by intros; rfl
@[simp] theorem exec_vxor (s : State) : ∀ p am ty d, exec (.vxor p am ty d) s = execVxor p am ty d s := by intros; rfl
@[simp] theorem exec_vandn (s : State) : ∀ p am ty d, exec (.vandn p am ty d) s = execVandn p am ty d s := by intros; rfl
@[simp] theorem exec_vshl (s : State) : ∀ p am ty d, exec (.vshl p am ty d) s = execVshl p am ty d s := by intros; rfl
@[simp] theorem exec_vshr (s : State) : ∀ p am ty d, exec (.vshr p am ty d) s = execVshr p am ty d s := by intros; rfl
@[simp] theorem exec_vsar (s : State) : ∀ p am ty d, exec (.vsar p am ty d) s = execVsar p am ty d s := by intros; rfl
@[simp] theorem exec_vmin (s : State) : ∀ p am ty d, exec (.vmin p am ty d) s = execVmin p am ty d s := by intros; rfl
@[simp] theorem exec_vmax (s : State) : ∀ p am ty d, exec (.vmax p am ty d) s = execVmax p am ty d s := by intros; rfl
@[simp] theorem exec_vmul (s : State) : ∀ p am ty d, exec (.vmul p am ty d) s = execVmul p am ty d s := by intros; rfl
@[simp] theorem exec_vmulh (s : State) : ∀ p am ty d, exec (.vmulh p am ty d) s = execVmulh p am ty d s := by intros; rfl
@[simp] theorem exec_vmac (s : State) : ∀ p am ty d, exec (.vmac p am ty d) s = execVmac p am ty d s := by intros; rfl
@[simp] theorem exec_vabs (s : State) : ∀ p am ty d, exec (.vabs p am ty d) s = execVabs p am ty d s := by intros; rfl
@[simp] theorem exec_vneg (s : State) : ∀ p am ty d, exec (.vneg p am ty d) s = execVneg p am ty d s := by intros; rfl
@[simp] theorem exec_vpopc (s : State) : ∀ p am ty d, exec (.vpopc p am ty d) s = execVpopc p am ty d s := by intros; rfl
@[simp] theorem exec_vfld (s : State) : ∀ p am ty r d, exec (.vfld p am ty r d) s = execVfld p am ty r d s := by intros; rfl
@[simp] theorem exec_vfst (s : State) : ∀ p am ty r d, exec (.vfst p am ty r d) s = execVfst p am ty r d s := by intros; rfl
@[simp] theorem exec_vfadd (s : State) : ∀ p am ty r d, exec (.vfadd p am ty r d) s = execVfadd p am ty r d s := by intros; rfl
@[simp] theorem exec_vfsub (s : State) : ∀ p am ty r d, exec (.vfsub p am ty r d) s = execVfsub p am ty r d s := by intros; rfl
@[simp] theorem exec_vfrsub (s : State) : ∀ p am ty r d, exec (.vfrsub p am ty r d) s = execVfrsub p am ty r d s := by intros; rfl
@[simp] theorem exec_vfmul (s : State) : ∀ p am ty r d, exec (.vfmul p am ty r d) s = execVfmul p am ty r d s := by intros; rfl
@[simp] theorem exec_vfma (s : State) : ∀ p am ty r d, exec (.vfma p am ty r d) s = execVfma p am ty r d s := by intros; rfl
@[simp] theorem exec_vfmal (s : State) : ∀ p am ty r d, exec (.vfmal p am ty r d) s = execVfmal p am ty r d s := by intros; rfl
@[simp] theorem exec_vfms (s : State) : ∀ p am ty r d, exec (.vfms p am ty r d) s = execVfms p am ty r d s := by intros; rfl
@[simp] theorem exec_vfdiv (s : State) : ∀ p am ty r d, exec (.vfdiv p am ty r d) s = execVfdiv p am ty r d s := by intros; rfl
@[simp] theorem exec_vfsqrt (s : State) : ∀ p am ty r d, exec (.vfsqrt p am ty r d) s = execVfsqrt p am ty r d s := by intros; rfl
@[simp] theorem exec_vfmin (s : State) : ∀ p am ty r d, exec (.vfmin p am ty r d) s = execVfmin p am ty r d s := by intros; rfl
@[simp] theorem exec_vfmax (s : State) : ∀ p am ty r d, exec (.vfmax p am ty r d) s = execVfmax p am ty r d s := by intros; rfl
@[simp] theorem exec_vfabs (s : State) : ∀ p am ty r d, exec (.vfabs p am ty r d) s = execVfabs p am ty r d s := by intros; rfl
@[simp] theorem exec_vfneg (s : State) : ∀ p am ty r d, exec (.vfneg p am ty r d) s = execVfneg p am ty r d s := by intros; rfl
@[simp] theorem exec_vfrnd (s : State) : ∀ p am ty r d, exec (.vfrnd p am ty r d) s = execVfrnd p am ty r d s := by intros; rfl
@[simp] theorem exec_vfscale (s : State) : ∀ p am ty r d, exec (.vfscale p am ty r d) s = execVfscale p am ty r d s := by intros; rfl
@[simp] theorem exec_vcvtf (s : State) : ∀ p am ty r d, exec (.vcvtf p am ty r d) s = execVcvtf p am ty r d s := by intros; rfl
@[simp] theorem exec_vcvti (s : State) : ∀ p am ty r d, exec (.vcvti p am ty r d) s = execVcvti p am ty r d s := by intros; rfl
@[simp] theorem exec_vpack (s : State) : ∀ p am ty r d, exec (.vpack p am ty r d) s = execVpack p am ty r d s := by intros; rfl
@[simp] theorem exec_vpacki (s : State) : ∀ p am ty d, exec (.vpacki p am ty d) s = execVpacki p am ty d s := by intros; rfl
@[simp] theorem exec_vpacks (s : State) : ∀ p am ty r d, exec (.vpacks p am ty r d) s = execVpacks p am ty r d s := by intros; rfl
@[simp] theorem exec_vrsum (s : State) : ∀ p am ty d, exec (.vrsum p am ty d) s = execVrsum p am ty d s := by intros; rfl
@[simp] theorem exec_vrmin (s : State) : ∀ p am ty d, exec (.vrmin p am ty d) s = execVrmin p am ty d s := by intros; rfl
@[simp] theorem exec_vrmax (s : State) : ∀ p am ty d, exec (.vrmax p am ty d) s = execVrmax p am ty d s := by intros; rfl
@[simp] theorem exec_vrdot (s : State) : ∀ p am ty d, exec (.vrdot p am ty d) s = execVrdot p am ty d s := by intros; rfl
@[simp] theorem exec_vfrsum (s : State) : ∀ p am ty r d, exec (.vfrsum p am ty r d) s = execVfrsum p am ty r d s := by intros; rfl
@[simp] theorem exec_vfrmin (s : State) : ∀ p am ty r d, exec (.vfrmin p am ty r d) s = execVfrmin p am ty r d s := by intros; rfl
@[simp] theorem exec_vfrmax (s : State) : ∀ p am ty r d, exec (.vfrmax p am ty r d) s = execVfrmax p am ty r d s := by intros; rfl
@[simp] theorem exec_vfrdot (s : State) : ∀ p am ty r d, exec (.vfrdot p am ty r d) s = execVfrdot p am ty r d s := by intros; rfl
@[simp] theorem exec_vceq (s : State) : ∀ p am ty d, exec (.vceq p am ty d) s = execVceq p am ty d s := by intros; rfl
@[simp] theorem exec_vcne (s : State) : ∀ p am ty d, exec (.vcne p am ty d) s = execVcne p am ty d s := by intros; rfl
@[simp] theorem exec_vclt (s : State) : ∀ p am ty d, exec (.vclt p am ty d) s = execVclt p am ty d s := by intros; rfl
@[simp] theorem exec_vcle (s : State) : ∀ p am ty d, exec (.vcle p am ty d) s = execVcle p am ty d s := by intros; rfl
@[simp] theorem exec_vcgt (s : State) : ∀ p am ty d, exec (.vcgt p am ty d) s = execVcgt p am ty d s := by intros; rfl
@[simp] theorem exec_vcge (s : State) : ∀ p am ty d, exec (.vcge p am ty d) s = execVcge p am ty d s := by intros; rfl
@[simp] theorem exec_vfceq (s : State) : ∀ p am ty d, exec (.vfceq p am ty d) s = execVfceq p am ty d s := by intros; rfl
@[simp] theorem exec_vfclt (s : State) : ∀ p am ty d, exec (.vfclt p am ty d) s = execVfclt p am ty d s := by intros; rfl
@[simp] theorem exec_vfcle (s : State) : ∀ p am ty d, exec (.vfcle p am ty d) s = execVfcle p am ty d s := by intros; rfl
@[simp] theorem exec_vfcun (s : State) : ∀ p am ty d, exec (.vfcun p am ty d) s = execVfcun p am ty d s := by intros; rfl
@[simp] theorem exec_vsel (s : State) : ∀ p am ty d, exec (.vsel p am ty d) s = execVsel p am ty d s := by intros; rfl
@[simp] theorem exec_mov (s : State) : ∀ src dst imm, exec (.mov src dst imm) s = execMov src dst imm s := by intros; rfl
@[simp] theorem exec_addi (s : State) : ∀ imm, exec (.addi imm) s = execAddi imm s := by intros; rfl
@[simp] theorem exec_andi (s : State) : ∀ imm, exec (.andi imm) s = execAndi imm s := by intros; rfl
@[simp] theorem exec_ori (s : State) : ∀ imm, exec (.ori imm) s = execOri imm s := by intros; rfl
@[simp] theorem exec_xori (s : State) : ∀ imm, exec (.xori imm) s = execXori imm s := by intros; rfl
@[simp] theorem exec_shli (s : State) : ∀ n, exec (.shli n) s = execShli n s := by intros; rfl
@[simp] theorem exec_shri (s : State) : ∀ n, exec (.shri n) s = execShri n s := by intros; rfl
@[simp] theorem exec_sari (s : State) : ∀ n, exec (.sari n) s = execSari n s := by intros; rfl
@[simp] theorem exec_cmpi (s : State) : ∀ imm, exec (.cmpi imm) s = execCmpi imm s := by intros; rfl
@[simp] theorem exec_fli (s : State) : ∀ imm, exec (.fli imm) s = execFli imm s := by intros; rfl
@[simp] theorem exec_vins (s : State) : ∀ n, exec (.vins n) s = execVins n s := by intros; rfl
@[simp] theorem exec_vext (s : State) : ∀ n, exec (.vext n) s = execVext n s := by intros; rfl
@[simp] theorem exec_kset (s : State) : ∀ imm, exec (.kset imm) s = execKset imm s := by intros; rfl
@[simp] theorem exec_acvt (s : State) : ∀ sat r dt st, exec (.acvt sat r dt st) s = execAcvt sat r dt st s := by intros; rfl
@[simp] theorem exec_vconv (s : State) : ∀ sat r toF, exec (.vconv sat r toF) s = execVconv sat r toF s := by intros; rfl
@[simp] theorem exec_vsum (s : State) : ∀ r fl, exec (.vsum r fl) s = execVsum r fl s := by intros; rfl
@[simp] theorem exec_vrot (s : State) : ∀ n, exec (.vrot n) s = execVrot n s := by intros; rfl
@[simp] theorem exec_vbcast (s : State) : ∀ n, exec (.vbcast n) s = execVbcast n s := by intros; rfl
@[simp] theorem exec_fence (s : State) : ∀ pa, exec (.fence pa) s = execFence pa s := by intros; rfl
@[simp] theorem exec_acq (s : State) : ∀ pa, exec (.acq pa) s = execAcq pa s := by intros; rfl
@[simp] theorem exec_acqO (s : State) : ∀ pa, exec (.acqO pa) s = execAcqO pa s := by intros; rfl
@[simp] theorem exec_rel (s : State) : ∀ pa, exec (.rel pa) s = execRel pa s := by intros; rfl
@[simp] theorem exec_pub (s : State) : ∀ pa pb, exec (.pub pa pb) s = execPub pa pb s := by intros; rfl
@[simp] theorem exec_shade (s : State) : ∀ pa pb, exec (.shade pa pb) s = execShade pa pb s := by intros; rfl
@[simp] theorem exec_seqadv (s : State) : ∀ pb, exec (.seqadv pb) s = execSeqadv pb s := by intros; rfl
@[simp] theorem exec_watch (s : State) : ∀ pa pb wd, exec (.watch pa pb wd) s = execWatch pa pb wd s := by intros; rfl
@[simp] theorem exec_watcha (s : State) : ∀ pa pb wd, exec (.watcha pa pb wd) s = execWatcha pa pb wd s := by intros; rfl
@[simp] theorem exec_wwait (s : State) : ∀ wd, exec (.wwait wd) s = execWwait wd s := by intros; rfl
@[simp] theorem exec_wtest (s : State) : ∀ wd, exec (.wtest wd) s = execWtest wd s := by intros; rfl
@[simp] theorem exec_barset (s : State) : ∀ pa b, exec (.barset pa b) s = execBarset pa b s := by intros; rfl
@[simp] theorem exec_barv (s : State) : ∀ b, exec (.barv b) s = execBarv b s := by intros; rfl
@[simp] theorem exec_barw (s : State) : ∀ b, exec (.barw b) s = execBarw b s := by intros; rfl
@[simp] theorem exec_dep (s : State) : ∀ pa pb tn n, exec (.dep pa pb tn n) s = execDep pa pb tn n s := by intros; rfl
@[simp] theorem exec_depq (s : State) : ∀ pa tn n, exec (.depq pa tn n) s = execDepq pa tn n s := by intros; rfl
@[simp] theorem exec_depqLine (s : State) : ∀ pa tn, exec (.depqLine pa tn) s = execDepqLine pa tn s := by intros; rfl
@[simp] theorem exec_depe (s : State) : ∀ pa pb tn wd ix, exec (.depe pa pb tn wd ix) s = execDepe pa pb tn wd ix s := by intros; rfl
@[simp] theorem exec_depes (s : State) : ∀ pa pb tn wd ix, exec (.depes pa pb tn wd ix) s = execDepes pa pb tn wd ix s := by intros; rfl
@[simp] theorem exec_amoAdd (s : State) : ∀ pa pb tn dbl, exec (.amoAdd pa pb tn dbl) s = execAmoAdd pa pb tn dbl s := by intros; rfl
@[simp] theorem exec_amoMin (s : State) : ∀ pa pb tn dbl, exec (.amoMin pa pb tn dbl) s = execAmoMin pa pb tn dbl s := by intros; rfl
@[simp] theorem exec_amoMax (s : State) : ∀ pa pb tn dbl, exec (.amoMax pa pb tn dbl) s = execAmoMax pa pb tn dbl s := by intros; rfl
@[simp] theorem exec_amoMinu (s : State) : ∀ pa pb tn dbl, exec (.amoMinu pa pb tn dbl) s = execAmoMinu pa pb tn dbl s := by intros; rfl
@[simp] theorem exec_amoMaxu (s : State) : ∀ pa pb tn dbl, exec (.amoMaxu pa pb tn dbl) s = execAmoMaxu pa pb tn dbl s := by intros; rfl
@[simp] theorem exec_amoAnd (s : State) : ∀ pa pb tn dbl, exec (.amoAnd pa pb tn dbl) s = execAmoAnd pa pb tn dbl s := by intros; rfl
@[simp] theorem exec_amoOr (s : State) : ∀ pa pb tn dbl, exec (.amoOr pa pb tn dbl) s = execAmoOr pa pb tn dbl s := by intros; rfl
@[simp] theorem exec_amoXor (s : State) : ∀ pa pb tn dbl, exec (.amoXor pa pb tn dbl) s = execAmoXor pa pb tn dbl s := by intros; rfl
@[simp] theorem exec_amoSwap (s : State) : ∀ pa pb tn dbl, exec (.amoSwap pa pb tn dbl) s = execAmoSwap pa pb tn dbl s := by intros; rfl
@[simp] theorem exec_amoCas (s : State) : ∀ pa pb tn dbl, exec (.amoCas pa pb tn dbl) s = execAmoCas pa pb tn dbl s := by intros; rfl
@[simp] theorem exec_amoEnq (s : State) : ∀ pa pb tn, exec (.amoEnq pa pb tn) s = execAmoEnq pa pb tn s := by intros; rfl
@[simp] theorem exec_amoDeq (s : State) : ∀ pa tn, exec (.amoDeq pa tn) s = execAmoDeq pa tn s := by intros; rfl
@[simp] theorem exec_amoAdv (s : State) : ∀ pa tn, exec (.amoAdv pa tn) s = execAmoAdv pa tn s := by intros; rfl
@[simp] theorem exec_amoUser (s : State) : ∀ pa pb tn k dbl, exec (.amoUser pa pb tn k dbl) s = execAmoUser pa pb tn k dbl s := by intros; rfl
@[simp] theorem exec_send (s : State) : ∀ pa tn n c, exec (.send pa tn n c) s = execSend pa tn n c s := by intros; rfl
@[simp] theorem exec_mig (s : State) : ∀ pa c, exec (.mig pa c) s = execMig pa c s := by intros; rfl
@[simp] theorem exec_spawn (s : State) : ∀ pa tn n c, exec (.spawn pa tn n c) s = execSpawn pa tn n c s := by intros; rfl
@[simp] theorem exec_rcmd (s : State) : ∀ pa tn k, exec (.rcmd pa tn k) s = execRcmd pa tn k s := by intros; rfl
@[simp] theorem exec_tokq (s : State) : ∀ k, exec (.tokq k) s = execTokq k s := by intros; rfl
@[simp] theorem exec_tokw (s : State) : ∀ k, exec (.tokw k) s = execTokw k s := by intros; rfl
@[simp] theorem exec_tokz (s : State) : ∀ k, exec (.tokz k) s = execTokz k s := by intros; rfl
@[simp] theorem exec_mwld (s : State) : ∀ pa pb pc fa fr sb, exec (.mwld pa pb pc fa fr sb) s = execMwld pa pb pc fa fr sb s := by intros; rfl
@[simp] theorem exec_mwldLanding (s : State) : ∀ pa pb pc x fa fr, exec (.mwldLanding pa pb pc x fa fr) s = execMwldLanding pa pb pc x fa fr s := by intros; rfl
@[simp] theorem exec_mma (s : State) : ∀ pa pb pc x fa fr sb init dense, exec (.mma pa pb pc x fa fr sb init dense) s = execMma pa pb pc x fa fr sb init dense s := by intros; rfl
@[simp] theorem exec_mmp (s : State) : ∀ pa pb pc x fa fr sb init dense, exec (.mmp pa pb pc x fa fr sb init dense) s = execMmp pa pb pc x fa fr sb init dense s := by intros; rfl
@[simp] theorem exec_mprog (s : State) : ∀ pa pb n, exec (.mprog pa pb n) s = execMprog pa pb n s := by intros; rfl
@[simp] theorem exec_mcommit (s : State) : ∀ pa pb pc x fa fr r sat, exec (.mcommit pa pb pc x fa fr r sat) s = execMcommit pa pb pc x fa fr r sat s := by intros; rfl
@[simp] theorem exec_mwait (s : State) : ∀ x all, exec (.mwait x all) s = execMwait x all s := by intros; rfl
@[simp] theorem exec_pull (s : State) : ∀ pa pb pc id fa fr rec, exec (.pull pa pb pc id fa fr rec) s = execPull pa pb pc id fa fr rec s := by intros; rfl
@[simp] theorem exec_pullg (s : State) : ∀ pa pb pc id fa fr rec, exec (.pullg pa pb pc id fa fr rec) s = execPullg pa pb pc id fa fr rec s := by intros; rfl
@[simp] theorem exec_pullw (s : State) : ∀ id all, exec (.pullw id all) s = execPullw id all s := by intros; rfl
@[simp] theorem exec_coll (s : State) : ∀ pa pb pc id fa fr, exec (.coll pa pb pc id fa fr) s = execColl pa pb pc id fa fr s := by intros; rfl
@[simp] theorem exec_collw (s : State) : ∀ id all, exec (.collw id all) s = execCollw id all s := by intros; rfl
@[simp] theorem exec_trap (s : State) : ∀ n, exec (.trap n) s = execTrap n s := by intros; rfl
@[simp] theorem exec_cget (s : State) : ∀ pa idx, exec (.cget pa idx) s = execCget pa idx s := by intros; rfl
@[simp] theorem exec_cset (s : State) : ∀ pa idx, exec (.cset pa idx) s = execCset pa idx s := by intros; rfl
@[simp] theorem exec_tlbw (s : State) : ∀ pa pb, exec (.tlbw pa pb) s = execTlbw pa pb s := by intros; rfl
@[simp] theorem exec_tlbi (s : State) : ∀ pa m, exec (.tlbi pa m) s = execTlbi pa m s := by intros; rfl
@[simp] theorem exec_pready (s : State) : ∀ pa fail n, exec (.pready pa fail n) s = execPready pa fail n s := by intros; rfl
@[simp] theorem exec_ext (s : State) : ∀ payload, exec (.ext payload) s = execExt payload s := by intros; rfl
@[simp] theorem exec_tok (s : State) : ∀ ask askSlot nm nmSlot, exec (.tok ask askSlot nm nmSlot) s = execTok ask askSlot nm nmSlot s := by intros; rfl
@[simp] theorem exec_ret (s : State) : exec .ret s = execRet s := rfl
@[simp] theorem exec_vsplat (s : State) : exec .vsplat s = execVsplat s := rfl
@[simp] theorem exec_vzero (s : State) : exec .vzero s = execVzero s := rfl
@[simp] theorem exec_qdrop (s : State) : exec .qdrop s = execQdrop s := rfl
@[simp] theorem exec_vperm (s : State) : exec .vperm s = execVperm s := rfl
@[simp] theorem exec_vcomp (s : State) : exec .vcomp s = execVcomp s := rfl
@[simp] theorem exec_vexpd (s : State) : exec .vexpd s = execVexpd s := rfl
@[simp] theorem exec_vrev (s : State) : exec .vrev s = execVrev s := rfl
@[simp] theorem exec_kand (s : State) : exec .kand s = execKand s := rfl
@[simp] theorem exec_kor (s : State) : exec .kor s = execKor s := rfl
@[simp] theorem exec_kxor (s : State) : exec .kxor s = execKxor s := rfl
@[simp] theorem exec_knot (s : State) : exec .knot s = execKnot s := rfl
@[simp] theorem exec_kpop (s : State) : exec .kpop s = execKpop s := rfl
@[simp] theorem exec_kffs (s : State) : exec .kffs s = execKffs s := rfl
@[simp] theorem exec_done (s : State) : exec .done s = execDone s := rfl
@[simp] theorem exec_yield (s : State) : exec .yield s = execYield s := rfl
@[simp] theorem exec_rti (s : State) : exec .rti s = execRti s := rfl
@[simp] theorem exec_ifence (s : State) : exec .ifence s = execIfence s := rfl
@[simp] theorem exec_hint (s : State) : exec .hint s = execHint s := rfl
@[simp] theorem exec_fetchLine (s : State) : ∀ slot line, exec (.fetchLine slot line) s = execFetchLine slot line s := by intros; rfl
@[simp] theorem exec_loadAtPort (s : State) : ∀ who oa u kind, exec (.loadAtPort who oa u kind) s = execLoadAtPort who oa u kind s := by intros; rfl
@[simp] theorem exec_loadReply (s : State) : ∀ rid ans, exec (.loadReply rid ans) s = execLoadReply rid ans s := by intros; rfl
@[simp] theorem exec_storeAccept (s : State) : ∀ who oa data, exec (.storeAccept who oa data) s = execStoreAccept who oa data s := by intros; rfl
@[simp] theorem exec_storePerform (s : State) : ∀ oa data, exec (.storePerform oa data) s = execStorePerform oa data s := by intros; rfl
@[simp] theorem exec_tlbwAtHome (s : State) : ∀ mw dw, exec (.tlbwAtHome mw dw) s = execTlbwAtHome mw dw s := by intros; rfl
@[simp] theorem exec_tlbiAtHome (s : State) : ∀ m arg, exec (.tlbiAtHome m arg) s = execTlbiAtHome m arg s := by intros; rfl
@[simp] theorem exec_shootdownAck (s : State) : ∀ slot, exec (.shootdownAck slot) s = execShootdownAck slot s := by intros; rfl
@[simp] theorem exec_pageFault (s : State) : ∀ slot oa p1, exec (.pageFault slot oa p1) s = execPageFault slot oa p1 s := by intros; rfl
@[simp] theorem exec_preadyAtCell (s : State) : ∀ frame rcb fail n issuer, exec (.preadyAtCell frame rcb fail n issuer) s = execPreadyAtCell frame rcb fail n issuer s := by intros; rfl
@[simp] theorem exec_scrubFrame (s : State) : ∀ frame, exec (.scrubFrame frame) s = execScrubFrame frame s := by intros; rfl
@[simp] theorem exec_patrolRead (s : State) : ∀ line ecc, exec (.patrolRead line ecc) s = execPatrolRead line ecc s := by intros; rfl
@[simp] theorem exec_csetCisternFill (s : State) : ∀ w, exec (.csetCisternFill w) s = execCsetCisternFill w s := by intros; rfl
@[simp] theorem exec_fillModeEntered (s : State) : exec .fillModeEntered s = execFillModeEntered s := rfl
@[simp] theorem exec_csetCisternServe (s : State) : ∀ cell, exec (.csetCisternServe cell) s = execCsetCisternServe cell s := by intros; rfl
@[simp] theorem exec_serveModeReturn (s : State) : exec .serveModeReturn s = execServeModeReturn s := rfl
@[simp] theorem exec_refreshWindowStart (s : State) : ∀ tick, exec (.refreshWindowStart tick) s = execRefreshWindowStart tick s := by intros; rfl
@[simp] theorem exec_refreshWindowEnd (s : State) : ∀ tick, exec (.refreshWindowEnd tick) s = execRefreshWindowEnd tick s := by intros; rfl
@[simp] theorem exec_eventPost (s : State) : ∀ kind code lcell user addr detail, exec (.eventPost kind code lcell user addr detail) s = execEventPost kind code lcell user addr detail s := by intros; rfl
@[simp] theorem exec_csetEvqHead (s : State) : ∀ head, exec (.csetEvqHead head) s = execCsetEvqHead head s := by intros; rfl
@[simp] theorem exec_tlbctlEnable (s : State) : exec .tlbctlEnable s = execTlbctlEnable s := rfl
@[simp] theorem exec_walkQueueEnter (s : State) : ∀ ent, exec (.walkQueueEnter ent) s = execWalkQueueEnter ent s := by intros; rfl
@[simp] theorem exec_lampWalk (s : State) : exec .lampWalk s = execLampWalk s := rfl
@[simp] theorem exec_watchAtOwner (s : State) : ∀ req, exec (.watchAtOwner req) s = execWatchAtOwner req s := by intros; rfl
@[simp] theorem exec_watchReplace (s : State) : ∀ rid, exec (.watchReplace rid) s = execWatchReplace rid s := by intros; rfl
@[simp] theorem exec_watchAnswer (s : State) : ∀ w ans, exec (.watchAnswer w ans) s = execWatchAnswer w ans s := by intros; rfl
@[simp] theorem exec_barsetCheck (s : State) : ∀ who rect, exec (.barsetCheck who rect) s = execBarsetCheck who rect s := by intros; rfl
@[simp] theorem exec_barrierSignal (s : State) : ∀ b rect sig err, exec (.barrierSignal b rect sig err) s = execBarrierSignal b rect sig err s := by intros; rfl
@[simp] theorem exec_barrierRelease (s : State) : ∀ b rect err, exec (.barrierRelease b rect err) s = execBarrierRelease b rect err s := by intros; rfl
@[simp] theorem exec_depositAtOwner (s : State) : ∀ req, exec (.depositAtOwner req) s = execDepositAtOwner req s := by intros; rfl
@[simp] theorem exec_atomicRequestArrival (s : State) : ∀ req, exec (.atomicRequestArrival req) s = execAtomicRequestArrival req s := by intros; rfl
@[simp] theorem exec_atomicRun (s : State) : exec .atomicRun s = execAtomicRun s := rfl
@[simp] theorem exec_atomicOverrun (s : State) : exec .atomicOverrun s = execAtomicOverrun s := rfl
@[simp] theorem exec_atomicReply (s : State) : ∀ rid entry, exec (.atomicReply rid entry) s = execAtomicReply rid entry s := by intros; rfl
@[simp] theorem exec_positiveReply (s : State) : ∀ rid, exec (.positiveReply rid) s = execPositiveReply rid s := by intros; rfl
@[simp] theorem exec_negativeReply (s : State) : ∀ rid code oa, exec (.negativeReply rid code oa) s = execNegativeReply rid code oa s := by intros; rfl
@[simp] theorem exec_landingAck (s : State) : ∀ token, exec (.landingAck token) s = execLandingAck token s := by intros; rfl
@[simp] theorem exec_tokenExpiry (s : State) : ∀ token, exec (.tokenExpiry token) s = execTokenExpiry token s := by intros; rfl
@[simp] theorem exec_heldMessageArrival (s : State) : ∀ held, exec (.heldMessageArrival held) s = execHeldMessageArrival held s := by intros; rfl
@[simp] theorem exec_releaseNotice (s : State) : ∀ token count, exec (.releaseNotice token count) s = execReleaseNotice token count s := by intros; rfl
@[simp] theorem exec_cancelNotice (s : State) : ∀ token, exec (.cancelNotice token) s = execCancelNotice token s := by intros; rfl
@[simp] theorem exec_holdTimerExpiry (s : State) : ∀ token hid, exec (.holdTimerExpiry token hid) s = execHoldTimerExpiry token hid s := by intros; rfl
@[simp] theorem exec_releaseRecordExpiry (s : State) : ∀ token, exec (.releaseRecordExpiry token) s = execReleaseRecordExpiry token s := by intros; rfl
@[simp] theorem exec_messageArrival (s : State) : ∀ who msg tok, exec (.messageArrival who msg tok) s = execMessageArrival who msg tok s := by intros; rfl
@[simp] theorem exec_pumpReplay (s : State) : exec .pumpReplay s = execPumpReplay s := rfl
@[simp] theorem exec_yieldBufferSend (s : State) : ∀ slot, exec (.yieldBufferSend slot) s = execYieldBufferSend slot s := by intros; rfl
@[simp] theorem exec_selection (s : State) : ∀ slot, exec (.selection slot) s = execSelection slot s := by intros; rfl
@[simp] theorem exec_grantRequest (s : State) : ∀ rcb who what, exec (.grantRequest rcb who what) s = execGrantRequest rcb who what s := by intros; rfl
@[simp] theorem exec_grantArrival (s : State) : ∀ reg what amount, exec (.grantArrival reg what amount) s = execGrantArrival reg what amount s := by intros; rfl
@[simp] theorem exec_activationReport (s : State) : ∀ a starts ends cycles, exec (.activationReport a starts ends cycles) s = execActivationReport a starts ends cycles s := by intros; rfl
@[simp] theorem exec_regionLaunch (s : State) : ∀ rcb who tok, exec (.regionLaunch rcb who tok) s = execRegionLaunch rcb who tok s := by intros; rfl
@[simp] theorem exec_handlerInstall (s : State) : ∀ record who, exec (.handlerInstall record who) s = execHandlerInstall record who s := by intros; rfl
@[simp] theorem exec_regionPause (s : State) : ∀ rcb who tok reason, exec (.regionPause rcb who tok reason) s = execRegionPause rcb who tok reason s := by intros; rfl
@[simp] theorem exec_pauseAtCell (s : State) : ∀ rcb, exec (.pauseAtCell rcb) s = execPauseAtCell rcb s := by intros; rfl
@[simp] theorem exec_regionResume (s : State) : ∀ rcb who tok, exec (.regionResume rcb who tok) s = execRegionResume rcb who tok s := by intros; rfl
@[simp] theorem exec_regionEnd (s : State) : ∀ rcb who tok, exec (.regionEnd rcb who tok) s = execRegionEnd rcb who tok s := by intros; rfl
@[simp] theorem exec_endAtCell (s : State) : ∀ rcb, exec (.endAtCell rcb) s = execEndAtCell rcb s := by intros; rfl
@[simp] theorem exec_retryResend (s : State) : ∀ rid, exec (.retryResend rid) s = execRetryResend rid s := by intros; rfl
@[simp] theorem exec_evict (s : State) : ∀ rcb rect ptn, exec (.evict rcb rect ptn) s = execEvict rcb rect ptn s := by intros; rfl
@[simp] theorem exec_evictionQuiesced (s : State) : exec .evictionQuiesced s = execEvictionQuiesced s := rfl
@[simp] theorem exec_restore (s : State) : ∀ rcb rect ptn, exec (.restore rcb rect ptn) s = execRestore rcb rect ptn s := by intros; rfl
@[simp] theorem exec_matrixCommandStart (s : State) : ∀ c, exec (.matrixCommandStart c) s = execMatrixCommandStart c s := by intros; rfl
@[simp] theorem exec_matrixTile (s : State) : ∀ c, exec (.matrixTile c) s = execMatrixTile c s := by intros; rfl
@[simp] theorem exec_pullStart (s : State) : exec .pullStart s = execPullStart s := rfl
@[simp] theorem exec_pullAccess (s : State) : ∀ n ans, exec (.pullAccess n ans) s = execPullAccess n ans s := by intros; rfl
@[simp] theorem exec_collStart (s : State) : exec .collStart s = execCollStart s := rfl
@[simp] theorem exec_collStep (s : State) : ∀ peer ans, exec (.collStep peer ans) s = execCollStep peer ans s := by intros; rfl
@[simp] theorem exec_memberLost (s : State) : ∀ rank, exec (.memberLost rank) s = execMemberLost rank s := by intros; rfl
@[simp] theorem exec_fabricSlot (s : State) : ∀ peers, exec (.fabricSlot peers) s = execFabricSlot peers s := by intros; rfl
@[simp] theorem exec_flitReceive (s : State) : ∀ port flit crcOk, exec (.flitReceive port flit crcOk) s = execFlitReceive port flit crcOk s := by intros; rfl
@[simp] theorem exec_laneHealthWindow (s : State) : ∀ port corr repl mism, exec (.laneHealthWindow port corr repl mism) s = execLaneHealthWindow port corr repl mism s := by intros; rfl
@[simp] theorem exec_lostDeclaration (s : State) : ∀ ppkg seq, exec (.lostDeclaration ppkg seq) s = execLostDeclaration ppkg seq s := by intros; rfl
@[simp] theorem exec_farFrameReceive (s : State) : ∀ frame, exec (.farFrameReceive frame) s = execFarFrameReceive frame s := by intros; rfl
@[simp] theorem exec_farRetransmit (s : State) : ∀ peer counter, exec (.farRetransmit peer counter) s = execFarRetransmit peer counter s := by intros; rfl
@[simp] theorem exec_farSessionOpen (s : State) : ∀ peer certified slot0, exec (.farSessionOpen peer certified slot0) s = execFarSessionOpen peer certified slot0 s := by intros; rfl
@[simp] theorem exec_farRekey (s : State) : ∀ peer, exec (.farRekey peer) s = execFarRekey peer s := by intros; rfl
@[simp] theorem exec_hostSharedRead (s : State) : ∀ agent line half, exec (.hostSharedRead agent line half) s = execHostSharedRead agent line half s := by intros; rfl
@[simp] theorem exec_hostOwnershipRead (s : State) : ∀ agent line half, exec (.hostOwnershipRead agent line half) s = execHostOwnershipRead agent line half s := by intros; rfl
@[simp] theorem exec_hostWriteback (s : State) : ∀ agent line half data, exec (.hostWriteback agent line half data) s = execHostWriteback agent line half data s := by intros; rfl
@[simp] theorem exec_hostWrite (s : State) : ∀ agent addr data, exec (.hostWrite agent addr data) s = execHostWrite agent addr data s := by intros; rfl
@[simp] theorem exec_snoopResponse (s : State) : ∀ agent line half dirty keep, exec (.snoopResponse agent line half dirty keep) s = execSnoopResponse agent line half dirty keep s := by intros; rfl
@[simp] theorem exec_placeTableWrite (s : State) : ∀ target value, exec (.placeTableWrite target value) s = execPlaceTableWrite target value s := by intros; rfl
@[simp] theorem exec_vfpairWrite (s : State) : ∀ n value, exec (.vfpairWrite n value) s = execVfpairWrite n value s := by intros; rfl
@[simp] theorem exec_hcwinWrite (s : State) : ∀ n value, exec (.hcwinWrite n value) s = execHcwinWrite n value s := by intros; rfl
@[simp] theorem exec_fabswitchWrite (s : State) : ∀ value, exec (.fabswitchWrite value) s = execFabswitchWrite value s := by intros; rfl
@[simp] theorem exec_farPeerWrite (s : State) : ∀ peer word value, exec (.farPeerWrite peer word value) s = execFarPeerWrite peer word value s := by intros; rfl
@[simp] theorem exec_hostRegisterWrite (s : State) : ∀ target value, exec (.hostRegisterWrite target value) s = execHostRegisterWrite target value s := by intros; rfl
@[simp] theorem exec_registerRead (s : State) : ∀ target, exec (.registerRead target) s = execRegisterRead target s := by intros; rfl
@[simp] theorem exec_create (s : State) : ∀ world ckey kind, exec (.create world ckey kind) s = execCreate world ckey kind s := by intros; rfl
@[simp] theorem exec_destroy (s : State) : ∀ world ckey, exec (.destroy world ckey) s = execDestroy world ckey s := by intros; rfl
@[simp] theorem exec_keyLoad (s : State) : ∀ world ckey kem wrapped, exec (.keyLoad world ckey kem wrapped) s = execKeyLoad world ckey kem wrapped s := by intros; rfl
@[simp] theorem exec_gate (s : State) : ∀ world index entry, exec (.gate world index entry) s = execGate world index entry s := by intros; rfl
@[simp] theorem exec_evidence (s : State) : ∀ world nonce buf len, exec (.evidence world nonce buf len) s = execEvidence world nonce buf len s := by intros; rfl
@[simp] theorem exec_peers (s : State) : ∀ values, exec (.peers values) s = execPeers values s := by intros; rfl
@[simp] theorem exec_handOver (s : State) : ∀ image rcb world, exec (.handOver image rcb world) s = execHandOver image rcb world s := by intros; rfl
@[simp] theorem exec_powerRun (s : State) : ∀ die pclu freq, exec (.powerRun die pclu freq) s = execPowerRun die pclu freq s := by intros; rfl
@[simp] theorem exec_powerHold (s : State) : ∀ die pclu freq, exec (.powerHold die pclu freq) s = execPowerHold die pclu freq s := by intros; rfl
@[simp] theorem exec_powerOff (s : State) : ∀ die pclu freq, exec (.powerOff die pclu freq) s = execPowerOff die pclu freq s := by intros; rfl
@[simp] theorem exec_clockChangeDone (s : State) : exec .clockChangeDone s = execClockChangeDone s := rfl
@[simp] theorem exec_exportPage (s : State) : ∀ ckey vpn host, exec (.exportPage ckey vpn host) s = execExportPage ckey vpn host s := by intros; rfl
@[simp] theorem exec_importPage (s : State) : ∀ ckey vpn image frame, exec (.importPage ckey vpn image frame) s = execImportPage ckey vpn image frame s := by intros; rfl
@[simp] theorem exec_declareLost (s : State) : ∀ ppkg, exec (.declareLost ppkg) s = execDeclareLost ppkg s := by intros; rfl
@[simp] theorem exec_mbRegionCommand (s : State) : ∀ rcb ptn k, exec (.mbRegionCommand rcb ptn k) s = execMbRegionCommand rcb ptn k s := by intros; rfl
@[simp] theorem exec_packageReset (s : State) : exec .packageReset s = execPackageReset s := rfl
@[simp] theorem exec_securityCoreMismatch (s : State) : exec .securityCoreMismatch s = execSecurityCoreMismatch s := rfl
@[simp] theorem exec_illegalInstruction (s : State) : ∀ wd, exec (.illegalInstruction wd) s = execIllegalInstruction wd s := by intros; rfl
@[simp] theorem exec_evheadWrite (s : State) : ∀ port value, exec (.evheadWrite port value) s = execEvheadWrite port value s := by intros; rfl
@[simp] theorem exec_rdcurrFill (s : State) : ∀ line data, exec (.rdcurrFill line data) s = execRdcurrFill line data s := by intros; rfl
@[simp] theorem exec_hostPortTrains (s : State) : ∀ port cxl, exec (.hostPortTrains port cxl) s = execHostPortTrains port cxl s := by intros; rfl

end Sys2Proof.Machine
end

