-- ==== Sys2Proof/Laws/Mem.lean ====
section
/-!
SUPPORT. The laws of memory: a read after a write, and that every memory operation keeps the canonical form.
-/
namespace Sys2Proof.Machine

/-! ## Rising lists -/

theorem rising_tail {a : Nat} {l : List Nat} (h : rising (a :: l) = true) : rising l = true := by
  cases l with
  | nil => rfl
  | cons b t => simp only [rising, Bool.and_eq_true] at h; exact h.2

/-- In a rising list everything behind the head is greater. -/
theorem rising_lt {a : Nat} {l : List Nat} (h : rising (a :: l) = true) : ∀ x ∈ l, a < x := by
  induction l generalizing a with
  | nil => intro x hx; cases hx
  | cons b t ih =>
    simp only [rising, Bool.and_eq_true, decide_eq_true_eq] at h
    intro x hx
    cases hx with
    | head => exact h.1
    | tail _ hx => exact Nat.lt_trans h.1 (ih h.2 x hx)

theorem rising_cons {a : Nat} {l : List Nat} (hl : rising l = true) (h : ∀ x ∈ l, a < x) : rising (a :: l) = true := by
  cases l with
  | nil => rfl
  | cons b t =>
    simp only [rising, Bool.and_eq_true, decide_eq_true_eq]
    exact ⟨h b (List.mem_cons_self ..), hl⟩

theorem rising_filter (p : Nat → Bool) {l : List Nat} (h : rising l = true) : rising (l.filter p) = true := by
  induction l with
  | nil => rfl
  | cons a t ih =>
    have h2 := ih (rising_tail h)
    cases hp : p a with
    | false => rw [List.filter_cons_of_neg (by simp [hp])]; exact h2
    | true =>
      rw [List.filter_cons_of_pos hp]
      exact rising_cons h2 fun x hx => rising_lt h x (List.mem_filter.mp hx).1

/-! ## Marks -/

theorem mem_markAt {a c : Nat} {on : Bool} {l : List Nat} (h : rising l = true) :
    c ∈ markAt a on l ↔ (if c = a then on = true else c ∈ l) := by
  induction l with
  | nil => cases on <;> by_cases h : c = a <;> simp [markAt, h]
  | cons x t ih =>
    have hx := rising_lt h
    have ih := ih (rising_tail h)
    simp only [markAt]
    by_cases h1 : a < x
    · have : a ∉ t := fun m => absurd (hx a m) (by omega)
      have : a ≠ x := by omega
      cases on <;> by_cases hc : c = a <;> simp_all
    · by_cases h2 : a = x
      · subst h2
        have : a ∉ t := fun m => absurd (hx a m) (by omega)
        cases on <;> by_cases hc : c = a <;> simp_all
      · simp only [h1, h2, if_false, List.mem_cons, ih]
        by_cases hc : c = a <;> simp_all

theorem rising_markAt {a : Nat} {on : Bool} {l : List Nat} (h : rising l = true) : rising (markAt a on l) = true := by
  induction l with
  | nil => cases on <;> rfl
  | cons x t ih =>
    simp only [markAt]
    have hx := rising_lt h
    by_cases h1 : a < x
    · cases on
      · simp [h1, h]
      · simp only [h1, if_true]
        refine rising_cons h fun y hy => ?_
        cases hy with
        | head => exact h1
        | tail _ hy => exact Nat.lt_trans h1 (hx y hy)
    · by_cases h2 : a = x
      · subst h2
        cases on <;> simp [h, rising_tail h]
      · simp only [h1, h2, if_false]
        refine rising_cons (ih (rising_tail h)) fun y hy => ?_
        rw [mem_markAt (rising_tail h)] at hy
        split at hy
        · omega
        · exact hx y hy

/-! ## Pairs -/

section Pairs
variable {β : Type} [DecidableEq β]

theorem keys_insertAt {d b : β} {a c : Nat} {l : List (Nat × β)} (h : c ∈ (insertAt d a b l).map Prod.fst) :
    c = a ∨ c ∈ l.map Prod.fst := by
  induction l with
  | nil => simp only [insertAt] at h; split at h <;> simp_all
  | cons p t ih =>
    obtain ⟨x, y⟩ := p
    simp only [insertAt] at h
    split at h
    · split at h <;> simp_all
    · split at h
      · split at h
        · simp_all
        · simp_all
      · simp only [List.map_cons, List.mem_cons] at h ⊢
        rcases h with h | h
        · exact .inr (.inl h)
        · rcases ih h with h | h
          · exact .inl h
          · exact .inr (.inr h)

theorem rising_insertAt (d : β) (a : Nat) (b : β) {l : List (Nat × β)} (h : rising (l.map Prod.fst) = true) :
    rising ((insertAt d a b l).map Prod.fst) = true := by
  induction l with
  | nil => simp only [insertAt]; split <;> rfl
  | cons p t ih =>
    obtain ⟨x, y⟩ := p
    have hx := rising_lt h
    simp only [insertAt]
    split
    · rename_i h1
      split
      · exact h
      · refine rising_cons h fun z hz => ?_
        cases hz with
        | head => exact h1
        | tail _ hz => exact Nat.lt_trans h1 (hx z hz)
    · split
      · rename_i h2
        subst h2
        split
        · exact rising_tail h
        · exact h
      · refine rising_cons (ih (rising_tail h)) fun z hz => ?_
        rcases keys_insertAt hz with h3 | h3
        · omega
        · exact hx z h3

theorem clean_insertAt (d : β) (a : Nat) (b : β) {l : List (Nat × β)} (h : l.all (fun c => c.2 != d) = true) :
    (insertAt d a b l).all (fun c => c.2 != d) = true := by
  induction l with
  | nil => simp only [insertAt]; split <;> simp_all
  | cons p t ih =>
    obtain ⟨x, y⟩ := p
    rw [List.all_cons, Bool.and_eq_true] at h
    have ih := ih h.2
    simp only [insertAt]
    split
    · split
      · rw [List.all_cons, h.1, h.2]; rfl
      · rename_i hb
        rw [List.all_cons, List.all_cons, h.1, h.2]
        simp [hb]
    · split
      · split
        · exact h.2
        · rename_i hb
          rw [List.all_cons, h.2]
          simp [hb]
      · rw [List.all_cons, h.1, ih]; rfl

omit [DecidableEq β] in
/-- A key that the list does not hold reads as the default. -/
theorem lookupAt_absent {d : β} {a : Nat} {l : List (Nat × β)} (h : a ∉ l.map Prod.fst) : lookupAt d a l = d := by
  induction l with
  | nil => rfl
  | cons p t ih =>
    obtain ⟨x, y⟩ := p
    simp only [List.map_cons, List.mem_cons, not_or] at h
    simp only [lookupAt, beq_iff_eq]
    rw [if_neg (fun e => h.1 e.symm)]
    exact ih h.2

theorem lookupAt_insertAt_same (d : β) (a : Nat) (b : β) {l : List (Nat × β)} (h : rising (l.map Prod.fst) = true) :
    lookupAt d a (insertAt d a b l) = b := by
  induction l with
  | nil => simp only [insertAt]; split <;> simp_all [lookupAt]
  | cons p t ih =>
    obtain ⟨x, y⟩ := p
    have hx := rising_lt h
    simp only [insertAt]
    split
    · rename_i h1
      split
      · rename_i h2
        subst h2
        apply lookupAt_absent
        intro m
        cases m with
        | head => omega
        | tail _ m => exact absurd (hx a m) (by omega)
      · simp [lookupAt]
    · split
      · rename_i h2
        subst h2
        split
        · rename_i h3
          subst h3
          exact lookupAt_absent fun m => absurd (hx a m) (by omega)
        · simp [lookupAt]
      · rename_i h1 h2
        simp only [lookupAt, beq_iff_eq]
        rw [if_neg (fun e => h2 e.symm)]
        exact ih (rising_tail h)

theorem lookupAt_insertAt_other (d : β) {a c : Nat} (b : β) {l : List (Nat × β)} (h : c ≠ a) :
    lookupAt d c (insertAt d a b l) = lookupAt d c l := by
  induction l with
  | nil => simp only [insertAt]; split <;> simp [lookupAt, Ne.symm h]
  | cons p t ih =>
    obtain ⟨x, y⟩ := p
    simp only [insertAt]
    split
    · split
      · rfl
      · simp [lookupAt, Ne.symm h]
    · split
      · rename_i h2
        subst h2
        split <;> simp [lookupAt, Ne.symm h]
      · simp only [lookupAt, beq_iff_eq, ih]

end Pairs

theorem rising_map_filter {β : Type} (p : Nat → Bool) {l : List (Nat × β)} (h : rising (l.map Prod.fst) = true) :
    rising ((l.filter fun c => p c.1).map Prod.fst) = true := by
  have : (l.filter fun c => p c.1).map Prod.fst = (l.map Prod.fst).filter p := by
    rw [List.filter_map]; rfl
  rw [this]
  exact rising_filter p h

theorem all_filter {β : Type} (p q : β → Bool) {l : List β} (h : l.all q = true) : (l.filter p).all q = true := by
  rw [List.all_eq_true] at h ⊢
  exact fun x hx => h x (List.mem_filter.mp hx).1

/-! ## The canonical form, part by part -/

theorem Memory.wf_iff (m : Memory) : m.wf = true ↔
    rising (m.bytes.map Prod.fst) = true ∧ m.bytes.all (fun c => c.2 != unlistedByte) = true ∧ rising m.tags = true ∧
    rising m.lit = true ∧ rising m.poison = true ∧ rising (m.enc.map Prod.fst) = true ∧
    m.enc.all (fun c => c.2 != 0) = true := by
  simp only [Memory.wf, Bool.and_eq_true, and_assoc]

theorem Memory.wf_setByte {m : Memory} (a : Nat) (b : Byte) (h : m.wf = true) : (m.setByte a b).wf = true := by
  rw [Memory.wf_iff] at h ⊢
  exact ⟨rising_insertAt _ _ _ h.1, clean_insertAt _ _ _ h.2.1, h.2.2⟩

theorem Memory.wf_setBytes {m : Memory} (a : Nat) (bs : List Byte) (h : m.wf = true) : (m.setBytes a bs).wf = true := by
  induction bs generalizing m a with
  | nil => exact h
  | cons b bs ih => exact ih (a + 1) (Memory.wf_setByte a b h)

theorem Memory.wf_setTag {m : Memory} (a : Nat) (on : Bool) (h : m.wf = true) : (m.setTag a on).wf = true := by
  rw [Memory.wf_iff] at h ⊢
  exact ⟨h.1, h.2.1, rising_markAt h.2.2.1, h.2.2.2⟩

theorem Memory.wf_setLit {m : Memory} (a : Nat) (on : Bool) (h : m.wf = true) : (m.setLit a on).wf = true := by
  rw [Memory.wf_iff] at h ⊢
  exact ⟨h.1, h.2.1, h.2.2.1, rising_markAt h.2.2.2.1, h.2.2.2.2⟩

theorem Memory.wf_setPoison {m : Memory} (a : Nat) (on : Bool) (h : m.wf = true) : (m.setPoison a on).wf = true := by
  rw [Memory.wf_iff] at h ⊢
  exact ⟨h.1, h.2.1, h.2.2.1, h.2.2.2.1, rising_markAt h.2.2.2.2.1, h.2.2.2.2.2⟩

theorem Memory.wf_setEnc {m : Memory} (a n : Nat) (h : m.wf = true) : ({ m with enc := insertAt 0 a n m.enc } : Memory).wf = true := by
  rw [Memory.wf_iff] at h ⊢
  exact ⟨h.1, h.2.1, h.2.2.1, h.2.2.2.1, h.2.2.2.2.1, rising_insertAt _ _ _ h.2.2.2.2.2.1, clean_insertAt _ _ _ h.2.2.2.2.2.2⟩

theorem Memory.setBytes_enc (m : Memory) (a : Nat) (bs : List Byte) : (m.setBytes a bs).enc = m.enc := by
  induction bs generalizing m a with
  | nil => rfl
  | cons b bs ih => exact ih (m.setByte a b) (a + 1)

theorem Memory.wf_recode {m : Memory} (want a : Nat) (h : m.wf = true) : (m.recode want a).wf = true := by
  unfold Memory.recode
  split
  · exact h
  · have := Memory.wf_setEnc (a / 128 * 128) want (Memory.wf_setBytes (a / 128 * 128) (m.viewBytes want (a / 128 * 128) 128) h)
    rw [Memory.setBytes_enc] at this
    exact this

theorem Memory.wf_scrub {m : Memory} (lo len : Nat) (h : m.wf = true) : (m.scrub lo len).wf = true := by
  rw [Memory.wf_iff] at h ⊢
  exact ⟨rising_map_filter (fun a => decide (a < lo) || decide (lo + len ≤ a)) h.1, all_filter _ _ h.2.1, rising_filter _ h.2.2.1,
    rising_filter _ h.2.2.2.1, rising_filter _ h.2.2.2.2.1,
    rising_map_filter (fun a => decide (a < lo) || decide (lo + len ≤ a)) h.2.2.2.2.2.1, all_filter _ _ h.2.2.2.2.2.2⟩

theorem Memory.wf_putTags {m : Memory} (key : Nat) (keep : Bool) (ts : List Bool) (h : m.wf = true) :
    (m.putTags key keep ts).wf = true := by
  induction ts generalizing m key with
  | nil => exact h
  | cons t ts ih => exact ih (key + 8) (Memory.wf_setTag _ _ h)

theorem Memory.wf_clearTags {m : Memory} (key n : Nat) (h : m.wf = true) : (m.clearTags key n).wf = true := by
  induction n generalizing m key with
  | zero => exact h
  | succ n ih => exact ih (key + 1) (Memory.wf_setTag _ _ h)

theorem Memory.wf_performBytes {m : Memory} (site : Site) (bs : List Byte) (tags : List Bool) (h : m.wf = true) :
    (m.performBytes site bs tags).wf = true := by
  have h2 := Memory.wf_setBytes site.key bs (Memory.wf_recode site.enc site.key h)
  unfold Memory.performBytes
  have h3 : (if site.win == .cis then (m.recode site.enc site.key).setBytes site.key bs
      else if bs.length % 8 == 0 && tags.length == bs.length / 8 then
        ((m.recode site.enc site.key).setBytes site.key bs).putTags site.key site.attr.tags tags
      else ((m.recode site.enc site.key).setBytes site.key bs).clearTags site.key bs.length).wf = true := by
    split
    · exact h2
    · split
      · exact Memory.wf_putTags _ _ _ h2
      · exact Memory.wf_clearTags _ _ h2
  simp only
  split
  · exact Memory.wf_setPoison _ _ h3
  · exact h3

theorem wf_clearElems {w key : Nat} {locate : Nat → Option ElemAt} {mask : BitVec 32} (is : List Nat) {m : Memory}
    (h : m.wf = true) : (clearElems w key locate mask is m).wf = true := by
  induction is generalizing m with
  | nil => exact h
  | cons i is ih =>
    simp only [clearElems]
    apply ih
    split
    · split
      · exact Memory.wf_setTag _ _ (Memory.wf_setTag _ _ h)
      · exact h
    · exact h

theorem State.wf_performAt {s : State} (site : Site) (oa : Nat) (d : WData) (h : s.mem.wf = true) :
    (s.performAt site oa d).wf = true := by
  cases d with
  | bytes bs tags => exact Memory.wf_performBytes _ _ _ h
  | elem scaled i code ckd =>
    simp only [State.performAt]
    split
    · exact h
    · split
      · exact h
      · exact Memory.wf_performBytes _ _ _ h
  | group scaled g codes mask x y scale whole =>
    simp only [State.performAt]
    split
    · exact h
    · have h1 := fun (bs : List Byte) => Memory.wf_setBytes site.line.key bs (Memory.wf_recode site.line.enc site.line.key h)
      split
      · split
        · exact Memory.wf_setTag _ _ (Memory.wf_setByte _ _ (Memory.wf_recode _ _ (h1 _)))
        · exact Memory.wf_setTag _ _ (Memory.wf_setByte _ _ (Memory.wf_recode _ _ (wf_clearElems _ (h1 _))))
      · split
        · exact h1 _
        · exact wf_clearElems _ (h1 _)

/-! ## Reading back -/

theorem Memory.byteAt_setByte_same {m : Memory} (a : Nat) (b : Byte) (h : m.wf = true) : (m.setByte a b).byteAt a = b :=
  lookupAt_insertAt_same _ _ _ ((Memory.wf_iff m).mp h).1

theorem Memory.byteAt_setByte_other {m : Memory} {a c : Nat} (b : Byte) (h : c ≠ a) : (m.setByte a b).byteAt c = m.byteAt c :=
  lookupAt_insertAt_other _ _ h

/-- A write of bytes leaves every other byte as it was. -/
theorem Memory.byteAt_setBytes_other {m : Memory} {a c : Nat} {bs : List Byte} (h : c < a ∨ a + bs.length ≤ c) :
    (m.setBytes a bs).byteAt c = m.byteAt c := by
  induction bs generalizing m a with
  | nil => rfl
  | cons b bs ih =>
    simp only [List.length_cons] at h
    simp only [Memory.setBytes]
    rw [ih (by omega), Memory.byteAt_setByte_other b (by omega)]

/-- The bytes that have been written are read back. -/
theorem Memory.bytesAt_setBytes_same {m : Memory} (a : Nat) (bs : List Byte) (h : m.wf = true) :
    (m.setBytes a bs).bytesAt a bs.length = bs := by
  induction bs generalizing m a with
  | nil => rfl
  | cons b bs ih =>
    simp only [Memory.setBytes, List.length_cons, Memory.bytesAt]
    rw [ih (a + 1) (Memory.wf_setByte a b h), Memory.byteAt_setBytes_other (by omega), Memory.byteAt_setByte_same a b h]

end Sys2Proof.Machine
end

