-- ==== Sys2Proof/Laws/PerInstr.lean ====
section
/-!
SUPPORT. One family of statements made for each constructor of `Instr`: what `decode` reads from the word that `encode` gives.
-/
namespace Sys2Proof.Laws

/-! ## Fields of a word that is put together from pieces -/

theorem fld_of (n : Nat) (x : BitVec n) (w : BitVec 32) (hw : x.toNat = w.toNat) (lo len : Nat) :
    fld w lo len = x.extractLsb' lo len := by
  apply BitVec.eq_of_toNat_eq
  simp only [fld, BitVec.extractLsb'_toNat, hw]

theorem hi {n m s len : Nat} {a : BitVec n} {b : BitVec m} {x : BitVec len} (h : m ≤ s) (e : a.extractLsb' (s - m) len = x) :
    (a ++ b).extractLsb' s len = x := (BitVec.extractLsb'_append_eq_of_le h).trans e

theorem lo {n m s len : Nat} {a : BitVec n} {b : BitVec m} {x : BitVec len} (h : s + len ≤ m) (e : b.extractLsb' s len = x) :
    (a ++ b).extractLsb' s len = x := (BitVec.extractLsb'_append_eq_of_add_le h).trans e

theorem ext_all {n : Nat} (a : BitVec n) : a.extractLsb' 0 n = a := by simp

/-! ## Codes read back -/

theorem tyc (t : Ty) : Ty.ofCode t.code = some t := by cases t <;> rfl
theorem amc (t : Am) : Am.ofCode t.code = t := by cases t <;> rfl
theorem rndc (r : Rnd) : Rnd.ofCode r.code = some r := by cases r <;> rfl
theorem srcc (x : MovSrc) : MovSrc.ofCode x.code = some x := by cases x <;> rfl
theorem dstc (x : MovDst) : MovDst.ofCode x.code = x := by cases x <;> rfl
theorem tnc (t : TokName) : tokNameOf (tokNameCode t) = some t := by
  match t with
  | none => rfl
  | some 0 => rfl
  | some 1 => rfl
  | some 2 => rfl
  | some 3 => rfl
theorem sizec (b : Bool) : amoSizeOf (amoSizeCode b) = some b := by cases b <;> rfl
theorem fin2 (p : Fin 4) : (BitVec.ofFin (w := 2) p).toFin = p := rfl
theorem fin3 (p : Fin 8) : (BitVec.ofFin (w := 3) p).toFin = p := rfl
theorem fin4 (p : Fin 16) : (BitVec.ofFin (w := 4) p).toFin = p := rfl
theorem bool1 (b : Bool) : (BitVec.ofBool b == 1#1) = b := by cases b <;> rfl

/-! ## The majors (R227) -/

theorem raw_01 (w : BitVec 32) (h : fld w 26 6 = 1#6) : decodeRaw w = decode01 w := by unfold decodeRaw; rw [h]; rfl
theorem raw_02 (w : BitVec 32) (h : fld w 26 6 = 2#6) : decodeRaw w = decode02 w := by unfold decodeRaw; rw [h]; rfl
theorem raw_03 (w : BitVec 32) (h : fld w 26 6 = 3#6) : decodeRaw w = decode03 w := by unfold decodeRaw; rw [h]; rfl
theorem raw_04 (w : BitVec 32) (h : fld w 26 6 = 4#6) : decodeRaw w = decode04 w := by unfold decodeRaw; rw [h]; rfl
theorem raw_05 (w : BitVec 32) (h : fld w 26 6 = 5#6) : decodeRaw w = decode05 w := by unfold decodeRaw; rw [h]; rfl
theorem raw_06 (w : BitVec 32) (h : fld w 26 6 = 6#6) : decodeRaw w = decode06 w := by unfold decodeRaw; rw [h]; rfl
theorem raw_08 (w : BitVec 32) (h : fld w 26 6 = 8#6) : decodeRaw w = decode08 w := by unfold decodeRaw; rw [h]; rfl
theorem raw_09 (w : BitVec 32) (h : fld w 26 6 = 9#6) : decodeRaw w = decode09 w := by unfold decodeRaw; rw [h]; rfl
theorem raw_0A (w : BitVec 32) (h : fld w 26 6 = 10#6) : decodeRaw w = decode0A w := by unfold decodeRaw; rw [h]; rfl
theorem raw_0B (w : BitVec 32) (h : fld w 26 6 = 11#6) : decodeRaw w = decode0B w := by unfold decodeRaw; rw [h]; rfl
theorem raw_0C (w : BitVec 32) (h : fld w 26 6 = 12#6) : decodeRaw w = decode0C w := by unfold decodeRaw; rw [h]; rfl
theorem raw_10 (w : BitVec 32) (h : fld w 26 6 = 16#6) : decodeRaw w = decode10 w := by unfold decodeRaw; rw [h]; rfl
theorem raw_11 (w : BitVec 32) (h : fld w 26 6 = 17#6) : decodeRaw w = decode11 w := by unfold decodeRaw; rw [h]; rfl
theorem raw_12 (w : BitVec 32) (h : fld w 26 6 = 18#6) : decodeRaw w = decode12 w := by unfold decodeRaw; rw [h]; rfl
theorem raw_13 (w : BitVec 32) (h : fld w 26 6 = 19#6) : decodeRaw w = decode13 w := by unfold decodeRaw; rw [h]; rfl
theorem raw_18 (w : BitVec 32) (h : fld w 26 6 = 24#6) : decodeRaw w = decode18 w := by unfold decodeRaw; rw [h]; rfl
theorem raw_19 (w : BitVec 32) (h : fld w 26 6 = 25#6) : decodeRaw w = decode19 w := by unfold decodeRaw; rw [h]; rfl
theorem raw_1A (w : BitVec 32) (h : fld w 26 6 = 26#6) : decodeRaw w = decode1A w := by unfold decodeRaw; rw [h]; rfl
theorem raw_1B (w : BitVec 32) (h : fld w 26 6 = 27#6) : decodeRaw w = decode1B w := by unfold decodeRaw; rw [h]; rfl
theorem raw_1C (w : BitVec 32) (h : fld w 26 6 = 28#6) : decodeRaw w = decode1C w := by unfold decodeRaw; rw [h]; rfl
theorem raw_20 (w : BitVec 32) (h : fld w 26 6 = 32#6) : decodeRaw w = decode20 w := by unfold decodeRaw; rw [h]; rfl
theorem raw_21 (w : BitVec 32) (h : fld w 26 6 = 33#6) : decodeRaw w = decode21 w := by unfold decodeRaw; rw [h]; rfl
theorem raw_28 (w : BitVec 32) (h : fld w 26 6 = 40#6) : decodeRaw w = decode28 w := by unfold decodeRaw; rw [h]; rfl
theorem raw_29 (w : BitVec 32) (h : fld w 26 6 = 41#6) : decodeRaw w = decode29 w := by unfold decodeRaw; rw [h]; rfl
theorem raw_2A (w : BitVec 32) (h : fld w 26 6 = 42#6) : decodeRaw w = decode2A w := by unfold decodeRaw; rw [h]; rfl
theorem raw_2B (w : BitVec 32) (h : fld w 26 6 = 43#6) : decodeRaw w = decode2B w := by unfold decodeRaw; rw [h]; rfl
theorem raw_2C (w : BitVec 32) (h : fld w 26 6 = 44#6) : decodeRaw w = decode2C w := by unfold decodeRaw; rw [h]; rfl
theorem raw_2D (w : BitVec 32) (h : fld w 26 6 = 45#6) : decodeRaw w = decode2D w := by unfold decodeRaw; rw [h]; rfl
theorem raw_2E (w : BitVec 32) (h : fld w 26 6 = 46#6) : decodeRaw w = decode2E w := by unfold decodeRaw; rw [h]; rfl
theorem raw_2F (w : BitVec 32) (h : fld w 26 6 = 47#6) : decodeRaw w = decode2F w := by unfold decodeRaw; rw [h]; rfl
theorem raw_30 (w : BitVec 32) (h : fld w 26 6 = 48#6) : decodeRaw w = decode30 w := by unfold decodeRaw; rw [h]; rfl
theorem raw_31 (w : BitVec 32) (h : fld w 26 6 = 49#6) : decodeRaw w = decode31 w := by unfold decodeRaw; rw [h]; rfl
theorem raw_32 (w : BitVec 32) (h : fld w 26 6 = 50#6) : decodeRaw w = decode32 w := by unfold decodeRaw; rw [h]; rfl
theorem raw_38 (w : BitVec 32) (h : fld w 26 6 = 56#6) : decodeRaw w = decode38 w := by unfold decodeRaw; rw [h]; rfl
theorem raw_3F (w : BitVec 32) (h : fld w 26 6 = 63#6) : decodeRaw w = decode3F w := by unfold decodeRaw; rw [h]; rfl

/-- A decoded instruction is accepted where it is well formed. -/
theorem ok_of (w : BitVec 32) (i : Instr) (h : decodeRaw w = .ok i) (hw : i.wf = true) : decode w = .ok i := by
  unfold decode; rw [h]; simp only [hw, if_true]

/-! ## The family -/

/-- The word of a well-formed instruction decodes to it. -/
def RoundTrip.Statement (i : Instr) : Prop := ∀ w : BitVec 32, i.wf = true → encode i = some w → decode w = .ok i

theorem no_word (i : Instr) (h : encode i = none) : RoundTrip.Statement i := by
  intro w _ e; rw [h] at e; cases e

theorem RoundTrip.pmov (pd : PReg) (ps : PReg) : RoundTrip.Statement (.pmov pd ps) := by
  intro word h e
  have e : (1#6 ++ (BitVec.ofFin (w := 3) pd) ++ (BitVec.ofFin (w := 3) ps) ++ 0#4 ++ 0#16 : BitVec 32) = word := Option.some.inj e
  have f := fld_of (6+3+3+4+16) _ word (congrArg BitVec.toNat e)
  have f1 : fld word 26 6 = 1#6 := (f _ _).trans <| hi (by decide) <| hi (by decide) <| hi (by decide) <| hi (by decide) <| ext_all _
  have f2 : fld word 23 3 = (BitVec.ofFin (w := 3) pd) := (f _ _).trans <| hi (by decide) <| hi (by decide) <| hi (by decide) <| lo (by decide) (ext_all _)
  have f3 : fld word 20 3 = (BitVec.ofFin (w := 3) ps) := (f _ _).trans <| hi (by decide) <| hi (by decide) <| lo (by decide) (ext_all _)
  have f4 : fld word 16 4 = 0#4 := (f _ _).trans <| hi (by decide) <| lo (by decide) (ext_all _)
  have f5 : fld word 0 16 = 0#16 := (f _ _).trans <| lo (by decide) (ext_all _)
  refine ok_of word _ ?_ h
  rw [raw_01 word f1]; unfold decode01; rw [f4]
  simp only [f2, f3, f5, BitVec.reduceToNat, pregAt, fin3, needZero, beq_self_eq_true, if_true]

theorem RoundTrip.padd (pd : PReg) (ps : PReg) : RoundTrip.Statement (.padd pd ps) := by
  intro word h e
  have e : (1#6 ++ (BitVec.ofFin (w := 3) pd) ++ (BitVec.ofFin (w := 3) ps) ++ 1#4 ++ 0#16 : BitVec 32) = word := Option.some.inj e
  have f := fld_of (6+3+3+4+16) _ word (congrArg BitVec.toNat e)
  have f1 : fld word 26 6 = 1#6 := (f _ _).trans <| hi (by decide) <| hi (by decide) <| hi (by decide) <| hi (by decide) <| ext_all _
  have f2 : fld word 23 3 = (BitVec.ofFin (w := 3) pd) := (f _ _).trans <| hi (by decide) <| hi (by decide) <| hi (by decide) <| lo (by decide) (ext_all _)
  have f3 : fld word 20 3 = (BitVec.ofFin (w := 3) ps) := (f _ _).trans <| hi (by decide) <| hi (by decide) <| lo (by decide) (ext_all _)
  have f4 : fld word 16 4 = 1#4 := (f _ _).trans <| hi (by decide) <| lo (by decide) (ext_all _)
  have f5 : fld word 0 16 = 0#16 := (f _ _).trans <| lo (by decide) (ext_all _)
  refine ok_of word _ ?_ h
  rw [raw_01 word f1]; unfold decode01; rw [f4]
  simp only [f2, f3, f5, BitVec.reduceToNat, pregAt, fin3, needZero, beq_self_eq_true, if_true]

theorem RoundTrip.psub (pd : PReg) (ps : PReg) : RoundTrip.Statement (.psub pd ps) := by
  intro word h e
  have e : (1#6 ++ (BitVec.ofFin (w := 3) pd) ++ (BitVec.ofFin (w := 3) ps) ++ 2#4 ++ 0#16 : BitVec 32) = word := Option.some.inj e
  have f := fld_of (6+3+3+4+16) _ word (congrArg BitVec.toNat e)
  have f1 : fld word 26 6 = 1#6 := (f _ _).trans <| hi (by decide) <| hi (by decide) <| hi (by decide) <| hi (by decide) <| ext_all _
  have f2 : fld word 23 3 = (BitVec.ofFin (w := 3) pd) := (f _ _).trans <| hi (by decide) <| hi (by decide) <| hi (by decide) <| lo (by decide) (ext_all _)
  have f3 : fld word 20 3 = (BitVec.ofFin (w := 3) ps) := (f _ _).trans <| hi (by decide) <| hi (by decide) <| lo (by decide) (ext_all _)
  have f4 : fld word 16 4 = 2#4 := (f _ _).trans <| hi (by decide) <| lo (by decide) (ext_all _)
  have f5 : fld word 0 16 = 0#16 := (f _ _).trans <| lo (by decide) (ext_all _)
  refine ok_of word _ ?_ h
  rw [raw_01 word f1]; unfold decode01; rw [f4]
  simp only [f2, f3, f5, BitVec.reduceToNat, pregAt, fin3, needZero, beq_self_eq_true, if_true]

theorem RoundTrip.paddi (pd : PReg) (ps : PReg) (imm : BitVec 16) : RoundTrip.Statement (.paddi pd ps imm) := by
  intro word h e
  have e : (1#6 ++ (BitVec.ofFin (w := 3) pd) ++ (BitVec.ofFin (w := 3) ps) ++ 3#4 ++ imm : BitVec 32) = word := Option.some.inj e
  have f := fld_of (6+3+3+4+16) _ word (congrArg BitVec.toNat e)
  have f1 : fld word 26 6 = 1#6 := (f _ _).trans <| hi (by decide) <| hi (by decide) <| hi (by decide) <| hi (by decide) <| ext_all _
  have f2 : fld word 23 3 = (BitVec.ofFin (w := 3) pd) := (f _ _).trans <| hi (by decide) <| hi (by decide) <| hi (by decide) <| lo (by decide) (ext_all _)
  have f3 : fld word 20 3 = (BitVec.ofFin (w := 3) ps) := (f _ _).trans <| hi (by decide) <| hi (by decide) <| lo (by decide) (ext_all _)
  have f4 : fld word 16 4 = 3#4 := (f _ _).trans <| hi (by decide) <| lo (by decide) (ext_all _)
  have f5 : fld word 0 16 = imm := (f _ _).trans <| lo (by decide) (ext_all _)
  refine ok_of word _ ?_ h
  rw [raw_01 word f1]; unfold decode01; rw [f4]
  simp only [f2, f3, f5, BitVec.reduceToNat, pregAt, fin3]

theorem RoundTrip.pand (pd : PReg) (ps : PReg) : RoundTrip.Statement (.pand pd ps) := by
  intro word h e
  have e : (1#6 ++ (BitVec.ofFin (w := 3) pd) ++ (BitVec.ofFin (w := 3) ps) ++ 4#4 ++ 0#16 : BitVec 32) = word := Option.some.inj e
  have f := fld_of (6+3+3+4+16) _ word (congrArg BitVec.toNat e)
  have f1 : fld word 26 6 = 1#6 := (f _ _).trans <| hi (by decide) <| hi (by decide) <| hi (by decide) <| hi (by decide) <| ext_all _
  have f2 : fld word 23 3 = (BitVec.ofFin (w := 3) pd) := (f _ _).trans <| hi (by decide) <| hi (by decide) <| hi (by decide) <| lo (by decide) (ext_all _)
  have f3 : fld word 20 3 = (BitVec.ofFin (w := 3) ps) := (f _ _).trans <| hi (by decide) <| hi (by decide) <| lo (by decide) (ext_all _)
  have f4 : fld word 16 4 = 4#4 := (f _ _).trans <| hi (by decide) <| lo (by decide) (ext_all _)
  have f5 : fld word 0 16 = 0#16 := (f _ _).trans <| lo (by decide) (ext_all _)
  refine ok_of word _ ?_ h
  rw [raw_01 word f1]; unfold decode01; rw [f4]
  simp only [f2, f3, f5, BitVec.reduceToNat, pregAt, fin3, needZero, beq_self_eq_true, if_true]

theorem RoundTrip.por (pd : PReg) (ps : PReg) : RoundTrip.Statement (.por pd ps) := by
  intro word h e
  have e : (1#6 ++ (BitVec.ofFin (w := 3) pd) ++ (BitVec.ofFin (w := 3) ps) ++ 5#4 ++ 0#16 : BitVec 32) = word := Option.some.inj e
  have f := fld_of (6+3+3+4+16) _ word (congrArg BitVec.toNat e)
  have f1 : fld word 26 6 = 1#6 := (f _ _).trans <| hi (by decide) <| hi (by decide) <| hi (by decide) <| hi (by decide) <| ext_all _
  have f2 : fld word 23 3 = (BitVec.ofFin (w := 3) pd) := (f _ _).trans <| hi (by decide) <| hi (by decide) <| hi (by decide) <| lo (by decide) (ext_all _)
  have f3 : fld word 20 3 = (BitVec.ofFin (w := 3) ps) := (f _ _).trans <| hi (by decide) <| hi (by decide) <| lo (by decide) (ext_all _)
  have f4 : fld word 16 4 = 5#4 := (f _ _).trans <| hi (by decide) <| lo (by decide) (ext_all _)
  have f5 : fld word 0 16 = 0#16 := (f _ _).trans <| lo (by decide) (ext_all _)
  refine ok_of word _ ?_ h
  rw [raw_01 word f1]; unfold decode01; rw [f4]
  simp only [f2, f3, f5, BitVec.reduceToNat, pregAt, fin3, needZero, beq_self_eq_true, if_true]

theorem RoundTrip.pxor (pd : PReg) (ps : PReg) : RoundTrip.Statement (.pxor pd ps) := by
  intro word h e
  have e : (1#6 ++ (BitVec.ofFin (w := 3) pd) ++ (BitVec.ofFin (w := 3) ps) ++ 6#4 ++ 0#16 : BitVec 32) = word := Option.some.inj e
  have f := fld_of (6+3+3+4+16) _ word (congrArg BitVec.toNat e)
  have f1 : fld word 26 6 = 1#6 := (f _ _).trans <| hi (by decide) <| hi (by decide) <| hi (by decide) <| hi (by decide) <| ext_all _
  have f2 : fld word 23 3 = (BitVec.ofFin (w := 3) pd) := (f _ _).trans <| hi (by decide) <| hi (by decide) <| hi (by decide) <| lo (by decide) (ext_all _)
  have f3 : fld word 20 3 = (BitVec.ofFin (w := 3) ps) := (f _ _).trans <| hi (by decide) <| hi (by decide) <| lo (by decide) (ext_all _)
  have f4 : fld word 16 4 = 6#4 := (f _ _).trans <| hi (by decide) <| lo (by decide) (ext_all _)
  have f5 : fld word 0 16 = 0#16 := (f _ _).trans <| lo (by decide) (ext_all _)
  refine ok_of word _ ?_ h
  rw [raw_01 word f1]; unfold decode01; rw [f4]
  simp only [f2, f3, f5, BitVec.reduceToNat, pregAt, fin3, needZero, beq_self_eq_true, if_true]

theorem RoundTrip.pshl (pd : PReg) (ps : PReg) (n : BitVec 6) : RoundTrip.Statement (.pshl pd ps n) := by
  intro word h e
  have e : (1#6 ++ (BitVec.ofFin (w := 3) pd) ++ (BitVec.ofFin (w := 3) ps) ++ 7#4 ++ 0#10 ++ n : BitVec 32) = word := Option.some.inj e
  have f := fld_of (6+3+3+4+10+6) _ word (congrArg BitVec.toNat e)
  have f1 : fld word 26 6 = 1#6 := (f _ _).trans <| hi (by decide) <| hi (by decide) <| hi (by decide) <| hi (by decide) <| hi (by decide) <| ext_all _
  have f2 : fld word 23 3 = (BitVec.ofFin (w := 3) pd) := (f _ _).trans <| hi (by decide) <| hi (by decide) <| hi (by decide) <| hi (by decide) <| lo (by decide) (ext_all _)
  have f3 : fld word 20 3 = (BitVec.ofFin (w := 3) ps) := (f _ _).trans <| hi (by decide) <| hi (by decide) <| hi (by decide) <| lo (by decide) (ext_all _)
  have f4 : fld word 16 4 = 7#4 := (f _ _).trans <| hi (by decide) <| hi (by decide) <| lo (by decide) (ext_all _)
  have f5 : fld word 6 10 = 0#10 := (f _ _).trans <| hi (by decide) <| lo (by decide) (ext_all _)
  have f6 : fld word 0 6 = n := (f _ _).trans <| lo (by decide) (ext_all _)
  refine ok_of word _ ?_ h
  rw [raw_01 word f1]; unfold decode01; rw [f4]
  simp only [f2, f3, f5, f6, BitVec.reduceToNat, pregAt, fin3, needZero, beq_self_eq_true, if_true]

theorem RoundTrip.pshr (pd : PReg) (ps : PReg) (n : BitVec 6) : RoundTrip.Statement (.pshr pd ps n) := by
  intro word h e
  have e : (1#6 ++ (BitVec.ofFin (w := 3) pd) ++ (BitVec.ofFin (w := 3) ps) ++ 8#4 ++ 0#10 ++ n : BitVec 32) = word := Option.some.inj e
  have f := fld_of (6+3+3+4+10+6) _ word (congrArg BitVec.toNat e)
  have f1 : fld word 26 6 = 1#6 := (f _ _).trans <| hi (by decide) <| hi (by decide) <| hi (by decide) <| hi (by decide) <| hi (by decide) <| ext_all _
  have f2 : fld word 23 3 = (BitVec.ofFin (w := 3) pd) := (f _ _).trans <| hi (by decide) <| hi (by decide) <| hi (by decide) <| hi (by decide) <| lo (by decide) (ext_all _)
  have f3 : fld word 20 3 = (BitVec.ofFin (w := 3) ps) := (f _ _).trans <| hi (by decide) <| hi (by decide) <| hi (by decide) <| lo (by decide) (ext_all _)
  have f4 : fld word 16 4 = 8#4 := (f _ _).trans <| hi (by decide) <| hi (by decide) <| lo (by decide) (ext_all _)
  have f5 : fld word 6 10 = 0#10 := (f _ _).trans <| hi (by decide) <| lo (by decide) (ext_all _)
  have f6 : fld word 0 6 = n := (f _ _).trans <| lo (by decide) (ext_all _)
  refine ok_of word _ ?_ h
  rw [raw_01 word f1]; unfold decode01; rw [f4]
  simp only [f2, f3, f5, f6, BitVec.reduceToNat, pregAt, fin3, needZero, beq_self_eq_true, if_true]

theorem RoundTrip.pset (pd : PReg) (imm : BitVec 16) : RoundTrip.Statement (.pset pd imm) := by
  intro word h e
  have e : (1#6 ++ (BitVec.ofFin (w := 3) pd) ++ 0#3 ++ 9#4 ++ imm : BitVec 32) = word := Option.some.inj e
  have f := fld_of (6+3+3+4+16) _ word (congrArg BitVec.toNat e)
  have f1 : fld word 26 6 = 1#6 := (f _ _).trans <| hi (by decide) <| hi (by decide) <| hi (by decide) <| hi (by decide) <| ext_all _
  have f2 : fld word 23 3 = (BitVec.ofFin (w := 3) pd) := (f _ _).trans <| hi (by decide) <| hi (by decide) <| hi (by decide) <| lo (by decide) (ext_all _)
  have f3 : fld word 20 3 = 0#3 := (f _ _).trans <| hi (by decide) <| hi (by decide) <| lo (by decide) (ext_all _)
  have f4 : fld word 16 4 = 9#4 := (f _ _).trans <| hi (by decide) <| lo (by decide) (ext_all _)
  have f5 : fld word 0 16 = imm := (f _ _).trans <| lo (by decide) (ext_all _)
  refine ok_of word _ ?_ h
  rw [raw_01 word f1]; unfold decode01; rw [f4]
  simp only [f2, f3, f5, BitVec.reduceToNat, pregAt, fin3, needZero, beq_self_eq_true, if_true]

theorem RoundTrip.pseth (pd : PReg) (imm : BitVec 16) : RoundTrip.Statement (.pseth pd imm) := by
  intro word h e
  have e : (1#6 ++ (BitVec.ofFin (w := 3) pd) ++ 0#3 ++ 10#4 ++ imm : BitVec 32) = word := Option.some.inj e
  have f := fld_of (6+3+3+4+16) _ word (congrArg BitVec.toNat e)
  have f1 : fld word 26 6 = 1#6 := (f _ _).trans <| hi (by decide) <| hi (by decide) <| hi (by decide) <| hi (by decide) <| ext_all _
  have f2 : fld word 23 3 = (BitVec.ofFin (w := 3) pd) := (f _ _).trans <| hi (by decide) <| hi (by decide) <| hi (by decide) <| lo (by decide) (ext_all _)
  have f3 : fld word 20 3 = 0#3 := (f _ _).trans <| hi (by decide) <| hi (by decide) <| lo (by decide) (ext_all _)
  have f4 : fld word 16 4 = 10#4 := (f _ _).trans <| hi (by decide) <| lo (by decide) (ext_all _)
  have f5 : fld word 0 16 = imm := (f _ _).trans <| lo (by decide) (ext_all _)
  refine ok_of word _ ?_ h
  rw [raw_01 word f1]; unfold decode01; rw [f4]
  simp only [f2, f3, f5, BitVec.reduceToNat, pregAt, fin3, needZero, beq_self_eq_true, if_true]

theorem RoundTrip.pstep (pd : PReg) (imm : BitVec 16) : RoundTrip.Statement (.pstep pd imm) := by
  intro word h e
  have e : (1#6 ++ (BitVec.ofFin (w := 3) pd) ++ 0#3 ++ 11#4 ++ imm : BitVec 32) = word := Option.some.inj e
  have f := fld_of (6+3+3+4+16) _ word (congrArg BitVec.toNat e)
  have f1 : fld word 26 6 = 1#6 := (f _ _).trans <| hi (by decide) <| hi (by decide) <| hi (by decide) <| hi (by decide) <| ext_all _
  have f2 : fld word 23 3 = (BitVec.ofFin (w := 3) pd) := (f _ _).trans <| hi (by decide) <| hi (by decide) <| hi (by decide) <| lo (by decide) (ext_all _)
  have f3 : fld word 20 3 = 0#3 := (f _ _).trans <| hi (by decide) <| hi (by decide) <| lo (by decide) (ext_all _)
  have f4 : fld word 16 4 = 11#4 := (f _ _).trans <| hi (by decide) <| lo (by decide) (ext_all _)
  have f5 : fld word 0 16 = imm := (f _ _).trans <| lo (by decide) (ext_all _)
  refine ok_of word _ ?_ h
  rw [raw_01 word f1]; unfold decode01; rw [f4]
  simp only [f2, f3, f5, BitVec.reduceToNat, pregAt, fin3, needZero, beq_self_eq_true, if_true]

theorem RoundTrip.pscal (pd : PReg) (ps : PReg) (n : BitVec 3) : RoundTrip.Statement (.pscal pd ps n) := by
  intro word h e
  have e : (1#6 ++ (BitVec.ofFin (w := 3) pd) ++ (BitVec.ofFin (w := 3) ps) ++ 12#4 ++ 0#13 ++ n : BitVec 32) = word := Option.some.inj e
  have f := fld_of (6+3+3+4+13+3) _ word (congrArg BitVec.toNat e)
  have f1 : fld word 26 6 = 1#6 := (f _ _).trans <| hi (by decide) <| hi (by decide) <| hi (by decide) <| hi (by decide) <| hi (by decide) <| ext_all _
  have f2 : fld word 23 3 = (BitVec.ofFin (w := 3) pd) := (f _ _).trans <| hi (by decide) <| hi (by decide) <| hi (by decide) <| hi (by decide) <| lo (by decide) (ext_all _)
  have f3 : fld word 20 3 = (BitVec.ofFin (w := 3) ps) := (f _ _).trans <| hi (by decide) <| hi (by decide) <| hi (by decide) <| lo (by decide) (ext_all _)
  have f4 : fld word 16 4 = 12#4 := (f _ _).trans <| hi (by decide) <| hi (by decide) <| lo (by decide) (ext_all _)
  have f5 : fld word 3 13 = 0#13 := (f _ _).trans <| hi (by decide) <| lo (by decide) (ext_all _)
  have f6 : fld word 0 3 = n := (f _ _).trans <| lo (by decide) (ext_all _)
  refine ok_of word _ ?_ h
  rw [raw_01 word f1]; unfold decode01; rw [f4]
  simp only [f2, f3, f5, f6, BitVec.reduceToNat, pregAt, fin3, needZero, beq_self_eq_true, if_true]

theorem RoundTrip.mkref (pd : PReg) (ps : PReg) : RoundTrip.Statement (.mkref pd ps) := by
  intro word h e
  have e : (1#6 ++ (BitVec.ofFin (w := 3) pd) ++ (BitVec.ofFin (w := 3) ps) ++ 13#4 ++ 0#16 : BitVec 32) = word := Option.some.inj e
  have f := fld_of (6+3+3+4+16) _ word (congrArg BitVec.toNat e)
  have f1 : fld word 26 6 = 1#6 := (f _ _).trans <| hi (by decide) <| hi (by decide) <| hi (by decide) <| hi (by decide) <| ext_all _
  have f2 : fld word 23 3 = (BitVec.ofFin (w := 3) pd) := (f _ _).trans <| hi (by decide) <| hi (by decide) <| hi (by decide) <| lo (by decide) (ext_all _)
  have f3 : fld word 20 3 = (BitVec.ofFin (w := 3) ps) := (f _ _).trans <| hi (by decide) <| hi (by decide) <| lo (by decide) (ext_all _)
  have f4 : fld word 16 4 = 13#4 := (f _ _).trans <| hi (by decide) <| lo (by decide) (ext_all _)
  have f5 : fld word 0 16 = 0#16 := (f _ _).trans <| lo (by decide) (ext_all _)
  refine ok_of word _ ?_ h
  rw [raw_01 word f1]; unfold decode01; rw [f4]
  simp only [f2, f3, f5, BitVec.reduceToNat, pregAt, fin3, needZero, beq_self_eq_true, if_true]

theorem RoundTrip.pclr (pd : PReg) : RoundTrip.Statement (.pclr pd) := by
  intro word h e
  have e : (1#6 ++ (BitVec.ofFin (w := 3) pd) ++ 0#3 ++ 14#4 ++ 0#16 : BitVec 32) = word := Option.some.inj e
  have f := fld_of (6+3+3+4+16) _ word (congrArg BitVec.toNat e)
  have f1 : fld word 26 6 = 1#6 := (f _ _).trans <| hi (by decide) <| hi (by decide) <| hi (by decide) <| hi (by decide) <| ext_all _
  have f2 : fld word 23 3 = (BitVec.ofFin (w := 3) pd) := (f _ _).trans <| hi (by decide) <| hi (by decide) <| hi (by decide) <| lo (by decide) (ext_all _)
  have f3 : fld word 20 3 = 0#3 := (f _ _).trans <| hi (by decide) <| hi (by decide) <| lo (by decide) (ext_all _)
  have f4 : fld word 16 4 = 14#4 := (f _ _).trans <| hi (by decide) <| lo (by decide) (ext_all _)
  have f5 : fld word 0 16 = 0#16 := (f _ _).trans <| lo (by decide) (ext_all _)
  refine ok_of word _ ?_ h
  rw [raw_01 word f1]; unfold decode01; rw [f4]
  simp only [f2, f3, f5, BitVec.reduceToNat, pregAt, fin3, needZero, beq_self_eq_true, if_true, Bool.and_self]

theorem RoundTrip.pbeq (pd : PReg) (ps : PReg) (off : BitVec 16) : RoundTrip.Statement (.pbeq pd ps off) := by
  intro word h e
  have e : (2#6 ++ (BitVec.ofFin (w := 3) pd) ++ (BitVec.ofFin (w := 3) ps) ++ 0#4 ++ off : BitVec 32) = word := Option.some.inj e
  have f := fld_of (6+3+3+4+16) _ word (congrArg BitVec.toNat e)
  have f1 : fld word 26 6 = 2#6 := (f _ _).trans <| hi (by decide) <| hi (by decide) <| hi (by decide) <| hi (by decide) <| ext_all _
  have f2 : fld word 23 3 = (BitVec.ofFin (w := 3) pd) := (f _ _).trans <| hi (by decide) <| hi (by decide) <| hi (by decide) <| lo (by decide) (ext_all _)
  have f3 : fld word 20 3 = (BitVec.ofFin (w := 3) ps) := (f _ _).trans <| hi (by decide) <| hi (by decide) <| lo (by decide) (ext_all _)
  have f4 : fld word 16 4 = 0#4 := (f _ _).trans <| hi (by decide) <| lo (by decide) (ext_all _)
  have f5 : fld word 0 16 = off := (f _ _).trans <| lo (by decide) (ext_all _)
  refine ok_of word _ ?_ h
  rw [raw_02 word f1]; unfold decode02; rw [f4]
  simp only [f2, f3, f5, BitVec.reduceToNat, pregAt, fin3]

theorem RoundTrip.pbne (pd : PReg) (ps : PReg) (off : BitVec 16) : RoundTrip.Statement (.pbne pd ps off) := by
  intro word h e
  have e : (2#6 ++ (BitVec.ofFin (w := 3) pd) ++ (BitVec.ofFin (w := 3) ps) ++ 1#4 ++ off : BitVec 32) = word := Option.some.inj e
  have f := fld_of (6+3+3+4+16) _ word (congrArg BitVec.toNat e)
  have f1 : fld word 26 6 = 2#6 := (f _ _).trans <| hi (by decide) <| hi (by decide) <| hi (by decide) <| hi (by decide) <| ext_all _
  have f2 : fld word 23 3 = (BitVec.ofFin (w := 3) pd) := (f _ _).trans <| hi (by decide) <| hi (by decide) <| hi (by decide) <| lo (by decide) (ext_all _)
  have f3 : fld word 20 3 = (BitVec.ofFin (w := 3) ps) := (f _ _).trans <| hi (by decide) <| hi (by decide) <| lo (by decide) (ext_all _)
  have f4 : fld word 16 4 = 1#4 := (f _ _).trans <| hi (by decide) <| lo (by decide) (ext_all _)
  have f5 : fld word 0 16 = off := (f _ _).trans <| lo (by decide) (ext_all _)
  refine ok_of word _ ?_ h
  rw [raw_02 word f1]; unfold decode02; rw [f4]
  simp only [f2, f3, f5, BitVec.reduceToNat, pregAt, fin3]

theorem RoundTrip.pblt (pd : PReg) (ps : PReg) (off : BitVec 16) : RoundTrip.Statement (.pblt pd ps off) := by
  intro word h e
  have e : (2#6 ++ (BitVec.ofFin (w := 3) pd) ++ (BitVec.ofFin (w := 3) ps) ++ 2#4 ++ off : BitVec 32) = word := Option.some.inj e
  have f := fld_of (6+3+3+4+16) _ word (congrArg BitVec.toNat e)
  have f1 : fld word 26 6 = 2#6 := (f _ _).trans <| hi (by decide) <| hi (by decide) <| hi (by decide) <| hi (by decide) <| ext_all _
  have f2 : fld word 23 3 = (BitVec.ofFin (w := 3) pd) := (f _ _).trans <| hi (by decide) <| hi (by decide) <| hi (by decide) <| lo (by decide) (ext_all _)
  have f3 : fld word 20 3 = (BitVec.ofFin (w := 3) ps) := (f _ _).trans <| hi (by decide) <| hi (by decide) <| lo (by decide) (ext_all _)
  have f4 : fld word 16 4 = 2#4 := (f _ _).trans <| hi (by decide) <| lo (by decide) (ext_all _)
  have f5 : fld word 0 16 = off := (f _ _).trans <| lo (by decide) (ext_all _)
  refine ok_of word _ ?_ h
  rw [raw_02 word f1]; unfold decode02; rw [f4]
  simp only [f2, f3, f5, BitVec.reduceToNat, pregAt, fin3]

theorem RoundTrip.pbge (pd : PReg) (ps : PReg) (off : BitVec 16) : RoundTrip.Statement (.pbge pd ps off) := by
  intro word h e
  have e : (2#6 ++ (BitVec.ofFin (w := 3) pd) ++ (BitVec.ofFin (w := 3) ps) ++ 3#4 ++ off : BitVec 32) = word := Option.some.inj e
  have f := fld_of (6+3+3+4+16) _ word (congrArg BitVec.toNat e)
  have f1 : fld word 26 6 = 2#6 := (f _ _).trans <| hi (by decide) <| hi (by decide) <| hi (by decide) <| hi (by decide) <| ext_all _
  have f2 : fld word 23 3 = (BitVec.ofFin (w := 3) pd) := (f _ _).trans <| hi (by decide) <| hi (by decide) <| hi (by decide) <| lo (by decide) (ext_all _)
  have f3 : fld word 20 3 = (BitVec.ofFin (w := 3) ps) := (f _ _).trans <| hi (by decide) <| hi (by decide) <| lo (by decide) (ext_all _)
  have f4 : fld word 16 4 = 3#4 := (f _ _).trans <| hi (by decide) <| lo (by decide) (ext_all _)
  have f5 : fld word 0 16 = off := (f _ _).trans <| lo (by decide) (ext_all _)
  refine ok_of word _ ?_ h
  rw [raw_02 word f1]; unfold decode02; rw [f4]
  simp only [f2, f3, f5, BitVec.reduceToNat, pregAt, fin3]

theorem RoundTrip.pbltu (pd : PReg) (ps : PReg) (off : BitVec 16) : RoundTrip.Statement (.pbltu pd ps off) := by
  intro word h e
  have e : (2#6 ++ (BitVec.ofFin (w := 3) pd) ++ (BitVec.ofFin (w := 3) ps) ++ 4#4 ++ off : BitVec 32) = word := Option.some.inj e
  have f := fld_of (6+3+3+4+16) _ word (congrArg BitVec.toNat e)
  have f1 : fld word 26 6 = 2#6 := (f _ _).trans <| hi (by decide) <| hi (by decide) <| hi (by decide) <| hi (by decide) <| ext_all _
  have f2 : fld word 23 3 = (BitVec.ofFin (w := 3) pd) := (f _ _).trans <| hi (by decide) <| hi (by decide) <| hi (by decide) <| lo (by decide) (ext_all _)
  have f3 : fld word 20 3 = (BitVec.ofFin (w := 3) ps) := (f _ _).trans <| hi (by decide) <| hi (by decide) <| lo (by decide) (ext_all _)
  have f4 : fld word 16 4 = 4#4 := (f _ _).trans <| hi (by decide) <| lo (by decide) (ext_all _)
  have f5 : fld word 0 16 = off := (f _ _).trans <| lo (by decide) (ext_all _)
  refine ok_of word _ ?_ h
  rw [raw_02 word f1]; unfold decode02; rw [f4]
  simp only [f2, f3, f5, BitVec.reduceToNat, pregAt, fin3]

theorem RoundTrip.pbgeu (pd : PReg) (ps : PReg) (off : BitVec 16) : RoundTrip.Statement (.pbgeu pd ps off) := by
  intro word h e
  have e : (2#6 ++ (BitVec.ofFin (w := 3) pd) ++ (BitVec.ofFin (w := 3) ps) ++ 5#4 ++ off : BitVec 32) = word := Option.some.inj e
  have f := fld_of (6+3+3+4+16) _ word (congrArg BitVec.toNat e)
  have f1 : fld word 26 6 = 2#6 := (f _ _).trans <| hi (by decide) <| hi (by decide) <| hi (by decide) <| hi (by decide) <| ext_all _
  have f2 : fld word 23 3 = (BitVec.ofFin (w := 3) pd) := (f _ _).trans <| hi (by decide) <| hi (by decide) <| hi (by decide) <| lo (by decide) (ext_all _)
  have f3 : fld word 20 3 = (BitVec.ofFin (w := 3) ps) := (f _ _).trans <| hi (by decide) <| hi (by decide) <| lo (by decide) (ext_all _)
  have f4 : fld word 16 4 = 5#4 := (f _ _).trans <| hi (by decide) <| lo (by decide) (ext_all _)
  have f5 : fld word 0 16 = off := (f _ _).trans <| lo (by decide) (ext_all _)
  refine ok_of word _ ?_ h
  rw [raw_02 word f1]; unfold decode02; rw [f4]
  simp only [f2, f3, f5, BitVec.reduceToNat, pregAt, fin3]

theorem RoundTrip.pbtag (pd : PReg) (off : BitVec 16) : RoundTrip.Statement (.pbtag pd off) := by
  intro word h e
  have e : (2#6 ++ (BitVec.ofFin (w := 3) pd) ++ 0#3 ++ 6#4 ++ off : BitVec 32) = word := Option.some.inj e
  have f := fld_of (6+3+3+4+16) _ word (congrArg BitVec.toNat e)
  have f1 : fld word 26 6 = 2#6 := (f _ _).trans <| hi (by decide) <| hi (by decide) <| hi (by decide) <| hi (by decide) <| ext_all _
  have f2 : fld word 23 3 = (BitVec.ofFin (w := 3) pd) := (f _ _).trans <| hi (by decide) <| hi (by decide) <| hi (by decide) <| lo (by decide) (ext_all _)
  have f3 : fld word 20 3 = 0#3 := (f _ _).trans <| hi (by decide) <| hi (by decide) <| lo (by decide) (ext_all _)
  have f4 : fld word 16 4 = 6#4 := (f _ _).trans <| hi (by decide) <| lo (by decide) (ext_all _)
  have f5 : fld word 0 16 = off := (f _ _).trans <| lo (by decide) (ext_all _)
  refine ok_of word _ ?_ h
  rw [raw_02 word f1]; unfold decode02; rw [f4]
  simp only [f2, f3, f5, BitVec.reduceToNat, pregAt, fin3, needZero, beq_self_eq_true, if_true]

theorem RoundTrip.pbnt (pd : PReg) (off : BitVec 16) : RoundTrip.Statement (.pbnt pd off) := by
  intro word h e
  have e : (2#6 ++ (BitVec.ofFin (w := 3) pd) ++ 0#3 ++ 7#4 ++ off : BitVec 32) = word := Option.some.inj e
  have f := fld_of (6+3+3+4+16) _ word (congrArg BitVec.toNat e)
  have f1 : fld word 26 6 = 2#6 := (f _ _).trans <| hi (by decide) <| hi (by decide) <| hi (by decide) <| hi (by decide) <| ext_all _
  have f2 : fld word 23 3 = (BitVec.ofFin (w := 3) pd) := (f _ _).trans <| hi (by decide) <| hi (by decide) <| hi (by decide) <| lo (by decide) (ext_all _)
  have f3 : fld word 20 3 = 0#3 := (f _ _).trans <| hi (by decide) <| hi (by decide) <| lo (by decide) (ext_all _)
  have f4 : fld word 16 4 = 7#4 := (f _ _).trans <| hi (by decide) <| lo (by decide) (ext_all _)
  have f5 : fld word 0 16 = off := (f _ _).trans <| lo (by decide) (ext_all _)
  refine ok_of word _ ?_ h
  rw [raw_02 word f1]; unfold decode02; rw [f4]
  simp only [f2, f3, f5, BitVec.reduceToNat, pregAt, fin3, needZero, beq_self_eq_true, if_true]

theorem RoundTrip.br (off : BitVec 22) : RoundTrip.Statement (.br off) := by
  intro word h e
  have e : (3#6 ++ 0#4 ++ off : BitVec 32) = word := Option.some.inj e
  have f := fld_of (6+4+22) _ word (congrArg BitVec.toNat e)
  have f1 : fld word 26 6 = 3#6 := (f _ _).trans <| hi (by decide) <| hi (by decide) <| ext_all _
  have f2 : fld word 22 4 = 0#4 := (f _ _).trans <| hi (by decide) <| lo (by decide) (ext_all _)
  have f3 : fld word 0 22 = off := (f _ _).trans <| lo (by decide) (ext_all _)
  refine ok_of word _ ?_ h
  rw [raw_03 word f1]; unfold decode03; rw [f2]
  simp only [f3, BitVec.reduceToNat]

theorem RoundTrip.call (off : BitVec 22) : RoundTrip.Statement (.call off) := by
  intro word h e
  have e : (3#6 ++ 1#4 ++ off : BitVec 32) = word := Option.some.inj e
  have f := fld_of (6+4+22) _ word (congrArg BitVec.toNat e)
  have f1 : fld word 26 6 = 3#6 := (f _ _).trans <| hi (by decide) <| hi (by decide) <| ext_all _
  have f2 : fld word 22 4 = 1#4 := (f _ _).trans <| hi (by decide) <| lo (by decide) (ext_all _)
  have f3 : fld word 0 22 = off := (f _ _).trans <| lo (by decide) (ext_all _)
  refine ok_of word _ ?_ h
  rw [raw_03 word f1]; unfold decode03; rw [f2]
  simp only [f3, BitVec.reduceToNat]

theorem RoundTrip.bz (off : BitVec 22) : RoundTrip.Statement (.bz off) := by
  intro word h e
  have e : (3#6 ++ 2#4 ++ off : BitVec 32) = word := Option.some.inj e
  have f := fld_of (6+4+22) _ word (congrArg BitVec.toNat e)
  have f1 : fld word 26 6 = 3#6 := (f _ _).trans <| hi (by decide) <| hi (by decide) <| ext_all _
  have f2 : fld word 22 4 = 2#4 := (f _ _).trans <| hi (by decide) <| lo (by decide) (ext_all _)
  have f3 : fld word 0 22 = off := (f _ _).trans <| lo (by decide) (ext_all _)
  refine ok_of word _ ?_ h
  rw [raw_03 word f1]; unfold decode03; rw [f2]
  simp only [f3, BitVec.reduceToNat]

theorem RoundTrip.bnz (off : BitVec 22) : RoundTrip.Statement (.bnz off) := by
  intro word h e
  have e : (3#6 ++ 3#4 ++ off : BitVec 32) = word := Option.some.inj e
  have f := fld_of (6+4+22) _ word (congrArg BitVec.toNat e)
  have f1 : fld word 26 6 = 3#6 := (f _ _).trans <| hi (by decide) <| hi (by decide) <| ext_all _
  have f2 : fld word 22 4 = 3#4 := (f _ _).trans <| hi (by decide) <| lo (by decide) (ext_all _)
  have f3 : fld word 0 22 = off := (f _ _).trans <| lo (by decide) (ext_all _)
  refine ok_of word _ ?_ h
  rw [raw_03 word f1]; unfold decode03; rw [f2]
  simp only [f3, BitVec.reduceToNat]

theorem RoundTrip.bn (off : BitVec 22) : RoundTrip.Statement (.bn off) := by
  intro word h e
  have e : (3#6 ++ 4#4 ++ off : BitVec 32) = word := Option.some.inj e
  have f := fld_of (6+4+22) _ word (congrArg BitVec.toNat e)
  have f1 : fld word 26 6 = 3#6 := (f _ _).trans <| hi (by decide) <| hi (by decide) <| ext_all _
  have f2 : fld word 22 4 = 4#4 := (f _ _).trans <| hi (by decide) <| lo (by decide) (ext_all _)
  have f3 : fld word 0 22 = off := (f _ _).trans <| lo (by decide) (ext_all _)
  refine ok_of word _ ?_ h
  rw [raw_03 word f1]; unfold decode03; rw [f2]
  simp only [f3, BitVec.reduceToNat]

theorem RoundTrip.bnn (off : BitVec 22) : RoundTrip.Statement (.bnn off) := by
  intro word h e
  have e : (3#6 ++ 5#4 ++ off : BitVec 32) = word := Option.some.inj e
  have f := fld_of (6+4+22) _ word (congrArg BitVec.toNat e)
  have f1 : fld word 26 6 = 3#6 := (f _ _).trans <| hi (by decide) <| hi (by decide) <| ext_all _
  have f2 : fld word 22 4 = 5#4 := (f _ _).trans <| hi (by decide) <| lo (by decide) (ext_all _)
  have f3 : fld word 0 22 = off := (f _ _).trans <| lo (by decide) (ext_all _)
  refine ok_of word _ ?_ h
  rw [raw_03 word f1]; unfold decode03; rw [f2]
  simp only [f3, BitVec.reduceToNat]

theorem RoundTrip.bc (off : BitVec 22) : RoundTrip.Statement (.bc off) := by
  intro word h e
  have e : (3#6 ++ 6#4 ++ off : BitVec 32) = word := Option.some.inj e
  have f := fld_of (6+4+22) _ word (congrArg BitVec.toNat e)
  have f1 : fld word 26 6 = 3#6 := (f _ _).trans <| hi (by decide) <| hi (by decide) <| ext_all _
  have f2 : fld word 22 4 = 6#4 := (f _ _).trans <| hi (by decide) <| lo (by decide) (ext_all _)
  have f3 : fld word 0 22 = off := (f _ _).trans <| lo (by decide) (ext_all _)
  refine ok_of word _ ?_ h
  rw [raw_03 word f1]; unfold decode03; rw [f2]
  simp only [f3, BitVec.reduceToNat]

theorem RoundTrip.bnc (off : BitVec 22) : RoundTrip.Statement (.bnc off) := by
  intro word h e
  have e : (3#6 ++ 7#4 ++ off : BitVec 32) = word := Option.some.inj e
  have f := fld_of (6+4+22) _ word (congrArg BitVec.toNat e)
  have f1 : fld word 26 6 = 3#6 := (f _ _).trans <| hi (by decide) <| hi (by decide) <| ext_all _
  have f2 : fld word 22 4 = 7#4 := (f _ _).trans <| hi (by decide) <| lo (by decide) (ext_all _)
  have f3 : fld word 0 22 = off := (f _ _).trans <| lo (by decide) (ext_all _)
  refine ok_of word _ ?_ h
  rw [raw_03 word f1]; unfold decode03; rw [f2]
  simp only [f3, BitVec.reduceToNat]

theorem RoundTrip.bo (off : BitVec 22) : RoundTrip.Statement (.bo off) := by
  intro word h e
  have e : (3#6 ++ 8#4 ++ off : BitVec 32) = word := Option.some.inj e
  have f := fld_of (6+4+22) _ word (congrArg BitVec.toNat e)
  have f1 : fld word 26 6 = 3#6 := (f _ _).trans <| hi (by decide) <| hi (by decide) <| ext_all _
  have f2 : fld word 22 4 = 8#4 := (f _ _).trans <| hi (by decide) <| lo (by decide) (ext_all _)
  have f3 : fld word 0 22 = off := (f _ _).trans <| lo (by decide) (ext_all _)
  refine ok_of word _ ?_ h
  rw [raw_03 word f1]; unfold decode03; rw [f2]
  simp only [f3, BitVec.reduceToNat]

theorem RoundTrip.bno (off : BitVec 22) : RoundTrip.Statement (.bno off) := by
  intro word h e
  have e : (3#6 ++ 9#4 ++ off : BitVec 32) = word := Option.some.inj e
  have f := fld_of (6+4+22) _ word (congrArg BitVec.toNat e)
  have f1 : fld word 26 6 = 3#6 := (f _ _).trans <| hi (by decide) <| hi (by decide) <| ext_all _
  have f2 : fld word 22 4 = 9#4 := (f _ _).trans <| hi (by decide) <| lo (by decide) (ext_all _)
  have f3 : fld word 0 22 = off := (f _ _).trans <| lo (by decide) (ext_all _)
  refine ok_of word _ ?_ h
  rw [raw_03 word f1]; unfold decode03; rw [f2]
  simp only [f3, BitVec.reduceToNat]

theorem RoundTrip.bx (off : BitVec 22) : RoundTrip.Statement (.bx off) := by
  intro word h e
  have e : (3#6 ++ 10#4 ++ off : BitVec 32) = word := Option.some.inj e
  have f := fld_of (6+4+22) _ word (congrArg BitVec.toNat e)
  have f1 : fld word 26 6 = 3#6 := (f _ _).trans <| hi (by decide) <| hi (by decide) <| ext_all _
  have f2 : fld word 22 4 = 10#4 := (f _ _).trans <| hi (by decide) <| lo (by decide) (ext_all _)
  have f3 : fld word 0 22 = off := (f _ _).trans <| lo (by decide) (ext_all _)
  refine ok_of word _ ?_ h
  rw [raw_03 word f1]; unfold decode03; rw [f2]
  simp only [f3, BitVec.reduceToNat]

theorem RoundTrip.bnx (off : BitVec 22) : RoundTrip.Statement (.bnx off) := by
  intro word h e
  have e : (3#6 ++ 11#4 ++ off : BitVec 32) = word := Option.some.inj e
  have f := fld_of (6+4+22) _ word (congrArg BitVec.toNat e)
  have f1 : fld word 26 6 = 3#6 := (f _ _).trans <| hi (by decide) <| hi (by decide) <| ext_all _
  have f2 : fld word 22 4 = 11#4 := (f _ _).trans <| hi (by decide) <| lo (by decide) (ext_all _)
  have f3 : fld word 0 22 = off := (f _ _).trans <| lo (by decide) (ext_all _)
  refine ok_of word _ ?_ h
  rw [raw_03 word f1]; unfold decode03; rw [f2]
  simp only [f3, BitVec.reduceToNat]

theorem RoundTrip.bxz (off : BitVec 22) : RoundTrip.Statement (.bxz off) := by
  intro word h e
  have e : (4#6 ++ 0#4 ++ off : BitVec 32) = word := Option.some.inj e
  have f := fld_of (6+4+22) _ word (congrArg BitVec.toNat e)
  have f1 : fld word 26 6 = 4#6 := (f _ _).trans <| hi (by decide) <| hi (by decide) <| ext_all _
  have f2 : fld word 22 4 = 0#4 := (f _ _).trans <| hi (by decide) <| lo (by decide) (ext_all _)
  have f3 : fld word 0 22 = off := (f _ _).trans <| lo (by decide) (ext_all _)
  refine ok_of word _ ?_ h
  rw [raw_04 word f1]; unfold decode04; rw [f2]
  simp only [f3, BitVec.reduceToNat]

theorem RoundTrip.bxnz (off : BitVec 22) : RoundTrip.Statement (.bxnz off) := by
  intro word h e
  have e : (4#6 ++ 1#4 ++ off : BitVec 32) = word := Option.some.inj e
  have f := fld_of (6+4+22) _ word (congrArg BitVec.toNat e)
  have f1 : fld word 26 6 = 4#6 := (f _ _).trans <| hi (by decide) <| hi (by decide) <| ext_all _
  have f2 : fld word 22 4 = 1#4 := (f _ _).trans <| hi (by decide) <| lo (by decide) (ext_all _)
  have f3 : fld word 0 22 = off := (f _ _).trans <| lo (by decide) (ext_all _)
  refine ok_of word _ ?_ h
  rw [raw_04 word f1]; unfold decode04; rw [f2]
  simp only [f3, BitVec.reduceToNat]

theorem RoundTrip.bxs (off : BitVec 22) : RoundTrip.Statement (.bxs off) := by
  intro word h e
  have e : (4#6 ++ 2#4 ++ off : BitVec 32) = word := Option.some.inj e
  have f := fld_of (6+4+22) _ word (congrArg BitVec.toNat e)
  have f1 : fld word 26 6 = 4#6 := (f _ _).trans <| hi (by decide) <| hi (by decide) <| ext_all _
  have f2 : fld word 22 4 = 2#4 := (f _ _).trans <| hi (by decide) <| lo (by decide) (ext_all _)
  have f3 : fld word 0 22 = off := (f _ _).trans <| lo (by decide) (ext_all _)
  refine ok_of word _ ?_ h
  rw [raw_04 word f1]; unfold decode04; rw [f2]
  simp only [f3, BitVec.reduceToNat]

theorem RoundTrip.bxns (off : BitVec 22) : RoundTrip.Statement (.bxns off) := by
  intro word h e
  have e : (4#6 ++ 3#4 ++ off : BitVec 32) = word := Option.some.inj e
  have f := fld_of (6+4+22) _ word (congrArg BitVec.toNat e)
  have f1 : fld word 26 6 = 4#6 := (f _ _).trans <| hi (by decide) <| hi (by decide) <| ext_all _
  have f2 : fld word 22 4 = 3#4 := (f _ _).trans <| hi (by decide) <| lo (by decide) (ext_all _)
  have f3 : fld word 0 22 = off := (f _ _).trans <| lo (by decide) (ext_all _)
  refine ok_of word _ ?_ h
  rw [raw_04 word f1]; unfold decode04; rw [f2]
  simp only [f3, BitVec.reduceToNat]

theorem RoundTrip.bxt (off : BitVec 22) : RoundTrip.Statement (.bxt off) := by
  intro word h e
  have e : (4#6 ++ 4#4 ++ off : BitVec 32) = word := Option.some.inj e
  have f := fld_of (6+4+22) _ word (congrArg BitVec.toNat e)
  have f1 : fld word 26 6 = 4#6 := (f _ _).trans <| hi (by decide) <| hi (by decide) <| ext_all _
  have f2 : fld word 22 4 = 4#4 := (f _ _).trans <| hi (by decide) <| lo (by decide) (ext_all _)
  have f3 : fld word 0 22 = off := (f _ _).trans <| lo (by decide) (ext_all _)
  refine ok_of word _ ?_ h
  rw [raw_04 word f1]; unfold decode04; rw [f2]
  simp only [f3, BitVec.reduceToNat]

theorem RoundTrip.bxf (off : BitVec 22) : RoundTrip.Statement (.bxf off) := by
  intro word h e
  have e : (4#6 ++ 5#4 ++ off : BitVec 32) = word := Option.some.inj e
  have f := fld_of (6+4+22) _ word (congrArg BitVec.toNat e)
  have f1 : fld word 26 6 = 4#6 := (f _ _).trans <| hi (by decide) <| hi (by decide) <| ext_all _
  have f2 : fld word 22 4 = 5#4 := (f _ _).trans <| hi (by decide) <| lo (by decide) (ext_all _)
  have f3 : fld word 0 22 = off := (f _ _).trans <| lo (by decide) (ext_all _)
  refine ok_of word _ ?_ h
  rw [raw_04 word f1]; unfold decode04; rw [f2]
  simp only [f3, BitVec.reduceToNat]

theorem RoundTrip.loop (ps : PReg) (len : BitVec 16) : RoundTrip.Statement (.loop ps len) := by
  intro word h e
  have e : (5#6 ++ 0#3 ++ (BitVec.ofFin (w := 3) ps) ++ 0#4 ++ len : BitVec 32) = word := Option.some.inj e
  have f := fld_of (6+3+3+4+16) _ word (congrArg BitVec.toNat e)
  have f1 : fld word 26 6 = 5#6 := (f _ _).trans <| hi (by decide) <| hi (by decide) <| hi (by decide) <| hi (by decide) <| ext_all _
  have f2 : fld word 23 3 = 0#3 := (f _ _).trans <| hi (by decide) <| hi (by decide) <| hi (by decide) <| lo (by decide) (ext_all _)
  have f3 : fld word 20 3 = (BitVec.ofFin (w := 3) ps) := (f _ _).trans <| hi (by decide) <| hi (by decide) <| lo (by decide) (ext_all _)
  have f4 : fld word 16 4 = 0#4 := (f _ _).trans <| hi (by decide) <| lo (by decide) (ext_all _)
  have f5 : fld word 0 16 = len := (f _ _).trans <| lo (by decide) (ext_all _)
  refine ok_of word _ ?_ h
  rw [raw_05 word f1]; unfold decode05; rw [f4]
  simp only [f2, f3, f5, BitVec.reduceToNat, pregAt, fin3, needZero, beq_self_eq_true, if_true]

theorem RoundTrip.loopi (n : BitVec 6) (len : BitVec 16) : RoundTrip.Statement (.loopi n len) := by
  intro word h e
  have e : (5#6 ++ n ++ 1#4 ++ len : BitVec 32) = word := Option.some.inj e
  have f := fld_of (6+6+4+16) _ word (congrArg BitVec.toNat e)
  have f1 : fld word 26 6 = 5#6 := (f _ _).trans <| hi (by decide) <| hi (by decide) <| hi (by decide) <| ext_all _
  have f2 : fld word 20 6 = n := (f _ _).trans <| hi (by decide) <| hi (by decide) <| lo (by decide) (ext_all _)
  have f3 : fld word 16 4 = 1#4 := (f _ _).trans <| hi (by decide) <| lo (by decide) (ext_all _)
  have f4 : fld word 0 16 = len := (f _ _).trans <| lo (by decide) (ext_all _)
  refine ok_of word _ ?_ h
  rw [raw_05 word f1]; unfold decode05; rw [f3]
  simp only [f2, f4, BitVec.reduceToNat]

theorem RoundTrip.jmp (ps : PReg) : RoundTrip.Statement (.jmp ps) := by
  intro word h e
  have e : (6#6 ++ 0#3 ++ (BitVec.ofFin (w := 3) ps) ++ 0#4 ++ 0#16 : BitVec 32) = word := Option.some.inj e
  have f := fld_of (6+3+3+4+16) _ word (congrArg BitVec.toNat e)
  have f1 : fld word 26 6 = 6#6 := (f _ _).trans <| hi (by decide) <| hi (by decide) <| hi (by decide) <| hi (by decide) <| ext_all _
  have f2 : fld word 23 3 = 0#3 := (f _ _).trans <| hi (by decide) <| hi (by decide) <| hi (by decide) <| lo (by decide) (ext_all _)
  have f3 : fld word 20 3 = (BitVec.ofFin (w := 3) ps) := (f _ _).trans <| hi (by decide) <| hi (by decide) <| lo (by decide) (ext_all _)
  have f4 : fld word 16 4 = 0#4 := (f _ _).trans <| hi (by decide) <| lo (by decide) (ext_all _)
  have f5 : fld word 0 16 = 0#16 := (f _ _).trans <| lo (by decide) (ext_all _)
  refine ok_of word _ ?_ h
  rw [raw_06 word f1]; unfold decode06; rw [f4]
  simp only [f2, f3, f5, BitVec.reduceToNat, pregAt, fin3, needZero, beq_self_eq_true, if_true, Bool.and_self]

theorem RoundTrip.jal (pd : PReg) (ps : PReg) : RoundTrip.Statement (.jal pd ps) := by
  intro word h e
  have e : (6#6 ++ (BitVec.ofFin (w := 3) pd) ++ (BitVec.ofFin (w := 3) ps) ++ 1#4 ++ 0#16 : BitVec 32) = word := Option.some.inj e
  have f := fld_of (6+3+3+4+16) _ word (congrArg BitVec.toNat e)
  have f1 : fld word 26 6 = 6#6 := (f _ _).trans <| hi (by decide) <| hi (by decide) <| hi (by decide) <| hi (by decide) <| ext_all _
  have f2 : fld word 23 3 = (BitVec.ofFin (w := 3) pd) := (f _ _).trans <| hi (by decide) <| hi (by decide) <| hi (by decide) <| lo (by decide) (ext_all _)
  have f3 : fld word 20 3 = (BitVec.ofFin (w := 3) ps) := (f _ _).trans <| hi (by decide) <| hi (by decide) <| lo (by decide) (ext_all _)
  have f4 : fld word 16 4 = 1#4 := (f _ _).trans <| hi (by decide) <| lo (by decide) (ext_all _)
  have f5 : fld word 0 16 = 0#16 := (f _ _).trans <| lo (by decide) (ext_all _)
  refine ok_of word _ ?_ h
  rw [raw_06 word f1]; unfold decode06; rw [f4]
  simp only [f2, f3, f5, BitVec.reduceToNat, pregAt, fin3, needZero, beq_self_eq_true, if_true]

theorem RoundTrip.lq (p : PReg) (am : Am) (ty : Ty) (d : BitVec 12) : RoundTrip.Statement (.lq p am ty d) := by
  intro word h e
  have e : (8#6 ++ (BitVec.ofFin (w := 3) p) ++ am.code ++ 0#5 ++ ty.code ++ d : BitVec 32) = word := Option.some.inj e
  have f := fld_of (6+3+2+5+4+12) _ word (congrArg BitVec.toNat e)
  have f1 : fld word 26 6 = 8#6 := (f _ _).trans <| hi (by decide) <| hi (by decide) <| hi (by decide) <| hi (by decide) <| hi (by decide) <| ext_all _
  have f2 : fld word 23 3 = (BitVec.ofFin (w := 3) p) := (f _ _).trans <| hi (by decide) <| hi (by decide) <| hi (by decide) <| hi (by decide) <| lo (by decide) (ext_all _)
  have f3 : fld word 21 2 = am.code := (f _ _).trans <| hi (by decide) <| hi (by decide) <| hi (by decide) <| lo (by decide) (ext_all _)
  have f4 : fld word 16 5 = 0#5 := (f _ _).trans <| hi (by decide) <| hi (by decide) <| lo (by decide) (ext_all _)
  have f5 : fld word 12 4 = ty.code := (f _ _).trans <| hi (by decide) <| lo (by decide) (ext_all _)
  have f6 : fld word 0 12 = d := (f _ _).trans <| lo (by decide) (ext_all _)
  refine ok_of word _ ?_ h
  rw [raw_08 word f1]; unfold decode08; rw [f4]
  simp only [f2, f3, f5, f6, BitVec.reduceToNat, pregAt, fin3, needSome, tyc, amc]

theorem RoundTrip.lqv (p : PReg) (am : Am) (ty : Ty) (d : BitVec 12) : RoundTrip.Statement (.lqv p am ty d) := by
  intro word h e
  have e : (8#6 ++ (BitVec.ofFin (w := 3) p) ++ am.code ++ 1#5 ++ ty.code ++ d : BitVec 32) = word := Option.some.inj e
  have f := fld_of (6+3+2+5+4+12) _ word (congrArg BitVec.toNat e)
  have f1 : fld word 26 6 = 8#6 := (f _ _).trans <| hi (by decide) <| hi (by decide) <| hi (by decide) <| hi (by decide) <| hi (by decide) <| ext_all _
  have f2 : fld word 23 3 = (BitVec.ofFin (w := 3) p) := (f _ _).trans <| hi (by decide) <| hi (by decide) <| hi (by decide) <| hi (by decide) <| lo (by decide) (ext_all _)
  have f3 : fld word 21 2 = am.code := (f _ _).trans <| hi (by decide) <| hi (by decide) <| hi (by decide) <| lo (by decide) (ext_all _)
  have f4 : fld word 16 5 = 1#5 := (f _ _).trans <| hi (by decide) <| hi (by decide) <| lo (by decide) (ext_all _)
  have f5 : fld word 12 4 = ty.code := (f _ _).trans <| hi (by decide) <| lo (by decide) (ext_all _)
  have f6 : fld word 0 12 = d := (f _ _).trans <| lo (by decide) (ext_all _)
  refine ok_of word _ ?_ h
  rw [raw_08 word f1]; unfold decode08; rw [f4]
  simp only [f2, f3, f5, f6, BitVec.reduceToNat, pregAt, fin3, needSome, tyc, amc]

theorem RoundTrip.lql (p : PReg) (am : Am) (ty : Ty) (d : BitVec 12) : RoundTrip.Statement (.lql p am ty d) := by
  intro word h e
  have e : (8#6 ++ (BitVec.ofFin (w := 3) p) ++ am.code ++ 2#5 ++ ty.code ++ d : BitVec 32) = word := Option.some.inj e
  have f := fld_of (6+3+2+5+4+12) _ word (congrArg BitVec.toNat e)
  have f1 : fld word 26 6 = 8#6 := (f _ _).trans <| hi (by decide) <| hi (by decide) <| hi (by decide) <| hi (by decide) <| hi (by decide) <| ext_all _
  have f2 : fld word 23 3 = (BitVec.ofFin (w := 3) p) := (f _ _).trans <| hi (by decide) <| hi (by decide) <| hi (by decide) <| hi (by decide) <| lo (by decide) (ext_all _)
  have f3 : fld word 21 2 = am.code := (f _ _).trans <| hi (by decide) <| hi (by decide) <| hi (by decide) <| lo (by decide) (ext_all _)
  have f4 : fld word 16 5 = 2#5 := (f _ _).trans <| hi (by decide) <| hi (by decide) <| lo (by decide) (ext_all _)
  have f5 : fld word 12 4 = ty.code := (f _ _).trans <| hi (by decide) <| lo (by decide) (ext_all _)
  have f6 : fld word 0 12 = d := (f _ _).trans <| lo (by decide) (ext_all _)
  refine ok_of word _ ?_ h
  rw [raw_08 word f1]; unfold decode08; rw [f4]
  simp only [f2, f3, f5, f6, BitVec.reduceToNat, pregAt, fin3, needSome, tyc, amc]

theorem RoundTrip.sq (p : PReg) (am : Am) (ty : Ty) (d : BitVec 12) : RoundTrip.Statement (.sq p am ty d) := by
  intro word h e
  have e : (9#6 ++ (BitVec.ofFin (w := 3) p) ++ am.code ++ 0#5 ++ ty.code ++ d : BitVec 32) = word := Option.some.inj e
  have f := fld_of (6+3+2+5+4+12) _ word (congrArg BitVec.toNat e)
  have f1 : fld word 26 6 = 9#6 := (f _ _).trans <| hi (by decide) <| hi (by decide) <| hi (by decide) <| hi (by decide) <| hi (by decide) <| ext_all _
  have f2 : fld word 23 3 = (BitVec.ofFin (w := 3) p) := (f _ _).trans <| hi (by decide) <| hi (by decide) <| hi (by decide) <| hi (by decide) <| lo (by decide) (ext_all _)
  have f3 : fld word 21 2 = am.code := (f _ _).trans <| hi (by decide) <| hi (by decide) <| hi (by decide) <| lo (by decide) (ext_all _)
  have f4 : fld word 16 5 = 0#5 := (f _ _).trans <| hi (by decide) <| hi (by decide) <| lo (by decide) (ext_all _)
  have f5 : fld word 12 4 = ty.code := (f _ _).trans <| hi (by decide) <| lo (by decide) (ext_all _)
  have f6 : fld word 0 12 = d := (f _ _).trans <| lo (by decide) (ext_all _)
  refine ok_of word _ ?_ h
  rw [raw_09 word f1]; unfold decode09; rw [f4]
  simp only [f2, f3, f5, f6, BitVec.reduceToNat, pregAt, fin3, needSome, tyc, amc]

theorem RoundTrip.sqv (p : PReg) (am : Am) (ty : Ty) (d : BitVec 12) : RoundTrip.Statement (.sqv p am ty d) := by
  intro word h e
  have e : (9#6 ++ (BitVec.ofFin (w := 3) p) ++ am.code ++ 1#5 ++ ty.code ++ d : BitVec 32) = word := Option.some.inj e
  have f := fld_of (6+3+2+5+4+12) _ word (congrArg BitVec.toNat e)
  have f1 : fld word 26 6 = 9#6 := (f _ _).trans <| hi (by decide) <| hi (by decide) <| hi (by decide) <| hi (by decide) <| hi (by decide) <| ext_all _
  have f2 : fld word 23 3 = (BitVec.ofFin (w := 3) p) := (f _ _).trans <| hi (by decide) <| hi (by decide) <| hi (by decide) <| hi (by decide) <| lo (by decide) (ext_all _)
  have f3 : fld word 21 2 = am.code := (f _ _).trans <| hi (by decide) <| hi (by decide) <| hi (by decide) <| lo (by decide) (ext_all _)
  have f4 : fld word 16 5 = 1#5 := (f _ _).trans <| hi (by decide) <| hi (by decide) <| lo (by decide) (ext_all _)
  have f5 : fld word 12 4 = ty.code := (f _ _).trans <| hi (by decide) <| lo (by decide) (ext_all _)
  have f6 : fld word 0 12 = d := (f _ _).trans <| lo (by decide) (ext_all _)
  refine ok_of word _ ?_ h
  rw [raw_09 word f1]; unfold decode09; rw [f4]
  simp only [f2, f3, f5, f6, BitVec.reduceToNat, pregAt, fin3, needSome, tyc, amc]

theorem RoundTrip.sql (p : PReg) (am : Am) (ty : Ty) (d : BitVec 12) : RoundTrip.Statement (.sql p am ty d) := by
  intro word h e
  have e : (9#6 ++ (BitVec.ofFin (w := 3) p) ++ am.code ++ 2#5 ++ ty.code ++ d : BitVec 32) = word := Option.some.inj e
  have f := fld_of (6+3+2+5+4+12) _ word (congrArg BitVec.toNat e)
  have f1 : fld word 26 6 = 9#6 := (f _ _).trans <| hi (by decide) <| hi (by decide) <| hi (by decide) <| hi (by decide) <| hi (by decide) <| ext_all _
  have f2 : fld word 23 3 = (BitVec.ofFin (w := 3) p) := (f _ _).trans <| hi (by decide) <| hi (by decide) <| hi (by decide) <| hi (by decide) <| lo (by decide) (ext_all _)
  have f3 : fld word 21 2 = am.code := (f _ _).trans <| hi (by decide) <| hi (by decide) <| hi (by decide) <| lo (by decide) (ext_all _)
  have f4 : fld word 16 5 = 2#5 := (f _ _).trans <| hi (by decide) <| hi (by decide) <| lo (by decide) (ext_all _)
  have f5 : fld word 12 4 = ty.code := (f _ _).trans <| hi (by decide) <| lo (by decide) (ext_all _)
  have f6 : fld word 0 12 = d := (f _ _).trans <| lo (by decide) (ext_all _)
  refine ok_of word _ ?_ h
  rw [raw_09 word f1]; unfold decode09; rw [f4]
  simp only [f2, f3, f5, f6, BitVec.reduceToNat, pregAt, fin3, needSome, tyc, amc]

theorem RoundTrip.rl (p : PReg) (am : Am) (ty : Ty) (d : BitVec 12) : RoundTrip.Statement (.rl p am ty d) := by
  intro word h e
  have e : (11#6 ++ (BitVec.ofFin (w := 3) p) ++ am.code ++ 0#5 ++ ty.code ++ d : BitVec 32) = word := Option.some.inj e
  have f := fld_of (6+3+2+5+4+12) _ word (congrArg BitVec.toNat e)
  have f1 : fld word 26 6 = 11#6 := (f _ _).trans <| hi (by decide) <| hi (by decide) <| hi (by decide) <| hi (by decide) <| hi (by decide) <| ext_all _
  have f2 : fld word 23 3 = (BitVec.ofFin (w := 3) p) := (f _ _).trans <| hi (by decide) <| hi (by decide) <| hi (by decide) <| hi (by decide) <| lo (by decide) (ext_all _)
  have f3 : fld word 21 2 = am.code := (f _ _).trans <| hi (by decide) <| hi (by decide) <| hi (by decide) <| lo (by decide) (ext_all _)
  have f4 : fld word 16 5 = 0#5 := (f _ _).trans <| hi (by decide) <| hi (by decide) <| lo (by decide) (ext_all _)
  have f5 : fld word 12 4 = ty.code := (f _ _).trans <| hi (by decide) <| lo (by decide) (ext_all _)
  have f6 : fld word 0 12 = d := (f _ _).trans <| lo (by decide) (ext_all _)
  refine ok_of word _ ?_ h
  rw [raw_0B word f1]; unfold decode0B; rw [f4]
  simp only [f2, f3, f5, f6, BitVec.reduceToNat, pregAt, fin3, needSome, tyc, amc]

theorem RoundTrip.rlv (p : PReg) (am : Am) (ty : Ty) (d : BitVec 12) : RoundTrip.Statement (.rlv p am ty d) := by
  intro word h e
  have e : (11#6 ++ (BitVec.ofFin (w := 3) p) ++ am.code ++ 1#5 ++ ty.code ++ d : BitVec 32) = word := Option.some.inj e
  have f := fld_of (6+3+2+5+4+12) _ word (congrArg BitVec.toNat e)
  have f1 : fld word 26 6 = 11#6 := (f _ _).trans <| hi (by decide) <| hi (by decide) <| hi (by decide) <| hi (by decide) <| hi (by decide) <| ext_all _
  have f2 : fld word 23 3 = (BitVec.ofFin (w := 3) p) := (f _ _).trans <| hi (by decide) <| hi (by decide) <| hi (by decide) <| hi (by decide) <| lo (by decide) (ext_all _)
  have f3 : fld word 21 2 = am.code := (f _ _).trans <| hi (by decide) <| hi (by decide) <| hi (by decide) <| lo (by decide) (ext_all _)
  have f4 : fld word 16 5 = 1#5 := (f _ _).trans <| hi (by decide) <| hi (by decide) <| lo (by decide) (ext_all _)
  have f5 : fld word 12 4 = ty.code := (f _ _).trans <| hi (by decide) <| lo (by decide) (ext_all _)
  have f6 : fld word 0 12 = d := (f _ _).trans <| lo (by decide) (ext_all _)
  refine ok_of word _ ?_ h
  rw [raw_0B word f1]; unfold decode0B; rw [f4]
  simp only [f2, f3, f5, f6, BitVec.reduceToNat, pregAt, fin3, needSome, tyc, amc]

theorem RoundTrip.rll (p : PReg) (am : Am) (ty : Ty) (d : BitVec 12) : RoundTrip.Statement (.rll p am ty d) := by
  intro word h e
  have e : (11#6 ++ (BitVec.ofFin (w := 3) p) ++ am.code ++ 2#5 ++ ty.code ++ d : BitVec 32) = word := Option.some.inj e
  have f := fld_of (6+3+2+5+4+12) _ word (congrArg BitVec.toNat e)
  have f1 : fld word 26 6 = 11#6 := (f _ _).trans <| hi (by decide) <| hi (by decide) <| hi (by decide) <| hi (by decide) <| hi (by decide) <| ext_all _
  have f2 : fld word 23 3 = (BitVec.ofFin (w := 3) p) := (f _ _).trans <| hi (by decide) <| hi (by decide) <| hi (by decide) <| hi (by decide) <| lo (by decide) (ext_all _)
  have f3 : fld word 21 2 = am.code := (f _ _).trans <| hi (by decide) <| hi (by decide) <| hi (by decide) <| lo (by decide) (ext_all _)
  have f4 : fld word 16 5 = 2#5 := (f _ _).trans <| hi (by decide) <| hi (by decide) <| lo (by decide) (ext_all _)
  have f5 : fld word 12 4 = ty.code := (f _ _).trans <| hi (by decide) <| lo (by decide) (ext_all _)
  have f6 : fld word 0 12 = d := (f _ _).trans <| lo (by decide) (ext_all _)
  refine ok_of word _ ?_ h
  rw [raw_0B word f1]; unfold decode0B; rw [f4]
  simp only [f2, f3, f5, f6, BitVec.reduceToNat, pregAt, fin3, needSome, tyc, amc]

theorem RoundTrip.lp (pd : PReg) (ps : PReg) (imm : BitVec 16) : RoundTrip.Statement (.lp pd ps imm) := by
  intro word h e
  have e : (10#6 ++ (BitVec.ofFin (w := 3) pd) ++ (BitVec.ofFin (w := 3) ps) ++ 0#4 ++ imm : BitVec 32) = word := Option.some.inj e
  have f := fld_of (6+3+3+4+16) _ word (congrArg BitVec.toNat e)
  have f1 : fld word 26 6 = 10#6 := (f _ _).trans <| hi (by decide) <| hi (by decide) <| hi (by decide) <| hi (by decide) <| ext_all _
  have f2 : fld word 23 3 = (BitVec.ofFin (w := 3) pd) := (f _ _).trans <| hi (by decide) <| hi (by decide) <| hi (by decide) <| lo (by decide) (ext_all _)
  have f3 : fld word 20 3 = (BitVec.ofFin (w := 3) ps) := (f _ _).trans <| hi (by decide) <| hi (by decide) <| lo (by decide) (ext_all _)
  have f4 : fld word 16 4 = 0#4 := (f _ _).trans <| hi (by decide) <| lo (by decide) (ext_all _)
  have f5 : fld word 0 16 = imm := (f _ _).trans <| lo (by decide) (ext_all _)
  refine ok_of word _ ?_ h
  rw [raw_0A word f1]; unfold decode0A; rw [f4]
  simp only [f2, f3, f5, BitVec.reduceToNat, pregAt, fin3]

theorem RoundTrip.sp (pd : PReg) (ps : PReg) (imm : BitVec 16) : RoundTrip.Statement (.sp pd ps imm) := by
  intro word h e
  have e : (10#6 ++ (BitVec.ofFin (w := 3) pd) ++ (BitVec.ofFin (w := 3) ps) ++ 1#4 ++ imm : BitVec 32) = word := Option.some.inj e
  have f := fld_of (6+3+3+4+16) _ word (congrArg BitVec.toNat e)
  have f1 : fld word 26 6 = 10#6 := (f _ _).trans <| hi (by decide) <| hi (by decide) <| hi (by decide) <| hi (by decide) <| ext_all _
  have f2 : fld word 23 3 = (BitVec.ofFin (w := 3) pd) := (f _ _).trans <| hi (by decide) <| hi (by decide) <| hi (by decide) <| lo (by decide) (ext_all _)
  have f3 : fld word 20 3 = (BitVec.ofFin (w := 3) ps) := (f _ _).trans <| hi (by decide) <| hi (by decide) <| lo (by decide) (ext_all _)
  have f4 : fld word 16 4 = 1#4 := (f _ _).trans <| hi (by decide) <| lo (by decide) (ext_all _)
  have f5 : fld word 0 16 = imm := (f _ _).trans <| lo (by decide) (ext_all _)
  refine ok_of word _ ?_ h
  rw [raw_0A word f1]; unfold decode0A; rw [f4]
  simp only [f2, f3, f5, BitVec.reduceToNat, pregAt, fin3]

theorem RoundTrip.rlp (pd : PReg) (ps : PReg) (imm : BitVec 16) : RoundTrip.Statement (.rlp pd ps imm) := by
  intro word h e
  have e : (12#6 ++ (BitVec.ofFin (w := 3) pd) ++ (BitVec.ofFin (w := 3) ps) ++ 0#4 ++ imm : BitVec 32) = word := Option.some.inj e
  have f := fld_of (6+3+3+4+16) _ word (congrArg BitVec.toNat e)
  have f1 : fld word 26 6 = 12#6 := (f _ _).trans <| hi (by decide) <| hi (by decide) <| hi (by decide) <| hi (by decide) <| ext_all _
  have f2 : fld word 23 3 = (BitVec.ofFin (w := 3) pd) := (f _ _).trans <| hi (by decide) <| hi (by decide) <| hi (by decide) <| lo (by decide) (ext_all _)
  have f3 : fld word 20 3 = (BitVec.ofFin (w := 3) ps) := (f _ _).trans <| hi (by decide) <| hi (by decide) <| lo (by decide) (ext_all _)
  have f4 : fld word 16 4 = 0#4 := (f _ _).trans <| hi (by decide) <| lo (by decide) (ext_all _)
  have f5 : fld word 0 16 = imm := (f _ _).trans <| lo (by decide) (ext_all _)
  refine ok_of word _ ?_ h
  rw [raw_0C word f1]; unfold decode0C; rw [f4]
  simp only [f2, f3, f5, BitVec.reduceToNat, pregAt, fin3]

theorem RoundTrip.lda (p : PReg) (am : Am) (ty : Ty) (d : BitVec 12) : RoundTrip.Statement (.lda p am ty d) := by
  intro word h e
  have e : (16#6 ++ (BitVec.ofFin (w := 3) p) ++ am.code ++ 0#5 ++ ty.code ++ d : BitVec 32) = word := Option.some.inj e
  have f := fld_of (6+3+2+5+4+12) _ word (congrArg BitVec.toNat e)
  have f1 : fld word 26 6 = 16#6 := (f _ _).trans <| hi (by decide) <| hi (by decide) <| hi (by decide) <| hi (by decide) <| hi (by decide) <| ext_all _
  have f2 : fld word 23 3 = (BitVec.ofFin (w := 3) p) := (f _ _).trans <| hi (by decide) <| hi (by decide) <| hi (by decide) <| hi (by decide) <| lo (by decide) (ext_all _)
  have f3 : fld word 21 2 = am.code := (f _ _).trans <| hi (by decide) <| hi (by decide) <| hi (by decide) <| lo (by decide) (ext_all _)
  have f4 : fld word 16 5 = 0#5 := (f _ _).trans <| hi (by decide) <| hi (by decide) <| lo (by decide) (ext_all _)
  have f5 : fld word 12 4 = ty.code := (f _ _).trans <| hi (by decide) <| lo (by decide) (ext_all _)
  have f6 : fld word 0 12 = d := (f _ _).trans <| lo (by decide) (ext_all _)
  refine ok_of word _ ?_ h
  rw [raw_10 word f1]; unfold decode10; rw [f4]
  simp only [f2, f3, f5, f6, BitVec.reduceToNat, pregAt, fin3, needSome, tyc, amc]

theorem RoundTrip.add (p : PReg) (am : Am) (ty : Ty) (d : BitVec 12) : RoundTrip.Statement (.add p am ty d) := by
  intro word h e
  have e : (16#6 ++ (BitVec.ofFin (w := 3) p) ++ am.code ++ 1#5 ++ ty.code ++ d : BitVec 32) = word := Option.some.inj e
  have f := fld_of (6+3+2+5+4+12) _ word (congrArg BitVec.toNat e)
  have f1 : fld word 26 6 = 16#6 := (f _ _).trans <| hi (by decide) <| hi (by decide) <| hi (by decide) <| hi (by decide) <| hi (by decide) <| ext_all _
  have f2 : fld word 23 3 = (BitVec.ofFin (w := 3) p) := (f _ _).trans <| hi (by decide) <| hi (by decide) <| hi (by decide) <| hi (by decide) <| lo (by decide) (ext_all _)
  have f3 : fld word 21 2 = am.code := (f _ _).trans <| hi (by decide) <| hi (by decide) <| hi (by decide) <| lo (by decide) (ext_all _)
  have f4 : fld word 16 5 = 1#5 := (f _ _).trans <| hi (by decide) <| hi (by decide) <| lo (by decide) (ext_all _)
  have f5 : fld word 12 4 = ty.code := (f _ _).trans <| hi (by decide) <| lo (by decide) (ext_all _)
  have f6 : fld word 0 12 = d := (f _ _).trans <| lo (by decide) (ext_all _)
  refine ok_of word _ ?_ h
  rw [raw_10 word f1]; unfold decode10; rw [f4]
  simp only [f2, f3, f5, f6, BitVec.reduceToNat, pregAt, fin3, needSome, tyc, amc]

theorem RoundTrip.sub (p : PReg) (am : Am) (ty : Ty) (d : BitVec 12) : RoundTrip.Statement (.sub p am ty d) := by
  intro word h e
  have e : (16#6 ++ (BitVec.ofFin (w := 3) p) ++ am.code ++ 2#5 ++ ty.code ++ d : BitVec 32) = word := Option.some.inj e
  have f := fld_of (6+3+2+5+4+12) _ word (congrArg BitVec.toNat e)
  have f1 : fld word 26 6 = 16#6 := (f _ _).trans <| hi (by decide) <| hi (by decide) <| hi (by decide) <| hi (by decide) <| hi (by decide) <| ext_all _
  have f2 : fld word 23 3 = (BitVec.ofFin (w := 3) p) := (f _ _).trans <| hi (by decide) <| hi (by decide) <| hi (by decide) <| hi (by decide) <| lo (by decide) (ext_all _)
  have f3 : fld word 21 2 = am.code := (f _ _).trans <| hi (by decide) <| hi (by decide) <| hi (by decide) <| lo (by decide) (ext_all _)
  have f4 : fld word 16 5 = 2#5 := (f _ _).trans <| hi (by decide) <| hi (by decide) <| lo (by decide) (ext_all _)
  have f5 : fld word 12 4 = ty.code := (f _ _).trans <| hi (by decide) <| lo (by decide) (ext_all _)
  have f6 : fld word 0 12 = d := (f _ _).trans <| lo (by decide) (ext_all _)
  refine ok_of word _ ?_ h
  rw [raw_10 word f1]; unfold decode10; rw [f4]
  simp only [f2, f3, f5, f6, BitVec.reduceToNat, pregAt, fin3, needSome, tyc, amc]

theorem RoundTrip.rsub (p : PReg) (am : Am) (ty : Ty) (d : BitVec 12) : RoundTrip.Statement (.rsub p am ty d) := by
  intro word h e
  have e : (16#6 ++ (BitVec.ofFin (w := 3) p) ++ am.code ++ 3#5 ++ ty.code ++ d : BitVec 32) = word := Option.some.inj e
  have f := fld_of (6+3+2+5+4+12) _ word (congrArg BitVec.toNat e)
  have f1 : fld word 26 6 = 16#6 := (f _ _).trans <| hi (by decide) <| hi (by decide) <| hi (by decide) <| hi (by decide) <| hi (by decide) <| ext_all _
  have f2 : fld word 23 3 = (BitVec.ofFin (w := 3) p) := (f _ _).trans <| hi (by decide) <| hi (by decide) <| hi (by decide) <| hi (by decide) <| lo (by decide) (ext_all _)
  have f3 : fld word 21 2 = am.code := (f _ _).trans <| hi (by decide) <| hi (by decide) <| hi (by decide) <| lo (by decide) (ext_all _)
  have f4 : fld word 16 5 = 3#5 := (f _ _).trans <| hi (by decide) <| hi (by decide) <| lo (by decide) (ext_all _)
  have f5 : fld word 12 4 = ty.code := (f _ _).trans <| hi (by decide) <| lo (by decide) (ext_all _)
  have f6 : fld word 0 12 = d := (f _ _).trans <| lo (by decide) (ext_all _)
  refine ok_of word _ ?_ h
  rw [raw_10 word f1]; unfold decode10; rw [f4]
  simp only [f2, f3, f5, f6, BitVec.reduceToNat, pregAt, fin3, needSome, tyc, amc]

theorem RoundTrip.adds (p : PReg) (am : Am) (ty : Ty) (d : BitVec 12) : RoundTrip.Statement (.adds p am ty d) := by
  intro word h e
  have e : (16#6 ++ (BitVec.ofFin (w := 3) p) ++ am.code ++ 4#5 ++ ty.code ++ d : BitVec 32) = word := Option.some.inj e
  have f := fld_of (6+3+2+5+4+12) _ word (congrArg BitVec.toNat e)
  have f1 : fld word 26 6 = 16#6 := (f _ _).trans <| hi (by decide) <| hi (by decide) <| hi (by decide) <| hi (by decide) <| hi (by decide) <| ext_all _
  have f2 : fld word 23 3 = (BitVec.ofFin (w := 3) p) := (f _ _).trans <| hi (by decide) <| hi (by decide) <| hi (by decide) <| hi (by decide) <| lo (by decide) (ext_all _)
  have f3 : fld word 21 2 = am.code := (f _ _).trans <| hi (by decide) <| hi (by decide) <| hi (by decide) <| lo (by decide) (ext_all _)
  have f4 : fld word 16 5 = 4#5 := (f _ _).trans <| hi (by decide) <| hi (by decide) <| lo (by decide) (ext_all _)
  have f5 : fld word 12 4 = ty.code := (f _ _).trans <| hi (by decide) <| lo (by decide) (ext_all _)
  have f6 : fld word 0 12 = d := (f _ _).trans <| lo (by decide) (ext_all _)
  refine ok_of word _ ?_ h
  rw [raw_10 word f1]; unfold decode10; rw [f4]
  simp only [f2, f3, f5, f6, BitVec.reduceToNat, pregAt, fin3, needSome, tyc, amc]

theorem RoundTrip.subs (p : PReg) (am : Am) (ty : Ty) (d : BitVec 12) : RoundTrip.Statement (.subs p am ty d) := by
  intro word h e
  have e : (16#6 ++ (BitVec.ofFin (w := 3) p) ++ am.code ++ 5#5 ++ ty.code ++ d : BitVec 32) = word := Option.some.inj e
  have f := fld_of (6+3+2+5+4+12) _ word (congrArg BitVec.toNat e)
  have f1 : fld word 26 6 = 16#6 := (f _ _).trans <| hi (by decide) <| hi (by decide) <| hi (by decide) <| hi (by decide) <| hi (by decide) <| ext_all _
  have f2 : fld word 23 3 = (BitVec.ofFin (w := 3) p) := (f _ _).trans <| hi (by decide) <| hi (by decide) <| hi (by decide) <| hi (by decide) <| lo (by decide) (ext_all _)
  have f3 : fld word 21 2 = am.code := (f _ _).trans <| hi (by decide) <| hi (by decide) <| hi (by decide) <| lo (by decide) (ext_all _)
  have f4 : fld word 16 5 = 5#5 := (f _ _).trans <| hi (by decide) <| hi (by decide) <| lo (by decide) (ext_all _)
  have f5 : fld word 12 4 = ty.code := (f _ _).trans <| hi (by decide) <| lo (by decide) (ext_all _)
  have f6 : fld word 0 12 = d := (f _ _).trans <| lo (by decide) (ext_all _)
  refine ok_of word _ ?_ h
  rw [raw_10 word f1]; unfold decode10; rw [f4]
  simp only [f2, f3, f5, f6, BitVec.reduceToNat, pregAt, fin3, needSome, tyc, amc]

theorem RoundTrip.and (p : PReg) (am : Am) (ty : Ty) (d : BitVec 12) : RoundTrip.Statement (.and p am ty d) := by
  intro word h e
  have e : (16#6 ++ (BitVec.ofFin (w := 3) p) ++ am.code ++ 6#5 ++ ty.code ++ d : BitVec 32) = word := Option.some.inj e
  have f := fld_of (6+3+2+5+4+12) _ word (congrArg BitVec.toNat e)
  have f1 : fld word 26 6 = 16#6 := (f _ _).trans <| hi (by decide) <| hi (by decide) <| hi (by decide) <| hi (by decide) <| hi (by decide) <| ext_all _
  have f2 : fld word 23 3 = (BitVec.ofFin (w := 3) p) := (f _ _).trans <| hi (by decide) <| hi (by decide) <| hi (by decide) <| hi (by decide) <| lo (by decide) (ext_all _)
  have f3 : fld word 21 2 = am.code := (f _ _).trans <| hi (by decide) <| hi (by decide) <| hi (by decide) <| lo (by decide) (ext_all _)
  have f4 : fld word 16 5 = 6#5 := (f _ _).trans <| hi (by decide) <| hi (by decide) <| lo (by decide) (ext_all _)
  have f5 : fld word 12 4 = ty.code := (f _ _).trans <| hi (by decide) <| lo (by decide) (ext_all _)
  have f6 : fld word 0 12 = d := (f _ _).trans <| lo (by decide) (ext_all _)
  refine ok_of word _ ?_ h
  rw [raw_10 word f1]; unfold decode10; rw [f4]
  simp only [f2, f3, f5, f6, BitVec.reduceToNat, pregAt, fin3, needSome, tyc, amc]

theorem RoundTrip.or (p : PReg) (am : Am) (ty : Ty) (d : BitVec 12) : RoundTrip.Statement (.or p am ty d) := by
  intro word h e
  have e : (16#6 ++ (BitVec.ofFin (w := 3) p) ++ am.code ++ 7#5 ++ ty.code ++ d : BitVec 32) = word := Option.some.inj e
  have f := fld_of (6+3+2+5+4+12) _ word (congrArg BitVec.toNat e)
  have f1 : fld word 26 6 = 16#6 := (f _ _).trans <| hi (by decide) <| hi (by decide) <| hi (by decide) <| hi (by decide) <| hi (by decide) <| ext_all _
  have f2 : fld word 23 3 = (BitVec.ofFin (w := 3) p) := (f _ _).trans <| hi (by decide) <| hi (by decide) <| hi (by decide) <| hi (by decide) <| lo (by decide) (ext_all _)
  have f3 : fld word 21 2 = am.code := (f _ _).trans <| hi (by decide) <| hi (by decide) <| hi (by decide) <| lo (by decide) (ext_all _)
  have f4 : fld word 16 5 = 7#5 := (f _ _).trans <| hi (by decide) <| hi (by decide) <| lo (by decide) (ext_all _)
  have f5 : fld word 12 4 = ty.code := (f _ _).trans <| hi (by decide) <| lo (by decide) (ext_all _)
  have f6 : fld word 0 12 = d := (f _ _).trans <| lo (by decide) (ext_all _)
  refine ok_of word _ ?_ h
  rw [raw_10 word f1]; unfold decode10; rw [f4]
  simp only [f2, f3, f5, f6, BitVec.reduceToNat, pregAt, fin3, needSome, tyc, amc]

theorem RoundTrip.xor (p : PReg) (am : Am) (ty : Ty) (d : BitVec 12) : RoundTrip.Statement (.xor p am ty d) := by
  intro word h e
  have e : (16#6 ++ (BitVec.ofFin (w := 3) p) ++ am.code ++ 8#5 ++ ty.code ++ d : BitVec 32) = word := Option.some.inj e
  have f := fld_of (6+3+2+5+4+12) _ word (congrArg BitVec.toNat e)
  have f1 : fld word 26 6 = 16#6 := (f _ _).trans <| hi (by decide) <| hi (by decide) <| hi (by decide) <| hi (by decide) <| hi (by decide) <| ext_all _
  have f2 : fld word 23 3 = (BitVec.ofFin (w := 3) p) := (f _ _).trans <| hi (by decide) <| hi (by decide) <| hi (by decide) <| hi (by decide) <| lo (by decide) (ext_all _)
  have f3 : fld word 21 2 = am.code := (f _ _).trans <| hi (by decide) <| hi (by decide) <| hi (by decide) <| lo (by decide) (ext_all _)
  have f4 : fld word 16 5 = 8#5 := (f _ _).trans <| hi (by decide) <| hi (by decide) <| lo (by decide) (ext_all _)
  have f5 : fld word 12 4 = ty.code := (f _ _).trans <| hi (by decide) <| lo (by decide) (ext_all _)
  have f6 : fld word 0 12 = d := (f _ _).trans <| lo (by decide) (ext_all _)
  refine ok_of word _ ?_ h
  rw [raw_10 word f1]; unfold decode10; rw [f4]
  simp only [f2, f3, f5, f6, BitVec.reduceToNat, pregAt, fin3, needSome, tyc, amc]

theorem RoundTrip.andn (p : PReg) (am : Am) (ty : Ty) (d : BitVec 12) : RoundTrip.Statement (.andn p am ty d) := by
  intro word h e
  have e : (16#6 ++ (BitVec.ofFin (w := 3) p) ++ am.code ++ 9#5 ++ ty.code ++ d : BitVec 32) = word := Option.some.inj e
  have f := fld_of (6+3+2+5+4+12) _ word (congrArg BitVec.toNat e)
  have f1 : fld word 26 6 = 16#6 := (f _ _).trans <| hi (by decide) <| hi (by decide) <| hi (by decide) <| hi (by decide) <| hi (by decide) <| ext_all _
  have f2 : fld word 23 3 = (BitVec.ofFin (w := 3) p) := (f _ _).trans <| hi (by decide) <| hi (by decide) <| hi (by decide) <| hi (by decide) <| lo (by decide) (ext_all _)
  have f3 : fld word 21 2 = am.code := (f _ _).trans <| hi (by decide) <| hi (by decide) <| hi (by decide) <| lo (by decide) (ext_all _)
  have f4 : fld word 16 5 = 9#5 := (f _ _).trans <| hi (by decide) <| hi (by decide) <| lo (by decide) (ext_all _)
  have f5 : fld word 12 4 = ty.code := (f _ _).trans <| hi (by decide) <| lo (by decide) (ext_all _)
  have f6 : fld word 0 12 = d := (f _ _).trans <| lo (by decide) (ext_all _)
  refine ok_of word _ ?_ h
  rw [raw_10 word f1]; unfold decode10; rw [f4]
  simp only [f2, f3, f5, f6, BitVec.reduceToNat, pregAt, fin3, needSome, tyc, amc]

theorem RoundTrip.shl (p : PReg) (am : Am) (ty : Ty) (d : BitVec 12) : RoundTrip.Statement (.shl p am ty d) := by
  intro word h e
  have e : (16#6 ++ (BitVec.ofFin (w := 3) p) ++ am.code ++ 10#5 ++ ty.code ++ d : BitVec 32) = word := Option.some.inj e
  have f := fld_of (6+3+2+5+4+12) _ word (congrArg BitVec.toNat e)
  have f1 : fld word 26 6 = 16#6 := (f _ _).trans <| hi (by decide) <| hi (by decide) <| hi (by decide) <| hi (by decide) <| hi (by decide) <| ext_all _
  have f2 : fld word 23 3 = (BitVec.ofFin (w := 3) p) := (f _ _).trans <| hi (by decide) <| hi (by decide) <| hi (by decide) <| hi (by decide) <| lo (by decide) (ext_all _)
  have f3 : fld word 21 2 = am.code := (f _ _).trans <| hi (by decide) <| hi (by decide) <| hi (by decide) <| lo (by decide) (ext_all _)
  have f4 : fld word 16 5 = 10#5 := (f _ _).trans <| hi (by decide) <| hi (by decide) <| lo (by decide) (ext_all _)
  have f5 : fld word 12 4 = ty.code := (f _ _).trans <| hi (by decide) <| lo (by decide) (ext_all _)
  have f6 : fld word 0 12 = d := (f _ _).trans <| lo (by decide) (ext_all _)
  refine ok_of word _ ?_ h
  rw [raw_10 word f1]; unfold decode10; rw [f4]
  simp only [f2, f3, f5, f6, BitVec.reduceToNat, pregAt, fin3, needSome, tyc, amc]

theorem RoundTrip.shr (p : PReg) (am : Am) (ty : Ty) (d : BitVec 12) : RoundTrip.Statement (.shr p am ty d) := by
  intro word h e
  have e : (16#6 ++ (BitVec.ofFin (w := 3) p) ++ am.code ++ 11#5 ++ ty.code ++ d : BitVec 32) = word := Option.some.inj e
  have f := fld_of (6+3+2+5+4+12) _ word (congrArg BitVec.toNat e)
  have f1 : fld word 26 6 = 16#6 := (f _ _).trans <| hi (by decide) <| hi (by decide) <| hi (by decide) <| hi (by decide) <| hi (by decide) <| ext_all _
  have f2 : fld word 23 3 = (BitVec.ofFin (w := 3) p) := (f _ _).trans <| hi (by decide) <| hi (by decide) <| hi (by decide) <| hi (by decide) <| lo (by decide) (ext_all _)
  have f3 : fld word 21 2 = am.code := (f _ _).trans <| hi (by decide) <| hi (by decide) <| hi (by decide) <| lo (by decide) (ext_all _)
  have f4 : fld word 16 5 = 11#5 := (f _ _).trans <| hi (by decide) <| hi (by decide) <| lo (by decide) (ext_all _)
  have f5 : fld word 12 4 = ty.code := (f _ _).trans <| hi (by decide) <| lo (by decide) (ext_all _)
  have f6 : fld word 0 12 = d := (f _ _).trans <| lo (by decide) (ext_all _)
  refine ok_of word _ ?_ h
  rw [raw_10 word f1]; unfold decode10; rw [f4]
  simp only [f2, f3, f5, f6, BitVec.reduceToNat, pregAt, fin3, needSome, tyc, amc]

theorem RoundTrip.sar (p : PReg) (am : Am) (ty : Ty) (d : BitVec 12) : RoundTrip.Statement (.sar p am ty d) := by
  intro word h e
  have e : (16#6 ++ (BitVec.ofFin (w := 3) p) ++ am.code ++ 12#5 ++ ty.code ++ d : BitVec 32) = word := Option.some.inj e
  have f := fld_of (6+3+2+5+4+12) _ word (congrArg BitVec.toNat e)
  have f1 : fld word 26 6 = 16#6 := (f _ _).trans <| hi (by decide) <| hi (by decide) <| hi (by decide) <| hi (by decide) <| hi (by decide) <| ext_all _
  have f2 : fld word 23 3 = (BitVec.ofFin (w := 3) p) := (f _ _).trans <| hi (by decide) <| hi (by decide) <| hi (by decide) <| hi (by decide) <| lo (by decide) (ext_all _)
  have f3 : fld word 21 2 = am.code := (f _ _).trans <| hi (by decide) <| hi (by decide) <| hi (by decide) <| lo (by decide) (ext_all _)
  have f4 : fld word 16 5 = 12#5 := (f _ _).trans <| hi (by decide) <| hi (by decide) <| lo (by decide) (ext_all _)
  have f5 : fld word 12 4 = ty.code := (f _ _).trans <| hi (by decide) <| lo (by decide) (ext_all _)
  have f6 : fld word 0 12 = d := (f _ _).trans <| lo (by decide) (ext_all _)
  refine ok_of word _ ?_ h
  rw [raw_10 word f1]; unfold decode10; rw [f4]
  simp only [f2, f3, f5, f6, BitVec.reduceToNat, pregAt, fin3, needSome, tyc, amc]

theorem RoundTrip.rol (p : PReg) (am : Am) (ty : Ty) (d : BitVec 12) : RoundTrip.Statement (.rol p am ty d) := by
  intro word h e
  have e : (16#6 ++ (BitVec.ofFin (w := 3) p) ++ am.code ++ 13#5 ++ ty.code ++ d : BitVec 32) = word := Option.some.inj e
  have f := fld_of (6+3+2+5+4+12) _ word (congrArg BitVec.toNat e)
  have f1 : fld word 26 6 = 16#6 := (f _ _).trans <| hi (by decide) <| hi (by decide) <| hi (by decide) <| hi (by decide) <| hi (by decide) <| ext_all _
  have f2 : fld word 23 3 = (BitVec.ofFin (w := 3) p) := (f _ _).trans <| hi (by decide) <| hi (by decide) <| hi (by decide) <| hi (by decide) <| lo (by decide) (ext_all _)
  have f3 : fld word 21 2 = am.code := (f _ _).trans <| hi (by decide) <| hi (by decide) <| hi (by decide) <| lo (by decide) (ext_all _)
  have f4 : fld word 16 5 = 13#5 := (f _ _).trans <| hi (by decide) <| hi (by decide) <| lo (by decide) (ext_all _)
  have f5 : fld word 12 4 = ty.code := (f _ _).trans <| hi (by decide) <| lo (by decide) (ext_all _)
  have f6 : fld word 0 12 = d := (f _ _).trans <| lo (by decide) (ext_all _)
  refine ok_of word _ ?_ h
  rw [raw_10 word f1]; unfold decode10; rw [f4]
  simp only [f2, f3, f5, f6, BitVec.reduceToNat, pregAt, fin3, needSome, tyc, amc]

theorem RoundTrip.ror (p : PReg) (am : Am) (ty : Ty) (d : BitVec 12) : RoundTrip.Statement (.ror p am ty d) := by
  intro word h e
  have e : (16#6 ++ (BitVec.ofFin (w := 3) p) ++ am.code ++ 14#5 ++ ty.code ++ d : BitVec 32) = word := Option.some.inj e
  have f := fld_of (6+3+2+5+4+12) _ word (congrArg BitVec.toNat e)
  have f1 : fld word 26 6 = 16#6 := (f _ _).trans <| hi (by decide) <| hi (by decide) <| hi (by decide) <| hi (by decide) <| hi (by decide) <| ext_all _
  have f2 : fld word 23 3 = (BitVec.ofFin (w := 3) p) := (f _ _).trans <| hi (by decide) <| hi (by decide) <| hi (by decide) <| hi (by decide) <| lo (by decide) (ext_all _)
  have f3 : fld word 21 2 = am.code := (f _ _).trans <| hi (by decide) <| hi (by decide) <| hi (by decide) <| lo (by decide) (ext_all _)
  have f4 : fld word 16 5 = 14#5 := (f _ _).trans <| hi (by decide) <| hi (by decide) <| lo (by decide) (ext_all _)
  have f5 : fld word 12 4 = ty.code := (f _ _).trans <| hi (by decide) <| lo (by decide) (ext_all _)
  have f6 : fld word 0 12 = d := (f _ _).trans <| lo (by decide) (ext_all _)
  refine ok_of word _ ?_ h
  rw [raw_10 word f1]; unfold decode10; rw [f4]
  simp only [f2, f3, f5, f6, BitVec.reduceToNat, pregAt, fin3, needSome, tyc, amc]

theorem RoundTrip.min (p : PReg) (am : Am) (ty : Ty) (d : BitVec 12) : RoundTrip.Statement (.min p am ty d) := by
  intro word h e
  have e : (16#6 ++ (BitVec.ofFin (w := 3) p) ++ am.code ++ 15#5 ++ ty.code ++ d : BitVec 32) = word := Option.some.inj e
  have f := fld_of (6+3+2+5+4+12) _ word (congrArg BitVec.toNat e)
  have f1 : fld word 26 6 = 16#6 := (f _ _).trans <| hi (by decide) <| hi (by decide) <| hi (by decide) <| hi (by decide) <| hi (by decide) <| ext_all _
  have f2 : fld word 23 3 = (BitVec.ofFin (w := 3) p) := (f _ _).trans <| hi (by decide) <| hi (by decide) <| hi (by decide) <| hi (by decide) <| lo (by decide) (ext_all _)
  have f3 : fld word 21 2 = am.code := (f _ _).trans <| hi (by decide) <| hi (by decide) <| hi (by decide) <| lo (by decide) (ext_all _)
  have f4 : fld word 16 5 = 15#5 := (f _ _).trans <| hi (by decide) <| hi (by decide) <| lo (by decide) (ext_all _)
  have f5 : fld word 12 4 = ty.code := (f _ _).trans <| hi (by decide) <| lo (by decide) (ext_all _)
  have f6 : fld word 0 12 = d := (f _ _).trans <| lo (by decide) (ext_all _)
  refine ok_of word _ ?_ h
  rw [raw_10 word f1]; unfold decode10; rw [f4]
  simp only [f2, f3, f5, f6, BitVec.reduceToNat, pregAt, fin3, needSome, tyc, amc]

theorem RoundTrip.max (p : PReg) (am : Am) (ty : Ty) (d : BitVec 12) : RoundTrip.Statement (.max p am ty d) := by
  intro word h e
  have e : (16#6 ++ (BitVec.ofFin (w := 3) p) ++ am.code ++ 16#5 ++ ty.code ++ d : BitVec 32) = word := Option.some.inj e
  have f := fld_of (6+3+2+5+4+12) _ word (congrArg BitVec.toNat e)
  have f1 : fld word 26 6 = 16#6 := (f _ _).trans <| hi (by decide) <| hi (by decide) <| hi (by decide) <| hi (by decide) <| hi (by decide) <| ext_all _
  have f2 : fld word 23 3 = (BitVec.ofFin (w := 3) p) := (f _ _).trans <| hi (by decide) <| hi (by decide) <| hi (by decide) <| hi (by decide) <| lo (by decide) (ext_all _)
  have f3 : fld word 21 2 = am.code := (f _ _).trans <| hi (by decide) <| hi (by decide) <| hi (by decide) <| lo (by decide) (ext_all _)
  have f4 : fld word 16 5 = 16#5 := (f _ _).trans <| hi (by decide) <| hi (by decide) <| lo (by decide) (ext_all _)
  have f5 : fld word 12 4 = ty.code := (f _ _).trans <| hi (by decide) <| lo (by decide) (ext_all _)
  have f6 : fld word 0 12 = d := (f _ _).trans <| lo (by decide) (ext_all _)
  refine ok_of word _ ?_ h
  rw [raw_10 word f1]; unfold decode10; rw [f4]
  simp only [f2, f3, f5, f6, BitVec.reduceToNat, pregAt, fin3, needSome, tyc, amc]

theorem RoundTrip.cmp (p : PReg) (am : Am) (ty : Ty) (d : BitVec 12) : RoundTrip.Statement (.cmp p am ty d) := by
  intro word h e
  have e : (16#6 ++ (BitVec.ofFin (w := 3) p) ++ am.code ++ 17#5 ++ ty.code ++ d : BitVec 32) = word := Option.some.inj e
  have f := fld_of (6+3+2+5+4+12) _ word (congrArg BitVec.toNat e)
  have f1 : fld word 26 6 = 16#6 := (f _ _).trans <| hi (by decide) <| hi (by decide) <| hi (by decide) <| hi (by decide) <| hi (by decide) <| ext_all _
  have f2 : fld word 23 3 = (BitVec.ofFin (w := 3) p) := (f _ _).trans <| hi (by decide) <| hi (by decide) <| hi (by decide) <| hi (by decide) <| lo (by decide) (ext_all _)
  have f3 : fld word 21 2 = am.code := (f _ _).trans <| hi (by decide) <| hi (by decide) <| hi (by decide) <| lo (by decide) (ext_all _)
  have f4 : fld word 16 5 = 17#5 := (f _ _).trans <| hi (by decide) <| hi (by decide) <| lo (by decide) (ext_all _)
  have f5 : fld word 12 4 = ty.code := (f _ _).trans <| hi (by decide) <| lo (by decide) (ext_all _)
  have f6 : fld word 0 12 = d := (f _ _).trans <| lo (by decide) (ext_all _)
  refine ok_of word _ ?_ h
  rw [raw_10 word f1]; unfold decode10; rw [f4]
  simp only [f2, f3, f5, f6, BitVec.reduceToNat, pregAt, fin3, needSome, tyc, amc]

theorem RoundTrip.tst (p : PReg) (am : Am) (ty : Ty) (d : BitVec 12) : RoundTrip.Statement (.tst p am ty d) := by
  intro word h e
  have e : (16#6 ++ (BitVec.ofFin (w := 3) p) ++ am.code ++ 18#5 ++ ty.code ++ d : BitVec 32) = word := Option.some.inj e
  have f := fld_of (6+3+2+5+4+12) _ word (congrArg BitVec.toNat e)
  have f1 : fld word 26 6 = 16#6 := (f _ _).trans <| hi (by decide) <| hi (by decide) <| hi (by decide) <| hi (by decide) <| hi (by decide) <| ext_all _
  have f2 : fld word 23 3 = (BitVec.ofFin (w := 3) p) := (f _ _).trans <| hi (by decide) <| hi (by decide) <| hi (by decide) <| hi (by decide) <| lo (by decide) (ext_all _)
  have f3 : fld word 21 2 = am.code := (f _ _).trans <| hi (by decide) <| hi (by decide) <| hi (by decide) <| lo (by decide) (ext_all _)
  have f4 : fld word 16 5 = 18#5 := (f _ _).trans <| hi (by decide) <| hi (by decide) <| lo (by decide) (ext_all _)
  have f5 : fld word 12 4 = ty.code := (f _ _).trans <| hi (by decide) <| lo (by decide) (ext_all _)
  have f6 : fld word 0 12 = d := (f _ _).trans <| lo (by decide) (ext_all _)
  refine ok_of word _ ?_ h
  rw [raw_10 word f1]; unfold decode10; rw [f4]
  simp only [f2, f3, f5, f6, BitVec.reduceToNat, pregAt, fin3, needSome, tyc, amc]

theorem RoundTrip.popc (p : PReg) (am : Am) (ty : Ty) (d : BitVec 12) : RoundTrip.Statement (.popc p am ty d) := by
  intro word h e
  have e : (16#6 ++ (BitVec.ofFin (w := 3) p) ++ am.code ++ 19#5 ++ ty.code ++ d : BitVec 32) = word := Option.some.inj e
  have f := fld_of (6+3+2+5+4+12) _ word (congrArg BitVec.toNat e)
  have f1 : fld word 26 6 = 16#6 := (f _ _).trans <| hi (by decide) <| hi (by decide) <| hi (by decide) <| hi (by decide) <| hi (by decide) <| ext_all _
  have f2 : fld word 23 3 = (BitVec.ofFin (w := 3) p) := (f _ _).trans <| hi (by decide) <| hi (by decide) <| hi (by decide) <| hi (by decide) <| lo (by decide) (ext_all _)
  have f3 : fld word 21 2 = am.code := (f _ _).trans <| hi (by decide) <| hi (by decide) <| hi (by decide) <| lo (by decide) (ext_all _)
  have f4 : fld word 16 5 = 19#5 := (f _ _).trans <| hi (by decide) <| hi (by decide) <| lo (by decide) (ext_all _)
  have f5 : fld word 12 4 = ty.code := (f _ _).trans <| hi (by decide) <| lo (by decide) (ext_all _)
  have f6 : fld word 0 12 = d := (f _ _).trans <| lo (by decide) (ext_all _)
  refine ok_of word _ ?_ h
  rw [raw_10 word f1]; unfold decode10; rw [f4]
  simp only [f2, f3, f5, f6, BitVec.reduceToNat, pregAt, fin3, needSome, tyc, amc]

theorem RoundTrip.clz (p : PReg) (am : Am) (ty : Ty) (d : BitVec 12) : RoundTrip.Statement (.clz p am ty d) := by
  intro word h e
  have e : (16#6 ++ (BitVec.ofFin (w := 3) p) ++ am.code ++ 20#5 ++ ty.code ++ d : BitVec 32) = word := Option.some.inj e
  have f := fld_of (6+3+2+5+4+12) _ word (congrArg BitVec.toNat e)
  have f1 : fld word 26 6 = 16#6 := (f _ _).trans <| hi (by decide) <| hi (by decide) <| hi (by decide) <| hi (by decide) <| hi (by decide) <| ext_all _
  have f2 : fld word 23 3 = (BitVec.ofFin (w := 3) p) := (f _ _).trans <| hi (by decide) <| hi (by decide) <| hi (by decide) <| hi (by decide) <| lo (by decide) (ext_all _)
  have f3 : fld word 21 2 = am.code := (f _ _).trans <| hi (by decide) <| hi (by decide) <| hi (by decide) <| lo (by decide) (ext_all _)
  have f4 : fld word 16 5 = 20#5 := (f _ _).trans <| hi (by decide) <| hi (by decide) <| lo (by decide) (ext_all _)
  have f5 : fld word 12 4 = ty.code := (f _ _).trans <| hi (by decide) <| lo (by decide) (ext_all _)
  have f6 : fld word 0 12 = d := (f _ _).trans <| lo (by decide) (ext_all _)
  refine ok_of word _ ?_ h
  rw [raw_10 word f1]; unfold decode10; rw [f4]
  simp only [f2, f3, f5, f6, BitVec.reduceToNat, pregAt, fin3, needSome, tyc, amc]

theorem RoundTrip.ctz (p : PReg) (am : Am) (ty : Ty) (d : BitVec 12) : RoundTrip.Statement (.ctz p am ty d) := by
  intro word h e
  have e : (16#6 ++ (BitVec.ofFin (w := 3) p) ++ am.code ++ 21#5 ++ ty.code ++ d : BitVec 32) = word := Option.some.inj e
  have f := fld_of (6+3+2+5+4+12) _ word (congrArg BitVec.toNat e)
  have f1 : fld word 26 6 = 16#6 := (f _ _).trans <| hi (by decide) <| hi (by decide) <| hi (by decide) <| hi (by decide) <| hi (by decide) <| ext_all _
  have f2 : fld word 23 3 = (BitVec.ofFin (w := 3) p) := (f _ _).trans <| hi (by decide) <| hi (by decide) <| hi (by decide) <| hi (by decide) <| lo (by decide) (ext_all _)
  have f3 : fld word 21 2 = am.code := (f _ _).trans <| hi (by decide) <| hi (by decide) <| hi (by decide) <| lo (by decide) (ext_all _)
  have f4 : fld word 16 5 = 21#5 := (f _ _).trans <| hi (by decide) <| hi (by decide) <| lo (by decide) (ext_all _)
  have f5 : fld word 12 4 = ty.code := (f _ _).trans <| hi (by decide) <| lo (by decide) (ext_all _)
  have f6 : fld word 0 12 = d := (f _ _).trans <| lo (by decide) (ext_all _)
  refine ok_of word _ ?_ h
  rw [raw_10 word f1]; unfold decode10; rw [f4]
  simp only [f2, f3, f5, f6, BitVec.reduceToNat, pregAt, fin3, needSome, tyc, amc]

theorem RoundTrip.bswap (p : PReg) (am : Am) (ty : Ty) (d : BitVec 12) : RoundTrip.Statement (.bswap p am ty d) := by
  intro word h e
  have e : (16#6 ++ (BitVec.ofFin (w := 3) p) ++ am.code ++ 22#5 ++ ty.code ++ d : BitVec 32) = word := Option.some.inj e
  have f := fld_of (6+3+2+5+4+12) _ word (congrArg BitVec.toNat e)
  have f1 : fld word 26 6 = 16#6 := (f _ _).trans <| hi (by decide) <| hi (by decide) <| hi (by decide) <| hi (by decide) <| hi (by decide) <| ext_all _
  have f2 : fld word 23 3 = (BitVec.ofFin (w := 3) p) := (f _ _).trans <| hi (by decide) <| hi (by decide) <| hi (by decide) <| hi (by decide) <| lo (by decide) (ext_all _)
  have f3 : fld word 21 2 = am.code := (f _ _).trans <| hi (by decide) <| hi (by decide) <| hi (by decide) <| lo (by decide) (ext_all _)
  have f4 : fld word 16 5 = 22#5 := (f _ _).trans <| hi (by decide) <| hi (by decide) <| lo (by decide) (ext_all _)
  have f5 : fld word 12 4 = ty.code := (f _ _).trans <| hi (by decide) <| lo (by decide) (ext_all _)
  have f6 : fld word 0 12 = d := (f _ _).trans <| lo (by decide) (ext_all _)
  refine ok_of word _ ?_ h
  rw [raw_10 word f1]; unfold decode10; rw [f4]
  simp only [f2, f3, f5, f6, BitVec.reduceToNat, pregAt, fin3, needSome, tyc, amc]

theorem RoundTrip.sta (p : PReg) (am : Am) (ty : Ty) (d : BitVec 12) : RoundTrip.Statement (.sta p am ty d) := by
  intro word h e
  have e : (16#6 ++ (BitVec.ofFin (w := 3) p) ++ am.code ++ 23#5 ++ ty.code ++ d : BitVec 32) = word := Option.some.inj e
  have f := fld_of (6+3+2+5+4+12) _ word (congrArg BitVec.toNat e)
  have f1 : fld word 26 6 = 16#6 := (f _ _).trans <| hi (by decide) <| hi (by decide) <| hi (by decide) <| hi (by decide) <| hi (by decide) <| ext_all _
  have f2 : fld word 23 3 = (BitVec.ofFin (w := 3) p) := (f _ _).trans <| hi (by decide) <| hi (by decide) <| hi (by decide) <| hi (by decide) <| lo (by decide) (ext_all _)
  have f3 : fld word 21 2 = am.code := (f _ _).trans <| hi (by decide) <| hi (by decide) <| hi (by decide) <| lo (by decide) (ext_all _)
  have f4 : fld word 16 5 = 23#5 := (f _ _).trans <| hi (by decide) <| hi (by decide) <| lo (by decide) (ext_all _)
  have f5 : fld word 12 4 = ty.code := (f _ _).trans <| hi (by decide) <| lo (by decide) (ext_all _)
  have f6 : fld word 0 12 = d := (f _ _).trans <| lo (by decide) (ext_all _)
  refine ok_of word _ ?_ h
  rw [raw_10 word f1]; unfold decode10; rw [f4]
  simp only [f2, f3, f5, f6, BitVec.reduceToNat, pregAt, fin3, needSome, tyc, amc]

theorem RoundTrip.mul (p : PReg) (am : Am) (ty : Ty) (d : BitVec 12) : RoundTrip.Statement (.mul p am ty d) := by
  intro word h e
  have e : (17#6 ++ (BitVec.ofFin (w := 3) p) ++ am.code ++ 0#5 ++ ty.code ++ d : BitVec 32) = word := Option.some.inj e
  have f := fld_of (6+3+2+5+4+12) _ word (congrArg BitVec.toNat e)
  have f1 : fld word 26 6 = 17#6 := (f _ _).trans <| hi (by decide) <| hi (by decide) <| hi (by decide) <| hi (by decide) <| hi (by decide) <| ext_all _
  have f2 : fld word 23 3 = (BitVec.ofFin (w := 3) p) := (f _ _).trans <| hi (by decide) <| hi (by decide) <| hi (by decide) <| hi (by decide) <| lo (by decide) (ext_all _)
  have f3 : fld word 21 2 = am.code := (f _ _).trans <| hi (by decide) <| hi (by decide) <| hi (by decide) <| lo (by decide) (ext_all _)
  have f4 : fld word 16 5 = 0#5 := (f _ _).trans <| hi (by decide) <| hi (by decide) <| lo (by decide) (ext_all _)
  have f5 : fld word 12 4 = ty.code := (f _ _).trans <| hi (by decide) <| lo (by decide) (ext_all _)
  have f6 : fld word 0 12 = d := (f _ _).trans <| lo (by decide) (ext_all _)
  refine ok_of word _ ?_ h
  rw [raw_11 word f1]; unfold decode11; rw [f4]
  simp only [f2, f3, f5, f6, BitVec.reduceToNat, pregAt, fin3, needSome, tyc, amc]

theorem RoundTrip.mulh (p : PReg) (am : Am) (ty : Ty) (d : BitVec 12) : RoundTrip.Statement (.mulh p am ty d) := by
  intro word h e
  have e : (17#6 ++ (BitVec.ofFin (w := 3) p) ++ am.code ++ 1#5 ++ ty.code ++ d : BitVec 32) = word := Option.some.inj e
  have f := fld_of (6+3+2+5+4+12) _ word (congrArg BitVec.toNat e)
  have f1 : fld word 26 6 = 17#6 := (f _ _).trans <| hi (by decide) <| hi (by decide) <| hi (by decide) <| hi (by decide) <| hi (by decide) <| ext_all _
  have f2 : fld word 23 3 = (BitVec.ofFin (w := 3) p) := (f _ _).trans <| hi (by decide) <| hi (by decide) <| hi (by decide) <| hi (by decide) <| lo (by decide) (ext_all _)
  have f3 : fld word 21 2 = am.code := (f _ _).trans <| hi (by decide) <| hi (by decide) <| hi (by decide) <| lo (by decide) (ext_all _)
  have f4 : fld word 16 5 = 1#5 := (f _ _).trans <| hi (by decide) <| hi (by decide) <| lo (by decide) (ext_all _)
  have f5 : fld word 12 4 = ty.code := (f _ _).trans <| hi (by decide) <| lo (by decide) (ext_all _)
  have f6 : fld word 0 12 = d := (f _ _).trans <| lo (by decide) (ext_all _)
  refine ok_of word _ ?_ h
  rw [raw_11 word f1]; unfold decode11; rw [f4]
  simp only [f2, f3, f5, f6, BitVec.reduceToNat, pregAt, fin3, needSome, tyc, amc]

theorem RoundTrip.muls (p : PReg) (am : Am) (ty : Ty) (d : BitVec 12) : RoundTrip.Statement (.muls p am ty d) := by
  intro word h e
  have e : (17#6 ++ (BitVec.ofFin (w := 3) p) ++ am.code ++ 2#5 ++ ty.code ++ d : BitVec 32) = word := Option.some.inj e
  have f := fld_of (6+3+2+5+4+12) _ word (congrArg BitVec.toNat e)
  have f1 : fld word 26 6 = 17#6 := (f _ _).trans <| hi (by decide) <| hi (by decide) <| hi (by decide) <| hi (by decide) <| hi (by decide) <| ext_all _
  have f2 : fld word 23 3 = (BitVec.ofFin (w := 3) p) := (f _ _).trans <| hi (by decide) <| hi (by decide) <| hi (by decide) <| hi (by decide) <| lo (by decide) (ext_all _)
  have f3 : fld word 21 2 = am.code := (f _ _).trans <| hi (by decide) <| hi (by decide) <| hi (by decide) <| lo (by decide) (ext_all _)
  have f4 : fld word 16 5 = 2#5 := (f _ _).trans <| hi (by decide) <| hi (by decide) <| lo (by decide) (ext_all _)
  have f5 : fld word 12 4 = ty.code := (f _ _).trans <| hi (by decide) <| lo (by decide) (ext_all _)
  have f6 : fld word 0 12 = d := (f _ _).trans <| lo (by decide) (ext_all _)
  refine ok_of word _ ?_ h
  rw [raw_11 word f1]; unfold decode11; rw [f4]
  simp only [f2, f3, f5, f6, BitVec.reduceToNat, pregAt, fin3, needSome, tyc, amc]

theorem RoundTrip.div (p : PReg) (am : Am) (ty : Ty) (d : BitVec 12) : RoundTrip.Statement (.div p am ty d) := by
  intro word h e
  have e : (17#6 ++ (BitVec.ofFin (w := 3) p) ++ am.code ++ 3#5 ++ ty.code ++ d : BitVec 32) = word := Option.some.inj e
  have f := fld_of (6+3+2+5+4+12) _ word (congrArg BitVec.toNat e)
  have f1 : fld word 26 6 = 17#6 := (f _ _).trans <| hi (by decide) <| hi (by decide) <| hi (by decide) <| hi (by decide) <| hi (by decide) <| ext_all _
  have f2 : fld word 23 3 = (BitVec.ofFin (w := 3) p) := (f _ _).trans <| hi (by decide) <| hi (by decide) <| hi (by decide) <| hi (by decide) <| lo (by decide) (ext_all _)
  have f3 : fld word 21 2 = am.code := (f _ _).trans <| hi (by decide) <| hi (by decide) <| hi (by decide) <| lo (by decide) (ext_all _)
  have f4 : fld word 16 5 = 3#5 := (f _ _).trans <| hi (by decide) <| hi (by decide) <| lo (by decide) (ext_all _)
  have f5 : fld word 12 4 = ty.code := (f _ _).trans <| hi (by decide) <| lo (by decide) (ext_all _)
  have f6 : fld word 0 12 = d := (f _ _).trans <| lo (by decide) (ext_all _)
  refine ok_of word _ ?_ h
  rw [raw_11 word f1]; unfold decode11; rw [f4]
  simp only [f2, f3, f5, f6, BitVec.reduceToNat, pregAt, fin3, needSome, tyc, amc]

theorem RoundTrip.rem (p : PReg) (am : Am) (ty : Ty) (d : BitVec 12) : RoundTrip.Statement (.rem p am ty d) := by
  intro word h e
  have e : (17#6 ++ (BitVec.ofFin (w := 3) p) ++ am.code ++ 4#5 ++ ty.code ++ d : BitVec 32) = word := Option.some.inj e
  have f := fld_of (6+3+2+5+4+12) _ word (congrArg BitVec.toNat e)
  have f1 : fld word 26 6 = 17#6 := (f _ _).trans <| hi (by decide) <| hi (by decide) <| hi (by decide) <| hi (by decide) <| hi (by decide) <| ext_all _
  have f2 : fld word 23 3 = (BitVec.ofFin (w := 3) p) := (f _ _).trans <| hi (by decide) <| hi (by decide) <| hi (by decide) <| hi (by decide) <| lo (by decide) (ext_all _)
  have f3 : fld word 21 2 = am.code := (f _ _).trans <| hi (by decide) <| hi (by decide) <| hi (by decide) <| lo (by decide) (ext_all _)
  have f4 : fld word 16 5 = 4#5 := (f _ _).trans <| hi (by decide) <| hi (by decide) <| lo (by decide) (ext_all _)
  have f5 : fld word 12 4 = ty.code := (f _ _).trans <| hi (by decide) <| lo (by decide) (ext_all _)
  have f6 : fld word 0 12 = d := (f _ _).trans <| lo (by decide) (ext_all _)
  refine ok_of word _ ?_ h
  rw [raw_11 word f1]; unfold decode11; rw [f4]
  simp only [f2, f3, f5, f6, BitVec.reduceToNat, pregAt, fin3, needSome, tyc, amc]

theorem RoundTrip.fadd (p : PReg) (am : Am) (ty : Ty) (r : Rnd) (d : BitVec 9) : RoundTrip.Statement (.fadd p am ty r d) := by
  intro word h e
  have e : (18#6 ++ (BitVec.ofFin (w := 3) p) ++ am.code ++ 0#5 ++ ty.code ++ r.code ++ d : BitVec 32) = word := Option.some.inj e
  have f := fld_of (6+3+2+5+4+3+9) _ word (congrArg BitVec.toNat e)
  have f1 : fld word 26 6 = 18#6 := (f _ _).trans <| hi (by decide) <| hi (by decide) <| hi (by decide) <| hi (by decide) <| hi (by decide) <| hi (by decide) <| ext_all _
  have f2 : fld word 23 3 = (BitVec.ofFin (w := 3) p) := (f _ _).trans <| hi (by decide) <| hi (by decide) <| hi (by decide) <| hi (by decide) <| hi (by decide) <| lo (by decide) (ext_all _)
  have f3 : fld word 21 2 = am.code := (f _ _).trans <| hi (by decide) <| hi (by decide) <| hi (by decide) <| hi (by decide) <| lo (by decide) (ext_all _)
  have f4 : fld word 16 5 = 0#5 := (f _ _).trans <| hi (by decide) <| hi (by decide) <| hi (by decide) <| lo (by decide) (ext_all _)
  have f5 : fld word 12 4 = ty.code := (f _ _).trans <| hi (by decide) <| hi (by decide) <| lo (by decide) (ext_all _)
  have f6 : fld word 9 3 = r.code := (f _ _).trans <| hi (by decide) <| lo (by decide) (ext_all _)
  have f7 : fld word 0 9 = d := (f _ _).trans <| lo (by decide) (ext_all _)
  refine ok_of word _ ?_ h
  rw [raw_12 word f1]; unfold decode12; rw [f4]
  simp only [f2, f3, f5, f6, f7, BitVec.reduceToNat, pregAt, fin3, needSome, tyc, amc, rndc]

theorem RoundTrip.fsub (p : PReg) (am : Am) (ty : Ty) (r : Rnd) (d : BitVec 9) : RoundTrip.Statement (.fsub p am ty r d) := by
  intro word h e
  have e : (18#6 ++ (BitVec.ofFin (w := 3) p) ++ am.code ++ 1#5 ++ ty.code ++ r.code ++ d : BitVec 32) = word := Option.some.inj e
  have f := fld_of (6+3+2+5+4+3+9) _ word (congrArg BitVec.toNat e)
  have f1 : fld word 26 6 = 18#6 := (f _ _).trans <| hi (by decide) <| hi (by decide) <| hi (by decide) <| hi (by decide) <| hi (by decide) <| hi (by decide) <| ext_all _
  have f2 : fld word 23 3 = (BitVec.ofFin (w := 3) p) := (f _ _).trans <| hi (by decide) <| hi (by decide) <| hi (by decide) <| hi (by decide) <| hi (by decide) <| lo (by decide) (ext_all _)
  have f3 : fld word 21 2 = am.code := (f _ _).trans <| hi (by decide) <| hi (by decide) <| hi (by decide) <| hi (by decide) <| lo (by decide) (ext_all _)
  have f4 : fld word 16 5 = 1#5 := (f _ _).trans <| hi (by decide) <| hi (by decide) <| hi (by decide) <| lo (by decide) (ext_all _)
  have f5 : fld word 12 4 = ty.code := (f _ _).trans <| hi (by decide) <| hi (by decide) <| lo (by decide) (ext_all _)
  have f6 : fld word 9 3 = r.code := (f _ _).trans <| hi (by decide) <| lo (by decide) (ext_all _)
  have f7 : fld word 0 9 = d := (f _ _).trans <| lo (by decide) (ext_all _)
  refine ok_of word _ ?_ h
  rw [raw_12 word f1]; unfold decode12; rw [f4]
  simp only [f2, f3, f5, f6, f7, BitVec.reduceToNat, pregAt, fin3, needSome, tyc, amc, rndc]

theorem RoundTrip.frsub (p : PReg) (am : Am) (ty : Ty) (r : Rnd) (d : BitVec 9) : RoundTrip.Statement (.frsub p am ty r d) := by
  intro word h e
  have e : (18#6 ++ (BitVec.ofFin (w := 3) p) ++ am.code ++ 2#5 ++ ty.code ++ r.code ++ d : BitVec 32) = word := Option.some.inj e
  have f := fld_of (6+3+2+5+4+3+9) _ word (congrArg BitVec.toNat e)
  have f1 : fld word 26 6 = 18#6 := (f _ _).trans <| hi (by decide) <| hi (by decide) <| hi (by decide) <| hi (by decide) <| hi (by decide) <| hi (by decide) <| ext_all _
  have f2 : fld word 23 3 = (BitVec.ofFin (w := 3) p) := (f _ _).trans <| hi (by decide) <| hi (by decide) <| hi (by decide) <| hi (by decide) <| hi (by decide) <| lo (by decide) (ext_all _)
  have f3 : fld word 21 2 = am.code := (f _ _).trans <| hi (by decide) <| hi (by decide) <| hi (by decide) <| hi (by decide) <| lo (by decide) (ext_all _)
  have f4 : fld word 16 5 = 2#5 := (f _ _).trans <| hi (by decide) <| hi (by decide) <| hi (by decide) <| lo (by decide) (ext_all _)
  have f5 : fld word 12 4 = ty.code := (f _ _).trans <| hi (by decide) <| hi (by decide) <| lo (by decide) (ext_all _)
  have f6 : fld word 9 3 = r.code := (f _ _).trans <| hi (by decide) <| lo (by decide) (ext_all _)
  have f7 : fld word 0 9 = d := (f _ _).trans <| lo (by decide) (ext_all _)
  refine ok_of word _ ?_ h
  rw [raw_12 word f1]; unfold decode12; rw [f4]
  simp only [f2, f3, f5, f6, f7, BitVec.reduceToNat, pregAt, fin3, needSome, tyc, amc, rndc]

theorem RoundTrip.fmul (p : PReg) (am : Am) (ty : Ty) (r : Rnd) (d : BitVec 9) : RoundTrip.Statement (.fmul p am ty r d) := by
  intro word h e
  have e : (18#6 ++ (BitVec.ofFin (w := 3) p) ++ am.code ++ 3#5 ++ ty.code ++ r.code ++ d : BitVec 32) = word := Option.some.inj e
  have f := fld_of (6+3+2+5+4+3+9) _ word (congrArg BitVec.toNat e)
  have f1 : fld word 26 6 = 18#6 := (f _ _).trans <| hi (by decide) <| hi (by decide) <| hi (by decide) <| hi (by decide) <| hi (by decide) <| hi (by decide) <| ext_all _
  have f2 : fld word 23 3 = (BitVec.ofFin (w := 3) p) := (f _ _).trans <| hi (by decide) <| hi (by decide) <| hi (by decide) <| hi (by decide) <| hi (by decide) <| lo (by decide) (ext_all _)
  have f3 : fld word 21 2 = am.code := (f _ _).trans <| hi (by decide) <| hi (by decide) <| hi (by decide) <| hi (by decide) <| lo (by decide) (ext_all _)
  have f4 : fld word 16 5 = 3#5 := (f _ _).trans <| hi (by decide) <| hi (by decide) <| hi (by decide) <| lo (by decide) (ext_all _)
  have f5 : fld word 12 4 = ty.code := (f _ _).trans <| hi (by decide) <| hi (by decide) <| lo (by decide) (ext_all _)
  have f6 : fld word 9 3 = r.code := (f _ _).trans <| hi (by decide) <| lo (by decide) (ext_all _)
  have f7 : fld word 0 9 = d := (f _ _).trans <| lo (by decide) (ext_all _)
  refine ok_of word _ ?_ h
  rw [raw_12 word f1]; unfold decode12; rw [f4]
  simp only [f2, f3, f5, f6, f7, BitVec.reduceToNat, pregAt, fin3, needSome, tyc, amc, rndc]

theorem RoundTrip.fdiv (p : PReg) (am : Am) (ty : Ty) (r : Rnd) (d : BitVec 9) : RoundTrip.Statement (.fdiv p am ty r d) := by
  intro word h e
  have e : (18#6 ++ (BitVec.ofFin (w := 3) p) ++ am.code ++ 4#5 ++ ty.code ++ r.code ++ d : BitVec 32) = word := Option.some.inj e
  have f := fld_of (6+3+2+5+4+3+9) _ word (congrArg BitVec.toNat e)
  have f1 : fld word 26 6 = 18#6 := (f _ _).trans <| hi (by decide) <| hi (by decide) <| hi (by decide) <| hi (by decide) <| hi (by decide) <| hi (by decide) <| ext_all _
  have f2 : fld word 23 3 = (BitVec.ofFin (w := 3) p) := (f _ _).trans <| hi (by decide) <| hi (by decide) <| hi (by decide) <| hi (by decide) <| hi (by decide) <| lo (by decide) (ext_all _)
  have f3 : fld word 21 2 = am.code := (f _ _).trans <| hi (by decide) <| hi (by decide) <| hi (by decide) <| hi (by decide) <| lo (by decide) (ext_all _)
  have f4 : fld word 16 5 = 4#5 := (f _ _).trans <| hi (by decide) <| hi (by decide) <| hi (by decide) <| lo (by decide) (ext_all _)
  have f5 : fld word 12 4 = ty.code := (f _ _).trans <| hi (by decide) <| hi (by decide) <| lo (by decide) (ext_all _)
  have f6 : fld word 9 3 = r.code := (f _ _).trans <| hi (by decide) <| lo (by decide) (ext_all _)
  have f7 : fld word 0 9 = d := (f _ _).trans <| lo (by decide) (ext_all _)
  refine ok_of word _ ?_ h
  rw [raw_12 word f1]; unfold decode12; rw [f4]
  simp only [f2, f3, f5, f6, f7, BitVec.reduceToNat, pregAt, fin3, needSome, tyc, amc, rndc]

theorem RoundTrip.frdiv (p : PReg) (am : Am) (ty : Ty) (r : Rnd) (d : BitVec 9) : RoundTrip.Statement (.frdiv p am ty r d) := by
  intro word h e
  have e : (18#6 ++ (BitVec.ofFin (w := 3) p) ++ am.code ++ 5#5 ++ ty.code ++ r.code ++ d : BitVec 32) = word := Option.some.inj e
  have f := fld_of (6+3+2+5+4+3+9) _ word (congrArg BitVec.toNat e)
  have f1 : fld word 26 6 = 18#6 := (f _ _).trans <| hi (by decide) <| hi (by decide) <| hi (by decide) <| hi (by decide) <| hi (by decide) <| hi (by decide) <| ext_all _
  have f2 : fld word 23 3 = (BitVec.ofFin (w := 3) p) := (f _ _).trans <| hi (by decide) <| hi (by decide) <| hi (by decide) <| hi (by decide) <| hi (by decide) <| lo (by decide) (ext_all _)
  have f3 : fld word 21 2 = am.code := (f _ _).trans <| hi (by decide) <| hi (by decide) <| hi (by decide) <| hi (by decide) <| lo (by decide) (ext_all _)
  have f4 : fld word 16 5 = 5#5 := (f _ _).trans <| hi (by decide) <| hi (by decide) <| hi (by decide) <| lo (by decide) (ext_all _)
  have f5 : fld word 12 4 = ty.code := (f _ _).trans <| hi (by decide) <| hi (by decide) <| lo (by decide) (ext_all _)
  have f6 : fld word 9 3 = r.code := (f _ _).trans <| hi (by decide) <| lo (by decide) (ext_all _)
  have f7 : fld word 0 9 = d := (f _ _).trans <| lo (by decide) (ext_all _)
  refine ok_of word _ ?_ h
  rw [raw_12 word f1]; unfold decode12; rw [f4]
  simp only [f2, f3, f5, f6, f7, BitVec.reduceToNat, pregAt, fin3, needSome, tyc, amc, rndc]

theorem RoundTrip.fsqrt (p : PReg) (am : Am) (ty : Ty) (r : Rnd) (d : BitVec 9) : RoundTrip.Statement (.fsqrt p am ty r d) := by
  intro word h e
  have e : (18#6 ++ (BitVec.ofFin (w := 3) p) ++ am.code ++ 6#5 ++ ty.code ++ r.code ++ d : BitVec 32) = word := Option.some.inj e
  have f := fld_of (6+3+2+5+4+3+9) _ word (congrArg BitVec.toNat e)
  have f1 : fld word 26 6 = 18#6 := (f _ _).trans <| hi (by decide) <| hi (by decide) <| hi (by decide) <| hi (by decide) <| hi (by decide) <| hi (by decide) <| ext_all _
  have f2 : fld word 23 3 = (BitVec.ofFin (w := 3) p) := (f _ _).trans <| hi (by decide) <| hi (by decide) <| hi (by decide) <| hi (by decide) <| hi (by decide) <| lo (by decide) (ext_all _)
  have f3 : fld word 21 2 = am.code := (f _ _).trans <| hi (by decide) <| hi (by decide) <| hi (by decide) <| hi (by decide) <| lo (by decide) (ext_all _)
  have f4 : fld word 16 5 = 6#5 := (f _ _).trans <| hi (by decide) <| hi (by decide) <| hi (by decide) <| lo (by decide) (ext_all _)
  have f5 : fld word 12 4 = ty.code := (f _ _).trans <| hi (by decide) <| hi (by decide) <| lo (by decide) (ext_all _)
  have f6 : fld word 9 3 = r.code := (f _ _).trans <| hi (by decide) <| lo (by decide) (ext_all _)
  have f7 : fld word 0 9 = d := (f _ _).trans <| lo (by decide) (ext_all _)
  refine ok_of word _ ?_ h
  rw [raw_12 word f1]; unfold decode12; rw [f4]
  simp only [f2, f3, f5, f6, f7, BitVec.reduceToNat, pregAt, fin3, needSome, tyc, amc, rndc]

theorem RoundTrip.fmin (p : PReg) (am : Am) (ty : Ty) (r : Rnd) (d : BitVec 9) : RoundTrip.Statement (.fmin p am ty r d) := by
  intro word h e
  have e : (18#6 ++ (BitVec.ofFin (w := 3) p) ++ am.code ++ 7#5 ++ ty.code ++ r.code ++ d : BitVec 32) = word := Option.some.inj e
  have f := fld_of (6+3+2+5+4+3+9) _ word (congrArg BitVec.toNat e)
  have f1 : fld word 26 6 = 18#6 := (f _ _).trans <| hi (by decide) <| hi (by decide) <| hi (by decide) <| hi (by decide) <| hi (by decide) <| hi (by decide) <| ext_all _
  have f2 : fld word 23 3 = (BitVec.ofFin (w := 3) p) := (f _ _).trans <| hi (by decide) <| hi (by decide) <| hi (by decide) <| hi (by decide) <| hi (by decide) <| lo (by decide) (ext_all _)
  have f3 : fld word 21 2 = am.code := (f _ _).trans <| hi (by decide) <| hi (by decide) <| hi (by decide) <| hi (by decide) <| lo (by decide) (ext_all _)
  have f4 : fld word 16 5 = 7#5 := (f _ _).trans <| hi (by decide) <| hi (by decide) <| hi (by decide) <| lo (by decide) (ext_all _)
  have f5 : fld word 12 4 = ty.code := (f _ _).trans <| hi (by decide) <| hi (by decide) <| lo (by decide) (ext_all _)
  have f6 : fld word 9 3 = r.code := (f _ _).trans <| hi (by decide) <| lo (by decide) (ext_all _)
  have f7 : fld word 0 9 = d := (f _ _).trans <| lo (by decide) (ext_all _)
  refine ok_of word _ ?_ h
  rw [raw_12 word f1]; unfold decode12; rw [f4]
  simp only [f2, f3, f5, f6, f7, BitVec.reduceToNat, pregAt, fin3, needSome, tyc, amc, rndc]

theorem RoundTrip.fmax (p : PReg) (am : Am) (ty : Ty) (r : Rnd) (d : BitVec 9) : RoundTrip.Statement (.fmax p am ty r d) := by
  intro word h e
  have e : (18#6 ++ (BitVec.ofFin (w := 3) p) ++ am.code ++ 8#5 ++ ty.code ++ r.code ++ d : BitVec 32) = word := Option.some.inj e
  have f := fld_of (6+3+2+5+4+3+9) _ word (congrArg BitVec.toNat e)
  have f1 : fld word 26 6 = 18#6 := (f _ _).trans <| hi (by decide) <| hi (by decide) <| hi (by decide) <| hi (by decide) <| hi (by decide) <| hi (by decide) <| ext_all _
  have f2 : fld word 23 3 = (BitVec.ofFin (w := 3) p) := (f _ _).trans <| hi (by decide) <| hi (by decide) <| hi (by decide) <| hi (by decide) <| hi (by decide) <| lo (by decide) (ext_all _)
  have f3 : fld word 21 2 = am.code := (f _ _).trans <| hi (by decide) <| hi (by decide) <| hi (by decide) <| hi (by decide) <| lo (by decide) (ext_all _)
  have f4 : fld word 16 5 = 8#5 := (f _ _).trans <| hi (by decide) <| hi (by decide) <| hi (by decide) <| lo (by decide) (ext_all _)
  have f5 : fld word 12 4 = ty.code := (f _ _).trans <| hi (by decide) <| hi (by decide) <| lo (by decide) (ext_all _)
  have f6 : fld word 9 3 = r.code := (f _ _).trans <| hi (by decide) <| lo (by decide) (ext_all _)
  have f7 : fld word 0 9 = d := (f _ _).trans <| lo (by decide) (ext_all _)
  refine ok_of word _ ?_ h
  rw [raw_12 word f1]; unfold decode12; rw [f4]
  simp only [f2, f3, f5, f6, f7, BitVec.reduceToNat, pregAt, fin3, needSome, tyc, amc, rndc]

theorem RoundTrip.fabs (p : PReg) (am : Am) (ty : Ty) (d : BitVec 9) : RoundTrip.Statement (.fabs p am ty d) := by
  intro word h e
  have e : (18#6 ++ (BitVec.ofFin (w := 3) p) ++ am.code ++ 9#5 ++ ty.code ++ 0#3 ++ d : BitVec 32) = word := Option.some.inj e
  have f := fld_of (6+3+2+5+4+3+9) _ word (congrArg BitVec.toNat e)
  have f1 : fld word 26 6 = 18#6 := (f _ _).trans <| hi (by decide) <| hi (by decide) <| hi (by decide) <| hi (by decide) <| hi (by decide) <| hi (by decide) <| ext_all _
  have f2 : fld word 23 3 = (BitVec.ofFin (w := 3) p) := (f _ _).trans <| hi (by decide) <| hi (by decide) <| hi (by decide) <| hi (by decide) <| hi (by decide) <| lo (by decide) (ext_all _)
  have f3 : fld word 21 2 = am.code := (f _ _).trans <| hi (by decide) <| hi (by decide) <| hi (by decide) <| hi (by decide) <| lo (by decide) (ext_all _)
  have f4 : fld word 16 5 = 9#5 := (f _ _).trans <| hi (by decide) <| hi (by decide) <| hi (by decide) <| lo (by decide) (ext_all _)
  have f5 : fld word 12 4 = ty.code := (f _ _).trans <| hi (by decide) <| hi (by decide) <| lo (by decide) (ext_all _)
  have f6 : fld word 9 3 = 0#3 := (f _ _).trans <| hi (by decide) <| lo (by decide) (ext_all _)
  have f7 : fld word 0 9 = d := (f _ _).trans <| lo (by decide) (ext_all _)
  refine ok_of word _ ?_ h
  rw [raw_12 word f1]; unfold decode12; rw [f4]
  simp only [f2, f3, f5, f6, f7, BitVec.reduceToNat, pregAt, fin3, needZero, beq_self_eq_true, if_true, needSome, tyc, amc]

theorem RoundTrip.fneg (p : PReg) (am : Am) (ty : Ty) (d : BitVec 9) : RoundTrip.Statement (.fneg p am ty d) := by
  intro word h e
  have e : (18#6 ++ (BitVec.ofFin (w := 3) p) ++ am.code ++ 10#5 ++ ty.code ++ 0#3 ++ d : BitVec 32) = word := Option.some.inj e
  have f := fld_of (6+3+2+5+4+3+9) _ word (congrArg BitVec.toNat e)
  have f1 : fld word 26 6 = 18#6 := (f _ _).trans <| hi (by decide) <| hi (by decide) <| hi (by decide) <| hi (by decide) <| hi (by decide) <| hi (by decide) <| ext_all _
  have f2 : fld word 23 3 = (BitVec.ofFin (w := 3) p) := (f _ _).trans <| hi (by decide) <| hi (by decide) <| hi (by decide) <| hi (by decide) <| hi (by decide) <| lo (by decide) (ext_all _)
  have f3 : fld word 21 2 = am.code := (f _ _).trans <| hi (by decide) <| hi (by decide) <| hi (by decide) <| hi (by decide) <| lo (by decide) (ext_all _)
  have f4 : fld word 16 5 = 10#5 := (f _ _).trans <| hi (by decide) <| hi (by decide) <| hi (by decide) <| lo (by decide) (ext_all _)
  have f5 : fld word 12 4 = ty.code := (f _ _).trans <| hi (by decide) <| hi (by decide) <| lo (by decide) (ext_all _)
  have f6 : fld word 9 3 = 0#3 := (f _ _).trans <| hi (by decide) <| lo (by decide) (ext_all _)
  have f7 : fld word 0 9 = d := (f _ _).trans <| lo (by decide) (ext_all _)
  refine ok_of word _ ?_ h
  rw [raw_12 word f1]; unfold decode12; rw [f4]
  simp only [f2, f3, f5, f6, f7, BitVec.reduceToNat, pregAt, fin3, needZero, beq_self_eq_true, if_true, needSome, tyc, amc]

theorem RoundTrip.fcmp (p : PReg) (am : Am) (ty : Ty) (d : BitVec 9) : RoundTrip.Statement (.fcmp p am ty d) := by
  intro word h e
  have e : (18#6 ++ (BitVec.ofFin (w := 3) p) ++ am.code ++ 11#5 ++ ty.code ++ 0#3 ++ d : BitVec 32) = word := Option.some.inj e
  have f := fld_of (6+3+2+5+4+3+9) _ word (congrArg BitVec.toNat e)
  have f1 : fld word 26 6 = 18#6 := (f _ _).trans <| hi (by decide) <| hi (by decide) <| hi (by decide) <| hi (by decide) <| hi (by decide) <| hi (by decide) <| ext_all _
  have f2 : fld word 23 3 = (BitVec.ofFin (w := 3) p) := (f _ _).trans <| hi (by decide) <| hi (by decide) <| hi (by decide) <| hi (by decide) <| hi (by decide) <| lo (by decide) (ext_all _)
  have f3 : fld word 21 2 = am.code := (f _ _).trans <| hi (by decide) <| hi (by decide) <| hi (by decide) <| hi (by decide) <| lo (by decide) (ext_all _)
  have f4 : fld word 16 5 = 11#5 := (f _ _).trans <| hi (by decide) <| hi (by decide) <| hi (by decide) <| lo (by decide) (ext_all _)
  have f5 : fld word 12 4 = ty.code := (f _ _).trans <| hi (by decide) <| hi (by decide) <| lo (by decide) (ext_all _)
  have f6 : fld word 9 3 = 0#3 := (f _ _).trans <| hi (by decide) <| lo (by decide) (ext_all _)
  have f7 : fld word 0 9 = d := (f _ _).trans <| lo (by decide) (ext_all _)
  refine ok_of word _ ?_ h
  rw [raw_12 word f1]; unfold decode12; rw [f4]
  simp only [f2, f3, f5, f6, f7, BitVec.reduceToNat, pregAt, fin3, needZero, beq_self_eq_true, if_true, needSome, tyc, amc]

theorem RoundTrip.fclass (p : PReg) (am : Am) (ty : Ty) (d : BitVec 9) : RoundTrip.Statement (.fclass p am ty d) := by
  intro word h e
  have e : (18#6 ++ (BitVec.ofFin (w := 3) p) ++ am.code ++ 12#5 ++ ty.code ++ 0#3 ++ d : BitVec 32) = word := Option.some.inj e
  have f := fld_of (6+3+2+5+4+3+9) _ word (congrArg BitVec.toNat e)
  have f1 : fld word 26 6 = 18#6 := (f _ _).trans <| hi (by decide) <| hi (by decide) <| hi (by decide) <| hi (by decide) <| hi (by decide) <| hi (by decide) <| ext_all _
  have f2 : fld word 23 3 = (BitVec.ofFin (w := 3) p) := (f _ _).trans <| hi (by decide) <| hi (by decide) <| hi (by decide) <| hi (by decide) <| hi (by decide) <| lo (by decide) (ext_all _)
  have f3 : fld word 21 2 = am.code := (f _ _).trans <| hi (by decide) <| hi (by decide) <| hi (by decide) <| hi (by decide) <| lo (by decide) (ext_all _)
  have f4 : fld word 16 5 = 12#5 := (f _ _).trans <| hi (by decide) <| hi (by decide) <| hi (by decide) <| lo (by decide) (ext_all _)
  have f5 : fld word 12 4 = ty.code := (f _ _).trans <| hi (by decide) <| hi (by decide) <| lo (by decide) (ext_all _)
  have f6 : fld word 9 3 = 0#3 := (f _ _).trans <| hi (by decide) <| lo (by decide) (ext_all _)
  have f7 : fld word 0 9 = d := (f _ _).trans <| lo (by decide) (ext_all _)
  refine ok_of word _ ?_ h
  rw [raw_12 word f1]; unfold decode12; rw [f4]
  simp only [f2, f3, f5, f6, f7, BitVec.reduceToNat, pregAt, fin3, needZero, beq_self_eq_true, if_true, needSome, tyc, amc]

theorem RoundTrip.frnd (p : PReg) (am : Am) (ty : Ty) (r : Rnd) (d : BitVec 9) : RoundTrip.Statement (.frnd p am ty r d) := by
  intro word h e
  have e : (18#6 ++ (BitVec.ofFin (w := 3) p) ++ am.code ++ 13#5 ++ ty.code ++ r.code ++ d : BitVec 32) = word := Option.some.inj e
  have f := fld_of (6+3+2+5+4+3+9) _ word (congrArg BitVec.toNat e)
  have f1 : fld word 26 6 = 18#6 := (f _ _).trans <| hi (by decide) <| hi (by decide) <| hi (by decide) <| hi (by decide) <| hi (by decide) <| hi (by decide) <| ext_all _
  have f2 : fld word 23 3 = (BitVec.ofFin (w := 3) p) := (f _ _).trans <| hi (by decide) <| hi (by decide) <| hi (by decide) <| hi (by decide) <| hi (by decide) <| lo (by decide) (ext_all _)
  have f3 : fld word 21 2 = am.code := (f _ _).trans <| hi (by decide) <| hi (by decide) <| hi (by decide) <| hi (by decide) <| lo (by decide) (ext_all _)
  have f4 : fld word 16 5 = 13#5 := (f _ _).trans <| hi (by decide) <| hi (by decide) <| hi (by decide) <| lo (by decide) (ext_all _)
  have f5 : fld word 12 4 = ty.code := (f _ _).trans <| hi (by decide) <| hi (by decide) <| lo (by decide) (ext_all _)
  have f6 : fld word 9 3 = r.code := (f _ _).trans <| hi (by decide) <| lo (by decide) (ext_all _)
  have f7 : fld word 0 9 = d := (f _ _).trans <| lo (by decide) (ext_all _)
  refine ok_of word _ ?_ h
  rw [raw_12 word f1]; unfold decode12; rw [f4]
  simp only [f2, f3, f5, f6, f7, BitVec.reduceToNat, pregAt, fin3, needSome, tyc, amc, rndc]

theorem RoundTrip.fscale (p : PReg) (am : Am) (ty : Ty) (r : Rnd) (d : BitVec 9) : RoundTrip.Statement (.fscale p am ty r d) := by
  intro word h e
  have e : (18#6 ++ (BitVec.ofFin (w := 3) p) ++ am.code ++ 14#5 ++ ty.code ++ r.code ++ d : BitVec 32) = word := Option.some.inj e
  have f := fld_of (6+3+2+5+4+3+9) _ word (congrArg BitVec.toNat e)
  have f1 : fld word 26 6 = 18#6 := (f _ _).trans <| hi (by decide) <| hi (by decide) <| hi (by decide) <| hi (by decide) <| hi (by decide) <| hi (by decide) <| ext_all _
  have f2 : fld word 23 3 = (BitVec.ofFin (w := 3) p) := (f _ _).trans <| hi (by decide) <| hi (by decide) <| hi (by decide) <| hi (by decide) <| hi (by decide) <| lo (by decide) (ext_all _)
  have f3 : fld word 21 2 = am.code := (f _ _).trans <| hi (by decide) <| hi (by decide) <| hi (by decide) <| hi (by decide) <| lo (by decide) (ext_all _)
  have f4 : fld word 16 5 = 14#5 := (f _ _).trans <| hi (by decide) <| hi (by decide) <| hi (by decide) <| lo (by decide) (ext_all _)
  have f5 : fld word 12 4 = ty.code := (f _ _).trans <| hi (by decide) <| hi (by decide) <| lo (by decide) (ext_all _)
  have f6 : fld word 9 3 = r.code := (f _ _).trans <| hi (by decide) <| lo (by decide) (ext_all _)
  have f7 : fld word 0 9 = d := (f _ _).trans <| lo (by decide) (ext_all _)
  refine ok_of word _ ?_ h
  rw [raw_12 word f1]; unfold decode12; rw [f4]
  simp only [f2, f3, f5, f6, f7, BitVec.reduceToNat, pregAt, fin3, needSome, tyc, amc, rndc]

theorem RoundTrip.cvt (p : PReg) (am : Am) (dt : Ty) (ty : Ty) (r : Rnd) (d : BitVec 9) : RoundTrip.Statement (.cvt p am dt ty r d) := by
  intro word h e
  have e : (19#6 ++ (BitVec.ofFin (w := 3) p) ++ am.code ++ 0#1 ++ dt.code ++ ty.code ++ r.code ++ d : BitVec 32) = word := Option.some.inj e
  have f := fld_of (6+3+2+1+4+4+3+9) _ word (congrArg BitVec.toNat e)
  have f1 : fld word 26 6 = 19#6 := (f _ _).trans <| hi (by decide) <| hi (by decide) <| hi (by decide) <| hi (by decide) <| hi (by decide) <| hi (by decide) <| hi (by decide) <| ext_all _
  have f2 : fld word 23 3 = (BitVec.ofFin (w := 3) p) := (f _ _).trans <| hi (by decide) <| hi (by decide) <| hi (by decide) <| hi (by decide) <| hi (by decide) <| hi (by decide) <| lo (by decide) (ext_all _)
  have f3 : fld word 21 2 = am.code := (f _ _).trans <| hi (by decide) <| hi (by decide) <| hi (by decide) <| hi (by decide) <| hi (by decide) <| lo (by decide) (ext_all _)
  have f4 : fld word 20 1 = 0#1 := (f _ _).trans <| hi (by decide) <| hi (by decide) <| hi (by decide) <| hi (by decide) <| lo (by decide) (ext_all _)
  have f5 : fld word 16 4 = dt.code := (f _ _).trans <| hi (by decide) <| hi (by decide) <| hi (by decide) <| lo (by decide) (ext_all _)
  have f6 : fld word 12 4 = ty.code := (f _ _).trans <| hi (by decide) <| hi (by decide) <| lo (by decide) (ext_all _)
  have f7 : fld word 9 3 = r.code := (f _ _).trans <| hi (by decide) <| lo (by decide) (ext_all _)
  have f8 : fld word 0 9 = d := (f _ _).trans <| lo (by decide) (ext_all _)
  refine ok_of word _ ?_ h
  rw [raw_13 word f1]; unfold decode13; rw [f4]
  simp only [f2, f3, f5, f6, f7, f8, BitVec.reduceToNat, pregAt, fin3, needSome, tyc, amc, rndc]

theorem RoundTrip.cvts (p : PReg) (am : Am) (dt : Ty) (ty : Ty) (r : Rnd) (d : BitVec 9) : RoundTrip.Statement (.cvts p am dt ty r d) := by
  intro word h e
  have e : (19#6 ++ (BitVec.ofFin (w := 3) p) ++ am.code ++ 1#1 ++ dt.code ++ ty.code ++ r.code ++ d : BitVec 32) = word := Option.some.inj e
  have f := fld_of (6+3+2+1+4+4+3+9) _ word (congrArg BitVec.toNat e)
  have f1 : fld word 26 6 = 19#6 := (f _ _).trans <| hi (by decide) <| hi (by decide) <| hi (by decide) <| hi (by decide) <| hi (by decide) <| hi (by decide) <| hi (by decide) <| ext_all _
  have f2 : fld word 23 3 = (BitVec.ofFin (w := 3) p) := (f _ _).trans <| hi (by decide) <| hi (by decide) <| hi (by decide) <| hi (by decide) <| hi (by decide) <| hi (by decide) <| lo (by decide) (ext_all _)
  have f3 : fld word 21 2 = am.code := (f _ _).trans <| hi (by decide) <| hi (by decide) <| hi (by decide) <| hi (by decide) <| hi (by decide) <| lo (by decide) (ext_all _)
  have f4 : fld word 20 1 = 1#1 := (f _ _).trans <| hi (by decide) <| hi (by decide) <| hi (by decide) <| hi (by decide) <| lo (by decide) (ext_all _)
  have f5 : fld word 16 4 = dt.code := (f _ _).trans <| hi (by decide) <| hi (by decide) <| hi (by decide) <| lo (by decide) (ext_all _)
  have f6 : fld word 12 4 = ty.code := (f _ _).trans <| hi (by decide) <| hi (by decide) <| lo (by decide) (ext_all _)
  have f7 : fld word 9 3 = r.code := (f _ _).trans <| hi (by decide) <| lo (by decide) (ext_all _)
  have f8 : fld word 0 9 = d := (f _ _).trans <| lo (by decide) (ext_all _)
  refine ok_of word _ ?_ h
  rw [raw_13 word f1]; unfold decode13; rw [f4]
  simp only [f2, f3, f5, f6, f7, f8, BitVec.reduceToNat, pregAt, fin3, needSome, tyc, amc, rndc]

theorem RoundTrip.vld (p : PReg) (am : Am) (ty : Ty) (d : BitVec 12) : RoundTrip.Statement (.vld p am ty d) := by
  intro word h e
  have e : (24#6 ++ (BitVec.ofFin (w := 3) p) ++ am.code ++ 0#5 ++ ty.code ++ d : BitVec 32) = word := Option.some.inj e
  have f := fld_of (6+3+2+5+4+12) _ word (congrArg BitVec.toNat e)
  have f1 : fld word 26 6 = 24#6 := (f _ _).trans <| hi (by decide) <| hi (by decide) <| hi (by decide) <| hi (by decide) <| hi (by decide) <| ext_all _
  have f2 : fld word 23 3 = (BitVec.ofFin (w := 3) p) := (f _ _).trans <| hi (by decide) <| hi (by decide) <| hi (by decide) <| hi (by decide) <| lo (by decide) (ext_all _)
  have f3 : fld word 21 2 = am.code := (f _ _).trans <| hi (by decide) <| hi (by decide) <| hi (by decide) <| lo (by decide) (ext_all _)
  have f4 : fld word 16 5 = 0#5 := (f _ _).trans <| hi (by decide) <| hi (by decide) <| lo (by decide) (ext_all _)
  have f5 : fld word 12 4 = ty.code := (f _ _).trans <| hi (by decide) <| lo (by decide) (ext_all _)
  have f6 : fld word 0 12 = d := (f _ _).trans <| lo (by decide) (ext_all _)
  refine ok_of word _ ?_ h
  rw [raw_18 word f1]; unfold decode18; rw [f4]
  simp only [f2, f3, f5, f6, BitVec.reduceToNat, pregAt, fin3, needSome, tyc, amc]

theorem RoundTrip.vst (p : PReg) (am : Am) (ty : Ty) (d : BitVec 12) : RoundTrip.Statement (.vst p am ty d) := by
  intro word h e
  have e : (24#6 ++ (BitVec.ofFin (w := 3) p) ++ am.code ++ 1#5 ++ ty.code ++ d : BitVec 32) = word := Option.some.inj e
  have f := fld_of (6+3+2+5+4+12) _ word (congrArg BitVec.toNat e)
  have f1 : fld word 26 6 = 24#6 := (f _ _).trans <| hi (by decide) <| hi (by decide) <| hi (by decide) <| hi (by decide) <| hi (by decide) <| ext_all _
  have f2 : fld word 23 3 = (BitVec.ofFin (w := 3) p) := (f _ _).trans <| hi (by decide) <| hi (by decide) <| hi (by decide) <| hi (by decide) <| lo (by decide) (ext_all _)
  have f3 : fld word 21 2 = am.code := (f _ _).trans <| hi (by decide) <| hi (by decide) <| hi (by decide) <| lo (by decide) (ext_all _)
  have f4 : fld word 16 5 = 1#5 := (f _ _).trans <| hi (by decide) <| hi (by decide) <| lo (by decide) (ext_all _)
  have f5 : fld word 12 4 = ty.code := (f _ _).trans <| hi (by decide) <| lo (by decide) (ext_all _)
  have f6 : fld word 0 12 = d := (f _ _).trans <| lo (by decide) (ext_all _)
  refine ok_of word _ ?_ h
  rw [raw_18 word f1]; unfold decode18; rw [f4]
  simp only [f2, f3, f5, f6, BitVec.reduceToNat, pregAt, fin3, needSome, tyc, amc]

theorem RoundTrip.vadd (p : PReg) (am : Am) (ty : Ty) (d : BitVec 12) : RoundTrip.Statement (.vadd p am ty d) := by
  intro word h e
  have e : (24#6 ++ (BitVec.ofFin (w := 3) p) ++ am.code ++ 2#5 ++ ty.code ++ d : BitVec 32) = word := Option.some.inj e
  have f := fld_of (6+3+2+5+4+12) _ word (congrArg BitVec.toNat e)
  have f1 : fld word 26 6 = 24#6 := (f _ _).trans <| hi (by decide) <| hi (by decide) <| hi (by decide) <| hi (by decide) <| hi (by decide) <| ext_all _
  have f2 : fld word 23 3 = (BitVec.ofFin (w := 3) p) := (f _ _).trans <| hi (by decide) <| hi (by decide) <| hi (by decide) <| hi (by decide) <| lo (by decide) (ext_all _)
  have f3 : fld word 21 2 = am.code := (f _ _).trans <| hi (by decide) <| hi (by decide) <| hi (by decide) <| lo (by decide) (ext_all _)
  have f4 : fld word 16 5 = 2#5 := (f _ _).trans <| hi (by decide) <| hi (by decide) <| lo (by decide) (ext_all _)
  have f5 : fld word 12 4 = ty.code := (f _ _).trans <| hi (by decide) <| lo (by decide) (ext_all _)
  have f6 : fld word 0 12 = d := (f _ _).trans <| lo (by decide) (ext_all _)
  refine ok_of word _ ?_ h
  rw [raw_18 word f1]; unfold decode18; rw [f4]
  simp only [f2, f3, f5, f6, BitVec.reduceToNat, pregAt, fin3, needSome, tyc, amc]

theorem RoundTrip.vsub (p : PReg) (am : Am) (ty : Ty) (d : BitVec 12) : RoundTrip.Statement (.vsub p am ty d) := by
  intro word h e
  have e : (24#6 ++ (BitVec.ofFin (w := 3) p) ++ am.code ++ 3#5 ++ ty.code ++ d : BitVec 32) = word := Option.some.inj e
  have f := fld_of (6+3+2+5+4+12) _ word (congrArg BitVec.toNat e)
  have f1 : fld word 26 6 = 24#6 := (f _ _).trans <| hi (by decide) <| hi (by decide) <| hi (by decide) <| hi (by decide) <| hi (by decide) <| ext_all _
  have f2 : fld word 23 3 = (BitVec.ofFin (w := 3) p) := (f _ _).trans <| hi (by decide) <| hi (by decide) <| hi (by decide) <| hi (by decide) <| lo (by decide) (ext_all _)
  have f3 : fld word 21 2 = am.code := (f _ _).trans <| hi (by decide) <| hi (by decide) <| hi (by decide) <| lo (by decide) (ext_all _)
  have f4 : fld word 16 5 = 3#5 := (f _ _).trans <| hi (by decide) <| hi (by decide) <| lo (by decide) (ext_all _)
  have f5 : fld word 12 4 = ty.code := (f _ _).trans <| hi (by decide) <| lo (by decide) (ext_all _)
  have f6 : fld word 0 12 = d := (f _ _).trans <| lo (by decide) (ext_all _)
  refine ok_of word _ ?_ h
  rw [raw_18 word f1]; unfold decode18; rw [f4]
  simp only [f2, f3, f5, f6, BitVec.reduceToNat, pregAt, fin3, needSome, tyc, amc]

theorem RoundTrip.vrsub (p : PReg) (am : Am) (ty : Ty) (d : BitVec 12) : RoundTrip.Statement (.vrsub p am ty d) := by
  intro word h e
  have e : (24#6 ++ (BitVec.ofFin (w := 3) p) ++ am.code ++ 4#5 ++ ty.code ++ d : BitVec 32) = word := Option.some.inj e
  have f := fld_of (6+3+2+5+4+12) _ word (congrArg BitVec.toNat e)
  have f1 : fld word 26 6 = 24#6 := (f _ _).trans <| hi (by decide) <| hi (by decide) <| hi (by decide) <| hi (by decide) <| hi (by decide) <| ext_all _
  have f2 : fld word 23 3 = (BitVec.ofFin (w := 3) p) := (f _ _).trans <| hi (by decide) <| hi (by decide) <| hi (by decide) <| hi (by decide) <| lo (by decide) (ext_all _)
  have f3 : fld word 21 2 = am.code := (f _ _).trans <| hi (by decide) <| hi (by decide) <| hi (by decide) <| lo (by decide) (ext_all _)
  have f4 : fld word 16 5 = 4#5 := (f _ _).trans <| hi (by decide) <| hi (by decide) <| lo (by decide) (ext_all _)
  have f5 : fld word 12 4 = ty.code := (f _ _).trans <| hi (by decide) <| lo (by decide) (ext_all _)
  have f6 : fld word 0 12 = d := (f _ _).trans <| lo (by decide) (ext_all _)
  refine ok_of word _ ?_ h
  rw [raw_18 word f1]; unfold decode18; rw [f4]
  simp only [f2, f3, f5, f6, BitVec.reduceToNat, pregAt, fin3, needSome, tyc, amc]

theorem RoundTrip.vadds (p : PReg) (am : Am) (ty : Ty) (d : BitVec 12) : RoundTrip.Statement (.vadds p am ty d) := by
  intro word h e
  have e : (24#6 ++ (BitVec.ofFin (w := 3) p) ++ am.code ++ 5#5 ++ ty.code ++ d : BitVec 32) = word := Option.some.inj e
  have f := fld_of (6+3+2+5+4+12) _ word (congrArg BitVec.toNat e)
  have f1 : fld word 26 6 = 24#6 := (f _ _).trans <| hi (by decide) <| hi (by decide) <| hi (by decide) <| hi (by decide) <| hi (by decide) <| ext_all _
  have f2 : fld word 23 3 = (BitVec.ofFin (w := 3) p) := (f _ _).trans <| hi (by decide) <| hi (by decide) <| hi (by decide) <| hi (by decide) <| lo (by decide) (ext_all _)
  have f3 : fld word 21 2 = am.code := (f _ _).trans <| hi (by decide) <| hi (by decide) <| hi (by decide) <| lo (by decide) (ext_all _)
  have f4 : fld word 16 5 = 5#5 := (f _ _).trans <| hi (by decide) <| hi (by decide) <| lo (by decide) (ext_all _)
  have f5 : fld word 12 4 = ty.code := (f _ _).trans <| hi (by decide) <| lo (by decide) (ext_all _)
  have f6 : fld word 0 12 = d := (f _ _).trans <| lo (by decide) (ext_all _)
  refine ok_of word _ ?_ h
  rw [raw_18 word f1]; unfold decode18; rw [f4]
  simp only [f2, f3, f5, f6, BitVec.reduceToNat, pregAt, fin3, needSome, tyc, amc]

theorem RoundTrip.vsubs (p : PReg) (am : Am) (ty : Ty) (d : BitVec 12) : RoundTrip.Statement (.vsubs p am ty d) := by
  intro word h e
  have e : (24#6 ++ (BitVec.ofFin (w := 3) p) ++ am.code ++ 6#5 ++ ty.code ++ d : BitVec 32) = word := Option.some.inj e
  have f := fld_of (6+3+2+5+4+12) _ word (congrArg BitVec.toNat e)
  have f1 : fld word 26 6 = 24#6 := (f _ _).trans <| hi (by decide) <| hi (by decide) <| hi (by decide) <| hi (by decide) <| hi (by decide) <| ext_all _
  have f2 : fld word 23 3 = (BitVec.ofFin (w := 3) p) := (f _ _).trans <| hi (by decide) <| hi (by decide) <| hi (by decide) <| hi (by decide) <| lo (by decide) (ext_all _)
  have f3 : fld word 21 2 = am.code := (f _ _).trans <| hi (by decide) <| hi (by decide) <| hi (by decide) <| lo (by decide) (ext_all _)
  have f4 : fld word 16 5 = 6#5 := (f _ _).trans <| hi (by decide) <| hi (by decide) <| lo (by decide) (ext_all _)
  have f5 : fld word 12 4 = ty.code := (f _ _).trans <| hi (by decide) <| lo (by decide) (ext_all _)
  have f6 : fld word 0 12 = d := (f _ _).trans <| lo (by decide) (ext_all _)
  refine ok_of word _ ?_ h
  rw [raw_18 word f1]; unfold decode18; rw [f4]
  simp only [f2, f3, f5, f6, BitVec.reduceToNat, pregAt, fin3, needSome, tyc, amc]

theorem RoundTrip.vand (p : PReg) (am : Am) (ty : Ty) (d : BitVec 12) : RoundTrip.Statement (.vand p am ty d) := by
  intro word h e
  have e : (24#6 ++ (BitVec.ofFin (w := 3) p) ++ am.code ++ 7#5 ++ ty.code ++ d : BitVec 32) = word := Option.some.inj e
  have f := fld_of (6+3+2+5+4+12) _ word (congrArg BitVec.toNat e)
  have f1 : fld word 26 6 = 24#6 := (f _ _).trans <| hi (by decide) <| hi (by decide) <| hi (by decide) <| hi (by decide) <| hi (by decide) <| ext_all _
  have f2 : fld word 23 3 = (BitVec.ofFin (w := 3) p) := (f _ _).trans <| hi (by decide) <| hi (by decide) <| hi (by decide) <| hi (by decide) <| lo (by decide) (ext_all _)
  have f3 : fld word 21 2 = am.code := (f _ _).trans <| hi (by decide) <| hi (by decide) <| hi (by decide) <| lo (by decide) (ext_all _)
  have f4 : fld word 16 5 = 7#5 := (f _ _).trans <| hi (by decide) <| hi (by decide) <| lo (by decide) (ext_all _)
  have f5 : fld word 12 4 = ty.code := (f _ _).trans <| hi (by decide) <| lo (by decide) (ext_all _)
  have f6 : fld word 0 12 = d := (f _ _).trans <| lo (by decide) (ext_all _)
  refine ok_of word _ ?_ h
  rw [raw_18 word f1]; unfold decode18; rw [f4]
  simp only [f2, f3, f5, f6, BitVec.reduceToNat, pregAt, fin3, needSome, tyc, amc]

theorem RoundTrip.vor (p : PReg) (am : Am) (ty : Ty) (d : BitVec 12) : RoundTrip.Statement (.vor p am ty d) := by
  intro word h e
  have e : (24#6 ++ (BitVec.ofFin (w := 3) p) ++ am.code ++ 8#5 ++ ty.code ++ d : BitVec 32) = word := Option.some.inj e
  have f := fld_of (6+3+2+5+4+12) _ word (congrArg BitVec.toNat e)
  have f1 : fld word 26 6 = 24#6 := (f _ _).trans <| hi (by decide) <| hi (by decide) <| hi (by decide) <| hi (by decide) <| hi (by decide) <| ext_all _
  have f2 : fld word 23 3 = (BitVec.ofFin (w := 3) p) := (f _ _).trans <| hi (by decide) <| hi (by decide) <| hi (by decide) <| hi (by decide) <| lo (by decide) (ext_all _)
  have f3 : fld word 21 2 = am.code := (f _ _).trans <| hi (by decide) <| hi (by decide) <| hi (by decide) <| lo (by decide) (ext_all _)
  have f4 : fld word 16 5 = 8#5 := (f _ _).trans <| hi (by decide) <| hi (by decide) <| lo (by decide) (ext_all _)
  have f5 : fld word 12 4 = ty.code := (f _ _).trans <| hi (by decide) <| lo (by decide) (ext_all _)
  have f6 : fld word 0 12 = d := (f _ _).trans <| lo (by decide) (ext_all _)
  refine ok_of word _ ?_ h
  rw [raw_18 word f1]; unfold decode18; rw [f4]
  simp only [f2, f3, f5, f6, BitVec.reduceToNat, pregAt, fin3, needSome, tyc, amc]

theorem RoundTrip.vxor (p : PReg) (am : Am) (ty : Ty) (d : BitVec 12) : RoundTrip.Statement (.vxor p am ty d) := by
  intro word h e
  have e : (24#6 ++ (BitVec.ofFin (w := 3) p) ++ am.code ++ 9#5 ++ ty.code ++ d : BitVec 32) = word := Option.some.inj e
  have f := fld_of (6+3+2+5+4+12) _ word (congrArg BitVec.toNat e)
  have f1 : fld word 26 6 = 24#6 := (f _ _).trans <| hi (by decide) <| hi (by decide) <| hi (by decide) <| hi (by decide) <| hi (by decide) <| ext_all _
  have f2 : fld word 23 3 = (BitVec.ofFin (w := 3) p) := (f _ _).trans <| hi (by decide) <| hi (by decide) <| hi (by decide) <| hi (by decide) <| lo (by decide) (ext_all _)
  have f3 : fld word 21 2 = am.code := (f _ _).trans <| hi (by decide) <| hi (by decide) <| hi (by decide) <| lo (by decide) (ext_all _)
  have f4 : fld word 16 5 = 9#5 := (f _ _).trans <| hi (by decide) <| hi (by decide) <| lo (by decide) (ext_all _)
  have f5 : fld word 12 4 = ty.code := (f _ _).trans <| hi (by decide) <| lo (by decide) (ext_all _)
  have f6 : fld word 0 12 = d := (f _ _).trans <| lo (by decide) (ext_all _)
  refine ok_of word _ ?_ h
  rw [raw_18 word f1]; unfold decode18; rw [f4]
  simp only [f2, f3, f5, f6, BitVec.reduceToNat, pregAt, fin3, needSome, tyc, amc]

theorem RoundTrip.vandn (p : PReg) (am : Am) (ty : Ty) (d : BitVec 12) : RoundTrip.Statement (.vandn p am ty d) := by
  intro word h e
  have e : (24#6 ++ (BitVec.ofFin (w := 3) p) ++ am.code ++ 10#5 ++ ty.code ++ d : BitVec 32) = word := Option.some.inj e
  have f := fld_of (6+3+2+5+4+12) _ word (congrArg BitVec.toNat e)
  have f1 : fld word 26 6 = 24#6 := (f _ _).trans <| hi (by decide) <| hi (by decide) <| hi (by decide) <| hi (by decide) <| hi (by decide) <| ext_all _
  have f2 : fld word 23 3 = (BitVec.ofFin (w := 3) p) := (f _ _).trans <| hi (by decide) <| hi (by decide) <| hi (by decide) <| hi (by decide) <| lo (by decide) (ext_all _)
  have f3 : fld word 21 2 = am.code := (f _ _).trans <| hi (by decide) <| hi (by decide) <| hi (by decide) <| lo (by decide) (ext_all _)
  have f4 : fld word 16 5 = 10#5 := (f _ _).trans <| hi (by decide) <| hi (by decide) <| lo (by decide) (ext_all _)
  have f5 : fld word 12 4 = ty.code := (f _ _).trans <| hi (by decide) <| lo (by decide) (ext_all _)
  have f6 : fld word 0 12 = d := (f _ _).trans <| lo (by decide) (ext_all _)
  refine ok_of word _ ?_ h
  rw [raw_18 word f1]; unfold decode18; rw [f4]
  simp only [f2, f3, f5, f6, BitVec.reduceToNat, pregAt, fin3, needSome, tyc, amc]

theorem RoundTrip.vshl (p : PReg) (am : Am) (ty : Ty) (d : BitVec 12) : RoundTrip.Statement (.vshl p am ty d) := by
  intro word h e
  have e : (24#6 ++ (BitVec.ofFin (w := 3) p) ++ am.code ++ 11#5 ++ ty.code ++ d : BitVec 32) = word := Option.some.inj e
  have f := fld_of (6+3+2+5+4+12) _ word (congrArg BitVec.toNat e)
  have f1 : fld word 26 6 = 24#6 := (f _ _).trans <| hi (by decide) <| hi (by decide) <| hi (by decide) <| hi (by decide) <| hi (by decide) <| ext_all _
  have f2 : fld word 23 3 = (BitVec.ofFin (w := 3) p) := (f _ _).trans <| hi (by decide) <| hi (by decide) <| hi (by decide) <| hi (by decide) <| lo (by decide) (ext_all _)
  have f3 : fld word 21 2 = am.code := (f _ _).trans <| hi (by decide) <| hi (by decide) <| hi (by decide) <| lo (by decide) (ext_all _)
  have f4 : fld word 16 5 = 11#5 := (f _ _).trans <| hi (by decide) <| hi (by decide) <| lo (by decide) (ext_all _)
  have f5 : fld word 12 4 = ty.code := (f _ _).trans <| hi (by decide) <| lo (by decide) (ext_all _)
  have f6 : fld word 0 12 = d := (f _ _).trans <| lo (by decide) (ext_all _)
  refine ok_of word _ ?_ h
  rw [raw_18 word f1]; unfold decode18; rw [f4]
  simp only [f2, f3, f5, f6, BitVec.reduceToNat, pregAt, fin3, needSome, tyc, amc]

theorem RoundTrip.vshr (p : PReg) (am : Am) (ty : Ty) (d : BitVec 12) : RoundTrip.Statement (.vshr p am ty d) := by
  intro word h e
  have e : (24#6 ++ (BitVec.ofFin (w := 3) p) ++ am.code ++ 12#5 ++ ty.code ++ d : BitVec 32) = word := Option.some.inj e
  have f := fld_of (6+3+2+5+4+12) _ word (congrArg BitVec.toNat e)
  have f1 : fld word 26 6 = 24#6 := (f _ _).trans <| hi (by decide) <| hi (by decide) <| hi (by decide) <| hi (by decide) <| hi (by decide) <| ext_all _
  have f2 : fld word 23 3 = (BitVec.ofFin (w := 3) p) := (f _ _).trans <| hi (by decide) <| hi (by decide) <| hi (by decide) <| hi (by decide) <| lo (by decide) (ext_all _)
  have f3 : fld word 21 2 = am.code := (f _ _).trans <| hi (by decide) <| hi (by decide) <| hi (by decide) <| lo (by decide) (ext_all _)
  have f4 : fld word 16 5 = 12#5 := (f _ _).trans <| hi (by decide) <| hi (by decide) <| lo (by decide) (ext_all _)
  have f5 : fld word 12 4 = ty.code := (f _ _).trans <| hi (by decide) <| lo (by decide) (ext_all _)
  have f6 : fld word 0 12 = d := (f _ _).trans <| lo (by decide) (ext_all _)
  refine ok_of word _ ?_ h
  rw [raw_18 word f1]; unfold decode18; rw [f4]
  simp only [f2, f3, f5, f6, BitVec.reduceToNat, pregAt, fin3, needSome, tyc, amc]

theorem RoundTrip.vsar (p : PReg) (am : Am) (ty : Ty) (d : BitVec 12) : RoundTrip.Statement (.vsar p am ty d) := by
  intro word h e
  have e : (24#6 ++ (BitVec.ofFin (w := 3) p) ++ am.code ++ 13#5 ++ ty.code ++ d : BitVec 32) = word := Option.some.inj e
  have f := fld_of (6+3+2+5+4+12) _ word (congrArg BitVec.toNat e)
  have f1 : fld word 26 6 = 24#6 := (f _ _).trans <| hi (by decide) <| hi (by decide) <| hi (by decide) <| hi (by decide) <| hi (by decide) <| ext_all _
  have f2 : fld word 23 3 = (BitVec.ofFin (w := 3) p) := (f _ _).trans <| hi (by decide) <| hi (by decide) <| hi (by decide) <| hi (by decide) <| lo (by decide) (ext_all _)
  have f3 : fld word 21 2 = am.code := (f _ _).trans <| hi (by decide) <| hi (by decide) <| hi (by decide) <| lo (by decide) (ext_all _)
  have f4 : fld word 16 5 = 13#5 := (f _ _).trans <| hi (by decide) <| hi (by decide) <| lo (by decide) (ext_all _)
  have f5 : fld word 12 4 = ty.code := (f _ _).trans <| hi (by decide) <| lo (by decide) (ext_all _)
  have f6 : fld word 0 12 = d := (f _ _).trans <| lo (by decide) (ext_all _)
  refine ok_of word _ ?_ h
  rw [raw_18 word f1]; unfold decode18; rw [f4]
  simp only [f2, f3, f5, f6, BitVec.reduceToNat, pregAt, fin3, needSome, tyc, amc]

theorem RoundTrip.vmin (p : PReg) (am : Am) (ty : Ty) (d : BitVec 12) : RoundTrip.Statement (.vmin p am ty d) := by
  intro word h e
  have e : (24#6 ++ (BitVec.ofFin (w := 3) p) ++ am.code ++ 14#5 ++ ty.code ++ d : BitVec 32) = word := Option.some.inj e
  have f := fld_of (6+3+2+5+4+12) _ word (congrArg BitVec.toNat e)
  have f1 : fld word 26 6 = 24#6 := (f _ _).trans <| hi (by decide) <| hi (by decide) <| hi (by decide) <| hi (by decide) <| hi (by decide) <| ext_all _
  have f2 : fld word 23 3 = (BitVec.ofFin (w := 3) p) := (f _ _).trans <| hi (by decide) <| hi (by decide) <| hi (by decide) <| hi (by decide) <| lo (by decide) (ext_all _)
  have f3 : fld word 21 2 = am.code := (f _ _).trans <| hi (by decide) <| hi (by decide) <| hi (by decide) <| lo (by decide) (ext_all _)
  have f4 : fld word 16 5 = 14#5 := (f _ _).trans <| hi (by decide) <| hi (by decide) <| lo (by decide) (ext_all _)
  have f5 : fld word 12 4 = ty.code := (f _ _).trans <| hi (by decide) <| lo (by decide) (ext_all _)
  have f6 : fld word 0 12 = d := (f _ _).trans <| lo (by decide) (ext_all _)
  refine ok_of word _ ?_ h
  rw [raw_18 word f1]; unfold decode18; rw [f4]
  simp only [f2, f3, f5, f6, BitVec.reduceToNat, pregAt, fin3, needSome, tyc, amc]

theorem RoundTrip.vmax (p : PReg) (am : Am) (ty : Ty) (d : BitVec 12) : RoundTrip.Statement (.vmax p am ty d) := by
  intro word h e
  have e : (24#6 ++ (BitVec.ofFin (w := 3) p) ++ am.code ++ 15#5 ++ ty.code ++ d : BitVec 32) = word := Option.some.inj e
  have f := fld_of (6+3+2+5+4+12) _ word (congrArg BitVec.toNat e)
  have f1 : fld word 26 6 = 24#6 := (f _ _).trans <| hi (by decide) <| hi (by decide) <| hi (by decide) <| hi (by decide) <| hi (by decide) <| ext_all _
  have f2 : fld word 23 3 = (BitVec.ofFin (w := 3) p) := (f _ _).trans <| hi (by decide) <| hi (by decide) <| hi (by decide) <| hi (by decide) <| lo (by decide) (ext_all _)
  have f3 : fld word 21 2 = am.code := (f _ _).trans <| hi (by decide) <| hi (by decide) <| hi (by decide) <| lo (by decide) (ext_all _)
  have f4 : fld word 16 5 = 15#5 := (f _ _).trans <| hi (by decide) <| hi (by decide) <| lo (by decide) (ext_all _)
  have f5 : fld word 12 4 = ty.code := (f _ _).trans <| hi (by decide) <| lo (by decide) (ext_all _)
  have f6 : fld word 0 12 = d := (f _ _).trans <| lo (by decide) (ext_all _)
  refine ok_of word _ ?_ h
  rw [raw_18 word f1]; unfold decode18; rw [f4]
  simp only [f2, f3, f5, f6, BitVec.reduceToNat, pregAt, fin3, needSome, tyc, amc]

theorem RoundTrip.vmul (p : PReg) (am : Am) (ty : Ty) (d : BitVec 12) : RoundTrip.Statement (.vmul p am ty d) := by
  intro word h e
  have e : (24#6 ++ (BitVec.ofFin (w := 3) p) ++ am.code ++ 16#5 ++ ty.code ++ d : BitVec 32) = word := Option.some.inj e
  have f := fld_of (6+3+2+5+4+12) _ word (congrArg BitVec.toNat e)
  have f1 : fld word 26 6 = 24#6 := (f _ _).trans <| hi (by decide) <| hi (by decide) <| hi (by decide) <| hi (by decide) <| hi (by decide) <| ext_all _
  have f2 : fld word 23 3 = (BitVec.ofFin (w := 3) p) := (f _ _).trans <| hi (by decide) <| hi (by decide) <| hi (by decide) <| hi (by decide) <| lo (by decide) (ext_all _)
  have f3 : fld word 21 2 = am.code := (f _ _).trans <| hi (by decide) <| hi (by decide) <| hi (by decide) <| lo (by decide) (ext_all _)
  have f4 : fld word 16 5 = 16#5 := (f _ _).trans <| hi (by decide) <| hi (by decide) <| lo (by decide) (ext_all _)
  have f5 : fld word 12 4 = ty.code := (f _ _).trans <| hi (by decide) <| lo (by decide) (ext_all _)
  have f6 : fld word 0 12 = d := (f _ _).trans <| lo (by decide) (ext_all _)
  refine ok_of word _ ?_ h
  rw [raw_18 word f1]; unfold decode18; rw [f4]
  simp only [f2, f3, f5, f6, BitVec.reduceToNat, pregAt, fin3, needSome, tyc, amc]

theorem RoundTrip.vmulh (p : PReg) (am : Am) (ty : Ty) (d : BitVec 12) : RoundTrip.Statement (.vmulh p am ty d) := by
  intro word h e
  have e : (24#6 ++ (BitVec.ofFin (w := 3) p) ++ am.code ++ 17#5 ++ ty.code ++ d : BitVec 32) = word := Option.some.inj e
  have f := fld_of (6+3+2+5+4+12) _ word (congrArg BitVec.toNat e)
  have f1 : fld word 26 6 = 24#6 := (f _ _).trans <| hi (by decide) <| hi (by decide) <| hi (by decide) <| hi (by decide) <| hi (by decide) <| ext_all _
  have f2 : fld word 23 3 = (BitVec.ofFin (w := 3) p) := (f _ _).trans <| hi (by decide) <| hi (by decide) <| hi (by decide) <| hi (by decide) <| lo (by decide) (ext_all _)
  have f3 : fld word 21 2 = am.code := (f _ _).trans <| hi (by decide) <| hi (by decide) <| hi (by decide) <| lo (by decide) (ext_all _)
  have f4 : fld word 16 5 = 17#5 := (f _ _).trans <| hi (by decide) <| hi (by decide) <| lo (by decide) (ext_all _)
  have f5 : fld word 12 4 = ty.code := (f _ _).trans <| hi (by decide) <| lo (by decide) (ext_all _)
  have f6 : fld word 0 12 = d := (f _ _).trans <| lo (by decide) (ext_all _)
  refine ok_of word _ ?_ h
  rw [raw_18 word f1]; unfold decode18; rw [f4]
  simp only [f2, f3, f5, f6, BitVec.reduceToNat, pregAt, fin3, needSome, tyc, amc]

theorem RoundTrip.vmac (p : PReg) (am : Am) (ty : Ty) (d : BitVec 12) : RoundTrip.Statement (.vmac p am ty d) := by
  intro word h e
  have e : (24#6 ++ (BitVec.ofFin (w := 3) p) ++ am.code ++ 18#5 ++ ty.code ++ d : BitVec 32) = word := Option.some.inj e
  have f := fld_of (6+3+2+5+4+12) _ word (congrArg BitVec.toNat e)
  have f1 : fld word 26 6 = 24#6 := (f _ _).trans <| hi (by decide) <| hi (by decide) <| hi (by decide) <| hi (by decide) <| hi (by decide) <| ext_all _
  have f2 : fld word 23 3 = (BitVec.ofFin (w := 3) p) := (f _ _).trans <| hi (by decide) <| hi (by decide) <| hi (by decide) <| hi (by decide) <| lo (by decide) (ext_all _)
  have f3 : fld word 21 2 = am.code := (f _ _).trans <| hi (by decide) <| hi (by decide) <| hi (by decide) <| lo (by decide) (ext_all _)
  have f4 : fld word 16 5 = 18#5 := (f _ _).trans <| hi (by decide) <| hi (by decide) <| lo (by decide) (ext_all _)
  have f5 : fld word 12 4 = ty.code := (f _ _).trans <| hi (by decide) <| lo (by decide) (ext_all _)
  have f6 : fld word 0 12 = d := (f _ _).trans <| lo (by decide) (ext_all _)
  refine ok_of word _ ?_ h
  rw [raw_18 word f1]; unfold decode18; rw [f4]
  simp only [f2, f3, f5, f6, BitVec.reduceToNat, pregAt, fin3, needSome, tyc, amc]

theorem RoundTrip.vabs (p : PReg) (am : Am) (ty : Ty) (d : BitVec 12) : RoundTrip.Statement (.vabs p am ty d) := by
  intro word h e
  have e : (24#6 ++ (BitVec.ofFin (w := 3) p) ++ am.code ++ 19#5 ++ ty.code ++ d : BitVec 32) = word := Option.some.inj e
  have f := fld_of (6+3+2+5+4+12) _ word (congrArg BitVec.toNat e)
  have f1 : fld word 26 6 = 24#6 := (f _ _).trans <| hi (by decide) <| hi (by decide) <| hi (by decide) <| hi (by decide) <| hi (by decide) <| ext_all _
  have f2 : fld word 23 3 = (BitVec.ofFin (w := 3) p) := (f _ _).trans <| hi (by decide) <| hi (by decide) <| hi (by decide) <| hi (by decide) <| lo (by decide) (ext_all _)
  have f3 : fld word 21 2 = am.code := (f _ _).trans <| hi (by decide) <| hi (by decide) <| hi (by decide) <| lo (by decide) (ext_all _)
  have f4 : fld word 16 5 = 19#5 := (f _ _).trans <| hi (by decide) <| hi (by decide) <| lo (by decide) (ext_all _)
  have f5 : fld word 12 4 = ty.code := (f _ _).trans <| hi (by decide) <| lo (by decide) (ext_all _)
  have f6 : fld word 0 12 = d := (f _ _).trans <| lo (by decide) (ext_all _)
  refine ok_of word _ ?_ h
  rw [raw_18 word f1]; unfold decode18; rw [f4]
  simp only [f2, f3, f5, f6, BitVec.reduceToNat, pregAt, fin3, needSome, tyc, amc]

theorem RoundTrip.vneg (p : PReg) (am : Am) (ty : Ty) (d : BitVec 12) : RoundTrip.Statement (.vneg p am ty d) := by
  intro word h e
  have e : (24#6 ++ (BitVec.ofFin (w := 3) p) ++ am.code ++ 20#5 ++ ty.code ++ d : BitVec 32) = word := Option.some.inj e
  have f := fld_of (6+3+2+5+4+12) _ word (congrArg BitVec.toNat e)
  have f1 : fld word 26 6 = 24#6 := (f _ _).trans <| hi (by decide) <| hi (by decide) <| hi (by decide) <| hi (by decide) <| hi (by decide) <| ext_all _
  have f2 : fld word 23 3 = (BitVec.ofFin (w := 3) p) := (f _ _).trans <| hi (by decide) <| hi (by decide) <| hi (by decide) <| hi (by decide) <| lo (by decide) (ext_all _)
  have f3 : fld word 21 2 = am.code := (f _ _).trans <| hi (by decide) <| hi (by decide) <| hi (by decide) <| lo (by decide) (ext_all _)
  have f4 : fld word 16 5 = 20#5 := (f _ _).trans <| hi (by decide) <| hi (by decide) <| lo (by decide) (ext_all _)
  have f5 : fld word 12 4 = ty.code := (f _ _).trans <| hi (by decide) <| lo (by decide) (ext_all _)
  have f6 : fld word 0 12 = d := (f _ _).trans <| lo (by decide) (ext_all _)
  refine ok_of word _ ?_ h
  rw [raw_18 word f1]; unfold decode18; rw [f4]
  simp only [f2, f3, f5, f6, BitVec.reduceToNat, pregAt, fin3, needSome, tyc, amc]

theorem RoundTrip.vpopc (p : PReg) (am : Am) (ty : Ty) (d : BitVec 12) : RoundTrip.Statement (.vpopc p am ty d) := by
  intro word h e
  have e : (24#6 ++ (BitVec.ofFin (w := 3) p) ++ am.code ++ 21#5 ++ ty.code ++ d : BitVec 32) = word := Option.some.inj e
  have f := fld_of (6+3+2+5+4+12) _ word (congrArg BitVec.toNat e)
  have f1 : fld word 26 6 = 24#6 := (f _ _).trans <| hi (by decide) <| hi (by decide) <| hi (by decide) <| hi (by decide) <| hi (by decide) <| ext_all _
  have f2 : fld word 23 3 = (BitVec.ofFin (w := 3) p) := (f _ _).trans <| hi (by decide) <| hi (by decide) <| hi (by decide) <| hi (by decide) <| lo (by decide) (ext_all _)
  have f3 : fld word 21 2 = am.code := (f _ _).trans <| hi (by decide) <| hi (by decide) <| hi (by decide) <| lo (by decide) (ext_all _)
  have f4 : fld word 16 5 = 21#5 := (f _ _).trans <| hi (by decide) <| hi (by decide) <| lo (by decide) (ext_all _)
  have f5 : fld word 12 4 = ty.code := (f _ _).trans <| hi (by decide) <| lo (by decide) (ext_all _)
  have f6 : fld word 0 12 = d := (f _ _).trans <| lo (by decide) (ext_all _)
  refine ok_of word _ ?_ h
  rw [raw_18 word f1]; unfold decode18; rw [f4]
  simp only [f2, f3, f5, f6, BitVec.reduceToNat, pregAt, fin3, needSome, tyc, amc]

theorem RoundTrip.vfld (p : PReg) (am : Am) (ty : Ty) (r : Rnd) (d : BitVec 9) : RoundTrip.Statement (.vfld p am ty r d) := by
  intro word h e
  have e : (25#6 ++ (BitVec.ofFin (w := 3) p) ++ am.code ++ 0#5 ++ ty.code ++ r.code ++ d : BitVec 32) = word := Option.some.inj e
  have f := fld_of (6+3+2+5+4+3+9) _ word (congrArg BitVec.toNat e)
  have f1 : fld word 26 6 = 25#6 := (f _ _).trans <| hi (by decide) <| hi (by decide) <| hi (by decide) <| hi (by decide) <| hi (by decide) <| hi (by decide) <| ext_all _
  have f2 : fld word 23 3 = (BitVec.ofFin (w := 3) p) := (f _ _).trans <| hi (by decide) <| hi (by decide) <| hi (by decide) <| hi (by decide) <| hi (by decide) <| lo (by decide) (ext_all _)
  have f3 : fld word 21 2 = am.code := (f _ _).trans <| hi (by decide) <| hi (by decide) <| hi (by decide) <| hi (by decide) <| lo (by decide) (ext_all _)
  have f4 : fld word 16 5 = 0#5 := (f _ _).trans <| hi (by decide) <| hi (by decide) <| hi (by decide) <| lo (by decide) (ext_all _)
  have f5 : fld word 12 4 = ty.code := (f _ _).trans <| hi (by decide) <| hi (by decide) <| lo (by decide) (ext_all _)
  have f6 : fld word 9 3 = r.code := (f _ _).trans <| hi (by decide) <| lo (by decide) (ext_all _)
  have f7 : fld word 0 9 = d := (f _ _).trans <| lo (by decide) (ext_all _)
  refine ok_of word _ ?_ h
  rw [raw_19 word f1]; unfold decode19; rw [f4]
  simp only [f2, f3, f5, f6, f7, BitVec.reduceToNat, pregAt, fin3, needSome, tyc, amc, rndc]

theorem RoundTrip.vfst (p : PReg) (am : Am) (ty : Ty) (r : Rnd) (d : BitVec 9) : RoundTrip.Statement (.vfst p am ty r d) := by
  intro word h e
  have e : (25#6 ++ (BitVec.ofFin (w := 3) p) ++ am.code ++ 1#5 ++ ty.code ++ r.code ++ d : BitVec 32) = word := Option.some.inj e
  have f := fld_of (6+3+2+5+4+3+9) _ word (congrArg BitVec.toNat e)
  have f1 : fld word 26 6 = 25#6 := (f _ _).trans <| hi (by decide) <| hi (by decide) <| hi (by decide) <| hi (by decide) <| hi (by decide) <| hi (by decide) <| ext_all _
  have f2 : fld word 23 3 = (BitVec.ofFin (w := 3) p) := (f _ _).trans <| hi (by decide) <| hi (by decide) <| hi (by decide) <| hi (by decide) <| hi (by decide) <| lo (by decide) (ext_all _)
  have f3 : fld word 21 2 = am.code := (f _ _).trans <| hi (by decide) <| hi (by decide) <| hi (by decide) <| hi (by decide) <| lo (by decide) (ext_all _)
  have f4 : fld word 16 5 = 1#5 := (f _ _).trans <| hi (by decide) <| hi (by decide) <| hi (by decide) <| lo (by decide) (ext_all _)
  have f5 : fld word 12 4 = ty.code := (f _ _).trans <| hi (by decide) <| hi (by decide) <| lo (by decide) (ext_all _)
  have f6 : fld word 9 3 = r.code := (f _ _).trans <| hi (by decide) <| lo (by decide) (ext_all _)
  have f7 : fld word 0 9 = d := (f _ _).trans <| lo (by decide) (ext_all _)
  refine ok_of word _ ?_ h
  rw [raw_19 word f1]; unfold decode19; rw [f4]
  simp only [f2, f3, f5, f6, f7, BitVec.reduceToNat, pregAt, fin3, needSome, tyc, amc, rndc]

theorem RoundTrip.vfadd (p : PReg) (am : Am) (ty : Ty) (r : Rnd) (d : BitVec 9) : RoundTrip.Statement (.vfadd p am ty r d) := by
  intro word h e
  have e : (25#6 ++ (BitVec.ofFin (w := 3) p) ++ am.code ++ 2#5 ++ ty.code ++ r.code ++ d : BitVec 32) = word := Option.some.inj e
  have f := fld_of (6+3+2+5+4+3+9) _ word (congrArg BitVec.toNat e)
  have f1 : fld word 26 6 = 25#6 := (f _ _).trans <| hi (by decide) <| hi (by decide) <| hi (by decide) <| hi (by decide) <| hi (by decide) <| hi (by decide) <| ext_all _
  have f2 : fld word 23 3 = (BitVec.ofFin (w := 3) p) := (f _ _).trans <| hi (by decide) <| hi (by decide) <| hi (by decide) <| hi (by decide) <| hi (by decide) <| lo (by decide) (ext_all _)
  have f3 : fld word 21 2 = am.code := (f _ _).trans <| hi (by decide) <| hi (by decide) <| hi (by decide) <| hi (by decide) <| lo (by decide) (ext_all _)
  have f4 : fld word 16 5 = 2#5 := (f _ _).trans <| hi (by decide) <| hi (by decide) <| hi (by decide) <| lo (by decide) (ext_all _)
  have f5 : fld word 12 4 = ty.code := (f _ _).trans <| hi (by decide) <| hi (by decide) <| lo (by decide) (ext_all _)
  have f6 : fld word 9 3 = r.code := (f _ _).trans <| hi (by decide) <| lo (by decide) (ext_all _)
  have f7 : fld word 0 9 = d := (f _ _).trans <| lo (by decide) (ext_all _)
  refine ok_of word _ ?_ h
  rw [raw_19 word f1]; unfold decode19; rw [f4]
  simp only [f2, f3, f5, f6, f7, BitVec.reduceToNat, pregAt, fin3, needSome, tyc, amc, rndc]

theorem RoundTrip.vfsub (p : PReg) (am : Am) (ty : Ty) (r : Rnd) (d : BitVec 9) : RoundTrip.Statement (.vfsub p am ty r d) := by
  intro word h e
  have e : (25#6 ++ (BitVec.ofFin (w := 3) p) ++ am.code ++ 3#5 ++ ty.code ++ r.code ++ d : BitVec 32) = word := Option.some.inj e
  have f := fld_of (6+3+2+5+4+3+9) _ word (congrArg BitVec.toNat e)
  have f1 : fld word 26 6 = 25#6 := (f _ _).trans <| hi (by decide) <| hi (by decide) <| hi (by decide) <| hi (by decide) <| hi (by decide) <| hi (by decide) <| ext_all _
  have f2 : fld word 23 3 = (BitVec.ofFin (w := 3) p) := (f _ _).trans <| hi (by decide) <| hi (by decide) <| hi (by decide) <| hi (by decide) <| hi (by decide) <| lo (by decide) (ext_all _)
  have f3 : fld word 21 2 = am.code := (f _ _).trans <| hi (by decide) <| hi (by decide) <| hi (by decide) <| hi (by decide) <| lo (by decide) (ext_all _)
  have f4 : fld word 16 5 = 3#5 := (f _ _).trans <| hi (by decide) <| hi (by decide) <| hi (by decide) <| lo (by decide) (ext_all _)
  have f5 : fld word 12 4 = ty.code := (f _ _).trans <| hi (by decide) <| hi (by decide) <| lo (by decide) (ext_all _)
  have f6 : fld word 9 3 = r.code := (f _ _).trans <| hi (by decide) <| lo (by decide) (ext_all _)
  have f7 : fld word 0 9 = d := (f _ _).trans <| lo (by decide) (ext_all _)
  refine ok_of word _ ?_ h
  rw [raw_19 word f1]; unfold decode19; rw [f4]
  simp only [f2, f3, f5, f6, f7, BitVec.reduceToNat, pregAt, fin3, needSome, tyc, amc, rndc]

theorem RoundTrip.vfrsub (p : PReg) (am : Am) (ty : Ty) (r : Rnd) (d : BitVec 9) : RoundTrip.Statement (.vfrsub p am ty r d) := by
  intro word h e
  have e : (25#6 ++ (BitVec.ofFin (w := 3) p) ++ am.code ++ 4#5 ++ ty.code ++ r.code ++ d : BitVec 32) = word := Option.some.inj e
  have f := fld_of (6+3+2+5+4+3+9) _ word (congrArg BitVec.toNat e)
  have f1 : fld word 26 6 = 25#6 := (f _ _).trans <| hi (by decide) <| hi (by decide) <| hi (by decide) <| hi (by decide) <| hi (by decide) <| hi (by decide) <| ext_all _
  have f2 : fld word 23 3 = (BitVec.ofFin (w := 3) p) := (f _ _).trans <| hi (by decide) <| hi (by decide) <| hi (by decide) <| hi (by decide) <| hi (by decide) <| lo (by decide) (ext_all _)
  have f3 : fld word 21 2 = am.code := (f _ _).trans <| hi (by decide) <| hi (by decide) <| hi (by decide) <| hi (by decide) <| lo (by decide) (ext_all _)
  have f4 : fld word 16 5 = 4#5 := (f _ _).trans <| hi (by decide) <| hi (by decide) <| hi (by decide) <| lo (by decide) (ext_all _)
  have f5 : fld word 12 4 = ty.code := (f _ _).trans <| hi (by decide) <| hi (by decide) <| lo (by decide) (ext_all _)
  have f6 : fld word 9 3 = r.code := (f _ _).trans <| hi (by decide) <| lo (by decide) (ext_all _)
  have f7 : fld word 0 9 = d := (f _ _).trans <| lo (by decide) (ext_all _)
  refine ok_of word _ ?_ h
  rw [raw_19 word f1]; unfold decode19; rw [f4]
  simp only [f2, f3, f5, f6, f7, BitVec.reduceToNat, pregAt, fin3, needSome, tyc, amc, rndc]

theorem RoundTrip.vfmul (p : PReg) (am : Am) (ty : Ty) (r : Rnd) (d : BitVec 9) : RoundTrip.Statement (.vfmul p am ty r d) := by
  intro word h e
  have e : (25#6 ++ (BitVec.ofFin (w := 3) p) ++ am.code ++ 5#5 ++ ty.code ++ r.code ++ d : BitVec 32) = word := Option.some.inj e
  have f := fld_of (6+3+2+5+4+3+9) _ word (congrArg BitVec.toNat e)
  have f1 : fld word 26 6 = 25#6 := (f _ _).trans <| hi (by decide) <| hi (by decide) <| hi (by decide) <| hi (by decide) <| hi (by decide) <| hi (by decide) <| ext_all _
  have f2 : fld word 23 3 = (BitVec.ofFin (w := 3) p) := (f _ _).trans <| hi (by decide) <| hi (by decide) <| hi (by decide) <| hi (by decide) <| hi (by decide) <| lo (by decide) (ext_all _)
  have f3 : fld word 21 2 = am.code := (f _ _).trans <| hi (by decide) <| hi (by decide) <| hi (by decide) <| hi (by decide) <| lo (by decide) (ext_all _)
  have f4 : fld word 16 5 = 5#5 := (f _ _).trans <| hi (by decide) <| hi (by decide) <| hi (by decide) <| lo (by decide) (ext_all _)
  have f5 : fld word 12 4 = ty.code := (f _ _).trans <| hi (by decide) <| hi (by decide) <| lo (by decide) (ext_all _)
  have f6 : fld word 9 3 = r.code := (f _ _).trans <| hi (by decide) <| lo (by decide) (ext_all _)
  have f7 : fld word 0 9 = d := (f _ _).trans <| lo (by decide) (ext_all _)
  refine ok_of word _ ?_ h
  rw [raw_19 word f1]; unfold decode19; rw [f4]
  simp only [f2, f3, f5, f6, f7, BitVec.reduceToNat, pregAt, fin3, needSome, tyc, amc, rndc]

theorem RoundTrip.vfma (p : PReg) (am : Am) (ty : Ty) (r : Rnd) (d : BitVec 9) : RoundTrip.Statement (.vfma p am ty r d) := by
  intro word h e
  have e : (25#6 ++ (BitVec.ofFin (w := 3) p) ++ am.code ++ 6#5 ++ ty.code ++ r.code ++ d : BitVec 32) = word := Option.some.inj e
  have f := fld_of (6+3+2+5+4+3+9) _ word (congrArg BitVec.toNat e)
  have f1 : fld word 26 6 = 25#6 := (f _ _).trans <| hi (by decide) <| hi (by decide) <| hi (by decide) <| hi (by decide) <| hi (by decide) <| hi (by decide) <| ext_all _
  have f2 : fld word 23 3 = (BitVec.ofFin (w := 3) p) := (f _ _).trans <| hi (by decide) <| hi (by decide) <| hi (by decide) <| hi (by decide) <| hi (by decide) <| lo (by decide) (ext_all _)
  have f3 : fld word 21 2 = am.code := (f _ _).trans <| hi (by decide) <| hi (by decide) <| hi (by decide) <| hi (by decide) <| lo (by decide) (ext_all _)
  have f4 : fld word 16 5 = 6#5 := (f _ _).trans <| hi (by decide) <| hi (by decide) <| hi (by decide) <| lo (by decide) (ext_all _)
  have f5 : fld word 12 4 = ty.code := (f _ _).trans <| hi (by decide) <| hi (by decide) <| lo (by decide) (ext_all _)
  have f6 : fld word 9 3 = r.code := (f _ _).trans <| hi (by decide) <| lo (by decide) (ext_all _)
  have f7 : fld word 0 9 = d := (f _ _).trans <| lo (by decide) (ext_all _)
  refine ok_of word _ ?_ h
  rw [raw_19 word f1]; unfold decode19; rw [f4]
  simp only [f2, f3, f5, f6, f7, BitVec.reduceToNat, pregAt, fin3, needSome, tyc, amc, rndc]

theorem RoundTrip.vfmal (p : PReg) (am : Am) (ty : Ty) (r : Rnd) (d : BitVec 9) : RoundTrip.Statement (.vfmal p am ty r d) := by
  intro word h e
  have e : (25#6 ++ (BitVec.ofFin (w := 3) p) ++ am.code ++ 7#5 ++ ty.code ++ r.code ++ d : BitVec 32) = word := Option.some.inj e
  have f := fld_of (6+3+2+5+4+3+9) _ word (congrArg BitVec.toNat e)
  have f1 : fld word 26 6 = 25#6 := (f _ _).trans <| hi (by decide) <| hi (by decide) <| hi (by decide) <| hi (by decide) <| hi (by decide) <| hi (by decide) <| ext_all _
  have f2 : fld word 23 3 = (BitVec.ofFin (w := 3) p) := (f _ _).trans <| hi (by decide) <| hi (by decide) <| hi (by decide) <| hi (by decide) <| hi (by decide) <| lo (by decide) (ext_all _)
  have f3 : fld word 21 2 = am.code := (f _ _).trans <| hi (by decide) <| hi (by decide) <| hi (by decide) <| hi (by decide) <| lo (by decide) (ext_all _)
  have f4 : fld word 16 5 = 7#5 := (f _ _).trans <| hi (by decide) <| hi (by decide) <| hi (by decide) <| lo (by decide) (ext_all _)
  have f5 : fld word 12 4 = ty.code := (f _ _).trans <| hi (by decide) <| hi (by decide) <| lo (by decide) (ext_all _)
  have f6 : fld word 9 3 = r.code := (f _ _).trans <| hi (by decide) <| lo (by decide) (ext_all _)
  have f7 : fld word 0 9 = d := (f _ _).trans <| lo (by decide) (ext_all _)
  refine ok_of word _ ?_ h
  rw [raw_19 word f1]; unfold decode19; rw [f4]
  simp only [f2, f3, f5, f6, f7, BitVec.reduceToNat, pregAt, fin3, needSome, tyc, amc, rndc]

theorem RoundTrip.vfms (p : PReg) (am : Am) (ty : Ty) (r : Rnd) (d : BitVec 9) : RoundTrip.Statement (.vfms p am ty r d) := by
  intro word h e
  have e : (25#6 ++ (BitVec.ofFin (w := 3) p) ++ am.code ++ 8#5 ++ ty.code ++ r.code ++ d : BitVec 32) = word := Option.some.inj e
  have f := fld_of (6+3+2+5+4+3+9) _ word (congrArg BitVec.toNat e)
  have f1 : fld word 26 6 = 25#6 := (f _ _).trans <| hi (by decide) <| hi (by decide) <| hi (by decide) <| hi (by decide) <| hi (by decide) <| hi (by decide) <| ext_all _
  have f2 : fld word 23 3 = (BitVec.ofFin (w := 3) p) := (f _ _).trans <| hi (by decide) <| hi (by decide) <| hi (by decide) <| hi (by decide) <| hi (by decide) <| lo (by decide) (ext_all _)
  have f3 : fld word 21 2 = am.code := (f _ _).trans <| hi (by decide) <| hi (by decide) <| hi (by decide) <| hi (by decide) <| lo (by decide) (ext_all _)
  have f4 : fld word 16 5 = 8#5 := (f _ _).trans <| hi (by decide) <| hi (by decide) <| hi (by decide) <| lo (by decide) (ext_all _)
  have f5 : fld word 12 4 = ty.code := (f _ _).trans <| hi (by decide) <| hi (by decide) <| lo (by decide) (ext_all _)
  have f6 : fld word 9 3 = r.code := (f _ _).trans <| hi (by decide) <| lo (by decide) (ext_all _)
  have f7 : fld word 0 9 = d := (f _ _).trans <| lo (by decide) (ext_all _)
  refine ok_of word _ ?_ h
  rw [raw_19 word f1]; unfold decode19; rw [f4]
  simp only [f2, f3, f5, f6, f7, BitVec.reduceToNat, pregAt, fin3, needSome, tyc, amc, rndc]

theorem RoundTrip.vfdiv (p : PReg) (am : Am) (ty : Ty) (r : Rnd) (d : BitVec 9) : RoundTrip.Statement (.vfdiv p am ty r d) := by
  intro word h e
  have e : (25#6 ++ (BitVec.ofFin (w := 3) p) ++ am.code ++ 9#5 ++ ty.code ++ r.code ++ d : BitVec 32) = word := Option.some.inj e
  have f := fld_of (6+3+2+5+4+3+9) _ word (congrArg BitVec.toNat e)
  have f1 : fld word 26 6 = 25#6 := (f _ _).trans <| hi (by decide) <| hi (by decide) <| hi (by decide) <| hi (by decide) <| hi (by decide) <| hi (by decide) <| ext_all _
  have f2 : fld word 23 3 = (BitVec.ofFin (w := 3) p) := (f _ _).trans <| hi (by decide) <| hi (by decide) <| hi (by decide) <| hi (by decide) <| hi (by decide) <| lo (by decide) (ext_all _)
  have f3 : fld word 21 2 = am.code := (f _ _).trans <| hi (by decide) <| hi (by decide) <| hi (by decide) <| hi (by decide) <| lo (by decide) (ext_all _)
  have f4 : fld word 16 5 = 9#5 := (f _ _).trans <| hi (by decide) <| hi (by decide) <| hi (by decide) <| lo (by decide) (ext_all _)
  have f5 : fld word 12 4 = ty.code := (f _ _).trans <| hi (by decide) <| hi (by decide) <| lo (by decide) (ext_all _)
  have f6 : fld word 9 3 = r.code := (f _ _).trans <| hi (by decide) <| lo (by decide) (ext_all _)
  have f7 : fld word 0 9 = d := (f _ _).trans <| lo (by decide) (ext_all _)
  refine ok_of word _ ?_ h
  rw [raw_19 word f1]; unfold decode19; rw [f4]
  simp only [f2, f3, f5, f6, f7, BitVec.reduceToNat, pregAt, fin3, needSome, tyc, amc, rndc]

theorem RoundTrip.vfsqrt (p : PReg) (am : Am) (ty : Ty) (r : Rnd) (d : BitVec 9) : RoundTrip.Statement (.vfsqrt p am ty r d) := by
  intro word h e
  have e : (25#6 ++ (BitVec.ofFin (w := 3) p) ++ am.code ++ 10#5 ++ ty.code ++ r.code ++ d : BitVec 32) = word := Option.some.inj e
  have f := fld_of (6+3+2+5+4+3+9) _ word (congrArg BitVec.toNat e)
  have f1 : fld word 26 6 = 25#6 := (f _ _).trans <| hi (by decide) <| hi (by decide) <| hi (by decide) <| hi (by decide) <| hi (by decide) <| hi (by decide) <| ext_all _
  have f2 : fld word 23 3 = (BitVec.ofFin (w := 3) p) := (f _ _).trans <| hi (by decide) <| hi (by decide) <| hi (by decide) <| hi (by decide) <| hi (by decide) <| lo (by decide) (ext_all _)
  have f3 : fld word 21 2 = am.code := (f _ _).trans <| hi (by decide) <| hi (by decide) <| hi (by decide) <| hi (by decide) <| lo (by decide) (ext_all _)
  have f4 : fld word 16 5 = 10#5 := (f _ _).trans <| hi (by decide) <| hi (by decide) <| hi (by decide) <| lo (by decide) (ext_all _)
  have f5 : fld word 12 4 = ty.code := (f _ _).trans <| hi (by decide) <| hi (by decide) <| lo (by decide) (ext_all _)
  have f6 : fld word 9 3 = r.code := (f _ _).trans <| hi (by decide) <| lo (by decide) (ext_all _)
  have f7 : fld word 0 9 = d := (f _ _).trans <| lo (by decide) (ext_all _)
  refine ok_of word _ ?_ h
  rw [raw_19 word f1]; unfold decode19; rw [f4]
  simp only [f2, f3, f5, f6, f7, BitVec.reduceToNat, pregAt, fin3, needSome, tyc, amc, rndc]

theorem RoundTrip.vfmin (p : PReg) (am : Am) (ty : Ty) (r : Rnd) (d : BitVec 9) : RoundTrip.Statement (.vfmin p am ty r d) := by
  intro word h e
  have e : (25#6 ++ (BitVec.ofFin (w := 3) p) ++ am.code ++ 11#5 ++ ty.code ++ r.code ++ d : BitVec 32) = word := Option.some.inj e
  have f := fld_of (6+3+2+5+4+3+9) _ word (congrArg BitVec.toNat e)
  have f1 : fld word 26 6 = 25#6 := (f _ _).trans <| hi (by decide) <| hi (by decide) <| hi (by decide) <| hi (by decide) <| hi (by decide) <| hi (by decide) <| ext_all _
  have f2 : fld word 23 3 = (BitVec.ofFin (w := 3) p) := (f _ _).trans <| hi (by decide) <| hi (by decide) <| hi (by decide) <| hi (by decide) <| hi (by decide) <| lo (by decide) (ext_all _)
  have f3 : fld word 21 2 = am.code := (f _ _).trans <| hi (by decide) <| hi (by decide) <| hi (by decide) <| hi (by decide) <| lo (by decide) (ext_all _)
  have f4 : fld word 16 5 = 11#5 := (f _ _).trans <| hi (by decide) <| hi (by decide) <| hi (by decide) <| lo (by decide) (ext_all _)
  have f5 : fld word 12 4 = ty.code := (f _ _).trans <| hi (by decide) <| hi (by decide) <| lo (by decide) (ext_all _)
  have f6 : fld word 9 3 = r.code := (f _ _).trans <| hi (by decide) <| lo (by decide) (ext_all _)
  have f7 : fld word 0 9 = d := (f _ _).trans <| lo (by decide) (ext_all _)
  refine ok_of word _ ?_ h
  rw [raw_19 word f1]; unfold decode19; rw [f4]
  simp only [f2, f3, f5, f6, f7, BitVec.reduceToNat, pregAt, fin3, needSome, tyc, amc, rndc]

theorem RoundTrip.vfmax (p : PReg) (am : Am) (ty : Ty) (r : Rnd) (d : BitVec 9) : RoundTrip.Statement (.vfmax p am ty r d) := by
  intro word h e
  have e : (25#6 ++ (BitVec.ofFin (w := 3) p) ++ am.code ++ 12#5 ++ ty.code ++ r.code ++ d : BitVec 32) = word := Option.some.inj e
  have f := fld_of (6+3+2+5+4+3+9) _ word (congrArg BitVec.toNat e)
  have f1 : fld word 26 6 = 25#6 := (f _ _).trans <| hi (by decide) <| hi (by decide) <| hi (by decide) <| hi (by decide) <| hi (by decide) <| hi (by decide) <| ext_all _
  have f2 : fld word 23 3 = (BitVec.ofFin (w := 3) p) := (f _ _).trans <| hi (by decide) <| hi (by decide) <| hi (by decide) <| hi (by decide) <| hi (by decide) <| lo (by decide) (ext_all _)
  have f3 : fld word 21 2 = am.code := (f _ _).trans <| hi (by decide) <| hi (by decide) <| hi (by decide) <| hi (by decide) <| lo (by decide) (ext_all _)
  have f4 : fld word 16 5 = 12#5 := (f _ _).trans <| hi (by decide) <| hi (by decide) <| hi (by decide) <| lo (by decide) (ext_all _)
  have f5 : fld word 12 4 = ty.code := (f _ _).trans <| hi (by decide) <| hi (by decide) <| lo (by decide) (ext_all _)
  have f6 : fld word 9 3 = r.code := (f _ _).trans <| hi (by decide) <| lo (by decide) (ext_all _)
  have f7 : fld word 0 9 = d := (f _ _).trans <| lo (by decide) (ext_all _)
  refine ok_of word _ ?_ h
  rw [raw_19 word f1]; unfold decode19; rw [f4]
  simp only [f2, f3, f5, f6, f7, BitVec.reduceToNat, pregAt, fin3, needSome, tyc, amc, rndc]

theorem RoundTrip.vfabs (p : PReg) (am : Am) (ty : Ty) (r : Rnd) (d : BitVec 9) : RoundTrip.Statement (.vfabs p am ty r d) := by
  intro word h e
  have e : (25#6 ++ (BitVec.ofFin (w := 3) p) ++ am.code ++ 13#5 ++ ty.code ++ r.code ++ d : BitVec 32) = word := Option.some.inj e
  have f := fld_of (6+3+2+5+4+3+9) _ word (congrArg BitVec.toNat e)
  have f1 : fld word 26 6 = 25#6 := (f _ _).trans <| hi (by decide) <| hi (by decide) <| hi (by decide) <| hi (by decide) <| hi (by decide) <| hi (by decide) <| ext_all _
  have f2 : fld word 23 3 = (BitVec.ofFin (w := 3) p) := (f _ _).trans <| hi (by decide) <| hi (by decide) <| hi (by decide) <| hi (by decide) <| hi (by decide) <| lo (by decide) (ext_all _)
  have f3 : fld word 21 2 = am.code := (f _ _).trans <| hi (by decide) <| hi (by decide) <| hi (by decide) <| hi (by decide) <| lo (by decide) (ext_all _)
  have f4 : fld word 16 5 = 13#5 := (f _ _).trans <| hi (by decide) <| hi (by decide) <| hi (by decide) <| lo (by decide) (ext_all _)
  have f5 : fld word 12 4 = ty.code := (f _ _).trans <| hi (by decide) <| hi (by decide) <| lo (by decide) (ext_all _)
  have f6 : fld word 9 3 = r.code := (f _ _).trans <| hi (by decide) <| lo (by decide) (ext_all _)
  have f7 : fld word 0 9 = d := (f _ _).trans <| lo (by decide) (ext_all _)
  refine ok_of word _ ?_ h
  rw [raw_19 word f1]; unfold decode19; rw [f4]
  simp only [f2, f3, f5, f6, f7, BitVec.reduceToNat, pregAt, fin3, needSome, tyc, amc, rndc]

theorem RoundTrip.vfneg (p : PReg) (am : Am) (ty : Ty) (r : Rnd) (d : BitVec 9) : RoundTrip.Statement (.vfneg p am ty r d) := by
  intro word h e
  have e : (25#6 ++ (BitVec.ofFin (w := 3) p) ++ am.code ++ 14#5 ++ ty.code ++ r.code ++ d : BitVec 32) = word := Option.some.inj e
  have f := fld_of (6+3+2+5+4+3+9) _ word (congrArg BitVec.toNat e)
  have f1 : fld word 26 6 = 25#6 := (f _ _).trans <| hi (by decide) <| hi (by decide) <| hi (by decide) <| hi (by decide) <| hi (by decide) <| hi (by decide) <| ext_all _
  have f2 : fld word 23 3 = (BitVec.ofFin (w := 3) p) := (f _ _).trans <| hi (by decide) <| hi (by decide) <| hi (by decide) <| hi (by decide) <| hi (by decide) <| lo (by decide) (ext_all _)
  have f3 : fld word 21 2 = am.code := (f _ _).trans <| hi (by decide) <| hi (by decide) <| hi (by decide) <| hi (by decide) <| lo (by decide) (ext_all _)
  have f4 : fld word 16 5 = 14#5 := (f _ _).trans <| hi (by decide) <| hi (by decide) <| hi (by decide) <| lo (by decide) (ext_all _)
  have f5 : fld word 12 4 = ty.code := (f _ _).trans <| hi (by decide) <| hi (by decide) <| lo (by decide) (ext_all _)
  have f6 : fld word 9 3 = r.code := (f _ _).trans <| hi (by decide) <| lo (by decide) (ext_all _)
  have f7 : fld word 0 9 = d := (f _ _).trans <| lo (by decide) (ext_all _)
  refine ok_of word _ ?_ h
  rw [raw_19 word f1]; unfold decode19; rw [f4]
  simp only [f2, f3, f5, f6, f7, BitVec.reduceToNat, pregAt, fin3, needSome, tyc, amc, rndc]

theorem RoundTrip.vfrnd (p : PReg) (am : Am) (ty : Ty) (r : Rnd) (d : BitVec 9) : RoundTrip.Statement (.vfrnd p am ty r d) := by
  intro word h e
  have e : (25#6 ++ (BitVec.ofFin (w := 3) p) ++ am.code ++ 15#5 ++ ty.code ++ r.code ++ d : BitVec 32) = word := Option.some.inj e
  have f := fld_of (6+3+2+5+4+3+9) _ word (congrArg BitVec.toNat e)
  have f1 : fld word 26 6 = 25#6 := (f _ _).trans <| hi (by decide) <| hi (by decide) <| hi (by decide) <| hi (by decide) <| hi (by decide) <| hi (by decide) <| ext_all _
  have f2 : fld word 23 3 = (BitVec.ofFin (w := 3) p) := (f _ _).trans <| hi (by decide) <| hi (by decide) <| hi (by decide) <| hi (by decide) <| hi (by decide) <| lo (by decide) (ext_all _)
  have f3 : fld word 21 2 = am.code := (f _ _).trans <| hi (by decide) <| hi (by decide) <| hi (by decide) <| hi (by decide) <| lo (by decide) (ext_all _)
  have f4 : fld word 16 5 = 15#5 := (f _ _).trans <| hi (by decide) <| hi (by decide) <| hi (by decide) <| lo (by decide) (ext_all _)
  have f5 : fld word 12 4 = ty.code := (f _ _).trans <| hi (by decide) <| hi (by decide) <| lo (by decide) (ext_all _)
  have f6 : fld word 9 3 = r.code := (f _ _).trans <| hi (by decide) <| lo (by decide) (ext_all _)
  have f7 : fld word 0 9 = d := (f _ _).trans <| lo (by decide) (ext_all _)
  refine ok_of word _ ?_ h
  rw [raw_19 word f1]; unfold decode19; rw [f4]
  simp only [f2, f3, f5, f6, f7, BitVec.reduceToNat, pregAt, fin3, needSome, tyc, amc, rndc]

theorem RoundTrip.vfscale (p : PReg) (am : Am) (ty : Ty) (r : Rnd) (d : BitVec 9) : RoundTrip.Statement (.vfscale p am ty r d) := by
  intro word h e
  have e : (25#6 ++ (BitVec.ofFin (w := 3) p) ++ am.code ++ 16#5 ++ ty.code ++ r.code ++ d : BitVec 32) = word := Option.some.inj e
  have f := fld_of (6+3+2+5+4+3+9) _ word (congrArg BitVec.toNat e)
  have f1 : fld word 26 6 = 25#6 := (f _ _).trans <| hi (by decide) <| hi (by decide) <| hi (by decide) <| hi (by decide) <| hi (by decide) <| hi (by decide) <| ext_all _
  have f2 : fld word 23 3 = (BitVec.ofFin (w := 3) p) := (f _ _).trans <| hi (by decide) <| hi (by decide) <| hi (by decide) <| hi (by decide) <| hi (by decide) <| lo (by decide) (ext_all _)
  have f3 : fld word 21 2 = am.code := (f _ _).trans <| hi (by decide) <| hi (by decide) <| hi (by decide) <| hi (by decide) <| lo (by decide) (ext_all _)
  have f4 : fld word 16 5 = 16#5 := (f _ _).trans <| hi (by decide) <| hi (by decide) <| hi (by decide) <| lo (by decide) (ext_all _)
  have f5 : fld word 12 4 = ty.code := (f _ _).trans <| hi (by decide) <| hi (by decide) <| lo (by decide) (ext_all _)
  have f6 : fld word 9 3 = r.code := (f _ _).trans <| hi (by decide) <| lo (by decide) (ext_all _)
  have f7 : fld word 0 9 = d := (f _ _).trans <| lo (by decide) (ext_all _)
  refine ok_of word _ ?_ h
  rw [raw_19 word f1]; unfold decode19; rw [f4]
  simp only [f2, f3, f5, f6, f7, BitVec.reduceToNat, pregAt, fin3, needSome, tyc, amc, rndc]

theorem RoundTrip.vcvtf (p : PReg) (am : Am) (ty : Ty) (r : Rnd) (d : BitVec 9) : RoundTrip.Statement (.vcvtf p am ty r d) := by
  intro word h e
  have e : (26#6 ++ (BitVec.ofFin (w := 3) p) ++ am.code ++ 0#5 ++ ty.code ++ r.code ++ d : BitVec 32) = word := Option.some.inj e
  have f := fld_of (6+3+2+5+4+3+9) _ word (congrArg BitVec.toNat e)
  have f1 : fld word 26 6 = 26#6 := (f _ _).trans <| hi (by decide) <| hi (by decide) <| hi (by decide) <| hi (by decide) <| hi (by decide) <| hi (by decide) <| ext_all _
  have f2 : fld word 23 3 = (BitVec.ofFin (w := 3) p) := (f _ _).trans <| hi (by decide) <| hi (by decide) <| hi (by decide) <| hi (by decide) <| hi (by decide) <| lo (by decide) (ext_all _)
  have f3 : fld word 21 2 = am.code := (f _ _).trans <| hi (by decide) <| hi (by decide) <| hi (by decide) <| hi (by decide) <| lo (by decide) (ext_all _)
  have f4 : fld word 16 5 = 0#5 := (f _ _).trans <| hi (by decide) <| hi (by decide) <| hi (by decide) <| lo (by decide) (ext_all _)
  have f5 : fld word 12 4 = ty.code := (f _ _).trans <| hi (by decide) <| hi (by decide) <| lo (by decide) (ext_all _)
  have f6 : fld word 9 3 = r.code := (f _ _).trans <| hi (by decide) <| lo (by decide) (ext_all _)
  have f7 : fld word 0 9 = d := (f _ _).trans <| lo (by decide) (ext_all _)
  refine ok_of word _ ?_ h
  rw [raw_1A word f1]; unfold decode1A; rw [f4]
  simp only [f2, f3, f5, f6, f7, BitVec.reduceToNat, pregAt, fin3, needSome, tyc, amc, rndc]

theorem RoundTrip.vcvti (p : PReg) (am : Am) (ty : Ty) (r : Rnd) (d : BitVec 9) : RoundTrip.Statement (.vcvti p am ty r d) := by
  intro word h e
  have e : (26#6 ++ (BitVec.ofFin (w := 3) p) ++ am.code ++ 1#5 ++ ty.code ++ r.code ++ d : BitVec 32) = word := Option.some.inj e
  have f := fld_of (6+3+2+5+4+3+9) _ word (congrArg BitVec.toNat e)
  have f1 : fld word 26 6 = 26#6 := (f _ _).trans <| hi (by decide) <| hi (by decide) <| hi (by decide) <| hi (by decide) <| hi (by decide) <| hi (by decide) <| ext_all _
  have f2 : fld word 23 3 = (BitVec.ofFin (w := 3) p) := (f _ _).trans <| hi (by decide) <| hi (by decide) <| hi (by decide) <| hi (by decide) <| hi (by decide) <| lo (by decide) (ext_all _)
  have f3 : fld word 21 2 = am.code := (f _ _).trans <| hi (by decide) <| hi (by decide) <| hi (by decide) <| hi (by decide) <| lo (by decide) (ext_all _)
  have f4 : fld word 16 5 = 1#5 := (f _ _).trans <| hi (by decide) <| hi (by decide) <| hi (by decide) <| lo (by decide) (ext_all _)
  have f5 : fld word 12 4 = ty.code := (f _ _).trans <| hi (by decide) <| hi (by decide) <| lo (by decide) (ext_all _)
  have f6 : fld word 9 3 = r.code := (f _ _).trans <| hi (by decide) <| lo (by decide) (ext_all _)
  have f7 : fld word 0 9 = d := (f _ _).trans <| lo (by decide) (ext_all _)
  refine ok_of word _ ?_ h
  rw [raw_1A word f1]; unfold decode1A; rw [f4]
  simp only [f2, f3, f5, f6, f7, BitVec.reduceToNat, pregAt, fin3, needSome, tyc, amc, rndc]

theorem RoundTrip.vpack (p : PReg) (am : Am) (ty : Ty) (r : Rnd) (d : BitVec 9) : RoundTrip.Statement (.vpack p am ty r d) := by
  intro word h e
  have e : (26#6 ++ (BitVec.ofFin (w := 3) p) ++ am.code ++ 2#5 ++ ty.code ++ r.code ++ d : BitVec 32) = word := Option.some.inj e
  have f := fld_of (6+3+2+5+4+3+9) _ word (congrArg BitVec.toNat e)
  have f1 : fld word 26 6 = 26#6 := (f _ _).trans <| hi (by decide) <| hi (by decide) <| hi (by decide) <| hi (by decide) <| hi (by decide) <| hi (by decide) <| ext_all _
  have f2 : fld word 23 3 = (BitVec.ofFin (w := 3) p) := (f _ _).trans <| hi (by decide) <| hi (by decide) <| hi (by decide) <| hi (by decide) <| hi (by decide) <| lo (by decide) (ext_all _)
  have f3 : fld word 21 2 = am.code := (f _ _).trans <| hi (by decide) <| hi (by decide) <| hi (by decide) <| hi (by decide) <| lo (by decide) (ext_all _)
  have f4 : fld word 16 5 = 2#5 := (f _ _).trans <| hi (by decide) <| hi (by decide) <| hi (by decide) <| lo (by decide) (ext_all _)
  have f5 : fld word 12 4 = ty.code := (f _ _).trans <| hi (by decide) <| hi (by decide) <| lo (by decide) (ext_all _)
  have f6 : fld word 9 3 = r.code := (f _ _).trans <| hi (by decide) <| lo (by decide) (ext_all _)
  have f7 : fld word 0 9 = d := (f _ _).trans <| lo (by decide) (ext_all _)
  refine ok_of word _ ?_ h
  rw [raw_1A word f1]; unfold decode1A; rw [f4]
  simp only [f2, f3, f5, f6, f7, BitVec.reduceToNat, pregAt, fin3, needSome, tyc, amc, rndc]

theorem RoundTrip.vpacki (p : PReg) (am : Am) (ty : Ty) (d : BitVec 9) : RoundTrip.Statement (.vpacki p am ty d) := by
  intro word h e
  have e : (26#6 ++ (BitVec.ofFin (w := 3) p) ++ am.code ++ 3#5 ++ ty.code ++ 0#3 ++ d : BitVec 32) = word := Option.some.inj e
  have f := fld_of (6+3+2+5+4+3+9) _ word (congrArg BitVec.toNat e)
  have f1 : fld word 26 6 = 26#6 := (f _ _).trans <| hi (by decide) <| hi (by decide) <| hi (by decide) <| hi (by decide) <| hi (by decide) <| hi (by decide) <| ext_all _
  have f2 : fld word 23 3 = (BitVec.ofFin (w := 3) p) := (f _ _).trans <| hi (by decide) <| hi (by decide) <| hi (by decide) <| hi (by decide) <| hi (by decide) <| lo (by decide) (ext_all _)
  have f3 : fld word 21 2 = am.code := (f _ _).trans <| hi (by decide) <| hi (by decide) <| hi (by decide) <| hi (by decide) <| lo (by decide) (ext_all _)
  have f4 : fld word 16 5 = 3#5 := (f _ _).trans <| hi (by decide) <| hi (by decide) <| hi (by decide) <| lo (by decide) (ext_all _)
  have f5 : fld word 12 4 = ty.code := (f _ _).trans <| hi (by decide) <| hi (by decide) <| lo (by decide) (ext_all _)
  have f6 : fld word 9 3 = 0#3 := (f _ _).trans <| hi (by decide) <| lo (by decide) (ext_all _)
  have f7 : fld word 0 9 = d := (f _ _).trans <| lo (by decide) (ext_all _)
  refine ok_of word _ ?_ h
  rw [raw_1A word f1]; unfold decode1A; rw [f4]
  simp only [f2, f3, f5, f6, f7, BitVec.reduceToNat, pregAt, fin3, needZero, beq_self_eq_true, if_true, needSome, tyc, amc]

theorem RoundTrip.vpacks (p : PReg) (am : Am) (ty : Ty) (r : Rnd) (d : BitVec 9) : RoundTrip.Statement (.vpacks p am ty r d) := by
  intro word h e
  have e : (26#6 ++ (BitVec.ofFin (w := 3) p) ++ am.code ++ 4#5 ++ ty.code ++ r.code ++ d : BitVec 32) = word := Option.some.inj e
  have f := fld_of (6+3+2+5+4+3+9) _ word (congrArg BitVec.toNat e)
  have f1 : fld word 26 6 = 26#6 := (f _ _).trans <| hi (by decide) <| hi (by decide) <| hi (by decide) <| hi (by decide) <| hi (by decide) <| hi (by decide) <| ext_all _
  have f2 : fld word 23 3 = (BitVec.ofFin (w := 3) p) := (f _ _).trans <| hi (by decide) <| hi (by decide) <| hi (by decide) <| hi (by decide) <| hi (by decide) <| lo (by decide) (ext_all _)
  have f3 : fld word 21 2 = am.code := (f _ _).trans <| hi (by decide) <| hi (by decide) <| hi (by decide) <| hi (by decide) <| lo (by decide) (ext_all _)
  have f4 : fld word 16 5 = 4#5 := (f _ _).trans <| hi (by decide) <| hi (by decide) <| hi (by decide) <| lo (by decide) (ext_all _)
  have f5 : fld word 12 4 = ty.code := (f _ _).trans <| hi (by decide) <| hi (by decide) <| lo (by decide) (ext_all _)
  have f6 : fld word 9 3 = r.code := (f _ _).trans <| hi (by decide) <| lo (by decide) (ext_all _)
  have f7 : fld word 0 9 = d := (f _ _).trans <| lo (by decide) (ext_all _)
  refine ok_of word _ ?_ h
  rw [raw_1A word f1]; unfold decode1A; rw [f4]
  simp only [f2, f3, f5, f6, f7, BitVec.reduceToNat, pregAt, fin3, needSome, tyc, amc, rndc]

theorem RoundTrip.vrsum (p : PReg) (am : Am) (ty : Ty) (d : BitVec 9) : RoundTrip.Statement (.vrsum p am ty d) := by
  intro word h e
  have e : (27#6 ++ (BitVec.ofFin (w := 3) p) ++ am.code ++ 0#5 ++ ty.code ++ 0#3 ++ d : BitVec 32) = word := Option.some.inj e
  have f := fld_of (6+3+2+5+4+3+9) _ word (congrArg BitVec.toNat e)
  have f1 : fld word 26 6 = 27#6 := (f _ _).trans <| hi (by decide) <| hi (by decide) <| hi (by decide) <| hi (by decide) <| hi (by decide) <| hi (by decide) <| ext_all _
  have f2 : fld word 23 3 = (BitVec.ofFin (w := 3) p) := (f _ _).trans <| hi (by decide) <| hi (by decide) <| hi (by decide) <| hi (by decide) <| hi (by decide) <| lo (by decide) (ext_all _)
  have f3 : fld word 21 2 = am.code := (f _ _).trans <| hi (by decide) <| hi (by decide) <| hi (by decide) <| hi (by decide) <| lo (by decide) (ext_all _)
  have f4 : fld word 16 5 = 0#5 := (f _ _).trans <| hi (by decide) <| hi (by decide) <| hi (by decide) <| lo (by decide) (ext_all _)
  have f5 : fld word 12 4 = ty.code := (f _ _).trans <| hi (by decide) <| hi (by decide) <| lo (by decide) (ext_all _)
  have f6 : fld word 9 3 = 0#3 := (f _ _).trans <| hi (by decide) <| lo (by decide) (ext_all _)
  have f7 : fld word 0 9 = d := (f _ _).trans <| lo (by decide) (ext_all _)
  refine ok_of word _ ?_ h
  rw [raw_1B word f1]; unfold decode1B; rw [f4]
  simp only [f2, f3, f5, f6, f7, BitVec.reduceToNat, pregAt, fin3, needZero, beq_self_eq_true, if_true, needSome, tyc, amc]

theorem RoundTrip.vrmin (p : PReg) (am : Am) (ty : Ty) (d : BitVec 9) : RoundTrip.Statement (.vrmin p am ty d) := by
  intro word h e
  have e : (27#6 ++ (BitVec.ofFin (w := 3) p) ++ am.code ++ 1#5 ++ ty.code ++ 0#3 ++ d : BitVec 32) = word := Option.some.inj e
  have f := fld_of (6+3+2+5+4+3+9) _ word (congrArg BitVec.toNat e)
  have f1 : fld word 26 6 = 27#6 := (f _ _).trans <| hi (by decide) <| hi (by decide) <| hi (by decide) <| hi (by decide) <| hi (by decide) <| hi (by decide) <| ext_all _
  have f2 : fld word 23 3 = (BitVec.ofFin (w := 3) p) := (f _ _).trans <| hi (by decide) <| hi (by decide) <| hi (by decide) <| hi (by decide) <| hi (by decide) <| lo (by decide) (ext_all _)
  have f3 : fld word 21 2 = am.code := (f _ _).trans <| hi (by decide) <| hi (by decide) <| hi (by decide) <| hi (by decide) <| lo (by decide) (ext_all _)
  have f4 : fld word 16 5 = 1#5 := (f _ _).trans <| hi (by decide) <| hi (by decide) <| hi (by decide) <| lo (by decide) (ext_all _)
  have f5 : fld word 12 4 = ty.code := (f _ _).trans <| hi (by decide) <| hi (by decide) <| lo (by decide) (ext_all _)
  have f6 : fld word 9 3 = 0#3 := (f _ _).trans <| hi (by decide) <| lo (by decide) (ext_all _)
  have f7 : fld word 0 9 = d := (f _ _).trans <| lo (by decide) (ext_all _)
  refine ok_of word _ ?_ h
  rw [raw_1B word f1]; unfold decode1B; rw [f4]
  simp only [f2, f3, f5, f6, f7, BitVec.reduceToNat, pregAt, fin3, needZero, beq_self_eq_true, if_true, needSome, tyc, amc]

theorem RoundTrip.vrmax (p : PReg) (am : Am) (ty : Ty) (d : BitVec 9) : RoundTrip.Statement (.vrmax p am ty d) := by
  intro word h e
  have e : (27#6 ++ (BitVec.ofFin (w := 3) p) ++ am.code ++ 2#5 ++ ty.code ++ 0#3 ++ d : BitVec 32) = word := Option.some.inj e
  have f := fld_of (6+3+2+5+4+3+9) _ word (congrArg BitVec.toNat e)
  have f1 : fld word 26 6 = 27#6 := (f _ _).trans <| hi (by decide) <| hi (by decide) <| hi (by decide) <| hi (by decide) <| hi (by decide) <| hi (by decide) <| ext_all _
  have f2 : fld word 23 3 = (BitVec.ofFin (w := 3) p) := (f _ _).trans <| hi (by decide) <| hi (by decide) <| hi (by decide) <| hi (by decide) <| hi (by decide) <| lo (by decide) (ext_all _)
  have f3 : fld word 21 2 = am.code := (f _ _).trans <| hi (by decide) <| hi (by decide) <| hi (by decide) <| hi (by decide) <| lo (by decide) (ext_all _)
  have f4 : fld word 16 5 = 2#5 := (f _ _).trans <| hi (by decide) <| hi (by decide) <| hi (by decide) <| lo (by decide) (ext_all _)
  have f5 : fld word 12 4 = ty.code := (f _ _).trans <| hi (by decide) <| hi (by decide) <| lo (by decide) (ext_all _)
  have f6 : fld word 9 3 = 0#3 := (f _ _).trans <| hi (by decide) <| lo (by decide) (ext_all _)
  have f7 : fld word 0 9 = d := (f _ _).trans <| lo (by decide) (ext_all _)
  refine ok_of word _ ?_ h
  rw [raw_1B word f1]; unfold decode1B; rw [f4]
  simp only [f2, f3, f5, f6, f7, BitVec.reduceToNat, pregAt, fin3, needZero, beq_self_eq_true, if_true, needSome, tyc, amc]

theorem RoundTrip.vrdot (p : PReg) (am : Am) (ty : Ty) (d : BitVec 9) : RoundTrip.Statement (.vrdot p am ty d) := by
  intro word h e
  have e : (27#6 ++ (BitVec.ofFin (w := 3) p) ++ am.code ++ 3#5 ++ ty.code ++ 0#3 ++ d : BitVec 32) = word := Option.some.inj e
  have f := fld_of (6+3+2+5+4+3+9) _ word (congrArg BitVec.toNat e)
  have f1 : fld word 26 6 = 27#6 := (f _ _).trans <| hi (by decide) <| hi (by decide) <| hi (by decide) <| hi (by decide) <| hi (by decide) <| hi (by decide) <| ext_all _
  have f2 : fld word 23 3 = (BitVec.ofFin (w := 3) p) := (f _ _).trans <| hi (by decide) <| hi (by decide) <| hi (by decide) <| hi (by decide) <| hi (by decide) <| lo (by decide) (ext_all _)
  have f3 : fld word 21 2 = am.code := (f _ _).trans <| hi (by decide) <| hi (by decide) <| hi (by decide) <| hi (by decide) <| lo (by decide) (ext_all _)
  have f4 : fld word 16 5 = 3#5 := (f _ _).trans <| hi (by decide) <| hi (by decide) <| hi (by decide) <| lo (by decide) (ext_all _)
  have f5 : fld word 12 4 = ty.code := (f _ _).trans <| hi (by decide) <| hi (by decide) <| lo (by decide) (ext_all _)
  have f6 : fld word 9 3 = 0#3 := (f _ _).trans <| hi (by decide) <| lo (by decide) (ext_all _)
  have f7 : fld word 0 9 = d := (f _ _).trans <| lo (by decide) (ext_all _)
  refine ok_of word _ ?_ h
  rw [raw_1B word f1]; unfold decode1B; rw [f4]
  simp only [f2, f3, f5, f6, f7, BitVec.reduceToNat, pregAt, fin3, needZero, beq_self_eq_true, if_true, needSome, tyc, amc]

theorem RoundTrip.vfrsum (p : PReg) (am : Am) (ty : Ty) (r : Rnd) (d : BitVec 9) : RoundTrip.Statement (.vfrsum p am ty r d) := by
  intro word h e
  have e : (27#6 ++ (BitVec.ofFin (w := 3) p) ++ am.code ++ 4#5 ++ ty.code ++ r.code ++ d : BitVec 32) = word := Option.some.inj e
  have f := fld_of (6+3+2+5+4+3+9) _ word (congrArg BitVec.toNat e)
  have f1 : fld word 26 6 = 27#6 := (f _ _).trans <| hi (by decide) <| hi (by decide) <| hi (by decide) <| hi (by decide) <| hi (by decide) <| hi (by decide) <| ext_all _
  have f2 : fld word 23 3 = (BitVec.ofFin (w := 3) p) := (f _ _).trans <| hi (by decide) <| hi (by decide) <| hi (by decide) <| hi (by decide) <| hi (by decide) <| lo (by decide) (ext_all _)
  have f3 : fld word 21 2 = am.code := (f _ _).trans <| hi (by decide) <| hi (by decide) <| hi (by decide) <| hi (by decide) <| lo (by decide) (ext_all _)
  have f4 : fld word 16 5 = 4#5 := (f _ _).trans <| hi (by decide) <| hi (by decide) <| hi (by decide) <| lo (by decide) (ext_all _)
  have f5 : fld word 12 4 = ty.code := (f _ _).trans <| hi (by decide) <| hi (by decide) <| lo (by decide) (ext_all _)
  have f6 : fld word 9 3 = r.code := (f _ _).trans <| hi (by decide) <| lo (by decide) (ext_all _)
  have f7 : fld word 0 9 = d := (f _ _).trans <| lo (by decide) (ext_all _)
  refine ok_of word _ ?_ h
  rw [raw_1B word f1]; unfold decode1B; rw [f4]
  simp only [f2, f3, f5, f6, f7, BitVec.reduceToNat, pregAt, fin3, needSome, tyc, amc, rndc]

theorem RoundTrip.vfrmin (p : PReg) (am : Am) (ty : Ty) (r : Rnd) (d : BitVec 9) : RoundTrip.Statement (.vfrmin p am ty r d) := by
  intro word h e
  have e : (27#6 ++ (BitVec.ofFin (w := 3) p) ++ am.code ++ 5#5 ++ ty.code ++ r.code ++ d : BitVec 32) = word := Option.some.inj e
  have f := fld_of (6+3+2+5+4+3+9) _ word (congrArg BitVec.toNat e)
  have f1 : fld word 26 6 = 27#6 := (f _ _).trans <| hi (by decide) <| hi (by decide) <| hi (by decide) <| hi (by decide) <| hi (by decide) <| hi (by decide) <| ext_all _
  have f2 : fld word 23 3 = (BitVec.ofFin (w := 3) p) := (f _ _).trans <| hi (by decide) <| hi (by decide) <| hi (by decide) <| hi (by decide) <| hi (by decide) <| lo (by decide) (ext_all _)
  have f3 : fld word 21 2 = am.code := (f _ _).trans <| hi (by decide) <| hi (by decide) <| hi (by decide) <| hi (by decide) <| lo (by decide) (ext_all _)
  have f4 : fld word 16 5 = 5#5 := (f _ _).trans <| hi (by decide) <| hi (by decide) <| hi (by decide) <| lo (by decide) (ext_all _)
  have f5 : fld word 12 4 = ty.code := (f _ _).trans <| hi (by decide) <| hi (by decide) <| lo (by decide) (ext_all _)
  have f6 : fld word 9 3 = r.code := (f _ _).trans <| hi (by decide) <| lo (by decide) (ext_all _)
  have f7 : fld word 0 9 = d := (f _ _).trans <| lo (by decide) (ext_all _)
  refine ok_of word _ ?_ h
  rw [raw_1B word f1]; unfold decode1B; rw [f4]
  simp only [f2, f3, f5, f6, f7, BitVec.reduceToNat, pregAt, fin3, needSome, tyc, amc, rndc]

theorem RoundTrip.vfrmax (p : PReg) (am : Am) (ty : Ty) (r : Rnd) (d : BitVec 9) : RoundTrip.Statement (.vfrmax p am ty r d) := by
  intro word h e
  have e : (27#6 ++ (BitVec.ofFin (w := 3) p) ++ am.code ++ 6#5 ++ ty.code ++ r.code ++ d : BitVec 32) = word := Option.some.inj e
  have f := fld_of (6+3+2+5+4+3+9) _ word (congrArg BitVec.toNat e)
  have f1 : fld word 26 6 = 27#6 := (f _ _).trans <| hi (by decide) <| hi (by decide) <| hi (by decide) <| hi (by decide) <| hi (by decide) <| hi (by decide) <| ext_all _
  have f2 : fld word 23 3 = (BitVec.ofFin (w := 3) p) := (f _ _).trans <| hi (by decide) <| hi (by decide) <| hi (by decide) <| hi (by decide) <| hi (by decide) <| lo (by decide) (ext_all _)
  have f3 : fld word 21 2 = am.code := (f _ _).trans <| hi (by decide) <| hi (by decide) <| hi (by decide) <| hi (by decide) <| lo (by decide) (ext_all _)
  have f4 : fld word 16 5 = 6#5 := (f _ _).trans <| hi (by decide) <| hi (by decide) <| hi (by decide) <| lo (by decide) (ext_all _)
  have f5 : fld word 12 4 = ty.code := (f _ _).trans <| hi (by decide) <| hi (by decide) <| lo (by decide) (ext_all _)
  have f6 : fld word 9 3 = r.code := (f _ _).trans <| hi (by decide) <| lo (by decide) (ext_all _)
  have f7 : fld word 0 9 = d := (f _ _).trans <| lo (by decide) (ext_all _)
  refine ok_of word _ ?_ h
  rw [raw_1B word f1]; unfold decode1B; rw [f4]
  simp only [f2, f3, f5, f6, f7, BitVec.reduceToNat, pregAt, fin3, needSome, tyc, amc, rndc]

theorem RoundTrip.vfrdot (p : PReg) (am : Am) (ty : Ty) (r : Rnd) (d : BitVec 9) : RoundTrip.Statement (.vfrdot p am ty r d) := by
  intro word h e
  have e : (27#6 ++ (BitVec.ofFin (w := 3) p) ++ am.code ++ 7#5 ++ ty.code ++ r.code ++ d : BitVec 32) = word := Option.some.inj e
  have f := fld_of (6+3+2+5+4+3+9) _ word (congrArg BitVec.toNat e)
  have f1 : fld word 26 6 = 27#6 := (f _ _).trans <| hi (by decide) <| hi (by decide) <| hi (by decide) <| hi (by decide) <| hi (by decide) <| hi (by decide) <| ext_all _
  have f2 : fld word 23 3 = (BitVec.ofFin (w := 3) p) := (f _ _).trans <| hi (by decide) <| hi (by decide) <| hi (by decide) <| hi (by decide) <| hi (by decide) <| lo (by decide) (ext_all _)
  have f3 : fld word 21 2 = am.code := (f _ _).trans <| hi (by decide) <| hi (by decide) <| hi (by decide) <| hi (by decide) <| lo (by decide) (ext_all _)
  have f4 : fld word 16 5 = 7#5 := (f _ _).trans <| hi (by decide) <| hi (by decide) <| hi (by decide) <| lo (by decide) (ext_all _)
  have f5 : fld word 12 4 = ty.code := (f _ _).trans <| hi (by decide) <| hi (by decide) <| lo (by decide) (ext_all _)
  have f6 : fld word 9 3 = r.code := (f _ _).trans <| hi (by decide) <| lo (by decide) (ext_all _)
  have f7 : fld word 0 9 = d := (f _ _).trans <| lo (by decide) (ext_all _)
  refine ok_of word _ ?_ h
  rw [raw_1B word f1]; unfold decode1B; rw [f4]
  simp only [f2, f3, f5, f6, f7, BitVec.reduceToNat, pregAt, fin3, needSome, tyc, amc, rndc]

theorem RoundTrip.vceq (p : PReg) (am : Am) (ty : Ty) (d : BitVec 12) : RoundTrip.Statement (.vceq p am ty d) := by
  intro word h e
  have e : (28#6 ++ (BitVec.ofFin (w := 3) p) ++ am.code ++ 0#5 ++ ty.code ++ d : BitVec 32) = word := Option.some.inj e
  have f := fld_of (6+3+2+5+4+12) _ word (congrArg BitVec.toNat e)
  have f1 : fld word 26 6 = 28#6 := (f _ _).trans <| hi (by decide) <| hi (by decide) <| hi (by decide) <| hi (by decide) <| hi (by decide) <| ext_all _
  have f2 : fld word 23 3 = (BitVec.ofFin (w := 3) p) := (f _ _).trans <| hi (by decide) <| hi (by decide) <| hi (by decide) <| hi (by decide) <| lo (by decide) (ext_all _)
  have f3 : fld word 21 2 = am.code := (f _ _).trans <| hi (by decide) <| hi (by decide) <| hi (by decide) <| lo (by decide) (ext_all _)
  have f4 : fld word 16 5 = 0#5 := (f _ _).trans <| hi (by decide) <| hi (by decide) <| lo (by decide) (ext_all _)
  have f5 : fld word 12 4 = ty.code := (f _ _).trans <| hi (by decide) <| lo (by decide) (ext_all _)
  have f6 : fld word 0 12 = d := (f _ _).trans <| lo (by decide) (ext_all _)
  refine ok_of word _ ?_ h
  rw [raw_1C word f1]; unfold decode1C; rw [f4]
  simp only [f2, f3, f5, f6, BitVec.reduceToNat, pregAt, fin3, needSome, tyc, amc]

theorem RoundTrip.vcne (p : PReg) (am : Am) (ty : Ty) (d : BitVec 12) : RoundTrip.Statement (.vcne p am ty d) := by
  intro word h e
  have e : (28#6 ++ (BitVec.ofFin (w := 3) p) ++ am.code ++ 1#5 ++ ty.code ++ d : BitVec 32) = word := Option.some.inj e
  have f := fld_of (6+3+2+5+4+12) _ word (congrArg BitVec.toNat e)
  have f1 : fld word 26 6 = 28#6 := (f _ _).trans <| hi (by decide) <| hi (by decide) <| hi (by decide) <| hi (by decide) <| hi (by decide) <| ext_all _
  have f2 : fld word 23 3 = (BitVec.ofFin (w := 3) p) := (f _ _).trans <| hi (by decide) <| hi (by decide) <| hi (by decide) <| hi (by decide) <| lo (by decide) (ext_all _)
  have f3 : fld word 21 2 = am.code := (f _ _).trans <| hi (by decide) <| hi (by decide) <| hi (by decide) <| lo (by decide) (ext_all _)
  have f4 : fld word 16 5 = 1#5 := (f _ _).trans <| hi (by decide) <| hi (by decide) <| lo (by decide) (ext_all _)
  have f5 : fld word 12 4 = ty.code := (f _ _).trans <| hi (by decide) <| lo (by decide) (ext_all _)
  have f6 : fld word 0 12 = d := (f _ _).trans <| lo (by decide) (ext_all _)
  refine ok_of word _ ?_ h
  rw [raw_1C word f1]; unfold decode1C; rw [f4]
  simp only [f2, f3, f5, f6, BitVec.reduceToNat, pregAt, fin3, needSome, tyc, amc]

theorem RoundTrip.vclt (p : PReg) (am : Am) (ty : Ty) (d : BitVec 12) : RoundTrip.Statement (.vclt p am ty d) := by
  intro word h e
  have e : (28#6 ++ (BitVec.ofFin (w := 3) p) ++ am.code ++ 2#5 ++ ty.code ++ d : BitVec 32) = word := Option.some.inj e
  have f := fld_of (6+3+2+5+4+12) _ word (congrArg BitVec.toNat e)
  have f1 : fld word 26 6 = 28#6 := (f _ _).trans <| hi (by decide) <| hi (by decide) <| hi (by decide) <| hi (by decide) <| hi (by decide) <| ext_all _
  have f2 : fld word 23 3 = (BitVec.ofFin (w := 3) p) := (f _ _).trans <| hi (by decide) <| hi (by decide) <| hi (by decide) <| hi (by decide) <| lo (by decide) (ext_all _)
  have f3 : fld word 21 2 = am.code := (f _ _).trans <| hi (by decide) <| hi (by decide) <| hi (by decide) <| lo (by decide) (ext_all _)
  have f4 : fld word 16 5 = 2#5 := (f _ _).trans <| hi (by decide) <| hi (by decide) <| lo (by decide) (ext_all _)
  have f5 : fld word 12 4 = ty.code := (f _ _).trans <| hi (by decide) <| lo (by decide) (ext_all _)
  have f6 : fld word 0 12 = d := (f _ _).trans <| lo (by decide) (ext_all _)
  refine ok_of word _ ?_ h
  rw [raw_1C word f1]; unfold decode1C; rw [f4]
  simp only [f2, f3, f5, f6, BitVec.reduceToNat, pregAt, fin3, needSome, tyc, amc]

theorem RoundTrip.vcle (p : PReg) (am : Am) (ty : Ty) (d : BitVec 12) : RoundTrip.Statement (.vcle p am ty d) := by
  intro word h e
  have e : (28#6 ++ (BitVec.ofFin (w := 3) p) ++ am.code ++ 3#5 ++ ty.code ++ d : BitVec 32) = word := Option.some.inj e
  have f := fld_of (6+3+2+5+4+12) _ word (congrArg BitVec.toNat e)
  have f1 : fld word 26 6 = 28#6 := (f _ _).trans <| hi (by decide) <| hi (by decide) <| hi (by decide) <| hi (by decide) <| hi (by decide) <| ext_all _
  have f2 : fld word 23 3 = (BitVec.ofFin (w := 3) p) := (f _ _).trans <| hi (by decide) <| hi (by decide) <| hi (by decide) <| hi (by decide) <| lo (by decide) (ext_all _)
  have f3 : fld word 21 2 = am.code := (f _ _).trans <| hi (by decide) <| hi (by decide) <| hi (by decide) <| lo (by decide) (ext_all _)
  have f4 : fld word 16 5 = 3#5 := (f _ _).trans <| hi (by decide) <| hi (by decide) <| lo (by decide) (ext_all _)
  have f5 : fld word 12 4 = ty.code := (f _ _).trans <| hi (by decide) <| lo (by decide) (ext_all _)
  have f6 : fld word 0 12 = d := (f _ _).trans <| lo (by decide) (ext_all _)
  refine ok_of word _ ?_ h
  rw [raw_1C word f1]; unfold decode1C; rw [f4]
  simp only [f2, f3, f5, f6, BitVec.reduceToNat, pregAt, fin3, needSome, tyc, amc]

theorem RoundTrip.vcgt (p : PReg) (am : Am) (ty : Ty) (d : BitVec 12) : RoundTrip.Statement (.vcgt p am ty d) := by
  intro word h e
  have e : (28#6 ++ (BitVec.ofFin (w := 3) p) ++ am.code ++ 4#5 ++ ty.code ++ d : BitVec 32) = word := Option.some.inj e
  have f := fld_of (6+3+2+5+4+12) _ word (congrArg BitVec.toNat e)
  have f1 : fld word 26 6 = 28#6 := (f _ _).trans <| hi (by decide) <| hi (by decide) <| hi (by decide) <| hi (by decide) <| hi (by decide) <| ext_all _
  have f2 : fld word 23 3 = (BitVec.ofFin (w := 3) p) := (f _ _).trans <| hi (by decide) <| hi (by decide) <| hi (by decide) <| hi (by decide) <| lo (by decide) (ext_all _)
  have f3 : fld word 21 2 = am.code := (f _ _).trans <| hi (by decide) <| hi (by decide) <| hi (by decide) <| lo (by decide) (ext_all _)
  have f4 : fld word 16 5 = 4#5 := (f _ _).trans <| hi (by decide) <| hi (by decide) <| lo (by decide) (ext_all _)
  have f5 : fld word 12 4 = ty.code := (f _ _).trans <| hi (by decide) <| lo (by decide) (ext_all _)
  have f6 : fld word 0 12 = d := (f _ _).trans <| lo (by decide) (ext_all _)
  refine ok_of word _ ?_ h
  rw [raw_1C word f1]; unfold decode1C; rw [f4]
  simp only [f2, f3, f5, f6, BitVec.reduceToNat, pregAt, fin3, needSome, tyc, amc]

theorem RoundTrip.vcge (p : PReg) (am : Am) (ty : Ty) (d : BitVec 12) : RoundTrip.Statement (.vcge p am ty d) := by
  intro word h e
  have e : (28#6 ++ (BitVec.ofFin (w := 3) p) ++ am.code ++ 5#5 ++ ty.code ++ d : BitVec 32) = word := Option.some.inj e
  have f := fld_of (6+3+2+5+4+12) _ word (congrArg BitVec.toNat e)
  have f1 : fld word 26 6 = 28#6 := (f _ _).trans <| hi (by decide) <| hi (by decide) <| hi (by decide) <| hi (by decide) <| hi (by decide) <| ext_all _
  have f2 : fld word 23 3 = (BitVec.ofFin (w := 3) p) := (f _ _).trans <| hi (by decide) <| hi (by decide) <| hi (by decide) <| hi (by decide) <| lo (by decide) (ext_all _)
  have f3 : fld word 21 2 = am.code := (f _ _).trans <| hi (by decide) <| hi (by decide) <| hi (by decide) <| lo (by decide) (ext_all _)
  have f4 : fld word 16 5 = 5#5 := (f _ _).trans <| hi (by decide) <| hi (by decide) <| lo (by decide) (ext_all _)
  have f5 : fld word 12 4 = ty.code := (f _ _).trans <| hi (by decide) <| lo (by decide) (ext_all _)
  have f6 : fld word 0 12 = d := (f _ _).trans <| lo (by decide) (ext_all _)
  refine ok_of word _ ?_ h
  rw [raw_1C word f1]; unfold decode1C; rw [f4]
  simp only [f2, f3, f5, f6, BitVec.reduceToNat, pregAt, fin3, needSome, tyc, amc]

theorem RoundTrip.vfceq (p : PReg) (am : Am) (ty : Ty) (d : BitVec 12) : RoundTrip.Statement (.vfceq p am ty d) := by
  intro word h e
  have e : (28#6 ++ (BitVec.ofFin (w := 3) p) ++ am.code ++ 6#5 ++ ty.code ++ d : BitVec 32) = word := Option.some.inj e
  have f := fld_of (6+3+2+5+4+12) _ word (congrArg BitVec.toNat e)
  have f1 : fld word 26 6 = 28#6 := (f _ _).trans <| hi (by decide) <| hi (by decide) <| hi (by decide) <| hi (by decide) <| hi (by decide) <| ext_all _
  have f2 : fld word 23 3 = (BitVec.ofFin (w := 3) p) := (f _ _).trans <| hi (by decide) <| hi (by decide) <| hi (by decide) <| hi (by decide) <| lo (by decide) (ext_all _)
  have f3 : fld word 21 2 = am.code := (f _ _).trans <| hi (by decide) <| hi (by decide) <| hi (by decide) <| lo (by decide) (ext_all _)
  have f4 : fld word 16 5 = 6#5 := (f _ _).trans <| hi (by decide) <| hi (by decide) <| lo (by decide) (ext_all _)
  have f5 : fld word 12 4 = ty.code := (f _ _).trans <| hi (by decide) <| lo (by decide) (ext_all _)
  have f6 : fld word 0 12 = d := (f _ _).trans <| lo (by decide) (ext_all _)
  refine ok_of word _ ?_ h
  rw [raw_1C word f1]; unfold decode1C; rw [f4]
  simp only [f2, f3, f5, f6, BitVec.reduceToNat, pregAt, fin3, needSome, tyc, amc]

theorem RoundTrip.vfclt (p : PReg) (am : Am) (ty : Ty) (d : BitVec 12) : RoundTrip.Statement (.vfclt p am ty d) := by
  intro word h e
  have e : (28#6 ++ (BitVec.ofFin (w := 3) p) ++ am.code ++ 7#5 ++ ty.code ++ d : BitVec 32) = word := Option.some.inj e
  have f := fld_of (6+3+2+5+4+12) _ word (congrArg BitVec.toNat e)
  have f1 : fld word 26 6 = 28#6 := (f _ _).trans <| hi (by decide) <| hi (by decide) <| hi (by decide) <| hi (by decide) <| hi (by decide) <| ext_all _
  have f2 : fld word 23 3 = (BitVec.ofFin (w := 3) p) := (f _ _).trans <| hi (by decide) <| hi (by decide) <| hi (by decide) <| hi (by decide) <| lo (by decide) (ext_all _)
  have f3 : fld word 21 2 = am.code := (f _ _).trans <| hi (by decide) <| hi (by decide) <| hi (by decide) <| lo (by decide) (ext_all _)
  have f4 : fld word 16 5 = 7#5 := (f _ _).trans <| hi (by decide) <| hi (by decide) <| lo (by decide) (ext_all _)
  have f5 : fld word 12 4 = ty.code := (f _ _).trans <| hi (by decide) <| lo (by decide) (ext_all _)
  have f6 : fld word 0 12 = d := (f _ _).trans <| lo (by decide) (ext_all _)
  refine ok_of word _ ?_ h
  rw [raw_1C word f1]; unfold decode1C; rw [f4]
  simp only [f2, f3, f5, f6, BitVec.reduceToNat, pregAt, fin3, needSome, tyc, amc]

theorem RoundTrip.vfcle (p : PReg) (am : Am) (ty : Ty) (d : BitVec 12) : RoundTrip.Statement (.vfcle p am ty d) := by
  intro word h e
  have e : (28#6 ++ (BitVec.ofFin (w := 3) p) ++ am.code ++ 8#5 ++ ty.code ++ d : BitVec 32) = word := Option.some.inj e
  have f := fld_of (6+3+2+5+4+12) _ word (congrArg BitVec.toNat e)
  have f1 : fld word 26 6 = 28#6 := (f _ _).trans <| hi (by decide) <| hi (by decide) <| hi (by decide) <| hi (by decide) <| hi (by decide) <| ext_all _
  have f2 : fld word 23 3 = (BitVec.ofFin (w := 3) p) := (f _ _).trans <| hi (by decide) <| hi (by decide) <| hi (by decide) <| hi (by decide) <| lo (by decide) (ext_all _)
  have f3 : fld word 21 2 = am.code := (f _ _).trans <| hi (by decide) <| hi (by decide) <| hi (by decide) <| lo (by decide) (ext_all _)
  have f4 : fld word 16 5 = 8#5 := (f _ _).trans <| hi (by decide) <| hi (by decide) <| lo (by decide) (ext_all _)
  have f5 : fld word 12 4 = ty.code := (f _ _).trans <| hi (by decide) <| lo (by decide) (ext_all _)
  have f6 : fld word 0 12 = d := (f _ _).trans <| lo (by decide) (ext_all _)
  refine ok_of word _ ?_ h
  rw [raw_1C word f1]; unfold decode1C; rw [f4]
  simp only [f2, f3, f5, f6, BitVec.reduceToNat, pregAt, fin3, needSome, tyc, amc]

theorem RoundTrip.vfcun (p : PReg) (am : Am) (ty : Ty) (d : BitVec 12) : RoundTrip.Statement (.vfcun p am ty d) := by
  intro word h e
  have e : (28#6 ++ (BitVec.ofFin (w := 3) p) ++ am.code ++ 9#5 ++ ty.code ++ d : BitVec 32) = word := Option.some.inj e
  have f := fld_of (6+3+2+5+4+12) _ word (congrArg BitVec.toNat e)
  have f1 : fld word 26 6 = 28#6 := (f _ _).trans <| hi (by decide) <| hi (by decide) <| hi (by decide) <| hi (by decide) <| hi (by decide) <| ext_all _
  have f2 : fld word 23 3 = (BitVec.ofFin (w := 3) p) := (f _ _).trans <| hi (by decide) <| hi (by decide) <| hi (by decide) <| hi (by decide) <| lo (by decide) (ext_all _)
  have f3 : fld word 21 2 = am.code := (f _ _).trans <| hi (by decide) <| hi (by decide) <| hi (by decide) <| lo (by decide) (ext_all _)
  have f4 : fld word 16 5 = 9#5 := (f _ _).trans <| hi (by decide) <| hi (by decide) <| lo (by decide) (ext_all _)
  have f5 : fld word 12 4 = ty.code := (f _ _).trans <| hi (by decide) <| lo (by decide) (ext_all _)
  have f6 : fld word 0 12 = d := (f _ _).trans <| lo (by decide) (ext_all _)
  refine ok_of word _ ?_ h
  rw [raw_1C word f1]; unfold decode1C; rw [f4]
  simp only [f2, f3, f5, f6, BitVec.reduceToNat, pregAt, fin3, needSome, tyc, amc]

theorem RoundTrip.vsel (p : PReg) (am : Am) (ty : Ty) (d : BitVec 12) : RoundTrip.Statement (.vsel p am ty d) := by
  intro word h e
  have e : (28#6 ++ (BitVec.ofFin (w := 3) p) ++ am.code ++ 10#5 ++ ty.code ++ d : BitVec 32) = word := Option.some.inj e
  have f := fld_of (6+3+2+5+4+12) _ word (congrArg BitVec.toNat e)
  have f1 : fld word 26 6 = 28#6 := (f _ _).trans <| hi (by decide) <| hi (by decide) <| hi (by decide) <| hi (by decide) <| hi (by decide) <| ext_all _
  have f2 : fld word 23 3 = (BitVec.ofFin (w := 3) p) := (f _ _).trans <| hi (by decide) <| hi (by decide) <| hi (by decide) <| hi (by decide) <| lo (by decide) (ext_all _)
  have f3 : fld word 21 2 = am.code := (f _ _).trans <| hi (by decide) <| hi (by decide) <| hi (by decide) <| lo (by decide) (ext_all _)
  have f4 : fld word 16 5 = 10#5 := (f _ _).trans <| hi (by decide) <| hi (by decide) <| lo (by decide) (ext_all _)
  have f5 : fld word 12 4 = ty.code := (f _ _).trans <| hi (by decide) <| lo (by decide) (ext_all _)
  have f6 : fld word 0 12 = d := (f _ _).trans <| lo (by decide) (ext_all _)
  refine ok_of word _ ?_ h
  rw [raw_1C word f1]; unfold decode1C; rw [f4]
  simp only [f2, f3, f5, f6, BitVec.reduceToNat, pregAt, fin3, needSome, tyc, amc]

theorem RoundTrip.mov (src : MovSrc) (dst : MovDst) (imm : BitVec 16) : RoundTrip.Statement (.mov src dst imm) := by
  intro word h e
  have e : (32#6 ++ 0#5 ++ src.code ++ dst.code ++ imm : BitVec 32) = word := Option.some.inj e
  have f := fld_of (6+5+3+2+16) _ word (congrArg BitVec.toNat e)
  have f1 : fld word 26 6 = 32#6 := (f _ _).trans <| hi (by decide) <| hi (by decide) <| hi (by decide) <| hi (by decide) <| ext_all _
  have f2 : fld word 21 5 = 0#5 := (f _ _).trans <| hi (by decide) <| hi (by decide) <| hi (by decide) <| lo (by decide) (ext_all _)
  have f3 : fld word 18 3 = src.code := (f _ _).trans <| hi (by decide) <| hi (by decide) <| lo (by decide) (ext_all _)
  have f4 : fld word 16 2 = dst.code := (f _ _).trans <| hi (by decide) <| lo (by decide) (ext_all _)
  have f5 : fld word 0 16 = imm := (f _ _).trans <| lo (by decide) (ext_all _)
  refine ok_of word _ ?_ h
  rw [raw_20 word f1]; unfold decode20; rw [f2]
  simp only [f3, f4, f5, BitVec.reduceToNat, needSome, srcc, dstc]

theorem RoundTrip.addi (imm : BitVec 16) : RoundTrip.Statement (.addi imm) := by
  intro word h e
  have e : (32#6 ++ 1#5 ++ 0#5 ++ imm : BitVec 32) = word := Option.some.inj e
  have f := fld_of (6+5+5+16) _ word (congrArg BitVec.toNat e)
  have f1 : fld word 26 6 = 32#6 := (f _ _).trans <| hi (by decide) <| hi (by decide) <| hi (by decide) <| ext_all _
  have f2 : fld word 21 5 = 1#5 := (f _ _).trans <| hi (by decide) <| hi (by decide) <| lo (by decide) (ext_all _)
  have f3 : fld word 16 5 = 0#5 := (f _ _).trans <| hi (by decide) <| lo (by decide) (ext_all _)
  have f4 : fld word 0 16 = imm := (f _ _).trans <| lo (by decide) (ext_all _)
  refine ok_of word _ ?_ h
  rw [raw_20 word f1]; unfold decode20; rw [f2]
  simp only [f3, f4, BitVec.reduceToNat, needZero, beq_self_eq_true, if_true]

theorem RoundTrip.andi (imm : BitVec 16) : RoundTrip.Statement (.andi imm) := by
  intro word h e
  have e : (32#6 ++ 2#5 ++ 0#5 ++ imm : BitVec 32) = word := Option.some.inj e
  have f := fld_of (6+5+5+16) _ word (congrArg BitVec.toNat e)
  have f1 : fld word 26 6 = 32#6 := (f _ _).trans <| hi (by decide) <| hi (by decide) <| hi (by decide) <| ext_all _
  have f2 : fld word 21 5 = 2#5 := (f _ _).trans <| hi (by decide) <| hi (by decide) <| lo (by decide) (ext_all _)
  have f3 : fld word 16 5 = 0#5 := (f _ _).trans <| hi (by decide) <| lo (by decide) (ext_all _)
  have f4 : fld word 0 16 = imm := (f _ _).trans <| lo (by decide) (ext_all _)
  refine ok_of word _ ?_ h
  rw [raw_20 word f1]; unfold decode20; rw [f2]
  simp only [f3, f4, BitVec.reduceToNat, needZero, beq_self_eq_true, if_true]

theorem RoundTrip.ori (imm : BitVec 16) : RoundTrip.Statement (.ori imm) := by
  intro word h e
  have e : (32#6 ++ 3#5 ++ 0#5 ++ imm : BitVec 32) = word := Option.some.inj e
  have f := fld_of (6+5+5+16) _ word (congrArg BitVec.toNat e)
  have f1 : fld word 26 6 = 32#6 := (f _ _).trans <| hi (by decide) <| hi (by decide) <| hi (by decide) <| ext_all _
  have f2 : fld word 21 5 = 3#5 := (f _ _).trans <| hi (by decide) <| hi (by decide) <| lo (by decide) (ext_all _)
  have f3 : fld word 16 5 = 0#5 := (f _ _).trans <| hi (by decide) <| lo (by decide) (ext_all _)
  have f4 : fld word 0 16 = imm := (f _ _).trans <| lo (by decide) (ext_all _)
  refine ok_of word _ ?_ h
  rw [raw_20 word f1]; unfold decode20; rw [f2]
  simp only [f3, f4, BitVec.reduceToNat, needZero, beq_self_eq_true, if_true]

theorem RoundTrip.xori (imm : BitVec 16) : RoundTrip.Statement (.xori imm) := by
  intro word h e
  have e : (32#6 ++ 4#5 ++ 0#5 ++ imm : BitVec 32) = word := Option.some.inj e
  have f := fld_of (6+5+5+16) _ word (congrArg BitVec.toNat e)
  have f1 : fld word 26 6 = 32#6 := (f _ _).trans <| hi (by decide) <| hi (by decide) <| hi (by decide) <| ext_all _
  have f2 : fld word 21 5 = 4#5 := (f _ _).trans <| hi (by decide) <| hi (by decide) <| lo (by decide) (ext_all _)
  have f3 : fld word 16 5 = 0#5 := (f _ _).trans <| hi (by decide) <| lo (by decide) (ext_all _)
  have f4 : fld word 0 16 = imm := (f _ _).trans <| lo (by decide) (ext_all _)
  refine ok_of word _ ?_ h
  rw [raw_20 word f1]; unfold decode20; rw [f2]
  simp only [f3, f4, BitVec.reduceToNat, needZero, beq_self_eq_true, if_true]

theorem RoundTrip.shli (n : BitVec 6) : RoundTrip.Statement (.shli n) := by
  intro word h e
  have e : (32#6 ++ 5#5 ++ 0#15 ++ n : BitVec 32) = word := Option.some.inj e
  have f := fld_of (6+5+15+6) _ word (congrArg BitVec.toNat e)
  have f1 : fld word 26 6 = 32#6 := (f _ _).trans <| hi (by decide) <| hi (by decide) <| hi (by decide) <| ext_all _
  have f2 : fld word 21 5 = 5#5 := (f _ _).trans <| hi (by decide) <| hi (by decide) <| lo (by decide) (ext_all _)
  have f3 : fld word 6 15 = 0#15 := (f _ _).trans <| hi (by decide) <| lo (by decide) (ext_all _)
  have f4 : fld word 0 6 = n := (f _ _).trans <| lo (by decide) (ext_all _)
  refine ok_of word _ ?_ h
  rw [raw_20 word f1]; unfold decode20; rw [f2]
  simp only [f3, f4, BitVec.reduceToNat, needZero, beq_self_eq_true, if_true]

theorem RoundTrip.shri (n : BitVec 6) : RoundTrip.Statement (.shri n) := by
  intro word h e
  have e : (32#6 ++ 6#5 ++ 0#15 ++ n : BitVec 32) = word := Option.some.inj e
  have f := fld_of (6+5+15+6) _ word (congrArg BitVec.toNat e)
  have f1 : fld word 26 6 = 32#6 := (f _ _).trans <| hi (by decide) <| hi (by decide) <| hi (by decide) <| ext_all _
  have f2 : fld word 21 5 = 6#5 := (f _ _).trans <| hi (by decide) <| hi (by decide) <| lo (by decide) (ext_all _)
  have f3 : fld word 6 15 = 0#15 := (f _ _).trans <| hi (by decide) <| lo (by decide) (ext_all _)
  have f4 : fld word 0 6 = n := (f _ _).trans <| lo (by decide) (ext_all _)
  refine ok_of word _ ?_ h
  rw [raw_20 word f1]; unfold decode20; rw [f2]
  simp only [f3, f4, BitVec.reduceToNat, needZero, beq_self_eq_true, if_true]

theorem RoundTrip.sari (n : BitVec 6) : RoundTrip.Statement (.sari n) := by
  intro word h e
  have e : (32#6 ++ 7#5 ++ 0#15 ++ n : BitVec 32) = word := Option.some.inj e
  have f := fld_of (6+5+15+6) _ word (congrArg BitVec.toNat e)
  have f1 : fld word 26 6 = 32#6 := (f _ _).trans <| hi (by decide) <| hi (by decide) <| hi (by decide) <| ext_all _
  have f2 : fld word 21 5 = 7#5 := (f _ _).trans <| hi (by decide) <| hi (by decide) <| lo (by decide) (ext_all _)
  have f3 : fld word 6 15 = 0#15 := (f _ _).trans <| hi (by decide) <| lo (by decide) (ext_all _)
  have f4 : fld word 0 6 = n := (f _ _).trans <| lo (by decide) (ext_all _)
  refine ok_of word _ ?_ h
  rw [raw_20 word f1]; unfold decode20; rw [f2]
  simp only [f3, f4, BitVec.reduceToNat, needZero, beq_self_eq_true, if_true]

theorem RoundTrip.cmpi (imm : BitVec 16) : RoundTrip.Statement (.cmpi imm) := by
  intro word h e
  have e : (32#6 ++ 8#5 ++ 0#5 ++ imm : BitVec 32) = word := Option.some.inj e
  have f := fld_of (6+5+5+16) _ word (congrArg BitVec.toNat e)
  have f1 : fld word 26 6 = 32#6 := (f _ _).trans <| hi (by decide) <| hi (by decide) <| hi (by decide) <| ext_all _
  have f2 : fld word 21 5 = 8#5 := (f _ _).trans <| hi (by decide) <| hi (by decide) <| lo (by decide) (ext_all _)
  have f3 : fld word 16 5 = 0#5 := (f _ _).trans <| hi (by decide) <| lo (by decide) (ext_all _)
  have f4 : fld word 0 16 = imm := (f _ _).trans <| lo (by decide) (ext_all _)
  refine ok_of word _ ?_ h
  rw [raw_20 word f1]; unfold decode20; rw [f2]
  simp only [f3, f4, BitVec.reduceToNat, needZero, beq_self_eq_true, if_true]

theorem RoundTrip.fli (imm : BitVec 16) : RoundTrip.Statement (.fli imm) := by
  intro word h e
  have e : (32#6 ++ 9#5 ++ 0#5 ++ imm : BitVec 32) = word := Option.some.inj e
  have f := fld_of (6+5+5+16) _ word (congrArg BitVec.toNat e)
  have f1 : fld word 26 6 = 32#6 := (f _ _).trans <| hi (by decide) <| hi (by decide) <| hi (by decide) <| ext_all _
  have f2 : fld word 21 5 = 9#5 := (f _ _).trans <| hi (by decide) <| hi (by decide) <| lo (by decide) (ext_all _)
  have f3 : fld word 16 5 = 0#5 := (f _ _).trans <| hi (by decide) <| lo (by decide) (ext_all _)
  have f4 : fld word 0 16 = imm := (f _ _).trans <| lo (by decide) (ext_all _)
  refine ok_of word _ ?_ h
  rw [raw_20 word f1]; unfold decode20; rw [f2]
  simp only [f3, f4, BitVec.reduceToNat, needZero, beq_self_eq_true, if_true]

theorem RoundTrip.vins (n : BitVec 5) : RoundTrip.Statement (.vins n) := by
  intro word h e
  have e : (32#6 ++ 11#5 ++ 0#16 ++ n : BitVec 32) = word := Option.some.inj e
  have f := fld_of (6+5+16+5) _ word (congrArg BitVec.toNat e)
  have f1 : fld word 26 6 = 32#6 := (f _ _).trans <| hi (by decide) <| hi (by decide) <| hi (by decide) <| ext_all _
  have f2 : fld word 21 5 = 11#5 := (f _ _).trans <| hi (by decide) <| hi (by decide) <| lo (by decide) (ext_all _)
  have f3 : fld word 5 16 = 0#16 := (f _ _).trans <| hi (by decide) <| lo (by decide) (ext_all _)
  have f4 : fld word 0 5 = n := (f _ _).trans <| lo (by decide) (ext_all _)
  refine ok_of word _ ?_ h
  rw [raw_20 word f1]; unfold decode20; rw [f2]
  simp only [f3, f4, BitVec.reduceToNat, needZero, beq_self_eq_true, if_true]

theorem RoundTrip.vext (n : BitVec 5) : RoundTrip.Statement (.vext n) := by
  intro word h e
  have e : (32#6 ++ 12#5 ++ 0#16 ++ n : BitVec 32) = word := Option.some.inj e
  have f := fld_of (6+5+16+5) _ word (congrArg BitVec.toNat e)
  have f1 : fld word 26 6 = 32#6 := (f _ _).trans <| hi (by decide) <| hi (by decide) <| hi (by decide) <| ext_all _
  have f2 : fld word 21 5 = 12#5 := (f _ _).trans <| hi (by decide) <| hi (by decide) <| lo (by decide) (ext_all _)
  have f3 : fld word 5 16 = 0#16 := (f _ _).trans <| hi (by decide) <| lo (by decide) (ext_all _)
  have f4 : fld word 0 5 = n := (f _ _).trans <| lo (by decide) (ext_all _)
  refine ok_of word _ ?_ h
  rw [raw_20 word f1]; unfold decode20; rw [f2]
  simp only [f3, f4, BitVec.reduceToNat, needZero, beq_self_eq_true, if_true]

theorem RoundTrip.kset (imm : BitVec 16) : RoundTrip.Statement (.kset imm) := by
  intro word h e
  have e : (32#6 ++ 14#5 ++ 0#5 ++ imm : BitVec 32) = word := Option.some.inj e
  have f := fld_of (6+5+5+16) _ word (congrArg BitVec.toNat e)
  have f1 : fld word 26 6 = 32#6 := (f _ _).trans <| hi (by decide) <| hi (by decide) <| hi (by decide) <| ext_all _
  have f2 : fld word 21 5 = 14#5 := (f _ _).trans <| hi (by decide) <| hi (by decide) <| lo (by decide) (ext_all _)
  have f3 : fld word 16 5 = 0#5 := (f _ _).trans <| hi (by decide) <| lo (by decide) (ext_all _)
  have f4 : fld word 0 16 = imm := (f _ _).trans <| lo (by decide) (ext_all _)
  refine ok_of word _ ?_ h
  rw [raw_20 word f1]; unfold decode20; rw [f2]
  simp only [f3, f4, BitVec.reduceToNat, needZero, beq_self_eq_true, if_true]

theorem RoundTrip.acvt (sat : Bool) (r : Rnd) (dt : Ty) (st : Ty) : RoundTrip.Statement (.acvt sat r dt st) := by
  intro word h e
  have e : (32#6 ++ 16#5 ++ 0#9 ++ (BitVec.ofBool sat) ++ r.code ++ dt.code ++ st.code : BitVec 32) = word := Option.some.inj e
  have f := fld_of (6+5+9+1+3+4+4) _ word (congrArg BitVec.toNat e)
  have f1 : fld word 26 6 = 32#6 := (f _ _).trans <| hi (by decide) <| hi (by decide) <| hi (by decide) <| hi (by decide) <| hi (by decide) <| hi (by decide) <| ext_all _
  have f2 : fld word 21 5 = 16#5 := (f _ _).trans <| hi (by decide) <| hi (by decide) <| hi (by decide) <| hi (by decide) <| hi (by decide) <| lo (by decide) (ext_all _)
  have f3 : fld word 12 9 = 0#9 := (f _ _).trans <| hi (by decide) <| hi (by decide) <| hi (by decide) <| hi (by decide) <| lo (by decide) (ext_all _)
  have f4 : fld word 11 1 = (BitVec.ofBool sat) := (f _ _).trans <| hi (by decide) <| hi (by decide) <| hi (by decide) <| lo (by decide) (ext_all _)
  have f5 : fld word 8 3 = r.code := (f _ _).trans <| hi (by decide) <| hi (by decide) <| lo (by decide) (ext_all _)
  have f6 : fld word 4 4 = dt.code := (f _ _).trans <| hi (by decide) <| lo (by decide) (ext_all _)
  have f7 : fld word 0 4 = st.code := (f _ _).trans <| lo (by decide) (ext_all _)
  refine ok_of word _ ?_ h
  rw [raw_20 word f1]; unfold decode20; rw [f2]
  simp only [f3, f4, f5, f6, f7, BitVec.reduceToNat, bitAt, bool1, needZero, beq_self_eq_true, if_true, needSome, tyc, rndc]

theorem RoundTrip.vconv (sat : Bool) (r : Rnd) (toF : Bool) : RoundTrip.Statement (.vconv sat r toF) := by
  intro word h e
  have e : (32#6 ++ 17#5 ++ 0#16 ++ (BitVec.ofBool sat) ++ r.code ++ (BitVec.ofBool toF) : BitVec 32) = word := Option.some.inj e
  have f := fld_of (6+5+16+1+3+1) _ word (congrArg BitVec.toNat e)
  have f1 : fld word 26 6 = 32#6 := (f _ _).trans <| hi (by decide) <| hi (by decide) <| hi (by decide) <| hi (by decide) <| hi (by decide) <| ext_all _
  have f2 : fld word 21 5 = 17#5 := (f _ _).trans <| hi (by decide) <| hi (by decide) <| hi (by decide) <| hi (by decide) <| lo (by decide) (ext_all _)
  have f3 : fld word 5 16 = 0#16 := (f _ _).trans <| hi (by decide) <| hi (by decide) <| hi (by decide) <| lo (by decide) (ext_all _)
  have f4 : fld word 4 1 = (BitVec.ofBool sat) := (f _ _).trans <| hi (by decide) <| hi (by decide) <| lo (by decide) (ext_all _)
  have f5 : fld word 1 3 = r.code := (f _ _).trans <| hi (by decide) <| lo (by decide) (ext_all _)
  have f6 : fld word 0 1 = (BitVec.ofBool toF) := (f _ _).trans <| lo (by decide) (ext_all _)
  refine ok_of word _ ?_ h
  rw [raw_20 word f1]; unfold decode20; rw [f2]
  simp only [f3, f4, f5, f6, BitVec.reduceToNat, bitAt, bool1, needZero, beq_self_eq_true, if_true, needSome, rndc]

theorem RoundTrip.vsum (r : Rnd) (fl : Bool) : RoundTrip.Statement (.vsum r fl) := by
  intro word h e
  have e : (32#6 ++ 18#5 ++ 0#17 ++ r.code ++ (BitVec.ofBool fl) : BitVec 32) = word := Option.some.inj e
  have f := fld_of (6+5+17+3+1) _ word (congrArg BitVec.toNat e)
  have f1 : fld word 26 6 = 32#6 := (f _ _).trans <| hi (by decide) <| hi (by decide) <| hi (by decide) <| hi (by decide) <| ext_all _
  have f2 : fld word 21 5 = 18#5 := (f _ _).trans <| hi (by decide) <| hi (by decide) <| hi (by decide) <| lo (by decide) (ext_all _)
  have f3 : fld word 4 17 = 0#17 := (f _ _).trans <| hi (by decide) <| hi (by decide) <| lo (by decide) (ext_all _)
  have f4 : fld word 1 3 = r.code := (f _ _).trans <| hi (by decide) <| lo (by decide) (ext_all _)
  have f5 : fld word 0 1 = (BitVec.ofBool fl) := (f _ _).trans <| lo (by decide) (ext_all _)
  refine ok_of word _ ?_ h
  rw [raw_20 word f1]; unfold decode20; rw [f2]
  simp only [f3, f4, f5, BitVec.reduceToNat, bitAt, bool1, needZero, beq_self_eq_true, if_true, needSome, rndc]

theorem RoundTrip.vrot (n : BitVec 5) : RoundTrip.Statement (.vrot n) := by
  intro word h e
  have e : (33#6 ++ 0#5 ++ 0#16 ++ n : BitVec 32) = word := Option.some.inj e
  have f := fld_of (6+5+16+5) _ word (congrArg BitVec.toNat e)
  have f1 : fld word 26 6 = 33#6 := (f _ _).trans <| hi (by decide) <| hi (by decide) <| hi (by decide) <| ext_all _
  have f2 : fld word 21 5 = 0#5 := (f _ _).trans <| hi (by decide) <| hi (by decide) <| lo (by decide) (ext_all _)
  have f3 : fld word 5 16 = 0#16 := (f _ _).trans <| hi (by decide) <| lo (by decide) (ext_all _)
  have f4 : fld word 0 5 = n := (f _ _).trans <| lo (by decide) (ext_all _)
  refine ok_of word _ ?_ h
  rw [raw_21 word f1]; unfold decode21; rw [f2]
  simp only [f3, f4, BitVec.reduceToNat, needZero, beq_self_eq_true, if_true]

theorem RoundTrip.vbcast (n : BitVec 5) : RoundTrip.Statement (.vbcast n) := by
  intro word h e
  have e : (33#6 ++ 1#5 ++ 0#16 ++ n : BitVec 32) = word := Option.some.inj e
  have f := fld_of (6+5+16+5) _ word (congrArg BitVec.toNat e)
  have f1 : fld word 26 6 = 33#6 := (f _ _).trans <| hi (by decide) <| hi (by decide) <| hi (by decide) <| ext_all _
  have f2 : fld word 21 5 = 1#5 := (f _ _).trans <| hi (by decide) <| hi (by decide) <| lo (by decide) (ext_all _)
  have f3 : fld word 5 16 = 0#16 := (f _ _).trans <| hi (by decide) <| lo (by decide) (ext_all _)
  have f4 : fld word 0 5 = n := (f _ _).trans <| lo (by decide) (ext_all _)
  refine ok_of word _ ?_ h
  rw [raw_21 word f1]; unfold decode21; rw [f2]
  simp only [f3, f4, BitVec.reduceToNat, needZero, beq_self_eq_true, if_true]

theorem RoundTrip.fence (pa : PReg) : RoundTrip.Statement (.fence pa) := by
  intro word h e
  have e : (40#6 ++ 0#5 ++ (BitVec.ofFin (w := 3) pa) ++ 0#18 : BitVec 32) = word := Option.some.inj e
  have f := fld_of (6+5+3+18) _ word (congrArg BitVec.toNat e)
  have f1 : fld word 26 6 = 40#6 := (f _ _).trans <| hi (by decide) <| hi (by decide) <| hi (by decide) <| ext_all _
  have f2 : fld word 21 5 = 0#5 := (f _ _).trans <| hi (by decide) <| hi (by decide) <| lo (by decide) (ext_all _)
  have f3 : fld word 18 3 = (BitVec.ofFin (w := 3) pa) := (f _ _).trans <| hi (by decide) <| lo (by decide) (ext_all _)
  have f4 : fld word 0 18 = 0#18 := (f _ _).trans <| lo (by decide) (ext_all _)
  refine ok_of word _ ?_ h
  rw [raw_28 word f1]; unfold decode28; rw [f2]
  simp only [f3, f4, BitVec.reduceToNat, pregAt, fin3, needZero, beq_self_eq_true, if_true]

theorem RoundTrip.acq (pa : PReg) : RoundTrip.Statement (.acq pa) := by
  intro word h e
  have e : (40#6 ++ 1#5 ++ (BitVec.ofFin (w := 3) pa) ++ 0#18 : BitVec 32) = word := Option.some.inj e
  have f := fld_of (6+5+3+18) _ word (congrArg BitVec.toNat e)
  have f1 : fld word 26 6 = 40#6 := (f _ _).trans <| hi (by decide) <| hi (by decide) <| hi (by decide) <| ext_all _
  have f2 : fld word 21 5 = 1#5 := (f _ _).trans <| hi (by decide) <| hi (by decide) <| lo (by decide) (ext_all _)
  have f3 : fld word 18 3 = (BitVec.ofFin (w := 3) pa) := (f _ _).trans <| hi (by decide) <| lo (by decide) (ext_all _)
  have f4 : fld word 0 18 = 0#18 := (f _ _).trans <| lo (by decide) (ext_all _)
  have f5 : fld word 0 1 = 0#1 := (f _ _).trans <| lo (by decide) (by decide)
  refine ok_of word _ ?_ h
  rw [raw_28 word f1]; unfold decode28; rw [f2]
  simp only [f3, f4, f5, BitVec.reduceToNat, pregAt, fin3, bitAt, bool1, needZero, beq_self_eq_true, if_true, BitVec.reduceBEq, Bool.false_eq_true, if_false]

theorem RoundTrip.acqO (pa : PReg) : RoundTrip.Statement (.acqO pa) := by
  intro word h e
  have e : (40#6 ++ 1#5 ++ (BitVec.ofFin (w := 3) pa) ++ 1#18 : BitVec 32) = word := Option.some.inj e
  have f := fld_of (6+5+3+18) _ word (congrArg BitVec.toNat e)
  have f1 : fld word 26 6 = 40#6 := (f _ _).trans <| hi (by decide) <| hi (by decide) <| hi (by decide) <| ext_all _
  have f2 : fld word 21 5 = 1#5 := (f _ _).trans <| hi (by decide) <| hi (by decide) <| lo (by decide) (ext_all _)
  have f3 : fld word 18 3 = (BitVec.ofFin (w := 3) pa) := (f _ _).trans <| hi (by decide) <| lo (by decide) (ext_all _)
  have f4 : fld word 0 18 = 1#18 := (f _ _).trans <| lo (by decide) (ext_all _)
  have f5 : fld word 0 1 = 1#1 := (f _ _).trans <| lo (by decide) (by decide)
  refine ok_of word _ ?_ h
  rw [raw_28 word f1]; unfold decode28; rw [f2]
  simp only [f3, f4, f5, BitVec.reduceToNat, pregAt, fin3, bitAt, bool1, needZero, beq_self_eq_true, if_true, BitVec.reduceBEq, Bool.false_eq_true, if_false]

theorem RoundTrip.rel (pa : PReg) : RoundTrip.Statement (.rel pa) := by
  intro word h e
  have e : (40#6 ++ 2#5 ++ (BitVec.ofFin (w := 3) pa) ++ 0#18 : BitVec 32) = word := Option.some.inj e
  have f := fld_of (6+5+3+18) _ word (congrArg BitVec.toNat e)
  have f1 : fld word 26 6 = 40#6 := (f _ _).trans <| hi (by decide) <| hi (by decide) <| hi (by decide) <| ext_all _
  have f2 : fld word 21 5 = 2#5 := (f _ _).trans <| hi (by decide) <| hi (by decide) <| lo (by decide) (ext_all _)
  have f3 : fld word 18 3 = (BitVec.ofFin (w := 3) pa) := (f _ _).trans <| hi (by decide) <| lo (by decide) (ext_all _)
  have f4 : fld word 0 18 = 0#18 := (f _ _).trans <| lo (by decide) (ext_all _)
  refine ok_of word _ ?_ h
  rw [raw_28 word f1]; unfold decode28; rw [f2]
  simp only [f3, f4, BitVec.reduceToNat, pregAt, fin3, needZero, beq_self_eq_true, if_true]

theorem RoundTrip.pub (pa : PReg) (pb : PReg) : RoundTrip.Statement (.pub pa pb) := by
  intro word h e
  have e : (41#6 ++ 0#5 ++ (BitVec.ofFin (w := 3) pa) ++ (BitVec.ofFin (w := 3) pb) ++ 0#15 : BitVec 32) = word := Option.some.inj e
  have f := fld_of (6+5+3+3+15) _ word (congrArg BitVec.toNat e)
  have f1 : fld word 26 6 = 41#6 := (f _ _).trans <| hi (by decide) <| hi (by decide) <| hi (by decide) <| hi (by decide) <| ext_all _
  have f2 : fld word 21 5 = 0#5 := (f _ _).trans <| hi (by decide) <| hi (by decide) <| hi (by decide) <| lo (by decide) (ext_all _)
  have f3 : fld word 18 3 = (BitVec.ofFin (w := 3) pa) := (f _ _).trans <| hi (by decide) <| hi (by decide) <| lo (by decide) (ext_all _)
  have f4 : fld word 15 3 = (BitVec.ofFin (w := 3) pb) := (f _ _).trans <| hi (by decide) <| lo (by decide) (ext_all _)
  have f5 : fld word 0 15 = 0#15 := (f _ _).trans <| lo (by decide) (ext_all _)
  refine ok_of word _ ?_ h
  rw [raw_29 word f1]; unfold decode29; rw [f2]
  simp only [f3, f4, f5, BitVec.reduceToNat, pregAt, fin3, needZero, beq_self_eq_true, if_true]

theorem RoundTrip.shade (pa : PReg) (pb : PReg) : RoundTrip.Statement (.shade pa pb) := by
  intro word h e
  have e : (41#6 ++ 1#5 ++ (BitVec.ofFin (w := 3) pa) ++ (BitVec.ofFin (w := 3) pb) ++ 0#15 : BitVec 32) = word := Option.some.inj e
  have f := fld_of (6+5+3+3+15) _ word (congrArg BitVec.toNat e)
  have f1 : fld word 26 6 = 41#6 := (f _ _).trans <| hi (by decide) <| hi (by decide) <| hi (by decide) <| hi (by decide) <| ext_all _
  have f2 : fld word 21 5 = 1#5 := (f _ _).trans <| hi (by decide) <| hi (by decide) <| hi (by decide) <| lo (by decide) (ext_all _)
  have f3 : fld word 18 3 = (BitVec.ofFin (w := 3) pa) := (f _ _).trans <| hi (by decide) <| hi (by decide) <| lo (by decide) (ext_all _)
  have f4 : fld word 15 3 = (BitVec.ofFin (w := 3) pb) := (f _ _).trans <| hi (by decide) <| lo (by decide) (ext_all _)
  have f5 : fld word 0 15 = 0#15 := (f _ _).trans <| lo (by decide) (ext_all _)
  refine ok_of word _ ?_ h
  rw [raw_29 word f1]; unfold decode29; rw [f2]
  simp only [f3, f4, f5, BitVec.reduceToNat, pregAt, fin3, needZero, beq_self_eq_true, if_true]

theorem RoundTrip.seqadv (pb : PReg) : RoundTrip.Statement (.seqadv pb) := by
  intro word h e
  have e : (41#6 ++ 2#5 ++ 0#3 ++ (BitVec.ofFin (w := 3) pb) ++ 0#15 : BitVec 32) = word := Option.some.inj e
  have f := fld_of (6+5+3+3+15) _ word (congrArg BitVec.toNat e)
  have f1 : fld word 26 6 = 41#6 := (f _ _).trans <| hi (by decide) <| hi (by decide) <| hi (by decide) <| hi (by decide) <| ext_all _
  have f2 : fld word 21 5 = 2#5 := (f _ _).trans <| hi (by decide) <| hi (by decide) <| hi (by decide) <| lo (by decide) (ext_all _)
  have f3 : fld word 18 3 = 0#3 := (f _ _).trans <| hi (by decide) <| hi (by decide) <| lo (by decide) (ext_all _)
  have f4 : fld word 15 3 = (BitVec.ofFin (w := 3) pb) := (f _ _).trans <| hi (by decide) <| lo (by decide) (ext_all _)
  have f5 : fld word 0 15 = 0#15 := (f _ _).trans <| lo (by decide) (ext_all _)
  refine ok_of word _ ?_ h
  rw [raw_29 word f1]; unfold decode29; rw [f2]
  simp only [f3, f4, f5, BitVec.reduceToNat, pregAt, fin3, needZero, beq_self_eq_true, if_true, Bool.and_self]

theorem RoundTrip.watch (pa : PReg) (pb : PReg) (w : Fin 4) : RoundTrip.Statement (.watch pa pb w) := by
  intro word h e
  have e : (42#6 ++ 0#5 ++ (BitVec.ofFin (w := 3) pa) ++ (BitVec.ofFin (w := 3) pb) ++ 0#13 ++ (BitVec.ofFin (w := 2) w) : BitVec 32) = word := Option.some.inj e
  have f := fld_of (6+5+3+3+13+2) _ word (congrArg BitVec.toNat e)
  have f1 : fld word 26 6 = 42#6 := (f _ _).trans <| hi (by decide) <| hi (by decide) <| hi (by decide) <| hi (by decide) <| hi (by decide) <| ext_all _
  have f2 : fld word 21 5 = 0#5 := (f _ _).trans <| hi (by decide) <| hi (by decide) <| hi (by decide) <| hi (by decide) <| lo (by decide) (ext_all _)
  have f3 : fld word 18 3 = (BitVec.ofFin (w := 3) pa) := (f _ _).trans <| hi (by decide) <| hi (by decide) <| hi (by decide) <| lo (by decide) (ext_all _)
  have f4 : fld word 15 3 = (BitVec.ofFin (w := 3) pb) := (f _ _).trans <| hi (by decide) <| hi (by decide) <| lo (by decide) (ext_all _)
  have f5 : fld word 2 13 = 0#13 := (f _ _).trans <| hi (by decide) <| lo (by decide) (ext_all _)
  have f6 : fld word 0 2 = (BitVec.ofFin (w := 2) w) := (f _ _).trans <| lo (by decide) (ext_all _)
  refine ok_of word _ ?_ h
  rw [raw_2A word f1]; unfold decode2A; rw [f2]
  simp only [f3, f4, f5, f6, BitVec.reduceToNat, pregAt, fin3, needZero, beq_self_eq_true, if_true, fin2]

theorem RoundTrip.watcha (pa : PReg) (pb : PReg) (w : Fin 4) : RoundTrip.Statement (.watcha pa pb w) := by
  intro word h e
  have e : (42#6 ++ 1#5 ++ (BitVec.ofFin (w := 3) pa) ++ (BitVec.ofFin (w := 3) pb) ++ 0#13 ++ (BitVec.ofFin (w := 2) w) : BitVec 32) = word := Option.some.inj e
  have f := fld_of (6+5+3+3+13+2) _ word (congrArg BitVec.toNat e)
  have f1 : fld word 26 6 = 42#6 := (f _ _).trans <| hi (by decide) <| hi (by decide) <| hi (by decide) <| hi (by decide) <| hi (by decide) <| ext_all _
  have f2 : fld word 21 5 = 1#5 := (f _ _).trans <| hi (by decide) <| hi (by decide) <| hi (by decide) <| hi (by decide) <| lo (by decide) (ext_all _)
  have f3 : fld word 18 3 = (BitVec.ofFin (w := 3) pa) := (f _ _).trans <| hi (by decide) <| hi (by decide) <| hi (by decide) <| lo (by decide) (ext_all _)
  have f4 : fld word 15 3 = (BitVec.ofFin (w := 3) pb) := (f _ _).trans <| hi (by decide) <| hi (by decide) <| lo (by decide) (ext_all _)
  have f5 : fld word 2 13 = 0#13 := (f _ _).trans <| hi (by decide) <| lo (by decide) (ext_all _)
  have f6 : fld word 0 2 = (BitVec.ofFin (w := 2) w) := (f _ _).trans <| lo (by decide) (ext_all _)
  refine ok_of word _ ?_ h
  rw [raw_2A word f1]; unfold decode2A; rw [f2]
  simp only [f3, f4, f5, f6, BitVec.reduceToNat, pregAt, fin3, needZero, beq_self_eq_true, if_true, fin2]

theorem RoundTrip.wwait (w : Fin 4) : RoundTrip.Statement (.wwait w) := by
  intro word h e
  have e : (42#6 ++ 2#5 ++ 0#19 ++ (BitVec.ofFin (w := 2) w) : BitVec 32) = word := Option.some.inj e
  have f := fld_of (6+5+19+2) _ word (congrArg BitVec.toNat e)
  have f1 : fld word 26 6 = 42#6 := (f _ _).trans <| hi (by decide) <| hi (by decide) <| hi (by decide) <| ext_all _
  have f2 : fld word 21 5 = 2#5 := (f _ _).trans <| hi (by decide) <| hi (by decide) <| lo (by decide) (ext_all _)
  have f3 : fld word 2 19 = 0#19 := (f _ _).trans <| hi (by decide) <| lo (by decide) (ext_all _)
  have f4 : fld word 0 2 = (BitVec.ofFin (w := 2) w) := (f _ _).trans <| lo (by decide) (ext_all _)
  refine ok_of word _ ?_ h
  rw [raw_2A word f1]; unfold decode2A; rw [f2]
  simp only [f3, f4, BitVec.reduceToNat, needZero, beq_self_eq_true, if_true, fin2]

theorem RoundTrip.wtest (w : Fin 4) : RoundTrip.Statement (.wtest w) := by
  intro word h e
  have e : (42#6 ++ 3#5 ++ 0#19 ++ (BitVec.ofFin (w := 2) w) : BitVec 32) = word := Option.some.inj e
  have f := fld_of (6+5+19+2) _ word (congrArg BitVec.toNat e)
  have f1 : fld word 26 6 = 42#6 := (f _ _).trans <| hi (by decide) <| hi (by decide) <| hi (by decide) <| ext_all _
  have f2 : fld word 21 5 = 3#5 := (f _ _).trans <| hi (by decide) <| hi (by decide) <| lo (by decide) (ext_all _)
  have f3 : fld word 2 19 = 0#19 := (f _ _).trans <| hi (by decide) <| lo (by decide) (ext_all _)
  have f4 : fld word 0 2 = (BitVec.ofFin (w := 2) w) := (f _ _).trans <| lo (by decide) (ext_all _)
  refine ok_of word _ ?_ h
  rw [raw_2A word f1]; unfold decode2A; rw [f2]
  simp only [f3, f4, BitVec.reduceToNat, needZero, beq_self_eq_true, if_true, fin2]

theorem RoundTrip.barset (pa : PReg) (b : Fin 4) : RoundTrip.Statement (.barset pa b) := by
  intro word h e
  have e : (43#6 ++ 0#5 ++ (BitVec.ofFin (w := 3) pa) ++ 0#16 ++ (BitVec.ofFin (w := 2) b) : BitVec 32) = word := Option.some.inj e
  have f := fld_of (6+5+3+16+2) _ word (congrArg BitVec.toNat e)
  have f1 : fld word 26 6 = 43#6 := (f _ _).trans <| hi (by decide) <| hi (by decide) <| hi (by decide) <| hi (by decide) <| ext_all _
  have f2 : fld word 21 5 = 0#5 := (f _ _).trans <| hi (by decide) <| hi (by decide) <| hi (by decide) <| lo (by decide) (ext_all _)
  have f3 : fld word 18 3 = (BitVec.ofFin (w := 3) pa) := (f _ _).trans <| hi (by decide) <| hi (by decide) <| lo (by decide) (ext_all _)
  have f4 : fld word 2 16 = 0#16 := (f _ _).trans <| hi (by decide) <| lo (by decide) (ext_all _)
  have f5 : fld word 0 2 = (BitVec.ofFin (w := 2) b) := (f _ _).trans <| lo (by decide) (ext_all _)
  refine ok_of word _ ?_ h
  rw [raw_2B word f1]; unfold decode2B; rw [f2]
  simp only [f3, f4, f5, BitVec.reduceToNat, pregAt, fin3, needZero, beq_self_eq_true, if_true, fin2]

theorem RoundTrip.barv (b : Fin 4) : RoundTrip.Statement (.barv b) := by
  intro word h e
  have e : (43#6 ++ 1#5 ++ 0#19 ++ (BitVec.ofFin (w := 2) b) : BitVec 32) = word := Option.some.inj e
  have f := fld_of (6+5+19+2) _ word (congrArg BitVec.toNat e)
  have f1 : fld word 26 6 = 43#6 := (f _ _).trans <| hi (by decide) <| hi (by decide) <| hi (by decide) <| ext_all _
  have f2 : fld word 21 5 = 1#5 := (f _ _).trans <| hi (by decide) <| hi (by decide) <| lo (by decide) (ext_all _)
  have f3 : fld word 2 19 = 0#19 := (f _ _).trans <| hi (by decide) <| lo (by decide) (ext_all _)
  have f4 : fld word 0 2 = (BitVec.ofFin (w := 2) b) := (f _ _).trans <| lo (by decide) (ext_all _)
  refine ok_of word _ ?_ h
  rw [raw_2B word f1]; unfold decode2B; rw [f2]
  simp only [f3, f4, BitVec.reduceToNat, needZero, beq_self_eq_true, if_true, fin2]

theorem RoundTrip.barw (b : Fin 4) : RoundTrip.Statement (.barw b) := by
  intro word h e
  have e : (43#6 ++ 2#5 ++ 0#19 ++ (BitVec.ofFin (w := 2) b) : BitVec 32) = word := Option.some.inj e
  have f := fld_of (6+5+19+2) _ word (congrArg BitVec.toNat e)
  have f1 : fld word 26 6 = 43#6 := (f _ _).trans <| hi (by decide) <| hi (by decide) <| hi (by decide) <| ext_all _
  have f2 : fld word 21 5 = 2#5 := (f _ _).trans <| hi (by decide) <| hi (by decide) <| lo (by decide) (ext_all _)
  have f3 : fld word 2 19 = 0#19 := (f _ _).trans <| hi (by decide) <| lo (by decide) (ext_all _)
  have f4 : fld word 0 2 = (BitVec.ofFin (w := 2) b) := (f _ _).trans <| lo (by decide) (ext_all _)
  refine ok_of word _ ?_ h
  rw [raw_2B word f1]; unfold decode2B; rw [f2]
  simp only [f3, f4, BitVec.reduceToNat, needZero, beq_self_eq_true, if_true, fin2]

theorem RoundTrip.dep (pa : PReg) (pb : PReg) (tn : TokName) (n : BitVec 2) : RoundTrip.Statement (.dep pa pb tn n) := by
  intro word h e
  have e : (44#6 ++ 0#5 ++ (BitVec.ofFin (w := 3) pa) ++ (BitVec.ofFin (w := 3) pb) ++ (tokNameCode tn) ++ 0#10 ++ n : BitVec 32) = word := Option.some.inj e
  have f := fld_of (6+5+3+3+3+10+2) _ word (congrArg BitVec.toNat e)
  have f1 : fld word 26 6 = 44#6 := (f _ _).trans <| hi (by decide) <| hi (by decide) <| hi (by decide) <| hi (by decide) <| hi (by decide) <| hi (by decide) <| ext_all _
  have f2 : fld word 21 5 = 0#5 := (f _ _).trans <| hi (by decide) <| hi (by decide) <| hi (by decide) <| hi (by decide) <| hi (by decide) <| lo (by decide) (ext_all _)
  have f3 : fld word 18 3 = (BitVec.ofFin (w := 3) pa) := (f _ _).trans <| hi (by decide) <| hi (by decide) <| hi (by decide) <| hi (by decide) <| lo (by decide) (ext_all _)
  have f4 : fld word 15 3 = (BitVec.ofFin (w := 3) pb) := (f _ _).trans <| hi (by decide) <| hi (by decide) <| hi (by decide) <| lo (by decide) (ext_all _)
  have f5 : fld word 12 3 = (tokNameCode tn) := (f _ _).trans <| hi (by decide) <| hi (by decide) <| lo (by decide) (ext_all _)
  have f6 : fld word 2 10 = 0#10 := (f _ _).trans <| hi (by decide) <| lo (by decide) (ext_all _)
  have f7 : fld word 0 2 = n := (f _ _).trans <| lo (by decide) (ext_all _)
  refine ok_of word _ ?_ h
  rw [raw_2C word f1]; unfold decode2C; rw [f2]
  simp only [f3, f4, f5, f6, f7, BitVec.reduceToNat, pregAt, fin3, needZero, beq_self_eq_true, if_true, needSome, tnc]

theorem RoundTrip.depq (pa : PReg) (tn : TokName) (n : BitVec 2) : RoundTrip.Statement (.depq pa tn n) := by
  intro word h e
  have e : (44#6 ++ 1#5 ++ (BitVec.ofFin (w := 3) pa) ++ 0#3 ++ (tokNameCode tn) ++ 0#10 ++ n : BitVec 32) = word := Option.some.inj e
  have f := fld_of (6+5+3+3+3+10+2) _ word (congrArg BitVec.toNat e)
  have f1 : fld word 26 6 = 44#6 := (f _ _).trans <| hi (by decide) <| hi (by decide) <| hi (by decide) <| hi (by decide) <| hi (by decide) <| hi (by decide) <| ext_all _
  have f2 : fld word 21 5 = 1#5 := (f _ _).trans <| hi (by decide) <| hi (by decide) <| hi (by decide) <| hi (by decide) <| hi (by decide) <| lo (by decide) (ext_all _)
  have f3 : fld word 18 3 = (BitVec.ofFin (w := 3) pa) := (f _ _).trans <| hi (by decide) <| hi (by decide) <| hi (by decide) <| hi (by decide) <| lo (by decide) (ext_all _)
  have f4 : fld word 15 3 = 0#3 := (f _ _).trans <| hi (by decide) <| hi (by decide) <| hi (by decide) <| lo (by decide) (ext_all _)
  have f5 : fld word 12 3 = (tokNameCode tn) := (f _ _).trans <| hi (by decide) <| hi (by decide) <| lo (by decide) (ext_all _)
  have f6 : fld word 2 10 = 0#10 := (f _ _).trans <| hi (by decide) <| lo (by decide) (ext_all _)
  have f7 : fld word 2 1 = 0#1 := (f _ _).trans <| hi (by decide) <| lo (by decide) (by decide)
  have f8 : fld word 0 2 = n := (f _ _).trans <| lo (by decide) (ext_all _)
  refine ok_of word _ ?_ h
  rw [raw_2C word f1]; unfold decode2C; rw [f2]
  simp only [f3, f4, f5, f6, f7, f8, BitVec.reduceToNat, pregAt, fin3, bitAt, bool1, needZero, beq_self_eq_true, if_true, Bool.and_self, needSome, tnc, BitVec.reduceBEq, Bool.false_eq_true, if_false]

theorem RoundTrip.depqLine (pa : PReg) (tn : TokName) : RoundTrip.Statement (.depqLine pa tn) := by
  intro word h e
  have e : (44#6 ++ 1#5 ++ (BitVec.ofFin (w := 3) pa) ++ 0#3 ++ (tokNameCode tn) ++ 4#12 : BitVec 32) = word := Option.some.inj e
  have f := fld_of (6+5+3+3+3+12) _ word (congrArg BitVec.toNat e)
  have f1 : fld word 26 6 = 44#6 := (f _ _).trans <| hi (by decide) <| hi (by decide) <| hi (by decide) <| hi (by decide) <| hi (by decide) <| ext_all _
  have f2 : fld word 21 5 = 1#5 := (f _ _).trans <| hi (by decide) <| hi (by decide) <| hi (by decide) <| hi (by decide) <| lo (by decide) (ext_all _)
  have f3 : fld word 18 3 = (BitVec.ofFin (w := 3) pa) := (f _ _).trans <| hi (by decide) <| hi (by decide) <| hi (by decide) <| lo (by decide) (ext_all _)
  have f4 : fld word 15 3 = 0#3 := (f _ _).trans <| hi (by decide) <| hi (by decide) <| lo (by decide) (ext_all _)
  have f5 : fld word 12 3 = (tokNameCode tn) := (f _ _).trans <| hi (by decide) <| lo (by decide) (ext_all _)
  have f6 : fld word 2 10 = 1#10 := (f _ _).trans <| lo (by decide) (by decide)
  have f7 : fld word 2 1 = 1#1 := (f _ _).trans <| lo (by decide) (by decide)
  have f8 : fld word 0 12 = 4#12 := (f _ _).trans <| lo (by decide) (ext_all _)
  have f9 : fld word 0 2 = 0#2 := (f _ _).trans <| lo (by decide) (by decide)
  refine ok_of word _ ?_ h
  rw [raw_2C word f1]; unfold decode2C; rw [f2]
  simp only [f3, f4, f5, f6, f7, f8, f9, BitVec.reduceToNat, pregAt, fin3, bitAt, bool1, needZero, beq_self_eq_true, if_true, Bool.and_self, needSome, tnc, BitVec.reduceBEq, Bool.false_eq_true, if_false]

theorem RoundTrip.depe (pa : PReg) (pb : PReg) (tn : TokName) (w : BitVec 3) (i : BitVec 9) : RoundTrip.Statement (.depe pa pb tn w i) := by
  intro word h e
  have e : (44#6 ++ 2#5 ++ (BitVec.ofFin (w := 3) pa) ++ (BitVec.ofFin (w := 3) pb) ++ (tokNameCode tn) ++ w ++ i : BitVec 32) = word := Option.some.inj e
  have f := fld_of (6+5+3+3+3+3+9) _ word (congrArg BitVec.toNat e)
  have f1 : fld word 26 6 = 44#6 := (f _ _).trans <| hi (by decide) <| hi (by decide) <| hi (by decide) <| hi (by decide) <| hi (by decide) <| hi (by decide) <| ext_all _
  have f2 : fld word 21 5 = 2#5 := (f _ _).trans <| hi (by decide) <| hi (by decide) <| hi (by decide) <| hi (by decide) <| hi (by decide) <| lo (by decide) (ext_all _)
  have f3 : fld word 18 3 = (BitVec.ofFin (w := 3) pa) := (f _ _).trans <| hi (by decide) <| hi (by decide) <| hi (by decide) <| hi (by decide) <| lo (by decide) (ext_all _)
  have f4 : fld word 15 3 = (BitVec.ofFin (w := 3) pb) := (f _ _).trans <| hi (by decide) <| hi (by decide) <| hi (by decide) <| lo (by decide) (ext_all _)
  have f5 : fld word 12 3 = (tokNameCode tn) := (f _ _).trans <| hi (by decide) <| hi (by decide) <| lo (by decide) (ext_all _)
  have f6 : fld word 9 3 = w := (f _ _).trans <| hi (by decide) <| lo (by decide) (ext_all _)
  have f7 : fld word 0 9 = i := (f _ _).trans <| lo (by decide) (ext_all _)
  refine ok_of word _ ?_ h
  rw [raw_2C word f1]; unfold decode2C; rw [f2]
  simp only [f3, f4, f5, f6, f7, BitVec.reduceToNat, pregAt, fin3, needSome, tnc]

theorem RoundTrip.depes (pa : PReg) (pb : PReg) (tn : TokName) (w : BitVec 3) (i : BitVec 9) : RoundTrip.Statement (.depes pa pb tn w i) := by
  intro word h e
  have e : (44#6 ++ 3#5 ++ (BitVec.ofFin (w := 3) pa) ++ (BitVec.ofFin (w := 3) pb) ++ (tokNameCode tn) ++ w ++ i : BitVec 32) = word := Option.some.inj e
  have f := fld_of (6+5+3+3+3+3+9) _ word (congrArg BitVec.toNat e)
  have f1 : fld word 26 6 = 44#6 := (f _ _).trans <| hi (by decide) <| hi (by decide) <| hi (by decide) <| hi (by decide) <| hi (by decide) <| hi (by decide) <| ext_all _
  have f2 : fld word 21 5 = 3#5 := (f _ _).trans <| hi (by decide) <| hi (by decide) <| hi (by decide) <| hi (by decide) <| hi (by decide) <| lo (by decide) (ext_all _)
  have f3 : fld word 18 3 = (BitVec.ofFin (w := 3) pa) := (f _ _).trans <| hi (by decide) <| hi (by decide) <| hi (by decide) <| hi (by decide) <| lo (by decide) (ext_all _)
  have f4 : fld word 15 3 = (BitVec.ofFin (w := 3) pb) := (f _ _).trans <| hi (by decide) <| hi (by decide) <| hi (by decide) <| lo (by decide) (ext_all _)
  have f5 : fld word 12 3 = (tokNameCode tn) := (f _ _).trans <| hi (by decide) <| hi (by decide) <| lo (by decide) (ext_all _)
  have f6 : fld word 9 3 = w := (f _ _).trans <| hi (by decide) <| lo (by decide) (ext_all _)
  have f7 : fld word 0 9 = i := (f _ _).trans <| lo (by decide) (ext_all _)
  refine ok_of word _ ?_ h
  rw [raw_2C word f1]; unfold decode2C; rw [f2]
  simp only [f3, f4, f5, f6, f7, BitVec.reduceToNat, pregAt, fin3, needSome, tnc]

theorem RoundTrip.amoAdd (pa : PReg) (pb : PReg) (tn : TokName) (dbl : Bool) : RoundTrip.Statement (.amoAdd pa pb tn dbl) := by
  intro word h e
  have e : (45#6 ++ 0#5 ++ (BitVec.ofFin (w := 3) pa) ++ (BitVec.ofFin (w := 3) pb) ++ (tokNameCode tn) ++ 0#10 ++ (amoSizeCode dbl) : BitVec 32) = word := Option.some.inj e
  have f := fld_of (6+5+3+3+3+10+2) _ word (congrArg BitVec.toNat e)
  have f1 : fld word 26 6 = 45#6 := (f _ _).trans <| hi (by decide) <| hi (by decide) <| hi (by decide) <| hi (by decide) <| hi (by decide) <| hi (by decide) <| ext_all _
  have f2 : fld word 21 5 = 0#5 := (f _ _).trans <| hi (by decide) <| hi (by decide) <| hi (by decide) <| hi (by decide) <| hi (by decide) <| lo (by decide) (ext_all _)
  have f3 : fld word 18 3 = (BitVec.ofFin (w := 3) pa) := (f _ _).trans <| hi (by decide) <| hi (by decide) <| hi (by decide) <| hi (by decide) <| lo (by decide) (ext_all _)
  have f4 : fld word 15 3 = (BitVec.ofFin (w := 3) pb) := (f _ _).trans <| hi (by decide) <| hi (by decide) <| hi (by decide) <| lo (by decide) (ext_all _)
  have f5 : fld word 12 3 = (tokNameCode tn) := (f _ _).trans <| hi (by decide) <| hi (by decide) <| lo (by decide) (ext_all _)
  have f6 : fld word 2 10 = 0#10 := (f _ _).trans <| hi (by decide) <| lo (by decide) (ext_all _)
  have f7 : fld word 0 2 = (amoSizeCode dbl) := (f _ _).trans <| lo (by decide) (ext_all _)
  refine ok_of word _ ?_ h
  rw [raw_2D word f1]; unfold decode2D; rw [f2]
  simp only [f3, f4, f5, f6, f7, BitVec.reduceToNat, pregAt, fin3, needZero, beq_self_eq_true, if_true, needSome, tnc, sizec]

theorem RoundTrip.amoMin (pa : PReg) (pb : PReg) (tn : TokName) (dbl : Bool) : RoundTrip.Statement (.amoMin pa pb tn dbl) := by
  intro word h e
  have e : (45#6 ++ 1#5 ++ (BitVec.ofFin (w := 3) pa) ++ (BitVec.ofFin (w := 3) pb) ++ (tokNameCode tn) ++ 0#10 ++ (amoSizeCode dbl) : BitVec 32) = word := Option.some.inj e
  have f := fld_of (6+5+3+3+3+10+2) _ word (congrArg BitVec.toNat e)
  have f1 : fld word 26 6 = 45#6 := (f _ _).trans <| hi (by decide) <| hi (by decide) <| hi (by decide) <| hi (by decide) <| hi (by decide) <| hi (by decide) <| ext_all _
  have f2 : fld word 21 5 = 1#5 := (f _ _).trans <| hi (by decide) <| hi (by decide) <| hi (by decide) <| hi (by decide) <| hi (by decide) <| lo (by decide) (ext_all _)
  have f3 : fld word 18 3 = (BitVec.ofFin (w := 3) pa) := (f _ _).trans <| hi (by decide) <| hi (by decide) <| hi (by decide) <| hi (by decide) <| lo (by decide) (ext_all _)
  have f4 : fld word 15 3 = (BitVec.ofFin (w := 3) pb) := (f _ _).trans <| hi (by decide) <| hi (by decide) <| hi (by decide) <| lo (by decide) (ext_all _)
  have f5 : fld word 12 3 = (tokNameCode tn) := (f _ _).trans <| hi (by decide) <| hi (by decide) <| lo (by decide) (ext_all _)
  have f6 : fld word 2 10 = 0#10 := (f _ _).trans <| hi (by decide) <| lo (by decide) (ext_all _)
  have f7 : fld word 0 2 = (amoSizeCode dbl) := (f _ _).trans <| lo (by decide) (ext_all _)
  refine ok_of word _ ?_ h
  rw [raw_2D word f1]; unfold decode2D; rw [f2]
  simp only [f3, f4, f5, f6, f7, BitVec.reduceToNat, pregAt, fin3, needZero, beq_self_eq_true, if_true, needSome, tnc, sizec]

theorem RoundTrip.amoMax (pa : PReg) (pb : PReg) (tn : TokName) (dbl : Bool) : RoundTrip.Statement (.amoMax pa pb tn dbl) := by
  intro word h e
  have e : (45#6 ++ 2#5 ++ (BitVec.ofFin (w := 3) pa) ++ (BitVec.ofFin (w := 3) pb) ++ (tokNameCode tn) ++ 0#10 ++ (amoSizeCode dbl) : BitVec 32) = word := Option.some.inj e
  have f := fld_of (6+5+3+3+3+10+2) _ word (congrArg BitVec.toNat e)
  have f1 : fld word 26 6 = 45#6 := (f _ _).trans <| hi (by decide) <| hi (by decide) <| hi (by decide) <| hi (by decide) <| hi (by decide) <| hi (by decide) <| ext_all _
  have f2 : fld word 21 5 = 2#5 := (f _ _).trans <| hi (by decide) <| hi (by decide) <| hi (by decide) <| hi (by decide) <| hi (by decide) <| lo (by decide) (ext_all _)
  have f3 : fld word 18 3 = (BitVec.ofFin (w := 3) pa) := (f _ _).trans <| hi (by decide) <| hi (by decide) <| hi (by decide) <| hi (by decide) <| lo (by decide) (ext_all _)
  have f4 : fld word 15 3 = (BitVec.ofFin (w := 3) pb) := (f _ _).trans <| hi (by decide) <| hi (by decide) <| hi (by decide) <| lo (by decide) (ext_all _)
  have f5 : fld word 12 3 = (tokNameCode tn) := (f _ _).trans <| hi (by decide) <| hi (by decide) <| lo (by decide) (ext_all _)
  have f6 : fld word 2 10 = 0#10 := (f _ _).trans <| hi (by decide) <| lo (by decide) (ext_all _)
  have f7 : fld word 0 2 = (amoSizeCode dbl) := (f _ _).trans <| lo (by decide) (ext_all _)
  refine ok_of word _ ?_ h
  rw [raw_2D word f1]; unfold decode2D; rw [f2]
  simp only [f3, f4, f5, f6, f7, BitVec.reduceToNat, pregAt, fin3, needZero, beq_self_eq_true, if_true, needSome, tnc, sizec]

theorem RoundTrip.amoMinu (pa : PReg) (pb : PReg) (tn : TokName) (dbl : Bool) : RoundTrip.Statement (.amoMinu pa pb tn dbl) := by
  intro word h e
  have e : (45#6 ++ 3#5 ++ (BitVec.ofFin (w := 3) pa) ++ (BitVec.ofFin (w := 3) pb) ++ (tokNameCode tn) ++ 0#10 ++ (amoSizeCode dbl) : BitVec 32) = word := Option.some.inj e
  have f := fld_of (6+5+3+3+3+10+2) _ word (congrArg BitVec.toNat e)
  have f1 : fld word 26 6 = 45#6 := (f _ _).trans <| hi (by decide) <| hi (by decide) <| hi (by decide) <| hi (by decide) <| hi (by decide) <| hi (by decide) <| ext_all _
  have f2 : fld word 21 5 = 3#5 := (f _ _).trans <| hi (by decide) <| hi (by decide) <| hi (by decide) <| hi (by decide) <| hi (by decide) <| lo (by decide) (ext_all _)
  have f3 : fld word 18 3 = (BitVec.ofFin (w := 3) pa) := (f _ _).trans <| hi (by decide) <| hi (by decide) <| hi (by decide) <| hi (by decide) <| lo (by decide) (ext_all _)
  have f4 : fld word 15 3 = (BitVec.ofFin (w := 3) pb) := (f _ _).trans <| hi (by decide) <| hi (by decide) <| hi (by decide) <| lo (by decide) (ext_all _)
  have f5 : fld word 12 3 = (tokNameCode tn) := (f _ _).trans <| hi (by decide) <| hi (by decide) <| lo (by decide) (ext_all _)
  have f6 : fld word 2 10 = 0#10 := (f _ _).trans <| hi (by decide) <| lo (by decide) (ext_all _)
  have f7 : fld word 0 2 = (amoSizeCode dbl) := (f _ _).trans <| lo (by decide) (ext_all _)
  refine ok_of word _ ?_ h
  rw [raw_2D word f1]; unfold decode2D; rw [f2]
  simp only [f3, f4, f5, f6, f7, BitVec.reduceToNat, pregAt, fin3, needZero, beq_self_eq_true, if_true, needSome, tnc, sizec]

theorem RoundTrip.amoMaxu (pa : PReg) (pb : PReg) (tn : TokName) (dbl : Bool) : RoundTrip.Statement (.amoMaxu pa pb tn dbl) := by
  intro word h e
  have e : (45#6 ++ 4#5 ++ (BitVec.ofFin (w := 3) pa) ++ (BitVec.ofFin (w := 3) pb) ++ (tokNameCode tn) ++ 0#10 ++ (amoSizeCode dbl) : BitVec 32) = word := Option.some.inj e
  have f := fld_of (6+5+3+3+3+10+2) _ word (congrArg BitVec.toNat e)
  have f1 : fld word 26 6 = 45#6 := (f _ _).trans <| hi (by decide) <| hi (by decide) <| hi (by decide) <| hi (by decide) <| hi (by decide) <| hi (by decide) <| ext_all _
  have f2 : fld word 21 5 = 4#5 := (f _ _).trans <| hi (by decide) <| hi (by decide) <| hi (by decide) <| hi (by decide) <| hi (by decide) <| lo (by decide) (ext_all _)
  have f3 : fld word 18 3 = (BitVec.ofFin (w := 3) pa) := (f _ _).trans <| hi (by decide) <| hi (by decide) <| hi (by decide) <| hi (by decide) <| lo (by decide) (ext_all _)
  have f4 : fld word 15 3 = (BitVec.ofFin (w := 3) pb) := (f _ _).trans <| hi (by decide) <| hi (by decide) <| hi (by decide) <| lo (by decide) (ext_all _)
  have f5 : fld word 12 3 = (tokNameCode tn) := (f _ _).trans <| hi (by decide) <| hi (by decide) <| lo (by decide) (ext_all _)
  have f6 : fld word 2 10 = 0#10 := (f _ _).trans <| hi (by decide) <| lo (by decide) (ext_all _)
  have f7 : fld word 0 2 = (amoSizeCode dbl) := (f _ _).trans <| lo (by decide) (ext_all _)
  refine ok_of word _ ?_ h
  rw [raw_2D word f1]; unfold decode2D; rw [f2]
  simp only [f3, f4, f5, f6, f7, BitVec.reduceToNat, pregAt, fin3, needZero, beq_self_eq_true, if_true, needSome, tnc, sizec]

theorem RoundTrip.amoAnd (pa : PReg) (pb : PReg) (tn : TokName) (dbl : Bool) : RoundTrip.Statement (.amoAnd pa pb tn dbl) := by
  intro word h e
  have e : (45#6 ++ 5#5 ++ (BitVec.ofFin (w := 3) pa) ++ (BitVec.ofFin (w := 3) pb) ++ (tokNameCode tn) ++ 0#10 ++ (amoSizeCode dbl) : BitVec 32) = word := Option.some.inj e
  have f := fld_of (6+5+3+3+3+10+2) _ word (congrArg BitVec.toNat e)
  have f1 : fld word 26 6 = 45#6 := (f _ _).trans <| hi (by decide) <| hi (by decide) <| hi (by decide) <| hi (by decide) <| hi (by decide) <| hi (by decide) <| ext_all _
  have f2 : fld word 21 5 = 5#5 := (f _ _).trans <| hi (by decide) <| hi (by decide) <| hi (by decide) <| hi (by decide) <| hi (by decide) <| lo (by decide) (ext_all _)
  have f3 : fld word 18 3 = (BitVec.ofFin (w := 3) pa) := (f _ _).trans <| hi (by decide) <| hi (by decide) <| hi (by decide) <| hi (by decide) <| lo (by decide) (ext_all _)
  have f4 : fld word 15 3 = (BitVec.ofFin (w := 3) pb) := (f _ _).trans <| hi (by decide) <| hi (by decide) <| hi (by decide) <| lo (by decide) (ext_all _)
  have f5 : fld word 12 3 = (tokNameCode tn) := (f _ _).trans <| hi (by decide) <| hi (by decide) <| lo (by decide) (ext_all _)
  have f6 : fld word 2 10 = 0#10 := (f _ _).trans <| hi (by decide) <| lo (by decide) (ext_all _)
  have f7 : fld word 0 2 = (amoSizeCode dbl) := (f _ _).trans <| lo (by decide) (ext_all _)
  refine ok_of word _ ?_ h
  rw [raw_2D word f1]; unfold decode2D; rw [f2]
  simp only [f3, f4, f5, f6, f7, BitVec.reduceToNat, pregAt, fin3, needZero, beq_self_eq_true, if_true, needSome, tnc, sizec]

theorem RoundTrip.amoOr (pa : PReg) (pb : PReg) (tn : TokName) (dbl : Bool) : RoundTrip.Statement (.amoOr pa pb tn dbl) := by
  intro word h e
  have e : (45#6 ++ 6#5 ++ (BitVec.ofFin (w := 3) pa) ++ (BitVec.ofFin (w := 3) pb) ++ (tokNameCode tn) ++ 0#10 ++ (amoSizeCode dbl) : BitVec 32) = word := Option.some.inj e
  have f := fld_of (6+5+3+3+3+10+2) _ word (congrArg BitVec.toNat e)
  have f1 : fld word 26 6 = 45#6 := (f _ _).trans <| hi (by decide) <| hi (by decide) <| hi (by decide) <| hi (by decide) <| hi (by decide) <| hi (by decide) <| ext_all _
  have f2 : fld word 21 5 = 6#5 := (f _ _).trans <| hi (by decide) <| hi (by decide) <| hi (by decide) <| hi (by decide) <| hi (by decide) <| lo (by decide) (ext_all _)
  have f3 : fld word 18 3 = (BitVec.ofFin (w := 3) pa) := (f _ _).trans <| hi (by decide) <| hi (by decide) <| hi (by decide) <| hi (by decide) <| lo (by decide) (ext_all _)
  have f4 : fld word 15 3 = (BitVec.ofFin (w := 3) pb) := (f _ _).trans <| hi (by decide) <| hi (by decide) <| hi (by decide) <| lo (by decide) (ext_all _)
  have f5 : fld word 12 3 = (tokNameCode tn) := (f _ _).trans <| hi (by decide) <| hi (by decide) <| lo (by decide) (ext_all _)
  have f6 : fld word 2 10 = 0#10 := (f _ _).trans <| hi (by decide) <| lo (by decide) (ext_all _)
  have f7 : fld word 0 2 = (amoSizeCode dbl) := (f _ _).trans <| lo (by decide) (ext_all _)
  refine ok_of word _ ?_ h
  rw [raw_2D word f1]; unfold decode2D; rw [f2]
  simp only [f3, f4, f5, f6, f7, BitVec.reduceToNat, pregAt, fin3, needZero, beq_self_eq_true, if_true, needSome, tnc, sizec]

theorem RoundTrip.amoXor (pa : PReg) (pb : PReg) (tn : TokName) (dbl : Bool) : RoundTrip.Statement (.amoXor pa pb tn dbl) := by
  intro word h e
  have e : (45#6 ++ 7#5 ++ (BitVec.ofFin (w := 3) pa) ++ (BitVec.ofFin (w := 3) pb) ++ (tokNameCode tn) ++ 0#10 ++ (amoSizeCode dbl) : BitVec 32) = word := Option.some.inj e
  have f := fld_of (6+5+3+3+3+10+2) _ word (congrArg BitVec.toNat e)
  have f1 : fld word 26 6 = 45#6 := (f _ _).trans <| hi (by decide) <| hi (by decide) <| hi (by decide) <| hi (by decide) <| hi (by decide) <| hi (by decide) <| ext_all _
  have f2 : fld word 21 5 = 7#5 := (f _ _).trans <| hi (by decide) <| hi (by decide) <| hi (by decide) <| hi (by decide) <| hi (by decide) <| lo (by decide) (ext_all _)
  have f3 : fld word 18 3 = (BitVec.ofFin (w := 3) pa) := (f _ _).trans <| hi (by decide) <| hi (by decide) <| hi (by decide) <| hi (by decide) <| lo (by decide) (ext_all _)
  have f4 : fld word 15 3 = (BitVec.ofFin (w := 3) pb) := (f _ _).trans <| hi (by decide) <| hi (by decide) <| hi (by decide) <| lo (by decide) (ext_all _)
  have f5 : fld word 12 3 = (tokNameCode tn) := (f _ _).trans <| hi (by decide) <| hi (by decide) <| lo (by decide) (ext_all _)
  have f6 : fld word 2 10 = 0#10 := (f _ _).trans <| hi (by decide) <| lo (by decide) (ext_all _)
  have f7 : fld word 0 2 = (amoSizeCode dbl) := (f _ _).trans <| lo (by decide) (ext_all _)
  refine ok_of word _ ?_ h
  rw [raw_2D word f1]; unfold decode2D; rw [f2]
  simp only [f3, f4, f5, f6, f7, BitVec.reduceToNat, pregAt, fin3, needZero, beq_self_eq_true, if_true, needSome, tnc, sizec]

theorem RoundTrip.amoSwap (pa : PReg) (pb : PReg) (tn : TokName) (dbl : Bool) : RoundTrip.Statement (.amoSwap pa pb tn dbl) := by
  intro word h e
  have e : (45#6 ++ 8#5 ++ (BitVec.ofFin (w := 3) pa) ++ (BitVec.ofFin (w := 3) pb) ++ (tokNameCode tn) ++ 0#10 ++ (amoSizeCode dbl) : BitVec 32) = word := Option.some.inj e
  have f := fld_of (6+5+3+3+3+10+2) _ word (congrArg BitVec.toNat e)
  have f1 : fld word 26 6 = 45#6 := (f _ _).trans <| hi (by decide) <| hi (by decide) <| hi (by decide) <| hi (by decide) <| hi (by decide) <| hi (by decide) <| ext_all _
  have f2 : fld word 21 5 = 8#5 := (f _ _).trans <| hi (by decide) <| hi (by decide) <| hi (by decide) <| hi (by decide) <| hi (by decide) <| lo (by decide) (ext_all _)
  have f3 : fld word 18 3 = (BitVec.ofFin (w := 3) pa) := (f _ _).trans <| hi (by decide) <| hi (by decide) <| hi (by decide) <| hi (by decide) <| lo (by decide) (ext_all _)
  have f4 : fld word 15 3 = (BitVec.ofFin (w := 3) pb) := (f _ _).trans <| hi (by decide) <| hi (by decide) <| hi (by decide) <| lo (by decide) (ext_all _)
  have f5 : fld word 12 3 = (tokNameCode tn) := (f _ _).trans <| hi (by decide) <| hi (by decide) <| lo (by decide) (ext_all _)
  have f6 : fld word 2 10 = 0#10 := (f _ _).trans <| hi (by decide) <| lo (by decide) (ext_all _)
  have f7 : fld word 0 2 = (amoSizeCode dbl) := (f _ _).trans <| lo (by decide) (ext_all _)
  refine ok_of word _ ?_ h
  rw [raw_2D word f1]; unfold decode2D; rw [f2]
  simp only [f3, f4, f5, f6, f7, BitVec.reduceToNat, pregAt, fin3, needZero, beq_self_eq_true, if_true, needSome, tnc, sizec]

theorem RoundTrip.amoCas (pa : PReg) (pb : PReg) (tn : TokName) (dbl : Bool) : RoundTrip.Statement (.amoCas pa pb tn dbl) := by
  intro word h e
  have e : (45#6 ++ 9#5 ++ (BitVec.ofFin (w := 3) pa) ++ (BitVec.ofFin (w := 3) pb) ++ (tokNameCode tn) ++ 0#10 ++ (amoSizeCode dbl) : BitVec 32) = word := Option.some.inj e
  have f := fld_of (6+5+3+3+3+10+2) _ word (congrArg BitVec.toNat e)
  have f1 : fld word 26 6 = 45#6 := (f _ _).trans <| hi (by decide) <| hi (by decide) <| hi (by decide) <| hi (by decide) <| hi (by decide) <| hi (by decide) <| ext_all _
  have f2 : fld word 21 5 = 9#5 := (f _ _).trans <| hi (by decide) <| hi (by decide) <| hi (by decide) <| hi (by decide) <| hi (by decide) <| lo (by decide) (ext_all _)
  have f3 : fld word 18 3 = (BitVec.ofFin (w := 3) pa) := (f _ _).trans <| hi (by decide) <| hi (by decide) <| hi (by decide) <| hi (by decide) <| lo (by decide) (ext_all _)
  have f4 : fld word 15 3 = (BitVec.ofFin (w := 3) pb) := (f _ _).trans <| hi (by decide) <| hi (by decide) <| hi (by decide) <| lo (by decide) (ext_all _)
  have f5 : fld word 12 3 = (tokNameCode tn) := (f _ _).trans <| hi (by decide) <| hi (by decide) <| lo (by decide) (ext_all _)
  have f6 : fld word 2 10 = 0#10 := (f _ _).trans <| hi (by decide) <| lo (by decide) (ext_all _)
  have f7 : fld word 0 2 = (amoSizeCode dbl) := (f _ _).trans <| lo (by decide) (ext_all _)
  refine ok_of word _ ?_ h
  rw [raw_2D word f1]; unfold decode2D; rw [f2]
  simp only [f3, f4, f5, f6, f7, BitVec.reduceToNat, pregAt, fin3, needZero, beq_self_eq_true, if_true, needSome, tnc, sizec]

theorem RoundTrip.amoEnq (pa : PReg) (pb : PReg) (tn : TokName) : RoundTrip.Statement (.amoEnq pa pb tn) := by
  intro word h e
  have e : (45#6 ++ 10#5 ++ (BitVec.ofFin (w := 3) pa) ++ (BitVec.ofFin (w := 3) pb) ++ (tokNameCode tn) ++ 0#12 : BitVec 32) = word := Option.some.inj e
  have f := fld_of (6+5+3+3+3+12) _ word (congrArg BitVec.toNat e)
  have f1 : fld word 26 6 = 45#6 := (f _ _).trans <| hi (by decide) <| hi (by decide) <| hi (by decide) <| hi (by decide) <| hi (by decide) <| ext_all _
  have f2 : fld word 21 5 = 10#5 := (f _ _).trans <| hi (by decide) <| hi (by decide) <| hi (by decide) <| hi (by decide) <| lo (by decide) (ext_all _)
  have f3 : fld word 18 3 = (BitVec.ofFin (w := 3) pa) := (f _ _).trans <| hi (by decide) <| hi (by decide) <| hi (by decide) <| lo (by decide) (ext_all _)
  have f4 : fld word 15 3 = (BitVec.ofFin (w := 3) pb) := (f _ _).trans <| hi (by decide) <| hi (by decide) <| lo (by decide) (ext_all _)
  have f5 : fld word 12 3 = (tokNameCode tn) := (f _ _).trans <| hi (by decide) <| lo (by decide) (ext_all _)
  have f6 : fld word 0 12 = 0#12 := (f _ _).trans <| lo (by decide) (ext_all _)
  refine ok_of word _ ?_ h
  rw [raw_2D word f1]; unfold decode2D; rw [f2]
  simp only [f3, f4, f5, f6, BitVec.reduceToNat, pregAt, fin3, needZero, beq_self_eq_true, if_true, needSome, tnc]

theorem RoundTrip.amoDeq (pa : PReg) (tn : TokName) : RoundTrip.Statement (.amoDeq pa tn) := by
  intro word h e
  have e : (45#6 ++ 11#5 ++ (BitVec.ofFin (w := 3) pa) ++ 0#3 ++ (tokNameCode tn) ++ 0#12 : BitVec 32) = word := Option.some.inj e
  have f := fld_of (6+5+3+3+3+12) _ word (congrArg BitVec.toNat e)
  have f1 : fld word 26 6 = 45#6 := (f _ _).trans <| hi (by decide) <| hi (by decide) <| hi (by decide) <| hi (by decide) <| hi (by decide) <| ext_all _
  have f2 : fld word 21 5 = 11#5 := (f _ _).trans <| hi (by decide) <| hi (by decide) <| hi (by decide) <| hi (by decide) <| lo (by decide) (ext_all _)
  have f3 : fld word 18 3 = (BitVec.ofFin (w := 3) pa) := (f _ _).trans <| hi (by decide) <| hi (by decide) <| hi (by decide) <| lo (by decide) (ext_all _)
  have f4 : fld word 15 3 = 0#3 := (f _ _).trans <| hi (by decide) <| hi (by decide) <| lo (by decide) (ext_all _)
  have f5 : fld word 12 3 = (tokNameCode tn) := (f _ _).trans <| hi (by decide) <| lo (by decide) (ext_all _)
  have f6 : fld word 0 12 = 0#12 := (f _ _).trans <| lo (by decide) (ext_all _)
  refine ok_of word _ ?_ h
  rw [raw_2D word f1]; unfold decode2D; rw [f2]
  simp only [f3, f4, f5, f6, BitVec.reduceToNat, pregAt, fin3, needZero, beq_self_eq_true, if_true, Bool.and_self, needSome, tnc]

theorem RoundTrip.amoAdv (pa : PReg) (tn : TokName) : RoundTrip.Statement (.amoAdv pa tn) := by
  intro word h e
  have e : (45#6 ++ 12#5 ++ (BitVec.ofFin (w := 3) pa) ++ 0#3 ++ (tokNameCode tn) ++ 0#12 : BitVec 32) = word := Option.some.inj e
  have f := fld_of (6+5+3+3+3+12) _ word (congrArg BitVec.toNat e)
  have f1 : fld word 26 6 = 45#6 := (f _ _).trans <| hi (by decide) <| hi (by decide) <| hi (by decide) <| hi (by decide) <| hi (by decide) <| ext_all _
  have f2 : fld word 21 5 = 12#5 := (f _ _).trans <| hi (by decide) <| hi (by decide) <| hi (by decide) <| hi (by decide) <| lo (by decide) (ext_all _)
  have f3 : fld word 18 3 = (BitVec.ofFin (w := 3) pa) := (f _ _).trans <| hi (by decide) <| hi (by decide) <| hi (by decide) <| lo (by decide) (ext_all _)
  have f4 : fld word 15 3 = 0#3 := (f _ _).trans <| hi (by decide) <| hi (by decide) <| lo (by decide) (ext_all _)
  have f5 : fld word 12 3 = (tokNameCode tn) := (f _ _).trans <| hi (by decide) <| lo (by decide) (ext_all _)
  have f6 : fld word 0 12 = 0#12 := (f _ _).trans <| lo (by decide) (ext_all _)
  refine ok_of word _ ?_ h
  rw [raw_2D word f1]; unfold decode2D; rw [f2]
  simp only [f3, f4, f5, f6, BitVec.reduceToNat, pregAt, fin3, needZero, beq_self_eq_true, if_true, Bool.and_self, needSome, tnc]

theorem RoundTrip.amoUser (pa : PReg) (pb : PReg) (tn : TokName) (k : BitVec 3) (dbl : Bool) : RoundTrip.Statement (.amoUser pa pb tn k dbl) := by
  intro word h e
  have e : (45#6 ++ 13#5 ++ (BitVec.ofFin (w := 3) pa) ++ (BitVec.ofFin (w := 3) pb) ++ (tokNameCode tn) ++ 0#7 ++ k ++ (amoSizeCode dbl) : BitVec 32) = word := Option.some.inj e
  have f := fld_of (6+5+3+3+3+7+3+2) _ word (congrArg BitVec.toNat e)
  have f1 : fld word 26 6 = 45#6 := (f _ _).trans <| hi (by decide) <| hi (by decide) <| hi (by decide) <| hi (by decide) <| hi (by decide) <| hi (by decide) <| hi (by decide) <| ext_all _
  have f2 : fld word 21 5 = 13#5 := (f _ _).trans <| hi (by decide) <| hi (by decide) <| hi (by decide) <| hi (by decide) <| hi (by decide) <| hi (by decide) <| lo (by decide) (ext_all _)
  have f3 : fld word 18 3 = (BitVec.ofFin (w := 3) pa) := (f _ _).trans <| hi (by decide) <| hi (by decide) <| hi (by decide) <| hi (by decide) <| hi (by decide) <| lo (by decide) (ext_all _)
  have f4 : fld word 15 3 = (BitVec.ofFin (w := 3) pb) := (f _ _).trans <| hi (by decide) <| hi (by decide) <| hi (by decide) <| hi (by decide) <| lo (by decide) (ext_all _)
  have f5 : fld word 12 3 = (tokNameCode tn) := (f _ _).trans <| hi (by decide) <| hi (by decide) <| hi (by decide) <| lo (by decide) (ext_all _)
  have f6 : fld word 5 7 = 0#7 := (f _ _).trans <| hi (by decide) <| hi (by decide) <| lo (by decide) (ext_all _)
  have f7 : fld word 2 3 = k := (f _ _).trans <| hi (by decide) <| lo (by decide) (ext_all _)
  have f8 : fld word 0 2 = (amoSizeCode dbl) := (f _ _).trans <| lo (by decide) (ext_all _)
  refine ok_of word _ ?_ h
  rw [raw_2D word f1]; unfold decode2D; rw [f2]
  simp only [f3, f4, f5, f6, f7, f8, BitVec.reduceToNat, pregAt, fin3, needZero, beq_self_eq_true, if_true, needSome, tnc, sizec]

theorem RoundTrip.send (pa : PReg) (tn : TokName) (n : BitVec 4) (c : BitVec 5) : RoundTrip.Statement (.send pa tn n c) := by
  intro word h e
  have e : (46#6 ++ 0#5 ++ (BitVec.ofFin (w := 3) pa) ++ 0#3 ++ (tokNameCode tn) ++ 0#3 ++ n ++ c : BitVec 32) = word := Option.some.inj e
  have f := fld_of (6+5+3+3+3+3+4+5) _ word (congrArg BitVec.toNat e)
  have f1 : fld word 26 6 = 46#6 := (f _ _).trans <| hi (by decide) <| hi (by decide) <| hi (by decide) <| hi (by decide) <| hi (by decide) <| hi (by decide) <| hi (by decide) <| ext_all _
  have f2 : fld word 21 5 = 0#5 := (f _ _).trans <| hi (by decide) <| hi (by decide) <| hi (by decide) <| hi (by decide) <| hi (by decide) <| hi (by decide) <| lo (by decide) (ext_all _)
  have f3 : fld word 18 3 = (BitVec.ofFin (w := 3) pa) := (f _ _).trans <| hi (by decide) <| hi (by decide) <| hi (by decide) <| hi (by decide) <| hi (by decide) <| lo (by decide) (ext_all _)
  have f4 : fld word 15 3 = 0#3 := (f _ _).trans <| hi (by decide) <| hi (by decide) <| hi (by decide) <| hi (by decide) <| lo (by decide) (ext_all _)
  have f5 : fld word 12 3 = (tokNameCode tn) := (f _ _).trans <| hi (by decide) <| hi (by decide) <| hi (by decide) <| lo (by decide) (ext_all _)
  have f6 : fld word 9 3 = 0#3 := (f _ _).trans <| hi (by decide) <| hi (by decide) <| lo (by decide) (ext_all _)
  have f7 : fld word 5 4 = n := (f _ _).trans <| hi (by decide) <| lo (by decide) (ext_all _)
  have f8 : fld word 0 5 = c := (f _ _).trans <| lo (by decide) (ext_all _)
  refine ok_of word _ ?_ h
  rw [raw_2E word f1]; unfold decode2E; rw [f2]
  simp only [f3, f4, f5, f6, f7, f8, BitVec.reduceToNat, pregAt, fin3, needZero, beq_self_eq_true, if_true, Bool.and_self, needSome, tnc]

theorem RoundTrip.mig (pa : PReg) (c : BitVec 5) : RoundTrip.Statement (.mig pa c) := by
  intro word h e
  have e : (46#6 ++ 1#5 ++ (BitVec.ofFin (w := 3) pa) ++ 0#13 ++ c : BitVec 32) = word := Option.some.inj e
  have f := fld_of (6+5+3+13+5) _ word (congrArg BitVec.toNat e)
  have f1 : fld word 26 6 = 46#6 := (f _ _).trans <| hi (by decide) <| hi (by decide) <| hi (by decide) <| hi (by decide) <| ext_all _
  have f2 : fld word 21 5 = 1#5 := (f _ _).trans <| hi (by decide) <| hi (by decide) <| hi (by decide) <| lo (by decide) (ext_all _)
  have f3 : fld word 18 3 = (BitVec.ofFin (w := 3) pa) := (f _ _).trans <| hi (by decide) <| hi (by decide) <| lo (by decide) (ext_all _)
  have f4 : fld word 5 13 = 0#13 := (f _ _).trans <| hi (by decide) <| lo (by decide) (ext_all _)
  have f5 : fld word 0 5 = c := (f _ _).trans <| lo (by decide) (ext_all _)
  refine ok_of word _ ?_ h
  rw [raw_2E word f1]; unfold decode2E; rw [f2]
  simp only [f3, f4, f5, BitVec.reduceToNat, pregAt, fin3, needZero, beq_self_eq_true, if_true]

theorem RoundTrip.spawn (pa : PReg) (tn : TokName) (n : BitVec 4) (c : BitVec 5) : RoundTrip.Statement (.spawn pa tn n c) := by
  intro word h e
  have e : (46#6 ++ 2#5 ++ (BitVec.ofFin (w := 3) pa) ++ 0#3 ++ (tokNameCode tn) ++ 0#3 ++ n ++ c : BitVec 32) = word := Option.some.inj e
  have f := fld_of (6+5+3+3+3+3+4+5) _ word (congrArg BitVec.toNat e)
  have f1 : fld word 26 6 = 46#6 := (f _ _).trans <| hi (by decide) <| hi (by decide) <| hi (by decide) <| hi (by decide) <| hi (by decide) <| hi (by decide) <| hi (by decide) <| ext_all _
  have f2 : fld word 21 5 = 2#5 := (f _ _).trans <| hi (by decide) <| hi (by decide) <| hi (by decide) <| hi (by decide) <| hi (by decide) <| hi (by decide) <| lo (by decide) (ext_all _)
  have f3 : fld word 18 3 = (BitVec.ofFin (w := 3) pa) := (f _ _).trans <| hi (by decide) <| hi (by decide) <| hi (by decide) <| hi (by decide) <| hi (by decide) <| lo (by decide) (ext_all _)
  have f4 : fld word 15 3 = 0#3 := (f _ _).trans <| hi (by decide) <| hi (by decide) <| hi (by decide) <| hi (by decide) <| lo (by decide) (ext_all _)
  have f5 : fld word 12 3 = (tokNameCode tn) := (f _ _).trans <| hi (by decide) <| hi (by decide) <| hi (by decide) <| lo (by decide) (ext_all _)
  have f6 : fld word 9 3 = 0#3 := (f _ _).trans <| hi (by decide) <| hi (by decide) <| lo (by decide) (ext_all _)
  have f7 : fld word 5 4 = n := (f _ _).trans <| hi (by decide) <| lo (by decide) (ext_all _)
  have f8 : fld word 0 5 = c := (f _ _).trans <| lo (by decide) (ext_all _)
  refine ok_of word _ ?_ h
  rw [raw_2E word f1]; unfold decode2E; rw [f2]
  simp only [f3, f4, f5, f6, f7, f8, BitVec.reduceToNat, pregAt, fin3, needZero, beq_self_eq_true, if_true, Bool.and_self, needSome, tnc]

theorem RoundTrip.rcmd (pa : PReg) (tn : TokName) (k : BitVec 4) : RoundTrip.Statement (.rcmd pa tn k) := by
  intro word h e
  have e : (46#6 ++ 5#5 ++ (BitVec.ofFin (w := 3) pa) ++ 0#3 ++ (tokNameCode tn) ++ 0#8 ++ k : BitVec 32) = word := Option.some.inj e
  have f := fld_of (6+5+3+3+3+8+4) _ word (congrArg BitVec.toNat e)
  have f1 : fld word 26 6 = 46#6 := (f _ _).trans <| hi (by decide) <| hi (by decide) <| hi (by decide) <| hi (by decide) <| hi (by decide) <| hi (by decide) <| ext_all _
  have f2 : fld word 21 5 = 5#5 := (f _ _).trans <| hi (by decide) <| hi (by decide) <| hi (by decide) <| hi (by decide) <| hi (by decide) <| lo (by decide) (ext_all _)
  have f3 : fld word 18 3 = (BitVec.ofFin (w := 3) pa) := (f _ _).trans <| hi (by decide) <| hi (by decide) <| hi (by decide) <| hi (by decide) <| lo (by decide) (ext_all _)
  have f4 : fld word 15 3 = 0#3 := (f _ _).trans <| hi (by decide) <| hi (by decide) <| hi (by decide) <| lo (by decide) (ext_all _)
  have f5 : fld word 12 3 = (tokNameCode tn) := (f _ _).trans <| hi (by decide) <| hi (by decide) <| lo (by decide) (ext_all _)
  have f6 : fld word 4 8 = 0#8 := (f _ _).trans <| hi (by decide) <| lo (by decide) (ext_all _)
  have f7 : fld word 0 4 = k := (f _ _).trans <| lo (by decide) (ext_all _)
  refine ok_of word _ ?_ h
  rw [raw_2E word f1]; unfold decode2E; rw [f2]
  simp only [f3, f4, f5, f6, f7, BitVec.reduceToNat, pregAt, fin3, needZero, beq_self_eq_true, if_true, Bool.and_self, needSome, tnc]

theorem RoundTrip.tokq (s : Fin 4) : RoundTrip.Statement (.tokq s) := by
  intro word h e
  have e : (47#6 ++ 0#5 ++ 0#19 ++ (BitVec.ofFin (w := 2) s) : BitVec 32) = word := Option.some.inj e
  have f := fld_of (6+5+19+2) _ word (congrArg BitVec.toNat e)
  have f1 : fld word 26 6 = 47#6 := (f _ _).trans <| hi (by decide) <| hi (by decide) <| hi (by decide) <| ext_all _
  have f2 : fld word 21 5 = 0#5 := (f _ _).trans <| hi (by decide) <| hi (by decide) <| lo (by decide) (ext_all _)
  have f3 : fld word 2 19 = 0#19 := (f _ _).trans <| hi (by decide) <| lo (by decide) (ext_all _)
  have f4 : fld word 0 2 = (BitVec.ofFin (w := 2) s) := (f _ _).trans <| lo (by decide) (ext_all _)
  refine ok_of word _ ?_ h
  rw [raw_2F word f1]; unfold decode2F; rw [f2]
  simp only [f3, f4, BitVec.reduceToNat, needZero, beq_self_eq_true, if_true, fin2]

theorem RoundTrip.tokw (s : Fin 4) : RoundTrip.Statement (.tokw s) := by
  intro word h e
  have e : (47#6 ++ 1#5 ++ 0#19 ++ (BitVec.ofFin (w := 2) s) : BitVec 32) = word := Option.some.inj e
  have f := fld_of (6+5+19+2) _ word (congrArg BitVec.toNat e)
  have f1 : fld word 26 6 = 47#6 := (f _ _).trans <| hi (by decide) <| hi (by decide) <| hi (by decide) <| ext_all _
  have f2 : fld word 21 5 = 1#5 := (f _ _).trans <| hi (by decide) <| hi (by decide) <| lo (by decide) (ext_all _)
  have f3 : fld word 2 19 = 0#19 := (f _ _).trans <| hi (by decide) <| lo (by decide) (ext_all _)
  have f4 : fld word 0 2 = (BitVec.ofFin (w := 2) s) := (f _ _).trans <| lo (by decide) (ext_all _)
  refine ok_of word _ ?_ h
  rw [raw_2F word f1]; unfold decode2F; rw [f2]
  simp only [f3, f4, BitVec.reduceToNat, needZero, beq_self_eq_true, if_true, fin2]

theorem RoundTrip.tokz (s : Fin 4) : RoundTrip.Statement (.tokz s) := by
  intro word h e
  have e : (47#6 ++ 2#5 ++ 0#19 ++ (BitVec.ofFin (w := 2) s) : BitVec 32) = word := Option.some.inj e
  have f := fld_of (6+5+19+2) _ word (congrArg BitVec.toNat e)
  have f1 : fld word 26 6 = 47#6 := (f _ _).trans <| hi (by decide) <| hi (by decide) <| hi (by decide) <| ext_all _
  have f2 : fld word 21 5 = 2#5 := (f _ _).trans <| hi (by decide) <| hi (by decide) <| lo (by decide) (ext_all _)
  have f3 : fld word 2 19 = 0#19 := (f _ _).trans <| hi (by decide) <| lo (by decide) (ext_all _)
  have f4 : fld word 0 2 = (BitVec.ofFin (w := 2) s) := (f _ _).trans <| lo (by decide) (ext_all _)
  refine ok_of word _ ?_ h
  rw [raw_2F word f1]; unfold decode2F; rw [f2]
  simp only [f3, f4, BitVec.reduceToNat, needZero, beq_self_eq_true, if_true, fin2]

theorem RoundTrip.mwld (pa : PReg) (pb : PReg) (pc : PReg) (fa : Bool) (fr : Bool) (sb : Bool) : RoundTrip.Statement (.mwld pa pb pc fa fr sb) := by
  intro word h e
  have e : (48#6 ++ 0#5 ++ (BitVec.ofFin (w := 3) pa) ++ (BitVec.ofFin (w := 3) pb) ++ (BitVec.ofFin (w := 3) pc) ++ 0#4 ++ (BitVec.ofBool fa) ++ (BitVec.ofBool fr) ++ (BitVec.ofBool sb) ++ 0#5 : BitVec 32) = word := Option.some.inj e
  have f := fld_of (6+5+3+3+3+4+1+1+1+5) _ word (congrArg BitVec.toNat e)
  have f1 : fld word 26 6 = 48#6 := (f _ _).trans <| hi (by decide) <| hi (by decide) <| hi (by decide) <| hi (by decide) <| hi (by decide) <| hi (by decide) <| hi (by decide) <| hi (by decide) <| hi (by decide) <| ext_all _
  have f2 : fld word 21 5 = 0#5 := (f _ _).trans <| hi (by decide) <| hi (by decide) <| hi (by decide) <| hi (by decide) <| hi (by decide) <| hi (by decide) <| hi (by decide) <| hi (by decide) <| lo (by decide) (ext_all _)
  have f3 : fld word 18 3 = (BitVec.ofFin (w := 3) pa) := (f _ _).trans <| hi (by decide) <| hi (by decide) <| hi (by decide) <| hi (by decide) <| hi (by decide) <| hi (by decide) <| hi (by decide) <| lo (by decide) (ext_all _)
  have f4 : fld word 15 3 = (BitVec.ofFin (w := 3) pb) := (f _ _).trans <| hi (by decide) <| hi (by decide) <| hi (by decide) <| hi (by decide) <| hi (by decide) <| hi (by decide) <| lo (by decide) (ext_all _)
  have f5 : fld word 12 3 = (BitVec.ofFin (w := 3) pc) := (f _ _).trans <| hi (by decide) <| hi (by decide) <| hi (by decide) <| hi (by decide) <| hi (by decide) <| lo (by decide) (ext_all _)
  have f6 : fld word 8 4 = 0#4 := (f _ _).trans <| hi (by decide) <| hi (by decide) <| hi (by decide) <| hi (by decide) <| lo (by decide) (ext_all _)
  have f7 : fld word 7 1 = (BitVec.ofBool fa) := (f _ _).trans <| hi (by decide) <| hi (by decide) <| hi (by decide) <| lo (by decide) (ext_all _)
  have f8 : fld word 6 1 = (BitVec.ofBool fr) := (f _ _).trans <| hi (by decide) <| hi (by decide) <| lo (by decide) (ext_all _)
  have f9 : fld word 5 1 = (BitVec.ofBool sb) := (f _ _).trans <| hi (by decide) <| lo (by decide) (ext_all _)
  have f10 : fld word 4 1 = 0#1 := (f _ _).trans <| lo (by decide) (by decide)
  have f11 : fld word 0 5 = 0#5 := (f _ _).trans <| lo (by decide) (ext_all _)
  refine ok_of word _ ?_ h
  rw [raw_30 word f1]; unfold decode30; rw [f2]
  simp only [f3, f4, f5, f6, f7, f8, f9, f10, f11, BitVec.reduceToNat, pregAt, fin3, bitAt, bool1, needZero, beq_self_eq_true, if_true, Bool.and_self, fin4, BitVec.reduceBEq, Bool.false_eq_true, if_false]

theorem RoundTrip.mwldLanding (pa : PReg) (pb : PReg) (pc : PReg) (x : Fin 16) (fa : Bool) (fr : Bool) : RoundTrip.Statement (.mwldLanding pa pb pc x fa fr) := by
  intro word h e
  have e : (48#6 ++ 0#5 ++ (BitVec.ofFin (w := 3) pa) ++ (BitVec.ofFin (w := 3) pb) ++ (BitVec.ofFin (w := 3) pc) ++ (BitVec.ofFin (w := 4) x) ++ (BitVec.ofBool fa) ++ (BitVec.ofBool fr) ++ 16#6 : BitVec 32) = word := Option.some.inj e
  have f := fld_of (6+5+3+3+3+4+1+1+6) _ word (congrArg BitVec.toNat e)
  have f1 : fld word 26 6 = 48#6 := (f _ _).trans <| hi (by decide) <| hi (by decide) <| hi (by decide) <| hi (by decide) <| hi (by decide) <| hi (by decide) <| hi (by decide) <| hi (by decide) <| ext_all _
  have f2 : fld word 21 5 = 0#5 := (f _ _).trans <| hi (by decide) <| hi (by decide) <| hi (by decide) <| hi (by decide) <| hi (by decide) <| hi (by decide) <| hi (by decide) <| lo (by decide) (ext_all _)
  have f3 : fld word 18 3 = (BitVec.ofFin (w := 3) pa) := (f _ _).trans <| hi (by decide) <| hi (by decide) <| hi (by decide) <| hi (by decide) <| hi (by decide) <| hi (by decide) <| lo (by decide) (ext_all _)
  have f4 : fld word 15 3 = (BitVec.ofFin (w := 3) pb) := (f _ _).trans <| hi (by decide) <| hi (by decide) <| hi (by decide) <| hi (by decide) <| hi (by decide) <| lo (by decide) (ext_all _)
  have f5 : fld word 12 3 = (BitVec.ofFin (w := 3) pc) := (f _ _).trans <| hi (by decide) <| hi (by decide) <| hi (by decide) <| hi (by decide) <| lo (by decide) (ext_all _)
  have f6 : fld word 8 4 = (BitVec.ofFin (w := 4) x) := (f _ _).trans <| hi (by decide) <| hi (by decide) <| hi (by decide) <| lo (by decide) (ext_all _)
  have f7 : fld word 7 1 = (BitVec.ofBool fa) := (f _ _).trans <| hi (by decide) <| hi (by decide) <| lo (by decide) (ext_all _)
  have f8 : fld word 6 1 = (BitVec.ofBool fr) := (f _ _).trans <| hi (by decide) <| lo (by decide) (ext_all _)
  have f9 : fld word 5 1 = 0#1 := (f _ _).trans <| lo (by decide) (by decide)
  have f10 : fld word 4 1 = 1#1 := (f _ _).trans <| lo (by decide) (by decide)
  have f11 : fld word 0 6 = 16#6 := (f _ _).trans <| lo (by decide) (ext_all _)
  have f12 : fld word 0 5 = 16#5 := (f _ _).trans <| lo (by decide) (by decide)
  refine ok_of word _ ?_ h
  rw [raw_30 word f1]; unfold decode30; rw [f2]
  simp only [f3, f4, f5, f6, f7, f8, f9, f10, f11, f12, BitVec.reduceToNat, pregAt, fin3, bitAt, bool1, needZero, beq_self_eq_true, if_true, Bool.and_self, fin4, BitVec.reduceBEq, Bool.false_eq_true, if_false]

theorem RoundTrip.mma (pa : PReg) (pb : PReg) (pc : PReg) (x : Fin 16) (fa : Bool) (fr : Bool) (sb : Bool) (init : Bool) (dense : Bool) : RoundTrip.Statement (.mma pa pb pc x fa fr sb init dense) := by
  intro word h e
  have e : (48#6 ++ 1#5 ++ (BitVec.ofFin (w := 3) pa) ++ (BitVec.ofFin (w := 3) pb) ++ (BitVec.ofFin (w := 3) pc) ++ (BitVec.ofFin (w := 4) x) ++ (BitVec.ofBool fa) ++ (BitVec.ofBool fr) ++ (BitVec.ofBool sb) ++ (BitVec.ofBool init) ++ (BitVec.ofBool dense) ++ 0#3 : BitVec 32) = word := Option.some.inj e
  have f := fld_of (6+5+3+3+3+4+1+1+1+1+1+3) _ word (congrArg BitVec.toNat e)
  have f1 : fld word 26 6 = 48#6 := (f _ _).trans <| hi (by decide) <| hi (by decide) <| hi (by decide) <| hi (by decide) <| hi (by decide) <| hi (by decide) <| hi (by decide) <| hi (by decide) <| hi (by decide) <| hi (by decide) <| hi (by decide) <| ext_all _
  have f2 : fld word 21 5 = 1#5 := (f _ _).trans <| hi (by decide) <| hi (by decide) <| hi (by decide) <| hi (by decide) <| hi (by decide) <| hi (by decide) <| hi (by decide) <| hi (by decide) <| hi (by decide) <| hi (by decide) <| lo (by decide) (ext_all _)
  have f3 : fld word 18 3 = (BitVec.ofFin (w := 3) pa) := (f _ _).trans <| hi (by decide) <| hi (by decide) <| hi (by decide) <| hi (by decide) <| hi (by decide) <| hi (by decide) <| hi (by decide) <| hi (by decide) <| hi (by decide) <| lo (by decide) (ext_all _)
  have f4 : fld word 15 3 = (BitVec.ofFin (w := 3) pb) := (f _ _).trans <| hi (by decide) <| hi (by decide) <| hi (by decide) <| hi (by decide) <| hi (by decide) <| hi (by decide) <| hi (by decide) <| hi (by decide) <| lo (by decide) (ext_all _)
  have f5 : fld word 12 3 = (BitVec.ofFin (w := 3) pc) := (f _ _).trans <| hi (by decide) <| hi (by decide) <| hi (by decide) <| hi (by decide) <| hi (by decide) <| hi (by decide) <| hi (by decide) <| lo (by decide) (ext_all _)
  have f6 : fld word 8 4 = (BitVec.ofFin (w := 4) x) := (f _ _).trans <| hi (by decide) <| hi (by decide) <| hi (by decide) <| hi (by decide) <| hi (by decide) <| hi (by decide) <| lo (by decide) (ext_all _)
  have f7 : fld word 7 1 = (BitVec.ofBool fa) := (f _ _).trans <| hi (by decide) <| hi (by decide) <| hi (by decide) <| hi (by decide) <| hi (by decide) <| lo (by decide) (ext_all _)
  have f8 : fld word 6 1 = (BitVec.ofBool fr) := (f _ _).trans <| hi (by decide) <| hi (by decide) <| hi (by decide) <| hi (by decide) <| lo (by decide) (ext_all _)
  have f9 : fld word 5 1 = (BitVec.ofBool sb) := (f _ _).trans <| hi (by decide) <| hi (by decide) <| hi (by decide) <| lo (by decide) (ext_all _)
  have f10 : fld word 4 1 = (BitVec.ofBool init) := (f _ _).trans <| hi (by decide) <| hi (by decide) <| lo (by decide) (ext_all _)
  have f11 : fld word 3 1 = (BitVec.ofBool dense) := (f _ _).trans <| hi (by decide) <| lo (by decide) (ext_all _)
  have f12 : fld word 0 3 = 0#3 := (f _ _).trans <| lo (by decide) (ext_all _)
  refine ok_of word _ ?_ h
  rw [raw_30 word f1]; unfold decode30; rw [f2]
  simp only [f3, f4, f5, f6, f7, f8, f9, f10, f11, f12, BitVec.reduceToNat, pregAt, fin3, bitAt, bool1, needZero, beq_self_eq_true, if_true, fin4]

theorem RoundTrip.mmp (pa : PReg) (pb : PReg) (pc : PReg) (x : Fin 16) (fa : Bool) (fr : Bool) (sb : Bool) (init : Bool) (dense : Bool) : RoundTrip.Statement (.mmp pa pb pc x fa fr sb init dense) := by
  intro word h e
  have e : (48#6 ++ 2#5 ++ (BitVec.ofFin (w := 3) pa) ++ (BitVec.ofFin (w := 3) pb) ++ (BitVec.ofFin (w := 3) pc) ++ (BitVec.ofFin (w := 4) x) ++ (BitVec.ofBool fa) ++ (BitVec.ofBool fr) ++ (BitVec.ofBool sb) ++ (BitVec.ofBool init) ++ (BitVec.ofBool dense) ++ 0#3 : BitVec 32) = word := Option.some.inj e
  have f := fld_of (6+5+3+3+3+4+1+1+1+1+1+3) _ word (congrArg BitVec.toNat e)
  have f1 : fld word 26 6 = 48#6 := (f _ _).trans <| hi (by decide) <| hi (by decide) <| hi (by decide) <| hi (by decide) <| hi (by decide) <| hi (by decide) <| hi (by decide) <| hi (by decide) <| hi (by decide) <| hi (by decide) <| hi (by decide) <| ext_all _
  have f2 : fld word 21 5 = 2#5 := (f _ _).trans <| hi (by decide) <| hi (by decide) <| hi (by decide) <| hi (by decide) <| hi (by decide) <| hi (by decide) <| hi (by decide) <| hi (by decide) <| hi (by decide) <| hi (by decide) <| lo (by decide) (ext_all _)
  have f3 : fld word 18 3 = (BitVec.ofFin (w := 3) pa) := (f _ _).trans <| hi (by decide) <| hi (by decide) <| hi (by decide) <| hi (by decide) <| hi (by decide) <| hi (by decide) <| hi (by decide) <| hi (by decide) <| hi (by decide) <| lo (by decide) (ext_all _)
  have f4 : fld word 15 3 = (BitVec.ofFin (w := 3) pb) := (f _ _).trans <| hi (by decide) <| hi (by decide) <| hi (by decide) <| hi (by decide) <| hi (by decide) <| hi (by decide) <| hi (by decide) <| hi (by decide) <| lo (by decide) (ext_all _)
  have f5 : fld word 12 3 = (BitVec.ofFin (w := 3) pc) := (f _ _).trans <| hi (by decide) <| hi (by decide) <| hi (by decide) <| hi (by decide) <| hi (by decide) <| hi (by decide) <| hi (by decide) <| lo (by decide) (ext_all _)
  have f6 : fld word 8 4 = (BitVec.ofFin (w := 4) x) := (f _ _).trans <| hi (by decide) <| hi (by decide) <| hi (by decide) <| hi (by decide) <| hi (by decide) <| hi (by decide) <| lo (by decide) (ext_all _)
  have f7 : fld word 7 1 = (BitVec.ofBool fa) := (f _ _).trans <| hi (by decide) <| hi (by decide) <| hi (by decide) <| hi (by decide) <| hi (by decide) <| lo (by decide) (ext_all _)
  have f8 : fld word 6 1 = (BitVec.ofBool fr) := (f _ _).trans <| hi (by decide) <| hi (by decide) <| hi (by decide) <| hi (by decide) <| lo (by decide) (ext_all _)
  have f9 : fld word 5 1 = (BitVec.ofBool sb) := (f _ _).trans <| hi (by decide) <| hi (by decide) <| hi (by decide) <| lo (by decide) (ext_all _)
  have f10 : fld word 4 1 = (BitVec.ofBool init) := (f _ _).trans <| hi (by decide) <| hi (by decide) <| lo (by decide) (ext_all _)
  have f11 : fld word 3 1 = (BitVec.ofBool dense) := (f _ _).trans <| hi (by decide) <| lo (by decide) (ext_all _)
  have f12 : fld word 0 3 = 0#3 := (f _ _).trans <| lo (by decide) (ext_all _)
  refine ok_of word _ ?_ h
  rw [raw_30 word f1]; unfold decode30; rw [f2]
  simp only [f3, f4, f5, f6, f7, f8, f9, f10, f11, f12, BitVec.reduceToNat, pregAt, fin3, bitAt, bool1, needZero, beq_self_eq_true, if_true, fin4]

theorem RoundTrip.mprog (pa : PReg) (pb : PReg) (n : BitVec 2) : RoundTrip.Statement (.mprog pa pb n) := by
  intro word h e
  have e : (48#6 ++ 3#5 ++ (BitVec.ofFin (w := 3) pa) ++ (BitVec.ofFin (w := 3) pb) ++ 0#13 ++ n : BitVec 32) = word := Option.some.inj e
  have f := fld_of (6+5+3+3+13+2) _ word (congrArg BitVec.toNat e)
  have f1 : fld word 26 6 = 48#6 := (f _ _).trans <| hi (by decide) <| hi (by decide) <| hi (by decide) <| hi (by decide) <| hi (by decide) <| ext_all _
  have f2 : fld word 21 5 = 3#5 := (f _ _).trans <| hi (by decide) <| hi (by decide) <| hi (by decide) <| hi (by decide) <| lo (by decide) (ext_all _)
  have f3 : fld word 18 3 = (BitVec.ofFin (w := 3) pa) := (f _ _).trans <| hi (by decide) <| hi (by decide) <| hi (by decide) <| lo (by decide) (ext_all _)
  have f4 : fld word 15 3 = (BitVec.ofFin (w := 3) pb) := (f _ _).trans <| hi (by decide) <| hi (by decide) <| lo (by decide) (ext_all _)
  have f5 : fld word 2 13 = 0#13 := (f _ _).trans <| hi (by decide) <| lo (by decide) (ext_all _)
  have f6 : fld word 0 2 = n := (f _ _).trans <| lo (by decide) (ext_all _)
  refine ok_of word _ ?_ h
  rw [raw_30 word f1]; unfold decode30; rw [f2]
  simp only [f3, f4, f5, f6, BitVec.reduceToNat, pregAt, fin3, needZero, beq_self_eq_true, if_true]

theorem RoundTrip.mcommit (pa : PReg) (pb : PReg) (pc : PReg) (x : Fin 16) (fa : Bool) (fr : Bool) (r : Rnd) (sat : Bool) : RoundTrip.Statement (.mcommit pa pb pc x fa fr r sat) := by
  intro word h e
  have e : (48#6 ++ 4#5 ++ (BitVec.ofFin (w := 3) pa) ++ (BitVec.ofFin (w := 3) pb) ++ (BitVec.ofFin (w := 3) pc) ++ (BitVec.ofFin (w := 4) x) ++ (BitVec.ofBool fa) ++ (BitVec.ofBool fr) ++ r.code ++ (BitVec.ofBool sat) ++ 0#2 : BitVec 32) = word := Option.some.inj e
  have f := fld_of (6+5+3+3+3+4+1+1+3+1+2) _ word (congrArg BitVec.toNat e)
  have f1 : fld word 26 6 = 48#6 := (f _ _).trans <| hi (by decide) <| hi (by decide) <| hi (by decide) <| hi (by decide) <| hi (by decide) <| hi (by decide) <| hi (by decide) <| hi (by decide) <| hi (by decide) <| hi (by decide) <| ext_all _
  have f2 : fld word 21 5 = 4#5 := (f _ _).trans <| hi (by decide) <| hi (by decide) <| hi (by decide) <| hi (by decide) <| hi (by decide) <| hi (by decide) <| hi (by decide) <| hi (by decide) <| hi (by decide) <| lo (by decide) (ext_all _)
  have f3 : fld word 18 3 = (BitVec.ofFin (w := 3) pa) := (f _ _).trans <| hi (by decide) <| hi (by decide) <| hi (by decide) <| hi (by decide) <| hi (by decide) <| hi (by decide) <| hi (by decide) <| hi (by decide) <| lo (by decide) (ext_all _)
  have f4 : fld word 15 3 = (BitVec.ofFin (w := 3) pb) := (f _ _).trans <| hi (by decide) <| hi (by decide) <| hi (by decide) <| hi (by decide) <| hi (by decide) <| hi (by decide) <| hi (by decide) <| lo (by decide) (ext_all _)
  have f5 : fld word 12 3 = (BitVec.ofFin (w := 3) pc) := (f _ _).trans <| hi (by decide) <| hi (by decide) <| hi (by decide) <| hi (by decide) <| hi (by decide) <| hi (by decide) <| lo (by decide) (ext_all _)
  have f6 : fld word 8 4 = (BitVec.ofFin (w := 4) x) := (f _ _).trans <| hi (by decide) <| hi (by decide) <| hi (by decide) <| hi (by decide) <| hi (by decide) <| lo (by decide) (ext_all _)
  have f7 : fld word 7 1 = (BitVec.ofBool fa) := (f _ _).trans <| hi (by decide) <| hi (by decide) <| hi (by decide) <| hi (by decide) <| lo (by decide) (ext_all _)
  have f8 : fld word 6 1 = (BitVec.ofBool fr) := (f _ _).trans <| hi (by decide) <| hi (by decide) <| hi (by decide) <| lo (by decide) (ext_all _)
  have f9 : fld word 3 3 = r.code := (f _ _).trans <| hi (by decide) <| hi (by decide) <| lo (by decide) (ext_all _)
  have f10 : fld word 2 1 = (BitVec.ofBool sat) := (f _ _).trans <| hi (by decide) <| lo (by decide) (ext_all _)
  have f11 : fld word 0 2 = 0#2 := (f _ _).trans <| lo (by decide) (ext_all _)
  refine ok_of word _ ?_ h
  rw [raw_30 word f1]; unfold decode30; rw [f2]
  simp only [f3, f4, f5, f6, f7, f8, f9, f10, f11, BitVec.reduceToNat, pregAt, fin3, bitAt, bool1, needZero, beq_self_eq_true, if_true, needSome, rndc, fin4]

theorem RoundTrip.mwait (x : Fin 16) (all : Bool) : RoundTrip.Statement (.mwait x all) := by
  intro word h e
  have e : (48#6 ++ 5#5 ++ 0#9 ++ (BitVec.ofFin (w := 4) x) ++ (BitVec.ofBool all) ++ 0#7 : BitVec 32) = word := Option.some.inj e
  have f := fld_of (6+5+9+4+1+7) _ word (congrArg BitVec.toNat e)
  have f1 : fld word 26 6 = 48#6 := (f _ _).trans <| hi (by decide) <| hi (by decide) <| hi (by decide) <| hi (by decide) <| hi (by decide) <| ext_all _
  have f2 : fld word 21 5 = 5#5 := (f _ _).trans <| hi (by decide) <| hi (by decide) <| hi (by decide) <| hi (by decide) <| lo (by decide) (ext_all _)
  have f3 : fld word 12 9 = 0#9 := (f _ _).trans <| hi (by decide) <| hi (by decide) <| hi (by decide) <| lo (by decide) (ext_all _)
  have f4 : fld word 8 4 = (BitVec.ofFin (w := 4) x) := (f _ _).trans <| hi (by decide) <| hi (by decide) <| lo (by decide) (ext_all _)
  have f5 : fld word 7 1 = (BitVec.ofBool all) := (f _ _).trans <| hi (by decide) <| lo (by decide) (ext_all _)
  have f6 : fld word 0 7 = 0#7 := (f _ _).trans <| lo (by decide) (ext_all _)
  refine ok_of word _ ?_ h
  rw [raw_30 word f1]; unfold decode30; rw [f2]
  simp only [f3, f4, f5, f6, BitVec.reduceToNat, bitAt, bool1, needZero, beq_self_eq_true, if_true, Bool.and_self, fin4]

theorem RoundTrip.pull (pa : PReg) (pb : PReg) (pc : PReg) (id : Fin 4) (fa : Bool) (fr : Bool) (rec : Bool) : RoundTrip.Statement (.pull pa pb pc id fa fr rec) := by
  intro word h e
  have e : (49#6 ++ 0#5 ++ (BitVec.ofFin (w := 3) pa) ++ (BitVec.ofFin (w := 3) pb) ++ (BitVec.ofFin (w := 3) pc) ++ 0#2 ++ (BitVec.ofFin (w := 2) id) ++ (BitVec.ofBool fa) ++ (BitVec.ofBool fr) ++ (BitVec.ofBool rec) ++ 0#5 : BitVec 32) = word := Option.some.inj e
  have f := fld_of (6+5+3+3+3+2+2+1+1+1+5) _ word (congrArg BitVec.toNat e)
  have f1 : fld word 26 6 = 49#6 := (f _ _).trans <| hi (by decide) <| hi (by decide) <| hi (by decide) <| hi (by decide) <| hi (by decide) <| hi (by decide) <| hi (by decide) <| hi (by decide) <| hi (by decide) <| hi (by decide) <| ext_all _
  have f2 : fld word 21 5 = 0#5 := (f _ _).trans <| hi (by decide) <| hi (by decide) <| hi (by decide) <| hi (by decide) <| hi (by decide) <| hi (by decide) <| hi (by decide) <| hi (by decide) <| hi (by decide) <| lo (by decide) (ext_all _)
  have f3 : fld word 18 3 = (BitVec.ofFin (w := 3) pa) := (f _ _).trans <| hi (by decide) <| hi (by decide) <| hi (by decide) <| hi (by decide) <| hi (by decide) <| hi (by decide) <| hi (by decide) <| hi (by decide) <| lo (by decide) (ext_all _)
  have f4 : fld word 15 3 = (BitVec.ofFin (w := 3) pb) := (f _ _).trans <| hi (by decide) <| hi (by decide) <| hi (by decide) <| hi (by decide) <| hi (by decide) <| hi (by decide) <| hi (by decide) <| lo (by decide) (ext_all _)
  have f5 : fld word 12 3 = (BitVec.ofFin (w := 3) pc) := (f _ _).trans <| hi (by decide) <| hi (by decide) <| hi (by decide) <| hi (by decide) <| hi (by decide) <| hi (by decide) <| lo (by decide) (ext_all _)
  have f6 : fld word 10 2 = 0#2 := (f _ _).trans <| hi (by decide) <| hi (by decide) <| hi (by decide) <| hi (by decide) <| hi (by decide) <| lo (by decide) (ext_all _)
  have f7 : fld word 8 2 = (BitVec.ofFin (w := 2) id) := (f _ _).trans <| hi (by decide) <| hi (by decide) <| hi (by decide) <| hi (by decide) <| lo (by decide) (ext_all _)
  have f8 : fld word 7 1 = (BitVec.ofBool fa) := (f _ _).trans <| hi (by decide) <| hi (by decide) <| hi (by decide) <| lo (by decide) (ext_all _)
  have f9 : fld word 6 1 = (BitVec.ofBool fr) := (f _ _).trans <| hi (by decide) <| hi (by decide) <| lo (by decide) (ext_all _)
  have f10 : fld word 5 1 = (BitVec.ofBool rec) := (f _ _).trans <| hi (by decide) <| lo (by decide) (ext_all _)
  have f11 : fld word 0 5 = 0#5 := (f _ _).trans <| lo (by decide) (ext_all _)
  refine ok_of word _ ?_ h
  rw [raw_31 word f1]; unfold decode31; rw [f2]
  simp only [f3, f4, f5, f6, f7, f8, f9, f10, f11, BitVec.reduceToNat, pregAt, fin3, bitAt, bool1, needZero, beq_self_eq_true, if_true, Bool.and_self, fin2]

theorem RoundTrip.pullg (pa : PReg) (pb : PReg) (pc : PReg) (id : Fin 4) (fa : Bool) (fr : Bool) (rec : Bool) : RoundTrip.Statement (.pullg pa pb pc id fa fr rec) := by
  intro word h e
  have e : (49#6 ++ 1#5 ++ (BitVec.ofFin (w := 3) pa) ++ (BitVec.ofFin (w := 3) pb) ++ (BitVec.ofFin (w := 3) pc) ++ 0#2 ++ (BitVec.ofFin (w := 2) id) ++ (BitVec.ofBool fa) ++ (BitVec.ofBool fr) ++ (BitVec.ofBool rec) ++ 0#5 : BitVec 32) = word := Option.some.inj e
  have f := fld_of (6+5+3+3+3+2+2+1+1+1+5) _ word (congrArg BitVec.toNat e)
  have f1 : fld word 26 6 = 49#6 := (f _ _).trans <| hi (by decide) <| hi (by decide) <| hi (by decide) <| hi (by decide) <| hi (by decide) <| hi (by decide) <| hi (by decide) <| hi (by decide) <| hi (by decide) <| hi (by decide) <| ext_all _
  have f2 : fld word 21 5 = 1#5 := (f _ _).trans <| hi (by decide) <| hi (by decide) <| hi (by decide) <| hi (by decide) <| hi (by decide) <| hi (by decide) <| hi (by decide) <| hi (by decide) <| hi (by decide) <| lo (by decide) (ext_all _)
  have f3 : fld word 18 3 = (BitVec.ofFin (w := 3) pa) := (f _ _).trans <| hi (by decide) <| hi (by decide) <| hi (by decide) <| hi (by decide) <| hi (by decide) <| hi (by decide) <| hi (by decide) <| hi (by decide) <| lo (by decide) (ext_all _)
  have f4 : fld word 15 3 = (BitVec.ofFin (w := 3) pb) := (f _ _).trans <| hi (by decide) <| hi (by decide) <| hi (by decide) <| hi (by decide) <| hi (by decide) <| hi (by decide) <| hi (by decide) <| lo (by decide) (ext_all _)
  have f5 : fld word 12 3 = (BitVec.ofFin (w := 3) pc) := (f _ _).trans <| hi (by decide) <| hi (by decide) <| hi (by decide) <| hi (by decide) <| hi (by decide) <| hi (by decide) <| lo (by decide) (ext_all _)
  have f6 : fld word 10 2 = 0#2 := (f _ _).trans <| hi (by decide) <| hi (by decide) <| hi (by decide) <| hi (by decide) <| hi (by decide) <| lo (by decide) (ext_all _)
  have f7 : fld word 8 2 = (BitVec.ofFin (w := 2) id) := (f _ _).trans <| hi (by decide) <| hi (by decide) <| hi (by decide) <| hi (by decide) <| lo (by decide) (ext_all _)
  have f8 : fld word 7 1 = (BitVec.ofBool fa) := (f _ _).trans <| hi (by decide) <| hi (by decide) <| hi (by decide) <| lo (by decide) (ext_all _)
  have f9 : fld word 6 1 = (BitVec.ofBool fr) := (f _ _).trans <| hi (by decide) <| hi (by decide) <| lo (by decide) (ext_all _)
  have f10 : fld word 5 1 = (BitVec.ofBool rec) := (f _ _).trans <| hi (by decide) <| lo (by decide) (ext_all _)
  have f11 : fld word 0 5 = 0#5 := (f _ _).trans <| lo (by decide) (ext_all _)
  refine ok_of word _ ?_ h
  rw [raw_31 word f1]; unfold decode31; rw [f2]
  simp only [f3, f4, f5, f6, f7, f8, f9, f10, f11, BitVec.reduceToNat, pregAt, fin3, bitAt, bool1, needZero, beq_self_eq_true, if_true, Bool.and_self, fin2]

theorem RoundTrip.pullw (id : Fin 4) (all : Bool) : RoundTrip.Statement (.pullw id all) := by
  intro word h e
  have e : (49#6 ++ 2#5 ++ 0#11 ++ (BitVec.ofFin (w := 2) id) ++ (BitVec.ofBool all) ++ 0#7 : BitVec 32) = word := Option.some.inj e
  have f := fld_of (6+5+11+2+1+7) _ word (congrArg BitVec.toNat e)
  have f1 : fld word 26 6 = 49#6 := (f _ _).trans <| hi (by decide) <| hi (by decide) <| hi (by decide) <| hi (by decide) <| hi (by decide) <| ext_all _
  have f2 : fld word 21 5 = 2#5 := (f _ _).trans <| hi (by decide) <| hi (by decide) <| hi (by decide) <| hi (by decide) <| lo (by decide) (ext_all _)
  have f3 : fld word 10 11 = 0#11 := (f _ _).trans <| hi (by decide) <| hi (by decide) <| hi (by decide) <| lo (by decide) (ext_all _)
  have f4 : fld word 8 2 = (BitVec.ofFin (w := 2) id) := (f _ _).trans <| hi (by decide) <| hi (by decide) <| lo (by decide) (ext_all _)
  have f5 : fld word 7 1 = (BitVec.ofBool all) := (f _ _).trans <| hi (by decide) <| lo (by decide) (ext_all _)
  have f6 : fld word 0 7 = 0#7 := (f _ _).trans <| lo (by decide) (ext_all _)
  refine ok_of word _ ?_ h
  rw [raw_31 word f1]; unfold decode31; rw [f2]
  simp only [f3, f4, f5, f6, BitVec.reduceToNat, bitAt, bool1, needZero, beq_self_eq_true, if_true, Bool.and_self, fin2]

theorem RoundTrip.coll (pa : PReg) (pb : PReg) (pc : PReg) (id : Fin 4) (fa : Bool) (fr : Bool) : RoundTrip.Statement (.coll pa pb pc id fa fr) := by
  intro word h e
  have e : (50#6 ++ 0#5 ++ (BitVec.ofFin (w := 3) pa) ++ (BitVec.ofFin (w := 3) pb) ++ (BitVec.ofFin (w := 3) pc) ++ 0#2 ++ (BitVec.ofFin (w := 2) id) ++ (BitVec.ofBool fa) ++ (BitVec.ofBool fr) ++ 0#6 : BitVec 32) = word := Option.some.inj e
  have f := fld_of (6+5+3+3+3+2+2+1+1+6) _ word (congrArg BitVec.toNat e)
  have f1 : fld word 26 6 = 50#6 := (f _ _).trans <| hi (by decide) <| hi (by decide) <| hi (by decide) <| hi (by decide) <| hi (by decide) <| hi (by decide) <| hi (by decide) <| hi (by decide) <| hi (by decide) <| ext_all _
  have f2 : fld word 21 5 = 0#5 := (f _ _).trans <| hi (by decide) <| hi (by decide) <| hi (by decide) <| hi (by decide) <| hi (by decide) <| hi (by decide) <| hi (by decide) <| hi (by decide) <| lo (by decide) (ext_all _)
  have f3 : fld word 18 3 = (BitVec.ofFin (w := 3) pa) := (f _ _).trans <| hi (by decide) <| hi (by decide) <| hi (by decide) <| hi (by decide) <| hi (by decide) <| hi (by decide) <| hi (by decide) <| lo (by decide) (ext_all _)
  have f4 : fld word 15 3 = (BitVec.ofFin (w := 3) pb) := (f _ _).trans <| hi (by decide) <| hi (by decide) <| hi (by decide) <| hi (by decide) <| hi (by decide) <| hi (by decide) <| lo (by decide) (ext_all _)
  have f5 : fld word 12 3 = (BitVec.ofFin (w := 3) pc) := (f _ _).trans <| hi (by decide) <| hi (by decide) <| hi (by decide) <| hi (by decide) <| hi (by decide) <| lo (by decide) (ext_all _)
  have f6 : fld word 10 2 = 0#2 := (f _ _).trans <| hi (by decide) <| hi (by decide) <| hi (by decide) <| hi (by decide) <| lo (by decide) (ext_all _)
  have f7 : fld word 8 2 = (BitVec.ofFin (w := 2) id) := (f _ _).trans <| hi (by decide) <| hi (by decide) <| hi (by decide) <| lo (by decide) (ext_all _)
  have f8 : fld word 7 1 = (BitVec.ofBool fa) := (f _ _).trans <| hi (by decide) <| hi (by decide) <| lo (by decide) (ext_all _)
  have f9 : fld word 6 1 = (BitVec.ofBool fr) := (f _ _).trans <| hi (by decide) <| lo (by decide) (ext_all _)
  have f10 : fld word 0 6 = 0#6 := (f _ _).trans <| lo (by decide) (ext_all _)
  refine ok_of word _ ?_ h
  rw [raw_32 word f1]; unfold decode32; rw [f2]
  simp only [f3, f4, f5, f6, f7, f8, f9, f10, BitVec.reduceToNat, pregAt, fin3, bitAt, bool1, needZero, beq_self_eq_true, if_true, Bool.and_self, fin2]

theorem RoundTrip.collw (id : Fin 4) (all : Bool) : RoundTrip.Statement (.collw id all) := by
  intro word h e
  have e : (50#6 ++ 1#5 ++ 0#11 ++ (BitVec.ofFin (w := 2) id) ++ (BitVec.ofBool all) ++ 0#7 : BitVec 32) = word := Option.some.inj e
  have f := fld_of (6+5+11+2+1+7) _ word (congrArg BitVec.toNat e)
  have f1 : fld word 26 6 = 50#6 := (f _ _).trans <| hi (by decide) <| hi (by decide) <| hi (by decide) <| hi (by decide) <| hi (by decide) <| ext_all _
  have f2 : fld word 21 5 = 1#5 := (f _ _).trans <| hi (by decide) <| hi (by decide) <| hi (by decide) <| hi (by decide) <| lo (by decide) (ext_all _)
  have f3 : fld word 10 11 = 0#11 := (f _ _).trans <| hi (by decide) <| hi (by decide) <| hi (by decide) <| lo (by decide) (ext_all _)
  have f4 : fld word 8 2 = (BitVec.ofFin (w := 2) id) := (f _ _).trans <| hi (by decide) <| hi (by decide) <| lo (by decide) (ext_all _)
  have f5 : fld word 7 1 = (BitVec.ofBool all) := (f _ _).trans <| hi (by decide) <| lo (by decide) (ext_all _)
  have f6 : fld word 0 7 = 0#7 := (f _ _).trans <| lo (by decide) (ext_all _)
  refine ok_of word _ ?_ h
  rw [raw_32 word f1]; unfold decode32; rw [f2]
  simp only [f3, f4, f5, f6, BitVec.reduceToNat, bitAt, bool1, needZero, beq_self_eq_true, if_true, Bool.and_self, fin2]

theorem RoundTrip.trap (n : BitVec 8) : RoundTrip.Statement (.trap n) := by
  intro word h e
  have e : (56#6 ++ 0#5 ++ 0#13 ++ n : BitVec 32) = word := Option.some.inj e
  have f := fld_of (6+5+13+8) _ word (congrArg BitVec.toNat e)
  have f1 : fld word 26 6 = 56#6 := (f _ _).trans <| hi (by decide) <| hi (by decide) <| hi (by decide) <| ext_all _
  have f2 : fld word 21 5 = 0#5 := (f _ _).trans <| hi (by decide) <| hi (by decide) <| lo (by decide) (ext_all _)
  have f3 : fld word 8 13 = 0#13 := (f _ _).trans <| hi (by decide) <| lo (by decide) (ext_all _)
  have f4 : fld word 0 8 = n := (f _ _).trans <| lo (by decide) (ext_all _)
  refine ok_of word _ ?_ h
  rw [raw_38 word f1]; unfold decode38; rw [f2]
  simp only [f3, f4, BitVec.reduceToNat, needZero, beq_self_eq_true, if_true]

theorem RoundTrip.cget (pa : PReg) (idx : BitVec 12) : RoundTrip.Statement (.cget pa idx) := by
  intro word h e
  have e : (56#6 ++ 2#5 ++ (BitVec.ofFin (w := 3) pa) ++ 0#6 ++ idx : BitVec 32) = word := Option.some.inj e
  have f := fld_of (6+5+3+6+12) _ word (congrArg BitVec.toNat e)
  have f1 : fld word 26 6 = 56#6 := (f _ _).trans <| hi (by decide) <| hi (by decide) <| hi (by decide) <| hi (by decide) <| ext_all _
  have f2 : fld word 21 5 = 2#5 := (f _ _).trans <| hi (by decide) <| hi (by decide) <| hi (by decide) <| lo (by decide) (ext_all _)
  have f3 : fld word 18 3 = (BitVec.ofFin (w := 3) pa) := (f _ _).trans <| hi (by decide) <| hi (by decide) <| lo (by decide) (ext_all _)
  have f4 : fld word 12 6 = 0#6 := (f _ _).trans <| hi (by decide) <| lo (by decide) (ext_all _)
  have f5 : fld word 0 12 = idx := (f _ _).trans <| lo (by decide) (ext_all _)
  refine ok_of word _ ?_ h
  rw [raw_38 word f1]; unfold decode38; rw [f2]
  simp only [f3, f4, f5, BitVec.reduceToNat, pregAt, fin3, needZero, beq_self_eq_true, if_true]

theorem RoundTrip.cset (pa : PReg) (idx : BitVec 12) : RoundTrip.Statement (.cset pa idx) := by
  intro word h e
  have e : (56#6 ++ 3#5 ++ (BitVec.ofFin (w := 3) pa) ++ 0#6 ++ idx : BitVec 32) = word := Option.some.inj e
  have f := fld_of (6+5+3+6+12) _ word (congrArg BitVec.toNat e)
  have f1 : fld word 26 6 = 56#6 := (f _ _).trans <| hi (by decide) <| hi (by decide) <| hi (by decide) <| hi (by decide) <| ext_all _
  have f2 : fld word 21 5 = 3#5 := (f _ _).trans <| hi (by decide) <| hi (by decide) <| hi (by decide) <| lo (by decide) (ext_all _)
  have f3 : fld word 18 3 = (BitVec.ofFin (w := 3) pa) := (f _ _).trans <| hi (by decide) <| hi (by decide) <| lo (by decide) (ext_all _)
  have f4 : fld word 12 6 = 0#6 := (f _ _).trans <| hi (by decide) <| lo (by decide) (ext_all _)
  have f5 : fld word 0 12 = idx := (f _ _).trans <| lo (by decide) (ext_all _)
  refine ok_of word _ ?_ h
  rw [raw_38 word f1]; unfold decode38; rw [f2]
  simp only [f3, f4, f5, BitVec.reduceToNat, pregAt, fin3, needZero, beq_self_eq_true, if_true]

theorem RoundTrip.tlbw (pa : PReg) (pb : PReg) : RoundTrip.Statement (.tlbw pa pb) := by
  intro word h e
  have e : (56#6 ++ 5#5 ++ (BitVec.ofFin (w := 3) pa) ++ (BitVec.ofFin (w := 3) pb) ++ 0#15 : BitVec 32) = word := Option.some.inj e
  have f := fld_of (6+5+3+3+15) _ word (congrArg BitVec.toNat e)
  have f1 : fld word 26 6 = 56#6 := (f _ _).trans <| hi (by decide) <| hi (by decide) <| hi (by decide) <| hi (by decide) <| ext_all _
  have f2 : fld word 21 5 = 5#5 := (f _ _).trans <| hi (by decide) <| hi (by decide) <| hi (by decide) <| lo (by decide) (ext_all _)
  have f3 : fld word 18 3 = (BitVec.ofFin (w := 3) pa) := (f _ _).trans <| hi (by decide) <| hi (by decide) <| lo (by decide) (ext_all _)
  have f4 : fld word 15 3 = (BitVec.ofFin (w := 3) pb) := (f _ _).trans <| hi (by decide) <| lo (by decide) (ext_all _)
  have f5 : fld word 0 15 = 0#15 := (f _ _).trans <| lo (by decide) (ext_all _)
  refine ok_of word _ ?_ h
  rw [raw_38 word f1]; unfold decode38; rw [f2]
  simp only [f3, f4, f5, BitVec.reduceToNat, pregAt, fin3, needZero, beq_self_eq_true, if_true]

theorem RoundTrip.tlbi (pa : PReg) (m : BitVec 2) : RoundTrip.Statement (.tlbi pa m) := by
  intro word h e
  have e : (56#6 ++ 6#5 ++ (BitVec.ofFin (w := 3) pa) ++ 0#16 ++ m : BitVec 32) = word := Option.some.inj e
  have f := fld_of (6+5+3+16+2) _ word (congrArg BitVec.toNat e)
  have f1 : fld word 26 6 = 56#6 := (f _ _).trans <| hi (by decide) <| hi (by decide) <| hi (by decide) <| hi (by decide) <| ext_all _
  have f2 : fld word 21 5 = 6#5 := (f _ _).trans <| hi (by decide) <| hi (by decide) <| hi (by decide) <| lo (by decide) (ext_all _)
  have f3 : fld word 18 3 = (BitVec.ofFin (w := 3) pa) := (f _ _).trans <| hi (by decide) <| hi (by decide) <| lo (by decide) (ext_all _)
  have f4 : fld word 2 16 = 0#16 := (f _ _).trans <| hi (by decide) <| lo (by decide) (ext_all _)
  have f5 : fld word 0 2 = m := (f _ _).trans <| lo (by decide) (ext_all _)
  refine ok_of word _ ?_ h
  rw [raw_38 word f1]; unfold decode38; rw [f2]
  simp only [f3, f4, f5, BitVec.reduceToNat, pregAt, fin3, needZero, beq_self_eq_true, if_true]

theorem RoundTrip.pready (pa : PReg) (fail : Bool) (n : BitVec 8) : RoundTrip.Statement (.pready pa fail n) := by
  intro word h e
  have e : (56#6 ++ 7#5 ++ (BitVec.ofFin (w := 3) pa) ++ 0#9 ++ (BitVec.ofBool fail) ++ n : BitVec 32) = word := Option.some.inj e
  have f := fld_of (6+5+3+9+1+8) _ word (congrArg BitVec.toNat e)
  have f1 : fld word 26 6 = 56#6 := (f _ _).trans <| hi (by decide) <| hi (by decide) <| hi (by decide) <| hi (by decide) <| hi (by decide) <| ext_all _
  have f2 : fld word 21 5 = 7#5 := (f _ _).trans <| hi (by decide) <| hi (by decide) <| hi (by decide) <| hi (by decide) <| lo (by decide) (ext_all _)
  have f3 : fld word 18 3 = (BitVec.ofFin (w := 3) pa) := (f _ _).trans <| hi (by decide) <| hi (by decide) <| hi (by decide) <| lo (by decide) (ext_all _)
  have f4 : fld word 9 9 = 0#9 := (f _ _).trans <| hi (by decide) <| hi (by decide) <| lo (by decide) (ext_all _)
  have f5 : fld word 8 1 = (BitVec.ofBool fail) := (f _ _).trans <| hi (by decide) <| lo (by decide) (ext_all _)
  have f6 : fld word 0 8 = n := (f _ _).trans <| lo (by decide) (ext_all _)
  refine ok_of word _ ?_ h
  rw [raw_38 word f1]; unfold decode38; rw [f2]
  simp only [f3, f4, f5, f6, BitVec.reduceToNat, pregAt, fin3, bitAt, bool1, needZero, beq_self_eq_true, if_true]

theorem RoundTrip.ext (payload : BitVec 24) : RoundTrip.Statement (.ext payload) := by
  intro word h e
  have e : (63#6 ++ 0#2 ++ payload : BitVec 32) = word := Option.some.inj e
  have f := fld_of (6+2+24) _ word (congrArg BitVec.toNat e)
  have f1 : fld word 26 6 = 63#6 := (f _ _).trans <| hi (by decide) <| hi (by decide) <| ext_all _
  have f2 : fld word 24 2 = 0#2 := (f _ _).trans <| hi (by decide) <| lo (by decide) (ext_all _)
  have f3 : fld word 0 24 = payload := (f _ _).trans <| lo (by decide) (ext_all _)
  refine ok_of word _ ?_ h
  rw [raw_3F word f1]; unfold decode3F; rw [f2]
  simp only [f3, BitVec.reduceToNat]

theorem RoundTrip.tok (ask : Bool) (askSlot : Fin 4) (nm : Bool) (nmSlot : Fin 4) : RoundTrip.Statement (.tok ask askSlot nm nmSlot) := by
  intro word h e
  have e : (63#6 ++ 1#2 ++ 0#18 ++ (BitVec.ofBool ask) ++ (BitVec.ofFin (w := 2) askSlot) ++ (BitVec.ofBool nm) ++ (BitVec.ofFin (w := 2) nmSlot) : BitVec 32) = word := Option.some.inj e
  have f := fld_of (6+2+18+1+2+1+2) _ word (congrArg BitVec.toNat e)
  have f1 : fld word 26 6 = 63#6 := (f _ _).trans <| hi (by decide) <| hi (by decide) <| hi (by decide) <| hi (by decide) <| hi (by decide) <| hi (by decide) <| ext_all _
  have f2 : fld word 24 2 = 1#2 := (f _ _).trans <| hi (by decide) <| hi (by decide) <| hi (by decide) <| hi (by decide) <| hi (by decide) <| lo (by decide) (ext_all _)
  have f3 : fld word 6 18 = 0#18 := (f _ _).trans <| hi (by decide) <| hi (by decide) <| hi (by decide) <| hi (by decide) <| lo (by decide) (ext_all _)
  have f4 : fld word 5 1 = (BitVec.ofBool ask) := (f _ _).trans <| hi (by decide) <| hi (by decide) <| hi (by decide) <| lo (by decide) (ext_all _)
  have f5 : fld word 3 2 = (BitVec.ofFin (w := 2) askSlot) := (f _ _).trans <| hi (by decide) <| hi (by decide) <| lo (by decide) (ext_all _)
  have f6 : fld word 2 1 = (BitVec.ofBool nm) := (f _ _).trans <| hi (by decide) <| lo (by decide) (ext_all _)
  have f7 : fld word 0 2 = (BitVec.ofFin (w := 2) nmSlot) := (f _ _).trans <| lo (by decide) (ext_all _)
  refine ok_of word _ ?_ h
  rw [raw_3F word f1]; unfold decode3F; rw [f2]
  simp only [f3, f4, f5, f6, f7, BitVec.reduceToNat, bitAt, bool1, needZero, beq_self_eq_true, if_true, fin2]

theorem RoundTrip.ret : RoundTrip.Statement (.ret) := by
  intro word h e
  have e : (6#6 ++ 0#6 ++ 2#4 ++ 0#16 : BitVec 32) = word := Option.some.inj e
  have f := fld_of (6+6+4+16) _ word (congrArg BitVec.toNat e)
  have f1 : fld word 26 6 = 6#6 := (f _ _).trans <| hi (by decide) <| hi (by decide) <| hi (by decide) <| ext_all _
  have f2 : fld word 20 6 = 0#6 := (f _ _).trans <| hi (by decide) <| hi (by decide) <| lo (by decide) (ext_all _)
  have f3 : fld word 16 4 = 2#4 := (f _ _).trans <| hi (by decide) <| lo (by decide) (ext_all _)
  have f4 : fld word 0 16 = 0#16 := (f _ _).trans <| lo (by decide) (ext_all _)
  refine ok_of word _ ?_ h
  rw [raw_06 word f1]; unfold decode06; rw [f3]
  simp only [f2, f4, BitVec.reduceToNat, needZero, beq_self_eq_true, if_true, Bool.and_self]

theorem RoundTrip.vsplat : RoundTrip.Statement (.vsplat) := by
  intro word h e
  have e : (32#6 ++ 10#5 ++ 0#21 : BitVec 32) = word := Option.some.inj e
  have f := fld_of (6+5+21) _ word (congrArg BitVec.toNat e)
  have f1 : fld word 26 6 = 32#6 := (f _ _).trans <| hi (by decide) <| hi (by decide) <| ext_all _
  have f2 : fld word 21 5 = 10#5 := (f _ _).trans <| hi (by decide) <| lo (by decide) (ext_all _)
  have f3 : fld word 0 21 = 0#21 := (f _ _).trans <| lo (by decide) (ext_all _)
  refine ok_of word _ ?_ h
  rw [raw_20 word f1]; unfold decode20; rw [f2]
  simp only [f3, BitVec.reduceToNat, needZero, beq_self_eq_true, if_true]

theorem RoundTrip.vzero : RoundTrip.Statement (.vzero) := by
  intro word h e
  have e : (32#6 ++ 13#5 ++ 0#21 : BitVec 32) = word := Option.some.inj e
  have f := fld_of (6+5+21) _ word (congrArg BitVec.toNat e)
  have f1 : fld word 26 6 = 32#6 := (f _ _).trans <| hi (by decide) <| hi (by decide) <| ext_all _
  have f2 : fld word 21 5 = 13#5 := (f _ _).trans <| hi (by decide) <| lo (by decide) (ext_all _)
  have f3 : fld word 0 21 = 0#21 := (f _ _).trans <| lo (by decide) (ext_all _)
  refine ok_of word _ ?_ h
  rw [raw_20 word f1]; unfold decode20; rw [f2]
  simp only [f3, BitVec.reduceToNat, needZero, beq_self_eq_true, if_true]

theorem RoundTrip.qdrop : RoundTrip.Statement (.qdrop) := by
  intro word h e
  have e : (32#6 ++ 15#5 ++ 0#21 : BitVec 32) = word := Option.some.inj e
  have f := fld_of (6+5+21) _ word (congrArg BitVec.toNat e)
  have f1 : fld word 26 6 = 32#6 := (f _ _).trans <| hi (by decide) <| hi (by decide) <| ext_all _
  have f2 : fld word 21 5 = 15#5 := (f _ _).trans <| hi (by decide) <| lo (by decide) (ext_all _)
  have f3 : fld word 0 21 = 0#21 := (f _ _).trans <| lo (by decide) (ext_all _)
  refine ok_of word _ ?_ h
  rw [raw_20 word f1]; unfold decode20; rw [f2]
  simp only [f3, BitVec.reduceToNat, needZero, beq_self_eq_true, if_true]

theorem RoundTrip.vperm : RoundTrip.Statement (.vperm) := by
  intro word h e
  have e : (33#6 ++ 2#5 ++ 0#21 : BitVec 32) = word := Option.some.inj e
  have f := fld_of (6+5+21) _ word (congrArg BitVec.toNat e)
  have f1 : fld word 26 6 = 33#6 := (f _ _).trans <| hi (by decide) <| hi (by decide) <| ext_all _
  have f2 : fld word 21 5 = 2#5 := (f _ _).trans <| hi (by decide) <| lo (by decide) (ext_all _)
  have f3 : fld word 0 21 = 0#21 := (f _ _).trans <| lo (by decide) (ext_all _)
  refine ok_of word _ ?_ h
  rw [raw_21 word f1]; unfold decode21; rw [f2]
  simp only [f3, BitVec.reduceToNat, needZero, beq_self_eq_true, if_true]

theorem RoundTrip.vcomp : RoundTrip.Statement (.vcomp) := by
  intro word h e
  have e : (33#6 ++ 3#5 ++ 0#21 : BitVec 32) = word := Option.some.inj e
  have f := fld_of (6+5+21) _ word (congrArg BitVec.toNat e)
  have f1 : fld word 26 6 = 33#6 := (f _ _).trans <| hi (by decide) <| hi (by decide) <| ext_all _
  have f2 : fld word 21 5 = 3#5 := (f _ _).trans <| hi (by decide) <| lo (by decide) (ext_all _)
  have f3 : fld word 0 21 = 0#21 := (f _ _).trans <| lo (by decide) (ext_all _)
  refine ok_of word _ ?_ h
  rw [raw_21 word f1]; unfold decode21; rw [f2]
  simp only [f3, BitVec.reduceToNat, needZero, beq_self_eq_true, if_true]

theorem RoundTrip.vexpd : RoundTrip.Statement (.vexpd) := by
  intro word h e
  have e : (33#6 ++ 4#5 ++ 0#21 : BitVec 32) = word := Option.some.inj e
  have f := fld_of (6+5+21) _ word (congrArg BitVec.toNat e)
  have f1 : fld word 26 6 = 33#6 := (f _ _).trans <| hi (by decide) <| hi (by decide) <| ext_all _
  have f2 : fld word 21 5 = 4#5 := (f _ _).trans <| hi (by decide) <| lo (by decide) (ext_all _)
  have f3 : fld word 0 21 = 0#21 := (f _ _).trans <| lo (by decide) (ext_all _)
  refine ok_of word _ ?_ h
  rw [raw_21 word f1]; unfold decode21; rw [f2]
  simp only [f3, BitVec.reduceToNat, needZero, beq_self_eq_true, if_true]

theorem RoundTrip.vrev : RoundTrip.Statement (.vrev) := by
  intro word h e
  have e : (33#6 ++ 5#5 ++ 0#21 : BitVec 32) = word := Option.some.inj e
  have f := fld_of (6+5+21) _ word (congrArg BitVec.toNat e)
  have f1 : fld word 26 6 = 33#6 := (f _ _).trans <| hi (by decide) <| hi (by decide) <| ext_all _
  have f2 : fld word 21 5 = 5#5 := (f _ _).trans <| hi (by decide) <| lo (by decide) (ext_all _)
  have f3 : fld word 0 21 = 0#21 := (f _ _).trans <| lo (by decide) (ext_all _)
  refine ok_of word _ ?_ h
  rw [raw_21 word f1]; unfold decode21; rw [f2]
  simp only [f3, BitVec.reduceToNat, needZero, beq_self_eq_true, if_true]

theorem RoundTrip.kand : RoundTrip.Statement (.kand) := by
  intro word h e
  have e : (33#6 ++ 6#5 ++ 0#21 : BitVec 32) = word := Option.some.inj e
  have f := fld_of (6+5+21) _ word (congrArg BitVec.toNat e)
  have f1 : fld word 26 6 = 33#6 := (f _ _).trans <| hi (by decide) <| hi (by decide) <| ext_all _
  have f2 : fld word 21 5 = 6#5 := (f _ _).trans <| hi (by decide) <| lo (by decide) (ext_all _)
  have f3 : fld word 0 21 = 0#21 := (f _ _).trans <| lo (by decide) (ext_all _)
  refine ok_of word _ ?_ h
  rw [raw_21 word f1]; unfold decode21; rw [f2]
  simp only [f3, BitVec.reduceToNat, needZero, beq_self_eq_true, if_true]

theorem RoundTrip.kor : RoundTrip.Statement (.kor) := by
  intro word h e
  have e : (33#6 ++ 7#5 ++ 0#21 : BitVec 32) = word := Option.some.inj e
  have f := fld_of (6+5+21) _ word (congrArg BitVec.toNat e)
  have f1 : fld word 26 6 = 33#6 := (f _ _).trans <| hi (by decide) <| hi (by decide) <| ext_all _
  have f2 : fld word 21 5 = 7#5 := (f _ _).trans <| hi (by decide) <| lo (by decide) (ext_all _)
  have f3 : fld word 0 21 = 0#21 := (f _ _).trans <| lo (by decide) (ext_all _)
  refine ok_of word _ ?_ h
  rw [raw_21 word f1]; unfold decode21; rw [f2]
  simp only [f3, BitVec.reduceToNat, needZero, beq_self_eq_true, if_true]

theorem RoundTrip.kxor : RoundTrip.Statement (.kxor) := by
  intro word h e
  have e : (33#6 ++ 8#5 ++ 0#21 : BitVec 32) = word := Option.some.inj e
  have f := fld_of (6+5+21) _ word (congrArg BitVec.toNat e)
  have f1 : fld word 26 6 = 33#6 := (f _ _).trans <| hi (by decide) <| hi (by decide) <| ext_all _
  have f2 : fld word 21 5 = 8#5 := (f _ _).trans <| hi (by decide) <| lo (by decide) (ext_all _)
  have f3 : fld word 0 21 = 0#21 := (f _ _).trans <| lo (by decide) (ext_all _)
  refine ok_of word _ ?_ h
  rw [raw_21 word f1]; unfold decode21; rw [f2]
  simp only [f3, BitVec.reduceToNat, needZero, beq_self_eq_true, if_true]

theorem RoundTrip.knot : RoundTrip.Statement (.knot) := by
  intro word h e
  have e : (33#6 ++ 9#5 ++ 0#21 : BitVec 32) = word := Option.some.inj e
  have f := fld_of (6+5+21) _ word (congrArg BitVec.toNat e)
  have f1 : fld word 26 6 = 33#6 := (f _ _).trans <| hi (by decide) <| hi (by decide) <| ext_all _
  have f2 : fld word 21 5 = 9#5 := (f _ _).trans <| hi (by decide) <| lo (by decide) (ext_all _)
  have f3 : fld word 0 21 = 0#21 := (f _ _).trans <| lo (by decide) (ext_all _)
  refine ok_of word _ ?_ h
  rw [raw_21 word f1]; unfold decode21; rw [f2]
  simp only [f3, BitVec.reduceToNat, needZero, beq_self_eq_true, if_true]

theorem RoundTrip.kpop : RoundTrip.Statement (.kpop) := by
  intro word h e
  have e : (33#6 ++ 10#5 ++ 0#21 : BitVec 32) = word := Option.some.inj e
  have f := fld_of (6+5+21) _ word (congrArg BitVec.toNat e)
  have f1 : fld word 26 6 = 33#6 := (f _ _).trans <| hi (by decide) <| hi (by decide) <| ext_all _
  have f2 : fld word 21 5 = 10#5 := (f _ _).trans <| hi (by decide) <| lo (by decide) (ext_all _)
  have f3 : fld word 0 21 = 0#21 := (f _ _).trans <| lo (by decide) (ext_all _)
  refine ok_of word _ ?_ h
  rw [raw_21 word f1]; unfold decode21; rw [f2]
  simp only [f3, BitVec.reduceToNat, needZero, beq_self_eq_true, if_true]

theorem RoundTrip.kffs : RoundTrip.Statement (.kffs) := by
  intro word h e
  have e : (33#6 ++ 11#5 ++ 0#21 : BitVec 32) = word := Option.some.inj e
  have f := fld_of (6+5+21) _ word (congrArg BitVec.toNat e)
  have f1 : fld word 26 6 = 33#6 := (f _ _).trans <| hi (by decide) <| hi (by decide) <| ext_all _
  have f2 : fld word 21 5 = 11#5 := (f _ _).trans <| hi (by decide) <| lo (by decide) (ext_all _)
  have f3 : fld word 0 21 = 0#21 := (f _ _).trans <| lo (by decide) (ext_all _)
  refine ok_of word _ ?_ h
  rw [raw_21 word f1]; unfold decode21; rw [f2]
  simp only [f3, BitVec.reduceToNat, needZero, beq_self_eq_true, if_true]

theorem RoundTrip.done : RoundTrip.Statement (.done) := by
  intro word h e
  have e : (46#6 ++ 3#5 ++ 0#21 : BitVec 32) = word := Option.some.inj e
  have f := fld_of (6+5+21) _ word (congrArg BitVec.toNat e)
  have f1 : fld word 26 6 = 46#6 := (f _ _).trans <| hi (by decide) <| hi (by decide) <| ext_all _
  have f2 : fld word 21 5 = 3#5 := (f _ _).trans <| hi (by decide) <| lo (by decide) (ext_all _)
  have f3 : fld word 0 21 = 0#21 := (f _ _).trans <| lo (by decide) (ext_all _)
  refine ok_of word _ ?_ h
  rw [raw_2E word f1]; unfold decode2E; rw [f2]
  simp only [f3, BitVec.reduceToNat, needZero, beq_self_eq_true, if_true]

theorem RoundTrip.yield : RoundTrip.Statement (.yield) := by
  intro word h e
  have e : (46#6 ++ 4#5 ++ 0#21 : BitVec 32) = word := Option.some.inj e
  have f := fld_of (6+5+21) _ word (congrArg BitVec.toNat e)
  have f1 : fld word 26 6 = 46#6 := (f _ _).trans <| hi (by decide) <| hi (by decide) <| ext_all _
  have f2 : fld word 21 5 = 4#5 := (f _ _).trans <| hi (by decide) <| lo (by decide) (ext_all _)
  have f3 : fld word 0 21 = 0#21 := (f _ _).trans <| lo (by decide) (ext_all _)
  refine ok_of word _ ?_ h
  rw [raw_2E word f1]; unfold decode2E; rw [f2]
  simp only [f3, BitVec.reduceToNat, needZero, beq_self_eq_true, if_true]

theorem RoundTrip.rti : RoundTrip.Statement (.rti) := by
  intro word h e
  have e : (56#6 ++ 1#5 ++ 0#21 : BitVec 32) = word := Option.some.inj e
  have f := fld_of (6+5+21) _ word (congrArg BitVec.toNat e)
  have f1 : fld word 26 6 = 56#6 := (f _ _).trans <| hi (by decide) <| hi (by decide) <| ext_all _
  have f2 : fld word 21 5 = 1#5 := (f _ _).trans <| hi (by decide) <| lo (by decide) (ext_all _)
  have f3 : fld word 0 21 = 0#21 := (f _ _).trans <| lo (by decide) (ext_all _)
  refine ok_of word _ ?_ h
  rw [raw_38 word f1]; unfold decode38; rw [f2]
  simp only [f3, BitVec.reduceToNat, needZero, beq_self_eq_true, if_true]

theorem RoundTrip.ifence : RoundTrip.Statement (.ifence) := by
  intro word h e
  have e : (56#6 ++ 4#5 ++ 0#21 : BitVec 32) = word := Option.some.inj e
  have f := fld_of (6+5+21) _ word (congrArg BitVec.toNat e)
  have f1 : fld word 26 6 = 56#6 := (f _ _).trans <| hi (by decide) <| hi (by decide) <| ext_all _
  have f2 : fld word 21 5 = 4#5 := (f _ _).trans <| hi (by decide) <| lo (by decide) (ext_all _)
  have f3 : fld word 0 21 = 0#21 := (f _ _).trans <| lo (by decide) (ext_all _)
  refine ok_of word _ ?_ h
  rw [raw_38 word f1]; unfold decode38; rw [f2]
  simp only [f3, BitVec.reduceToNat, needZero, beq_self_eq_true, if_true]

theorem RoundTrip.hint : RoundTrip.Statement (.hint) := by
  intro word h e
  have e : (63#6 ++ 2#2 ++ 0#24 : BitVec 32) = word := Option.some.inj e
  have f := fld_of (6+2+24) _ word (congrArg BitVec.toNat e)
  have f1 : fld word 26 6 = 63#6 := (f _ _).trans <| hi (by decide) <| hi (by decide) <| ext_all _
  have f2 : fld word 24 2 = 2#2 := (f _ _).trans <| hi (by decide) <| lo (by decide) (ext_all _)
  have f3 : fld word 20 4 = 0#4 := (f _ _).trans <| lo (by decide) (by decide)
  have f4 : fld word 0 20 = 0#20 := (f _ _).trans <| lo (by decide) (by decide)
  refine ok_of word _ ?_ h
  rw [raw_3F word f1]; unfold decode3F; rw [f2]
  simp only [f3, f4, BitVec.reduceToNat]

  rfl

theorem RoundTrip.fetchLine (slot : SlotId) (line : Word) : RoundTrip.Statement (.fetchLine slot line) := no_word _ rfl

theorem RoundTrip.loadAtPort (who : Requester) (oa : Word) (u : AccUnit) (kind : AccKind) : RoundTrip.Statement (.loadAtPort who oa u kind) := no_word _ rfl

theorem RoundTrip.loadReply (rid : Nat) (ans : LoadAns) : RoundTrip.Statement (.loadReply rid ans) := no_word _ rfl

theorem RoundTrip.storeAccept (who : Requester) (oa : Word) (data : WData) : RoundTrip.Statement (.storeAccept who oa data) := no_word _ rfl

theorem RoundTrip.storePerform (oa : Word) (data : WData) : RoundTrip.Statement (.storePerform oa data) := no_word _ rfl

theorem RoundTrip.tlbwAtHome (mw : Word) (dw : Word) : RoundTrip.Statement (.tlbwAtHome mw dw) := no_word _ rfl

theorem RoundTrip.tlbiAtHome (m : BitVec 2) (arg : Word) : RoundTrip.Statement (.tlbiAtHome m arg) := no_word _ rfl

theorem RoundTrip.shootdownAck (slot : SlotId) : RoundTrip.Statement (.shootdownAck slot) := no_word _ rfl

theorem RoundTrip.pageFault (slot : SlotId) (oa : Word) (p1 : Word) : RoundTrip.Statement (.pageFault slot oa p1) := no_word _ rfl

theorem RoundTrip.preadyAtCell (frame : Word) (rcb : Word) (fail : Bool) (n : BitVec 8) (issuer : Nat) : RoundTrip.Statement (.preadyAtCell frame rcb fail n issuer) := no_word _ rfl

theorem RoundTrip.scrubFrame (x : ScrubAt) : RoundTrip.Statement (.scrubFrame x) := no_word _ rfl

theorem RoundTrip.patrolRead (line : Nat) (struck : List (Fin 144)) : RoundTrip.Statement (.patrolRead line struck) := no_word _ rfl

theorem RoundTrip.csetCisternFill (write : FillAt) : RoundTrip.Statement (.csetCisternFill write) := no_word _ rfl

theorem RoundTrip.fillModeEntered : RoundTrip.Statement (.fillModeEntered) := no_word _ rfl

theorem RoundTrip.csetCisternServe (cell : Fin 64) : RoundTrip.Statement (.csetCisternServe cell) := no_word _ rfl

theorem RoundTrip.serveModeReturn : RoundTrip.Statement (.serveModeReturn) := no_word _ rfl

theorem RoundTrip.refreshWindowStart (tick : Word) : RoundTrip.Statement (.refreshWindowStart tick) := no_word _ rfl

theorem RoundTrip.refreshWindowEnd (tick : Word) : RoundTrip.Statement (.refreshWindowEnd tick) := no_word _ rfl

theorem RoundTrip.eventPost (kind : BitVec 8) (code : Code) (lcell : BitVec 15) (user : Word) (addr : Word) (detail : Word) : RoundTrip.Statement (.eventPost kind code lcell user addr detail) := no_word _ rfl

theorem RoundTrip.csetEvqHead (head : BitVec 9) : RoundTrip.Statement (.csetEvqHead head) := no_word _ rfl

theorem RoundTrip.tlbctlEnable : RoundTrip.Statement (.tlbctlEnable) := no_word _ rfl

theorem RoundTrip.walkQueueEnter (ent : WalkEnt) : RoundTrip.Statement (.walkQueueEnter ent) := no_word _ rfl

theorem RoundTrip.lampWalk : RoundTrip.Statement (.lampWalk) := no_word _ rfl

theorem RoundTrip.watchAtOwner (req : WatchReq) : RoundTrip.Statement (.watchAtOwner req) := no_word _ rfl

theorem RoundTrip.watchReplace (rid : Nat) : RoundTrip.Statement (.watchReplace rid) := no_word _ rfl

theorem RoundTrip.watchAnswer (w : WatchAt) (ans : WatchAns) : RoundTrip.Statement (.watchAnswer w ans) := no_word _ rfl

theorem RoundTrip.barsetCheck (who : Requester) (rect : BitVec 32) : RoundTrip.Statement (.barsetCheck who rect) := no_word _ rfl

theorem RoundTrip.barrierSignal (b : Fin 4) (rect : BitVec 32) (sig : BarSig) (err : Bool) : RoundTrip.Statement (.barrierSignal b rect sig err) := no_word _ rfl

theorem RoundTrip.barrierRelease (b : Fin 4) (rect : BitVec 32) (err : Bool) : RoundTrip.Statement (.barrierRelease b rect err) := no_word _ rfl

theorem RoundTrip.depositAtOwner (req : DepositReq) : RoundTrip.Statement (.depositAtOwner req) := no_word _ rfl

theorem RoundTrip.atomicRequestArrival (req : AtomReq) : RoundTrip.Statement (.atomicRequestArrival req) := no_word _ rfl

theorem RoundTrip.atomicRun : RoundTrip.Statement (.atomicRun) := no_word _ rfl

theorem RoundTrip.atomicOverrun : RoundTrip.Statement (.atomicOverrun) := no_word _ rfl

theorem RoundTrip.atomicReply (rid : Nat) (entry : QEntry) : RoundTrip.Statement (.atomicReply rid entry) := no_word _ rfl

theorem RoundTrip.positiveReply (rid : Nat) : RoundTrip.Statement (.positiveReply rid) := no_word _ rfl

theorem RoundTrip.negativeReply (rid : Nat) (code : Code) (oa : Option Word) : RoundTrip.Statement (.negativeReply rid code oa) := no_word _ rfl

theorem RoundTrip.landingAck (token : BitVec 24) : RoundTrip.Statement (.landingAck token) := no_word _ rfl

theorem RoundTrip.tokenExpiry (token : BitVec 24) : RoundTrip.Statement (.tokenExpiry token) := no_word _ rfl

theorem RoundTrip.heldMessageArrival (held : HeldMsg) : RoundTrip.Statement (.heldMessageArrival held) := no_word _ rfl

theorem RoundTrip.releaseNotice (token : BitVec 24) (count : RelCount) : RoundTrip.Statement (.releaseNotice token count) := no_word _ rfl

theorem RoundTrip.cancelNotice (token : BitVec 24) : RoundTrip.Statement (.cancelNotice token) := no_word _ rfl

theorem RoundTrip.holdTimerExpiry (token : BitVec 24) (hid : Nat) : RoundTrip.Statement (.holdTimerExpiry token hid) := no_word _ rfl

theorem RoundTrip.releaseRecordExpiry (token : BitVec 24) : RoundTrip.Statement (.releaseRecordExpiry token) := no_word _ rfl

theorem RoundTrip.messageArrival (who : Requester) (msg : Msg) (tok : BitVec 24) : RoundTrip.Statement (.messageArrival who msg tok) := no_word _ rfl

theorem RoundTrip.pumpReplay : RoundTrip.Statement (.pumpReplay) := no_word _ rfl

theorem RoundTrip.yieldBufferSend (slot : Fin 4) : RoundTrip.Statement (.yieldBufferSend slot) := no_word _ rfl

theorem RoundTrip.selection (slot : Fin 4) : RoundTrip.Statement (.selection slot) := no_word _ rfl

theorem RoundTrip.grantRequest (rcb : Word) (who : Requester) (what : GrantKind) : RoundTrip.Statement (.grantRequest rcb who what) := no_word _ rfl

theorem RoundTrip.grantArrival (reg : Fin 8) (what : GrantKind) (amount : Nat) : RoundTrip.Statement (.grantArrival reg what amount) := no_word _ rfl

theorem RoundTrip.activationReport (about : ReportAt) (starts : Nat) (ends : Nat) (cycles : Nat) : RoundTrip.Statement (.activationReport about starts ends cycles) := no_word _ rfl

theorem RoundTrip.regionLaunch (rcb : Word) (who : Requester) (tok : BitVec 24) : RoundTrip.Statement (.regionLaunch rcb who tok) := no_word _ rfl

theorem RoundTrip.handlerInstall (record : InstallRec) (who : Requester) : RoundTrip.Statement (.handlerInstall record who) := no_word _ rfl

theorem RoundTrip.regionPause (rcb : Word) (who : Requester) (tok : BitVec 24) (reason : BitVec 8) : RoundTrip.Statement (.regionPause rcb who tok reason) := no_word _ rfl

theorem RoundTrip.pauseAtCell (rcb : Word) : RoundTrip.Statement (.pauseAtCell rcb) := no_word _ rfl

theorem RoundTrip.regionResume (rcb : Word) (who : Requester) (tok : BitVec 24) : RoundTrip.Statement (.regionResume rcb who tok) := no_word _ rfl

theorem RoundTrip.regionEnd (rcb : Word) (who : Requester) (tok : BitVec 24) : RoundTrip.Statement (.regionEnd rcb who tok) := no_word _ rfl

theorem RoundTrip.endAtCell (rcb : Word) : RoundTrip.Statement (.endAtCell rcb) := no_word _ rfl

theorem RoundTrip.retryResend (rid : Nat) : RoundTrip.Statement (.retryResend rid) := no_word _ rfl

theorem RoundTrip.evict (rcb : Word) (rect : BitVec 32) (ptn : BitVec 24) : RoundTrip.Statement (.evict rcb rect ptn) := no_word _ rfl

theorem RoundTrip.evictionQuiesced : RoundTrip.Statement (.evictionQuiesced) := no_word _ rfl

theorem RoundTrip.restore (rcb : Word) (rect : BitVec 32) (ptn : BitVec 24) : RoundTrip.Statement (.restore rcb rect ptn) := no_word _ rfl

theorem RoundTrip.matrixCommandStart (c : CmdAt) : RoundTrip.Statement (.matrixCommandStart c) := no_word _ rfl

theorem RoundTrip.matrixTile (c : CmdAt) : RoundTrip.Statement (.matrixTile c) := no_word _ rfl

theorem RoundTrip.pullStart : RoundTrip.Statement (.pullStart) := no_word _ rfl

theorem RoundTrip.pullAccess (c : CmdAt) (ans : Option LoadAns) : RoundTrip.Statement (.pullAccess c ans) := no_word _ rfl

theorem RoundTrip.collStart : RoundTrip.Statement (.collStart) := no_word _ rfl

theorem RoundTrip.collStep (peer : CollAt) (ans : CollPeer) : RoundTrip.Statement (.collStep peer ans) := no_word _ rfl

theorem RoundTrip.memberLost (rank : Fin 64) : RoundTrip.Statement (.memberLost rank) := no_word _ rfl

theorem RoundTrip.fabricSlot (peers : List (Option PortSlot)) : RoundTrip.Statement (.fabricSlot peers) := no_word _ rfl

theorem RoundTrip.flitReceive (port : Fin 32) (flit : Flit) (check : RxCheck) : RoundTrip.Statement (.flitReceive port flit check) := no_word _ rfl

theorem RoundTrip.laneHealthWindow (port : Fin 32) (corr : List (BitVec 16)) (repl : BitVec 16) (mism : BitVec 8) : RoundTrip.Statement (.laneHealthWindow port corr repl mism) := no_word _ rfl

theorem RoundTrip.lostDeclaration (ppkg : BitVec 18) (seq : BitVec 20) : RoundTrip.Statement (.lostDeclaration ppkg seq) := no_word _ rfl

theorem RoundTrip.farFrameReceive (frame : FarFrame) : RoundTrip.Statement (.farFrameReceive frame) := no_word _ rfl

theorem RoundTrip.farRetransmit (peer : Nat) (counter : Nat) : RoundTrip.Statement (.farRetransmit peer counter) := no_word _ rfl

theorem RoundTrip.farSessionOpen (peer : Nat) (hello : PeerHello) (slot0 : BitVec 256) : RoundTrip.Statement (.farSessionOpen peer hello slot0) := no_word _ rfl

theorem RoundTrip.farRekey (peer : Nat) : RoundTrip.Statement (.farRekey peer) := no_word _ rfl

theorem RoundTrip.hostSharedRead (agent : HostAgent) (line : Nat) (half : Bool) : RoundTrip.Statement (.hostSharedRead agent line half) := no_word _ rfl

theorem RoundTrip.hostOwnershipRead (agent : HostAgent) (line : Nat) (half : Bool) : RoundTrip.Statement (.hostOwnershipRead agent line half) := no_word _ rfl

theorem RoundTrip.hostWriteback (agent : HostAgent) (line : Nat) (half : Bool) (data : List Byte) : RoundTrip.Statement (.hostWriteback agent line half data) := no_word _ rfl

theorem RoundTrip.hostWrite (agent : HostAgent) (addr : Nat) (data : List Byte) : RoundTrip.Statement (.hostWrite agent addr data) := no_word _ rfl

theorem RoundTrip.snoopResponse (agent : HostAgent) (line : Nat) (half : Bool) (dirty : Option (List Byte)) (keep : Bool) : RoundTrip.Statement (.snoopResponse agent line half dirty keep) := no_word _ rfl

theorem RoundTrip.placeTableWrite (target : MbTarget) (value : Word) : RoundTrip.Statement (.placeTableWrite target value) := no_word _ rfl

theorem RoundTrip.vfpairWrite (n : Fin 16) (value : Word) : RoundTrip.Statement (.vfpairWrite n value) := no_word _ rfl

theorem RoundTrip.hcwinWrite (n : Fin 16) (value : Word) : RoundTrip.Statement (.hcwinWrite n value) := no_word _ rfl

theorem RoundTrip.fabswitchWrite (value : Word) : RoundTrip.Statement (.fabswitchWrite value) := no_word _ rfl

theorem RoundTrip.farPeerWrite (peer : Nat) (word : Fin 8) (value : Word) : RoundTrip.Statement (.farPeerWrite peer word value) := no_word _ rfl

theorem RoundTrip.hostRegisterWrite (target : MbTarget) (value : Word) : RoundTrip.Statement (.hostRegisterWrite target value) := no_word _ rfl

theorem RoundTrip.registerRead (target : MbTarget) : RoundTrip.Statement (.registerRead target) := no_word _ rfl

theorem RoundTrip.create (world : BitVec 24) (ckey : BitVec 6) (kind : CompKind) : RoundTrip.Statement (.create world ckey kind) := no_word _ rfl

theorem RoundTrip.destroy (world : BitVec 24) (ckey : BitVec 6) : RoundTrip.Statement (.destroy world ckey) := no_word _ rfl

theorem RoundTrip.keyLoad (world : BitVec 24) (ckey : BitVec 6) (kem : List Byte) (wrapped : List Byte) : RoundTrip.Statement (.keyLoad world ckey kem wrapped) := no_word _ rfl

theorem RoundTrip.gate (world : BitVec 24) (index : Fin 16) (entry : Word) : RoundTrip.Statement (.gate world index entry) := no_word _ rfl

theorem RoundTrip.evidence (world : BitVec 24) (nonce : BitVec 256) (buf : BitVec 64) (len : Nat) : RoundTrip.Statement (.evidence world nonce buf len) := no_word _ rfl

theorem RoundTrip.peers (values : List (BitVec 256)) : RoundTrip.Statement (.peers values) := no_word _ rfl

theorem RoundTrip.handOver (image : List Byte) (rcb : OwnAt) (world : BitVec 24) : RoundTrip.Statement (.handOver image rcb world) := no_word _ rfl

theorem RoundTrip.powerRun (die : BitVec 3) (pclu : BitVec 6) (freq : BitVec 12) : RoundTrip.Statement (.powerRun die pclu freq) := no_word _ rfl

theorem RoundTrip.powerHold (die : BitVec 3) (pclu : BitVec 6) (freq : BitVec 12) : RoundTrip.Statement (.powerHold die pclu freq) := no_word _ rfl

theorem RoundTrip.powerOff (die : BitVec 3) (pclu : BitVec 6) (freq : BitVec 12) : RoundTrip.Statement (.powerOff die pclu freq) := no_word _ rfl

theorem RoundTrip.clockChangeDone : RoundTrip.Statement (.clockChangeDone) := no_word _ rfl

theorem RoundTrip.exportPage (ckey : CkeyAt) (vpn : BitVec 17) (host : Word) : RoundTrip.Statement (.exportPage ckey vpn host) := no_word _ rfl

theorem RoundTrip.importPage (ckey : CkeyAt) (vpn : BitVec 17) (image : List Byte) (frame : BitVec 16) : RoundTrip.Statement (.importPage ckey vpn image frame) := no_word _ rfl

theorem RoundTrip.declareLost (ppkg : BitVec 18) : RoundTrip.Statement (.declareLost ppkg) := no_word _ rfl

theorem RoundTrip.mbRegionCommand (rcb : Word) (ptn : BitVec 24) (k : BitVec 4) : RoundTrip.Statement (.mbRegionCommand rcb ptn k) := no_word _ rfl

theorem RoundTrip.packageReset : RoundTrip.Statement (.packageReset) := no_word _ rfl

theorem RoundTrip.securityCoreMismatch : RoundTrip.Statement (.securityCoreMismatch) := no_word _ rfl

theorem RoundTrip.illegalInstruction (w : BitVec 32) : RoundTrip.Statement (.illegalInstruction w) := no_word _ rfl

theorem RoundTrip.evheadWrite (port : Bool) (acc : DvsecAccess) : RoundTrip.Statement (.evheadWrite port acc) := no_word _ rfl

theorem RoundTrip.rdcurrFill (line : Nat) (data : List Byte) : RoundTrip.Statement (.rdcurrFill line data) := no_word _ rfl

theorem RoundTrip.hostPortTrains (port : Bool) (cxl : Bool) : RoundTrip.Statement (.hostPortTrains port cxl) := no_word _ rfl

end Sys2Proof.Laws
end

