-- ==== Sys2Proof/Laws/State.lean ====
section
/-!
SUPPORT. One lemma for each field that an update of the state or of a slot sets or leaves, so that later proofs unfold no record update.
-/
namespace Sys2Proof.Machine

/-! ### `State.setAct` -/

@[simp] theorem State.setAct_self (s : State) (a : Act) : (s.setAct a).self = s.self := rfl
@[simp] theorem State.setAct_cur (s : State) (a : Act) : (s.setAct a).cur = s.cur := rfl
@[simp] theorem State.setAct_act (s : State) (a : Act) : (s.setAct a).act = a := rfl
@[simp] theorem State.setAct_slots (s : State) (a : Act) : (s.setAct a).slots = s.slots := rfl
@[simp] theorem State.setAct_ahead (s : State) (a : Act) : (s.setAct a).ahead = s.ahead := rfl
@[simp] theorem State.setAct_lastSlot (s : State) (a : Act) : (s.setAct a).lastSlot = s.lastSlot := rfl
@[simp] theorem State.setAct_cells (s : State) (a : Act) : (s.setAct a).cells = s.cells := rfl
@[simp] theorem State.setAct_phys (s : State) (a : Act) : (s.setAct a).phys = s.phys := rfl
@[simp] theorem State.setAct_lastSel (s : State) (a : Act) : (s.setAct a).lastSel = s.lastSel := rfl
@[simp] theorem State.setAct_replies (s : State) (a : Act) : (s.setAct a).replies = s.replies := rfl
@[simp] theorem State.setAct_toks (s : State) (a : Act) : (s.setAct a).toks = s.toks := rfl
@[simp] theorem State.setAct_tokSeq (s : State) (a : Act) : (s.setAct a).tokSeq = s.tokSeq := rfl
@[simp] theorem State.setAct_parked (s : State) (a : Act) : (s.setAct a).parked = s.parked := rfl
@[simp] theorem State.setAct_inbox (s : State) (a : Act) : (s.setAct a).inbox = s.inbox := rfl
@[simp] theorem State.setAct_mesh (s : State) (a : Act) : (s.setAct a).mesh = s.mesh := rfl
@[simp] theorem State.setAct_yieldBuf (s : State) (a : Act) : (s.setAct a).yieldBuf = s.yieldBuf := rfl
@[simp] theorem State.setAct_pumpNext (s : State) (a : Act) : (s.setAct a).pumpNext = s.pumpNext := rfl
@[simp] theorem State.setAct_pumping (s : State) (a : Act) : (s.setAct a).pumping = s.pumping := rfl
@[simp] theorem State.setAct_pumpWant (s : State) (a : Act) : (s.setAct a).pumpWant = s.pumpWant := rfl
@[simp] theorem State.setAct_pumpRetry (s : State) (a : Act) : (s.setAct a).pumpRetry = s.pumpRetry := rfl
@[simp] theorem State.setAct_pumpWait (s : State) (a : Act) : (s.setAct a).pumpWait = s.pumpWait := rfl
@[simp] theorem State.setAct_orderPages (s : State) (a : Act) : (s.setAct a).orderPages = s.orderPages := rfl
@[simp] theorem State.setAct_acquiring (s : State) (a : Act) : (s.setAct a).acquiring = s.acquiring := rfl
@[simp] theorem State.setAct_atomQ (s : State) (a : Act) : (s.setAct a).atomQ = s.atomQ := rfl
@[simp] theorem State.setAct_atomRun (s : State) (a : Act) : (s.setAct a).atomRun = s.atomRun := rfl
@[simp] theorem State.setAct_atomNow (s : State) (a : Act) : (s.setAct a).atomNow = s.atomNow := rfl
@[simp] theorem State.setAct_atomOld (s : State) (a : Act) : (s.setAct a).atomOld = s.atomOld := rfl
@[simp] theorem State.setAct_trying (s : State) (a : Act) : (s.setAct a).trying = s.trying := rfl
@[simp] theorem State.setAct_pulls (s : State) (a : Act) : (s.setAct a).pulls = s.pulls := rfl
@[simp] theorem State.setAct_colls (s : State) (a : Act) : (s.setAct a).colls = s.colls := rfl
@[simp] theorem State.setAct_mx (s : State) (a : Act) : (s.setAct a).mx = s.mx := rfl
@[simp] theorem State.setAct_joins (s : State) (a : Act) : (s.setAct a).joins = s.joins := rfl
@[simp] theorem State.setAct_nextRid (s : State) (a : Act) : (s.setAct a).nextRid = s.nextRid := rfl
@[simp] theorem State.setAct_nextAid (s : State) (a : Act) : (s.setAct a).nextAid = s.nextAid := rfl
@[simp] theorem State.setAct_mem (s : State) (a : Act) : (s.setAct a).mem = s.mem := rfl
@[simp] theorem State.setAct_cl (s : State) (a : Act) : (s.setAct a).cl = s.cl := rfl
@[simp] theorem State.setAct_pkg (s : State) (a : Act) : (s.setAct a).pkg = s.pkg := rfl
@[simp] theorem State.setAct_agenda (s : State) (a : Act) : (s.setAct a).agenda = s.agenda := rfl
@[simp] theorem State.setAct_world (s : State) (a : Act) : (s.setAct a).world = s.world := rfl
@[simp] theorem State.setAct_mbHeld (s : State) (a : Act) : (s.setAct a).mbHeld = s.mbHeld := rfl
@[simp] theorem State.setAct_saved (s : State) (a : Act) : (s.setAct a).saved = s.saved := rfl
@[simp] theorem State.setAct_out (s : State) (a : Act) : (s.setAct a).out = s.out := rfl
@[simp] theorem State.setAct_free (s : State) (a : Act) : (s.setAct a).free = s.free := rfl

/-! ### `State.mapAct` -/

@[simp] theorem State.mapAct_self (s : State) (f : Act → Act) : (s.mapAct f).self = s.self := rfl
@[simp] theorem State.mapAct_cur (s : State) (f : Act → Act) : (s.mapAct f).cur = s.cur := rfl
@[simp] theorem State.mapAct_act (s : State) (f : Act → Act) : (s.mapAct f).act = f s.act := rfl
@[simp] theorem State.mapAct_slots (s : State) (f : Act → Act) : (s.mapAct f).slots = s.slots := rfl
@[simp] theorem State.mapAct_ahead (s : State) (f : Act → Act) : (s.mapAct f).ahead = s.ahead := rfl
@[simp] theorem State.mapAct_lastSlot (s : State) (f : Act → Act) : (s.mapAct f).lastSlot = s.lastSlot := rfl
@[simp] theorem State.mapAct_cells (s : State) (f : Act → Act) : (s.mapAct f).cells = s.cells := rfl
@[simp] theorem State.mapAct_phys (s : State) (f : Act → Act) : (s.mapAct f).phys = s.phys := rfl
@[simp] theorem State.mapAct_lastSel (s : State) (f : Act → Act) : (s.mapAct f).lastSel = s.lastSel := rfl
@[simp] theorem State.mapAct_replies (s : State) (f : Act → Act) : (s.mapAct f).replies = s.replies := rfl
@[simp] theorem State.mapAct_toks (s : State) (f : Act → Act) : (s.mapAct f).toks = s.toks := rfl
@[simp] theorem State.mapAct_tokSeq (s : State) (f : Act → Act) : (s.mapAct f).tokSeq = s.tokSeq := rfl
@[simp] theorem State.mapAct_parked (s : State) (f : Act → Act) : (s.mapAct f).parked = s.parked := rfl
@[simp] theorem State.mapAct_inbox (s : State) (f : Act → Act) : (s.mapAct f).inbox = s.inbox := rfl
@[simp] theorem State.mapAct_mesh (s : State) (f : Act → Act) : (s.mapAct f).mesh = s.mesh := rfl
@[simp] theorem State.mapAct_yieldBuf (s : State) (f : Act → Act) : (s.mapAct f).yieldBuf = s.yieldBuf := rfl
@[simp] theorem State.mapAct_pumpNext (s : State) (f : Act → Act) : (s.mapAct f).pumpNext = s.pumpNext := rfl
@[simp] theorem State.mapAct_pumping (s : State) (f : Act → Act) : (s.mapAct f).pumping = s.pumping := rfl
@[simp] theorem State.mapAct_pumpWant (s : State) (f : Act → Act) : (s.mapAct f).pumpWant = s.pumpWant := rfl
@[simp] theorem State.mapAct_pumpRetry (s : State) (f : Act → Act) : (s.mapAct f).pumpRetry = s.pumpRetry := rfl
@[simp] theorem State.mapAct_pumpWait (s : State) (f : Act → Act) : (s.mapAct f).pumpWait = s.pumpWait := rfl
@[simp] theorem State.mapAct_orderPages (s : State) (f : Act → Act) : (s.mapAct f).orderPages = s.orderPages := rfl
@[simp] theorem State.mapAct_acquiring (s : State) (f : Act → Act) : (s.mapAct f).acquiring = s.acquiring := rfl
@[simp] theorem State.mapAct_atomQ (s : State) (f : Act → Act) : (s.mapAct f).atomQ = s.atomQ := rfl
@[simp] theorem State.mapAct_atomRun (s : State) (f : Act → Act) : (s.mapAct f).atomRun = s.atomRun := rfl
@[simp] theorem State.mapAct_atomNow (s : State) (f : Act → Act) : (s.mapAct f).atomNow = s.atomNow := rfl
@[simp] theorem State.mapAct_atomOld (s : State) (f : Act → Act) : (s.mapAct f).atomOld = s.atomOld := rfl
@[simp] theorem State.mapAct_trying (s : State) (f : Act → Act) : (s.mapAct f).trying = s.trying := rfl
@[simp] theorem State.mapAct_pulls (s : State) (f : Act → Act) : (s.mapAct f).pulls = s.pulls := rfl
@[simp] theorem State.mapAct_colls (s : State) (f : Act → Act) : (s.mapAct f).colls = s.colls := rfl
@[simp] theorem State.mapAct_mx (s : State) (f : Act → Act) : (s.mapAct f).mx = s.mx := rfl
@[simp] theorem State.mapAct_joins (s : State) (f : Act → Act) : (s.mapAct f).joins = s.joins := rfl
@[simp] theorem State.mapAct_nextRid (s : State) (f : Act → Act) : (s.mapAct f).nextRid = s.nextRid := rfl
@[simp] theorem State.mapAct_nextAid (s : State) (f : Act → Act) : (s.mapAct f).nextAid = s.nextAid := rfl
@[simp] theorem State.mapAct_mem (s : State) (f : Act → Act) : (s.mapAct f).mem = s.mem := rfl
@[simp] theorem State.mapAct_cl (s : State) (f : Act → Act) : (s.mapAct f).cl = s.cl := rfl
@[simp] theorem State.mapAct_pkg (s : State) (f : Act → Act) : (s.mapAct f).pkg = s.pkg := rfl
@[simp] theorem State.mapAct_agenda (s : State) (f : Act → Act) : (s.mapAct f).agenda = s.agenda := rfl
@[simp] theorem State.mapAct_world (s : State) (f : Act → Act) : (s.mapAct f).world = s.world := rfl
@[simp] theorem State.mapAct_mbHeld (s : State) (f : Act → Act) : (s.mapAct f).mbHeld = s.mbHeld := rfl
@[simp] theorem State.mapAct_saved (s : State) (f : Act → Act) : (s.mapAct f).saved = s.saved := rfl
@[simp] theorem State.mapAct_out (s : State) (f : Act → Act) : (s.mapAct f).out = s.out := rfl
@[simp] theorem State.mapAct_free (s : State) (f : Act → Act) : (s.mapAct f).free = s.free := rfl

/-! ### `State.setCell` -/

@[simp] theorem State.setCell_self (s : State) (n : Fin 64) (c : CellRegs) : (s.setCell n c).self = s.self := rfl
@[simp] theorem State.setCell_cur (s : State) (n : Fin 64) (c : CellRegs) : (s.setCell n c).cur = s.cur := rfl
@[simp] theorem State.setCell_act (s : State) (n : Fin 64) (c : CellRegs) : (s.setCell n c).act = s.act := rfl
@[simp] theorem State.setCell_slots (s : State) (n : Fin 64) (c : CellRegs) : (s.setCell n c).slots = s.slots := rfl
@[simp] theorem State.setCell_ahead (s : State) (n : Fin 64) (c : CellRegs) : (s.setCell n c).ahead = s.ahead := rfl
@[simp] theorem State.setCell_lastSlot (s : State) (n : Fin 64) (c : CellRegs) : (s.setCell n c).lastSlot = s.lastSlot := rfl
@[simp] theorem State.setCell_cells (s : State) (n : Fin 64) (c : CellRegs) : (s.setCell n c).cells = s.cells.set n c := rfl
@[simp] theorem State.setCell_phys (s : State) (n : Fin 64) (c : CellRegs) : (s.setCell n c).phys = s.phys := rfl
@[simp] theorem State.setCell_lastSel (s : State) (n : Fin 64) (c : CellRegs) : (s.setCell n c).lastSel = s.lastSel := rfl
@[simp] theorem State.setCell_replies (s : State) (n : Fin 64) (c : CellRegs) : (s.setCell n c).replies = s.replies := rfl
@[simp] theorem State.setCell_toks (s : State) (n : Fin 64) (c : CellRegs) : (s.setCell n c).toks = s.toks := rfl
@[simp] theorem State.setCell_tokSeq (s : State) (n : Fin 64) (c : CellRegs) : (s.setCell n c).tokSeq = s.tokSeq := rfl
@[simp] theorem State.setCell_parked (s : State) (n : Fin 64) (c : CellRegs) : (s.setCell n c).parked = s.parked := rfl
@[simp] theorem State.setCell_inbox (s : State) (n : Fin 64) (c : CellRegs) : (s.setCell n c).inbox = s.inbox := rfl
@[simp] theorem State.setCell_mesh (s : State) (n : Fin 64) (c : CellRegs) : (s.setCell n c).mesh = s.mesh := rfl
@[simp] theorem State.setCell_yieldBuf (s : State) (n : Fin 64) (c : CellRegs) : (s.setCell n c).yieldBuf = s.yieldBuf := rfl
@[simp] theorem State.setCell_pumpNext (s : State) (n : Fin 64) (c : CellRegs) : (s.setCell n c).pumpNext = s.pumpNext := rfl
@[simp] theorem State.setCell_pumping (s : State) (n : Fin 64) (c : CellRegs) : (s.setCell n c).pumping = s.pumping := rfl
@[simp] theorem State.setCell_pumpWant (s : State) (n : Fin 64) (c : CellRegs) : (s.setCell n c).pumpWant = s.pumpWant := rfl
@[simp] theorem State.setCell_pumpRetry (s : State) (n : Fin 64) (c : CellRegs) : (s.setCell n c).pumpRetry = s.pumpRetry := rfl
@[simp] theorem State.setCell_pumpWait (s : State) (n : Fin 64) (c : CellRegs) : (s.setCell n c).pumpWait = s.pumpWait := rfl
@[simp] theorem State.setCell_orderPages (s : State) (n : Fin 64) (c : CellRegs) : (s.setCell n c).orderPages = s.orderPages := rfl
@[simp] theorem State.setCell_acquiring (s : State) (n : Fin 64) (c : CellRegs) : (s.setCell n c).acquiring = s.acquiring := rfl
@[simp] theorem State.setCell_atomQ (s : State) (n : Fin 64) (c : CellRegs) : (s.setCell n c).atomQ = s.atomQ := rfl
@[simp] theorem State.setCell_atomRun (s : State) (n : Fin 64) (c : CellRegs) : (s.setCell n c).atomRun = s.atomRun := rfl
@[simp] theorem State.setCell_atomNow (s : State) (n : Fin 64) (c : CellRegs) : (s.setCell n c).atomNow = s.atomNow := rfl
@[simp] theorem State.setCell_atomOld (s : State) (n : Fin 64) (c : CellRegs) : (s.setCell n c).atomOld = s.atomOld := rfl
@[simp] theorem State.setCell_trying (s : State) (n : Fin 64) (c : CellRegs) : (s.setCell n c).trying = s.trying := rfl
@[simp] theorem State.setCell_pulls (s : State) (n : Fin 64) (c : CellRegs) : (s.setCell n c).pulls = s.pulls := rfl
@[simp] theorem State.setCell_colls (s : State) (n : Fin 64) (c : CellRegs) : (s.setCell n c).colls = s.colls := rfl
@[simp] theorem State.setCell_mx (s : State) (n : Fin 64) (c : CellRegs) : (s.setCell n c).mx = s.mx := rfl
@[simp] theorem State.setCell_joins (s : State) (n : Fin 64) (c : CellRegs) : (s.setCell n c).joins = s.joins := rfl
@[simp] theorem State.setCell_nextRid (s : State) (n : Fin 64) (c : CellRegs) : (s.setCell n c).nextRid = s.nextRid := rfl
@[simp] theorem State.setCell_nextAid (s : State) (n : Fin 64) (c : CellRegs) : (s.setCell n c).nextAid = s.nextAid := rfl
@[simp] theorem State.setCell_mem (s : State) (n : Fin 64) (c : CellRegs) : (s.setCell n c).mem = s.mem := rfl
@[simp] theorem State.setCell_cl (s : State) (n : Fin 64) (c : CellRegs) : (s.setCell n c).cl = s.cl := rfl
@[simp] theorem State.setCell_pkg (s : State) (n : Fin 64) (c : CellRegs) : (s.setCell n c).pkg = s.pkg := rfl
@[simp] theorem State.setCell_agenda (s : State) (n : Fin 64) (c : CellRegs) : (s.setCell n c).agenda = s.agenda := rfl
@[simp] theorem State.setCell_world (s : State) (n : Fin 64) (c : CellRegs) : (s.setCell n c).world = s.world := rfl
@[simp] theorem State.setCell_mbHeld (s : State) (n : Fin 64) (c : CellRegs) : (s.setCell n c).mbHeld = s.mbHeld := rfl
@[simp] theorem State.setCell_saved (s : State) (n : Fin 64) (c : CellRegs) : (s.setCell n c).saved = s.saved := rfl
@[simp] theorem State.setCell_out (s : State) (n : Fin 64) (c : CellRegs) : (s.setCell n c).out = s.out := rfl
@[simp] theorem State.setCell_free (s : State) (n : Fin 64) (c : CellRegs) : (s.setCell n c).free = s.free := rfl

/-! ### `State.mapMe` -/

@[simp] theorem State.mapMe_self (s : State) (f : CellRegs → CellRegs) : (s.mapMe f).self = s.self := rfl
@[simp] theorem State.mapMe_cur (s : State) (f : CellRegs → CellRegs) : (s.mapMe f).cur = s.cur := rfl
@[simp] theorem State.mapMe_act (s : State) (f : CellRegs → CellRegs) : (s.mapMe f).act = s.act := rfl
@[simp] theorem State.mapMe_slots (s : State) (f : CellRegs → CellRegs) : (s.mapMe f).slots = s.slots := rfl
@[simp] theorem State.mapMe_ahead (s : State) (f : CellRegs → CellRegs) : (s.mapMe f).ahead = s.ahead := rfl
@[simp] theorem State.mapMe_lastSlot (s : State) (f : CellRegs → CellRegs) : (s.mapMe f).lastSlot = s.lastSlot := rfl
@[simp] theorem State.mapMe_cells (s : State) (f : CellRegs → CellRegs) : (s.mapMe f).cells = s.cells.set s.self (f s.me) := rfl
@[simp] theorem State.mapMe_phys (s : State) (f : CellRegs → CellRegs) : (s.mapMe f).phys = s.phys := rfl
@[simp] theorem State.mapMe_lastSel (s : State) (f : CellRegs → CellRegs) : (s.mapMe f).lastSel = s.lastSel := rfl
@[simp] theorem State.mapMe_replies (s : State) (f : CellRegs → CellRegs) : (s.mapMe f).replies = s.replies := rfl
@[simp] theorem State.mapMe_toks (s : State) (f : CellRegs → CellRegs) : (s.mapMe f).toks = s.toks := rfl
@[simp] theorem State.mapMe_tokSeq (s : State) (f : CellRegs → CellRegs) : (s.mapMe f).tokSeq = s.tokSeq := rfl
@[simp] theorem State.mapMe_parked (s : State) (f : CellRegs → CellRegs) : (s.mapMe f).parked = s.parked := rfl
@[simp] theorem State.mapMe_inbox (s : State) (f : CellRegs → CellRegs) : (s.mapMe f).inbox = s.inbox := rfl
@[simp] theorem State.mapMe_mesh (s : State) (f : CellRegs → CellRegs) : (s.mapMe f).mesh = s.mesh := rfl
@[simp] theorem State.mapMe_yieldBuf (s : State) (f : CellRegs → CellRegs) : (s.mapMe f).yieldBuf = s.yieldBuf := rfl
@[simp] theorem State.mapMe_pumpNext (s : State) (f : CellRegs → CellRegs) : (s.mapMe f).pumpNext = s.pumpNext := rfl
@[simp] theorem State.mapMe_pumping (s : State) (f : CellRegs → CellRegs) : (s.mapMe f).pumping = s.pumping := rfl
@[simp] theorem State.mapMe_pumpWant (s : State) (f : CellRegs → CellRegs) : (s.mapMe f).pumpWant = s.pumpWant := rfl
@[simp] theorem State.mapMe_pumpRetry (s : State) (f : CellRegs → CellRegs) : (s.mapMe f).pumpRetry = s.pumpRetry := rfl
@[simp] theorem State.mapMe_pumpWait (s : State) (f : CellRegs → CellRegs) : (s.mapMe f).pumpWait = s.pumpWait := rfl
@[simp] theorem State.mapMe_orderPages (s : State) (f : CellRegs → CellRegs) : (s.mapMe f).orderPages = s.orderPages := rfl
@[simp] theorem State.mapMe_acquiring (s : State) (f : CellRegs → CellRegs) : (s.mapMe f).acquiring = s.acquiring := rfl
@[simp] theorem State.mapMe_atomQ (s : State) (f : CellRegs → CellRegs) : (s.mapMe f).atomQ = s.atomQ := rfl
@[simp] theorem State.mapMe_atomRun (s : State) (f : CellRegs → CellRegs) : (s.mapMe f).atomRun = s.atomRun := rfl
@[simp] theorem State.mapMe_atomNow (s : State) (f : CellRegs → CellRegs) : (s.mapMe f).atomNow = s.atomNow := rfl
@[simp] theorem State.mapMe_atomOld (s : State) (f : CellRegs → CellRegs) : (s.mapMe f).atomOld = s.atomOld := rfl
@[simp] theorem State.mapMe_trying (s : State) (f : CellRegs → CellRegs) : (s.mapMe f).trying = s.trying := rfl
@[simp] theorem State.mapMe_pulls (s : State) (f : CellRegs → CellRegs) : (s.mapMe f).pulls = s.pulls := rfl
@[simp] theorem State.mapMe_colls (s : State) (f : CellRegs → CellRegs) : (s.mapMe f).colls = s.colls := rfl
@[simp] theorem State.mapMe_mx (s : State) (f : CellRegs → CellRegs) : (s.mapMe f).mx = s.mx := rfl
@[simp] theorem State.mapMe_joins (s : State) (f : CellRegs → CellRegs) : (s.mapMe f).joins = s.joins := rfl
@[simp] theorem State.mapMe_nextRid (s : State) (f : CellRegs → CellRegs) : (s.mapMe f).nextRid = s.nextRid := rfl
@[simp] theorem State.mapMe_nextAid (s : State) (f : CellRegs → CellRegs) : (s.mapMe f).nextAid = s.nextAid := rfl
@[simp] theorem State.mapMe_mem (s : State) (f : CellRegs → CellRegs) : (s.mapMe f).mem = s.mem := rfl
@[simp] theorem State.mapMe_cl (s : State) (f : CellRegs → CellRegs) : (s.mapMe f).cl = s.cl := rfl
@[simp] theorem State.mapMe_pkg (s : State) (f : CellRegs → CellRegs) : (s.mapMe f).pkg = s.pkg := rfl
@[simp] theorem State.mapMe_agenda (s : State) (f : CellRegs → CellRegs) : (s.mapMe f).agenda = s.agenda := rfl
@[simp] theorem State.mapMe_world (s : State) (f : CellRegs → CellRegs) : (s.mapMe f).world = s.world := rfl
@[simp] theorem State.mapMe_mbHeld (s : State) (f : CellRegs → CellRegs) : (s.mapMe f).mbHeld = s.mbHeld := rfl
@[simp] theorem State.mapMe_saved (s : State) (f : CellRegs → CellRegs) : (s.mapMe f).saved = s.saved := rfl
@[simp] theorem State.mapMe_out (s : State) (f : CellRegs → CellRegs) : (s.mapMe f).out = s.out := rfl
@[simp] theorem State.mapMe_free (s : State) (f : CellRegs → CellRegs) : (s.mapMe f).free = s.free := rfl

/-! ### `State.mapReg` -/

@[simp] theorem State.mapReg_self (s : State) (r : Fin 8) (f : RegEntry → RegEntry) : (s.mapReg r f).self = s.self := rfl
@[simp] theorem State.mapReg_cur (s : State) (r : Fin 8) (f : RegEntry → RegEntry) : (s.mapReg r f).cur = s.cur := rfl
@[simp] theorem State.mapReg_act (s : State) (r : Fin 8) (f : RegEntry → RegEntry) : (s.mapReg r f).act = s.act := rfl
@[simp] theorem State.mapReg_slots (s : State) (r : Fin 8) (f : RegEntry → RegEntry) : (s.mapReg r f).slots = s.slots := rfl
@[simp] theorem State.mapReg_ahead (s : State) (r : Fin 8) (f : RegEntry → RegEntry) : (s.mapReg r f).ahead = s.ahead := rfl
@[simp] theorem State.mapReg_lastSlot (s : State) (r : Fin 8) (f : RegEntry → RegEntry) : (s.mapReg r f).lastSlot = s.lastSlot := rfl
@[simp] theorem State.mapReg_phys (s : State) (r : Fin 8) (f : RegEntry → RegEntry) : (s.mapReg r f).phys = s.phys := rfl
@[simp] theorem State.mapReg_lastSel (s : State) (r : Fin 8) (f : RegEntry → RegEntry) : (s.mapReg r f).lastSel = s.lastSel := rfl
@[simp] theorem State.mapReg_replies (s : State) (r : Fin 8) (f : RegEntry → RegEntry) : (s.mapReg r f).replies = s.replies := rfl
@[simp] theorem State.mapReg_toks (s : State) (r : Fin 8) (f : RegEntry → RegEntry) : (s.mapReg r f).toks = s.toks := rfl
@[simp] theorem State.mapReg_tokSeq (s : State) (r : Fin 8) (f : RegEntry → RegEntry) : (s.mapReg r f).tokSeq = s.tokSeq := rfl
@[simp] theorem State.mapReg_parked (s : State) (r : Fin 8) (f : RegEntry → RegEntry) : (s.mapReg r f).parked = s.parked := rfl
@[simp] theorem State.mapReg_inbox (s : State) (r : Fin 8) (f : RegEntry → RegEntry) : (s.mapReg r f).inbox = s.inbox := rfl
@[simp] theorem State.mapReg_mesh (s : State) (r : Fin 8) (f : RegEntry → RegEntry) : (s.mapReg r f).mesh = s.mesh := rfl
@[simp] theorem State.mapReg_yieldBuf (s : State) (r : Fin 8) (f : RegEntry → RegEntry) : (s.mapReg r f).yieldBuf = s.yieldBuf := rfl
@[simp] theorem State.mapReg_pumpNext (s : State) (r : Fin 8) (f : RegEntry → RegEntry) : (s.mapReg r f).pumpNext = s.pumpNext := rfl
@[simp] theorem State.mapReg_pumping (s : State) (r : Fin 8) (f : RegEntry → RegEntry) : (s.mapReg r f).pumping = s.pumping := rfl
@[simp] theorem State.mapReg_pumpWant (s : State) (r : Fin 8) (f : RegEntry → RegEntry) : (s.mapReg r f).pumpWant = s.pumpWant := rfl
@[simp] theorem State.mapReg_pumpRetry (s : State) (r : Fin 8) (f : RegEntry → RegEntry) : (s.mapReg r f).pumpRetry = s.pumpRetry := rfl
@[simp] theorem State.mapReg_pumpWait (s : State) (r : Fin 8) (f : RegEntry → RegEntry) : (s.mapReg r f).pumpWait = s.pumpWait := rfl
@[simp] theorem State.mapReg_orderPages (s : State) (r : Fin 8) (f : RegEntry → RegEntry) : (s.mapReg r f).orderPages = s.orderPages := rfl
@[simp] theorem State.mapReg_acquiring (s : State) (r : Fin 8) (f : RegEntry → RegEntry) : (s.mapReg r f).acquiring = s.acquiring := rfl
@[simp] theorem State.mapReg_atomQ (s : State) (r : Fin 8) (f : RegEntry → RegEntry) : (s.mapReg r f).atomQ = s.atomQ := rfl
@[simp] theorem State.mapReg_atomRun (s : State) (r : Fin 8) (f : RegEntry → RegEntry) : (s.mapReg r f).atomRun = s.atomRun := rfl
@[simp] theorem State.mapReg_atomNow (s : State) (r : Fin 8) (f : RegEntry → RegEntry) : (s.mapReg r f).atomNow = s.atomNow := rfl
@[simp] theorem State.mapReg_atomOld (s : State) (r : Fin 8) (f : RegEntry → RegEntry) : (s.mapReg r f).atomOld = s.atomOld := rfl
@[simp] theorem State.mapReg_trying (s : State) (r : Fin 8) (f : RegEntry → RegEntry) : (s.mapReg r f).trying = s.trying := rfl
@[simp] theorem State.mapReg_pulls (s : State) (r : Fin 8) (f : RegEntry → RegEntry) : (s.mapReg r f).pulls = s.pulls := rfl
@[simp] theorem State.mapReg_colls (s : State) (r : Fin 8) (f : RegEntry → RegEntry) : (s.mapReg r f).colls = s.colls := rfl
@[simp] theorem State.mapReg_mx (s : State) (r : Fin 8) (f : RegEntry → RegEntry) : (s.mapReg r f).mx = s.mx := rfl
@[simp] theorem State.mapReg_joins (s : State) (r : Fin 8) (f : RegEntry → RegEntry) : (s.mapReg r f).joins = s.joins := rfl
@[simp] theorem State.mapReg_nextRid (s : State) (r : Fin 8) (f : RegEntry → RegEntry) : (s.mapReg r f).nextRid = s.nextRid := rfl
@[simp] theorem State.mapReg_nextAid (s : State) (r : Fin 8) (f : RegEntry → RegEntry) : (s.mapReg r f).nextAid = s.nextAid := rfl
@[simp] theorem State.mapReg_mem (s : State) (r : Fin 8) (f : RegEntry → RegEntry) : (s.mapReg r f).mem = s.mem := rfl
@[simp] theorem State.mapReg_cl (s : State) (r : Fin 8) (f : RegEntry → RegEntry) : (s.mapReg r f).cl = s.cl := rfl
@[simp] theorem State.mapReg_pkg (s : State) (r : Fin 8) (f : RegEntry → RegEntry) : (s.mapReg r f).pkg = s.pkg := rfl
@[simp] theorem State.mapReg_agenda (s : State) (r : Fin 8) (f : RegEntry → RegEntry) : (s.mapReg r f).agenda = s.agenda := rfl
@[simp] theorem State.mapReg_world (s : State) (r : Fin 8) (f : RegEntry → RegEntry) : (s.mapReg r f).world = s.world := rfl
@[simp] theorem State.mapReg_mbHeld (s : State) (r : Fin 8) (f : RegEntry → RegEntry) : (s.mapReg r f).mbHeld = s.mbHeld := rfl
@[simp] theorem State.mapReg_saved (s : State) (r : Fin 8) (f : RegEntry → RegEntry) : (s.mapReg r f).saved = s.saved := rfl
@[simp] theorem State.mapReg_out (s : State) (r : Fin 8) (f : RegEntry → RegEntry) : (s.mapReg r f).out = s.out := rfl
@[simp] theorem State.mapReg_free (s : State) (r : Fin 8) (f : RegEntry → RegEntry) : (s.mapReg r f).free = s.free := rfl

/-! ### `State.emit` -/

@[simp] theorem State.emit_self (s : State) (m : OutMsg) : (s.emit m).self = s.self := rfl
@[simp] theorem State.emit_cur (s : State) (m : OutMsg) : (s.emit m).cur = s.cur := rfl
@[simp] theorem State.emit_act (s : State) (m : OutMsg) : (s.emit m).act = s.act := rfl
@[simp] theorem State.emit_slots (s : State) (m : OutMsg) : (s.emit m).slots = s.slots := rfl
@[simp] theorem State.emit_ahead (s : State) (m : OutMsg) : (s.emit m).ahead = s.ahead := rfl
@[simp] theorem State.emit_lastSlot (s : State) (m : OutMsg) : (s.emit m).lastSlot = s.lastSlot := rfl
@[simp] theorem State.emit_cells (s : State) (m : OutMsg) : (s.emit m).cells = s.cells := rfl
@[simp] theorem State.emit_phys (s : State) (m : OutMsg) : (s.emit m).phys = s.phys := rfl
@[simp] theorem State.emit_lastSel (s : State) (m : OutMsg) : (s.emit m).lastSel = s.lastSel := rfl
@[simp] theorem State.emit_replies (s : State) (m : OutMsg) : (s.emit m).replies = s.replies := rfl
@[simp] theorem State.emit_toks (s : State) (m : OutMsg) : (s.emit m).toks = s.toks := rfl
@[simp] theorem State.emit_tokSeq (s : State) (m : OutMsg) : (s.emit m).tokSeq = s.tokSeq := rfl
@[simp] theorem State.emit_parked (s : State) (m : OutMsg) : (s.emit m).parked = s.parked := rfl
@[simp] theorem State.emit_inbox (s : State) (m : OutMsg) : (s.emit m).inbox = s.inbox := rfl
@[simp] theorem State.emit_mesh (s : State) (m : OutMsg) : (s.emit m).mesh = s.mesh := rfl
@[simp] theorem State.emit_yieldBuf (s : State) (m : OutMsg) : (s.emit m).yieldBuf = s.yieldBuf := rfl
@[simp] theorem State.emit_pumpNext (s : State) (m : OutMsg) : (s.emit m).pumpNext = s.pumpNext := rfl
@[simp] theorem State.emit_pumping (s : State) (m : OutMsg) : (s.emit m).pumping = s.pumping := rfl
@[simp] theorem State.emit_pumpWant (s : State) (m : OutMsg) : (s.emit m).pumpWant = s.pumpWant := rfl
@[simp] theorem State.emit_pumpRetry (s : State) (m : OutMsg) : (s.emit m).pumpRetry = s.pumpRetry := rfl
@[simp] theorem State.emit_pumpWait (s : State) (m : OutMsg) : (s.emit m).pumpWait = s.pumpWait := rfl
@[simp] theorem State.emit_orderPages (s : State) (m : OutMsg) : (s.emit m).orderPages = s.orderPages := rfl
@[simp] theorem State.emit_acquiring (s : State) (m : OutMsg) : (s.emit m).acquiring = s.acquiring := rfl
@[simp] theorem State.emit_atomQ (s : State) (m : OutMsg) : (s.emit m).atomQ = s.atomQ := rfl
@[simp] theorem State.emit_atomRun (s : State) (m : OutMsg) : (s.emit m).atomRun = s.atomRun := rfl
@[simp] theorem State.emit_atomNow (s : State) (m : OutMsg) : (s.emit m).atomNow = s.atomNow := rfl
@[simp] theorem State.emit_atomOld (s : State) (m : OutMsg) : (s.emit m).atomOld = s.atomOld := rfl
@[simp] theorem State.emit_trying (s : State) (m : OutMsg) : (s.emit m).trying = s.trying := rfl
@[simp] theorem State.emit_pulls (s : State) (m : OutMsg) : (s.emit m).pulls = s.pulls := rfl
@[simp] theorem State.emit_colls (s : State) (m : OutMsg) : (s.emit m).colls = s.colls := rfl
@[simp] theorem State.emit_mx (s : State) (m : OutMsg) : (s.emit m).mx = s.mx := rfl
@[simp] theorem State.emit_joins (s : State) (m : OutMsg) : (s.emit m).joins = s.joins := rfl
@[simp] theorem State.emit_nextRid (s : State) (m : OutMsg) : (s.emit m).nextRid = s.nextRid := rfl
@[simp] theorem State.emit_nextAid (s : State) (m : OutMsg) : (s.emit m).nextAid = s.nextAid := rfl
@[simp] theorem State.emit_mem (s : State) (m : OutMsg) : (s.emit m).mem = s.mem := rfl
@[simp] theorem State.emit_cl (s : State) (m : OutMsg) : (s.emit m).cl = s.cl := rfl
@[simp] theorem State.emit_pkg (s : State) (m : OutMsg) : (s.emit m).pkg = s.carry 0 (s.addressed m) none := rfl
@[simp] theorem State.emit_agenda (s : State) (m : OutMsg) : (s.emit m).agenda = s.agenda := rfl
@[simp] theorem State.emit_world (s : State) (m : OutMsg) : (s.emit m).world = s.world := rfl
@[simp] theorem State.emit_mbHeld (s : State) (m : OutMsg) : (s.emit m).mbHeld = s.mbHeld := rfl
@[simp] theorem State.emit_saved (s : State) (m : OutMsg) : (s.emit m).saved = s.saved := rfl
@[simp] theorem State.emit_out (s : State) (m : OutMsg) : (s.emit m).out = s.addressed m :: s.out := rfl
@[simp] theorem State.emit_free (s : State) (m : OutMsg) : (s.emit m).free = s.free := rfl

/-! ### `State.push` -/

@[simp] theorem State.push_self (s : State) (t : Todo) : (s.push t).self = s.self := rfl
@[simp] theorem State.push_cur (s : State) (t : Todo) : (s.push t).cur = s.cur := rfl
@[simp] theorem State.push_act (s : State) (t : Todo) : (s.push t).act = s.act := rfl
@[simp] theorem State.push_slots (s : State) (t : Todo) : (s.push t).slots = s.slots := rfl
@[simp] theorem State.push_ahead (s : State) (t : Todo) : (s.push t).ahead = s.ahead := rfl
@[simp] theorem State.push_lastSlot (s : State) (t : Todo) : (s.push t).lastSlot = s.lastSlot := rfl
@[simp] theorem State.push_cells (s : State) (t : Todo) : (s.push t).cells = s.cells := rfl
@[simp] theorem State.push_phys (s : State) (t : Todo) : (s.push t).phys = s.phys := rfl
@[simp] theorem State.push_lastSel (s : State) (t : Todo) : (s.push t).lastSel = s.lastSel := rfl
@[simp] theorem State.push_replies (s : State) (t : Todo) : (s.push t).replies = s.replies := rfl
@[simp] theorem State.push_toks (s : State) (t : Todo) : (s.push t).toks = s.toks := rfl
@[simp] theorem State.push_tokSeq (s : State) (t : Todo) : (s.push t).tokSeq = s.tokSeq := rfl
@[simp] theorem State.push_parked (s : State) (t : Todo) : (s.push t).parked = s.parked := rfl
@[simp] theorem State.push_inbox (s : State) (t : Todo) : (s.push t).inbox = s.inbox := rfl
@[simp] theorem State.push_mesh (s : State) (t : Todo) : (s.push t).mesh = s.mesh := rfl
@[simp] theorem State.push_yieldBuf (s : State) (t : Todo) : (s.push t).yieldBuf = s.yieldBuf := rfl
@[simp] theorem State.push_pumpNext (s : State) (t : Todo) : (s.push t).pumpNext = s.pumpNext := rfl
@[simp] theorem State.push_pumping (s : State) (t : Todo) : (s.push t).pumping = s.pumping := rfl
@[simp] theorem State.push_pumpWant (s : State) (t : Todo) : (s.push t).pumpWant = s.pumpWant := rfl
@[simp] theorem State.push_pumpRetry (s : State) (t : Todo) : (s.push t).pumpRetry = s.pumpRetry := rfl
@[simp] theorem State.push_pumpWait (s : State) (t : Todo) : (s.push t).pumpWait = s.pumpWait := rfl
@[simp] theorem State.push_orderPages (s : State) (t : Todo) : (s.push t).orderPages = s.orderPages := rfl
@[simp] theorem State.push_acquiring (s : State) (t : Todo) : (s.push t).acquiring = s.acquiring := rfl
@[simp] theorem State.push_atomQ (s : State) (t : Todo) : (s.push t).atomQ = s.atomQ := rfl
@[simp] theorem State.push_atomRun (s : State) (t : Todo) : (s.push t).atomRun = s.atomRun := rfl
@[simp] theorem State.push_atomNow (s : State) (t : Todo) : (s.push t).atomNow = s.atomNow := rfl
@[simp] theorem State.push_atomOld (s : State) (t : Todo) : (s.push t).atomOld = s.atomOld := rfl
@[simp] theorem State.push_trying (s : State) (t : Todo) : (s.push t).trying = s.trying := rfl
@[simp] theorem State.push_pulls (s : State) (t : Todo) : (s.push t).pulls = s.pulls := rfl
@[simp] theorem State.push_colls (s : State) (t : Todo) : (s.push t).colls = s.colls := rfl
@[simp] theorem State.push_mx (s : State) (t : Todo) : (s.push t).mx = s.mx := rfl
@[simp] theorem State.push_joins (s : State) (t : Todo) : (s.push t).joins = s.joins := rfl
@[simp] theorem State.push_nextRid (s : State) (t : Todo) : (s.push t).nextRid = s.nextRid := rfl
@[simp] theorem State.push_nextAid (s : State) (t : Todo) : (s.push t).nextAid = s.nextAid := rfl
@[simp] theorem State.push_mem (s : State) (t : Todo) : (s.push t).mem = s.mem := rfl
@[simp] theorem State.push_cl (s : State) (t : Todo) : (s.push t).cl = s.cl := rfl
@[simp] theorem State.push_pkg (s : State) (t : Todo) : (s.push t).pkg = s.pkg := rfl
@[simp] theorem State.push_agenda (s : State) (t : Todo) : (s.push t).agenda = s.agenda ++ [t] := rfl
@[simp] theorem State.push_world (s : State) (t : Todo) : (s.push t).world = s.world := rfl
@[simp] theorem State.push_mbHeld (s : State) (t : Todo) : (s.push t).mbHeld = s.mbHeld := rfl
@[simp] theorem State.push_saved (s : State) (t : Todo) : (s.push t).saved = s.saved := rfl
@[simp] theorem State.push_out (s : State) (t : Todo) : (s.push t).out = s.out := rfl
@[simp] theorem State.push_free (s : State) (t : Todo) : (s.push t).free = s.free := rfl

/-! ### `State.hold` -/

@[simp] theorem State.hold_self (s : State) (t : Todo) : (s.hold t).self = s.self := rfl
@[simp] theorem State.hold_cur (s : State) (t : Todo) : (s.hold t).cur = s.cur := rfl
@[simp] theorem State.hold_act (s : State) (t : Todo) : (s.hold t).act = s.act := rfl
@[simp] theorem State.hold_slots (s : State) (t : Todo) : (s.hold t).slots = s.slots := rfl
@[simp] theorem State.hold_ahead (s : State) (t : Todo) : (s.hold t).ahead = s.ahead := rfl
@[simp] theorem State.hold_lastSlot (s : State) (t : Todo) : (s.hold t).lastSlot = s.lastSlot := rfl
@[simp] theorem State.hold_cells (s : State) (t : Todo) : (s.hold t).cells = s.cells := rfl
@[simp] theorem State.hold_phys (s : State) (t : Todo) : (s.hold t).phys = s.phys := rfl
@[simp] theorem State.hold_lastSel (s : State) (t : Todo) : (s.hold t).lastSel = s.lastSel := rfl
@[simp] theorem State.hold_replies (s : State) (t : Todo) : (s.hold t).replies = s.replies := rfl
@[simp] theorem State.hold_toks (s : State) (t : Todo) : (s.hold t).toks = s.toks := rfl
@[simp] theorem State.hold_tokSeq (s : State) (t : Todo) : (s.hold t).tokSeq = s.tokSeq := rfl
@[simp] theorem State.hold_parked (s : State) (t : Todo) : (s.hold t).parked = s.parked := rfl
@[simp] theorem State.hold_inbox (s : State) (t : Todo) : (s.hold t).inbox = s.inbox := rfl
@[simp] theorem State.hold_mesh (s : State) (t : Todo) : (s.hold t).mesh = s.mesh := rfl
@[simp] theorem State.hold_yieldBuf (s : State) (t : Todo) : (s.hold t).yieldBuf = s.yieldBuf := rfl
@[simp] theorem State.hold_pumpNext (s : State) (t : Todo) : (s.hold t).pumpNext = s.pumpNext := rfl
@[simp] theorem State.hold_pumping (s : State) (t : Todo) : (s.hold t).pumping = s.pumping := rfl
@[simp] theorem State.hold_pumpWant (s : State) (t : Todo) : (s.hold t).pumpWant = s.pumpWant := rfl
@[simp] theorem State.hold_pumpRetry (s : State) (t : Todo) : (s.hold t).pumpRetry = s.pumpRetry := rfl
@[simp] theorem State.hold_pumpWait (s : State) (t : Todo) : (s.hold t).pumpWait = s.pumpWait := rfl
@[simp] theorem State.hold_orderPages (s : State) (t : Todo) : (s.hold t).orderPages = s.orderPages := rfl
@[simp] theorem State.hold_acquiring (s : State) (t : Todo) : (s.hold t).acquiring = s.acquiring := rfl
@[simp] theorem State.hold_atomQ (s : State) (t : Todo) : (s.hold t).atomQ = s.atomQ := rfl
@[simp] theorem State.hold_atomRun (s : State) (t : Todo) : (s.hold t).atomRun = s.atomRun := rfl
@[simp] theorem State.hold_atomNow (s : State) (t : Todo) : (s.hold t).atomNow = s.atomNow := rfl
@[simp] theorem State.hold_atomOld (s : State) (t : Todo) : (s.hold t).atomOld = s.atomOld := rfl
@[simp] theorem State.hold_trying (s : State) (t : Todo) : (s.hold t).trying = s.trying := rfl
@[simp] theorem State.hold_pulls (s : State) (t : Todo) : (s.hold t).pulls = s.pulls := rfl
@[simp] theorem State.hold_colls (s : State) (t : Todo) : (s.hold t).colls = s.colls := rfl
@[simp] theorem State.hold_mx (s : State) (t : Todo) : (s.hold t).mx = s.mx := rfl
@[simp] theorem State.hold_joins (s : State) (t : Todo) : (s.hold t).joins = s.joins := rfl
@[simp] theorem State.hold_nextRid (s : State) (t : Todo) : (s.hold t).nextRid = s.nextRid := rfl
@[simp] theorem State.hold_nextAid (s : State) (t : Todo) : (s.hold t).nextAid = s.nextAid := rfl
@[simp] theorem State.hold_mem (s : State) (t : Todo) : (s.hold t).mem = s.mem := rfl
@[simp] theorem State.hold_pkg (s : State) (t : Todo) : (s.hold t).pkg = s.pkg := rfl
@[simp] theorem State.hold_agenda (s : State) (t : Todo) : (s.hold t).agenda = s.agenda := rfl
@[simp] theorem State.hold_world (s : State) (t : Todo) : (s.hold t).world = s.world := rfl
@[simp] theorem State.hold_mbHeld (s : State) (t : Todo) : (s.hold t).mbHeld = s.mbHeld := rfl
@[simp] theorem State.hold_saved (s : State) (t : Todo) : (s.hold t).saved = s.saved := rfl
@[simp] theorem State.hold_out (s : State) (t : Todo) : (s.hold t).out = s.out := rfl
@[simp] theorem State.hold_free (s : State) (t : Todo) : (s.hold t).free = s.free := rfl

/-! ### `State.setMx` -/

@[simp] theorem State.setMx_self (s : State) (m : Matrix) : (s.setMx m).self = s.self := rfl
@[simp] theorem State.setMx_cur (s : State) (m : Matrix) : (s.setMx m).cur = s.cur := rfl
@[simp] theorem State.setMx_act (s : State) (m : Matrix) : (s.setMx m).act = s.act := rfl
@[simp] theorem State.setMx_slots (s : State) (m : Matrix) : (s.setMx m).slots = s.slots := rfl
@[simp] theorem State.setMx_ahead (s : State) (m : Matrix) : (s.setMx m).ahead = s.ahead := rfl
@[simp] theorem State.setMx_lastSlot (s : State) (m : Matrix) : (s.setMx m).lastSlot = s.lastSlot := rfl
@[simp] theorem State.setMx_cells (s : State) (m : Matrix) : (s.setMx m).cells = s.cells := rfl
@[simp] theorem State.setMx_phys (s : State) (m : Matrix) : (s.setMx m).phys = s.phys := rfl
@[simp] theorem State.setMx_lastSel (s : State) (m : Matrix) : (s.setMx m).lastSel = s.lastSel := rfl
@[simp] theorem State.setMx_replies (s : State) (m : Matrix) : (s.setMx m).replies = s.replies := rfl
@[simp] theorem State.setMx_toks (s : State) (m : Matrix) : (s.setMx m).toks = s.toks := rfl
@[simp] theorem State.setMx_tokSeq (s : State) (m : Matrix) : (s.setMx m).tokSeq = s.tokSeq := rfl
@[simp] theorem State.setMx_parked (s : State) (m : Matrix) : (s.setMx m).parked = s.parked := rfl
@[simp] theorem State.setMx_inbox (s : State) (m : Matrix) : (s.setMx m).inbox = s.inbox := rfl
@[simp] theorem State.setMx_mesh (s : State) (m : Matrix) : (s.setMx m).mesh = s.mesh := rfl
@[simp] theorem State.setMx_yieldBuf (s : State) (m : Matrix) : (s.setMx m).yieldBuf = s.yieldBuf := rfl
@[simp] theorem State.setMx_pumpNext (s : State) (m : Matrix) : (s.setMx m).pumpNext = s.pumpNext := rfl
@[simp] theorem State.setMx_pumping (s : State) (m : Matrix) : (s.setMx m).pumping = s.pumping := rfl
@[simp] theorem State.setMx_pumpWant (s : State) (m : Matrix) : (s.setMx m).pumpWant = s.pumpWant := rfl
@[simp] theorem State.setMx_pumpRetry (s : State) (m : Matrix) : (s.setMx m).pumpRetry = s.pumpRetry := rfl
@[simp] theorem State.setMx_pumpWait (s : State) (m : Matrix) : (s.setMx m).pumpWait = s.pumpWait := rfl
@[simp] theorem State.setMx_orderPages (s : State) (m : Matrix) : (s.setMx m).orderPages = s.orderPages := rfl
@[simp] theorem State.setMx_acquiring (s : State) (m : Matrix) : (s.setMx m).acquiring = s.acquiring := rfl
@[simp] theorem State.setMx_atomQ (s : State) (m : Matrix) : (s.setMx m).atomQ = s.atomQ := rfl
@[simp] theorem State.setMx_atomRun (s : State) (m : Matrix) : (s.setMx m).atomRun = s.atomRun := rfl
@[simp] theorem State.setMx_atomNow (s : State) (m : Matrix) : (s.setMx m).atomNow = s.atomNow := rfl
@[simp] theorem State.setMx_atomOld (s : State) (m : Matrix) : (s.setMx m).atomOld = s.atomOld := rfl
@[simp] theorem State.setMx_trying (s : State) (m : Matrix) : (s.setMx m).trying = s.trying := rfl
@[simp] theorem State.setMx_pulls (s : State) (m : Matrix) : (s.setMx m).pulls = s.pulls := rfl
@[simp] theorem State.setMx_colls (s : State) (m : Matrix) : (s.setMx m).colls = s.colls := rfl
@[simp] theorem State.setMx_mx (s : State) (m : Matrix) : (s.setMx m).mx = m := rfl
@[simp] theorem State.setMx_joins (s : State) (m : Matrix) : (s.setMx m).joins = s.joins := rfl
@[simp] theorem State.setMx_nextRid (s : State) (m : Matrix) : (s.setMx m).nextRid = s.nextRid := rfl
@[simp] theorem State.setMx_nextAid (s : State) (m : Matrix) : (s.setMx m).nextAid = s.nextAid := rfl
@[simp] theorem State.setMx_mem (s : State) (m : Matrix) : (s.setMx m).mem = s.mem := rfl
@[simp] theorem State.setMx_cl (s : State) (m : Matrix) : (s.setMx m).cl = s.cl := rfl
@[simp] theorem State.setMx_pkg (s : State) (m : Matrix) : (s.setMx m).pkg = s.pkg := rfl
@[simp] theorem State.setMx_agenda (s : State) (m : Matrix) : (s.setMx m).agenda = s.agenda := rfl
@[simp] theorem State.setMx_world (s : State) (m : Matrix) : (s.setMx m).world = s.world := rfl
@[simp] theorem State.setMx_mbHeld (s : State) (m : Matrix) : (s.setMx m).mbHeld = s.mbHeld := rfl
@[simp] theorem State.setMx_saved (s : State) (m : Matrix) : (s.setMx m).saved = s.saved := rfl
@[simp] theorem State.setMx_out (s : State) (m : Matrix) : (s.setMx m).out = s.out := rfl
@[simp] theorem State.setMx_free (s : State) (m : Matrix) : (s.setMx m).free = s.free := rfl

/-! ### `State.unblock` -/

@[simp] theorem State.unblock_self (s : State)  : (s.unblock).self = s.self := rfl
@[simp] theorem State.unblock_cur (s : State)  : (s.unblock).cur = s.cur := rfl
@[simp] theorem State.unblock_ahead (s : State)  : (s.unblock).ahead = s.ahead := rfl
@[simp] theorem State.unblock_lastSlot (s : State)  : (s.unblock).lastSlot = s.lastSlot := rfl
@[simp] theorem State.unblock_cells (s : State)  : (s.unblock).cells = s.cells := rfl
@[simp] theorem State.unblock_phys (s : State)  : (s.unblock).phys = s.phys := rfl
@[simp] theorem State.unblock_lastSel (s : State)  : (s.unblock).lastSel = s.lastSel := rfl
@[simp] theorem State.unblock_replies (s : State)  : (s.unblock).replies = s.replies := rfl
@[simp] theorem State.unblock_toks (s : State)  : (s.unblock).toks = s.toks := rfl
@[simp] theorem State.unblock_tokSeq (s : State)  : (s.unblock).tokSeq = s.tokSeq := rfl
@[simp] theorem State.unblock_parked (s : State)  : (s.unblock).parked = s.parked := rfl
@[simp] theorem State.unblock_inbox (s : State)  : (s.unblock).inbox = s.inbox := rfl
@[simp] theorem State.unblock_mesh (s : State)  : (s.unblock).mesh = s.mesh := rfl
@[simp] theorem State.unblock_yieldBuf (s : State)  : (s.unblock).yieldBuf = s.yieldBuf := rfl
@[simp] theorem State.unblock_pumpNext (s : State)  : (s.unblock).pumpNext = s.pumpNext := rfl
@[simp] theorem State.unblock_pumping (s : State)  : (s.unblock).pumping = s.pumping := rfl
@[simp] theorem State.unblock_pumpWant (s : State)  : (s.unblock).pumpWant = s.pumpWant := rfl
@[simp] theorem State.unblock_pumpRetry (s : State)  : (s.unblock).pumpRetry = s.pumpRetry := rfl
@[simp] theorem State.unblock_pumpWait (s : State)  : (s.unblock).pumpWait = s.pumpWait := rfl
@[simp] theorem State.unblock_orderPages (s : State)  : (s.unblock).orderPages = s.orderPages := rfl
@[simp] theorem State.unblock_acquiring (s : State)  : (s.unblock).acquiring = s.acquiring := rfl
@[simp] theorem State.unblock_atomQ (s : State)  : (s.unblock).atomQ = s.atomQ := rfl
@[simp] theorem State.unblock_atomRun (s : State)  : (s.unblock).atomRun = s.atomRun := rfl
@[simp] theorem State.unblock_atomNow (s : State)  : (s.unblock).atomNow = s.atomNow := rfl
@[simp] theorem State.unblock_atomOld (s : State)  : (s.unblock).atomOld = s.atomOld := rfl
@[simp] theorem State.unblock_trying (s : State)  : (s.unblock).trying = s.trying := rfl
@[simp] theorem State.unblock_pulls (s : State)  : (s.unblock).pulls = s.pulls := rfl
@[simp] theorem State.unblock_colls (s : State)  : (s.unblock).colls = s.colls := rfl
@[simp] theorem State.unblock_mx (s : State)  : (s.unblock).mx = s.mx := rfl
@[simp] theorem State.unblock_joins (s : State)  : (s.unblock).joins = s.joins := rfl
@[simp] theorem State.unblock_nextRid (s : State)  : (s.unblock).nextRid = s.nextRid := rfl
@[simp] theorem State.unblock_nextAid (s : State)  : (s.unblock).nextAid = s.nextAid := rfl
@[simp] theorem State.unblock_mem (s : State)  : (s.unblock).mem = s.mem := rfl
@[simp] theorem State.unblock_cl (s : State)  : (s.unblock).cl = s.cl := rfl
@[simp] theorem State.unblock_pkg (s : State)  : (s.unblock).pkg = s.pkg := rfl
@[simp] theorem State.unblock_agenda (s : State)  : (s.unblock).agenda = s.agenda := rfl
@[simp] theorem State.unblock_world (s : State)  : (s.unblock).world = s.world := rfl
@[simp] theorem State.unblock_mbHeld (s : State)  : (s.unblock).mbHeld = s.mbHeld := rfl
@[simp] theorem State.unblock_saved (s : State)  : (s.unblock).saved = s.saved := rfl
@[simp] theorem State.unblock_out (s : State)  : (s.unblock).out = s.out := rfl
@[simp] theorem State.unblock_free (s : State)  : (s.unblock).free = s.free := rfl

/-! ### `completed` -/

@[simp] theorem completed_self (s : State) (f : Act → Act) : (completed s f).self = s.self := rfl
@[simp] theorem completed_cur (s : State) (f : Act → Act) : (completed s f).cur = s.cur := rfl
@[simp] theorem completed_act (s : State) (f : Act → Act) : (completed s f).act = (f s.act).nextPc.settled := rfl
@[simp] theorem completed_slots (s : State) (f : Act → Act) : (completed s f).slots = s.slots := rfl
@[simp] theorem completed_ahead (s : State) (f : Act → Act) : (completed s f).ahead = s.ahead := rfl
@[simp] theorem completed_lastSlot (s : State) (f : Act → Act) : (completed s f).lastSlot = s.lastSlot := rfl
@[simp] theorem completed_cells (s : State) (f : Act → Act) : (completed s f).cells = s.cells := rfl
@[simp] theorem completed_phys (s : State) (f : Act → Act) : (completed s f).phys = s.phys := rfl
@[simp] theorem completed_lastSel (s : State) (f : Act → Act) : (completed s f).lastSel = s.lastSel := rfl
@[simp] theorem completed_replies (s : State) (f : Act → Act) : (completed s f).replies = s.replies := rfl
@[simp] theorem completed_toks (s : State) (f : Act → Act) : (completed s f).toks = s.toks := rfl
@[simp] theorem completed_tokSeq (s : State) (f : Act → Act) : (completed s f).tokSeq = s.tokSeq := rfl
@[simp] theorem completed_parked (s : State) (f : Act → Act) : (completed s f).parked = s.parked := rfl
@[simp] theorem completed_inbox (s : State) (f : Act → Act) : (completed s f).inbox = s.inbox := rfl
@[simp] theorem completed_mesh (s : State) (f : Act → Act) : (completed s f).mesh = s.mesh := rfl
@[simp] theorem completed_yieldBuf (s : State) (f : Act → Act) : (completed s f).yieldBuf = s.yieldBuf := rfl
@[simp] theorem completed_pumpNext (s : State) (f : Act → Act) : (completed s f).pumpNext = s.pumpNext := rfl
@[simp] theorem completed_pumping (s : State) (f : Act → Act) : (completed s f).pumping = s.pumping := rfl
@[simp] theorem completed_pumpWant (s : State) (f : Act → Act) : (completed s f).pumpWant = s.pumpWant := rfl
@[simp] theorem completed_pumpRetry (s : State) (f : Act → Act) : (completed s f).pumpRetry = s.pumpRetry := rfl
@[simp] theorem completed_pumpWait (s : State) (f : Act → Act) : (completed s f).pumpWait = s.pumpWait := rfl
@[simp] theorem completed_orderPages (s : State) (f : Act → Act) : (completed s f).orderPages = s.orderPages := rfl
@[simp] theorem completed_acquiring (s : State) (f : Act → Act) : (completed s f).acquiring = s.acquiring := rfl
@[simp] theorem completed_atomQ (s : State) (f : Act → Act) : (completed s f).atomQ = s.atomQ := rfl
@[simp] theorem completed_atomRun (s : State) (f : Act → Act) : (completed s f).atomRun = s.atomRun := rfl
@[simp] theorem completed_atomNow (s : State) (f : Act → Act) : (completed s f).atomNow = s.atomNow := rfl
@[simp] theorem completed_atomOld (s : State) (f : Act → Act) : (completed s f).atomOld = s.atomOld := rfl
@[simp] theorem completed_trying (s : State) (f : Act → Act) : (completed s f).trying = s.trying := rfl
@[simp] theorem completed_pulls (s : State) (f : Act → Act) : (completed s f).pulls = s.pulls := rfl
@[simp] theorem completed_colls (s : State) (f : Act → Act) : (completed s f).colls = s.colls := rfl
@[simp] theorem completed_mx (s : State) (f : Act → Act) : (completed s f).mx = s.mx := rfl
@[simp] theorem completed_joins (s : State) (f : Act → Act) : (completed s f).joins = s.joins := rfl
@[simp] theorem completed_nextRid (s : State) (f : Act → Act) : (completed s f).nextRid = s.nextRid := rfl
@[simp] theorem completed_nextAid (s : State) (f : Act → Act) : (completed s f).nextAid = s.nextAid := rfl
@[simp] theorem completed_mem (s : State) (f : Act → Act) : (completed s f).mem = s.mem := rfl
@[simp] theorem completed_cl (s : State) (f : Act → Act) : (completed s f).cl = s.cl := rfl
@[simp] theorem completed_pkg (s : State) (f : Act → Act) : (completed s f).pkg = s.pkg := rfl
@[simp] theorem completed_agenda (s : State) (f : Act → Act) : (completed s f).agenda = s.agenda := rfl
@[simp] theorem completed_world (s : State) (f : Act → Act) : (completed s f).world = s.world := rfl
@[simp] theorem completed_mbHeld (s : State) (f : Act → Act) : (completed s f).mbHeld = s.mbHeld := rfl
@[simp] theorem completed_saved (s : State) (f : Act → Act) : (completed s f).saved = s.saved := rfl
@[simp] theorem completed_out (s : State) (f : Act → Act) : (completed s f).out = s.out := rfl
@[simp] theorem completed_free (s : State) (f : Act → Act) : (completed s f).free = s.free := rfl

/-! ### `branched` -/

@[simp] theorem branched_self (s : State) (pc : Word) (f : Act → Act) : (branched s pc f).self = s.self := rfl
@[simp] theorem branched_cur (s : State) (pc : Word) (f : Act → Act) : (branched s pc f).cur = s.cur := rfl
@[simp] theorem branched_slots (s : State) (pc : Word) (f : Act → Act) : (branched s pc f).slots = s.slots := rfl
@[simp] theorem branched_ahead (s : State) (pc : Word) (f : Act → Act) : (branched s pc f).ahead = s.ahead := rfl
@[simp] theorem branched_lastSlot (s : State) (pc : Word) (f : Act → Act) : (branched s pc f).lastSlot = s.lastSlot := rfl
@[simp] theorem branched_cells (s : State) (pc : Word) (f : Act → Act) : (branched s pc f).cells = s.cells := rfl
@[simp] theorem branched_phys (s : State) (pc : Word) (f : Act → Act) : (branched s pc f).phys = s.phys := rfl
@[simp] theorem branched_lastSel (s : State) (pc : Word) (f : Act → Act) : (branched s pc f).lastSel = s.lastSel := rfl
@[simp] theorem branched_replies (s : State) (pc : Word) (f : Act → Act) : (branched s pc f).replies = s.replies := rfl
@[simp] theorem branched_toks (s : State) (pc : Word) (f : Act → Act) : (branched s pc f).toks = s.toks := rfl
@[simp] theorem branched_tokSeq (s : State) (pc : Word) (f : Act → Act) : (branched s pc f).tokSeq = s.tokSeq := rfl
@[simp] theorem branched_parked (s : State) (pc : Word) (f : Act → Act) : (branched s pc f).parked = s.parked := rfl
@[simp] theorem branched_inbox (s : State) (pc : Word) (f : Act → Act) : (branched s pc f).inbox = s.inbox := rfl
@[simp] theorem branched_mesh (s : State) (pc : Word) (f : Act → Act) : (branched s pc f).mesh = s.mesh := rfl
@[simp] theorem branched_yieldBuf (s : State) (pc : Word) (f : Act → Act) : (branched s pc f).yieldBuf = s.yieldBuf := rfl
@[simp] theorem branched_pumpNext (s : State) (pc : Word) (f : Act → Act) : (branched s pc f).pumpNext = s.pumpNext := rfl
@[simp] theorem branched_pumping (s : State) (pc : Word) (f : Act → Act) : (branched s pc f).pumping = s.pumping := rfl
@[simp] theorem branched_pumpWant (s : State) (pc : Word) (f : Act → Act) : (branched s pc f).pumpWant = s.pumpWant := rfl
@[simp] theorem branched_pumpRetry (s : State) (pc : Word) (f : Act → Act) : (branched s pc f).pumpRetry = s.pumpRetry := rfl
@[simp] theorem branched_pumpWait (s : State) (pc : Word) (f : Act → Act) : (branched s pc f).pumpWait = s.pumpWait := rfl
@[simp] theorem branched_orderPages (s : State) (pc : Word) (f : Act → Act) : (branched s pc f).orderPages = s.orderPages := rfl
@[simp] theorem branched_acquiring (s : State) (pc : Word) (f : Act → Act) : (branched s pc f).acquiring = s.acquiring := rfl
@[simp] theorem branched_atomQ (s : State) (pc : Word) (f : Act → Act) : (branched s pc f).atomQ = s.atomQ := rfl
@[simp] theorem branched_atomRun (s : State) (pc : Word) (f : Act → Act) : (branched s pc f).atomRun = s.atomRun := rfl
@[simp] theorem branched_atomNow (s : State) (pc : Word) (f : Act → Act) : (branched s pc f).atomNow = s.atomNow := rfl
@[simp] theorem branched_atomOld (s : State) (pc : Word) (f : Act → Act) : (branched s pc f).atomOld = s.atomOld := rfl
@[simp] theorem branched_trying (s : State) (pc : Word) (f : Act → Act) : (branched s pc f).trying = s.trying := rfl
@[simp] theorem branched_pulls (s : State) (pc : Word) (f : Act → Act) : (branched s pc f).pulls = s.pulls := rfl
@[simp] theorem branched_colls (s : State) (pc : Word) (f : Act → Act) : (branched s pc f).colls = s.colls := rfl
@[simp] theorem branched_mx (s : State) (pc : Word) (f : Act → Act) : (branched s pc f).mx = s.mx := rfl
@[simp] theorem branched_joins (s : State) (pc : Word) (f : Act → Act) : (branched s pc f).joins = s.joins := rfl
@[simp] theorem branched_nextRid (s : State) (pc : Word) (f : Act → Act) : (branched s pc f).nextRid = s.nextRid := rfl
@[simp] theorem branched_nextAid (s : State) (pc : Word) (f : Act → Act) : (branched s pc f).nextAid = s.nextAid := rfl
@[simp] theorem branched_mem (s : State) (pc : Word) (f : Act → Act) : (branched s pc f).mem = s.mem := rfl
@[simp] theorem branched_cl (s : State) (pc : Word) (f : Act → Act) : (branched s pc f).cl = s.cl := rfl
@[simp] theorem branched_pkg (s : State) (pc : Word) (f : Act → Act) : (branched s pc f).pkg = s.pkg := rfl
@[simp] theorem branched_agenda (s : State) (pc : Word) (f : Act → Act) : (branched s pc f).agenda = s.agenda := rfl
@[simp] theorem branched_world (s : State) (pc : Word) (f : Act → Act) : (branched s pc f).world = s.world := rfl
@[simp] theorem branched_mbHeld (s : State) (pc : Word) (f : Act → Act) : (branched s pc f).mbHeld = s.mbHeld := rfl
@[simp] theorem branched_saved (s : State) (pc : Word) (f : Act → Act) : (branched s pc f).saved = s.saved := rfl
@[simp] theorem branched_out (s : State) (pc : Word) (f : Act → Act) : (branched s pc f).out = s.out := rfl
@[simp] theorem branched_free (s : State) (pc : Word) (f : Act → Act) : (branched s pc f).free = s.free := rfl

/-! ### Completion -/

/-- Completion without a branch moves the PC and the loop state only (R274). -/
theorem Act.nextPc_eq (a : Act) : ∃ pc loop, a.nextPc = { a with pc, loop } := by
  unfold Act.nextPc
  split
  · dsimp only
    split
    · exact ⟨_, _, rfl⟩
    · exact ⟨_, _, rfl⟩
  · exact ⟨_, _, rfl⟩

@[simp] theorem Act.nextPc_live (a : Act) : a.nextPc.live = a.live := by
  obtain ⟨_, _, h⟩ := a.nextPc_eq; rw [h]
@[simp] theorem Act.nextPc_aid (a : Act) : a.nextPc.aid = a.aid := by
  obtain ⟨_, _, h⟩ := a.nextPc_eq; rw [h]
@[simp] theorem Act.nextPc_chan (a : Act) : a.nextPc.chan = a.chan := by
  obtain ⟨_, _, h⟩ := a.nextPc_eq; rw [h]
@[simp] theorem Act.nextPc_reg (a : Act) : a.nextPc.reg = a.reg := by
  obtain ⟨_, _, h⟩ := a.nextPc_eq; rw [h]
@[simp] theorem Act.nextPc_prio (a : Act) : a.nextPc.prio = a.prio := by
  obtain ⟨_, _, h⟩ := a.nextPc_eq; rw [h]
@[simp] theorem Act.nextPc_spw (a : Act) : a.nextPc.spw = a.spw := by
  obtain ⟨_, _, h⟩ := a.nextPc_eq; rw [h]
@[simp] theorem Act.nextPc_tm (a : Act) : a.nextPc.tm = a.tm := by
  obtain ⟨_, _, h⟩ := a.nextPc_eq; rw [h]
@[simp] theorem Act.nextPc_p (a : Act) : a.nextPc.p = a.p := by
  obtain ⟨_, _, h⟩ := a.nextPc_eq; rw [h]
@[simp] theorem Act.nextPc_a (a : Act) : a.nextPc.a = a.a := by
  obtain ⟨_, _, h⟩ := a.nextPc_eq; rw [h]
@[simp] theorem Act.nextPc_v (a : Act) : a.nextPc.v = a.v := by
  obtain ⟨_, _, h⟩ := a.nextPc_eq; rw [h]
@[simp] theorem Act.nextPc_vtag (a : Act) : a.nextPc.vtag = a.vtag := by
  obtain ⟨_, _, h⟩ := a.nextPc_eq; rw [h]
@[simp] theorem Act.nextPc_k (a : Act) : a.nextPc.k = a.k := by
  obtain ⟨_, _, h⟩ := a.nextPc_eq; rw [h]
@[simp] theorem Act.nextPc_f (a : Act) : a.nextPc.f = a.f := by
  obtain ⟨_, _, h⟩ := a.nextPc_eq; rw [h]
@[simp] theorem Act.nextPc_toks (a : Act) : a.nextPc.toks = a.toks := by
  obtain ⟨_, _, h⟩ := a.nextPc_eq; rw [h]
@[simp] theorem Act.nextPc_ldq (a : Act) : a.nextPc.ldq = a.ldq := by
  obtain ⟨_, _, h⟩ := a.nextPc_eq; rw [h]
@[simp] theorem Act.nextPc_stq (a : Act) : a.nextPc.stq = a.stq := by
  obtain ⟨_, _, h⟩ := a.nextPc_eq; rw [h]
@[simp] theorem Act.nextPc_xq (a : Act) : a.nextPc.xq = a.xq := by
  obtain ⟨_, _, h⟩ := a.nextPc_eq; rw [h]
@[simp] theorem Act.nextPc_exq (a : Act) : a.nextPc.exq = a.exq := by
  obtain ⟨_, _, h⟩ := a.nextPc_eq; rw [h]
@[simp] theorem Act.nextPc_watch (a : Act) : a.nextPc.watch = a.watch := by
  obtain ⟨_, _, h⟩ := a.nextPc_eq; rw [h]
@[simp] theorem Act.nextPc_pfx (a : Act) : a.nextPc.pfx = a.pfx := by
  obtain ⟨_, _, h⟩ := a.nextPc_eq; rw [h]
@[simp] theorem Act.nextPc_ibuf (a : Act) : a.nextPc.ibuf = a.ibuf := by
  obtain ⟨_, _, h⟩ := a.nextPc_eq; rw [h]
@[simp] theorem Act.nextPc_phase (a : Act) : a.nextPc.phase = a.phase := by
  obtain ⟨_, _, h⟩ := a.nextPc_eq; rw [h]
@[simp] theorem Act.nextPc_blocked (a : Act) : a.nextPc.blocked = a.blocked := by
  obtain ⟨_, _, h⟩ := a.nextPc_eq; rw [h]
@[simp] theorem Act.nextPc_stalled (a : Act) : a.nextPc.stalled = a.stalled := by
  obtain ⟨_, _, h⟩ := a.nextPc_eq; rw [h]
@[simp] theorem Act.nextPc_atPort (a : Act) : a.nextPc.atPort = a.atPort := by
  obtain ⟨_, _, h⟩ := a.nextPc_eq; rw [h]
@[simp] theorem Act.nextPc_deferred (a : Act) : a.nextPc.deferred = a.deferred := by
  obtain ⟨_, _, h⟩ := a.nextPc_eq; rw [h]
@[simp] theorem Act.nextPc_reportFirst (a : Act) : a.nextPc.reportFirst = a.reportFirst := by
  obtain ⟨_, _, h⟩ := a.nextPc_eq; rw [h]
@[simp] theorem Act.nextPc_drain (a : Act) : a.nextPc.drain = a.drain := by
  obtain ⟨_, _, h⟩ := a.nextPc_eq; rw [h]
@[simp] theorem Act.nextPc_iw (a : Act) : a.nextPc.iw = a.iw := by
  obtain ⟨_, _, h⟩ := a.nextPc_eq; rw [h]
@[simp] theorem Act.nextPc_cycles (a : Act) : a.nextPc.cycles = a.cycles := by
  obtain ⟨_, _, h⟩ := a.nextPc_eq; rw [h]
@[simp] theorem Act.nextPc_first (a : Act) : a.nextPc.first = a.first := by
  obtain ⟨_, _, h⟩ := a.nextPc_eq; rw [h]
@[simp] theorem Act.nextPc_early (a : Act) : a.nextPc.early = a.early := by
  obtain ⟨_, _, h⟩ := a.nextPc_eq; rw [h]
@[simp] theorem Act.nextPc_trapping (a : Act) : a.nextPc.trapping = a.trapping := by
  obtain ⟨_, _, h⟩ := a.nextPc_eq; rw [h]

@[simp] theorem Act.settled_live (a : Act) : a.settled.live = a.live := rfl
@[simp] theorem Act.settled_aid (a : Act) : a.settled.aid = a.aid := rfl
@[simp] theorem Act.settled_chan (a : Act) : a.settled.chan = a.chan := rfl
@[simp] theorem Act.settled_reg (a : Act) : a.settled.reg = a.reg := rfl
@[simp] theorem Act.settled_prio (a : Act) : a.settled.prio = a.prio := rfl
@[simp] theorem Act.settled_spw (a : Act) : a.settled.spw = a.spw := rfl
@[simp] theorem Act.settled_tm (a : Act) : a.settled.tm = a.tm := rfl
@[simp] theorem Act.settled_pc (a : Act) : a.settled.pc = a.pc := rfl
@[simp] theorem Act.settled_p (a : Act) : a.settled.p = a.p := rfl
@[simp] theorem Act.settled_a (a : Act) : a.settled.a = a.a := rfl
@[simp] theorem Act.settled_v (a : Act) : a.settled.v = a.v := rfl
@[simp] theorem Act.settled_vtag (a : Act) : a.settled.vtag = a.vtag := rfl
@[simp] theorem Act.settled_k (a : Act) : a.settled.k = a.k := rfl
@[simp] theorem Act.settled_f (a : Act) : a.settled.f = a.f := rfl
@[simp] theorem Act.settled_loop (a : Act) : a.settled.loop = a.loop := rfl
@[simp] theorem Act.settled_toks (a : Act) : a.settled.toks = a.toks := rfl
@[simp] theorem Act.settled_ldq (a : Act) : a.settled.ldq = a.ldq := rfl
@[simp] theorem Act.settled_stq (a : Act) : a.settled.stq = a.stq := rfl
@[simp] theorem Act.settled_xq (a : Act) : a.settled.xq = a.xq := rfl
@[simp] theorem Act.settled_exq (a : Act) : a.settled.exq = a.exq := rfl
@[simp] theorem Act.settled_watch (a : Act) : a.settled.watch = a.watch := rfl
@[simp] theorem Act.settled_pfx (a : Act) : a.settled.pfx = none := rfl
@[simp] theorem Act.settled_ibuf (a : Act) : a.settled.ibuf = a.ibuf := rfl
@[simp] theorem Act.settled_phase (a : Act) : a.settled.phase = .none := rfl
@[simp] theorem Act.settled_blocked (a : Act) : a.settled.blocked = false := rfl
@[simp] theorem Act.settled_stalled (a : Act) : a.settled.stalled = false := rfl
@[simp] theorem Act.settled_atPort (a : Act) : a.settled.atPort = none := rfl
@[simp] theorem Act.settled_deferred (a : Act) : a.settled.deferred = a.deferred := rfl
@[simp] theorem Act.settled_reportFirst (a : Act) : a.settled.reportFirst = a.reportFirst := rfl
@[simp] theorem Act.settled_drain (a : Act) : a.settled.drain = a.drain := rfl
@[simp] theorem Act.settled_iw (a : Act) : a.settled.iw = a.iw := rfl
@[simp] theorem Act.settled_cycles (a : Act) : a.settled.cycles = a.cycles := rfl
@[simp] theorem Act.settled_first (a : Act) : a.settled.first = none := rfl
@[simp] theorem Act.settled_early (a : Act) : a.settled.early = false := rfl
@[simp] theorem Act.settled_trapping (a : Act) : a.settled.trapping = a.trapping := rfl

/-- An instruction that issues in program order completes as `completed` says. -/
theorem State.finish_inOrder (s : State) (h : s.act.drain = false) : s.finish = .next (completed s id) := by
  unfold State.finish State.done1 completed
  simp [h]

end Sys2Proof.Machine
end

