-- ==== Sys2Proof/Laws/Run.lean ====
section
/-!
SUPPORT. What the shared operations of an instruction can do, each said once: issue, waiting, completion, a split operand, traps, and a
write of memory with the watches that it answers. Proofs about an instruction cite these instead of unfolding the operations.
-/
namespace Sys2Proof.Machine

/-! ## Completion -/

/-- Completion of a decoded instruction, by what it does to the context. -/
theorem finish_eq {s : State} (h : s.act.drain = false) : s.finish = .next (completed s id) := by
  simp [State.finish, State.done1, completed, h]
theorem finish_mapAct {s : State} {f : Act → Act} (h : (f s.act).drain = false) : (s.mapAct f).finish = .next (completed s f) := by
  simp [State.finish, State.done1, State.mapAct, completed, h]
theorem finishAll_eq {s : State} (h : s.act.drain = false) : s.finishAll = .next (completed s id).unblock := by
  simp [State.finishAll, State.done1, completed, h]
theorem finish_goesOn (s : State) : GoesOn s.finish := ⟨_, rfl, trivial⟩

/-- The next PC keeps everything of a context but the PC and the loop state. -/
theorem nextPc_eq (a : Act) : a.nextPc = { a with pc := a.nextPc.pc, loop := a.nextPc.loop } := by
  unfold Act.nextPc; dsimp only; repeat' split
  all_goals rfl

/-! ## Issue -/

theorem inOrder_run {s : State} {run : State → Out} (h : InOrder s) : s.inOrder run = run s := by simp [State.inOrder, h.1]
theorem generalOnly_run {s : State} {run : State → Out} (h : Serving s) : s.generalOnly run = run s := by
  have hg : s.inAtomic = false := h.2
  simp [State.generalOnly, State.inOrder, h.1.1, hg]
/-- An instruction that keeps program order runs, or waits for the execute half. -/
theorem inOrder_cases (s : State) (run : State → Out) :
    (s.act.exq = [] ∧ s.inOrder run = run s) ∨ (s.act.exq ≠ [] ∧ s.inOrder run = waits s) := by
  cases h : s.act.exq with
  | nil => exact Or.inl ⟨rfl, by simp [State.inOrder, h]⟩
  | cons x l => exact Or.inr ⟨by simp, by simp [State.inOrder, h, State.stall, waits]⟩
/-- As `inOrder_cases`, for an instruction that the atomic slot may not issue. -/
theorem generalOnly_cases (s : State) (run : State → Out) :
    (s.act.exq ≠ [] ∧ s.generalOnly run = waits s) ∨ (s.act.exq = [] ∧ s.inAtomic = true ∧ s.generalOnly run = trapsWith s 0x05 0) ∨
    (s.act.exq = [] ∧ s.inAtomic = false ∧ s.generalOnly run = run s) := by
  rcases inOrder_cases s (fun s1 => if s1.inAtomic then s1.trap 0x05 0 else run s1) with ⟨h, e⟩ | ⟨h, e⟩
  · cases hg : s.inAtomic with
    | true => exact Or.inr (Or.inl ⟨h, rfl, by simpa [State.generalOnly, hg, trapsWith] using e⟩)
    | false => exact Or.inr (Or.inr ⟨h, rfl, by simpa [State.generalOnly, hg] using e⟩)
  · exact Or.inl ⟨h, e⟩
theorem waits_goesOn (s : State) : GoesOn (waits s) := ⟨_, rfl, trivial⟩
theorem waitsFor_goesOn (s : State) (ph : Phase) : GoesOn (waitsFor s ph) := ⟨_, rfl, trivial⟩

/-! ## Split operands -/

/-- A split instruction whose operand is there goes on with it. -/
theorem splitLoad_run {s t : State} {x : Access} {ty : Ty} {q : QUnit} {e : QEntry} {k : QEntry → State → Out}
    {p : PReg} {am : Am} (h : Operand s x ty q e t) : s.splitLoad p am x ty q k = k e t := by
  obtain ⟨⟨ho, hd⟩, hr, hc, e1, t1, hl, hp⟩ := h
  have hl' : s.load x ty q false = .ok e1 t1 := hl
  obtain ⟨h0, rfl, rfl⟩ | ⟨rest, h0, rfl⟩ := hp <;>
    simp [State.splitLoad, State.splitRead, State.popFirst, ho, hd, hr, hc, hl', h0]
/-- What a split load of the decoder does while nothing older waits in the execute half: it waits, traps where the cell refuses its
address, stops with what the read stopped with, or goes on with the head of LDQ. -/
theorem splitLoad_cases (s : State) (p : PReg) (am : Am) (x : Access) (ty : Ty) (q : QUnit) (k : QEntry → State → Out) (h : InOrder s) :
    s.splitLoad p am x ty q k = waits s ∨ (∃ c, s.splitLoad p am x ty q k = trapsWith s c x.ea) ∨
    (∃ y, s.splitRead x ty q = .stop y ∧ s.splitLoad p am x ty q k = s.stopped y) ∨
    (∃ e t, s.splitRead x ty q = .ok e t ∧ s.splitLoad p am x ty q k = s.popFirst t e k) := by
  unfold State.splitLoad
  rw [h.1, h.2]
  simp only [Bool.false_eq_true, if_false, List.isEmpty_nil, if_true]
  split
  · split
    · exact Or.inr (Or.inl ⟨_, rfl⟩)
    · exact Or.inl rfl
  · split
    · exact Or.inr (Or.inr (Or.inl ⟨_, ‹_›, rfl⟩))
    · exact Or.inr (Or.inr (Or.inr ⟨_, _, ‹_›, rfl⟩))

/-! ## Ends of a split form, branches and immediates -/

theorem bump_drain (a : Act) (p : PReg) (am : Am) (np : Word) : (a.bump p am np).drain = a.drain := by unfold Act.bump; split <;> rfl
theorem endLoad_eq {u : State} {p : PReg} {am : Am} {np : Word} {f : Act → Act} (h : (f u.act).drain = false) :
    (u.mapAct f).endLoad p am np = .next (completed u fun b => (f b).bump p am np) := by
  unfold State.endLoad
  rw [if_neg (by simpa [State.mapAct] using h), finish_mapAct]
  · rfl
  · rw [bump_drain]; exact h
theorem setSeed_act (s : State) (x : BitVec 32) : (s.setSeed x).act = s.act := by unfold State.setSeed; split <;> rfl
theorem setSeed_mem (s : State) (x : BitVec 32) : (s.setSeed x).mem = s.mem := by unfold State.setSeed; split <;> rfl
theorem endLoad_seed_eq {u : State} {x : BitVec 32} {p : PReg} {am : Am} {np : Word} {f : Act → Act} (h : (f u.act).drain = false) :
    ((u.setSeed x).mapAct f).endLoad p am np = .next (completed (u.setSeed x) fun b => (f b).bump p am np) := by
  rw [endLoad_eq]; rw [setSeed_act]; exact h
theorem completed_congr {t : State} {f g : Act → Act} (h : f t.act = g t.act) : completed t f = completed t g := by
  unfold completed; rw [h]

/-- A branch that is taken (R266, R275). -/
theorem branch_eq (s : State) (t : Word) : s.branch t = branchTo s t := by
  unfold State.branch targetFault branchTo trapsWith branched State.jumpTo LoopState.holds
  simp only [BitVec.ofNat_eq_ofNat, bne_iff_ne, ne_eq, Bool.and_eq_true, decide_eq_true_eq]
  by_cases h1 : t.extractLsb' 34 30 = 0#30
  · by_cases h2 : t.extractLsb' 0 2 = 0#2
    · simp only [h1, h2]; simp [Act.settled, State.mapAct, and_assoc]
    · simp [h1, h2]
  · simp only [h1, if_true, not_false_eq_true]
theorem relTarget_eq (s : State) (x : Word) : s.relTarget x = s.act.pc + 4 * x := by
  simp [State.relTarget, BitVec.mul_comm]

/-- An immediate without `ext` before it. -/
theorem wide_plain {n : Nat} {a : Act} {i : BitVec n} (h : ∀ p x, a.pfx = some p → p.kind ≠ .ext x) : a.wide i = i.signExtend 64 := by
  unfold Act.wide Act.ext?
  split
  · rename_i x hx; split at hx
    · rename_i p hp; split at hx
      · rename_i y hy; exact absurd hy (h p y hp)
      · cases hx
    · cases hx
  · rfl

/-! ## What leaves, and the engines' checks -/

/-- A message whose place is not a pod address crosses no fabric. -/
theorem carry_near (s : State) (cls : BitVec 2) (m : OutMsg) (no : Option Todo) (h : m.place.getLsbD 63 = false) :
    s.carry cls (s.addressed m) no = s.pkg := by
  unfold State.carry State.addressed State.routeOf; dsimp only; rw [h]; rfl
theorem drawKey_fab (p : Package) : p.drawKey.2.fab = p.fab := by unfold Package.drawKey; split <;> rfl
theorem sendFrame_fab (p : Package) (x : FarSess) (fs : List Flit) (n : Nat) : (p.sendFrame x fs n).fab = p.fab := rfl
theorem rekey_fab (p : Package) (x : FarSess) : (p.rekey x).fab = p.fab := by
  unfold Package.rekey; dsimp only; split
  · exact drawKey_fab p
  · split
    · exact drawKey_fab p
    · exact (sendFrame_fab ..).trans (drawKey_fab p)
theorem keepKey_fab (p : Package) (e n : Nat) : (p.keepKey e n).fab = p.fab := by
  unfold Package.keepKey; split
  · split
    · exact rekey_fab ..
    · rfl
  · rfl
theorem sendFrames_fab (p : Package) (e : Nat) (fs : List Flit) : (p.sendFrames e fs).fab = p.fab := by
  unfold Package.sendFrames; split
  · rfl
  · rename_i h
    rw [keepKey_fab]
    generalize chunks (p.frameFlits e) fs.length fs = l
    clear h
    induction l generalizing p with
    | nil => rfl
    | cons x l ih => rw [List.foldl_cons, ih]; split <;> rfl
/-- The fabric's registers do not change when a message leaves. -/
theorem carry_fab (s : State) (cls : BitVec 2) (m : OutMsg) (no : Option Todo) : (s.carry cls m no).fab = s.pkg.fab := by
  unfold State.carry; split
  · rfl
  · split
    · unfold Package.carryFar; split
      · rfl
      · split
        · rfl
        · exact sendFrames_fab ..
    · rfl
/-- A request that leaves is refused, or handed to the fabric. -/
theorem leave_cases (s : State) (m : OutMsg) (t : Todo) : s.leave m t = s.push t ∨ ∃ x, s.leave m t = s.release 0 x (some t) := by
  unfold State.leave State.leaveAs State.leaveOn; dsimp only; split
  · exact .inl rfl
  · exact .inr ⟨_, rfl⟩
theorem leave_act (s : State) (m : OutMsg) (t : Todo) : (s.leave m t).act = s.act := by
  obtain h | ⟨x, h⟩ := leave_cases s m t <;> rw [h] <;> rfl
theorem leave_mem (s : State) (m : OutMsg) (t : Todo) : (s.leave m t).mem = s.mem := by
  obtain h | ⟨x, h⟩ := leave_cases s m t <;> rw [h] <;> rfl
theorem leave_nextRid (s : State) (m : OutMsg) (t : Todo) : (s.leave m t).nextRid = s.nextRid := by
  obtain h | ⟨x, h⟩ := leave_cases s m t <;> rw [h] <;> rfl
theorem leave_toks (s : State) (m : OutMsg) (t : Todo) : (s.leave m t).toks = s.toks := by
  obtain h | ⟨x, h⟩ := leave_cases s m t <;> rw [h] <;> rfl
theorem firstFault_faultIf (b : Bool) (c : Code) (a : Word) (l : List (Option (Code × Word))) :
    firstFault (faultIf b c a :: l) = if b then some (c, a) else firstFault l := by
  unfold faultIf; cases b <;> rfl
/-- An engine instruction that issues: 0x05 where the engines are not enabled, else its first check that fails, or its run. -/
theorem engineIssue_eq {s : State} {f : State → List (Option (Code × Word))} {run : State → Out} (h : Serving s) (hf : Fresh s) :
    s.engineIssue f run =
      if s.cl.clucfg.getLsbD 2 = true then (match firstFault (f s) with | some (c, a) => s.trap c a | none => run s) else s.trap 0x05 0 := by
  have hp : s.act.phase = .none := hf
  refine (generalOnly_run h).trans ?_
  rw [firstFault_faultIf]
  simp only [hp]
  cases s.cl.clucfg.getLsbD 2 <;> rfl
/-- An engine instruction that waits for a place in the queue looks for one again. -/
theorem engineIssue_again {s : State} {f : State → List (Option (Code × Word))} {run : State → Out} {c : MCmd}
    {undo : Option (Fin 16 × Xfer)} (h : Serving s) (hp : s.act.phase = .engQueue c undo) : s.engineIssue f run = s.queueMx c undo := by
  refine (generalOnly_run h).trans ?_
  simp only [hp]
theorem zeroAt_iff (w : Word) (lo len : Nat) : zeroAt w lo len = true ↔ w.extractLsb' lo len = 0 := by
  unfold zeroAt
  rw [beq_iff_eq, ← BitVec.toNat_inj, BitVec.extractLsb'_toNat, Nat.shiftRight_eq_div_pow]; simp

/-! ## Control registers read -/

/-- A read of a control register may take a tick of time, and changes nothing else. -/
theorem lookCtl_eq {s t : State} {i : Issuer} {n : Fin 64} {k : Nat} {w : Word} (h : s.lookCtl i n k = some (w, t)) :
    t = { s with free := t.free, cl := { s.cl with aktime := t.cl.aktime } } := by
  unfold State.lookCtl at h
  simp only [Option.map_eq_some_iff, Prod.mk.injEq] at h
  obtain ⟨_, _, _, rfl⟩ := h
  split
  · rfl
  · split <;> rfl
theorem ctlLoad_eq {s t : State} {i : Issuer} {off : Nat} {w : Word} (h : s.ctlLoad i off = some (w, t)) :
    t = { s with free := t.free, cl := { s.cl with aktime := t.cl.aktime } } := by
  unfold State.ctlLoad at h
  dsimp only at h
  split at h
  · split at h
    · exact lookCtl_eq h
    · simp at h
  · split at h
    · split at h
      · simp only [Option.some.injEq, Prod.mk.injEq] at h; obtain ⟨_, rfl⟩ := h; rfl
      · simp at h
    · split at h
      · split at h
        · simp only [Option.some.injEq, Prod.mk.injEq] at h; obtain ⟨_, rfl⟩ := h; rfl
        · simp at h
      · simp only [Option.some.injEq, Prod.mk.injEq] at h; obtain ⟨_, rfl⟩ := h; rfl

/-! ## Traps (R346) -/

/-- A trap always goes on: it is taken, waits, aborts the handler, parks the activation, or ends it. -/
theorem parkTrapped_goesOn (s : State) (r : TrapReq) (w1 frame : Word) : GoesOn (s.parkTrapped r w1 frame) := by
  unfold State.parkTrapped State.frameMiss State.keepTrap; dsimp only; repeat' split
  all_goals exact ⟨_, rfl, trivial⟩
theorem takeTrap_goesOn (s : State) (r : TrapReq) : GoesOn (s.takeTrap r) := by
  unfold State.takeTrap State.takeTrapGeneral State.frameMiss State.keepTrap; dsimp only; repeat' split
  all_goals first | exact ⟨_, rfl, trivial⟩ | exact parkTrapped_goesOn ..
theorem trapsWith_goesOn (s : State) (c : Code) (a : Word) : GoesOn (trapsWith s c a) := takeTrap_goesOn s _
theorem trapMem_goesOn (s : State) (c : Code) (m : Bool) (a : Word) : GoesOn (s.trapMem c m a) := takeTrap_goesOn s _

/-! ## Memory and its watches -/

/-- Bytes of lines that no other key covers read as they stand (R439). -/
theorem viewBytes_eq {m : Memory} {want k n : Nat} (h : ∀ i, i < n → m.encAt (k + i) = want) : m.viewBytes want k n = m.bytesAt k n := by
  induction n generalizing k with
  | zero => rfl
  | succ n ih =>
    simp only [Memory.viewBytes, Memory.bytesAt, Memory.viewByte]
    have h0 := h 0 (by omega)
    simp only [Nat.add_zero] at h0
    rw [h0, ih (fun i hi => by have h1 := h (i + 1) (by omega); rw [← h1]; congr 1; omega)]; simp
theorem bytesAt_length (m : Memory) (k n : Nat) : (m.bytesAt k n).length = n := by
  induction n generalizing k with
  | zero => rfl
  | succ n ih => simp [Memory.bytesAt, ih]
theorem leNat_lt (bs : List Byte) : leNat bs < 256 ^ bs.length := by
  induction bs with
  | nil => simp [leNat]
  | cons b bs ih => simp only [leNat, List.length_cons, Nat.pow_succ]; have hb := b.isLt; omega


theorem sendWatchAns_mem (s : State) (w : WatchReq) (a : WatchAns) : (s.sendWatchAns w a).mem = s.mem := by
  unfold State.sendWatchAns; split
  · split <;> rfl
  · rfl
theorem pollWatches_mem (s : State) : s.pollWatches.mem = s.mem := by
  suffices h : ∀ (l : List WatchReq) (t : State), (l.foldl (fun st w =>
      match s.watchNow w with
      | some ans => (st.forgetGates w).sendWatchAns w ans
      | none => { st with cl := { st.cl with watches := st.cl.watches ++ [w] } }) t).mem = t.mem by
    exact h s.cl.watches _
  intro l
  induction l with
  | nil => intro t; rfl
  | cons w l ih =>
    intro t
    rw [List.foldl_cons, ih]
    split
    · exact sendWatchAns_mem ..
    · rfl
/-- A write leaves the memory that it makes, whatever watches it answers. -/
theorem withMem_mem (s : State) (m : Memory) : (s.withMem m).mem = m := by
  show ({ s with mem := m } : State).pollWatches.mem = m
  rw [pollWatches_mem]
theorem perform_mem (s : State) (site : Site) (oa : Nat) (d : WData) : (s.perform site oa d).mem = s.performAt site oa d := withMem_mem ..

/-! ## Selection -/

/-- Selection asks for no grant where no channel that may be selected lacks one. -/
theorem State.askLacking_eq {s : State}
    (h : (((List.range 29).map fun n => BitVec.ofNat 5 n).all fun c => !s.selectable c || (s.lacks c).isEmpty) = true) : s.askLacking = s := by
  unfold State.askLacking
  generalize (List.range 29).map (fun n => BitVec.ofNat 5 n) = l at h
  induction l with
  | nil => rfl
  | cons c l ih =>
    simp only [List.all_cons, Bool.and_eq_true, Bool.or_eq_true, Bool.not_eq_true', List.isEmpty_iff] at h
    rw [List.foldl_cons]
    rcases h.1 with hc | hc
    · rw [if_neg (by simp [hc])]; exact ih h.2
    · rw [hc]; simpa using ih h.2

/-! ## A step -/

/-- A step that serves a slot at an instruction is that slot's turn. -/
theorem step_ready (s : State) (h : Ready s) :
    step s = (if s.cur.val < 4 then { s with lastSlot := Fin.ofNat 4 s.cur.val } else s).slotStep := by
  obtain ⟨h1,h2,h3,h4,h5,h6,h7,h8,h9,h10,h11,h12,h13,h14,h15,h16,h17,h18,h19,h20,h21,h22⟩ := h
  have ht : s.trimAhead = s := by
    unfold State.trimAhead
    rw [if_pos]
    rw [h10]; decide
  have hy : (List.finRange 4).find? s.yieldReady = none := by simp [h6]
  have ha : (!s.atomQ.isEmpty && !s.atomBusy) = false := by
    rcases h5 with h | h <;> simp [h]
  have hp : s.pumpTurn = false := by simp [State.pumpTurn, h7]
  have hw : s.pumpWaited = s := by simp [State.pumpWaited, h7]
  have hs : step s = (s.serve s.cur).slotTurn := by
    simp [step, State.cycle, h1, h2, State.cellStep, h3, ht, State.cellTurn, h4, ha, hy, hp, h8, h9, hw]
  rw [hs]
  have hv : s.serve s.cur = (if s.cur.val < 4 then { s with lastSlot := Fin.ofNat 4 s.cur.val } else s) := by
    simp [State.serve, State.switchTo]
  rw [hv]
  split <;> simp [State.slotTurn, h10, State.turn, h16]

end Sys2Proof.Machine
end

