-- ==== Sys2Proof/Laws/Send.lean ====
section
/-!
SUPPORT. What sending a request or a message, taking placements back, ending an activation and a barrier's sweep can do to the state of the
cell, each said once.
-/
namespace Sys2Proof.Machine

/-! ## Sending (R168, R189) -/

theorem recordHeld_keeps (s : State) (a : Word) (h : BitVec 24) :
    (s.recordHeld a h).act = s.act ∧ (s.recordHeld a h).mem = s.mem ∧ (s.recordHeld a h).replies = s.replies := by
  unfold State.recordHeld; split <;> exact ⟨rfl, rfl, rfl⟩
theorem allocTok_keeps (s : State) (a : Word) (ask : Option (Fin 4)) :
    (s.allocTok a ask).2.act = { s.act with toks := (s.allocTok a ask).2.act.toks } ∧ (s.allocTok a ask).2.mem = s.mem ∧
    (s.allocTok a ask).2.replies = s.replies := by
  unfold State.allocTok; split <;> exact ⟨rfl, rfl, rfl⟩
/-- A request that leaves changes nothing of its slot but the token slots, nothing of memory, and takes the next number. -/
theorem sendOut_keeps (s : State) (kind : ReplyKind) (a : Word) (ask nm : Option (Fin 4)) (words : List TWord)
    (mk : State → Nat → BitVec 24 → BitVec 24 → Sent) :
    let t := s.sendOut kind a ask nm words mk
    t.act = { s.act with toks := t.act.toks } ∧ t.mem = s.mem ∧ t.nextRid = s.nextRid + 1 ∧
      ∃ e, t.replies = s.replies ++ [e] ∧ e.rid = s.nextRid ∧ e.kind = kind ∧ e.target = a := by
  obtain ⟨r1, r2, r3⟩ := recordHeld_keeps s a (s.heldOn nm)
  obtain ⟨k1, k2, k3⟩ := allocTok_keeps (s.recordHeld a (s.heldOn nm)) a ask
  rw [r1] at k1
  intro t
  have split : (∃ (u : State) (e : ReplyEnt) (r : List ReplyEnt), t = { u with replies := r ++ [e] } ∧ r = s.replies ∧
      u.act = ((s.recordHeld a (s.heldOn nm)).allocTok a ask).2.act ∧
      u.mem = ((s.recordHeld a (s.heldOn nm)).allocTok a ask).2.mem ∧ u.nextRid = s.nextRid + 1 ∧ e.rid = s.nextRid ∧ e.kind = kind ∧
      e.target = a) := by
    simp only [t, State.sendOut]
    split
    · exact ⟨_, _, _, rfl, k3.trans r3, rfl, rfl, rfl, rfl, rfl, rfl⟩
    · exact ⟨_, _, _, rfl, k3.trans r3, leave_act .., leave_mem .., leave_nextRid .., rfl, rfl, rfl⟩
  obtain ⟨u, e, r, ht, hr, h1, h2, h3, h4, h5, h6⟩ := split
  rw [ht]
  exact ⟨by rw [h1]; exact k1, h2.trans (k2.trans r2), h3, e, by rw [hr], h4, h5, h6⟩
theorem sendOut_drain (s : State) (kind : ReplyKind) (a : Word) (ask nm : Option (Fin 4)) (words : List TWord)
    (mk : State → Nat → BitVec 24 → BitVec 24 → Sent) : (s.sendOut kind a ask nm words mk).act.drain = s.act.drain := by
  rw [(sendOut_keeps s kind a ask nm words mk).1]
/-- A deposit that passes its checks, with room in the tables, leaves and completes (R323). -/
theorem deposit_sends {s : State} {a : Word} {align : Nat} {tn : TokName} {d : WData} {pop : Bool} (hd : s.act.drain = false)
    (h : Sendable s a align (s.act.nameSlot tn)) :
    s.deposit a align tn d pop = .next (completed (s.sendOut .deposit a s.act.askSlot (s.act.nameSlot tn) [] fun s0 rid asked held =>
      if isOwn a then .here (.deposit { who := s0.asReq rid, oa := a, data := d, tok := 0 })
      else .away { outMsg .depositReq (prefixOf a) a rid 0 [] with tok := asked, held := held, words := depositWords d })
      fun b => { b with stq := if pop then b.stq.tail else b.stq }) := by
  obtain ⟨h1, h2, h3⟩ := h
  unfold State.deposit
  simp only [h1, h2, h3, Bool.not_true, Bool.false_eq_true, if_false]
  cases pop
  · simp only [Bool.false_eq_true, if_false]
    refine (finish_eq ?_).trans rfl
    exact (sendOut_drain ..).trans hd
  · simp only [if_true]
    refine (finish_mapAct ?_).trans rfl
    exact (sendOut_drain ..).trans hd

/-! ## Watches taken back, and the end of an activation (R316, R318, R340) -/

theorem cancelPlaced_keeps (s : State) (w : WatchReg) :
    (s.cancelPlaced w).act = s.act ∧ (s.cancelPlaced w).mem = s.mem ∧ (s.cancelPlaced w).nextRid = s.nextRid := by
  unfold State.cancelPlaced; split
  · exact ⟨rfl, rfl, rfl⟩
  · split <;> exact ⟨rfl, rfl, rfl⟩
theorem placeWatch_keeps (s : State) (w : WatchReg) :
    (s.placeWatch w).act = s.act ∧ (s.placeWatch w).mem = s.mem ∧ (s.placeWatch w).nextRid = s.nextRid := by
  unfold State.placeWatch; split
  · exact ⟨rfl, rfl, rfl⟩
  · exact ⟨leave_act .., leave_mem .., leave_nextRid ..⟩
theorem noticeFrom_mem (s : State) (src : BitVec 15) (n : Fin 64) (c : BitVec 5) (ws : List TWord) :
    (s.noticeFrom src n c ws).mem = s.mem := by unfold State.noticeFrom; dsimp only; split <;> rfl
theorem trapNotice_mem (s : State) (info : RegInfo) (p0 p1 w1 : Word) (r : TrapReq) (p7 : Word) :
    (s.trapNotice info p0 p1 w1 r p7).mem = s.mem := by unfold State.trapNotice; exact noticeFrom_mem ..
theorem endedNotice_mem (s : State) (reg : Fin 8) (c : BitVec 5) (i : Fin 4) (t : TrapInfo) : (s.endedNotice reg c i t).mem = s.mem := by
  unfold State.endedNotice; dsimp only; split
  · exact trapNotice_mem ..
  · rw [noticeFrom_mem]; exact trapNotice_mem ..
theorem tellDeferred_mem (s : State) (reg : Fin 8) (c : BitVec 5) (i : Fin 4) (l : List TrapInfo) :
    (s.tellDeferred reg c i l).mem = s.mem := by
  unfold State.tellDeferred
  induction l generalizing s with
  | nil => rfl
  | cons x l ih => rw [List.foldl_cons, ih]; exact endedNotice_mem ..
theorem cancelWatches_mem (s : State) (ws : Vector WatchReg 4) : (s.cancelWatches ws).mem = s.mem := by
  unfold State.cancelWatches
  generalize ws.toList = l
  induction l generalizing s with
  | nil => rfl
  | cons x l ih => rw [List.foldl_cons, ih]; exact (cancelPlaced_keeps s x).2.1
theorem reportUse_mem (s : State) (rcb : Word) (a b c : Nat) : (s.reportUse rcb a b c).mem = s.mem := by
  unfold State.reportUse; split
  · rfl
  · split <;> rfl
theorem returnCredit_mem (s : State) (r : Fin 8) : (s.returnCredit r).mem = s.mem := by
  unfold State.returnCredit; dsimp only; split
  · rfl
  · split
    · rfl
    · split <;> rfl
/-- An activation that ends changes no memory. -/
theorem endAct_mem (s : State) (credit : Bool) : (s.endAct credit).mem = s.mem := by
  unfold State.endAct; dsimp only [State.unblock]
  split
  · rw [returnCredit_mem, reportUse_mem, cancelWatches_mem, tellDeferred_mem]
  · rw [reportUse_mem, cancelWatches_mem, tellDeferred_mem]

/-! ## Barriers (R220, R320) -/

/-- A release is taken: memory and the slot's registers stay, arr clears and ph flips. -/
theorem takeRelease_keeps (s : State) (b : Fin 4) (rect : BitVec 32) (err : Bool) :
    (s.takeRelease b rect err).mem = s.mem ∧ (s.takeRelease b rect err).act.p = s.act.p ∧
    (s.takeRelease b rect err).act.drain = s.act.drain ∧
    (s.takeRelease b rect err).me.bars[b] =
      { s.bar b with arr := false, ph := !(s.bar b).ph, err, west := false, north := false, bad := false } := by
  unfold State.takeRelease; dsimp only
  split <;> split <;> refine ⟨rfl, rfl, rfl, ?_⟩ <;>
    simp [State.setBar, State.mapMe, State.setCell, State.me, State.bar, State.unblock, State.emit, State.emitAs, State.release]
/-- A sweep leaves the register as it stands, or takes the release. -/
theorem sweep_keeps (s : State) (b : Fin 4) (old : BarReg) :
    (s.sweep b old).mem = s.mem ∧ (s.sweep b old).act.p = s.act.p ∧ (s.sweep b old).act.drain = s.act.drain ∧
    ((s.sweep b old).me.bars[b] = s.bar b ∨ (s.sweep b old).me.bars[b].ph = !(s.bar b).ph) := by
  unfold State.sweep; dsimp only
  have near : ∀ u : State, (u = s ∨ ∃ m, u = s.emit m) → u.mem = s.mem ∧ u.act = s.act ∧ u.me = s.me := by
    rintro u (rfl | ⟨m, rfl⟩) <;> exact ⟨rfl, rfl, rfl⟩
  generalize hu : (if ((s.bar b).rowDone s.here.fst && !old.rowDone s.here.fst && s.here.fst != (rectOf (s.bar b).rect).x1) = true then _
    else s) = u
  obtain ⟨u1, u2, u3⟩ := near u (by rw [← hu]; split; exact .inr ⟨_, rfl⟩; exact .inl rfl)
  split
  · split
    · obtain ⟨r1, r2, r3, r4⟩ := takeRelease_keeps u b (s.bar b).rect (s.bar b).bad
      refine ⟨r1.trans u1, r2.trans (by rw [u2]), r3.trans (by rw [u2]), .inr ?_⟩
      rw [r4]; unfold State.bar; rw [u3]
    · exact ⟨u1, by rw [← u2]; rfl, by rw [← u2]; rfl, .inl (by show u.me.bars[b] = _; rw [u3]; rfl)⟩
  · exact ⟨u1, by rw [u2], by rw [u2], .inl (by simp only [u3]; rfl)⟩

end Sys2Proof.Machine
end

