-- ==== Sys2Proof/Tests/Slice0.lean ====
section
/-!
SUPPORT. The author's own checks: words of the spec that decode to their instructions, terms that are not well formed, small steps, and for
each statement states and operands that meet its hypotheses. Expected values come from the spec's tables and worked examples.
-/
namespace Sys2Proof.Machine

/-! ## States -/

/-- An activation in slot 0 that stands at the start of the cell's local store. -/
def tS : State := State.reset.placeWord 0
/-- `tS` with its context changed. -/
def tA (f : Act → Act) : State := { tS with act := f tS.act }
def tP (i : PReg) (v : Word) : State := tA fun a => a.setP i { val := v, step := 0, tag := false }
/-- `tS` with the cluster, the package, or its own cell's registers changed. -/
def tC (f : Cluster → Cluster) : State := { tS with cl := f tS.cl }
def tK (f : Package → Package) : State := { tS with pkg := f tS.pkg }
def tM (f : CellRegs → CellRegs) : State := tS.mapMe f
/-- `tS` in a grid of two clusters, with every entry of the cluster map live. -/
def tG : State := tC fun c => { c with mapHead := 2, map := Vector.replicate 512 0x4000000000000000#64 }
/-- A line of the own local store. -/
def tL : Word := 0x200000100#64
def tX (i : PReg) (q : QUnit) (ty : Ty) (s : State) : Access := accessOf s.act.p[i] .disp (s.act.wide 0#12) q ty

/-- Whether a result is one that goes on. -/
def Chk.isOk {α : Type} : Chk α → Bool
  | .ok _ => true
  | _ => false
def Eng.isOk {α : Type} : Eng α → Bool
  | .ok _ => true
  | _ => false
def Home.isOk {α : Type} : Home α → Bool
  | .ok _ => true
  | _ => false
def Got.isOk : Got → Bool
  | .ok _ _ => true
  | _ => false
def Put.isOk : Put → Bool
  | .ok _ => true
  | _ => false
theorem Got.of_isOk {g : Got} (h : g.isOk = true) : ∃ e t, g = .ok e t := by
  cases g with
  | ok e t => exact ⟨e, t, rfl⟩
  | stop x => cases h
theorem Put.of_isOk {g : Put} (h : g.isOk = true) : ∃ t, g = .ok t := by
  cases g with
  | ok t => exact ⟨t, rfl⟩
  | stop x => cases h

/-! ## States that meet the hypotheses of the statements -/

theorem w_fromDecoder : FromDecoder tS := by show tS.act.drain = false; decide
theorem w_inOrder : InOrder tS := ⟨by decide, by decide⟩
theorem w_serving : Serving tS := ⟨w_inOrder, by show tS.inAtomic = false; decide⟩
theorem w_fresh : Fresh tS := by show tS.act.phase = .none; decide

/-- MakeReference: an address of each kind: malformed, no line, control, hole, and a line, at the ends of the control window. -/
theorem w_makeReference :
    (0x400000000#64).extractLsb' 34 30 ≠ 0 ∧ (0x3FFFFFFFF#64).extractLsb' 34 30 = 0 ∧ (0x3FFFFFFFF#64).extractLsb' 0 7 ≠ 0 ∧
    (0x2F0000000#64).extractLsb' 0 7 = 0 ∧ tS.cl.window 0x2F1000000 = .hole ∧ tS.cl.window 0x2EFFFFF80 = .hole ∧
    tS.cl.window tL.toNat ≠ .hole := by decide

/-- Branches: targets that R266 admits and refuses, and a filled, an empty and a reserved head of XQ. -/
theorem w_branches :
    targetFault 0x3FFFFFFFC#64 = none ∧ targetFault 0x400000000#64 = some 0x03 ∧ targetFault 0x200000002#64 = some 0x02 ∧
    (tA fun a => { a with xq := [.filled 1] }).act.xq = [.filled 1] ∧ tS.act.xq = [] := by decide

/-- LoopStart and LoopEnd: no loop, a loop with one iteration left, and one with two. -/
theorem w_loops :
    let a : Act := { tS.act with loop := { count := 1, start := 0x200000000, stop := tS.act.pc } }
    tS.act.loop.count = 0 ∧ a.loop.count = 1 ∧ a.pc = a.loop.stop ∧ ({ a.loop with count := 2 } : LoopState).count ≠ 1 := by decide

/-- ImmediateWidening: a prefix `ext`, another, and none. -/
theorem w_widening :
    tS.act.pfx = none ∧ (tA fun a => { a with pfx := some { pc := 0, word := 0, kind := .ext 0x800000 } }).act.wide 0xFFFF#16 =
      0xFFFFFF800000FFFF#64 := by decide

/-- Loads: an operand that is there, for an element, a group, a line and a pointer; LDQ full and with room. -/
theorem w_loads :
    (∃ e t, Reads (tP 1 tL) (tX 1 .element .i64 (tP 1 tL)) .i64 .element false e t) ∧
    (∃ e t, Reads (tP 1 tL) (tX 1 .group .u32 (tP 1 tL)) .u32 .group false e t) ∧
    (∃ e t, Reads (tP 1 tL) (tX 1 .line .u64 (tP 1 tL)) .u64 .line false e t) ∧
    (∃ e t, Reads (tP 1 tL) { ea := tL, np := tL, unit := .bytes 8, align := 8, bad := false } .ref .element true e t) ∧
    tS.act.ldqRoom = true ∧ (tA fun a => { a with ldq := List.replicate 16 (.reserved 0) }).act.ldqRoom = false :=
  ⟨Got.of_isOk (by decide), Got.of_isOk (by decide), Got.of_isOk (by decide), Got.of_isOk (by decide), by decide, by decide⟩

/-- The wait for room: an address that the cell admits, and one that it refuses. -/
theorem w_roomWait :
    tS.cellCheck (tX 1 .element .i64 (tP 1 tL)) = none ∧
    tS.cellCheck (tX 1 .element .i64 (tP 1 0x400000000#64)) = some 0x03 := by decide

/-- AddressChecks: an address of neither form, a pod address with bit 34, an element that is not aligned, a line at the end of its slot. -/
theorem w_addresses :
    formOk 0x400000000#64 = false ∧ formOk 0x8000000400000000#64 = false ∧ formOk 0x8000000300000000#64 = true ∧
    (tX 1 .element .i64 (tP 1 0x200000004#64)).ea.toNat % (tX 1 .element .i64 (tP 1 0x200000004#64)).align ≠ 0 ∧
    (tX 1 .line .u64 (tP 1 0x20003FF80#64)).ea.toNat % (tX 1 .line .u64 (tP 1 0x20003FF80#64)).align = 0 ∧
    (accessOf (tP 1 tL).act.p[1] .step 0 .element .nf).bad = true := by decide

/-- LoadGivesMemory: a line of local store, at its first and last word. -/
theorem w_loadGives :
    tS.cl.window tL.toNat ≠ .ctl ∧ (tS.checkPort tS.requester .load tL.toNat).isOk = true ∧
    (tS.checkPort tS.requester .load 0x20003FFF8).isOk = true ∧ tS.mem.encAt tL.toNat = 0 := by decide

/-- A word in STQ, and a line that it can go to. -/
def tW : State :=
  { tS with act := ({ tS.act with stq := [wordEntry .i64 5 false] } : Act).setP 1 { val := tL, step := 8, tag := false } }

/-- Stores: from STQ, of a pointer, and with STQ empty; a store that is accepted keeps its bytes in one line. -/
theorem w_stores :
    storeCheck (tX 1 .element .i64 tW) = none ∧ tS.act.stq = [] ∧
    (∃ t, tW.store (tX 1 .element .i64 tW) (.bytes (bytesOf 5) [false]) (some 5) = .ok t) ∧
    (∃ t, Stores tW (elementOf tW 1 .disp .i64 0#12)
      (.bytes ((bytesOf tW.act.a).take (tyBytes .i64)) (List.replicate (tyBytes .i64 / 8) false)) t) :=
  ⟨by decide, by decide, Put.of_isOk (by decide),
   by obtain ⟨t, h⟩ := Put.of_isOk (g := tW.store (elementOf tW 1 .disp .i64 0#12)
        (.bytes ((bytesOf tW.act.a).take (tyBytes .i64)) (List.replicate (tyBytes .i64 / 8) false)) none) (by decide)
      exact ⟨t, ⟨by decide, by decide⟩, by decide, by decide, h⟩⟩

/-- StoreWritesTags, ReadAfterWrite: memory in its canonical form, and a run that ends on a line. -/
theorem w_memory :
    Memory.reset.wf = true ∧ (Memory.reset.setBytes 0x7C [1, 2, 3, 4]).wf = true ∧ (bytesOf 5).length = 8 * [true].length ∧
    0x78 % 128 + 8 ≤ 128 := by decide

/-- The execute half: operands that are there, of an element, of a group of integers and of floats. -/
theorem w_operands :
    (∃ e t, Operand (tP 1 tL) (elementOf (tP 1 tL) 1 .disp .i64 0#12) .i64 .element e t) ∧
    (∃ e t, Operand (tP 1 tL) (elementOf (tP 1 tL) 1 .disp .fp32 0#9) .fp32 .element e t) ∧
    (∃ e t, Operand (tP 1 tL) (groupAt (tP 1 tL) 1 .disp .u16 0#12) .u16 .group e t) ∧
    (∃ e t, Operand (tP 1 tL) (groupAt (tP 1 tL) 1 .disp .ref 0#12) .ref .group e t) ∧
    (∃ e t, Operand (tP 1 tL) (groupAt (tP 1 tL) 1 .disp .bf16 0#9) .bf16 .group e t ∧ Scaled e t) := by
  have h {s : State} {x : Access} {ty : Ty} {q : QUnit} (hi : InOrder s) (hl : s.act.ldqRoom = true) (hc : s.inCtl x = false)
      (h0 : s.act.ldq = []) (hg : (s.load x ty q false).isOk = true) : ∃ e t, Operand s x ty q e t := by
    obtain ⟨e, t, h⟩ := Got.of_isOk hg
    exact ⟨e, t, hi, hl, hc, e, t, h, .inl ⟨h0, rfl, rfl⟩⟩
  have hi : InOrder (tP 1 tL) := ⟨by decide, by decide⟩
  refine ⟨h hi (by decide) (by decide) rfl (by decide), h hi (by decide) (by decide) rfl (by decide),
    h hi (by decide) (by decide) rfl (by decide), h hi (by decide) (by decide) rfl (by decide), ?_⟩
  have hb : (match (tP 1 tL).load (groupAt (tP 1 tL) 1 .disp .bf16 0#9) .bf16 .group false with
      | .ok e _ => !entryNan e
      | .stop _ => false) = true := by decide
  split at hb
  · next e t hl => exact ⟨e, t, ⟨hi, by decide, by decide, e, t, hl, .inl ⟨rfl, rfl, rfl⟩⟩, Or.inl (by simpa using hb)⟩
  · cases hb

/-- A split instruction behind a filled place of LDQ, and the pairs that `vfmal` pops with none, one and two older entries. -/
theorem w_olderEntries (e g : QEntry) :
    (let s := (tP 1 tL).mapAct fun a => { a with ldq := [.filled e] }
     s.act.ldq = [.filled e] ∧ s.act.ldqRoom = true ∧ InOrder s) ∧
    (∀ u, ∃ h1 h2 v, PopsPair tS e g u h1 h2 v) ∧
    (∀ u x, ∃ h2 v, PopsPair (tA fun a => { a with ldq := [.filled x] }) e g u x h2 v) ∧
    (∀ u x y, ∃ v, PopsPair (tA fun a => { a with ldq := [.filled x, .filled y] }) e g u x y v) :=
  ⟨⟨rfl, rfl, rfl, rfl⟩, fun u => ⟨e, g, u, .inl ⟨rfl, rfl, rfl, rfl⟩⟩, fun _ _ => ⟨e, _, .inr (.inl ⟨rfl, rfl, rfl⟩)⟩,
    fun _ _ _ => ⟨_, .inr (.inr ⟨[], rfl, rfl⟩)⟩⟩

/-- An NF group whose scale is a NaN, with nsc clear, and codes that decode to a finite value. -/
theorem w_scales :
    entryNan { wordEntry .nfs 0 false with scale := 0xFF } = true ∧ entryNan (wordEntry .nfs 0 false) = false ∧ tS.nsc = false ∧
    fmtValid 0x18121#64 = true ∧ (Desc.of 0x18121#24).width = 4 ∧ (nfDecode (Desc.of 0x18121#24) 7).isNan = false := by decide

/-- The number rules: a NaN of each format, types of each width and signedness, and a fraction that is half a unit. -/
theorem w_numbers :
    (fdecode Fmt.fp16 0x7E00).isNan = true ∧ (fdecode Fmt.bf16 0x7F81).isNan = true ∧ (fdecode Fmt.fp32 0x7F800001).isNan = true ∧
    (fdecode Fmt.fp64 0x7FF8000000000000).isNan = true ∧ (fdecode Fmt.fp32 0x7F800000).isNan = false ∧
    Ty.i8.isInt = true ∧ Ty.u64.isInt = true ∧ 2 * (5 % 2 ^ 1) = 2 ^ 1 := by decide

/-- Moves, accumulator and lane forms: a filled and an empty head of LDQ, room in STQ and XQ, and an older part that waits. -/
theorem w_queues :
    (tA fun a => { a with ldq := [.filled (wordEntry .i64 5 false)] }).act.ldq = [.filled (wordEntry .i64 5 false)] ∧ tS.act.ldq = [] ∧
    tS.act.xq.length < Config.xqSize ∧ tS.act.stq.length < Config.stqSize ∧
    (let s := tA fun a => { a with exq := [{ pc := 0, word := 0, instr := .qdrop, pfx := none }] }
     s.act.exq ≠ [] ∧ s.act.exq.length < Config.exqSize ∧ s.act.drain = false) ∧
    tS.act.k = 0 ∧ (tA fun a => { a with k := 4 }).act.k ≠ 0 := by decide

/-- PrefixMisuse and IllegalWords: a prefix before another and before a word that is none of its targets, a prefix that ends a loop, an
illegal word, and a branch at the end of a loop. -/
theorem w_prefixes :
    let loop : LoopState := { count := 1, start := 0x200000000, stop := tS.act.pc }
    (0xFC000000#32).extractLsb' 26 6 = 0x3F ∧ pfxAdmits (.ext 0) 0xB8600000#32 = false ∧ pfxAdmits .hint 0xB8600000#32 = true ∧
    (tA fun a => { a with loop }).act.misplaced 0xFC000000#32 = true ∧ tS.act.misplaced 0xFC000000#32 = false ∧
    (decode 0#32).toOption = none ∧ (decode 0x0C000001#32).toOption = some (.br 1) ∧
    (tA fun a => { a with loop }).act.misplaced 0x0C000001#32 = false := by decide

/-! ### Traps and control registers -/

/-- A state whose region has a save area in the slots of cells 0 to 3, with three frames for each. -/
def tFInfo : RegInfo := { RegInfo.none with save := 0x200010000, nfr := 3 }
def tFEntry : RegEntry := { RegEntry.reset with v := true, info := tFInfo }
def tF : State := tM fun c => { c with regs := c.regs.set 0 tFEntry }

/-- A trap request such as a precise trap makes. -/
def tT : TrapReq :=
  { code := 0x02, addr := 0x200000002, place := 0x8000000000000000, tok := 0, pc := tS.act.pc, resume := tS.act.pc, isDef := false,
    mem := false, sw := false, pay := false, iw := 0, pfx := 0 }

def Wrote.isOk : Wrote → Bool
  | .ok _ => true
  | _ => false
theorem Wrote.of_isOk {w : Wrote} (h : w.isOk = true) : ∃ t, w = .ok t := by
  cases w with
  | ok t => exact ⟨t, rfl⟩
  | _ => cases h
def ParkRes.isParked : ParkRes → Bool
  | .parked _ _ => true
  | _ => false
theorem ParkRes.of_isParked {w : ParkRes} (h : w.isParked = true) : ∃ t f, w = .parked t f := by
  cases w with
  | parked t f => exact ⟨t, f, rfl⟩
  | _ => cases h

/-- TrapEntry: a region with a vector outside trap mode whose frame can be written. -/
theorem w_trapEntry :
    let s := tF.mapMe fun c => { c with trapvec := 0x8000000200001000#64 }
    s.inAtomic = false ∧ s.act.exq = [] ∧ s.act.tm = false ∧ s.me.trapvec.getLsbD 63 = true ∧
    (s.me.trapvec.extractLsb' 56 3).toNat = s.act.reg.val ∧ s.trapFrame s.act.reg s.slotNo.val ≠ 0 ∧
    (s.writeWords (s.trapFrame s.act.reg s.slotNo.val).toNat [plainWords (recordWords tT 0 0)]).isOk = true := by decide

/-- TrapWithoutVector: no save area; a save area, outside trap mode and in it, with a free frame. -/
theorem w_trapWithoutVector :
    tS.inAtomic = false ∧ tS.act.exq = [] ∧ tS.regEntry.info.save = 0 ∧
    (∀ w1, ∃ t, tF.writeWords (tF.trapFrame tF.act.reg tF.slotNo.val).toNat [plainWords (recordWords tT w1 0)] = .ok t) ∧
    tF.trapFrame tF.act.reg tF.slotNo.val ≠ 0 ∧ tF.me.trapvec.getLsbD 63 = false ∧ tF.act.phase ≠ .frameBad ∧
    (tF.park tT.resume 0 0 (recordWords tT 0 0) false).isParked = true := by
  refine ⟨by decide, by decide, by decide, fun w1 => Wrote.of_isOk rfl, by decide, by decide, by decide, by decide⟩

/-- TrapInstruction, at its two ends; TrapReturn, outside trap mode and inside it with each kind of resume word. -/
theorem w_trapReturn :
    (0x20#8).toNat ≥ 0x20 ∧ (0x1F#8).toNat < 0x20 ∧ tS.inAtomic = false ∧ tS.act.exq = [] ∧ tS.regEntry.info.save = 0 ∧ tS.act.tm = false ∧
    ({ tS with cur := 4 } : State).inAtomic = true ∧
    (let s := { tF with act := { tF.act with tm := true } }
     s.act.tm = true ∧ (s.checkOwn .load ((s.trapFrame s.act.reg s.slotNo.val).toNat + 40)).isOk = true) ∧
    (0x400000000#64).extractLsb' 34 30 ≠ 0 ∧ (0x200000002#64).extractLsb' 0 2 ≠ 0 ∧ (0x200000004#64).extractLsb' 0 2 = 0 := by decide

/-- ControlRegisters: a register that reads, one that does not, a write that is taken, one that is not, and one that starts a change of the
cistern's mode. -/
theorem w_controlRegisters :
    (tS.lookCtl tS.issuer tS.self 0x009).isSome = true ∧ tS.lookCtl tS.issuer tS.self 0xFFF = none ∧
    (tS.writeCtl tS.issuer tS.self 0x009 5).isSome = true ∧ tS.writeCtl tS.issuer tS.self 0x009 0 = none ∧
    (tS.writeCtl { tS.issuer with ctlc := 0 } tS.self 0x108 1).any (fun t => t.cl.busy && !t.cl.fill) = true ∧
    (tS.writeCtl tS.issuer tS.self 0x010 0x8000).isSome = true ∧ tS.writeCtl tS.issuer tS.self 0x010 0x28000 = none ∧
    tS.writeCtl tS.issuer tS.self 0x010 0x0038000000008000 = none ∧
    (tS.writeCtl tS.issuer tS.self 0x020 0xFFFFFFFF).isSome = true ∧ tS.writeCtl tS.issuer tS.self 0x020 0x100000000 = none ∧
    maskWord (maskHandlers (tS.me.handlers.set 28 { tS.me.handlers[28] with v := true }) 0xFFFFFFFF) = 0x10000000#64 ∧
    tS.act.phase ≠ .ackWait := by decide

/-! ### Order, synchronization, messages -/

/-- Fences: a rectangle of one cell of the own cluster, one that is not well formed, and the owner form of each kind. -/
theorem w_fences :
    InOrder tG ∧ tG.cl.rectOk (rectOf 0) = true ∧ tG.cl.rectOk (rectOf 0x000F0000) = true ∧ tG.released = true ∧
    (∃ w : BitVec 32, tG.cl.rectOk (rectOf w) = false) ∧
    (tL.getLsbD 63 = false) ∧ (0x8000000000000000#64).getLsbD 63 = true ∧ tG.placeFault 0x8000000000000000#64 = none ∧
    (∃ c, tG.placeFault 0x8000200000000000#64 = some c) ∧
    General tG := by
  refine ⟨⟨by decide, by decide⟩, by decide, by decide, by decide, ⟨0x00100000#32, by decide⟩, by decide, by decide, by decide, ⟨0x04, by decide⟩, by show tG.inAtomic = false; decide⟩

/-- Publication: sequence words in own space, in local store, out of range and misaligned; nothing outstanding; a null and an own
reference; an object that is well formed and one that is not. -/
theorem w_publication :
    let s := tP 0 tL
    let q : Ptr := { val := 0x8000000200000180#64, step := 0, tag := true }
    let t := { tS with mem := tS.mem.setBytes 0x200000180 (bytesOf 0x0001000000000000#64) }
    Fresh s ∧ s.drained = true ∧ s.cl.walkQ.length < Config.walkQueueSize ∧ seqFault 0x200000008#64 = none ∧
    seqFault 0x200FFFFF8#64 = none ∧ seqFault 0x201000000#64 = some 0x05 ∧ seqFault 0x200000004#64 = some 0x02 ∧
    seqFault 0x400000000#64 = some 0x03 ∧ s.ownRef q = true ∧ s.ownRef Ptr.zero = false ∧
    (∃ site, t.checkPort t.requester .load 0x200000180 = .ok site ∧
      objOk (wordOf (t.view site 8)) ((t.viewTags site 1).headD false) 0x200000180 = true) ∧
    (∃ site, tS.checkPort tS.requester .load 0x200000180 = .ok site ∧
      objOk (wordOf (tS.view site 8)) ((tS.viewTags site 1).headD false) 0x200000180 = false) ∧
    s.cl.shades = [] :=
  ⟨by show (tP 0 tL).act.phase = .none; decide, by decide, by decide, by decide, by decide, by decide, by decide, by decide, by decide,
   by decide, ⟨_, rfl, by decide⟩, ⟨_, rfl, by decide⟩, by decide⟩

/-- Watches: an address of each refusal and one that passes, and each state of a register. -/
theorem w_watches :
    tG.watchFault tL = none ∧ tG.watchFault 0x400000000#64 = some 0x03 ∧ tG.watchFault 0x200000004#64 = some 0x02 ∧
    tG.watchFault 0x8000000000000000#64 = none ∧ tG.watchFault 0x8000200000000000#64 = some 0x04 ∧ tG.isHere tL = true ∧
    tS.act.watch[(0 : Fin 4)].st = .empty ∧
    (tS.act.setWatch 0 { WatchReg.none with st := .failed, code := 0x05 }).watch[(0 : Fin 4)].st = .failed := by decide

/-- Barriers: a rectangle of the own cell, one of two clusters, one that is not well formed; a register that is bound, has arrived, or
carries err. -/
theorem w_barriers :
    tG.cl.rectOk (rectOf 0) = true ∧ tG.rectOthers (rectOf 0) = [] ∧ tG.rectAbsent (rectOf 0) = false ∧
    (rectOf 0).holds tG.here.1 tG.here.2 = true ∧ tG.rectOthers (rectOf 0x000F0000) ≠ [] ∧
    (rectOf 0x00010001).holds tG.here.1 tG.here.2 = false ∧ tG.cl.rectOk (rectOf 0x00000001) = false ∧ tG.me.bars[(0 : Fin 4)].bound = false ∧
    (let q := { BarReg.reset with bound := true }
     q.arr = false ∧ q.err = false ∧ (rectOf q.rect).x0 = tG.here.1 ∧ (rectOf q.rect).y1 = tG.here.2 ∧ { q with arr := true }.arr = true) := by
  decide

/-- A token's entry. -/
def tTok (st : TokSt) : TokEnt :=
  { tok := 0x000001, aid := 0, reg := 0, rcb := 0, chan := 0, slot := 0, st, pc := 0, target := 0, place := 0, iw := 0, pfx := 0, dests := [] }

/-- Tokens: an empty slot, a pending token, a dead one, and one that is done. -/
theorem w_tokens :
    let s (l : List TokEnt) : State := { tS with toks := l, act := { tS.act with toks := tS.act.toks.set 0 1 } }
    tS.act.toks[(0 : Fin 4)] = 0 ∧ (s []).act.toks[(0 : Fin 4)] ≠ 0 ∧ (s []).tokEntry 1 = none ∧
    (s [tTok .pending]).tokEntry 1 = some (tTok .pending) ∧ (s [tTok .dead]).tokEntry 1 = some (tTok .dead) := by decide

/-- An entry of the reply table, for a deposit to the own local store. -/
def tEntry (rid : Nat) : ReplyEnt :=
  { rid, kind := .deposit, aid := 0, reg := 0, rcb := 0, chan := 0, slot := 0, pc := 0, target := tL, place := 0, tok := 0, asked := 0, iw := 0,
    pfx := 0, words := [], retries := 0, waiting := false, todo := none, sent := none }

theorem tFull : ¬ (List.replicate Config.replyTableSize (tEntry 0)).length < Config.replyTableSize := by
  rw [List.length_replicate]; exact Nat.lt_irrefl _

/-- Deposits, atomic requests, messages: addresses of the own space and of another place that pass, and one for each refusal; room in the
tables and none. -/
theorem w_sending :
    Sendable tG tL 8 none ∧ Sendable tG 0x8000001000000100#64 8 none ∧ tG.remoteFault 0x400000000#64 8 = some 0x03 ∧
    tG.remoteFault 0x8000000000000000#64 8 = some 0x03 ∧ tG.remoteFault 0x200000104#64 8 = some 0x02 ∧
    tG.remoteFault 0x8000200000000000#64 8 = some 0x04 ∧ Mailable tG tL 1 (some 1) none ∧ Mailable tG 0x8000001000000100#64 1 (some 27) none ∧
    tG.msgFault tL 1 (some 28) none none = some 0x05 ∧ Mailable tG tL 256 none none ∧ tG.act.stq = [] ∧
    tG.toks.length < Config.tokenTableSize ∧
    (let s := { tG with replies := List.replicate Config.replyTableSize (tEntry 0) }
     s.canSend tL none none = false ∧ ∃ x ∈ s.replies, x.aid = s.act.aid ∧ x.kind = .deposit ∧ s.placeOf x.target = s.placeOf tL) :=
  ⟨⟨by decide, by decide, by decide⟩, ⟨by decide, by decide, by decide⟩, by decide, by decide, by decide, by decide,
   ⟨by decide, by decide⟩, ⟨by decide, by decide⟩, by decide, ⟨by decide, by decide⟩, by decide, by decide, by rw [State.canSend, decide_eq_false tFull]; rfl,
   ⟨tEntry 0, List.mem_replicate.2 ⟨by decide, rfl⟩, by decide, by decide, by decide⟩⟩

/-- Messages: a region without a payS bound, one with and without credit, a free yield buffer and a full one. -/
theorem w_messages :
    tS.payer tS.regEntry .credit = 0 ∧
    (let e (n : Nat) : RegEntry := { RegEntry.reset with info := { RegInfo.none with payS := 5 }, credit := n }
     let s (n : Nat) := tM fun c => { c with regs := c.regs.set 0 (e n) }
     (s 1).payer (s 1).regEntry .credit ≠ 0 ∧ (s 0).payer (s 0).regEntry .credit ≠ 0 ∧ (s 1).regEntry.credit ≠ 0 ∧ (s 0).regEntry.credit = 0) ∧
    tS.yieldBuf[tS.slotNo] = none := by decide

/-- A handler that runs in the atomic slot for a request of this cell. -/
def tReq (op : AmoOp) : AtomReq :=
  { who := tS.asReq 0, oa := tL, op, size := 8, words := [{ val := 5, tag := false }], tok := 0 }
def tRun (l : List Collected) : AtomRun := { req := tReq .user, line := 0x200000100, stores := l, issued := 0 }
def Chk.isFault {α : Type} : Chk α → Bool
  | .fault _ _ => true
  | _ => false
theorem Chk.of_isOk {α : Type} {g : Chk α} (h : g.isOk = true) : ∃ t, g = .ok t := by
  cases g with
  | ok t => exact ⟨t, rfl⟩
  | _ => cases h
theorem Chk.of_isFault {α : Type} {g : Chk α} (h : g.isFault = true) : ∃ c m, g = .fault c m := by
  cases g with
  | fault c m => exact ⟨c, m, rfl⟩
  | _ => cases h

/-- DoneInAtomicSlot: a store that its page takes, and one that it does not. -/
theorem w_doneInAtomicSlot :
    let s : State := { tF with cur := 4, atomRun := some (tRun []) }
    s.inAtomic = true ∧ s.act.exq = [] ∧ s.isSelf (tReq .user).who = true ∧
    (∃ t, ({ s with atomRun := none } : State).commitStores [{ oa := tL, data := .bytes (bytesOf 5) [false] }] = .ok t) ∧
    (∃ c m, ({ s with atomRun := none } : State).commitStores [{ oa := 0x2F1000000, data := .bytes (bytesOf 5) [false] }] = .fault c m) :=
  ⟨by decide, by decide, by decide, Chk.of_isOk (by decide), Chk.of_isFault (by decide)⟩

/-! ### The memory system and the engines -/

/-- The service cell, and an activation in each phase of a wait on the home. -/
def tH : State := { tS with self := 63 }
def tPh (ph : Phase) : State := tA fun a => { a with phase := ph }

set_option maxRecDepth 4000 in
/-- TranslationMaintenance: words that are accepted and that are not, for an entry of each kind, and each argument of `tlbi`. -/
theorem w_translationMaintenance :
    Serving tH ∧ tH.isService = true ∧ tS.isService = false ∧ tlbWordsOk 0#64 0#64 = true ∧ tlbWordsOk 0xC000000000000000#64 0#64 = false ∧
    (tH.tlbwHome 0 0).any (fun t => t.cl.tlb.length == 1) = true ∧
    (let t := tC fun c => { c with tlb := List.replicate Config.maxPinned { mw := 1, dw := 0x40000000000#64 } }
     t.tlbwHome 0 0x40000000000#64 = none ∧ t.cl.pinsFull = true) ∧
    tH.issuer.privileged = true ∧ tS.issuer.privileged = false ∧ tlbiFault 0 0x1FFFFFFFF#64 = none ∧
    tlbiFault 0 0x200000000#64 = some 0x04 ∧ tlbiFault 0 0x400000000#64 = some 0x03 ∧ tlbiFault 1 15 = none ∧ tlbiFault 1 16 = some 0x05 ∧
    (tPh .ackWait).act.phase = .ackWait :=
  ⟨⟨⟨by decide, by decide⟩, by show tH.inAtomic = false; decide⟩, by decide, by decide, by decide, by decide, by decide,
   ⟨by decide, by decide⟩, by decide, by decide, by decide, by decide, by decide, by decide, by decide, by decide⟩

/-- A frame at the end of the region's save block with the marks of a parked activation of cell `n`, and that activation. -/
def tMarks (n : Word) : State := { tF with mem := tF.mem.setBytes 0x200010140 (bytesOf n) }
def tParked : Parked :=
  { frame := 0x200010000, act := { Act.idle with reg := 0 }, word1 := 0, word40 := 0, word41 := 0, oa := 0, byFault := true,
    runnable := false, byPause := false, failCode := none, pfx := 0, waits := false, lost := false }
def Pready.isDone : Pready → Bool
  | .done _ => true
  | _ => false
def Pready.isRefused : Pready → Bool
  | .refused => true
  | _ => false

/-- ParkedActivations: a frame of this cell, with and without an activation that matches; of a cell that is not there; of another cell. -/
theorem w_parkedActivations :
    let s : State := { tMarks 0 with parked := [tParked] }
    let t : State := s.mapReg 0 fun e => { e with info := { e.info with chain := [5] } }
    let a : Word := 0x200010000
    a.extractLsb' 34 30 = 0 ∧ a.toNat % 512 = 0 ∧ (s.checkPort s.requester .load (a.toNat + 320)).isOk = true ∧
    (s.cl.present 0 = true ∧ s.lclu = 0) ∧ (t.preadyHere a 5 false 0).isDone = true ∧ (s.preadyHere a 5 false 0).isRefused = true ∧
    ((tMarks 0).preadyHere a 5 false 0).isRefused = true ∧
    ((0x200010100#64).toNat % 512 ≠ 0 ∧ (0x400000000#64).extractLsb' 34 30 ≠ 0) ∧
    wordOf ((tMarks 7).mem.bytesAt 0x200010140 8) = 7 ∧ (7#64).extractLsb' 15 49 = 0 ∧ (7#64).extractLsb' 6 9 = tS.lclu ∧
    tS.cl.present 7 = true ∧ (tC fun c => { c with cellMap := c.cellMap.set 7 0 }).cl.present 7 = false := by decide

/-- MatrixCommands: operands of each command that pass, a transfer in each state, a buffer of the region, and the queue full. -/
theorem w_matrixCommands :
    let s : State := { tG with mx := { tG.mx with bufs := tG.mx.bufs.set 0 { StatBuf.reset with valid := true } } }
    let b : Word := 0x00000000200000000#64
    s.cl.clucfg.getLsbD 2 = true ∧ (tC fun c => { c with clucfg := 3 }).cl.clucfg.getLsbD 2 = false ∧ s.mxWaiting < Config.matrixQueueSize ∧
    (formOk tL = true ∧ tL.toNat % 128 = 0 ∧ s.scopeFault 2 = none ∧ s.sourceFault tL = none) ∧
    ((0#64).extractLsb' 4 60 = 0 ∧ (tyIn ((0#64).extractLsb' 0 4) operandTys).isSome = true) ∧
    ((0xFF0000000000000A#64).extractLsb' 4 52 = 0 ∧ (0xFF0000000000000A#64).extractLsb' 0 4 = Ty.code .fp32) ∧
    (isOwn tL = true ∧ s.slotBase ≤ tL.toNat ∧ tL.toNat + 2 ≤ s.slotBase + 0x40000 ∧ s.inOctet 0x200000000 128 = true ∧
      b.extractLsb' 34 10 = 0 ∧ (tyIn (b.extractLsb' 44 4) operandTys).isSome = true ∧ s.bufferOk false = true) ∧
    s.mx.xfers[(0 : Fin 16)].st = .free ∧ s.mx.used + 1 ≤ 256 ∧
    (let t := s.mx.xfers.set 0 { Xfer.reset with st := .opened, m := 1 }
     t[(0 : Fin 16)].st = .opened ∧ t[(0 : Fin 16)].reg = s.act.reg ∧ t[(0 : Fin 16)].m = 1) ∧
    progOpOk 0 = true ∧ commitDescOk (0xA000000000000100#64) = true ∧
    (let x (st : XferSt) : Xfer := { Xfer.reset with st, m := 200 }
     let u : State := { s with mx := { s.mx with xfers := s.mx.xfers.set 1 (x .closing) } }
     256 < u.mx.used + 100 ∧ u.mx.used + 100 - u.mx.closingRows ≤ 256) := by decide

/-- EngineWaits: a queued command of the activation, and an identifier in each state. -/
theorem w_engineWaits :
    let e (st : IdSt) : State := { tS with pulls := tS.pulls.set 0 { EngId.reset with st } }
    let c : MCmd := tS.newCmd .mprog
    let s : State := { tS with mx := { tS.mx with queue := [c], next := 1 } }
    tS.pulls[(0 : Fin 4)].st = .free ∧ (e .busy).pulls[(0 : Fin 4)].st = .busy ∧ (e .busy).pulls[(0 : Fin 4)].reg = tS.act.reg ∧
    (e (.ended 0)).pulls[(0 : Fin 4)].st = .ended 0 ∧ (e (.ended 0x0F)).pulls[(0 : Fin 4)].st = .ended 0x0F ∧
    (s.mx.queue.any fun d => decide (d.num < s.mx.next) && d.aid == s.act.aid) = true ∧ tS.mx.queue = [] ∧
    (tPh (.engWait 5)).act.phase = .engWait 5 := by decide

/-- A descriptor of one row of 8 bytes for `pull`, and one of a ring of one member with no elements for `coll`. -/
def tPull : State :=
  { tG with mem := tG.mem.setBytes 0x200000100 ([tL, 0x200000200#64, 0x0000000100000008#64].flatMap bytesOf) }
def tColl : State :=
  { tC fun c => { c with mapHead := 2, map := Vector.replicate 512 0x4000000000000000#64,
                         depwin := c.depwin.set 0 (0x8000000000000000#64 ||| (8#64 <<< 34) ||| 0x200000000#64) } with
    mem := tG.mem.setBytes 0x200000100 ([10#64 <<< 27, 0x200000000#64, 0, 0x200000000#64, 0, 0x200000300#64].flatMap bytesOf)
      |>.setBytes 0x200000300 (bytesOf tG.cl.place)
    cells := tF.cells }
theorem Eng.of_isOk {α : Type} {g : Eng α} (h : g.isOk = true) : ∃ t, g = .ok t := by
  cases g with
  | ok t => exact ⟨t, rfl⟩
  | _ => cases h

/-- EngineCommands: the engines on and off, a descriptor address of each refusal, and descriptors that pass. -/
theorem w_engineCommands :
    tG.cl.clucfg.getLsbD 0 = true ∧ tG.cl.clucfg.getLsbD 1 = true ∧ (tC fun c => { c with clucfg := 0 }).cl.clucfg.getLsbD 1 = false ∧
    (tL.extractLsb' 34 30 = 0 ∧ tL.toNat % 128 = 0 ∧ tG.inSlot1 tL.toNat 128 = true ∧ tG.inSlot1 0x200040000 128 = false) ∧
    (Fresh tPull ∧ Fresh tColl) ∧
    (∃ site, tPull.checkOwn .load tL.toNat = .ok site ∧
      let ws := wordsOf 16 (tPull.view site 128)
      formOk (ws.getD 0 0) = true ∧ tPull.pullOk false ws = true ∧ tPull.sourceFault (ws.getD 0 0) = none) ∧
    tPull.scopeFault 2 = none ∧ tPull.pulls[(0 : Fin 4)].st ≠ .busy ∧ tPull.cl.pullQ = [] ∧
    (∃ site, tColl.checkOwn .load tL.toNat = .ok site ∧
      let ws := wordsOf 16 (tColl.view site 128)
      tColl.collRanges ws = true ∧ tColl.memberTable (ws.getD 5 0).toNat (collSpec (ws.getD 0 0)).nmem = .ok [tG.cl.place] ∧
      tColl.membersOk ws [tG.cl.place] = true ∧ tColl.membersOk ws [] = false ∧
      tColl.stagePages (ws.getD 3 0).toNat (((ws.getD 3 0).toNat % 0x10000 + 128 + 12 * (ws.getD 2 0).toNat + 0xFFFF) / 0x10000) = .ok ()) ∧
    tColl.isHere tG.cl.place = true :=
  ⟨by decide, by decide, by decide, by decide, ⟨by show tPull.act.phase = .none; decide, by show tColl.act.phase = .none; decide⟩,
   ⟨_, rfl, by decide⟩, by decide, by decide, by decide, ⟨_, rfl, by decide, rfl, by decide, by decide, rfl⟩, by decide⟩

/-- MatrixRefusals: a general slot with the engine enabled and, for each check, a value that fails it alone; and rows that a commit is to
free, that none is, and that are free. -/
theorem w_matrixRefusals :
    (Serving tG ∧ Fresh tG ∧ tG.cl.clucfg.getLsbD 2 = true) ∧
    (formOk 0x400000000#64 = false ∧ isOwn 0x8000001000000100#64 = false ∧ (tL + 4).toNat % 128 ≠ 0) ∧
    (tG.cl.rectOk (rectOf 0xFFFFFFFF) = false ∧ tG.cl.rectOk (rectOf 0) = true) ∧
    (tG.isHere 0x8000200000000000#64 = false ∧ tG.placeFault 0x8000200000000000#64 = some 0x04) ∧
    (tG.inOctet 0x200000000 128 = true ∧ tG.inOctet 0x2001FFF80 128 = true ∧ tG.inOctet 0x200200000 128 = false) ∧
    (tG.bufferOk false = false ∧ progOpOk 0xFFFF = false ∧ progOpOk 0 = true) ∧
    (let used (st : XferSt) : State := { tG with mx := { tG.mx with xfers := tG.mx.xfers.set 0 { Xfer.reset with st, m := 256 } } }
     (used .closing).mx.used = 256 ∧ (used .closing).mx.closingRows = 256 ∧ (used .opened).mx.closingRows = 0 ∧ tG.mx.used = 0) := by
  refine ⟨⟨⟨⟨rfl, rfl⟩, rfl⟩, rfl, by decide⟩, ?_, ?_, ?_, ?_, ?_, ?_⟩ <;> decide

/-! ### The cluster's own events -/

def Home.isBad {α : Type} : Home α → Bool
  | .bad _ => true
  | _ => false
theorem Home.of_isOk {α : Type} {g : Home α} (h : g.isOk = true) : ∃ t, g = .ok t := by
  cases g with
  | ok t => exact ⟨t, rfl⟩
  | _ => cases h
theorem Home.of_isBad {α : Type} {g : Home α} (h : g.isBad = true) : ∃ c, g = .bad c := by
  cases g with
  | bad t => exact ⟨t, rfl⟩
  | _ => cases h

/-- A requester of another cell of the cluster, and a deposit window over the start of the own local store that is open. -/
def tWho : Requester := { tS.requester with lcell := 0x0001, rid := 9 }
def tDep : State :=
  { (tM fun c => { c with lsattr := 0x0002C0000002C000#64 }) with
    cl := { tF.cl with depwin := tF.cl.depwin.set 0 (0x8000000000000000#64 ||| (8#64 <<< 34) ||| 0x200000000#64) } }
def tDepReq : DepositReq := { who := tWho, oa := tL, data := .bytes (bytesOf 5) [false], tok := 0 }

/-- PortRequests: a request of each kind that the port accepts, and one that it refuses. -/
theorem w_portRequests :
    tF.cl.window tL.toNat ≠ .ctl ∧ tF.cl.window 0x2F1000000 ≠ .ctl ∧
    (∃ site e, tF.checkPort tWho .load tL.toNat = .ok site ∧ tF.tileBad site tL.toNat .load = false ∧
      tF.readUnit site tL.toNat (unitTy (.bytes 8)) (.bytes 8) .other = .ok e) ∧
    (∃ c m, tF.checkPort tWho .load 0x2F1000000 = .fault c m) ∧
    (∃ site, tF.checkWrite tF.deviceReq .store tL.toNat (.bytes (bytesOf 5) [false]) = .ok site) ∧
    (∃ c m, tF.checkWrite tF.deviceReq .store 0x2F1000000 (.bytes (bytesOf 5) [false]) = .fault c m) ∧
    (∃ site, tF.checkPortWith tF.deviceReq .store (fun _ => true) tL.toNat = .ok site) ∧
    (∃ c m, tF.checkDeposit tDepReq = .fault c m) ∧ tF.cl.fills = [] ∧ tF.joins = [] ∧ (tPh (.loadWait 3 0)).act.phase = .loadWait 3 0 ∧
    slotIdx (.gen 0) = tF.cur ∧ tF.act.live = true ∧ isOwn tF.act.pc = true ∧ tF.act.heldLine tF.act.pc = none ∧
    (∃ bs, tF.readLine tF.act.pc = .ok bs) :=
  ⟨by decide, by decide, ⟨_, _, rfl, by decide, rfl⟩, Chk.of_isFault (by decide), Chk.of_isOk (by decide), Chk.of_isFault (by decide),
   Chk.of_isOk (by decide), Chk.of_isFault (by decide), by decide, by decide, by decide, by decide, by decide, by decide, by decide,
   Chk.of_isOk (by decide)⟩
/-- PortRequests, a tile's line whose scale byte is poisoned. -/
theorem w_portTile :
    let s0 := tM fun c => { c with lsattr := 0x0004400000044000#64 }
    let s : State := { s0 with cl := { s0.cl with fmt := s0.cl.fmt.set 0 0x18121#64 }, mem := s0.mem.setPoison 0x200000000 true }
    ∃ site, s.checkPort tWho .stationary tL.toNat = .ok site ∧ s.tileBad site tL.toNat .stationary = true := ⟨_, rfl, by decide⟩
theorem w_portDeposit : ∃ site, tDep.checkDeposit tDepReq = .ok site := Chk.of_isOk (by decide)

set_option maxRecDepth 4000 in
/-- TranslationAtHome: a `tlbw` of each outcome, a page fault of a region with frames and of one without, a frame whose marks match. -/
theorem w_translationAtHome :
    (∃ t, tS.tlbwHome 0 0 = some t) ∧
    ((tC fun c => { c with tlb := List.replicate Config.maxPinned { mw := 1, dw := 0x40000000000#64 } }).cl.pinsFull = true) ∧
    tS.regEntry.info.save = 0 ∧ (tF.regEntry.info.save ≠ 0 ∧ tF.regEntry.info.nfr ≠ 0 ∧ tF.act.exq = []) ∧
    (tF.park tF.act.trapPc tL 0 [] false).isParked = true ∧
    (let s : State := { tMarks 0 with parked := [tParked] }
     s.me.fenced = false ∧ (s.parked.find? fun q => q.frame == 0x200010000#64) = some tParked ∧
     (∃ r, s.frameMarks 0x200010000 = .ok r ∧ r.1 = tParked.word1 ∧ r.2.1 = tParked.word40 ∧ r.2.2 = tParked.word41)) :=
  ⟨⟨_, rfl⟩, by decide, by decide, by decide, by decide, by decide, by decide, ⟨_, rfl, by decide, by decide, by decide⟩⟩

/-- ClusterUpkeep: a frame that is pending and one that is not, each mode of the patrol and the cistern, ticks at each mark of a window, an
event queue with room and a full one, a head inside the queue. -/
theorem w_clusterUpkeep :
    (0 < Config.sliceFrames ∧ tS.cl.clean.contains 0 = false ∧ tS.mem.wf = true ∧ rising tS.cl.clean = true) ∧
    (tC fun c => { c with clucfg := 0x17 }).cl.clucfg.extractLsb' 4 2 = 1 ∧ tS.cl.fill = false ∧ tS.cl.busy = false ∧ tS.engineBusy = false ∧
    (1200000#64).toNat % 1200000 = 0 ∧ (1201200#64).toNat % 1200000 = 1200 ∧ tS.cl.evTail - tS.cl.evHead ≠ 256 ∧ tS.cl.evWait = [] ∧
    (0x100#9 - 0#9 = 256#9) ∧ ((0#9) - tS.cl.evHead).toNat ≤ (tS.cl.evTail - tS.cl.evHead).toNat := by decide

/-- SynchronizationEvents: an advance that is queued, of a word that has room and one that is all ones; a watch that is met, one that is kept. -/
theorem w_synchronization :
    let ent : WalkEnt := { root := none, word := tL, slot := .gen 0, who := tS.lcell }
    let s (m : Memory) : State := { tF with mem := m, cl := { tF.cl with walkQ := [ent] } }
    let ones := tF.mem.setBytes tL.toNat (bytesOf 0xFFFFFFFFFFFFFFFF#64)
    let req (n : Word) : WatchReq := { who := tS.requester, oa := tL, thresh := n, acq := false }
    (s tF.mem).cl.walkQ.length < Config.walkQueueSize ∧
    (∃ site, (s tF.mem).checkPort { tS.deviceReq with lcell := ent.who } .atomic tL.toNat = .ok site ∧ wordOf ((s tF.mem).view site 8) ≠ 0xFFFFFFFFFFFFFFFF#64) ∧
    (∃ site, (s ones).checkPort { tS.deviceReq with lcell := ent.who } .atomic tL.toNat = .ok site ∧ wordOf ((s ones).view site 8) = 0xFFFFFFFFFFFFFFFF#64) ∧
    ent.who = tF.lcell ∧ slotIdx ent.slot = tF.cur ∧
    ((s (tF.mem.setLit tL.toNat true)).watchNow (req 0)).isSome = true ∧ tF.watchNow (req 1) = none ∧ tF.cl.watches = [] ∧ tF.acquiring = [] ∧ tF.watchSaved 0 = false ∧
    (let w : WatchReg := { WatchReg.none with st := .pending, rid := 3, addr := tL }
     let a : State := { tF with act := tF.act.setWatch 0 w }
     a.act.watch[(0 : Fin 4)].st = .pending ∧ (a.allWatches.find? fun w => w.st == WatchSt.pending && w.rid == 3) = some w) ∧
    tF.me.bars[(0 : Fin 4)].arr = false :=
  ⟨by decide, ⟨_, rfl, by decide⟩, ⟨_, rfl, by decide⟩, by decide, by decide, by decide, by decide, by decide, by decide, by decide,
   by decide, by decide⟩

/-- RequestsAndReplies: a queue with room; a built-in operation on an own word; a handler that is installed; a request that waits, with a
reply-table entry of each count; a token that is pending. -/
theorem w_requestsAndReplies :
    let q (op : AmoOp) : State := { tF with atomQ := [tReq op] }
    let e (n : Nat) : ReplyEnt := { tEntry 7 with retries := n, waiting := true, todo := some .lampWalk }
    let s (n : Nat) : State := { tF with replies := [e n] }
    tF.cells[tF.atomicCell tL.toNat].fenced = false ∧ tF.atomicCell tL.toNat = tF.self ∧ tF.atomQ.length < Config.atomicQueueSize ∧
    (∃ r, (({ q .add with atomQ := [] } : State).wakeHeld.without (tReq .add)).runBuiltin (tReq .add) = .ok r) ∧
    ((tF.mapMe fun c => { c with handlers := c.handlers.set 30 { Handler.reset with v := true } }).me.handlers[(30 : Fin 32)].v = true) ∧
    (tF.checkPort (tReq .user).who .atomic tL.toNat).isOk = true ∧ tF.cur ≠ 4 ∧
    (tF.checkWrite (tReq .add).who .atomic tL.toNat (.bytes (bytesOf (0 + 5)) [false])).isOk = true ∧
    (s 63).replyOf 7 = some (e 63) ∧ (e 63).retries < 64 ∧ 64 ≤ (e 64).retries ∧ (e 64).asked = 0 ∧ tF.act.live = true ∧
    tF.act.aid = (e 0).aid ∧ tF.cl.launches = [] ∧ tF.atomOld = [] ∧
    (([tTok .pending].find? fun x => x.tok == 1 && x.st == .pending) = some (tTok .pending)) :=
  ⟨by decide, by decide, by decide, Chk.of_isOk (by decide),
   by decide, by decide, by decide, by decide, by decide, by decide, by decide, by decide, by decide, by decide, by decide, by decide,
   by decide⟩

/-- HoldQueue: a message held on a token with a release record, with room in the queue and with none. -/
theorem w_holdQueue :
    let h : HeldMsg := { hid := 1, tok := 1, left := 5, body := .deposit tDepReq }
    let s (l : List RelEnt) (n : BitVec 13) (q : List HoldEnt) : State := tC fun c => { c with rels := l, holdq := n, hold := q }
    (s [{ tok := 1, count := 1 }] 0 []).cl.relOf h.tok = some { tok := 1, count := 1 } ∧ (s [] 1 []).cl.relOf h.tok = none ∧
    (s [] 1 []).cl.holdUsed ((s [] 1 []).heldPtn h) < (s [] 1 []).holdQuota ((s [] 1 []).heldPtn h) ∧
    (s [] 0 []).holdQuota ((s [] 0 []).heldPtn h) ≤ (s [] 0 []).cl.holdUsed ((s [] 0 []).heldPtn h) ∧
    (s [] 1 []).relRoom (s [] 1 []).cl.ptn = true ∧ (s [] 1 [{ held := h }]).cl.hold = [{ held := h }] ∧
    h.other = none ∧ ({ h with other := some (1, 2) } : HeldMsg).other = some (1, 2) := by decide

/-- A cell whose channel 3 has an entry, and a message to it. -/
def tMsg : Msg :=
  { kind := .data, chan := 3, spw := false, held := false, src := 1, dst := 0, spkg := 0, tok := 0, words := [{ val := 7, tag := true }] }
def tIn : InMsg := { who := tWho, msg := tMsg, tok := 0 }
def tHand : State :=
  ({ tF with cl := { tF.cl with running := [0] } } : State).mapMe fun c => { c with handlers := c.handlers.set 3 { Handler.reset with v := true, len := 1, entry := 0x200000000 } }

set_option maxRecDepth 20000 in
/-- MessagesAtTheCell: a message of a channel with an entry and of one without; a yield buffer's; the pump in each mode; a selection that has
a free slot. -/
theorem w_messagesAtTheCell :
    (tHand.me.fenced = false ∧ tHand.me.evicted = false ∧ tHand.cl.power ≠ .hold ∧ tHand.cl.clockStop = false ∧ tHand.mesh = []) ∧
    tHand.delivery tIn = .here ∧ tHand.msgRefusal tIn = 0 ∧ tHand.inbox.length < Config.inboxLimit ∧ (tHand.chanReg 3).sumpEmpty = true ∧
    (tHand.entryOf 4).v = false ∧ tHand.me.ended.getLsbD 4 = false ∧ tHand.replies.length < Config.replyTableSize ∧
    (let s : State := { tHand with mesh := [tIn], inbox := List.replicate (Config.replayLevel + 1) tIn }
     s.pumping = false ∧ Config.replayLevel < s.inbox.length) ∧
    (let s : State := { tHand with pumping := true, inbox := List.replicate (Config.inboxLimit - 1) tIn } 
     let u := s.mapReg 0 fun e => { e with sumpTail := 1, sumpChans := [3], info := { e.info with sump := 0x200010000, slines := 4 } }
     u.nextSump = some 0 ∧ u.inbox.length + 1 = Config.inboxLimit ∧
       u.me.regs[(0 : Fin 8)].sumpChans.head? ≠ some takenChan ∧ (u.checkPort u.cellReq .load (u.sumpLine u.me.regs[(0 : Fin 8)] u.me.regs[(0 : Fin 8)].sumpHead)).isOk = true) ∧
    (let s : State := { tHand with inbox := [tIn] }
     (s.slotAct (slotIdx (.gen 1))).live = false ∧ s.askLacking = s ∧ s.choose = some 3 ∧ s.runnableOf 3 = none ∧ s.pendingOf 3 = some tIn ∧
       (s.slotAct (slotIdx (.gen 0))).live = true) := by
  refine ⟨?_, ?_, ?_, ?_, ?_, ?_, ?_, ?_, ?_, ?_, ?_, State.askLacking_eq ?_, ?_⟩ <;> decide

/-- A control block at 0x1000 with a state, for the own cell's rectangle. -/
def tRcb (st : Word) : State :=
  { tG with mem := tG.mem.setBytes 0x1000 (bytesOf (st <<< 62)) |>.setBytes 0x1058 (bytesOf 0x8000000000000000#64)
            cl := { tG.cl with vfpair := tG.cl.vfpair.set 0 0x8000000000100000#64, clean := [0] } }
def tRec : InstallRec := { info := { RegInfo.none with rcb := 0x1000 }, rect := 0, chan := 3, e0 := 0, e1 := 0, e2 := 0 }

/-- RegionCommands: a control block in each state, with the requester named by its chain and not; a region that is installed; a record that
is accepted and one that is not. -/
def tPod : Word := 0x8000000000001000#64
def tRcbOf (st : Word) : Rcb :=
  { addr := tPod, words := [st <<< 62, 0, 0, 0, 0, 0, 0, 0, 0, 0, 0, 0x8000000000000000#64, 0, 0, 0, 0] }
theorem w_regionCommands :
    (∃ b, b = tRcbOf 0 ∧ (tRcb 0).rcbChain [] tPod 9 = .ok [b] ∧ b.state = 0 ∧ b.addr = tPod ∧ (tRcb 0).podOf 0x1000 = tPod ∧
      ((tRcb 0).launch [] [b] b tWho 0).isOk = true) ∧
    (∃ b, b = tRcbOf 1 ∧ (tRcb 1).rcbChain [] tPod 9 = .ok [b] ∧ b.state = 1 ∧ (tRcb 1).isHere 0x1000 = true ∧ (tRcb 1).turnsAway tWho = none ∧
      (tRcb 1).cl.launches = [] ∧ (tRcb 1).cl.ends = [] ∧ (tRcb 1).stopsFor tWho = false ∧ (tRcb 1).me.regOf tPod = none ∧
      (tRcb 1).regionSaved tPod = false ∧ (tRcb 1).rcbAt [] tPod = .ok b ∧
      ((tRcb 1).rcbPut tPod 0 [(3#2 ++ (b.w 0).extractLsb' 0 62 : BitVec 64)]).isOk = true) ∧
    (∃ b, b = tRcbOf 2 ∧ (tRcb 2).rcbChain [] tPod 9 = .ok [b] ∧ b.state = 2 ∧ b.budgetGone = false ∧ (tRcb 2).treeEvicted [b] = false) ∧
    (∃ b, b = tRcbOf 3 ∧ (tRcb 3).rcbChain [] tPod 9 = .ok [b] ∧ b.state = 3) ∧
    ({ addr := 0, words := [0, 0, 0x8000000000000000#64] } : Rcb).budgetGone = true ∧ isHost tWho = false ∧ tWho.rcb = 0 ∧
    (∃ t, tG.installHere tRec = .ok t ∧ t.me.regOf 0x1000 = some 0) ∧ (∃ c, tG.installHere { tRec with chan := 29 } = .bad c) ∧
    tS.mbReady = false ∧ prefixOf 0x8000000000001000#64 = prefixOf tS.cl.place :=
  ⟨⟨_, rfl, rfl, by decide, by decide, by decide, by decide⟩,
   ⟨_, rfl, rfl, by decide, by decide, by decide, by decide, by decide, by decide, by decide, by decide, rfl, by decide⟩,
   ⟨_, rfl, rfl, by decide, by decide, by decide⟩,
   ⟨_, rfl, rfl, by decide⟩,
   by decide, by decide, by decide, ⟨_, rfl, by decide⟩, Home.of_isBad (by decide), by decide, by decide⟩

/-- MessagesAtTheCell, its grants: a control block that runs and one that does not, with a budget that is left and one that is gone, for a
region that pays for itself; and an ancestor that does not run. -/
def tPay (st budget : Word) : State := { tRcb st with mem := (tRcb st).mem.setBytes 0x1010 (bytesOf budget) }
def tPayOf (st budget : Word) : Rcb :=
  { addr := 0x1000, words := [st <<< 62, 0, budget, 0, 0, 0, 0, 0, 0, 0, 0, 0x8000000000000000#64, 0, 0, 0, 0] }
theorem w_grants :
    (∃ b, (tPay 1 0x8000000000000005#64).rcbAt [] 0x1000 = .ok b ∧ b.state = 1 ∧ (b.w (grantWord .activations)).toNat % 2 ^ grantBits .activations = 5) ∧
    (∃ b, (tPay 1 0x8000000000000000#64).rcbAt [] 0x1000 = .ok b ∧ b.state = 1 ∧ (b.w (grantWord .activations)).toNat % 2 ^ grantBits .activations = 0 ∧
      (b.w (grantWord .credit)).toNat % 2 ^ grantBits .credit = 0) ∧
    (∃ b, (tPay 2 0x8000000000000005#64).rcbAt [] 0x1000 = .ok b ∧ b.state ≠ 1) ∧
    (∃ b, (tPay 1 0x8000000000000005#64).payerNow [] (grantWord .activations) 0x1000 true 9 = .ok (some (b, true)) ∧
      tS.isHere b.addr = true ∧ (b.w (grantWord .activations)).toNat % 2 ^ grantBits .activations ≠ 0) ∧
    (∃ b, (tPay 1 0x8000000000000000#64).payerNow [] (grantWord .activations) 0x1000 true 9 = .ok (some (b, true)) ∧
      (b.w (grantWord .activations)).toNat % 2 ^ grantBits .activations = 0) ∧
    (∃ b, (tPay 2 0x8000000000000005#64).payerNow [] (grantWord .activations) 0x1000 true 9 = .ok (some (b, false))) ∧
    (tPay 1 0).payerNow [] (grantWord .activations) 0x1000 true 9 = .ok none ∧ (tPay 1 0).turnsAway tWho = none :=
  ⟨⟨tPayOf 1 0x8000000000000005#64, rfl, by decide, by decide⟩, ⟨tPayOf 1 0x8000000000000000#64, rfl, by decide, by decide, by decide⟩,
   ⟨tPayOf 2 0x8000000000000005#64, rfl, by decide⟩, ⟨tPayOf 1 0x8000000000000005#64, rfl, by decide, by decide⟩,
   ⟨tPayOf 1 0x8000000000000000#64, rfl, by decide⟩, ⟨tPayOf 2 0x8000000000000005#64, rfl⟩, rfl, by decide⟩

/-! ### The engines run -/

def Eng.isBad {α : Type} : Eng α → Bool
  | .bad _ _ => true
  | _ => false
theorem Eng.of_isBad {α : Type} {g : Eng α} (h : g.isBad = true) : ∃ c a, g = .bad c a := by
  cases g with
  | bad c a => exact ⟨c, a, rfl⟩
  | _ => cases h

/-- Commands of each engine as they stand in its queue. -/
def tCmd (op : MOp) : MCmd := { tS.newCmd op with wa := 0x200000000, started := true, m := 1, dense := true }
def tPullCmd : PullCmd :=
  { num := 0, lcell := 0, id := 0, reg := 0, aid := 0, desc := [tL, 0x200000200, 0x0000000100000008], user := 0, gather := false, acq := false,
    rel := false, recd := false, mark := 0, mxMark := 0, started := true, row := 0, off := 0, got := [], wait := none, resend := false,
    retries := 0, fin := none }
def tCollCmd : CollCmd :=
  { lcell := 0, id := 0, reg := 0, aid := 0, desc := [(10 <<< 27) ||| (1 <<< 52), 0x200000000], members := [], user := 0, acq := false, rel := false,
    mark := 0, mxMark := 0, rm := .rne, nsc := false, seed := 1, phase := .queued, fresh := none, round := 0, lost := 0, step := 0, sent := false,
    writes := 0, cleared := false, kids := 0, awaiting := none, got := none, want := 0, snap := [], work := [], wire := [], fin := none }

/-- EngineStarts: a queued command of each engine, one that may start and one that waits for those before it or for its unit; an acquire that
is done and one that is not. -/
theorem w_engineStarts :
    let m : MCmd := { tCmd .mwld with started := false }
    let s : State := { tS with mx := { tS.mx with queue := [m] } }
    let c : MCmd := { tCmd .mcommit with num := 1, started := false }
    let t : State := { tS with mx := { tS.mx with queue := [tCmd .mma, c] } }
    (s.mx.queue.find? fun d => d.num == m.num && !d.started) = some m ∧
    m.mayStart (s.mx.queue.takeWhile fun d => d.num != m.num) = true ∧ s.mx.unitFree m = true ∧
    (t.mx.queue.find? fun d => d.num == c.num && !d.started) = some c ∧
    c.mayStart (t.mx.queue.takeWhile fun d => d.num != c.num) = false ∧
    s.acquiredAll 0 0 0 = true ∧
    ({ s with replies := [{ tEntry 0 with kind := .atomic }] } : State).acquiredAll 0 1 0 = false ∧
    (let p : PullCmd := { tPullCmd with started := false }
     let u := tC fun c => { c with pullQ := [p] }
     (u.cl.pullQ.find? fun d => !d.started) = some p ∧ (u.cl.pullQ.filter fun d => d.started).length < 8 ∧
       (List.replicate 8 tPullCmd).length = 8) ∧
    (let u := tC fun c => { c with collQ := [tCollCmd] }
     u.cl.collQ = [tCollCmd] ∧ tCollCmd.phase = .queued ∧ tCollCmd.acq = false ∧
       (u.engineLines (u.engineFor 0) .engRead tCollCmd.buf ((tCollCmd.nel * tyBytes .fp32 + 127) / 128)).isOk = true) := by decide

/-- MatrixTiles: each command with its last lines or rows to come, and a load from an address that nothing answers. -/
theorem w_matrixTiles :
    (let d : MCmd := { tCmd .mwld with done := 63, bytes := List.replicate 8064 0 }
     let s : State := { tS with mx := { tS.mx with queue := [d] } }
     (s.mx.queue.find? fun x => x.num == d.num && x.started && x.wait.isNone) = some d ∧ d.reload = false ∧ d.atBoundary = false ∧
     s.isHere d.wa = true ∧ d.done < d.lines d.bTy ∧ (∃ e, s.loadLines (d.lines d.bTy - d.done) d = .ok e)) ∧
    (let d : MCmd := { tCmd .landing with done := 1 }
     d.done < d.lines d.bTy ∧ (∃ e, tS.loadLines d.tileLines d = .ok e)) ∧
    (let d : MCmd := { tCmd .mwld with wa := 0x2F1000000 }
     tS.isHere d.wa = true ∧ d.done < d.lines d.bTy ∧ (∃ c a, tS.loadLines (d.lines d.bTy - d.done) d = .bad c a)) ∧
    (let d : MCmd := tCmd .mma
     tS.mx.unitFree d = true ∧ tS.mx.bufs[bufIdx d.sb].bad = 0 ∧ tS.mx.bufs[bufIdx d.sb].badScale = none ∧ tS.readIndex d = .ok [] ∧ d.m ≤ d.done + 16) ∧
    (let d : MCmd := { tCmd .mcommit with wb := 0xA000000000000100#64 }
     d.done + 1 = d.m ∧ (∃ u, tF.commitOne d d.done [] = .ok u)) :=
  ⟨⟨rfl, by decide, by decide, by decide, by decide, Eng.of_isOk (by decide)⟩, ⟨by decide, Eng.of_isOk (by decide)⟩,
   ⟨by decide, by decide, Eng.of_isBad (by decide)⟩, ⟨by decide, by decide, by decide, rfl, by decide⟩, ⟨by decide, Eng.of_isOk (by decide)⟩⟩

/-- CopyAccesses: a copy of one word between two lines of the own local store, and one to a pod address. -/
theorem w_copyAccesses :
    let s : State := { tF with cl := { tF.cl with pullQ := [tPullCmd] } }
    (s.cl.pullQ.find? fun d => d.num == tPullCmd.num && d.started) = some tPullCmd ∧
    formOk (tPullCmd.source tPullCmd.row) = true ∧ s.isHere (tPullCmd.source tPullCmd.row) = true ∧ isOwn tPullCmd.dest = true ∧
    isOwn ({ tPullCmd with desc := [tL, 0x8000000000000000#64] } : PullCmd).dest = false ∧ tPullCmd.rows ≤ (tPullCmd.past 8).row ∧
    (∃ site, s.checkPort (s.engineFor 0) .engRead (oaOf (tPullCmd.source tPullCmd.row)) = .ok site) ∧
    (∃ site, s.checkWrite (s.engineFor 0) .engWrite tPullCmd.dest.toNat (.bytes (List.replicate 8 0) [false]) = .ok site) :=
  ⟨by decide, by decide, by decide, by decide, by decide, by decide, Chk.of_isOk (by decide), Chk.of_isOk (by decide)⟩

/-- CollectivePeers: a command that runs, with a line awaited from its one peer, and lines of its own instance and another. -/
theorem w_collectivePeers :
    let c : CollCmd := { tCollCmd with phase := .reduce, awaiting := some 1, sent := true }
    c.phase ≠ .queued ∧ (1 : Nat) < c.spec.nmem ∧ (1 : Nat) ≠ c.spec.self ∧ c.lost.getLsbD 1 = false ∧ c.awaiting = some 1 ∧
    c.want.toNat ≤ (0#64).toNat ∧ (0#64).toNat < ({ c with want := 5 } : CollCmd).want.toNat ∧ (c.w 6).extractLsb' 0 32 = 0 ∧ (0x08 : Code) ≠ 0x0C ∧ (1#64).getLsbD c.spec.self = true ∧ (2#64).getLsbD c.spec.self = false := by decide

/-- EvictionAndRestore: a cluster with the mailbox open and a seal key; a rectangle without cells of this cluster; one that runs. -/
theorem w_evictionAndRestore :
    let s : State := { tRcb 2 with pkg := { tG.pkg with boot := .open }, cl := { (tRcb 2).cl with sealKey := some 1 } }
    let v : State := { s with mem := s.mem.setBytes 0x1038 (bytesOf (0x0001000000010000#64)) }
    let e : EvictRun := { rcb := 0x1000, rect := 0x00080008, base := 0x10000, cells := [] }
    s.mbReady = true ∧ (0 : BitVec 24) = s.cl.ptn ∧ s.cl.sealKey ≠ none ∧ tG.cl.sealKey = none ∧ s.cl.evicting = none ∧ s.quiet e.cells = true ∧
    (∃ c, s.busy.evictOk [] 0x1000 0 = .bad c) ∧ (∃ b, (tG.rcbChain [] 0x1000 9).isOk = b) ∧ s.self ∉ e.cells ∧
    (match s.saveCells e e.cells with | .ok _ => True | _ => False) ∧ s.cellsIn 0x00080008 = [] ∧
    (v.busy.fence []).vacant [] = true ∧
    ((v.busy.restoreOk [] 0x1000 0x00080008).bind fun base => (v.busy.fence []).restoreCells 0x1000 base 0 (v.cellsIn 0x00080008)).isOk = true := by
  refine ⟨by decide, by decide, by decide, by decide, by decide, by decide, Home.of_isBad (by decide), ⟨_, rfl⟩, by decide, trivial, by decide, by decide, by decide⟩

/-! ### The fabric, the host and management -/

theorem w_canonical : Canonical tS ∧ Canonical State.reset := by
  constructor
  · show tS.mem.wf = true ∧ _ ∧ _ ∧ _; decide
  · show State.reset.mem.wf = true ∧ _ ∧ _ ∧ _; decide

/-- A port that is enabled, of eight lanes. -/
def tPort : State := tK fun p => { p with fab := [(0, 0x80FF400000000000#64)] }
def tFlit (dst : BitVec 18) (rly : Bool) (seq : BitVec 20) : Flit := { dst, src := 3, cls := 0, rly, last := true, seq, body := [] }

/-- FabricSlots and FlitsThatArrive: a switch that is due, a port that is disabled and one that is enabled; a flit for each destination, next in
its stream, ahead, and passed. -/
theorem w_fabric :
    tS.pkg.switchAt ≠ some tS.pkg.fabtime ∧ ({ tS.pkg with switchAt := some tS.pkg.fabtime } : Package).switchAt = some tS.pkg.fabtime ∧
    portEn (tS.pkg.port 0) = false ∧ portEn (tPort.pkg.port 0) = true ∧ tPort.pkg.relay.length < tPort.pkg.relayRoom ∧
    tPort.pkg.relay.length < 262144 + tPort.pkg.spill.length ∧ tPort.pkg.laneFlits[0] < 2 ^ 20 - 1 ∧
    (tFlit 5 true 0).dst ≠ tPort.pkg.ppkg ∧ (tFlit 0 true 0).dst = tPort.pkg.ppkg ∧
    (let st := tPort.pkg.streamOf (tFlit 0 false 0)
     st.held = [] ∧ st.gone = [] ∧ st.next = 0 ∧ st.passed 0 = false ∧ st.passed 0x7FFFF = false ∧ st.passed 0x80000 = true) ∧
    tPort.pkg.streams.foldl (fun n x => n + x.held.length) 0 < reorderRoom := by decide

/-- FlitsThatArrive: a full buffer on chip beside a spill area of one frame; a flit for each control and its check. -/
theorem w_spill : ∃ l : List Flit,
    let p : Package := { tPort.pkg with fab := [(0, 0x80FF400000000000#64), (0x120, 0x8000000000010000#64)], relay := l, spill := [] }
    p.relay.length < p.relayRoom ∧ 262144 + p.spill.length ≤ p.relay.length := by
  have a : ∀ n, ∃ l : List Flit, l.length = n := fun n => ⟨List.replicate n (tFlit 5 true 0), List.length_replicate ..⟩
  obtain ⟨l, h⟩ := a 262144
  have r : ∀ p : Package, p.fabWord 0x120 = 0x8000000000010000#64 → p.relayRoom = 262144 + 1 * 256 := by
    intro p hp; unfold Package.relayRoom; rw [hp]; rfl
  refine ⟨l, ?_⟩
  dsimp only
  rw [r _ (by show lookupAt (fabDefault 0x120) 0x120 [(0, 0x80FF400000000000#64), (0x120, 0x8000000000010000#64)] = _; decide), h]
  exact ⟨by omega, by simp⟩
theorem w_controls (f : Flit) :
    ({ burst := 0, first := 0, crc := crc64 f.bytes } : RxCheck).ok f = true ∧
    { tFlit 0 false 0 with cls := 2, body := controlBody 0 [0, 3] }.control = 0 ∧
    { tFlit 0 false 0 with cls := 3, body := controlBody 1 [0, 7, 5] }.control = 1 :=
  ⟨by simp only [RxCheck.ok, beq_self_eq_true], by decide, by decide⟩

/-- LostDeclarations: a copy that has passed already and one that has not; the mailbox open. -/
theorem w_lostDeclarations :
    (0, 7) ∈ ({ tS.pkg with mcSeen := [(0, 7)] } : Package).mcSeen ∧ ((0 : BitVec 6), (7 : BitVec 20)) ∉ tS.pkg.mcSeen ∧
    (tC fun c => { c with pkgbound := 1 }).cl.pkgbound.toNat = 1 ∧ ({ tS with pkg := { tS.pkg with boot := .open } } : State).mbReady = true := by decide

/-- A far session in a state, and a frame of a form that is supported, whose tag is right under keys of zeros. -/
def tSess (st : SessSt) : FarSess :=
  { FarSess.new 3 with st, seen := [5], top := 5000, unacked := [{ counter := 4, resends := 1, flits := [tFlit 1 false 0] }] }
def tFrame (n : Nat) : FarFrame :=
  { port := 0, dmac := 0, smac := 0, vlan := [], v6 := false, options := false, df := true, fragment := false, src := 0, dst := 0, sport := 0,
    dport := 0, checksum := 0, sid := 3, counter := n, n := 0, zero := 0, cipher := [],
    tag := Config.gcmTag 0 (frameNonce 0 n) (leBytes 4 3 ++ leBytes 8 n ++ leBytes 2 0 ++ leBytes 2 0) [] }

/-- FarSessions: a session in each state; a frame that it takes, one with a counter that it has seen, and one 4096 behind. -/
theorem w_farSessions :
    let s (st : SessSt) : State := tK fun p => { p with sess := [tSess st], fab := [(0, 0xA0FF400000000000#64)] }
    tS.sessOf 3 = none ∧ (s .up).sessOf 3 = some (tSess .up) ∧ (s .opening).sessOf 3 = some (tSess .opening) ∧
    (s .up).farPort (tFrame 0) = true ∧ (tFrame 0).formOk = true ∧ (tFrame 0).peer = 3 ∧
    (tSess .up).takes (tFrame 905) = true ∧ (tSess .up).takes (tFrame 904) = false ∧ (tSess .up).takes (tFrame 5) = false ∧
    ((tSess .up).unacked.find? fun u => u.counter == 4).isSome = true ∧ (s .up).pkg.secHeld = false ∧
    ((s .up).drawKey.1 = none ∨ ∃ n, (s .up).drawKey.1 = some n) ∧ 9 ∈ ({ tS.pkg with allow := [9] } : Package).allow := by
  have opens (n : Nat) : (tSess .up).keys.opens (tFrame n) = true := by
    unfold SessKeys.opens; exact beq_self_eq_true _
  refine ⟨by decide, by decide, by decide, by decide, by decide, by decide, ?_, ?_, ?_, by decide, by decide, ?_, by decide⟩
  · unfold FarSess.takes; rw [opens]; decide
  · unfold FarSess.takes; rw [opens]; decide
  · unfold FarSess.takes; rw [opens]; decide
  · cases (tK fun p => { p with sess := [tSess .up], fab := [(0, 0xA0FF400000000000#64)] }).drawKey.1 with
    | none => exact Or.inl rfl
    | some n => exact Or.inr ⟨n, rfl⟩

/-- A window of one frame for virtual function 0, with a port that is CXL. -/
def tHostCl : Cluster :=
  { tS.cl with vfpair := tS.cl.vfpair.set 0 0x8000000000100000#64, hcwin := tS.cl.hcwin.set 0 0x8000000100000000#64 }
def tHost (l : List DirEnt) : State := { tS with cl := { tHostCl with dir := l }, pkg := { tS.pkg with cxl := tS.pkg.cxl.set 0 true } }
def tAgent (n : BitVec 8) : HostAgent := { port := false, agent := n, vf := 0 }
def tHalf (h : HalfState) (n : BitVec 8) : DirEnt := { DirEnt.new 0 with h0 := h, ptrs := [(n, 1)] }

/-- HostRequests and HostAnswers: an address inside a window and one past its end, a half line in each state with the agent as holder and with
another, a snoop that is awaited, a mailbox head that may be taken and one that may not. -/
theorem w_host :
    (tHost []).hostByte (tAgent 1) 0 = some 0 ∧ (tHost []).hostByte (tAgent 1) 0xFFFF = some 0xFFFF ∧
    (tHost []).hostByte (tAgent 1) 0x10000 = none ∧
    (let d := (tHost []).cl.dirOf 0
     d.waits = [] ∧ d.reqs = [] ∧ d.half false = .I) ∧
    (let d := (tHost [tHalf .S 1]).cl.dirOf 0
     d.half false = .S ∧ (∀ a ∈ d.sharers false, a = (tAgent 1).agent) ∧ ∃ a ∈ d.sharers false, a ≠ (tAgent 2).agent) ∧
    (let d := (tHost [tHalf .E 1]).cl.dirOf 0
     d.half false = .E ∧ (tAgent 1).agent ∈ d.sharers false ∧ (tAgent 2).agent ∉ d.sharers false) ∧
    (let w : Snoop := { agent := 1, half := false, inv := true }
     let d := (tHost [{ tHalf .E 1 with waits := [w] }]).cl.dirOf 0
     (d.waits.find? fun x => x.agent == (tAgent 1).agent && x.half == false) = some w ∧
     (tHost [{ tHalf .E 1 with waits := [w] }]).hostFree 0 = false) ∧
    (tHost []).deviceAt 0 = false ∧ ({ tHost [] with agenda := [.port 0 .lampWalk] } : State).deviceAt 0 = true ∧
    (tHost []).hostFree 0 = true ∧ (tHost []).hostFree 63 = true ∧
    (pairEn tHostCl.vfpair[(0 : Fin 16)] = true ∧ hcEn tHostCl.hcwin[(0 : Fin 16)] = true ∧
      tHostCl.windowAt 0 = 0 ∧ tHostCl.windowLen 0 = 0x10000) ∧
    (let now : Mailbox := { Mailbox.reset with evTail := 2 }
     ((2#64).extractLsb' 0 7 - now.evHead).toNat ≤ (now.evTail - now.evHead).toNat ∧
     (now.evTail - now.evHead).toNat < ((3#64).extractLsb' 0 7 - now.evHead).toNat ∧ (128#64).extractLsb' 7 57 ≠ 0) := by decide

/-- The mailbox open, and a security compartment. -/
def tOpen : State := tK fun p => { p with boot := .open }
def tComp (k : CompKind) : Compartment := { world := 0, ckey := 3, kind := k, keyId := 9, xts := false, torn := false }
def tSec : State := tK fun p => { p with boot := .open, comps := [tComp .weight] }

/-- CommandsBeforeTheMailboxOpens and HostWritesAndReads: the mailbox held and open; a target of this cluster and one of another; values of
each register that are taken and that are not. -/
theorem w_management :
    tS.mbReady = false ∧ { tOpen with pkg := { tOpen.pkg with mbBusy := true } }.mbReady = false ∧ tOpen.mbReady = true ∧ tOpen.cl.pclu.toNat < 60 ∧
    (let t : MbTarget := { space := 1, die := 0, pclu := 0, index := 511 }
     t.pclu.toNat < 60 ∧ t.die = tOpen.cl.die ∧ t.pclu = tOpen.cl.pclu ∧ t.index.toNat < 512) ∧
    ({ space := 1, die := 1, pclu := 0, index := 0 } : MbTarget).die ≠ tOpen.cl.die ∧
    ({ space := 1, die := 0, pclu := 60, index := 0 } : MbTarget).pclu.toNat = 60 ∧
    ({ space := 1, die := 0, pclu := 0, index := 512 } : MbTarget).index.toNat = 512 ∧
    ((0xC0000000000001FF#64).extractLsb' 9 53 = 0 ∧ (0x200#64).extractLsb' 9 53 ≠ 0) ∧
    (let s : State := { tOpen with act := Act.idle }
     s.suspended = true ∧ tOpen.suspended = false ∧ s.pairOk 0 0 = true ∧ s.pairOk 0 0x8000000000010000#64 = false ∧
       (tHostCl.hcwinOk 0 0x8000000100000000#64 = true ∧ tHostCl.hcwinOk 0 0x8000001100000000#64 = false)) ∧
    ((0x50028#64).extractLsb' 19 45 = 0 ∧ ((0x50028#64).extractLsb' 0 6).toNat = 40) ∧
    (let p := tOpen.pkg.setFab 0x120 0x8002000000010000#64
     p.spillIn 0 1 = true ∧ p.spillIn 0 2 = false) ∧
    (let s := (tOpen.setShare 1 5 0).setCmpt 1 9
     s.compNamed 5 9 = true ∧ s.compNamed 5 8 = false) ∧
    tOpen.pkg.switchAt = none ∧ (tOpen.pkg.fabtime + tOpen.pkg.nslot tOpen.pkg.bank - tOpen.pkg.bankStart) % tOpen.pkg.nslot tOpen.pkg.bank = 0 ∧
    tOpen.pkg.farWordOk 3 0x000003E800000000#64 = true ∧ tOpen.pkg.farWordOk 3 0x000003E700000000#64 = false ∧
    tOpen.pkg.farWordOk 1 0x0001000000000000#64 = false := by decide

/-- SecurityCommands and HostAnswers: a hand-over that is taken, by an image that names no cell's save area; the registers of a port with go
set and not, and a command in them for each outcome of the layouts. -/
theorem w_mailboxRegisters :
    (let s : State := { tOpen with cl := { tOpen.cl with vfpair := tOpen.cl.vfpair.set 0 0x8000000000010000#64 } }
     pairEn s.cl.vfpair[0] = true ∧ isOwn 0x100 = true ∧ (s.withMem (s.mem.putPlain (pairBase s.cl.vfpair[0] * 0x10000) [])).imageOk 0x100 = true ∧
       s.imageOk 0x10000 = false ∧ s.cl.pclu.toNat < 60) ∧
    (let m : Mailbox := Mailbox.reset
     m.door = false ∧ { m with door := true }.word 0x90 = 1 ∧
     { m with cmd := [0x0603010000000000#64, 5] }.command [] = .declareLost 5 ∧
     { m with cmd := [0x0603010000000000#64, 0x40000] }.command [] = .bad 6 ∧
     { m with cmd := [0x0603020000000000#64, 5] }.command [] = .bad 6 ∧ { m with cmd := [0x0900000000000000#64] }.command [] = .bad 9 ∧
     { m with cmd := [0x0803020000000000#64, 0x8000000000001000#64, 0x0000050000000001#64] }.command [] = .region 0x8000000000001000#64 5 1) := by decide

/-- HostWritesAndReads: the cell map as it stands at reset has every position in its own row. -/
theorem w_cellMap : cellMapOk (tOpen.cl.cellMap.set (62 : Fin 64) 0) = true := by decide

/-- SecurityCommands: a buffer that holds the evidence, and one that does not. -/
theorem w_evidence : (∃ len, (tSec.evidenceResult 0 0).length ≤ len) ∧ 0 < (tSec.evidenceResult 0 0).length := by
  refine ⟨⟨_, Nat.le_refl _⟩, ?_⟩
  simp only [State.evidenceResult, List.length_append, List.length_map, List.length_range]
  omega

/-- SecurityCommands and ProtectedPages: a compartment that is there and one that is not, a gate entry of each kind, a page that is out with an
image that carries its trailer. -/
theorem w_security :
    (tSec.pkg.compOf 0 3 = some (tComp .weight) ∧ tSec.pkg.compOf 0 4 = none ∧ (3 : BitVec 6) ≠ tSec.cl.cmpt ∧ (0 : BitVec 6) = tSec.cl.cmpt) ∧
    (tSec.pkg.secHeld = false ∧ tSec.gateEntryOk 1 0 = false ∧
      ({ tSec with act := Act.idle } : State).gateEntryOk 0 0x80C0000000000000#64 = true) ∧
    ((tSec.pageVer 3 5).out = false ∧ (64#64).toNat % 64 = 0 ∧ tSec.cl.tlb = [] ∧ tSec.exportKey 3 = some 9 ∧ tSec.exportKey 4 = none) ∧
    (∃ image, (tSec.setPageVer { tSec.pageVer 3 5 with out := true }).importOk 3 5 image 9 = true) ∧
    (∃ image, (tSec.setPageVer { tSec.pageVer 3 5 with out := true }).importOk 3 5 image 9 = false) := by
  refine ⟨by decide, by decide, by decide, ?_, ⟨List.replicate 0x10800 0, ?_⟩⟩
  · let side : List Byte := List.replicate 2048 0
    let page : List Byte := List.replicate 0x10000 0
    refine ⟨page ++ (side ++ trailer 3 5 0 (Config.exportTag 9 3 5 0 page side)), ?_⟩
    have hp : page.length = 0x10000 := List.length_replicate
    have hs : side.length = 2048 := List.length_replicate
    show (true && _ == trailer 3 5 0 (Config.exportTag 9 3 5 0 _ _)) = true
    rw [List.take_left' hp, List.drop_left' hp, List.take_left' hs]
    rw [show 0x10800 = 0x10000 + 2048 from rfl, ← List.drop_drop, List.drop_left' hp, List.drop_left' hs]
    simp
  · show (true && (List.drop 0x10800 (List.replicate 0x10800 0) == trailer 3 5 0 _)) = false
    rw [List.drop_replicate]; rfl

/-- PowerCommands: frequencies at both ends and outside; a cluster in each state, suspended and not; a change of clock that stops issue. -/
theorem w_power :
    ((300#12).toNat % 25 = 0 ∧ (1200#12).toNat % 25 = 0 ∧ 300 ≤ (300#12).toNat ∧ (1200#12).toNat ≤ 1200 ∧ (1210#12).toNat % 25 ≠ 0 ∧
      (59#6).toNat < 60 ∧ ¬ (60#6).toNat < 60) ∧
    tOpen.cl.power = .run ∧ tOpen.cl.ptn = 0 ∧ ({ tOpen with act := Act.idle } : State).suspended = true ∧
    (∀ ok, tOpen.underCeilings 0 0 300 = ok ∨ tOpen.underCeilings 0 0 300 = !ok) ∧
    (tC fun c => { c with clockStop := true }).cl.clockStop = true := by
  refine ⟨by decide, by decide, by decide, by decide, fun ok => ?_, by decide⟩
  cases ok <;> cases tOpen.underCeilings 0 0 300 <;> simp

/-- StepRunsDecoded and StepTakesWork: the slot stands at an instruction, whose line is held and not; work of each kind. -/
theorem w_ready : Ready tS ∧ (tA fun a => { a with ibuf := [(lineOf a.pc, List.replicate 128 0)] }).act.heldLine tS.act.pc = some (List.replicate 128 0) ∧
    tS.act.heldLine tS.act.pc = none ∧ isOwn tS.act.pc = true ∧ (∃ bs, tS.readLine tS.act.pc = .ok bs) := by
  refine ⟨?_, by decide, by decide, by decide, Chk.of_isOk (by decide)⟩
  refine ⟨by decide, by decide, by decide, by decide, Or.inl (by decide), by decide, by decide, by decide, by decide, rfl,
    by decide, by decide, fun oa p1 st => ?_,
    by decide, by decide, by decide, by decide, by decide, by decide⟩
  show Phase.none ≠ Phase.pageFault oa p1 st
  intro h; cases h

/-- EncodeThenDecode: an instruction that is well formed, with its word. -/
theorem w_encode : (Instr.addi 1).wf = true ∧ encode (.addi 1) = some 0x80200001 ∧ encode .lampWalk = none := by decide

/-- ReservedChannels: a data message to channel 29 that reaches the cell. -/
theorem w_reservedChannels :
    let m : Msg := { tMsg with chan := 29 }
    m.kind = .data ∧ 29 ≤ m.chan.toNat ∧ tS.me.fenced = false ∧ tS.cl.power ≠ .hold ∧ tS.cl.clockStop = false ∧ tS.mesh = [] := by decide

/-! ### Completion -/

/-- A region with a vector outside trap mode. -/
def tVec : State := tF.mapMe fun c => { c with trapvec := 0x8000000200001000#64 }

/-- SynchronizationCompletes: what each form needs, beside the states above: a watch that has its answer, a barrier that is bound and clear, a
place to send to, at each alignment, and no request that is out. -/
theorem w_synchronizationCompletes :
    Serving tG ∧ Serving tW ∧ tW.act.stq ≠ [] ∧ tG.act.ldqRoom = true ∧ tG.act.xq.length < Config.xqSize ∧
    Sendable tG tL 1 none ∧ Sendable tG tL 2 none ∧ Sendable tG tL 4 none ∧ Sendable tG tL 128 none ∧ (∀ e ∈ tG.replies, e.aid ≠ tG.act.aid) ∧
    (tS.act.setWatch 0 { WatchReg.none with st := .answered }).watch[(0 : Fin 4)].st = .answered ∧ Fresh tG ∧
    (let s := tM fun c => { c with bars := c.bars.set 0 { BarReg.reset with bound := true } }
     s.me.bars[(0 : Fin 4)].bound = true ∧ s.me.bars[(0 : Fin 4)].arr = false ∧ s.me.bars[(0 : Fin 4)].err = false) := by
  have h (s : State) (h1 : s.act.exq = []) (h2 : s.act.drain = false) (h3 : s.inAtomic = false) : Serving s := ⟨⟨h1, h2⟩, h3⟩
  exact ⟨h _ (by decide) (by decide) (by decide), h _ (by decide) (by decide) (by decide), by decide, by decide, by decide,
    ⟨by decide, by decide, by decide⟩, ⟨by decide, by decide, by decide⟩, ⟨by decide, by decide, by decide⟩, ⟨by decide, by decide, by decide⟩,
    by decide, by decide, by show tG.act.phase = .none; decide, by decide⟩

/-- SystemFormsComplete: the engines' waits, a software trap whose frame can be written, control registers that answer and take a value, an
entry of the TLB, an acknowledgement and an answer that are there, and a parked activation that is told. -/
theorem w_systemFormsComplete :
    tS.mx.queue = [] ∧ tS.mx.xfers[(0 : Fin 16)].st = .free ∧ tS.colls[(0 : Fin 4)].st = .free ∧ tColl.colls[(0 : Fin 4)].st ≠ .busy ∧
    (tColl.cl.collQ.filter fun d => d.phase == .queued).length < Config.engineQueueSize ∧
    tVec.act.olderWait = false ∧ tVec.trapFrame tVec.act.reg tVec.slotNo.val ≠ 0 ∧
    (let q : TrapReq := { tVec.trapReq 0x20 0 with sw := true, resume := tVec.act.pc + 4 }
     (tVec.writeWords (tVec.trapFrame tVec.act.reg tVec.slotNo.val).toNat [plainWords (recordWords q
       (recordWord1 (BitVec.ofNat 3 tVec.slotNo.val) tVec.act.chan false false false false tVec.act.losesEntry true 0x20) 0)]).isOk = true) ∧
    (tS.writeCtl tS.issuer tS.self 0x009 5).any (fun t => !t.act.drain) = true ∧ tS.act.phase ≠ .ackWait ∧
    (tH.tlbwHome 0 0).any (fun t => !t.act.drain) = true ∧ (tPh .ackDone).act.phase = .ackDone ∧
    (tPh (.barWait 5 0 false)).act.phase = .barWait 5 0 false ∧
    (let s : State := ({ tMarks 0 with parked := [tParked] } : State).mapReg 0 fun e => { e with info := { e.info with chain := [0, 5] } }
     s.rcb = 0 ∧ (s.checkOwn .load (0x200010000 + 320)).isOk = true ∧
       (match s.preadyHere 0x200010000 s.rcb false 0 with | .done t => !t.act.drain | _ => false) = true) := by
  refine ⟨?_, ?_, ?_, ?_, ?_, ?_, ?_, ?_, ?_, ?_, ?_, ?_, ?_, ?_⟩ <;> decide

/-- MatrixCommands, its full queue: a command that waits for a place with its operands kept, and a queue that has none. -/
theorem w_engineQueue :
    (tPh (.engQueue (tS.newCmd .mprog) none)).act.phase = .engQueue (tS.newCmd .mprog) none ∧
    ¬ ({ tS with mx := { tS.mx with queue := List.replicate Config.matrixQueueSize (tS.newCmd .mprog) } } : State).mxWaiting <
      Config.matrixQueueSize := by
  refine ⟨rfl, ?_⟩
  simp [State.mxWaiting, State.newCmd]

/-- MemoryEventsComplete: nothing that waits at the port, translation on, a wait on an acknowledgement, and a walker that is free. -/
theorem w_memoryEventsComplete :
    tS.portHolds inDram = false ∧ tS.oldWaits = false ∧ (tC fun c => { c with tlbctl := true }).cl.tlbctl = true ∧ tS.shareWaits = false ∧
    tS.cl.walk = none ∧ tS.cl.shades = [] ∧ tS.barSaved 0 0 = false ∧ tS.act.phase = .none := by decide

/-- ControlWindowForms: an operand in the control window of this cell that passes the checks at it. -/
theorem w_controlWindowForms :
    let s := tP 1 0x2F0000000#64
    FromDecoder s ∧ s.act.ldqRoom = true ∧ s.isHere (elementOf s 1 .disp .i64 0#12).ea = true ∧
    s.cl.window (oaOf (elementOf s 1 .disp .i64 0#12).ea) = .ctl ∧ s.cellCheck (elementOf s 1 .disp .i64 0#12) = none ∧
    s.cl.window (oaOf (groupAt s 1 .disp .u16 0#12).ea) = .ctl ∧ s.cellCheck (groupAt s 1 .disp .u16 0#12) = none := by
  refine ⟨?_, by decide, by decide, by decide, by decide, by decide, by decide⟩
  show (tP 1 0x2F0000000#64).act.drain = false
  decide

/-! ## Words

The first list of each family has words that the spec works out in its chapters and programs, the second words put together bit by bit
from the formats of R225 and the tables of R226 to R257. -/

/-- Each word of a list decodes to the instruction that stands beside it. -/
def Decodes (l : List (BitVec 32 × Instr)) : Prop := ∀ p ∈ l, (decode p.1).toOption = some p.2

/-- R263 to R275. -/
theorem test_words_pointer : Decodes [
    (0x05090A06, .pset 2 0xA06), (0x05270024, .pshl 2 2 36), (0x05890100, .pset 3 0x100), (0x04B50000, .por 1 3),
    (0x06BD0000, .mkref 5 3), (0x06C30200, .paddi 5 4 512), (0x0767001D, .pshl 6 6 29), (0x0A55000B, .pbgeu 4 5 11),
    (0x0B340004, .pbltu 6 3 4), (0x08A1FFF1, .pbne 1 2 0xFFF1), (0x0960000C, .pbeq 2 6 12), (0x0C3FFFFC, .br 0x3FFFFC),
    (0x0CC00005, .bnz 5), (0x10400003, .bxnz 3), (0x14500002, .loop 5 2), (0x14810001, .loopi 8 1)] := by
  unfold Decodes; decide

/-- R261, R276 to R283, R299 to R302. -/
theorem test_words_memory : Decodes [
    (0x2E807000, .rl 5 .disp .u64 0), (0x2AF00002, .lp 5 7 2), (0x2BB10000, .sp 7 3 0), (0x33300000, .rlp 6 3 0),
    (0x63016000, .vst 6 .disp .u32 0), (0x6506DE00, .vfma 2 .disp .nfs .dyn 0), (0x6984DE00, .vpacks 3 .disp .nfs .dyn 0),
    (0x6B229E00, .vpack 6 .step .bf16 .dyn 0)] := by
  unfold Decodes; decide

/-- R308, R309. -/
theorem test_words_execute : Decodes [
    (0x80203456, .addi 0x3456), (0x80040000, .mov .ldq .a 0), (0x80020000, .mov .a .xq 0), (0x80C00020, .shri 32),
    (0x81000001, .cmpi 1), (0x81204000, .fli 0x4000), (0x81400000, .vsplat), (0x81E00000, .qdrop),
    (0x82200001, .vconv false .rne true)] := by
  unfold Decodes; decide

/-- R311 to R321. -/
theorem test_words_sync : Decodes [
    (0xA0040000, .fence 1), (0xA0500000, .rel 4), (0xA0580000, .rel 6), (0xA0340001, .acqO 5), (0xA4050000, .pub 1 2),
    (0xA4250000, .shade 1 2), (0xA4410000, .seqadv 2), (0xA8250000, .watcha 1 2 0), (0xA81A8000, .watch 6 5 0), (0xA8400000, .wwait 0),
    (0xA8600003, .wtest 3), (0xAC100000, .barset 4 0), (0xAC200000, .barv 0), (0xAC400000, .barw 0)] := by
  unfold Decodes; decide

/-- R323 to R341, R250, R251. -/
theorem test_words_message : Decodes [
    (0xB0050003, .dep 1 2 none 3), (0xB00E4003, .dep 3 4 (some 0) 3), (0xB0240004, .depqLine 1 none),
    (0xB0450611, .depe 1 2 none 3 17), (0xB0650611, .depes 1 2 none 3 17), (0xB5250003, .amoCas 1 2 none true),
    (0xB40E0003, .amoAdd 3 4 none true), (0xB5740000, .amoDeq 5 none), (0xB59C0000, .amoAdv 7 none), (0xB8180045, .send 6 none 2 5),
    (0xB8380007, .mig 6 7), (0xB8580045, .spawn 6 none 2 5), (0xB8800000, .yield), (0xB8A40001, .rcmd 1 none 1), (0xBC000001, .tokq 1),
    (0xBC200000, .tokw 0), (0xBC400000, .tokz 0), (0xFD000020, .tok true 0 false 0), (0xFC02004C, .ext 0x2004C)] := by
  unfold Decodes; decide

/-- R361 to R391. -/
theorem test_words_engine : Decodes [
    (0xC0254300, .mma 1 2 4 3 false false false false false), (0xC0174080, .mwld 5 6 4 true false false), (0xC0650001, .mprog 1 2 1),
    (0xC041C288, .mmp 0 3 4 2 true false false false true), (0xC09CC240, .mcommit 7 1 4 2 false true .rne false),
    (0xC0A00200, .mwait 2 false), (0xC4054160, .pull 1 2 4 1 false true true), (0xC4254160, .pullg 1 2 4 1 false true true),
    (0xC4400100, .pullw 1 false), (0xC4400080, .pullw 0 true), (0xC80540C0, .coll 1 2 4 0 true true), (0xC8200000, .collw 0 false)] := by
  unfold Decodes; decide

/-- R350 to R356. -/
theorem test_words_system : Decodes [
    (0xE0740104, .cset 5 0x104), (0xE05C0002, .cget 7 2), (0xE0E00108, .pready 0 true 8), (0xE0500000, .cget 4 0)] := by
  unfold Decodes; decide

/-- R225, R231, R235, R236: one word for each major that no worked word above has. -/
theorem test_words_bits : Decodes [
    ((0b010000#6 ++ 0b010#3 ++ 0b01#2 ++ 0b00001#5 ++ 0b0010#4 ++ 0#12 : BitVec 32), .add 2 .step .i32 0),
    ((0b010001#6 ++ 0b001#3 ++ 0b00#2 ++ 0b00011#5 ++ 0b0000#4 ++ 0xFFF#12 : BitVec 32), .div 1 .disp .i8 0xFFF),
    ((0b010010#6 ++ 0b111#3 ++ 0b10#2 ++ 0b00110#5 ++ 0b1011#4 ++ 0b001#3 ++ 8#9 : BitVec 32), .fsqrt 7 .preUpd .fp64 .rtz 8),
    ((0b010011#6 ++ 0b011#3 ++ 0b11#2 ++ 0b10110#5 ++ 0b1001#4 ++ 0b100#3 ++ 0x1FF#9 : BitVec 32), .cvts 3 .postDisp .u32 .bf16 .rst 0x1FF),
    ((0b001000#6 ++ 0b000#3 ++ 0b00#2 ++ 0b00010#5 ++ 0b1110#4 ++ 1#12 : BitVec 32), .lql 0 .disp .ref 1),
    ((0b001011#6 ++ 0b110#3 ++ 0b10#2 ++ 0b00001#5 ++ 0b0101#4 ++ 0x800#12 : BitVec 32), .rlv 6 .preUpd .u16 0x800),
    ((0b011000#6 ++ 0b001#3 ++ 0b00#2 ++ 0b10010#5 ++ 0b0110#4 ++ 3#12 : BitVec 32), .vmac 1 .disp .u32 3),
    ((0b011011#6 ++ 0b101#3 ++ 0b01#2 ++ 0b00011#5 ++ 0b0001#4 ++ 0b000#3 ++ 0#9 : BitVec 32), .vrdot 5 .step .i16 0),
    ((0b011100#6 ++ 0b100#3 ++ 0b00#2 ++ 0b01000#5 ++ 0b1010#4 ++ 2#12 : BitVec 32), .vfcle 4 .disp .fp32 2),
    ((0b000110#6 ++ 0b001#3 ++ 0b010#3 ++ 0b0001#4 ++ 0#16 : BitVec 32), .jal 1 2)] := by
  unfold Decodes; decide

/-- R226: words that no instruction has: major 0, a reserved type, rnd 0b101, a nonzero field that must be zero, a prefix word with nothing in
it, and the traps 0x00 and 0x1F. -/
theorem test_words_illegal :
    (decode 0x00000000).toOption = none ∧ (decode 0x4020F000).toOption = none ∧ (decode 0x65269A00).toOption = none ∧
    (decode 0x04800001).toOption = none ∧ (decode 0xFD000000).toOption = none ∧ (decode 0xE0000000).toOption = none ∧
    (decode 0xE000001F).toOption = none := by
  refine ⟨?_, ?_, ?_, ?_, ?_, ?_, ?_⟩ <;> decide

/-! ## Terms that are not well formed (R226, R228, R229) -/

/-- The types that a form does not accept. -/
theorem test_wf_types : ∀ i ∈ ([.lqv 0 .disp .i64 0, .lql 0 .disp .u32 0, .sqv 0 .disp .u64 0, .lda 0 .disp .fp32 0, .div 0 .disp .nf 0,
    .fadd 0 .disp .i32 .rne 0, .cvt 0 .disp .nf .i8 .rne 0, .vld 0 .disp .u64 0, .vadd 0 .disp .i64 0, .vfadd 0 .disp .fp64 .rne 0,
    .vpack 0 .disp .fp32 .rne 0, .vpacki 0 .disp .i32 0, .vpacks 0 .disp .nf .rne 0, .vrsum 0 .disp .bf16 0, .vsel 0 .disp .nf 0,
    .acvt false .rne .nf .i8] : List Instr), i.wf = false := by decide

/-- A displacement beside `[pn]+`, and rounding fields of forms that do not round. -/
theorem test_wf_fields : ∀ i ∈ ([.lq 0 .step .i8 1, .fneg 0 .step .fp32 1, .vld 0 .step .i8 1, .cvt 0 .disp .i8 .i16 .rup 0,
    .vfld 0 .disp .fp32 .rtz 0, .vfst 0 .disp .fp32 .rtz 0, .vfabs 0 .disp .bf16 .rtz 0, .vcvti 0 .disp .i8 .rtz 0, .vsum .rtz false,
    .mov .a .stq 1] : List Instr), i.wf = false := by decide

/-- Operands outside their range. -/
theorem test_wf_ranges : ∀ i ∈ ([.loop 0 0, .loopi 0 1, .loopi 1 0, .depe 0 0 none 0 0, .depes 0 0 none 0 0, .amoUser 0 0 none 7 false,
    .send 0 none 9 0, .spawn 0 none 9 0, .rcmd 0 none 0, .rcmd 0 none 5, .mma 1 0 0 0 false false false false true,
    .mmp 1 0 0 0 false false false false true, .mwait 1 true, .pullw 1 true, .collw 1 true, .trap 0x1F, .tlbi 0 3, .tlbi 1 2,
    .pready 0 true 0, .pready 0 false 1, .tok false 0 false 0] : List Instr), i.wf = false := by decide

/-! ## Small steps -/

/-- The part of a result that a test looks at; none where the machine does not go on. -/
def after {α : Type} (f : Act → α) : Out → Option α
  | .next t => some (f t.act)
  | _ => none
/-- P1 at a line of the own local store that begins with a word, and a value of A. -/
def tOn (m a : Word) : State :=
  { tA (fun x => { x with a, p := x.p.set 1 { val := tL, step := 8, tag := false } }) with mem := tS.mem.setBytes tL.toNat (bytesOf m) }
def aluOf (x : Act) : Word × List Bool := (x.a, [x.f.z, x.f.n, x.f.c, x.f.o, x.f.x])

/-- The table of R296. -/
theorem test_alu_table :
    after aluOf (exec (.add 1 .disp .i8 0) (tOn 1 0x7F)) = some (0xFFFFFFFFFFFFFF80, [false, true, false, true, false]) ∧
    after aluOf (exec (.adds 1 .disp .i8 0) (tOn 1 0x7F)) = some (0x7F, [false, false, false, true, false]) ∧
    after aluOf (exec (.add 1 .disp .u8 0) (tOn 1 0xFF)) = some (0, [true, false, true, false, false]) ∧
    after aluOf (exec (.div 1 .disp .i32 0) (tOn 0xFFFFFFFF 0x80000000)) = some (0xFFFFFFFF80000000, [false, true, false, true, false]) := by
  decide

/-- R296: a quotient by zero is all ones, its remainder the dividend. -/
theorem test_div_by_zero :
    after aluOf (exec (.div 1 .disp .u16 0) (tOn 0 7)) = some (0xFFFF, [false, true, false, true, false]) ∧
    (after aluOf (exec (.rem 1 .disp .i8 0) (tOn 0 0x85))).map Prod.fst = some 0xFFFFFFFFFFFFFF85 := by decide

/-- R265: the worked pod address, by its last two words. -/
theorem test_por : after (fun x => x.p[(1 : Fin 8)].val)
    (exec (.por 1 3) (tA fun x => (x.setP 1 { val := 0x8000A06000000000, step := 8, tag := true }).setP 3 { val := 0x2004C0100, step := 0, tag := false })) =
      some 0x8000A062004C0100 := by decide

/-- R263: both operands are read before the destination is written; the tag goes and the step stays. -/
theorem test_pxor_self : after (fun x => x.p[(2 : Fin 8)])
    (exec (.pxor 2 2) (tA fun x => { x with p := x.p.set 2 { val := 5, step := 7, tag := true } })) =
      some { val := 0, step := 7, tag := false } := by decide

/-- R250: `ext` with the payload and the `pset` of the worked address. -/
theorem test_ext_pset : after (fun x => x.p[(3 : Fin 8)].val)
    (exec (.pset 3 0x100) (tA fun x => { x with pfx := some { pc := 0, word := 0xFC02004C, kind := .ext 0x2004C } })) =
      some 0x2004C0100 := by decide

/-- R267: `pbne` with its target three words back, taken and not. -/
theorem test_pbne :
    after Act.pc (exec (.pbne 3 4 0xFFFD) (tA fun x => { x with pc := 0x200000040, p := x.p.set 3 { val := 1, step := 0, tag := false } })) =
      some 0x200000034 ∧
    after Act.pc (exec (.pbne 3 4 0xFFFD) (tA fun x => { x with pc := 0x200000040 })) = some 0x200000044 := by decide

/-- R127: the first draw from state 1. -/
theorem test_first_draw : nextDraw 1 = 270369 := by decide

/-- R120: the rows of the worked encoding of 2.6, as binary32 has it, of 7.0, and R116: a code's value. -/
theorem test_nf : (nfEncode (Desc.of 0x18121#24) .rne false 0 (fdecode Fmt.fp32 0x40266666)).code = 0b0101 ∧
    (nfEncode (Desc.of 0x18121#24) .rtz false 0 (fdecode Fmt.fp32 0x40266666)).code = 0b0100 ∧
    (nfEncode (Desc.of 0x18121#24) .rst false 270369 (fdecode Fmt.fp32 0x40266666)).code = 0b0100 ∧
    (nfEncode (Desc.of 0x18121#24) .rne false 0 (fdecode Fmt.fp32 0x40E00000)).code = 0b0111 := by decide

/-- R126: a tie of binary32 rounded to bfloat16, from the worked values. -/
theorem test_round_bf16 :
    (after Act.a (exec (.cvt 1 .disp .bf16 .fp32 .rne 0) (tOn 0x3F808000 0))).map (BitVec.extractLsb' 0 16) = some 0x3F80#16 ∧
    (after Act.a (exec (.cvt 1 .disp .bf16 .fp32 .rne 0) (tOn 0x3F818000 0))).map (BitVec.extractLsb' 0 16) = some 0x3F82#16 ∧
    (after Act.a (exec (.cvt 1 .disp .bf16 .fp32 .rup 0) (tOn 0x3F808000 0))).map (BitVec.extractLsb' 0 16) = some 0x3F81#16 := by decide

/-- R281: a load by `[p]+` moves P1 by its step after the access. -/
theorem test_load_step : after (fun x => (x.ldq.length, x.p[(1 : Fin 8)].val))
    (exec (.lq 1 .step .i64 0) (tOn 5 0)) = some (1, 0x200000108) := by decide

/-- R283: a store from STQ takes its word to memory. -/
theorem test_store : (match exec (.sq 1 .step .i64 0) tW with | .next t => some (t.mem.byteAt 0x200000100, t.act.stq) | _ => none) =
    some (5, []) := by decide

/-- R13, R30: a load from a pod address of another place by an own-space form is refused: the activation of a region without a save area
ends. -/
theorem test_load_fault : after Act.live (exec (.lq 1 .disp .i64 0) (tP 1 0x400000000)) = some false := by decide

/-- R217: the machine runs a placed word: `addi 1`, from reset. -/
theorem test_step_addi : after Act.a (step (State.reset.withFetchWord 32 0x80200001)) = some 1 := by decide

/-- R421: the remainder of x^64 is the polynomial of ECMA-182 itself. -/
theorem test_crc64 : crc64 [0x01] = 0x42F0E1EBA9EA3693#64 := by decide

/-- R417: a port without a received opening counts a mismatch. -/
theorem test_mismatch : (tS.missed 3 7).pkg.mism[(3 : Fin 32)] = 1 := by decide
end Sys2Proof.Machine
end

section
/-!
PROOFS. The floor table (R89, R90): its index, a lookup after an entry is set, and what an acquiring answer leaves of the floors, of the
change counts and of the reflected lines.
-/
namespace Sys2Proof.Machine

/-! ## The index of an owner place (R89) -/

/-- The package field of an owner place. -/
theorem ownerPlace_package (lpkg : BitVec 18) (lclu : BitVec 9) (oa : BitVec 34) :
    (1#1 ++ lpkg ++ lclu ++ 0#2 ++ oa).extractLsb' 45 18 = lpkg := by
  ext i hi
  have hpos : 45 + i - 34 - 2 - 9 = i := by omega
  simp only [BitVec.getElem_extractLsb', BitVec.getLsbD_append, hpos]
  simp [hi, show ¬ 45 + i < 34 by omega, show ¬ 45 + i - 34 < 2 by omega, show ¬ 45 + i - 34 - 2 < 9 by omega]

/-- The cluster field of an owner place. -/
theorem ownerPlace_cluster (lpkg : BitVec 18) (lclu : BitVec 9) (oa : BitVec 34) :
    (1#1 ++ lpkg ++ lclu ++ 0#2 ++ oa).extractLsb' 36 9 = lclu := by
  ext i hi
  have hpos : 36 + i - 34 - 2 = i := by omega
  simp only [BitVec.getElem_extractLsb', BitVec.getLsbD_append, hpos]
  simp [hi, show ¬ 36 + i < 34 by omega, show ¬ 36 + i - 34 < 2 by omega]

/-- The hash of R89: every shifted part keeps its low eight bits, and the two short parts have no more. -/
theorem floorIdx_ownerPlace (lpkg : BitVec 18) (lclu : BitVec 9) (oa : BitVec 34) :
    (floorIdx (1#1 ++ lpkg ++ lclu ++ 0#2 ++ oa)).toNat =
      (lpkg.toNat ^^^ (lpkg.toNat >>> 8) ^^^ (lpkg.toNat >>> 16) ^^^ lclu.toNat ^^^ (lclu.toNat >>> 8)) &&& 0xFF := by
  have hpkg : lpkg.toNat >>> 16 % 4 % 256 = lpkg.toNat >>> 16 % 256 := by
    have := lpkg.isLt
    omega
  have hclu : lclu.toNat >>> 8 % 2 % 256 = lclu.toNat >>> 8 % 256 := by
    have := lclu.isLt
    omega
  have hmod (n : Nat) : n &&& 0xFF = n % 2 ^ 8 := Nat.and_two_pow_sub_one_eq_mod n 8
  rw [hmod]
  simp only [floorIdx, ownerPlace_package, ownerPlace_cluster, Nat.xor_mod_two_pow]
  simp [hpkg, hclu]

/-! ## A table kept as a list with one entry a key -/

/-- Where an entry replaces those of its key, its key finds it, and every other key finds what it found. -/
theorem find?_replaceKey {α κ : Type} [DecidableEq κ] (key : α → κ) (x : α) (l : List α) (k : κ) :
    (x :: l.filter fun e => key e != key x).find? (fun e => key e == k) =
      if k = key x then some x else l.find? fun e => key e == k := by
  by_cases h : k = key x
  · simp [h]
  · have hkeep (e : α) : decide ((key e != key x) = true ∧ (key e == k) = true) = (key e == k) := by
      by_cases he : key e = k <;> simp [he, h]
    have hx : (key x == k) = false := by simp [Ne.symm h]
    rw [if_neg h, List.find?_cons_of_neg (by simp [hx]), List.find?_filter]
    simp only [hkeep]

/-! ## Floors -/

/-- Setting an entry sets what its index finds, and no other's. -/
theorem Cluster.floorOf_setFloor (cl : Cluster) (idx k : BitVec 8) (place floor : Word) :
    (cl.setFloor idx place floor).floorOf k = if k = idx then some { idx := idx, place := place, floor := floor } else cl.floorOf k :=
  find?_replaceKey FloorEnt.idx { idx, place, floor } cl.floor k

@[simp] theorem Cluster.floorOf_bumpChange (cl : Cluster) (idx k : BitVec 8) : (cl.bumpChange idx).floorOf k = cl.floorOf k := rfl
@[simp] theorem Cluster.refl_bumpChange (cl : Cluster) (idx : BitVec 8) : (cl.bumpChange idx).refl = cl.refl := rfl

/-! ## Change counts -/

/-- What is filed for one index beside the count that `acq` adds to all: 0 where nothing is filed. -/
def Cluster.ownChange (cl : Cluster) (idx : BitVec 8) : BitVec 48 :=
  ((cl.changes.find? fun e => e.1 == idx).map Prod.snd).getD 0

theorem Cluster.changeOf_eq (cl : Cluster) (idx : BitVec 8) : cl.changeOf idx = cl.acqCount + cl.ownChange idx := by
  unfold changeOf ownChange
  cases cl.changes.find? fun e => e.1 == idx <;> simp

theorem Cluster.changes_bumpChange (cl : Cluster) (idx : BitVec 8) :
    (cl.bumpChange idx).changes = (idx, cl.ownChange idx + 1) :: cl.changes.filter fun e => e.1 != idx := by
  unfold bumpChange ownChange
  cases cl.changes.find? fun e => e.1 == idx <;> rfl

theorem Cluster.ownChange_bumpChange (cl : Cluster) (idx k : BitVec 8) :
    (cl.bumpChange idx).ownChange k = cl.ownChange k + if k = idx then 1 else 0 := by
  have hfind := find?_replaceKey Prod.fst (idx, cl.ownChange idx + 1) cl.changes k
  rw [ownChange, changes_bumpChange, hfind]
  by_cases h : k = idx
  · simp [h]
  · simp [h, ownChange]

/-- The count of one index rises by one, and no other. -/
theorem Cluster.changeOf_bumpChange (cl : Cluster) (idx k : BitVec 8) :
    (cl.bumpChange idx).changeOf k = cl.changeOf k + if k = idx then 1 else 0 := by
  have hacq : (cl.bumpChange idx).acqCount = cl.acqCount := rfl
  rw [changeOf_eq, changeOf_eq, ownChange_bumpChange, hacq, BitVec.add_assoc]

/-! ## An acquiring answer (R90) -/

/-- The entry of a place, where it holds that place. -/
def Cluster.floorHeld (cl : Cluster) (place : Word) : Option FloorEnt :=
  (cl.floorOf (floorIdx place)).filter fun f => f.place == place

theorem Cluster.floorHeld_of_free {cl : Cluster} {place : Word} (h : cl.floorOf (floorIdx place) = none) :
    cl.floorHeld place = none := by
  rw [floorHeld, h, Option.filter_none]

theorem Cluster.floorHeld_of_own {cl : Cluster} {place : Word} {f : FloorEnt} (h : cl.floorOf (floorIdx place) = some f)
    (hplace : f.place = place) : cl.floorHeld place = some f := by
  rw [floorHeld, h, Option.filter_some, if_pos (by simp [hplace])]

theorem Cluster.floorHeld_of_other {cl : Cluster} {place : Word} {f : FloorEnt} (h : cl.floorOf (floorIdx place) = some f)
    (hplace : f.place ≠ place) : cl.floorHeld place = none := by
  rw [floorHeld, h, Option.filter_some, if_neg (by simp [hplace])]

/-- The floor that an answer leaves: the greater of the two where the place holds its entry, else the answer's counter. -/
def Cluster.raisedFloor (cl : Cluster) (place c : Word) : Word :=
  match cl.floorHeld place with
  | some f => if f.floor.toNat < c.toNat then c else f.floor
  | none => c

/-- The lines that an answer leaves: where another place held the entry, those not filed under it. -/
def Cluster.linesLeft (cl : Cluster) (place : Word) : List ReflLine :=
  if (cl.floorOf (floorIdx place)).isSome ∧ cl.floorHeld place = none then
    cl.refl.filter fun l => floorIdx l.place != floorIdx place
  else cl.refl

/-- The three cases of R90 in one form: the entry is set, the lines of another holder go, and the entry's count rises. -/
theorem Cluster.raiseFloor_eq (cl : Cluster) (place c : Word) :
    cl.raiseFloor place c =
      ({ cl.setFloor (floorIdx place) place (cl.raisedFloor place c) with refl := cl.linesLeft place } : Cluster).bumpChange
        (floorIdx place) := by
  cases hent : cl.floorOf (floorIdx place) with
  | none =>
    simp [raiseFloor, raisedFloor, linesLeft, hent, floorHeld_of_free hent, setFloor]
  | some f =>
    by_cases hplace : f.place = place
    · simp [raiseFloor, raisedFloor, linesLeft, hent, floorHeld_of_own hent hplace, hplace, setFloor]
    · simp [raiseFloor, raisedFloor, linesLeft, hent, floorHeld_of_other hent hplace, hplace, setFloor]

theorem Cluster.floorOf_raiseFloor (cl : Cluster) (k : BitVec 8) (place c : Word) :
    (cl.raiseFloor place c).floorOf k =
      if k = floorIdx place then some { idx := k, place := place, floor := cl.raisedFloor place c } else cl.floorOf k := by
  rw [raiseFloor_eq, floorOf_bumpChange]
  refine (cl.floorOf_setFloor (floorIdx place) k place (cl.raisedFloor place c)).trans ?_
  split
  · next hk => rw [hk]
  · rfl

/-- The change count is one of 48 bits, so it goes round. -/
theorem Cluster.changeOf_raiseFloor (cl : Cluster) (k : BitVec 8) (place c : Word) :
    ((cl.raiseFloor place c).changeOf k).toNat = ((cl.changeOf k).toNat + if k = floorIdx place then 1 else 0) % 2 ^ 48 := by
  rw [raiseFloor_eq, changeOf_bumpChange, BitVec.toNat_add, apply_ite BitVec.toNat]
  rfl

theorem Cluster.refl_raiseFloor (cl : Cluster) (place c : Word) : (cl.raiseFloor place c).refl = cl.linesLeft place := by
  rw [raiseFloor_eq, refl_bumpChange]

/-- Settles O8: the hash field by field, the table at reset, and an acquiring answer's three effects, each by its own lemma. -/
theorem floorTable : Obligations.FloorTable := by
  unfold Obligations.FloorTable
  refine ⟨floorIdx_ownerPlace, fun idx => ⟨rfl, rfl⟩, Cluster.floorOf_setFloor, fun cl k place c => ?_⟩
  exact ⟨cl.floorOf_raiseFloor k place c, cl.changeOf_raiseFloor k place c, cl.refl_raiseFloor place c⟩

end Sys2Proof.Machine
end

section
/-!
PROOFS. Pointer operations (R263), the widening of immediates (R250), and `mkref` (R140, R265).
-/
namespace Sys2Proof.Machine

/-! ## Pointer operations that write a value (R263) -/

theorem setPv_eq {s : State} (h : FromDecoder s) (pd : PReg) (w : Word) :
    s.setPv pd w = .next (completed s fun a => a.setP pd { val := w, step := s.act.p[pd].step, tag := false }) :=
  finish_mapAct h

/-- `pseth` keeps the low 16 bits of pd below the shifted immediate. -/
theorem extractLsb'_append_low16 (w d : Word) :
    (w.extractLsb' 0 48 ++ d.extractLsb' 0 16 : BitVec 64) = (w <<< 16) ||| (d &&& 0xFFFF#64) := by
  have hmask (i : Nat) : (0xFFFF#64).getLsbD i = decide (i < 16) := by
    rw [BitVec.getLsbD_ofNat, show 0xFFFF = 2 ^ 16 - 1 from rfl, Nat.testBit_two_pow_sub_one]
    rw [← Bool.decide_and]
    exact decide_eq_decide.2 (by omega)
  refine BitVec.eq_of_getLsbD_eq fun i hi => ?_
  rw [BitVec.getLsbD_append, BitVec.getLsbD_or, BitVec.getLsbD_and, hmask]
  by_cases h : i < 16
  · simp [h]
  · simp [h, hi, show i - 16 < 48 by omega, BitVec.getLsbD_eq_getElem (show i - 16 < 64 by omega)]

theorem pointerArithmetic : Claim.PointerArithmetic := by
  intro s pd ps h
  refine ⟨finish_mapAct h, setPv_eq h pd _, setPv_eq h pd _, setPv_eq h pd _, setPv_eq h pd _, setPv_eq h pd _,
    fun n => ⟨setPv_eq h pd _, setPv_eq h pd _⟩, fun n => setPv_eq h pd _,
    fun i => ⟨setPv_eq h pd _, setPv_eq h pd _, ?_, finish_mapAct h⟩, finish_mapAct h⟩
  rw [exec_pseth, execPseth, extractLsb'_append_low16]
  exact setPv_eq h pd _

/-! ## Immediates (R250) -/

theorem ext?_of_ext {a : Act} {p : Pfx} {x : BitVec 24} (hp : a.pfx = some p) (hx : p.kind = .ext x) : a.ext? = some x := by
  simp only [Act.ext?, hp, hx]

theorem toInt_wide_plain {a : Act} (h : ∀ p x, a.pfx = some p → p.kind ≠ .ext x) {n : Nat} (i : BitVec n) (hn : n ≤ 64) :
    (a.wide i).toInt = i.toInt := by
  rw [wide_plain h, BitVec.toInt_signExtend_of_le hn]

theorem toInt_wide_ext {a : Act} {x : BitVec 24} (h : a.ext? = some x) {n : Nat} (i : BitVec n) (hn : 24 + n ≤ 64) :
    (a.wide i).toInt = x.toInt * 2 ^ n + i.toNat := by
  have hw : a.wide i = (x ++ i).signExtend 64 := by simp only [Act.wide, h]
  rw [hw, BitVec.toInt_signExtend_of_le hn, BitVec.toInt_append, if_neg (by decide), Int.mul_comm]

theorem immediateWidening : Claim.ImmediateWidening := by
  intro a i16 i12 i9
  refine ⟨fun h => ?_, fun p x hp hx => ?_⟩
  · exact ⟨toInt_wide_plain h i16 (by decide), toInt_wide_plain h i12 (by decide), toInt_wide_plain h i9 (by decide)⟩
  · have h := ext?_of_ext hp hx
    exact ⟨toInt_wide_ext h i16 (by decide), toInt_wide_ext h i12 (by decide), toInt_wide_ext h i9 (by decide)⟩

/-! ## References (R140, R265) -/

theorem execMkref_fault {s : State} {c : Code} (pd ps : PReg) (h : s.refFault s.act.p[ps].val = some c) :
    execMkref pd ps s = trapsWith s c s.act.p[ps].val := by
  simp only [execMkref, State.pv, h]; rfl

theorem execMkref_admitted {s : State} (pd ps : PReg) (hd : FromDecoder s) (h : s.refFault s.act.p[ps].val = none) :
    execMkref pd ps s = .next (completed s fun x =>
      x.setP pd { val := s.cl.place ||| (s.act.p[ps].val &&& 0x3FFFFFFFF#64), step := x.p[ps].step, tag := true }) := by
  simp only [execMkref, State.pv, h]
  exact finish_mapAct hd

/-- The four refusals of R140 in their order. -/
theorem refFault_eq (s : State) (a : Word) :
    s.refFault a =
      if a.extractLsb' 34 30 ≠ 0 then some 0x03
      else if a.extractLsb' 0 7 ≠ 0 then some 0x02
      else if 0x2F0000000 ≤ a.toNat ∧ a.toNat < 0x2F1000000 then some 0x05
      else if s.cl.window a.toNat = .hole then some 0x04
      else none := by
  simp [State.refFault, isOwn]

theorem makeReference : Claim.MakeReference := by
  intro s pd ps hd a
  refine ⟨fun hfar => ?_, fun hown hline => ?_, fun hown hline hlo hhi => ?_, fun hown hline hout hhole => ?_, fun hown hline hout hwin => ?_⟩
  · exact execMkref_fault pd ps (by rw [refFault_eq, if_pos hfar])
  · exact execMkref_fault pd ps (by rw [refFault_eq, if_neg (· hown), if_pos hline])
  · exact execMkref_fault pd ps (by rw [refFault_eq, if_neg (· hown), if_neg (· hline), if_pos ⟨hlo, hhi⟩])
  · have hctl : ¬ (0x2F0000000 ≤ a.toNat ∧ a.toNat < 0x2F1000000) := by omega
    exact execMkref_fault pd ps (by rw [refFault_eq, if_neg (· hown), if_neg (· hline), if_neg hctl, if_pos hhole])
  · have hctl : ¬ (0x2F0000000 ≤ a.toNat ∧ a.toNat < 0x2F1000000) := by omega
    exact execMkref_admitted pd ps hd
      (by rw [refFault_eq, if_neg (· hown), if_neg (· hline), if_neg hctl, if_neg hwin])

/-- Settles O10: the rows of major 0x01 by what they write, immediates by sign extension, `mkref` by the order of its refusals. -/
theorem pointers : Obligations.Pointers := ⟨pointerArithmetic, immediateWidening, makeReference⟩

end Sys2Proof.Machine
end

section
/-!
PROOFS. Fences (R182, R183, R311, R312) by the issue that they share; `pub`, `seqadv` and `shade` (R150, R152, R162, R313) by the walk queue
and the pending shades.
-/
namespace Sys2Proof.Machine

/-! ## Fences (R182, R183, R311, R312) -/

@[simp] theorem State.acquireAll_act (s : State) (named : Word → Bool) : (s.acquireAll named).act = s.act := rfl

@[simp] theorem State.orderPoint_act (s : State) : s.orderPoint.act = s.act := by
  unfold State.orderPoint
  split <;> rfl

/-- The fences of a rectangle share their issue and differ in what they then run. -/
theorem exec_rectFence (s : State) (pa : PReg) :
    ∀ i ∈ [Instr.fence pa, .acq pa, .rel pa], ∃ run, exec i s = s.fenceOn pa run := by
  simp only [List.forall_mem_cons, exec_fence, exec_acq, exec_rel, execFence, execAcq, execRel]
  exact ⟨⟨_, rfl⟩, ⟨_, rfl⟩, ⟨_, rfl⟩, List.forall_mem_nil _⟩

section FenceOn
variable {s : State} {pa : PReg} {run : State → Rect → Out} (h : InOrder s)
include h

theorem fenceOn_badRect (hr : s.cl.rectOk (rectOf (s.rectIn pa)) = false) :
    s.fenceOn pa run = trapsWith s 0x04 ((s.rectIn pa).setWidth 64) := by
  rw [State.fenceOn, inOrder_run h]
  simp [hr, trapsWith]

theorem fenceOn_atomic (hr : s.cl.rectOk (rectOf (s.rectIn pa)) = true) (ha : s.inAtomic = true) :
    s.fenceOn pa run = .next (completed s id) := by
  rw [State.fenceOn, inOrder_run h]
  simp [hr, ha, finish_eq h.2]

theorem fenceOn_general (hr : s.cl.rectOk (rectOf (s.rectIn pa)) = true) (hg : General s) :
    s.fenceOn pa run = run s (rectOf (s.rectIn pa)) := by
  have hna : s.inAtomic = false := hg
  rw [State.fenceOn, inOrder_run h]
  simp [hr, hna]

theorem acquireAll_finish (named : Word → Bool) : (s.acquireAll named).finish = .next (completed (s.acquireAll named) id) :=
  finish_eq h.2

theorem orderPoint_finish : s.orderPoint.finish = .next (completed s.orderPoint id) :=
  finish_eq (by rw [State.orderPoint_act]; exact h.2)

theorem orderPoint_acquireAll_finish (named : Word → Bool) :
    (s.orderPoint.acquireAll named).finish = .next (completed (s.orderPoint.acquireAll named) id) :=
  finish_eq (by rw [State.acquireAll_act, State.orderPoint_act]; exact h.2)

end FenceOn

section AcqO
variable {s : State} {pa : PReg} (h : InOrder s)
include h

theorem execAcqO_own (ha : s.act.p[pa].val.getLsbD 63 = false) : execAcqO pa s = .next (completed s id) := by
  rw [execAcqO, inOrder_run h]
  simp only [State.pv, ha]
  exact finish_eq h.2

theorem execAcqO_refused {c : Code} (ha : s.act.p[pa].val.getLsbD 63 = true) (hc : s.placeFault s.act.p[pa].val = some c) :
    execAcqO pa s = trapsWith s c s.act.p[pa].val := by
  rw [execAcqO, inOrder_run h]
  simp only [State.pv, ha, hc]
  rfl

theorem execAcqO_pod (ha : s.act.p[pa].val.getLsbD 63 = true) (hp : s.placeFault s.act.p[pa].val = none) (hg : General s) :
    execAcqO pa s = .next (completed (s.acquireAll fun place => place == prefixOf s.act.p[pa].val) id) := by
  have hna : s.inAtomic = false := hg
  rw [execAcqO, inOrder_run h]
  simp only [State.pv, ha, hp, hna]
  exact acquireAll_finish h _

end AcqO

theorem fences : Claim.Fences := by
  intro s pa h a w acquired inRect
  refine ⟨fun hr i hi => ?_, fun hr ha i hi => ?_, fun hr hg => ⟨?_, fun hrel => ⟨?_, ?_⟩, fun hrel => ⟨?_, ?_⟩⟩,
    execAcqO_own h, fun c => execAcqO_refused h, execAcqO_pod h⟩
  · obtain ⟨run, hrun⟩ := exec_rectFence s pa i hi
    exact hrun.trans (fenceOn_badRect h hr)
  · obtain ⟨run, hrun⟩ := exec_rectFence s pa i hi
    exact hrun.trans (fenceOn_atomic h hr ha)
  · rw [exec_acq, execAcq, fenceOn_general h hr hg]
    exact acquireAll_finish h _
  · rw [exec_rel, execRel, fenceOn_general h hr hg, if_pos hrel]
    exact orderPoint_finish h
  · rw [exec_fence, execFence, fenceOn_general h hr hg, if_pos hrel]
    exact orderPoint_acquireAll_finish h _
  · rw [exec_rel, execRel, fenceOn_general h hr hg, if_neg (by simp [hrel])]
    rfl
  · rw [exec_fence, execFence, fenceOn_general h hr hg, if_neg (by simp [hrel])]
    rfl

/-! ## The walk queue as `pub` and `seqadv` pass it (R152) -/

section ThroughQueue
variable {s : State} {root : Option Word} {word : Word}

theorem throughQueue_enters (hf : Fresh s) (hd : s.drained = true) (hroom : s.cl.walkQ.length < Config.walkQueueSize) :
    s.throughQueue root word =
      waitsFor { s with cl := { s.cl with walkQ := s.cl.walkQ ++ [{ root, word, slot := slotOfIdx s.cur, who := s.lcell }] },
                        agenda := s.agenda ++ [.lampWalk] } .walkWait := by
  have hp : s.act.phase = .none := hf
  simp only [State.throughQueue, hp, hd, Nat.not_le.2 hroom]
  rfl

theorem throughQueue_blocked (hf : Fresh s) (hb : s.drained = false ∨ Config.walkQueueSize ≤ s.cl.walkQ.length) :
    s.throughQueue root word = waits s := by
  have hp : s.act.phase = .none := hf
  have hwait : (!s.drained || decide (Config.walkQueueSize ≤ s.cl.walkQ.length)) = true := by simpa using hb
  simp only [State.throughQueue, hp, hwait]
  rfl

theorem throughQueue_waiting (hp : s.act.phase = .walkWait) : s.throughQueue root word = waits s := by
  simp only [State.throughQueue, hp]
  rfl

theorem throughQueue_done (h : InOrder s) (hp : s.act.phase = .walkDone) :
    s.throughQueue root word = .next (completed s.orderPoint id) := by
  simp only [State.throughQueue, hp]
  exact orderPoint_finish h

theorem throughQueue_failed {c : Code} {t : Word} (hp : s.act.phase = .walkFail c t) :
    s.throughQueue root word = trapsWith s c t := by
  simp only [State.throughQueue, hp]
  rfl

end ThroughQueue

/-! ## What `pub`, `seqadv` and `shade` come to (R150, R313) -/

section Sequence
variable {s : State} {pa pb : PReg} (h : Serving s)
include h

/-- What is no sequence word traps with its code, whichever of the three names it. -/
theorem exec_noSequenceWord {c : Code} (hc : seqFault s.act.p[pb].val = some c) :
    ∀ i ∈ [Instr.pub pa pb, .seqadv pb, .shade pa pb], exec i s = trapsWith s c s.act.p[pb].val := by
  simp only [List.forall_mem_cons, exec_pub, exec_seqadv, exec_shade, execPub, execSeqadv, execShade, generalOnly_run h,
    State.pv, hc]
  exact ⟨rfl, rfl, rfl, List.forall_mem_nil _⟩

theorem execSeqadv_queues (hw : seqFault s.act.p[pb].val = none) : execSeqadv pb s = s.throughQueue none s.act.p[pb].val := by
  simp only [execSeqadv, generalOnly_run h, State.pv, hw]

theorem execPub_null (hw : seqFault s.act.p[pb].val = none) (hv : s.act.p[pa].val = 0) (ht : s.act.p[pa].tag = false) :
    execPub pa pb s = s.throughQueue none s.act.p[pb].val := by
  simp only [execPub, generalOnly_run h, State.pv, hw, hv, ht]
  rfl

theorem execPub_root (hw : seqFault s.act.p[pb].val = none) (ho : s.ownRef s.act.p[pa] = true)
    (hbuf : s.cl.walkbuf.getLsbD 63 = true) :
    execPub pa pb s = s.throughQueue (some (s.act.p[pa].val &&& 0x3FFFFFFFF#64)) s.act.p[pb].val := by
  have ht : s.act.p[pa].tag = true := (Bool.and_eq_true_iff.1 ho).1
  simp only [execPub, generalOnly_run h, State.pv, hw, ho, hbuf, ht, Bool.or_true, Bool.not_true, Bool.and_false]
  rfl

theorem execPub_notOwn (hw : seqFault s.act.p[pb].val = none) (hn : s.act.p[pa].val ≠ 0 ∨ s.act.p[pa].tag = true)
    (ho : s.ownRef s.act.p[pa] = false) : execPub pa pb s = trapsWith s 0x05 s.act.p[pa].val := by
  have hnull : (s.act.p[pa].val == 0 && !s.act.p[pa].tag) = false := by
    obtain hv | ht := hn
    · rw [beq_false_of_ne hv, Bool.false_and]
    · rw [ht, Bool.not_true, Bool.and_false]
  simp only [execPub, generalOnly_run h, State.pv, hw, ho, hnull]
  rfl

theorem execShade_notOwn (hw : seqFault s.act.p[pb].val = none) (ho : s.ownRef s.act.p[pa] = false) :
    execShade pa pb s = trapsWith s 0x05 s.act.p[pa].val := by
  simp only [execShade, generalOnly_run h, State.pv, hw, ho]
  rfl

/-- A `shade` that reads its object's header keeps the shade where the header is well formed, and traps where it is not. -/
theorem execShade_read {site : Site} {o : Nat} (hw : seqFault s.act.p[pb].val = none) (hown : s.ownRef s.act.p[pa] = true)
    (hf : Fresh s) (ho : (s.act.p[pa].val.extractLsb' 0 34).toNat / 128 * 128 = o) (hs : s.checkOwn .load o = .ok site) :
    execShade pa pb s =
      if objOk (wordOf (s.view site 8)) ((s.viewTags site 1).headD false) o = true then
        s.holdShade { obj := BitVec.ofNat 64 o, word := s.act.p[pb].val }
      else trapsWith s 0x04 s.act.p[pa].val := by
  have hp : s.act.phase = .none := hf
  simp only [execShade, generalOnly_run h, State.pv, hw, hown, hp, ho, hs]
  rfl

end Sequence

/-! ## Pending shades (R162) -/

section HoldShade
variable {s : State} {x : Shade}

theorem holdShade_joins (h : InOrder s) (hx : s.cl.shades.contains x = true) : s.holdShade x = .next (completed s id) := by
  rw [State.holdShade, if_pos hx, finish_eq h.2]

theorem holdShade_adds (h : InOrder s) (hx : s.cl.shades.contains x = false) (hroom : s.cl.shades.length < Config.maxShades) :
    s.holdShade x = .next (completed { s with cl := { s.cl with shades := s.cl.shades ++ [x] } } id) := by
  rw [State.holdShade, if_neg (by rw [hx]; decide), if_pos hroom]
  exact finish_eq h.2

theorem holdShade_full (hx : s.cl.shades.contains x = false) (hfull : Config.maxShades ≤ s.cl.shades.length) :
    s.holdShade x = waits s := by
  rw [State.holdShade, if_neg (by rw [hx]; decide), if_neg (Nat.not_lt.2 hfull)]
  rfl

end HoldShade

/-- An object's own-space address is a word. -/
theorem toNat_objectAddress (v : Word) :
    (BitVec.ofNat 64 ((v.extractLsb' 0 34).toNat / 128 * 128)).toNat = (v.extractLsb' 0 34).toNat / 128 * 128 := by
  have hlt := (v.extractLsb' 0 34).isLt
  rw [BitVec.toNat_ofNat, Nat.mod_eq_of_lt (by omega)]

theorem publication : Claim.Publication := by
  intro s pa pb h w q queued x
  have queued_of {i : Instr} {root : Option Word} (hi : exec i s = s.throughQueue root w) : queued i root :=
    ⟨fun hf hd hroom => hi.trans (throughQueue_enters hf hd hroom), fun hf hb => hi.trans (throughQueue_blocked hf hb),
      fun hp => hi.trans (throughQueue_waiting hp), fun hp => hi.trans (throughQueue_done h.1 hp),
      fun c t hp => hi.trans (throughQueue_failed hp)⟩
  refine ⟨fun c hc => exec_noSequenceWord h hc, fun hw => ⟨queued_of (execSeqadv_queues h hw),
    fun hv ht => queued_of (execPub_null h hw hv ht), fun ho _ hbuf => queued_of (execPub_root h hw ho hbuf),
    fun hn ho => ⟨execPub_notOwn h hw hn ho, execShade_notOwn h hw ho⟩, fun site hown hf hs => ?_⟩⟩
  have hread := execShade_read (o := x.obj.toNat) h hw hown hf (toNat_objectAddress q.val).symm hs
  rw [BitVec.ofNat_toNat, BitVec.setWidth_eq] at hread
  refine ⟨fun hbad => ?_, fun hok => ⟨fun hin => ?_, fun hnew hroom => ?_, fun hnew hfull => ?_⟩⟩
  · exact hread.trans (if_neg (by rw [hbad]; decide))
  · exact (hread.trans (if_pos hok)).trans (holdShade_joins h.1 hin)
  · exact (hread.trans (if_pos hok)).trans (holdShade_adds h.1 hnew hroom)
  · exact (hread.trans (if_pos hok)).trans (holdShade_full hnew hfull)

/-- Settles O31: the fences by their shared issue, then publication by the walk queue and the pending shades. -/
theorem fencesAndPublication : Obligations.FencesAndPublication := ⟨fences, publication⟩

end Sys2Proof.Machine
end
